-- ==== Sys2Proof/Word.lean ====
section
/-! DEFINITION. The machine word, the byte and the plainest reading of bits (spec 00 R1). -/

namespace Sys2Proof

/-- A scalar register, an address or a control register (spec 02 R14, R15). -/
abbrev Word := BitVec 64

/-- A byte of memory. -/
abbrev Byte := BitVec 8

end Sys2Proof
end

