-- ==== Sys2Proof/Machine/Codec.lean ====
section
/-! DEFINITION. Little-endian bytes and the compression codec (spec 20 R287, R288).

The transform unit, the VLDZ word, the flues and the inline-compression controllers share this one codec. -/

namespace Sys2Proof.Machine

open Sys2Proof

/-- The natural number whose little-endian bytes are `bs` (spec 06 R87). -/
def leNat : List Byte → Nat
  | [] => 0
  | b :: r => b.toNat + 256 * leNat r

/-- The `n` little-endian bytes of `v`. -/
def leBytes : Nat → Nat → List Byte
  | 0, _ => []
  | n + 1, v => BitVec.ofNat 8 v :: leBytes n (v / 256)

/-- Bits `hi`:`lo` of `v`. -/
def bits (v hi lo : Nat) : Nat := v / 2 ^ lo % 2 ^ (hi + 1 - lo)

/-- Two's complement reading of the low `n` bits of `v`. -/
def sgn (n v : Nat) : Int :=
  let u := v % 2 ^ n
  if u < 2 ^ (n - 1) then (u : Int) else (u : Int) - 2 ^ n

/-- The low `n` bits of an integer. -/
def wrap (n : Nat) (z : Int) : Nat := (z % 2 ^ n).toNat

/-- Width in bits of a width code (R287). -/
def codecWidth (c : Nat) : Nat :=
  if c ≤ 28 then c else if c = 29 then 32 else if c = 30 then 48 else 64

/-- The element a residual stands for after predecessor `p` (R288). -/
def codecElem (tr w p r : Nat) : Nat :=
  if tr = 0 then r
  else if tr = 1 then (if r % 2 = 0 then wrap w ((p + r / 2 : Nat) : Int) else wrap w ((p : Int) - (r / 2 + 1 : Nat)))
  else Nat.xor p r

/-- The residual of `x` after predecessor `p`, the inverse of `codecElem` (R288). -/
def codecResidual (tr w p x : Nat) : Nat :=
  if tr = 0 then x
  else if tr = 1 then
    let d := sgn w (x + 2 ^ w - p % 2 ^ w)
    if 0 ≤ d then (2 * d).toNat else (-2 * d - 1).toNat
  else Nat.xor p x

/-- Decode `n` elements of one sub-stream held in `v`: the elements in order and the bit position reached, or none where
a group's width is above `w`.  `i` counts within the group of 16. -/
def codecSlice (v w tr : Nat) : Nat → Nat → Nat → Nat → Nat → List Nat × Option Nat
  | 0, _, pos, _, _ => ([], some pos)
  | n + 1, i, pos, wd, p =>
    let wd' := if i = 0 then codecWidth (v / 2 ^ pos % 32) else wd
    let pos' := if i = 0 then pos + 5 else pos
    if w < wd' then ([], none)
    else
      let x := codecElem tr w p (v / 2 ^ pos' % 2 ^ wd')
      let (xs, e) := codecSlice v w tr n ((i + 1) % 16) (pos' + wd') wd' x
      (x :: xs, e)

/-- A chunk's header (R287): E, N, the transform and the length in bytes of the chunk; `ok` is false where it is
malformed. -/
structure ChunkHead where
  count : Nat
  subs : Nat
  tr : Nat
  lens : List Nat
  ok : Bool
  deriving DecidableEq, Repr

/-- Bytes of the header alone. -/
def ChunkHead.headBytes (h : ChunkHead) : Nat := 4 + 2 * h.subs

/-- Bytes of the whole chunk. -/
def ChunkHead.bytes (h : ChunkHead) : Nat := h.headBytes + h.lens.sum

/-- The header at the start of a byte sequence. -/
def chunkHead (bs : List Byte) : ChunkHead :=
  let v := leNat (bs.take 4)
  let n := bits v 26 24 + 1
  { count := bits v 23 0, subs := n, tr := bits v 28 27
    lens := (List.range n).map (fun j => leNat ((bs.drop (4 + 2 * j)).take 2))
    ok := decide (bits v 28 27 ≠ 3 ∧ bits v 31 29 = 0) }

/-- The sub-streams from number `j` on; false where one is malformed (R288). -/
def codecSubs (h : ChunkHead) (w : Nat) : List Nat → Nat → List Byte → List Nat × Bool
  | [], _, _ => ([], true)
  | len :: ls, j, bs =>
    let q := (h.count + h.subs - 1) / h.subs
    let cnt := Nat.min h.count ((j + 1) * q) - Nat.min h.count (j * q)
    let v := leNat (bs.take len)
    match codecSlice v w h.tr cnt 0 0 0 0 with
    | (xs, none) => (xs, false)
    | (xs, some pos) =>
      if (pos + 7) / 8 = len ∧ v / 2 ^ pos = 0 then
        let (ys, ok) := codecSubs h w ls (j + 1) (bs.drop len)
        (xs ++ ys, ok)
      else (xs, false)

/-- Decode a chunk at element width `w`: the elements in order up to the first malformed point, and whether the whole
chunk is well formed (R287, R288). -/
def chunkDecode (w : Nat) (bs : List Byte) : List Nat × Bool :=
  let h := chunkHead bs
  if h.ok then codecSubs h w h.lens 0 (bs.drop h.headBytes) else ([], false)

/-- The least width code that holds every residual (R288). -/
def codecCode (rs : List Nat) : Nat :=
  ((List.range 32).find? (fun c => rs.all (fun r => decide (r < 2 ^ codecWidth c)))).getD 31

/-- The residuals of a slice. -/
def codecResiduals (tr w : Nat) : Nat → List Nat → List Nat
  | _, [] => []
  | p, x :: xs => codecResidual tr w p x :: codecResiduals tr w x xs

/-- A group's residuals packed at width `wd` above bit `pos`. -/
def codecPack (wd : Nat) : Nat → List Nat → Nat
  | _, [] => 0
  | pos, r :: rs => r * 2 ^ pos + codecPack wd (pos + wd) rs

/-- Groups of 16 residuals packed from bit `pos` up; the number and the bit length. -/
def codecGroups : Nat → List Nat → Nat → Nat × Nat
  | 0, _, pos => (0, pos)
  | _ + 1, [], pos => (0, pos)
  | f + 1, r :: rs, pos =>
    let g := (r :: rs).take 16
    let c := codecCode g
    let (v, e) := codecGroups f ((r :: rs).drop 16) (pos + 5 + codecWidth c * g.length)
    (c * 2 ^ pos + codecPack (codecWidth c) (pos + 5) g + v, e)

/-- One encoded sub-stream. -/
def codecEncodeSlice (tr w : Nat) (xs : List Nat) : List Byte :=
  let (v, e) := codecGroups xs.length (codecResiduals tr w 0 xs) 0
  leBytes ((e + 7) / 8) v

/-- Encode elements of width `w` into one chunk with `n` sub-streams under transform `tr` (R287, R288). -/
def chunkEncode (w n tr : Nat) (xs : List Nat) : List Byte :=
  let q := (xs.length + n - 1) / n
  let subs := (List.range n).map (fun j => codecEncodeSlice tr w ((xs.drop (j * q)).take q))
  leBytes 4 (xs.length + (n - 1) * 2 ^ 24 + tr * 2 ^ 27) ++ (subs.map (fun b => leBytes 2 b.length)).flatten ++ subs.flatten

/-- The 512 bytes of a block as 128 N32 elements. -/
def blockElems (bs : List Byte) : List Nat := (List.range 128).map (fun k => leNat ((bs.drop (4 * k)).take 4))

/-- The sectors in which inline compression stores a 512-byte block (spec 20 R289): the shortest of the three
transforms, a tie going to the lower code, or the raw bytes when it is longer than 448 bytes. -/
def blockStore (bs : List Byte) : List Byte × Bool :=
  let xs := blockElems bs
  let c0 := chunkEncode 32 2 0 xs
  let c1 := chunkEncode 32 2 1 xs
  let c2 := chunkEncode 32 2 2 xs
  let m := if c1.length < c0.length then c1 else c0
  let m := if c2.length < m.length then c2 else m
  if 448 < m.length then (bs, true) else (m ++ List.replicate ((64 - m.length % 64) % 64) 0, false)

end Sys2Proof.Machine
end

