-- ==== Sys2Proof/Machine/Fp.lean ====
section
/-! DEFINITION. Number formats and rounding (spec 06 R84 to R99, 05 R74 to R77).

Elements are bit patterns held as natural numbers.  Every result is formed exactly and rounded once. -/

namespace Sys2Proof.Machine

open Sys2Proof

/-- A floating-point format (R84): widths of exponent and fraction, and the bias. -/
structure Fmt where
  eb : Nat
  mb : Nat
  bias : Nat
  deriving DecidableEq, Repr

def fp64 : Fmt := ⟨11, 52, 1023⟩
def fp32 : Fmt := ⟨8, 23, 127⟩
def fp16 : Fmt := ⟨5, 10, 15⟩
def bf16 : Fmt := ⟨8, 7, 127⟩
def f8e4 : Fmt := ⟨4, 3, 7⟩
def f8e5 : Fmt := ⟨5, 2, 15⟩
def f4 : Fmt := ⟨2, 1, 1⟩

/-- The format of a floating type code 0 to 6 (R32). -/
def fmtOf (t : Nat) : Fmt :=
  match t with
  | 0 => fp64 | 1 => fp32 | 2 => fp16 | 3 => bf16 | 4 => f8e4 | 5 => f8e5 | _ => f4

/-- Bits of a pattern. -/
def Fmt.width (f : Fmt) : Nat := 1 + f.eb + f.mb

/-- Formats whose all-ones exponent holds infinities and NaNs (R84). -/
def Fmt.ieee (f : Fmt) : Bool := decide (f ≠ f8e4) && decide (f ≠ f4)

/-- The four formats that flush (R97). -/
def Fmt.flushes (f : Fmt) : Bool := decide (f.width ≥ 16)

/-- A pattern's reading (R84, R85): a number is (-1)^neg x m x 2^e. -/
inductive FVal where
  | nan (signalling : Bool)
  | inf (neg : Bool)
  | num (neg : Bool) (m : Nat) (e : Int)
  deriving DecidableEq, Repr

/-- The sign bit, exponent and fraction of a pattern. -/
def Fmt.sign (f : Fmt) (p : Nat) : Bool := decide (p / 2 ^ (f.eb + f.mb) % 2 = 1)
def Fmt.expo (f : Fmt) (p : Nat) : Nat := p / 2 ^ f.mb % 2 ^ f.eb
def Fmt.frac (f : Fmt) (p : Nat) : Nat := p % 2 ^ f.mb

/-- Read a pattern. -/
def Fmt.val (f : Fmt) (p : Nat) : FVal :=
  let s := f.sign p
  let e := f.expo p
  let m := f.frac p
  let ones := 2 ^ f.eb - 1
  if f = f8e4 ∧ e = ones ∧ m = 7 then .nan false
  else if f.ieee ∧ e = ones then
    if m = 0 then .inf s else .nan (decide (m / 2 ^ (f.mb - 1) = 0))
  else if e = 0 then .num s m (1 - (f.bias : Int) - f.mb)
  else .num s (m + 2 ^ f.mb) ((e : Int) - f.bias - f.mb)

/-- Input flush (R97): a subnormal pattern of the four wide formats is read as a zero of its sign. -/
def Fmt.flushIn (f : Fmt) (flush : Bool) (p : Nat) : Nat :=
  if flush && f.flushes && decide (f.expo p = 0) then (if f.sign p then 2 ^ (f.eb + f.mb) else 0) else p

/-- The five sticky flags of FFLAGS as a number (R17). -/
abbrev Flags := Nat
def flagNV : Flags := 1
def flagDZ : Flags := 2
def flagOF : Flags := 4
def flagUF : Flags := 8
def flagNX : Flags := 16

/-- Join two sets of flags. -/
def joinFlags (a b : Flags) : Flags := Nat.lor a b

/-- A generated NaN of cause `c` and what it flags by being delivered into F4 (R86, R94). -/
def Fmt.nanOf (f : Fmt) (c : Nat) : Nat × Flags :=
  if f = f4 then (0, flagNV)
  else if f = f8e4 then (0x7F, 0)
  else if f = f8e5 then (0x7E, 0)
  else ((2 ^ f.eb - 1) * 2 ^ f.mb + 2 ^ (f.mb - 1) + c, 0)

/-- The largest finite magnitude as a pattern without sign (R84). -/
def Fmt.maxPat (f : Fmt) : Nat :=
  if f = f8e4 then 0x7E else if f = f4 then 7 else (2 ^ f.eb - 1) * 2 ^ f.mb - 1

/-- A pattern with its sign. -/
def Fmt.signed (f : Fmt) (neg : Bool) (p : Nat) : Nat := p + if neg then 2 ^ (f.eb + f.mb) else 0

/-- An infinity delivered into the format (R94). -/
def Fmt.infOf (f : Fmt) (neg : Bool) : Nat × Flags :=
  if f = f8e4 then (0x7F, flagNV)
  else if f = f4 then (f.signed neg 7, flagNV)
  else (f.signed neg ((2 ^ f.eb - 1) * 2 ^ f.mb), 0)

/-- How a result is rounded: the mode of R92 (0 RNE, 1 RTZ, 2 RDN, 3 RUP, 4 RNA, 5 stochastic), the sixteen random bits of a
stochastic rounding, and output flush. -/
structure Rnd where
  mode : Nat
  r : Nat
  flush : Bool
  deriving DecidableEq, Repr

/-- Bits in a number. -/
def bitLen (m : Nat) : Nat := if m = 0 then 0 else Nat.log2 m + 1

/-- Whether a magnitude k + rem / 2^sh, with a little more where `more`, rounds up to k + 1 (R92, R96). -/
def roundsUp (mode r : Nat) (neg : Bool) (k rem sh : Nat) (more : Bool) : Bool :=
  let den := 2 ^ sh
  let inexact := decide (rem ≠ 0) || more
  if ¬ inexact then false
  else
    match mode with
    | 0 => decide (den < 2 * rem) || (decide (den = 2 * rem) && (more || decide (k % 2 = 1)))
    | 1 => false
    | 2 => neg
    | 3 => !neg
    | 4 => decide (den ≤ 2 * rem)
    | _ =>
      if neg then !decide (r * den < (den - rem) * 65536)
      else if more then decide (r * den ≤ rem * 65536) else decide (r * den < rem * 65536)

/-- m x 2^e cut at the quantum 2^q: whole quanta, the remainder and its bits. -/
def cutAt (m : Nat) (e q : Int) : Nat × Nat × Nat :=
  if q ≤ e then (m * 2 ^ (e - q).toNat, 0, 0)
  else
    let sh := (q - e).toNat
    (m / 2 ^ sh, m % 2 ^ sh, sh)

/-- Whether k x 2^q exceeds the format's largest finite magnitude. -/
def Fmt.above (f : Fmt) (k : Nat) (q : Int) (more : Bool) : Bool :=
  match f.val f.maxPat with
  | .num _ m e =>
    if q ≤ e then decide (m * 2 ^ (e - q).toNat < k) || (decide (m * 2 ^ (e - q).toNat = k) && more)
    else decide (m < k * 2 ^ (q - e).toNat) || (decide (m = k * 2 ^ (q - e).toNat) && more)
  | _ => false

/-- Round the nonzero magnitude m x 2^e (with a little more where `more`) with sign `neg` into the format: the pattern and
the flags (R92 to R97).  Where `more`, m has at least 18 bits below the format's quantum. -/
def Fmt.round (f : Fmt) (rn : Rnd) (neg : Bool) (m : Nat) (e : Int) (more : Bool) : Nat × Flags :=
  let emin : Int := 1 - (f.bias : Int)
  let top : Int := e + bitLen m - 1
  let q : Int := max (top - f.mb) (emin - f.mb)
  let (k, rem, sh) := cutAt m e q
  let big := f.above m e more
  let mode := if big ∧ rn.mode = 5 then 0 else rn.mode
  let up := roundsUp mode rn.r neg k rem sh more
  let k' := if up then k + 1 else k
  let inexact := decide (rem ≠ 0) || more
  let ovf := if mode = 1 ∨ mode = 2 ∨ mode = 3 then big else f.above k' q false
  if ovf then
    let away := decide (mode = 0) || decide (mode = 4) || (decide (mode = 3) && !neg) || (decide (mode = 2) && neg)
    let fl := joinFlags flagOF flagNX
    if away ∧ f = f8e4 then (0x7F, fl)
    else if away ∧ f ≠ f4 then (f.signed neg ((2 ^ f.eb - 1) * 2 ^ f.mb), fl)
    else (f.signed neg f.maxPat, fl)
  else
    let small := decide (k' < 2 ^ f.mb)
    let (kk, qq) := if k' = 2 ^ (f.mb + 1) then (2 ^ f.mb, q + 1) else (k', q)
    let pat := if small then k' else (qq + f.mb + f.bias).toNat * 2 ^ f.mb + (kk - 2 ^ f.mb)
    if rn.flush ∧ f.flushes ∧ small ∧ k' ≠ 0 then (f.signed neg 0, joinFlags flagUF flagNX)
    else (f.signed neg pat, if inexact then (if small then joinFlags flagUF flagNX else flagNX) else 0)

/-- Deliver an exact value into the format: zero keeps its sign, an infinity follows R94, a NaN is the NaN of cause 1. -/
def Fmt.deliver (f : Fmt) (rn : Rnd) (v : FVal) : Nat × Flags :=
  match v with
  | .nan sg => let (p, fl) := f.nanOf 1; (p, joinFlags fl (if sg then flagNV else 0))
  | .inf s => f.infOf s
  | .num s m e => if m = 0 then (f.signed s 0, 0) else f.round rn s m e false

/-- An invalid operation's result: the NaN of cause `c` with the invalid flag. -/
def Fmt.invalid (f : Fmt) (c : Nat) : Nat × Flags := ((f.nanOf c).1, flagNV)

/-- The NaN of cause 1, invalid where an operand is signalling or `also` (R74). -/
def Fmt.nanIn (f : Fmt) (vs : List FVal) (also : Bool) : Nat × Flags :=
  let (p, fl) := f.nanOf 1
  (p, joinFlags fl (if also || vs.any (fun v => decide (v = .nan true)) then flagNV else 0))

/-- Whether a reading is a NaN. -/
def FVal.isNan : FVal → Bool
  | .nan _ => true
  | _ => false

/-- The sign of a reading that is no NaN. -/
def FVal.neg : FVal → Bool
  | .nan _ => false
  | .inf s => s
  | .num s _ _ => s

/-- Negate. -/
def FVal.flip : FVal → FVal
  | .nan s => .nan s
  | .inf s => .inf (!s)
  | .num s m e => .num (!s) m e

/-- A reading times 2^d. -/
def FVal.scale (v : FVal) (d : Int) : FVal :=
  match v with
  | .num s m e => .num s m (e + d)
  | v => v

/-- Signed integer of a number at exponent `q`, which is at most its own. -/
def scaled (s : Bool) (m : Nat) (e q : Int) : Int :=
  let v : Int := m * 2 ^ (e - q).toNat
  if s then -v else v

/-- The exact sum of two numbers; an exact zero of opposite signs is +0, or -0 under RDN (R92). -/
def exactAdd (mode : Nat) (s1 : Bool) (m1 : Nat) (e1 : Int) (s2 : Bool) (m2 : Nat) (e2 : Int) : FVal :=
  let q := min e1 e2
  let v := scaled s1 m1 e1 q + scaled s2 m2 e2 q
  if v = 0 then .num (if s1 = s2 then s1 else decide (mode = 2)) 0 q
  else .num (decide (v < 0)) v.natAbs q

/-- a + b (R73, R74). -/
def Fmt.add (f : Fmt) (rn : Rnd) (a b : FVal) : Nat × Flags :=
  match a, b with
  | .num s1 m1 e1, .num s2 m2 e2 => f.deliver rn (exactAdd rn.mode s1 m1 e1 s2 m2 e2)
  | .inf s, .inf t => if s = t then f.infOf s else f.invalid 3
  | .inf s, .num .. => f.infOf s
  | .num .., .inf s => f.infOf s
  | a, b => f.nanIn [a, b] false

/-- a x b (R73, R74). -/
def Fmt.mul (f : Fmt) (rn : Rnd) (a b : FVal) : Nat × Flags :=
  match a, b with
  | .num s1 m1 e1, .num s2 m2 e2 => f.deliver rn (.num (s1 != s2) (m1 * m2) (e1 + e2))
  | .inf s, .inf t => f.infOf (s != t)
  | .inf s, .num t m _ => if m = 0 then f.invalid 4 else f.infOf (s != t)
  | .num t m _, .inf s => if m = 0 then f.invalid 4 else f.infOf (s != t)
  | a, b => f.nanIn [a, b] false

/-- a x b + c, rounded once (R73, R74). -/
def Fmt.fma (f : Fmt) (rn : Rnd) (a b c : FVal) : Nat × Flags :=
  let zeroInf := match a, b with
    | .inf _, .num _ m _ => decide (m = 0)
    | .num _ m _, .inf _ => decide (m = 0)
    | _, _ => false
  if a.isNan || b.isNan || c.isNan then f.nanIn [a, b, c] zeroInf
  else if zeroInf then f.invalid 4
  else
    match a, b, c with
    | .num s1 m1 e1, .num s2 m2 e2, .num s3 m3 e3 =>
      f.deliver rn (exactAdd rn.mode (s1 != s2) (m1 * m2) (e1 + e2) s3 m3 e3)
    | .num .., .num .., .inf s => f.infOf s
    | a, b, .inf s => if (a.neg != b.neg) = s then f.infOf s else f.invalid 3
    | a, b, _ => f.infOf (a.neg != b.neg)

/-- a / b (R73, R74). -/
def Fmt.div (f : Fmt) (rn : Rnd) (a b : FVal) : Nat × Flags :=
  match a, b with
  | .num s1 m1 e1, .num s2 m2 e2 =>
    if m2 = 0 then
      if m1 = 0 then f.invalid 5 else ((f.infOf (s1 != s2)).1, joinFlags (f.infOf (s1 != s2)).2 flagDZ)
    else if m1 = 0 then (f.signed (s1 != s2) 0, 0)
    else
      let sh := (f.mb + 24 + bitLen m2) - bitLen m1
      let n := m1 * 2 ^ sh
      f.round rn (s1 != s2) (n / m2) (e1 - e2 - sh) (decide (n % m2 ≠ 0))
  | .inf _, .inf _ => f.invalid 5
  | .inf s, .num t _ _ => f.infOf (s != t)
  | .num s _ _, .inf t => (f.signed (s != t) 0, 0)
  | a, b => f.nanIn [a, b] false

/-- Integer square root, by bits from `i - 1` down. -/
def isqrtFrom (n : Nat) : Nat → Nat → Nat
  | 0, r => r
  | i + 1, r => if (r + 2 ^ i) * (r + 2 ^ i) ≤ n then isqrtFrom n i (r + 2 ^ i) else isqrtFrom n i r

/-- Square root of a positive number m x 2^e: root, exponent and whether there is more. -/
def sqrtParts (f : Fmt) (m : Nat) (e : Int) : Nat × Int × Bool :=
  let want := 2 * (f.mb + 24)
  let sh := want - bitLen m
  let sh := if (e - sh) % 2 = 0 then sh else sh + 1
  let n := m * 2 ^ sh
  let r := isqrtFrom n (bitLen n / 2 + 1) 0
  (r, (e - sh) / 2, decide (r * r ≠ n))

/-- Square root (R73, R74): -0 gives -0. -/
def Fmt.sqrt (f : Fmt) (rn : Rnd) (a : FVal) : Nat × Flags :=
  match a with
  | .nan _ => f.nanIn [a] false
  | .inf s => if s then f.invalid 5 else f.infOf false
  | .num s m e =>
    if m = 0 then (f.signed s 0, 0)
    else if s then f.invalid 5
    else
      let (r, x, more) := sqrtParts f m e
      f.round rn false r x more

/-- Order of two readings that are no NaN, -0 equal to +0: less, equal. -/
def FVal.lt (a b : FVal) : Bool :=
  match a, b with
  | .inf s, .inf t => s && !t
  | .inf s, .num .. => s
  | .num .., .inf t => !t
  | .num s1 m1 e1, .num s2 m2 e2 => let q := min e1 e2; decide (scaled s1 m1 e1 q < scaled s2 m2 e2 q)
  | _, _ => false

def FVal.eq (a b : FVal) : Bool :=
  match a, b with
  | .inf s, .inf t => s == t
  | .num s1 m1 e1, .num s2 m2 e2 => let q := min e1 e2; decide (scaled s1 m1 e1 q = scaled s2 m2 e2 q)
  | _, _ => false

/-- Invalid where an operand is signalling. -/
def sigFlag (vs : List FVal) : Flags := if vs.any (fun v => decide (v = .nan true)) then flagNV else 0

/-- Minimum or maximum of two patterns with -0 below +0 (R75). -/
def Fmt.pick (f : Fmt) (wantMax : Bool) (pa pb : Nat) : Nat × Flags :=
  let a := f.val pa
  let b := f.val pb
  let fl := sigFlag [a, b]
  match a.isNan, b.isNan with
  | true, true => let (p, g) := f.nanOf 1; (p, joinFlags g fl)
  | true, false => (pb, fl)
  | false, true => (pa, fl)
  | false, false =>
    let aLess := a.lt b || (a.eq b && a.neg && !b.neg)
    (if aLess != wantMax then pa else pb, fl)

/-- Round a reading to an integer (R77, R170): the integer and whether it differs. -/
def roundInt (rn : Rnd) (neg : Bool) (m : Nat) (e : Int) : Int × Bool :=
  let (k, rem, sh) := cutAt m e 0
  let k' := if roundsUp rn.mode rn.r neg k rem sh false then k + 1 else k
  (if neg then -(k' : Int) else k', decide (rem ≠ 0))

/-- Convert to a two's complement or unsigned integer of `n` bits with saturation (R77): NaN gives 0. -/
def toIntSat (n : Nat) (isSigned : Bool) (rn : Rnd) (v : FVal) : Nat × Flags :=
  let lo : Int := if isSigned then -(2 ^ (n - 1)) else 0
  let hi : Int := if isSigned then 2 ^ (n - 1) - 1 else 2 ^ n - 1
  match v with
  | .nan _ => (0, flagNV)
  | .inf s => (wrap n (if s then lo else hi), flagNV)
  | .num s m e =>
    let (k, nx) := roundInt rn s m e
    if hi < k then (wrap n hi, flagNV)
    else if k < lo then (wrap n lo, flagNV)
    else (wrap n k, if nx then flagNX else 0)

/-- An integer as an exact value. -/
def intVal (z : Int) : FVal := .num (decide (z < 0)) z.natAbs 0

/-- Mix64 (R96). -/
def mix64 (x : Word) : Word :=
  let z1 := (x ^^^ (x >>> 31)) * 0xD6E8FEB86659FD93
  let z2 := (z1 ^^^ (z1 >>> 31)) * 0xD6E8FEB86659FD93
  let z3 := (z2 ^^^ (z2 >>> 31)) * 0xD6E8FEB86659FD93
  z3 ^^^ (z3 >>> 32)

/-- The sixteen random bits at position `e` of the generator stream (R96). -/
def stochBits (srctr rngkey : Word) (e : Nat) : Nat :=
  (mix64 ((srctr + BitVec.ofNat 64 e) ^^^ rngkey)).toNat / 2 ^ 48

end Sys2Proof.Machine
end

