-- ==== Sys2Proof/Syntax.lean ====
section
/-! DEFINITION. Syntax of Dremer words and of the device's events: one constructor per row of the spec's table.

A word's constructor carries the fields its row names (spec 03 R28 to R33), already cut out of the word.  The last
sixty rows of the table have no encoding: they are events of the device (spec 95); what the outside world or the
chosen interleaving supplies to one of them stands in State beside the event (`EventArg`).  Constructors with fields
stand first. -/

namespace Sys2Proof

/-- One constructor per row of the spec's table.  Field names: `d`, `a`, `b` as R28; `i`, `o` immediates and offsets
(R29); `sb` the scalar operand of format VS; `m` a mask register; `h` the cache hint; `sc` a scope; `t` a type code. -/
inductive Instr where
  /-- ADD (R59): Sets sd to a + b modulo 2^64. -/
  | add (d a b : BitVec 6)
  /-- SUB (R59): Sets sd to a − b modulo 2^64. -/
  | sub (d a b : BitVec 6)
  /-- AND (R59): Sets sd to the bitwise AND of sa and sb. -/
  | and (d a b : BitVec 6)
  /-- OR (R59): Sets sd to the bitwise OR of sa and sb. -/
  | or (d a b : BitVec 6)
  /-- XOR (R59): Sets sd to the bitwise XOR of sa and sb. -/
  | xor (d a b : BitVec 6)
  /-- ANDN (R59): Sets sd to a AND NOT b. -/
  | andn (d a b : BitVec 6)
  /-- SLL (R59): Shifts sa left by b[5:0]. -/
  | sll (d a b : BitVec 6)
  /-- SRL (R59): Shifts sa right by b[5:0], filling with zeros. -/
  | srl (d a b : BitVec 6)
  /-- SRA (R59): Shifts sa right by b[5:0], filling with its sign bit. -/
  | sra (d a b : BitVec 6)
  /-- MUL (R59): Sets sd to the low 64 bits of a × b. -/
  | mul (d a b : BitVec 6)
  /-- MULH (R59): Sets sd to bits 127:64 of the signed product. -/
  | mulh (d a b : BitVec 6)
  /-- MULHU (R59): Sets sd to bits 127:64 of the unsigned product. -/
  | mulhu (d a b : BitVec 6)
  /-- DIV (R60): Signed division truncated toward zero, with fixed results for division by zero and overflow. -/
  | div (d a b : BitVec 6)
  /-- DIVU (R60): Unsigned division, all ones on division by zero. -/
  | divu (d a b : BitVec 6)
  /-- REM (R60): Signed remainder, a on division by zero. -/
  | rem (d a b : BitVec 6)
  /-- REMU (R60): Unsigned remainder, a on division by zero. -/
  | remu (d a b : BitVec 6)
  /-- MIN (R59): Sets sd to the signed lesser of sa and sb. -/
  | min (d a b : BitVec 6)
  /-- MAX (R59): Sets sd to the signed greater of sa and sb. -/
  | max (d a b : BitVec 6)
  /-- MINU (R59): Sets sd to the unsigned lesser of sa and sb. -/
  | minu (d a b : BitVec 6)
  /-- MAXU (R59): Sets sd to the unsigned greater of sa and sb. -/
  | maxu (d a b : BitVec 6)
  /-- CLZ (R59): Counts the zero bits above the highest one bit of sa. -/
  | clz (d a : BitVec 6)
  /-- CTZ (R59): Counts the zero bits below the lowest one bit of sa. -/
  | ctz (d a : BitVec 6)
  /-- POPC (R59): Counts the one bits of sa. -/
  | popc (d a : BitVec 6)
  /-- SEQ (R59): Sets sd to 1 if sa equals sb, else 0. -/
  | seq (d a b : BitVec 6)
  /-- SLT (R59): Sets sd to 1 if sa is signed-less than sb. -/
  | slt (d a b : BitVec 6)
  /-- SLTU (R59): Sets sd to 1 if sa is unsigned-less than sb. -/
  | sltu (d a b : BitVec 6)
  /-- ADDI (R61): Adds the sign-extended immediate to sa. -/
  | addi (d a : BitVec 6) (i : BitVec 14)
  /-- ANDI (R61): ANDs sa with the sign-extended immediate. -/
  | andi (d a : BitVec 6) (i : BitVec 14)
  /-- ORI (R61): ORs sa with the sign-extended immediate. -/
  | ori (d a : BitVec 6) (i : BitVec 14)
  /-- XORI (R61): XORs sa with the sign-extended immediate. -/
  | xori (d a : BitVec 6) (i : BitVec 14)
  /-- SLTI (R61): Signed compare of sa with the immediate. -/
  | slti (d a : BitVec 6) (i : BitVec 14)
  /-- SLTIU (R61): Unsigned compare of sa with the sign-extended immediate. -/
  | sltiu (d a : BitVec 6) (i : BitVec 14)
  /-- SLLI (R62): Shifts sa left by the constant in the b field. -/
  | slli (d a n : BitVec 6)
  /-- SRLI (R62): Shifts sa right logically by the constant in the b field. -/
  | srli (d a n : BitVec 6)
  /-- SRAI (R62): Shifts sa right arithmetically by the constant in the b field. -/
  | srai (d a n : BitVec 6)
  /-- IMMH (R63): Loads the sign-extended immediate shifted left by 14 into sd. -/
  | immh (d : BitVec 6) (i : BitVec 20)
  /-- PCREL (R63): Sets sd to PC plus the sign-extended immediate shifted left by 14. -/
  | pcrel (d : BitVec 6) (i : BitVec 20)
  /-- BEQ (R64): Branches when sa equals sb. -/
  | beq (a b : BitVec 6) (o : BitVec 14)
  /-- BNE (R64): Branches when sa differs from sb. -/
  | bne (a b : BitVec 6) (o : BitVec 14)
  /-- BLT (R64): Branches when sa is signed-less than sb. -/
  | blt (a b : BitVec 6) (o : BitVec 14)
  /-- BGE (R64): Branches when sa is signed-greater-or-equal to sb. -/
  | bge (a b : BitVec 6) (o : BitVec 14)
  /-- BLTU (R64): Branches when sa is unsigned-less than sb. -/
  | bltu (a b : BitVec 6) (o : BitVec 14)
  /-- BGEU (R64): Branches when sa is unsigned-greater-or-equal to sb. -/
  | bgeu (a b : BitVec 6) (o : BitVec 14)
  /-- JLK (R65): Jumps PC-relative and writes the return address to sd. -/
  | jlk (d : BitVec 6) (o : BitVec 20)
  /-- JLKR (R65): Jumps to sa plus immediate and writes the return address to sd. -/
  | jlkr (d a : BitVec 6) (i : BitVec 14)
  /-- LB (R67): Loads a sign-extended byte. -/
  | lb (d a : BitVec 6) (i : BitVec 14)
  /-- LBU (R67): Loads a zero-extended byte. -/
  | lbu (d a : BitVec 6) (i : BitVec 14)
  /-- LH (R67): Loads a sign-extended halfword. -/
  | lh (d a : BitVec 6) (i : BitVec 14)
  /-- LHU (R67): Loads a zero-extended halfword. -/
  | lhu (d a : BitVec 6) (i : BitVec 14)
  /-- LW (R67): Loads a sign-extended word. -/
  | lw (d a : BitVec 6) (i : BitVec 14)
  /-- LWU (R67): Loads a zero-extended word. -/
  | lwu (d a : BitVec 6) (i : BitVec 14)
  /-- LD (R67): Loads a doubleword. -/
  | ld (d a : BitVec 6) (i : BitVec 14)
  /-- SB (R67): Stores the low byte of the d register. -/
  | sb (d a : BitVec 6) (i : BitVec 14)
  /-- SH (R67): Stores the low halfword of the d register. -/
  | sh (d a : BitVec 6) (i : BitVec 14)
  /-- SW (R67): Stores the low word of the d register. -/
  | sw (d a : BitVec 6) (i : BitVec 14)
  /-- SD (R67): Stores the d register as a doubleword. -/
  | sd (d a : BitVec 6) (i : BitVec 14)
  /-- FADD_S (R73): FP32 add rounded under FRM. -/
  | faddS (d a b : BitVec 6)
  /-- FSUB_S (R73): FP32 subtract rounded under FRM. -/
  | fsubS (d a b : BitVec 6)
  /-- FMUL_S (R73): FP32 multiply rounded under FRM. -/
  | fmulS (d a b : BitVec 6)
  /-- FDIV_S (R73): FP32 divide rounded under FRM. -/
  | fdivS (d a b : BitVec 6)
  /-- FSQRT_S (R73): FP32 square root rounded under FRM. -/
  | fsqrtS (d a : BitVec 6)
  /-- FMIN_S (R75): FP32 minimum with −0 below +0. -/
  | fminS (d a b : BitVec 6)
  /-- FMAX_S (R75): FP32 maximum with −0 below +0. -/
  | fmaxS (d a b : BitVec 6)
  /-- FFMA_S (R73): FP32 fused multiply-add into the old sd, rounded once. -/
  | ffmaS (d a b : BitVec 6)
  /-- FCEQ_S (R76): FP32 equality compare writing 1 or 0. -/
  | fceqS (d a b : BitVec 6)
  /-- FCLT_S (R76): FP32 less-than compare writing 1 or 0. -/
  | fcltS (d a b : BitVec 6)
  /-- FCLE_S (R76): FP32 less-or-equal compare writing 1 or 0. -/
  | fcleS (d a b : BitVec 6)
  /-- FTOI_S (R77): Converts FP32 to I64 under FRM with saturation. -/
  | ftoiS (d a : BitVec 6)
  /-- ITOF_S (R73): Converts I64 to FP32 under FRM. -/
  | itofS (d a : BitVec 6)
  /-- FADD_D (R73): FP64 add rounded under FRM. -/
  | faddD (d a b : BitVec 6)
  /-- FSUB_D (R73): FP64 subtract rounded under FRM. -/
  | fsubD (d a b : BitVec 6)
  /-- FMUL_D (R73): FP64 multiply rounded under FRM. -/
  | fmulD (d a b : BitVec 6)
  /-- FDIV_D (R73): FP64 divide rounded under FRM. -/
  | fdivD (d a b : BitVec 6)
  /-- FSQRT_D (R73): FP64 square root rounded under FRM. -/
  | fsqrtD (d a : BitVec 6)
  /-- FMIN_D (R75): FP64 minimum with −0 below +0. -/
  | fminD (d a b : BitVec 6)
  /-- FMAX_D (R75): FP64 maximum with −0 below +0. -/
  | fmaxD (d a b : BitVec 6)
  /-- FFMA_D (R73): FP64 fused multiply-add into the old sd, rounded once. -/
  | ffmaD (d a b : BitVec 6)
  /-- FCEQ_D (R76): FP64 equality compare writing 1 or 0. -/
  | fceqD (d a b : BitVec 6)
  /-- FCLT_D (R76): FP64 less-than compare writing 1 or 0. -/
  | fcltD (d a b : BitVec 6)
  /-- FCLE_D (R76): FP64 less-or-equal compare writing 1 or 0. -/
  | fcleD (d a b : BitVec 6)
  /-- FTOI_D (R77): Converts FP64 to I64 under FRM with saturation. -/
  | ftoiD (d a : BitVec 6)
  /-- ITOF_D (R73): Converts I64 to FP64 under FRM. -/
  | itofD (d a : BitVec 6)
  /-- FNRW (R73): Narrows FP64 to FP32 under FRM. -/
  | fnrw (d a : BitVec 6)
  /-- FWDN (R73): Widens FP32 to FP64 exactly. -/
  | fwdn (d a : BitVec 6)
  /-- RDC (R78): Waits for earlier words and copies a control register to sd. -/
  | rdc (d : BitVec 6) (c : BitVec 12)
  /-- WRC (R79): Waits for earlier words and writes sa to a control register subject to its access and reserved-field rules. -/
  | wrc (a : BitVec 6) (c : BitVec 12)
  /-- TRAP (R80): Raises trap code 10 with TVAL the sign-extended immediate. -/
  | trap (i : BitVec 14)
  /-- WAITEV (R82): Blocks until the doubleword at sa differs from sb, then writes it to sd. -/
  | waitev (d a b : BitVec 6)
  /-- LAUNCH (R390): Releases earlier stores at device scope and enqueues the record at sa in the child queue. -/
  | launch (a : BitVec 6)
  /-- CSAVE (R392): Saves the thread's context to its thread area, and the last thread also saves the gang's state. -/
  | csave (a b : BitVec 6)
  /-- CRESTORE (R395): Restores the thread's context, and the first thread also restores the gang's state. -/
  | crestore (a b : BitVec 6)
  /-- TLBINV (R396): Invalidates the translations of one address in one ASID device-wide. -/
  | tlbinv (a b : BitVec 6)
  /-- TLBINVA (R396): Invalidates every translation of one ASID. -/
  | tlbinva (a : BitVec 6)
  /-- EMBRD (R397): Reads HEAT and ACC of a frame, optionally clearing ACC atomically. -/
  | embrd (d a b : BitVec 6)
  /-- RLOGCTL (R398): Installs or removes the race-log descriptor of the thread's ASID. -/
  | rlogctl (a : BitVec 6)
  /-- CLAIM (R101): Requests a new lane grant and writes the grant to sd. -/
  | claim (d a : BitVec 6)
  /-- SPCLAIM (R401): Requests a spanning grant over a wanted set of stacks. -/
  | spclaim (d a : BitVec 6)
  /-- SPQRY (R404): Reads the lanes available on each partner hearth. -/
  | spqry (d : BitVec 6)
  /-- SETL_4 (R105): Renegotiates the grant and sets CL and RL at 4-bit width. -/
  | setl4 (d a b : BitVec 6)
  /-- SETL_8 (R105): Renegotiates the grant and sets CL and RL at 8-bit width. -/
  | setl8 (d a b : BitVec 6)
  /-- SETL_16 (R105): Renegotiates the grant and sets CL and RL at 16-bit width. -/
  | setl16 (d a b : BitVec 6)
  /-- SETL_32 (R105): Renegotiates the grant and sets CL and RL at 32-bit width. -/
  | setl32 (d a b : BitVec 6)
  /-- SETL_64 (R105): Renegotiates the grant and sets CL and RL at 64-bit width. -/
  | setl64 (d a b : BitVec 6)
  /-- VADD (R162): Element-wise integer add. -/
  | vadd (d a b : BitVec 5)
  /-- VSUB (R162): Element-wise integer subtract. -/
  | vsub (d a b : BitVec 5)
  /-- VMUL (R162): Element-wise low half of the product. -/
  | vmul (d a b : BitVec 5)
  /-- VMULH (R162): Element-wise high half of the product. -/
  | vmulh (d a b : BitVec 5)
  /-- VMIN (R162): Element-wise lesser. -/
  | vmin (d a b : BitVec 5)
  /-- VMAX (R162): Element-wise greater. -/
  | vmax (d a b : BitVec 5)
  /-- VMINU (R162): Element-wise unsigned lesser. -/
  | vminu (d a b : BitVec 5)
  /-- VMAXU (R162): Element-wise unsigned greater. -/
  | vmaxu (d a b : BitVec 5)
  /-- VAND (R162): Element-wise bitwise AND. -/
  | vand (d a b : BitVec 5)
  /-- VOR (R162): Element-wise bitwise OR. -/
  | vor (d a b : BitVec 5)
  /-- VXOR (R162): Element-wise bitwise XOR. -/
  | vxor (d a b : BitVec 5)
  /-- VSLL (R162): Element-wise left shift. -/
  | vsll (d a b : BitVec 5)
  /-- VSRL (R162): Element-wise logical right shift. -/
  | vsrl (d a b : BitVec 5)
  /-- VSRA (R162): Element-wise arithmetic right shift. -/
  | vsra (d a b : BitVec 5)
  /-- VABS (R162): Element-wise absolute value. -/
  | vabs (d a : BitVec 5)
  /-- VNEG (R162): Element-wise negation. -/
  | vneg (d a : BitVec 5)
  /-- VADDS (R162): Element-wise saturating add. -/
  | vadds (d a b : BitVec 5)
  /-- VSUBS (R162): Element-wise saturating subtract. -/
  | vsubs (d a b : BitVec 5)
  /-- VSEL (R168): Selects va where the guard is 1 and vb elsewhere. -/
  | vsel (d a b : BitVec 5)
  /-- VMOV (R162): Element-wise copy. -/
  | vmov (d a : BitVec 5)
  /-- VFADD (R163): Element-wise floating add. -/
  | vfadd (d a b : BitVec 5)
  /-- VFSUB (R163): Element-wise floating subtract. -/
  | vfsub (d a b : BitVec 5)
  /-- VFMUL (R163): Element-wise floating multiply. -/
  | vfmul (d a b : BitVec 5)
  /-- VFMIN (R163): Element-wise floating minimum. -/
  | vfmin (d a b : BitVec 5)
  /-- VFMAX (R163): Element-wise floating maximum. -/
  | vfmax (d a b : BitVec 5)
  /-- VFABS (R164): Element-wise clearing of the sign. -/
  | vfabs (d a : BitVec 5)
  /-- VFNEG (R164): Element-wise inversion of the sign. -/
  | vfneg (d a : BitVec 5)
  /-- VFMA (R163): Element-wise fused a × b + C. -/
  | vfma (d a b : BitVec 5)
  /-- VFMS (R163): Element-wise fused a × b − C. -/
  | vfms (d a b : BitVec 5)
  /-- VFNMA (R163): Element-wise fused −(a × b) − C. -/
  | vfnma (d a b : BitVec 5)
  /-- VFNMS (R163): Element-wise fused −(a × b) + C. -/
  | vfnms (d a b : BitVec 5)
  /-- VDIV (R166): Element-wise correctly rounded division. -/
  | vdiv (d a b : BitVec 5)
  /-- VSQRT (R166): Element-wise correctly rounded square root. -/
  | vsqrt (d a : BitVec 5)
  /-- VRCPS (R165): Element-wise 13-bit reciprocal seed. -/
  | vrcps (d a : BitVec 5)
  /-- VRSQS (R165): Element-wise 13-bit reciprocal square-root seed. -/
  | vrsqs (d a : BitVec 5)
  /-- VCEQ (R167): Writes mask bits where a equals b. -/
  | vceq (m : BitVec 4) (a b : BitVec 5)
  /-- VCNE (R167): Writes mask bits where a differs from b. -/
  | vcne (m : BitVec 4) (a b : BitVec 5)
  /-- VCLT (R167): Writes mask bits where a is less than b. -/
  | vclt (m : BitVec 4) (a b : BitVec 5)
  /-- VCLE (R167): Writes mask bits where a is at most b. -/
  | vcle (m : BitVec 4) (a b : BitVec 5)
  /-- VCLTU (R167): Writes mask bits where a is unsigned-less than b. -/
  | vcltu (m : BitVec 4) (a b : BitVec 5)
  /-- VCLEU (R167): Writes mask bits where a is unsigned at most b. -/
  | vcleu (m : BitVec 4) (a b : BitVec 5)
  /-- VCUN (R167): Writes mask bits where either operand is a NaN. -/
  | vcun (m : BitVec 4) (a b : BitVec 5)
  /-- MAND (R169): Mask AND. -/
  | mand (d a b : BitVec 4)
  /-- MOR (R169): Mask OR. -/
  | mor (d a b : BitVec 4)
  /-- MXOR (R169): Mask XOR. -/
  | mxor (d a b : BitVec 4)
  /-- MANDN (R169): Mask AND NOT. -/
  | mandn (d a b : BitVec 4)
  /-- MNOT (R169): Mask NOT. -/
  | mnot (d a : BitVec 4)
  /-- MMOV (R169): Mask copy. -/
  | mmov (d a : BitVec 4)
  /-- MFIRST (R169): Keeps only the lowest active set bit of each row. -/
  | mfirst (d a : BitVec 4)
  /-- VCVT (R170): Converts elements to the destination type, wrapping or per R93 on overflow. -/
  | vcvt (d a t : BitVec 5)
  /-- VCVTS (R170): Converts elements to the destination type with saturation. -/
  | vcvts (d a t : BitVec 5)
  /-- VREDO (R175): Ordered per-row sum into column 0 with a carry. -/
  | vredo (d a b : BitVec 5)
  /-- VREDT (R175): Tree per-row sum into column 0 with a carry. -/
  | vredt (d a b : BitVec 5)
  /-- VREDMIN (R175): Per-row minimum into column 0. -/
  | vredmin (d a b : BitVec 5)
  /-- VREDMAX (R175): Per-row maximum into column 0. -/
  | vredmax (d a b : BitVec 5)
  /-- VSCAN (R177): Inclusive per-row prefix sums from a carry. -/
  | vscan (d a b : BitVec 5)
  /-- VSCANX (R177): Exclusive per-row prefix sums from a carry. -/
  | vscanx (d a b : BitVec 5)
  /-- VPERM (R178): Permutes row elements by index. -/
  | vperm (d a b : BitVec 5)
  /-- VCOMP (R179): Packs active elements left and sets CL to the largest survivor count. -/
  | vcomp (d a : BitVec 5)
  /-- VEXPD (R180): Spreads leading elements into the active columns. -/
  | vexpd (d a : BitVec 5)
  /-- VSLUP (R181): Slides elements up by n columns. -/
  | vslup (d a : BitVec 5) (sb : BitVec 6)
  /-- VSLDN (R181): Slides elements down by n columns. -/
  | vsldn (d a : BitVec 5) (sb : BitVec 6)
  /-- VXCHG (R406): Exchanges columns between segments of a spanning vector. -/
  | vxchg (d a : BitVec 5) (sb : BitVec 6)
  /-- VBCAST (R182): Broadcasts the low w bits of sb to every active element. -/
  | vbcast (d : BitVec 5) (sb : BitVec 6)
  /-- VIOTA (R183): Writes sb + j to each active element. -/
  | viota (d : BitVec 5) (sb : BitVec 6)
  /-- VRNG (R184): Writes counter-based random values through Mix64. -/
  | vrng (d : BitVec 5) (sb : BitVec 6)
  /-- VFETCH (R186): Starts a divergent run of vector-fetched blocks at sb. -/
  | vfetch (sb : BitVec 6)
  /-- VNEXT (R189): Sets the next block address of selected VPs of the pass. -/
  | vnext (m : BitVec 4) (sb : BitVec 6)
  /-- VLD (R193): Loads rows of elements at a row pitch. -/
  | vld (d : BitVec 5) (a b : BitVec 6) (h : BitVec 3)
  /-- VLDS (R193): Loads elements at a column stride. -/
  | vlds (d : BitVec 5) (a b : BitVec 6) (h : BitVec 3)
  /-- VST (R195): Stores rows of elements at a row pitch. -/
  | vst (d : BitVec 5) (a b : BitVec 6) (h : BitVec 3)
  /-- VSTS (R195): Stores elements at a column stride. -/
  | vsts (d : BitVec 5) (a b : BitVec 6) (h : BitVec 3)
  /-- VLDC (R255): Loads matrix columns through column lines of an oriented page. -/
  | vldc (d : BitVec 5) (a b : BitVec 6) (h : BitVec 3)
  /-- VSTC (R255): Stores matrix columns through column lines of an oriented page. -/
  | vstc (d : BitVec 5) (a b : BitVec 6) (h : BitVec 3)
  /-- VGATH (R257): Gathers elements at base plus scaled indices in the base layer. -/
  | vgath (d a : BitVec 5) (sb : BitVec 6)
  /-- VSCAT (R257): Scatters elements to base plus scaled indices. -/
  | vscat (d a : BitVec 5) (sb : BitVec 6)
  /-- VSCADD (R210): Combines values per address and adds them atomically at the bank. -/
  | vscadd (d a : BitVec 5) (sb : BitVec 6)
  /-- VLDB (R260): Expands a self-describing block stream into row 0 and sets CL, STRM and STRMK. -/
  | vldb (d : BitVec 5) (a b : BitVec 6) (h : BitVec 3)
  /-- VSTB (R261): Packs row 0 into self-describing blocks. -/
  | vstb (d : BitVec 5) (a b : BitVec 6) (h : BitVec 3)
  /-- VLDZ (R262): Decodes compressed chunks into row 0, resumable through XRESUME. -/
  | vldz (d : BitVec 5) (a b : BitVec 6) (h : BitVec 3)
  /-- AMOADD_W (R264): Atomic 32-bit add at the element's bank. -/
  | amoaddW (d a b : BitVec 6) (c r : Bool) (sc : BitVec 3)
  /-- AMOSWAP_W (R264): Atomic 32-bit swap. -/
  | amoswapW (d a b : BitVec 6) (c r : Bool) (sc : BitVec 3)
  /-- AMOAND_W (R264): Atomic 32-bit AND. -/
  | amoandW (d a b : BitVec 6) (c r : Bool) (sc : BitVec 3)
  /-- AMOOR_W (R264): Atomic 32-bit OR. -/
  | amoorW (d a b : BitVec 6) (c r : Bool) (sc : BitVec 3)
  /-- AMOXOR_W (R264): Atomic 32-bit XOR. -/
  | amoxorW (d a b : BitVec 6) (c r : Bool) (sc : BitVec 3)
  /-- AMOMIN_W (R264): Atomic 32-bit signed minimum. -/
  | amominW (d a b : BitVec 6) (c r : Bool) (sc : BitVec 3)
  /-- AMOMAX_W (R264): Atomic 32-bit signed maximum. -/
  | amomaxW (d a b : BitVec 6) (c r : Bool) (sc : BitVec 3)
  /-- AMOCAS_W (R264): Atomic 32-bit compare-and-swap against the old sd. -/
  | amocasW (d a b : BitVec 6) (c r : Bool) (sc : BitVec 3)
  /-- AMOADD_D (R264): Atomic 64-bit add at the element's bank. -/
  | amoaddD (d a b : BitVec 6) (c r : Bool) (sc : BitVec 3)
  /-- AMOSWAP_D (R264): Atomic 64-bit swap. -/
  | amoswapD (d a b : BitVec 6) (c r : Bool) (sc : BitVec 3)
  /-- AMOAND_D (R264): Atomic 64-bit AND. -/
  | amoandD (d a b : BitVec 6) (c r : Bool) (sc : BitVec 3)
  /-- AMOOR_D (R264): Atomic 64-bit OR. -/
  | amoorD (d a b : BitVec 6) (c r : Bool) (sc : BitVec 3)
  /-- AMOXOR_D (R264): Atomic 64-bit XOR. -/
  | amoxorD (d a b : BitVec 6) (c r : Bool) (sc : BitVec 3)
  /-- AMOMIN_D (R264): Atomic 64-bit signed minimum. -/
  | amominD (d a b : BitVec 6) (c r : Bool) (sc : BitVec 3)
  /-- AMOMAX_D (R264): Atomic 64-bit signed maximum. -/
  | amomaxD (d a b : BitVec 6) (c r : Bool) (sc : BitVec 3)
  /-- AMOCAS_D (R264): Atomic 64-bit compare-and-swap against the old sd. -/
  | amocasD (d a b : BitVec 6) (c r : Bool) (sc : BitVec 3)
  /-- LDA_W (R266): 32-bit load-acquire at a scope. -/
  | ldaW (d a : BitVec 6) (sc : BitVec 3)
  /-- LDA_D (R266): 64-bit load-acquire at a scope. -/
  | ldaD (d a : BitVec 6) (sc : BitVec 3)
  /-- STL_W (R266): 32-bit store-release at a scope. -/
  | stlW (d a : BitVec 6) (sc : BitVec 3)
  /-- STL_D (R266): 64-bit store-release at a scope. -/
  | stlD (d a : BitVec 6) (sc : BitVec 3)
  /-- FENCE (R235): Full fence at a scope. -/
  | fence (sc : BitVec 3)
  /-- WBR (R267): Writes back the dirty bytes of S lines in a range. -/
  | wbr (a b : BitVec 6) (sc : BitVec 3)
  /-- INVR (R267): Drops S lines holding bytes of a range from the hearth's L1. -/
  | invr (a b : BitVec 6) (sc : BitVec 3)
  /-- LCLK (R268): Reads the thread's logical clock pts. -/
  | lclk (d : BitVec 6)
  /-- OWN (R270): Flips a tile's owner bit between thread and engine side. -/
  | own (a b : BitVec 6)
  /-- MLDB (R325): Captures a stationary B block into the array state. -/
  | mldb (sb : BitVec 6)
  /-- MMAO (R326): Ordered matrix multiply-accumulate into an accumulator group. -/
  | mmao (d a : BitVec 5) (sb : BitVec 6)
  /-- MMAF (R326): Matrix multiply-accumulate in any chunk order. -/
  | mmaf (d a : BitVec 5) (sb : BitVec 6)
  /-- MMAS (R327): Block-sparse matrix multiply-accumulate under a bitmap. -/
  | mmas (d a : BitVec 5) (sb : BitVec 6)
  /-- SLDC (R330): Captures spline coefficients for P inputs and Q outputs. -/
  | sldc (sb : BitVec 6)
  /-- SEVAL (R306): Evaluates the spline layer and adds into the outputs. -/
  | seval (d a : BitVec 5)
  /-- SEVALD (R306): Propagates upstream gradients through the spline derivatives. -/
  | sevald (d a : BitVec 5)
  /-- SGRAD (R307): Adds coefficient gradients into FP32 gradient tiles. -/
  | sgrad (d a : BitVec 5) (sb : BitVec 6)
  /-- SREF (R308): Refines the grid to twice the intervals and writes new coefficients. -/
  | sref (sb : BitVec 6)
  /-- XDEC (R334): Decodes one compressed chunk from a tile into row 0. -/
  | xdec (d : BitVec 5) (sb : BitVec 6)
  /-- XENC (R335): Encodes row 0 into one compressed chunk in a tile. -/
  | xenc (d : BitVec 5) (x : BitVec 2) (n : BitVec 3) (sb : BitVec 6)
  /-- FLCFG (R336): Resets the staging descriptor and sets source, destination, spaces and length. -/
  | flcfg (d a b : BitVec 6)
  /-- FLLVL (R337): Sets one loop level's count and strides in the staging descriptor. -/
  | fllvl (d a b : BitVec 6)
  /-- FLXF (R428): Sets and checks the staged transform. -/
  | flxf (a b : BitVec 6)
  /-- FLBLK (R339): Enables a block-coordinate list on one side. -/
  | flblk (a b : BitVec 6)
  /-- FLSTART (R340): Checks the staged descriptor and queues a copy of it on a flue sequencer. -/
  | flstart (d a b : BitVec 6)
  /-- BDEF (R341): Defines, redefines or undefines a buffer ring. -/
  | bdef (d a b : BitVec 6)
  /-- BGET (R343): Takes buffer slots for the thread side, waiting for them. -/
  | bget (d a b : BitVec 6)
  /-- BPUT (R344): Returns or publishes the thread side's oldest held slots. -/
  | bput (a b : BitVec 6)
  /-- CWAIT (R345): Blocks until a counter reaches its target, with acquire order. -/
  | cwait (d a b : BitVec 6)
  /-- CADD (R346): Atomically adds to a counter as a release. -/
  | cadd (d a b : BitVec 6)
  /-- TOPEN (R347): Closes a tree slot and opens it on a descriptor. -/
  | topen (a b : BitVec 6)
  /-- TWALK (R348): Captures a query and queues a walk on the tether walker. -/
  | twalk (d a b : BitVec 6)
  /-- TAPPEND (R349): Queues an append of a key to a tree. -/
  | tappend (d a b : BitVec 6)
  /-- TREFIT (R350): Queues a rewrite of the live tree. -/
  | trefit (a b : BitVec 6)
  /-- TSUMR (R351): Copies one node's envelope to tiles. -/
  | tsumr (d a b : BitVec 6)
  /-- CLSTART (R352): Checks a collective descriptor and queues it on the stack's collective engine. -/
  | clstart (a : BitVec 6)
  /-- RFENCE (R410): Waits until earlier accesses homed on a remote device are acknowledged. -/
  | rfence (a : BitVec 6)
  /-- GRP (R31): Checks a convoy span, writes MODE and opens a convoy. -/
  | grp (m : BitVec 4) (v : Bool) (t : BitVec 5) (r : BitVec 3) (p f : Bool) (g : BitVec 2) (l : BitVec 3)
  /-- PFX (R33): Overrides mask, rounding, policy, fourth operand or type for the next counted word. -/
  | pfx (m : BitVec 4) (v : Bool) (r : BitVec 3) (w : Bool) (p : BitVec 2) (q : BitVec 5) (x : Bool) (t : BitVec 5) (y : Bool)
  /-- YIELD (R81): Waits for earlier words and offers a renegotiation point and an event point. -/
  | yield
  /-- HALT (R389): Ends the thread; the last live thread of a gang waits for the gang's engines. -/
  | halt
  /-- NPBEGIN (R391): Opens a non-preemptible region and starts its 100 µs count. -/
  | npbegin
  /-- NPEND (R391): Closes the non-preemptible region so that a held pre-emption becomes pending. -/
  | npend
  /-- TRET (R388): Returns from a trap to EPC, restoring privilege and AE and clearing INH. -/
  | tret
  /-- TLBINVG (R396): Invalidates every translation of every ASID. -/
  | tlbinvg
  /-- EMBAGE (R397): Halves every HEAT counter at every controller. -/
  | embage
  /-- VJOIN (R191): Completes when the run has ended, restoring MODE and CONVOY. -/
  | vjoin
  /-- VPEND (R190): Ends the current pass of a vector-fetched block. -/
  | vpend
  /-- BAR (R269): Gang barrier that waits until every live thread arrives in the generation. -/
  | bar
  /-- SKNOT (R329): Captures the knot registers as the spline grid. -/
  | sknot
  /-- WAITEV_REREAD (R82): A write to the waited 128-byte block makes a blocked WAITEV reread its doubleword. -/
  | waitevReread
  /-- OWN_FLIP_COMPLETE (R270): A waiting OWN completes its flip once the tile's accesses have landed and no engine names it. -/
  | ownFlipComplete
  /-- BGET_SERVE (R343): A waiting BGET is served in waiter order once the count is met, flipping the slots' tiles. -/
  | bgetServe
  /-- CWAIT_REREAD (R345): A write to the counter's 128-byte block makes a blocked CWAIT reread it. -/
  | cwaitReread
  /-- ASYNC_EVENT_ENTRY (R357): A pending asynchronous event is taken at a boundary once AE is 1. -/
  | asyncEventEntry
  /-- PREEMPTION_REQUEST (R364): A driver pre-emption request delivers code 17 to every live thread of a gang, or is refused. -/
  | preemptionRequest
  /-- NP_REGION_OVERRUN (R369): A region open for 100 µs closes, sets OVR and makes code 18 pending. -/
  | npRegionOverrun
  /-- WINDOW_ENTRY_STARVATION (R139): A micro-operation waiting 256 cycles for a window entry receives the next free entry. -/
  | windowEntryStarvation
  /-- DOORBELL (R121): A doorbell write makes records from HEAD to TAIL pending or sets ERR. -/
  | doorbell
  /-- DEPENDENCE_MET (R127): A head's dependence counter reaches its target and the head becomes eligible. -/
  | dependenceMet
  /-- PRIORITY_AGING (R129): A waiting head's effective priority rises by one after each 2^20 cycles. -/
  | priorityAging
  /-- SERVE_QUEUE (R128): The front-end admits one unit of the admissible head of highest effective priority. -/
  | serveQueue
  /-- GANG_END (R134): A gang ends when its last thread has ended and its engine operations are done, releasing its resources. -/
  | gangEnd
  /-- DAMPER_WINDOW_END (R137): At each 100 µs window end the damper steps hearth clocks down or up. -/
  | damperWindowEnd
  /-- MIGRATION_LAPSE (R138): A migration request not saved within 8 windows lapses. -/
  | migrationLapse
  /-- GANG_RESUME (R394): A RESUME write checks a saved gang's header and queues it for readmission. -/
  | gangResume
  /-- GANG_READMISSION (R394): The front-end readmits a saved or migrated gang as one unit. -/
  | gangReadmission
  /-- PTS_TICK (R219): A thread's logical clock advances by one every 2^TICK cycles. -/
  | ptsTick
  /-- HTS_TICK (R219): A home stack's clock advances by one every 1,024 base-layer cycles. -/
  | htsTick
  /-- HOME_EXPIRE_SWEEP (R222): Each home applies ExpireOld to every L line within 2^13 ticks. -/
  | homeExpireSweep
  /-- L1_LEASE_DROP (R222): An L1 drops an L copy no later than 2^14 ticks after filling it. -/
  | l1LeaseDrop
  /-- RANGE_REQUEST_RETRY (R218): A refused directory request retries after its backoff wait. -/
  | rangeRequestRetry
  /-- RESERVATION_SERVE (R218): A reserved starving request is served when its range leaves transition. -/
  | reservationServe
  /-- L1_EVICTION (R225): An evicted line writes back its dirty bytes. -/
  | l1Eviction
  /-- HOST_OWNERSHIP_TAKE (R228): The host takes one 64-byte half of a line and the device recalls that half. -/
  | hostOwnershipTake
  /-- HOST_STORE (R228): A host store to device memory is performed at the home as one store. -/
  | hostStore
  /-- COMPRESSED_BLOCK_RETRY (R290): A request refused for a full pending table retries after 64 cycles. -/
  | compressedBlockRetry
  /-- REMOTE_REQUEST (R409): A load, store or atomic from another device is performed at its home. -/
  | remoteRequest
  /-- ENGINE_OP_FIRE (R278): A waiting engine operation fires and reserves its buffer slots. -/
  | engineOpFire
  /-- FLUE_COPY (R282): A flue sequencer performs one copy of its loop nest, transformed as XF gives. -/
  | flueCopy
  /-- FAULT_RECORD_WRITE (R362): A parked engine writes its fault record once the fault ring has room. -/
  | faultRecordWrite
  /-- ENGINE_COMPLETION_ADD (R279): A completed engine operation publishes its slots and adds to its counter as a release. -/
  | engineCompletionAdd
  /-- ENGINE_REPLAY (R363): An ENGREPLAY write with bit 63 clear resumes a parked operation. -/
  | engineReplay
  /-- ENGINE_ABORT (R363): An ENGREPLAY write with bit 63 set aborts the operation and ends its gang's threads with code 19. -/
  | engineAbort
  /-- ENGINE_SUSPEND (R366): An operation still running 20 µs after a gang's first CSAVE is suspended into the gang's context. -/
  | engineSuspend
  /-- WALK (R313): The walker runs a queued walk, emitting entries and publishing output slots. -/
  | walk
  /-- APPEND (R315): The walker appends a key, updating envelopes along its path. -/
  | append
  /-- TREE_REFIT (R318): The walker rewrites the live tree once earlier operations complete. -/
  | treeRefit
  /-- COLLECTIVE_OPERATION (R293): The collective engine performs a matched reduction, gather or barrier. -/
  | collectiveOperation
  /-- BIAS_FLIP_TO_HOST (R382): A device-bias page is written back and flipped to host bias. -/
  | biasFlipToHost
  /-- BIAS_FLIP_TO_DEVICE (R382): A host-bias page is flipped to device bias after the host gives up its lines. -/
  | biasFlipToDevice
  /-- LINK_CRC_FAIL (R384): A flit failing CRC is replayed with every later flit of its channel. -/
  | linkCrcFail
  /-- LINK_RETRAIN (R384): After 8 failed replays the link retrains. -/
  | linkRetrain
  /-- DEVSTAT_WRITE (R420): A DEVSTAT write clears WERR when bit 3 is 1. -/
  | devstatWrite
  /-- EMBCTL_WRITE (R381): An EMBCTL write sets sampling and resets the sample counter. -/
  | embctlWrite
  /-- REGISTER_WRITE (R420): A write to a BAR0 register without its own row, ignored with WERR when out of range or read-only. -/
  | registerWrite
  /-- DEVICE_RESET (R418): Reset verifies firmware, trains memory, clears state and sets READY. -/
  | deviceReset
  /-- ATTESTATION_REQUEST (R424): An ATTEST write queues an attestation request. -/
  | attestationRequest
  /-- ATTESTATION_REPORT (R424): The security controller writes a signed report for a queued request. -/
  | attestationReport
  /-- D3HOT_REQUEST (R425): A D3hot request stops admissions. -/
  | d3hotRequest
  /-- D3HOT_ENTRY (R425): The device enters D3hot once IDLE becomes 1. -/
  | d3hotEntry
  /-- INLET_TEMPERATURE_CHANGE (R426): A coolant inlet change scales the budget, records crossings or resets the device above 45 °C. -/
  | inletTemperatureChange
  /-- COOLANT_FLOW_CHANGE (R426): A flow change scales the budget and records crossings of 2.0 L/min. -/
  | coolantFlowChange
  /-- LOW_FLOW_TIMEOUT (R426): Flow below 1.0 L/min for over 1 s stops every hearth and resets the device. -/
  | lowFlowTimeout
  /-- UNASSIGNED_INSTRUCTION_WORD (R42): A fetched word that is no assigned instruction raises the illegal-instruction or reserved-bits trap. -/
  | unassignedInstructionWord
  /-- INSTRUCTION_FETCH_FAULT (R24): A fetch at a misaligned or unfetchable PC raises the fetch-misaligned trap or the fetch access fault. -/
  | instructionFetchFault
  /-- SOFT_ERROR (R383): An SRAM soft error is repaired by refetch, or it poisons the bytes, elements or tile bytes it hit, and the event is logged. -/
  | softError
  /-- KEY_SLOT_LOAD (R380): The security controller loads a wrapped AES-256-XTS key into one of slots 1 to 63. -/
  | keySlotLoad
  /-- DYNAMIC_CAPACITY_EXTENT_CHANGE (R413): An extent of a pool port is added or released, changing which pool addresses are backed. -/
  | dynamicCapacityExtentChange
  /-- D3COLD_ENTRY (R425): The device enters D3cold, losing its supply, and its exit runs the reset of R418. -/
  | d3coldEntry
  deriving DecidableEq, Repr

end Sys2Proof
end

