-- ==== Sys2Proof/WellFormed.lean ====
section
/-! DEFINITION. Which terms of `Instr` are assigned instructions: the conditions of spec 03 R30, R31, R33 and R42 that
the fields of a constructor can still break. -/

namespace Sys2Proof

/-- Assigned element type codes (spec 03 R32); 0x1F is assigned and is the illegal type of R21. -/
def WellFormed.etypeAssigned (t : BitVec 5) : Bool :=
  t.toNat ≤ 0x0C || (0x10 ≤ t.toNat && t.toNat ≤ 0x14) || t.toNat = 0x1F

/-- Rounding codes: 0b111 is illegal (spec 03 R31, R33). -/
def WellFormed.rndAssigned (r : BitVec 3) : Bool := decide (r ≠ 7#3)

/-- Cache hints 0 to 2; 3 to 7 are reserved (spec 03 R29). -/
def WellFormed.hintAssigned (h : BitVec 3) : Bool := decide (h.toNat < 3)

/-- Scopes 0 to 5; 6 and 7 are reserved (spec 03 R41, R42). -/
def WellFormed.scopeAssigned (sc : BitVec 3) : Bool := decide (sc.toNat < 6)

/-- m0 is never a destination (spec 03 R30). -/
def WellFormed.maskDestination (m : BitVec 4) : Bool := decide (m ≠ 0#4)

/-- Destination types of VCVT and VCVTS: assigned, not CB4, not 0x1F (spec 11 R170). -/
def WellFormed.cvtDestination (t : BitVec 5) : Bool :=
  WellFormed.etypeAssigned t && decide (t ≠ 0x07#5) && decide (t ≠ 0x1F#5)

/-- The PFX conditions of spec 03 R33 whose breach is an illegal instruction. -/
def WellFormed.pfxLegal (_m : BitVec 4) (v : Bool) (r : BitVec 3) (w : Bool) (p : BitVec 2) (_q : BitVec 5) (x : Bool)
    (t : BitVec 5) (y : Bool) : Bool :=
  (v || w || x || y || decide (p ≠ 0#2)) && decide (p ≠ 3#2) && !(w && decide (r = 7#3))
    && (!y || WellFormed.etypeAssigned t)

/-- The PFX condition of spec 03 R33 whose breach is reserved bits: a field whose valid bit is 0 is zero. -/
def WellFormed.pfxClean (m : BitVec 4) (v : Bool) (r : BitVec 3) (w : Bool) (q : BitVec 5) (x : Bool) (t : BitVec 5)
    (y : Bool) : Bool :=
  (v || decide (m = 0#4)) && (w || decide (r = 0#3)) && (x || decide (q = 0#5)) && (y || decide (t = 0#5))

/-- A term is well formed when some word of the spec's encodings stands for it, or it is an event. -/
def Instr.wf : Instr → Bool
  | .add _ _ _ => true
  | .sub _ _ _ => true
  | .and _ _ _ => true
  | .or _ _ _ => true
  | .xor _ _ _ => true
  | .andn _ _ _ => true
  | .sll _ _ _ => true
  | .srl _ _ _ => true
  | .sra _ _ _ => true
  | .mul _ _ _ => true
  | .mulh _ _ _ => true
  | .mulhu _ _ _ => true
  | .div _ _ _ => true
  | .divu _ _ _ => true
  | .rem _ _ _ => true
  | .remu _ _ _ => true
  | .min _ _ _ => true
  | .max _ _ _ => true
  | .minu _ _ _ => true
  | .maxu _ _ _ => true
  | .clz _ _ => true
  | .ctz _ _ => true
  | .popc _ _ => true
  | .seq _ _ _ => true
  | .slt _ _ _ => true
  | .sltu _ _ _ => true
  | .addi _ _ _ => true
  | .andi _ _ _ => true
  | .ori _ _ _ => true
  | .xori _ _ _ => true
  | .slti _ _ _ => true
  | .sltiu _ _ _ => true
  | .slli _ _ _ => true
  | .srli _ _ _ => true
  | .srai _ _ _ => true
  | .immh _ _ => true
  | .pcrel _ _ => true
  | .beq _ _ _ => true
  | .bne _ _ _ => true
  | .blt _ _ _ => true
  | .bge _ _ _ => true
  | .bltu _ _ _ => true
  | .bgeu _ _ _ => true
  | .jlk _ _ => true
  | .jlkr _ _ _ => true
  | .lb _ _ _ => true
  | .lbu _ _ _ => true
  | .lh _ _ _ => true
  | .lhu _ _ _ => true
  | .lw _ _ _ => true
  | .lwu _ _ _ => true
  | .ld _ _ _ => true
  | .sb _ _ _ => true
  | .sh _ _ _ => true
  | .sw _ _ _ => true
  | .sd _ _ _ => true
  | .faddS _ _ _ => true
  | .fsubS _ _ _ => true
  | .fmulS _ _ _ => true
  | .fdivS _ _ _ => true
  | .fsqrtS _ _ => true
  | .fminS _ _ _ => true
  | .fmaxS _ _ _ => true
  | .ffmaS _ _ _ => true
  | .fceqS _ _ _ => true
  | .fcltS _ _ _ => true
  | .fcleS _ _ _ => true
  | .ftoiS _ _ => true
  | .itofS _ _ => true
  | .faddD _ _ _ => true
  | .fsubD _ _ _ => true
  | .fmulD _ _ _ => true
  | .fdivD _ _ _ => true
  | .fsqrtD _ _ => true
  | .fminD _ _ _ => true
  | .fmaxD _ _ _ => true
  | .ffmaD _ _ _ => true
  | .fceqD _ _ _ => true
  | .fcltD _ _ _ => true
  | .fcleD _ _ _ => true
  | .ftoiD _ _ => true
  | .itofD _ _ => true
  | .fnrw _ _ => true
  | .fwdn _ _ => true
  | .rdc _ _ => true
  | .wrc _ _ => true
  | .trap _ => true
  | .waitev _ _ _ => true
  | .launch _ => true
  | .csave _ _ => true
  | .crestore _ _ => true
  | .tlbinv _ _ => true
  | .tlbinva _ => true
  | .embrd _ _ _ => true
  | .rlogctl _ => true
  | .claim _ _ => true
  | .spclaim _ _ => true
  | .spqry _ => true
  | .setl4 _ _ _ => true
  | .setl8 _ _ _ => true
  | .setl16 _ _ _ => true
  | .setl32 _ _ _ => true
  | .setl64 _ _ _ => true
  | .vadd _ _ _ => true
  | .vsub _ _ _ => true
  | .vmul _ _ _ => true
  | .vmulh _ _ _ => true
  | .vmin _ _ _ => true
  | .vmax _ _ _ => true
  | .vminu _ _ _ => true
  | .vmaxu _ _ _ => true
  | .vand _ _ _ => true
  | .vor _ _ _ => true
  | .vxor _ _ _ => true
  | .vsll _ _ _ => true
  | .vsrl _ _ _ => true
  | .vsra _ _ _ => true
  | .vabs _ _ => true
  | .vneg _ _ => true
  | .vadds _ _ _ => true
  | .vsubs _ _ _ => true
  | .vsel _ _ _ => true
  | .vmov _ _ => true
  | .vfadd _ _ _ => true
  | .vfsub _ _ _ => true
  | .vfmul _ _ _ => true
  | .vfmin _ _ _ => true
  | .vfmax _ _ _ => true
  | .vfabs _ _ => true
  | .vfneg _ _ => true
  | .vfma _ _ _ => true
  | .vfms _ _ _ => true
  | .vfnma _ _ _ => true
  | .vfnms _ _ _ => true
  | .vdiv _ _ _ => true
  | .vsqrt _ _ => true
  | .vrcps _ _ => true
  | .vrsqs _ _ => true
  | .vceq m _ _ => WellFormed.maskDestination m
  | .vcne m _ _ => WellFormed.maskDestination m
  | .vclt m _ _ => WellFormed.maskDestination m
  | .vcle m _ _ => WellFormed.maskDestination m
  | .vcltu m _ _ => WellFormed.maskDestination m
  | .vcleu m _ _ => WellFormed.maskDestination m
  | .vcun m _ _ => WellFormed.maskDestination m
  | .mand d _ _ => WellFormed.maskDestination d
  | .mor d _ _ => WellFormed.maskDestination d
  | .mxor d _ _ => WellFormed.maskDestination d
  | .mandn d _ _ => WellFormed.maskDestination d
  | .mnot d _ => WellFormed.maskDestination d
  | .mmov d _ => WellFormed.maskDestination d
  | .mfirst d _ => WellFormed.maskDestination d
  | .vcvt _ _ t => WellFormed.cvtDestination t
  | .vcvts _ _ t => WellFormed.cvtDestination t
  | .vredo _ _ _ => true
  | .vredt _ _ _ => true
  | .vredmin _ _ _ => true
  | .vredmax _ _ _ => true
  | .vscan _ _ _ => true
  | .vscanx _ _ _ => true
  | .vperm _ _ _ => true
  | .vcomp _ _ => true
  | .vexpd _ _ => true
  | .vslup _ _ _ => true
  | .vsldn _ _ _ => true
  | .vxchg _ _ _ => true
  | .vbcast _ _ => true
  | .viota _ _ => true
  | .vrng _ _ => true
  | .vfetch _ => true
  | .vnext _ _ => true
  | .vld _ _ _ h => WellFormed.hintAssigned h
  | .vlds _ _ _ h => WellFormed.hintAssigned h
  | .vst _ _ _ h => WellFormed.hintAssigned h
  | .vsts _ _ _ h => WellFormed.hintAssigned h
  | .vldc _ _ _ h => WellFormed.hintAssigned h
  | .vstc _ _ _ h => WellFormed.hintAssigned h
  | .vgath _ _ _ => true
  | .vscat _ _ _ => true
  | .vscadd _ _ _ => true
  | .vldb _ _ _ h => WellFormed.hintAssigned h
  | .vstb _ _ _ h => WellFormed.hintAssigned h
  | .vldz _ _ _ h => WellFormed.hintAssigned h
  | .amoaddW _ _ _ _ _ sc => WellFormed.scopeAssigned sc
  | .amoswapW _ _ _ _ _ sc => WellFormed.scopeAssigned sc
  | .amoandW _ _ _ _ _ sc => WellFormed.scopeAssigned sc
  | .amoorW _ _ _ _ _ sc => WellFormed.scopeAssigned sc
  | .amoxorW _ _ _ _ _ sc => WellFormed.scopeAssigned sc
  | .amominW _ _ _ _ _ sc => WellFormed.scopeAssigned sc
  | .amomaxW _ _ _ _ _ sc => WellFormed.scopeAssigned sc
  | .amocasW _ _ _ _ _ sc => WellFormed.scopeAssigned sc
  | .amoaddD _ _ _ _ _ sc => WellFormed.scopeAssigned sc
  | .amoswapD _ _ _ _ _ sc => WellFormed.scopeAssigned sc
  | .amoandD _ _ _ _ _ sc => WellFormed.scopeAssigned sc
  | .amoorD _ _ _ _ _ sc => WellFormed.scopeAssigned sc
  | .amoxorD _ _ _ _ _ sc => WellFormed.scopeAssigned sc
  | .amominD _ _ _ _ _ sc => WellFormed.scopeAssigned sc
  | .amomaxD _ _ _ _ _ sc => WellFormed.scopeAssigned sc
  | .amocasD _ _ _ _ _ sc => WellFormed.scopeAssigned sc
  | .ldaW _ _ sc => WellFormed.scopeAssigned sc
  | .ldaD _ _ sc => WellFormed.scopeAssigned sc
  | .stlW _ _ sc => WellFormed.scopeAssigned sc
  | .stlD _ _ sc => WellFormed.scopeAssigned sc
  | .fence sc => WellFormed.scopeAssigned sc
  | .wbr _ _ sc => WellFormed.scopeAssigned sc
  | .invr _ _ sc => WellFormed.scopeAssigned sc
  | .lclk _ => true
  | .own _ _ => true
  | .mldb _ => true
  | .mmao _ _ _ => true
  | .mmaf _ _ _ => true
  | .mmas _ _ _ => true
  | .sldc _ => true
  | .seval _ _ => true
  | .sevald _ _ => true
  | .sgrad _ _ _ => true
  | .sref _ => true
  | .xdec _ _ => true
  | .xenc _ _ _ _ => true
  | .flcfg _ _ _ => true
  | .fllvl _ _ _ => true
  | .flxf _ _ => true
  | .flblk _ _ => true
  | .flstart _ _ _ => true
  | .bdef _ _ _ => true
  | .bget _ _ _ => true
  | .bput _ _ => true
  | .cwait _ _ _ => true
  | .cadd _ _ _ => true
  | .topen _ _ => true
  | .twalk _ _ _ => true
  | .tappend _ _ _ => true
  | .trefit _ _ => true
  | .tsumr _ _ _ => true
  | .clstart _ => true
  | .rfence _ => true
  | .grp _ _ t r _ _ _ _ => WellFormed.etypeAssigned t && WellFormed.rndAssigned r
  | .pfx m v r w p q x t y => WellFormed.pfxLegal m v r w p q x t y && WellFormed.pfxClean m v r w q x t y
  | .yield => true
  | .halt => true
  | .npbegin => true
  | .npend => true
  | .tret => true
  | .tlbinvg => true
  | .embage => true
  | .vjoin => true
  | .vpend => true
  | .bar => true
  | .sknot => true
  | .waitevReread => true
  | .ownFlipComplete => true
  | .bgetServe => true
  | .cwaitReread => true
  | .asyncEventEntry => true
  | .preemptionRequest => true
  | .npRegionOverrun => true
  | .windowEntryStarvation => true
  | .doorbell => true
  | .dependenceMet => true
  | .priorityAging => true
  | .serveQueue => true
  | .gangEnd => true
  | .damperWindowEnd => true
  | .migrationLapse => true
  | .gangResume => true
  | .gangReadmission => true
  | .ptsTick => true
  | .htsTick => true
  | .homeExpireSweep => true
  | .l1LeaseDrop => true
  | .rangeRequestRetry => true
  | .reservationServe => true
  | .l1Eviction => true
  | .hostOwnershipTake => true
  | .hostStore => true
  | .compressedBlockRetry => true
  | .remoteRequest => true
  | .engineOpFire => true
  | .flueCopy => true
  | .faultRecordWrite => true
  | .engineCompletionAdd => true
  | .engineReplay => true
  | .engineAbort => true
  | .engineSuspend => true
  | .walk => true
  | .append => true
  | .treeRefit => true
  | .collectiveOperation => true
  | .biasFlipToHost => true
  | .biasFlipToDevice => true
  | .linkCrcFail => true
  | .linkRetrain => true
  | .devstatWrite => true
  | .embctlWrite => true
  | .registerWrite => true
  | .deviceReset => true
  | .attestationRequest => true
  | .attestationReport => true
  | .d3hotRequest => true
  | .d3hotEntry => true
  | .inletTemperatureChange => true
  | .coolantFlowChange => true
  | .lowFlowTimeout => true
  | .unassignedInstructionWord => true
  | .instructionFetchFault => true
  | .softError => true
  | .keySlotLoad => true
  | .dynamicCapacityExtentChange => true
  | .d3coldEntry => true

/-- The rows of the table without an encoding: events of the device, the only terms the agenda may hold. -/
def Instr.isEvent : Instr → Bool
  | .add _ _ _ => false
  | .sub _ _ _ => false
  | .and _ _ _ => false
  | .or _ _ _ => false
  | .xor _ _ _ => false
  | .andn _ _ _ => false
  | .sll _ _ _ => false
  | .srl _ _ _ => false
  | .sra _ _ _ => false
  | .mul _ _ _ => false
  | .mulh _ _ _ => false
  | .mulhu _ _ _ => false
  | .div _ _ _ => false
  | .divu _ _ _ => false
  | .rem _ _ _ => false
  | .remu _ _ _ => false
  | .min _ _ _ => false
  | .max _ _ _ => false
  | .minu _ _ _ => false
  | .maxu _ _ _ => false
  | .clz _ _ => false
  | .ctz _ _ => false
  | .popc _ _ => false
  | .seq _ _ _ => false
  | .slt _ _ _ => false
  | .sltu _ _ _ => false
  | .addi _ _ _ => false
  | .andi _ _ _ => false
  | .ori _ _ _ => false
  | .xori _ _ _ => false
  | .slti _ _ _ => false
  | .sltiu _ _ _ => false
  | .slli _ _ _ => false
  | .srli _ _ _ => false
  | .srai _ _ _ => false
  | .immh _ _ => false
  | .pcrel _ _ => false
  | .beq _ _ _ => false
  | .bne _ _ _ => false
  | .blt _ _ _ => false
  | .bge _ _ _ => false
  | .bltu _ _ _ => false
  | .bgeu _ _ _ => false
  | .jlk _ _ => false
  | .jlkr _ _ _ => false
  | .lb _ _ _ => false
  | .lbu _ _ _ => false
  | .lh _ _ _ => false
  | .lhu _ _ _ => false
  | .lw _ _ _ => false
  | .lwu _ _ _ => false
  | .ld _ _ _ => false
  | .sb _ _ _ => false
  | .sh _ _ _ => false
  | .sw _ _ _ => false
  | .sd _ _ _ => false
  | .faddS _ _ _ => false
  | .fsubS _ _ _ => false
  | .fmulS _ _ _ => false
  | .fdivS _ _ _ => false
  | .fsqrtS _ _ => false
  | .fminS _ _ _ => false
  | .fmaxS _ _ _ => false
  | .ffmaS _ _ _ => false
  | .fceqS _ _ _ => false
  | .fcltS _ _ _ => false
  | .fcleS _ _ _ => false
  | .ftoiS _ _ => false
  | .itofS _ _ => false
  | .faddD _ _ _ => false
  | .fsubD _ _ _ => false
  | .fmulD _ _ _ => false
  | .fdivD _ _ _ => false
  | .fsqrtD _ _ => false
  | .fminD _ _ _ => false
  | .fmaxD _ _ _ => false
  | .ffmaD _ _ _ => false
  | .fceqD _ _ _ => false
  | .fcltD _ _ _ => false
  | .fcleD _ _ _ => false
  | .ftoiD _ _ => false
  | .itofD _ _ => false
  | .fnrw _ _ => false
  | .fwdn _ _ => false
  | .rdc _ _ => false
  | .wrc _ _ => false
  | .trap _ => false
  | .waitev _ _ _ => false
  | .launch _ => false
  | .csave _ _ => false
  | .crestore _ _ => false
  | .tlbinv _ _ => false
  | .tlbinva _ => false
  | .embrd _ _ _ => false
  | .rlogctl _ => false
  | .claim _ _ => false
  | .spclaim _ _ => false
  | .spqry _ => false
  | .setl4 _ _ _ => false
  | .setl8 _ _ _ => false
  | .setl16 _ _ _ => false
  | .setl32 _ _ _ => false
  | .setl64 _ _ _ => false
  | .vadd _ _ _ => false
  | .vsub _ _ _ => false
  | .vmul _ _ _ => false
  | .vmulh _ _ _ => false
  | .vmin _ _ _ => false
  | .vmax _ _ _ => false
  | .vminu _ _ _ => false
  | .vmaxu _ _ _ => false
  | .vand _ _ _ => false
  | .vor _ _ _ => false
  | .vxor _ _ _ => false
  | .vsll _ _ _ => false
  | .vsrl _ _ _ => false
  | .vsra _ _ _ => false
  | .vabs _ _ => false
  | .vneg _ _ => false
  | .vadds _ _ _ => false
  | .vsubs _ _ _ => false
  | .vsel _ _ _ => false
  | .vmov _ _ => false
  | .vfadd _ _ _ => false
  | .vfsub _ _ _ => false
  | .vfmul _ _ _ => false
  | .vfmin _ _ _ => false
  | .vfmax _ _ _ => false
  | .vfabs _ _ => false
  | .vfneg _ _ => false
  | .vfma _ _ _ => false
  | .vfms _ _ _ => false
  | .vfnma _ _ _ => false
  | .vfnms _ _ _ => false
  | .vdiv _ _ _ => false
  | .vsqrt _ _ => false
  | .vrcps _ _ => false
  | .vrsqs _ _ => false
  | .vceq _ _ _ => false
  | .vcne _ _ _ => false
  | .vclt _ _ _ => false
  | .vcle _ _ _ => false
  | .vcltu _ _ _ => false
  | .vcleu _ _ _ => false
  | .vcun _ _ _ => false
  | .mand _ _ _ => false
  | .mor _ _ _ => false
  | .mxor _ _ _ => false
  | .mandn _ _ _ => false
  | .mnot _ _ => false
  | .mmov _ _ => false
  | .mfirst _ _ => false
  | .vcvt _ _ _ => false
  | .vcvts _ _ _ => false
  | .vredo _ _ _ => false
  | .vredt _ _ _ => false
  | .vredmin _ _ _ => false
  | .vredmax _ _ _ => false
  | .vscan _ _ _ => false
  | .vscanx _ _ _ => false
  | .vperm _ _ _ => false
  | .vcomp _ _ => false
  | .vexpd _ _ => false
  | .vslup _ _ _ => false
  | .vsldn _ _ _ => false
  | .vxchg _ _ _ => false
  | .vbcast _ _ => false
  | .viota _ _ => false
  | .vrng _ _ => false
  | .vfetch _ => false
  | .vnext _ _ => false
  | .vld _ _ _ _ => false
  | .vlds _ _ _ _ => false
  | .vst _ _ _ _ => false
  | .vsts _ _ _ _ => false
  | .vldc _ _ _ _ => false
  | .vstc _ _ _ _ => false
  | .vgath _ _ _ => false
  | .vscat _ _ _ => false
  | .vscadd _ _ _ => false
  | .vldb _ _ _ _ => false
  | .vstb _ _ _ _ => false
  | .vldz _ _ _ _ => false
  | .amoaddW _ _ _ _ _ _ => false
  | .amoswapW _ _ _ _ _ _ => false
  | .amoandW _ _ _ _ _ _ => false
  | .amoorW _ _ _ _ _ _ => false
  | .amoxorW _ _ _ _ _ _ => false
  | .amominW _ _ _ _ _ _ => false
  | .amomaxW _ _ _ _ _ _ => false
  | .amocasW _ _ _ _ _ _ => false
  | .amoaddD _ _ _ _ _ _ => false
  | .amoswapD _ _ _ _ _ _ => false
  | .amoandD _ _ _ _ _ _ => false
  | .amoorD _ _ _ _ _ _ => false
  | .amoxorD _ _ _ _ _ _ => false
  | .amominD _ _ _ _ _ _ => false
  | .amomaxD _ _ _ _ _ _ => false
  | .amocasD _ _ _ _ _ _ => false
  | .ldaW _ _ _ => false
  | .ldaD _ _ _ => false
  | .stlW _ _ _ => false
  | .stlD _ _ _ => false
  | .fence _ => false
  | .wbr _ _ _ => false
  | .invr _ _ _ => false
  | .lclk _ => false
  | .own _ _ => false
  | .mldb _ => false
  | .mmao _ _ _ => false
  | .mmaf _ _ _ => false
  | .mmas _ _ _ => false
  | .sldc _ => false
  | .seval _ _ => false
  | .sevald _ _ => false
  | .sgrad _ _ _ => false
  | .sref _ => false
  | .xdec _ _ => false
  | .xenc _ _ _ _ => false
  | .flcfg _ _ _ => false
  | .fllvl _ _ _ => false
  | .flxf _ _ => false
  | .flblk _ _ => false
  | .flstart _ _ _ => false
  | .bdef _ _ _ => false
  | .bget _ _ _ => false
  | .bput _ _ => false
  | .cwait _ _ _ => false
  | .cadd _ _ _ => false
  | .topen _ _ => false
  | .twalk _ _ _ => false
  | .tappend _ _ _ => false
  | .trefit _ _ => false
  | .tsumr _ _ _ => false
  | .clstart _ => false
  | .rfence _ => false
  | .grp _ _ _ _ _ _ _ _ => false
  | .pfx _ _ _ _ _ _ _ _ _ => false
  | .yield => false
  | .halt => false
  | .npbegin => false
  | .npend => false
  | .tret => false
  | .tlbinvg => false
  | .embage => false
  | .vjoin => false
  | .vpend => false
  | .bar => false
  | .sknot => false
  | .waitevReread => true
  | .ownFlipComplete => true
  | .bgetServe => true
  | .cwaitReread => true
  | .asyncEventEntry => true
  | .preemptionRequest => true
  | .npRegionOverrun => true
  | .windowEntryStarvation => true
  | .doorbell => true
  | .dependenceMet => true
  | .priorityAging => true
  | .serveQueue => true
  | .gangEnd => true
  | .damperWindowEnd => true
  | .migrationLapse => true
  | .gangResume => true
  | .gangReadmission => true
  | .ptsTick => true
  | .htsTick => true
  | .homeExpireSweep => true
  | .l1LeaseDrop => true
  | .rangeRequestRetry => true
  | .reservationServe => true
  | .l1Eviction => true
  | .hostOwnershipTake => true
  | .hostStore => true
  | .compressedBlockRetry => true
  | .remoteRequest => true
  | .engineOpFire => true
  | .flueCopy => true
  | .faultRecordWrite => true
  | .engineCompletionAdd => true
  | .engineReplay => true
  | .engineAbort => true
  | .engineSuspend => true
  | .walk => true
  | .append => true
  | .treeRefit => true
  | .collectiveOperation => true
  | .biasFlipToHost => true
  | .biasFlipToDevice => true
  | .linkCrcFail => true
  | .linkRetrain => true
  | .devstatWrite => true
  | .embctlWrite => true
  | .registerWrite => true
  | .deviceReset => true
  | .attestationRequest => true
  | .attestationReport => true
  | .d3hotRequest => true
  | .d3hotEntry => true
  | .inletTemperatureChange => true
  | .coolantFlowChange => true
  | .lowFlowTimeout => true
  | .unassignedInstructionWord => true
  | .instructionFetchFault => true
  | .softError => true
  | .keySlotLoad => true
  | .dynamicCapacityExtentChange => true
  | .d3coldEntry => true

end Sys2Proof
end

