-- ==== Sys2Proof/Decode.lean ====
section
/-! DEFINITION. Decoding of a 32-bit word and the encoder written from the same tables (spec 03 R27 to R33, R41, R42).

`decode` is total.  A word that is no assigned instruction is rejected by the name of the trap R42 gives it; where a
word is both illegal and has reserved bits set, the illegal instruction comes first (R24). -/

namespace Sys2Proof

/-- Why a word is no assigned instruction (spec 03 R42). -/
inductive DecodeErr where
  /-- Unassigned major or function value, or a reserved value in an assigned field: illegal-instruction trap. -/
  | illegal
  /-- An unused or must-be-zero field of a word that is otherwise `i` holds a nonzero value: reserved-bits trap. -/
  | reserved (i : Instr)
  deriving DecidableEq, Repr

/-- The `n` bits of `w` from bit `lo` up, read unsigned (spec 00 R1). -/
def Decode.raw (w lo n : Nat) : Nat := w / 2 ^ lo % 2 ^ n

/-- The same bits as a bit vector. -/
def Decode.field (w lo n : Nat) : BitVec n := BitVec.ofNat n (w / 2 ^ lo)

/-- One bit of `w`. -/
def Decode.flag (w lo : Nat) : Bool := decide (w / 2 ^ lo % 2 = 1)

/-- A word whose must-be-zero bits add up to `z`. -/
def Decode.clean (z : Nat) (i : Instr) : Except DecodeErr Instr :=
  if z = 0 then .ok i else .error (.reserved i)

/-- A word with a reserved value in an assigned field is illegal before its reserved bits are looked at (R24). -/
def Decode.legal (c : Bool) (r : Except DecodeErr Instr) : Except DecodeErr Instr :=
  if c then r else .error .illegal

/-- Major 0x01 (spec 03 R41), by its function field. -/
def Decode.major01 (w : Nat) : Except DecodeErr Instr :=
  match Decode.raw w 0 8 with
  | 0x00 => .ok (.add (Decode.field w 20 6) (Decode.field w 14 6) (Decode.field w 8 6))
  | 0x01 => .ok (.sub (Decode.field w 20 6) (Decode.field w 14 6) (Decode.field w 8 6))
  | 0x02 => .ok (.and (Decode.field w 20 6) (Decode.field w 14 6) (Decode.field w 8 6))
  | 0x03 => .ok (.or (Decode.field w 20 6) (Decode.field w 14 6) (Decode.field w 8 6))
  | 0x04 => .ok (.xor (Decode.field w 20 6) (Decode.field w 14 6) (Decode.field w 8 6))
  | 0x05 => .ok (.andn (Decode.field w 20 6) (Decode.field w 14 6) (Decode.field w 8 6))
  | 0x06 => .ok (.sll (Decode.field w 20 6) (Decode.field w 14 6) (Decode.field w 8 6))
  | 0x07 => .ok (.srl (Decode.field w 20 6) (Decode.field w 14 6) (Decode.field w 8 6))
  | 0x08 => .ok (.sra (Decode.field w 20 6) (Decode.field w 14 6) (Decode.field w 8 6))
  | 0x10 => .ok (.mul (Decode.field w 20 6) (Decode.field w 14 6) (Decode.field w 8 6))
  | 0x11 => .ok (.mulh (Decode.field w 20 6) (Decode.field w 14 6) (Decode.field w 8 6))
  | 0x12 => .ok (.mulhu (Decode.field w 20 6) (Decode.field w 14 6) (Decode.field w 8 6))
  | 0x13 => .ok (.div (Decode.field w 20 6) (Decode.field w 14 6) (Decode.field w 8 6))
  | 0x14 => .ok (.divu (Decode.field w 20 6) (Decode.field w 14 6) (Decode.field w 8 6))
  | 0x15 => .ok (.rem (Decode.field w 20 6) (Decode.field w 14 6) (Decode.field w 8 6))
  | 0x16 => .ok (.remu (Decode.field w 20 6) (Decode.field w 14 6) (Decode.field w 8 6))
  | 0x18 => .ok (.min (Decode.field w 20 6) (Decode.field w 14 6) (Decode.field w 8 6))
  | 0x19 => .ok (.max (Decode.field w 20 6) (Decode.field w 14 6) (Decode.field w 8 6))
  | 0x1A => .ok (.minu (Decode.field w 20 6) (Decode.field w 14 6) (Decode.field w 8 6))
  | 0x1B => .ok (.maxu (Decode.field w 20 6) (Decode.field w 14 6) (Decode.field w 8 6))
  | 0x20 => Decode.clean (Decode.raw w 8 6) (.clz (Decode.field w 20 6) (Decode.field w 14 6))
  | 0x21 => Decode.clean (Decode.raw w 8 6) (.ctz (Decode.field w 20 6) (Decode.field w 14 6))
  | 0x22 => Decode.clean (Decode.raw w 8 6) (.popc (Decode.field w 20 6) (Decode.field w 14 6))
  | 0x28 => .ok (.seq (Decode.field w 20 6) (Decode.field w 14 6) (Decode.field w 8 6))
  | 0x29 => .ok (.slt (Decode.field w 20 6) (Decode.field w 14 6) (Decode.field w 8 6))
  | 0x2A => .ok (.sltu (Decode.field w 20 6) (Decode.field w 14 6) (Decode.field w 8 6))
  | _ => .error .illegal

/-- Major 0x08 (spec 03 R41), by its function field. -/
def Decode.major08 (w : Nat) : Except DecodeErr Instr :=
  match Decode.raw w 0 8 with
  | 0x00 => .ok (.slli (Decode.field w 20 6) (Decode.field w 14 6) (Decode.field w 8 6))
  | 0x01 => .ok (.srli (Decode.field w 20 6) (Decode.field w 14 6) (Decode.field w 8 6))
  | 0x02 => .ok (.srai (Decode.field w 20 6) (Decode.field w 14 6) (Decode.field w 8 6))
  | _ => .error .illegal

/-- Major 0x1F (spec 03 R41), by its function field. -/
def Decode.major1F (w : Nat) : Except DecodeErr Instr :=
  match Decode.raw w 0 8 with
  | 0x00 => .ok (.faddS (Decode.field w 20 6) (Decode.field w 14 6) (Decode.field w 8 6))
  | 0x01 => .ok (.fsubS (Decode.field w 20 6) (Decode.field w 14 6) (Decode.field w 8 6))
  | 0x02 => .ok (.fmulS (Decode.field w 20 6) (Decode.field w 14 6) (Decode.field w 8 6))
  | 0x03 => .ok (.fdivS (Decode.field w 20 6) (Decode.field w 14 6) (Decode.field w 8 6))
  | 0x04 => Decode.clean (Decode.raw w 8 6) (.fsqrtS (Decode.field w 20 6) (Decode.field w 14 6))
  | 0x05 => .ok (.fminS (Decode.field w 20 6) (Decode.field w 14 6) (Decode.field w 8 6))
  | 0x06 => .ok (.fmaxS (Decode.field w 20 6) (Decode.field w 14 6) (Decode.field w 8 6))
  | 0x07 => .ok (.ffmaS (Decode.field w 20 6) (Decode.field w 14 6) (Decode.field w 8 6))
  | 0x08 => .ok (.fceqS (Decode.field w 20 6) (Decode.field w 14 6) (Decode.field w 8 6))
  | 0x09 => .ok (.fcltS (Decode.field w 20 6) (Decode.field w 14 6) (Decode.field w 8 6))
  | 0x0A => .ok (.fcleS (Decode.field w 20 6) (Decode.field w 14 6) (Decode.field w 8 6))
  | 0x0C => Decode.clean (Decode.raw w 8 6) (.ftoiS (Decode.field w 20 6) (Decode.field w 14 6))
  | 0x0E => Decode.clean (Decode.raw w 8 6) (.itofS (Decode.field w 20 6) (Decode.field w 14 6))
  | 0x10 => .ok (.faddD (Decode.field w 20 6) (Decode.field w 14 6) (Decode.field w 8 6))
  | 0x11 => .ok (.fsubD (Decode.field w 20 6) (Decode.field w 14 6) (Decode.field w 8 6))
  | 0x12 => .ok (.fmulD (Decode.field w 20 6) (Decode.field w 14 6) (Decode.field w 8 6))
  | 0x13 => .ok (.fdivD (Decode.field w 20 6) (Decode.field w 14 6) (Decode.field w 8 6))
  | 0x14 => Decode.clean (Decode.raw w 8 6) (.fsqrtD (Decode.field w 20 6) (Decode.field w 14 6))
  | 0x15 => .ok (.fminD (Decode.field w 20 6) (Decode.field w 14 6) (Decode.field w 8 6))
  | 0x16 => .ok (.fmaxD (Decode.field w 20 6) (Decode.field w 14 6) (Decode.field w 8 6))
  | 0x17 => .ok (.ffmaD (Decode.field w 20 6) (Decode.field w 14 6) (Decode.field w 8 6))
  | 0x18 => .ok (.fceqD (Decode.field w 20 6) (Decode.field w 14 6) (Decode.field w 8 6))
  | 0x19 => .ok (.fcltD (Decode.field w 20 6) (Decode.field w 14 6) (Decode.field w 8 6))
  | 0x1A => .ok (.fcleD (Decode.field w 20 6) (Decode.field w 14 6) (Decode.field w 8 6))
  | 0x1C => Decode.clean (Decode.raw w 8 6) (.ftoiD (Decode.field w 20 6) (Decode.field w 14 6))
  | 0x1E => Decode.clean (Decode.raw w 8 6) (.itofD (Decode.field w 20 6) (Decode.field w 14 6))
  | 0x20 => Decode.clean (Decode.raw w 8 6) (.fnrw (Decode.field w 20 6) (Decode.field w 14 6))
  | 0x21 => Decode.clean (Decode.raw w 8 6) (.fwdn (Decode.field w 20 6) (Decode.field w 14 6))
  | _ => .error .illegal

/-- Major 0x23 (spec 03 R41), by its function field. -/
def Decode.major23 (w : Nat) : Except DecodeErr Instr :=
  match Decode.raw w 0 8 with
  | 0x01 => .ok (.waitev (Decode.field w 20 6) (Decode.field w 14 6) (Decode.field w 8 6))
  | 0x03 => Decode.clean (Decode.raw w 8 6 + Decode.raw w 20 6) (.launch (Decode.field w 14 6))
  | 0x11 => Decode.clean (Decode.raw w 20 6) (.csave (Decode.field w 14 6) (Decode.field w 8 6))
  | 0x12 => Decode.clean (Decode.raw w 20 6) (.crestore (Decode.field w 14 6) (Decode.field w 8 6))
  | 0x13 => Decode.clean (Decode.raw w 20 6) (.tlbinv (Decode.field w 14 6) (Decode.field w 8 6))
  | 0x14 => Decode.clean (Decode.raw w 8 6 + Decode.raw w 20 6) (.tlbinva (Decode.field w 14 6))
  | 0x16 => .ok (.embrd (Decode.field w 20 6) (Decode.field w 14 6) (Decode.field w 8 6))
  | 0x18 => Decode.clean (Decode.raw w 8 6 + Decode.raw w 20 6) (.rlogctl (Decode.field w 14 6))
  | 0x00 => Decode.clean (Decode.raw w 8 18) (.yield)
  | 0x02 => Decode.clean (Decode.raw w 8 18) (.halt)
  | 0x04 => Decode.clean (Decode.raw w 8 18) (.npbegin)
  | 0x05 => Decode.clean (Decode.raw w 8 18) (.npend)
  | 0x10 => Decode.clean (Decode.raw w 8 18) (.tret)
  | 0x15 => Decode.clean (Decode.raw w 8 18) (.tlbinvg)
  | 0x17 => Decode.clean (Decode.raw w 8 18) (.embage)
  | _ => .error .illegal

/-- Major 0x24 (spec 03 R41), by its function field. -/
def Decode.major24 (w : Nat) : Except DecodeErr Instr :=
  match Decode.raw w 0 8 with
  | 0x00 => Decode.clean (Decode.raw w 8 6) (.claim (Decode.field w 20 6) (Decode.field w 14 6))
  | 0x01 => Decode.clean (Decode.raw w 8 6) (.spclaim (Decode.field w 20 6) (Decode.field w 14 6))
  | 0x02 => Decode.clean (Decode.raw w 8 12) (.spqry (Decode.field w 20 6))
  | 0x10 => .ok (.setl4 (Decode.field w 20 6) (Decode.field w 14 6) (Decode.field w 8 6))
  | 0x11 => .ok (.setl8 (Decode.field w 20 6) (Decode.field w 14 6) (Decode.field w 8 6))
  | 0x12 => .ok (.setl16 (Decode.field w 20 6) (Decode.field w 14 6) (Decode.field w 8 6))
  | 0x13 => .ok (.setl32 (Decode.field w 20 6) (Decode.field w 14 6) (Decode.field w 8 6))
  | 0x14 => .ok (.setl64 (Decode.field w 20 6) (Decode.field w 14 6) (Decode.field w 8 6))
  | _ => .error .illegal

/-- Major 0x25 (spec 03 R41), by its function field. -/
def Decode.major25 (w : Nat) : Except DecodeErr Instr :=
  match Decode.raw w 0 11 with
  | 0x00 => .ok (.vadd (Decode.field w 21 5) (Decode.field w 16 5) (Decode.field w 11 5))
  | 0x01 => .ok (.vsub (Decode.field w 21 5) (Decode.field w 16 5) (Decode.field w 11 5))
  | 0x02 => .ok (.vmul (Decode.field w 21 5) (Decode.field w 16 5) (Decode.field w 11 5))
  | 0x03 => .ok (.vmulh (Decode.field w 21 5) (Decode.field w 16 5) (Decode.field w 11 5))
  | 0x04 => .ok (.vmin (Decode.field w 21 5) (Decode.field w 16 5) (Decode.field w 11 5))
  | 0x05 => .ok (.vmax (Decode.field w 21 5) (Decode.field w 16 5) (Decode.field w 11 5))
  | 0x06 => .ok (.vminu (Decode.field w 21 5) (Decode.field w 16 5) (Decode.field w 11 5))
  | 0x07 => .ok (.vmaxu (Decode.field w 21 5) (Decode.field w 16 5) (Decode.field w 11 5))
  | 0x08 => .ok (.vand (Decode.field w 21 5) (Decode.field w 16 5) (Decode.field w 11 5))
  | 0x09 => .ok (.vor (Decode.field w 21 5) (Decode.field w 16 5) (Decode.field w 11 5))
  | 0x0A => .ok (.vxor (Decode.field w 21 5) (Decode.field w 16 5) (Decode.field w 11 5))
  | 0x0B => .ok (.vsll (Decode.field w 21 5) (Decode.field w 16 5) (Decode.field w 11 5))
  | 0x0C => .ok (.vsrl (Decode.field w 21 5) (Decode.field w 16 5) (Decode.field w 11 5))
  | 0x0D => .ok (.vsra (Decode.field w 21 5) (Decode.field w 16 5) (Decode.field w 11 5))
  | 0x0E => Decode.clean (Decode.raw w 11 5) (.vabs (Decode.field w 21 5) (Decode.field w 16 5))
  | 0x0F => Decode.clean (Decode.raw w 11 5) (.vneg (Decode.field w 21 5) (Decode.field w 16 5))
  | 0x10 => .ok (.vadds (Decode.field w 21 5) (Decode.field w 16 5) (Decode.field w 11 5))
  | 0x11 => .ok (.vsubs (Decode.field w 21 5) (Decode.field w 16 5) (Decode.field w 11 5))
  | 0x12 => .ok (.vsel (Decode.field w 21 5) (Decode.field w 16 5) (Decode.field w 11 5))
  | 0x13 => Decode.clean (Decode.raw w 11 5) (.vmov (Decode.field w 21 5) (Decode.field w 16 5))
  | _ => .error .illegal

/-- Major 0x26 (spec 03 R41), by its function field. -/
def Decode.major26 (w : Nat) : Except DecodeErr Instr :=
  match Decode.raw w 0 11 with
  | 0x00 => .ok (.vfadd (Decode.field w 21 5) (Decode.field w 16 5) (Decode.field w 11 5))
  | 0x01 => .ok (.vfsub (Decode.field w 21 5) (Decode.field w 16 5) (Decode.field w 11 5))
  | 0x02 => .ok (.vfmul (Decode.field w 21 5) (Decode.field w 16 5) (Decode.field w 11 5))
  | 0x03 => .ok (.vfmin (Decode.field w 21 5) (Decode.field w 16 5) (Decode.field w 11 5))
  | 0x04 => .ok (.vfmax (Decode.field w 21 5) (Decode.field w 16 5) (Decode.field w 11 5))
  | 0x05 => Decode.clean (Decode.raw w 11 5) (.vfabs (Decode.field w 21 5) (Decode.field w 16 5))
  | 0x06 => Decode.clean (Decode.raw w 11 5) (.vfneg (Decode.field w 21 5) (Decode.field w 16 5))
  | 0x07 => .ok (.vfma (Decode.field w 21 5) (Decode.field w 16 5) (Decode.field w 11 5))
  | 0x08 => .ok (.vfms (Decode.field w 21 5) (Decode.field w 16 5) (Decode.field w 11 5))
  | 0x09 => .ok (.vfnma (Decode.field w 21 5) (Decode.field w 16 5) (Decode.field w 11 5))
  | 0x0A => .ok (.vfnms (Decode.field w 21 5) (Decode.field w 16 5) (Decode.field w 11 5))
  | _ => .error .illegal

/-- Major 0x27 (spec 03 R41), by its function field. -/
def Decode.major27 (w : Nat) : Except DecodeErr Instr :=
  match Decode.raw w 0 11 with
  | 0x00 => .ok (.vdiv (Decode.field w 21 5) (Decode.field w 16 5) (Decode.field w 11 5))
  | 0x01 => Decode.clean (Decode.raw w 11 5) (.vsqrt (Decode.field w 21 5) (Decode.field w 16 5))
  | 0x02 => Decode.clean (Decode.raw w 11 5) (.vrcps (Decode.field w 21 5) (Decode.field w 16 5))
  | 0x03 => Decode.clean (Decode.raw w 11 5) (.vrsqs (Decode.field w 21 5) (Decode.field w 16 5))
  | _ => .error .illegal

/-- Major 0x28 (spec 03 R41), by its function field. -/
def Decode.major28 (w : Nat) : Except DecodeErr Instr :=
  match Decode.raw w 0 11 with
  | 0x00 => Decode.legal (WellFormed.maskDestination (Decode.field w 21 4)) (Decode.clean (Decode.raw w 25 1) (.vceq (Decode.field w 21 4) (Decode.field w 16 5) (Decode.field w 11 5)))
  | 0x01 => Decode.legal (WellFormed.maskDestination (Decode.field w 21 4)) (Decode.clean (Decode.raw w 25 1) (.vcne (Decode.field w 21 4) (Decode.field w 16 5) (Decode.field w 11 5)))
  | 0x02 => Decode.legal (WellFormed.maskDestination (Decode.field w 21 4)) (Decode.clean (Decode.raw w 25 1) (.vclt (Decode.field w 21 4) (Decode.field w 16 5) (Decode.field w 11 5)))
  | 0x03 => Decode.legal (WellFormed.maskDestination (Decode.field w 21 4)) (Decode.clean (Decode.raw w 25 1) (.vcle (Decode.field w 21 4) (Decode.field w 16 5) (Decode.field w 11 5)))
  | 0x04 => Decode.legal (WellFormed.maskDestination (Decode.field w 21 4)) (Decode.clean (Decode.raw w 25 1) (.vcltu (Decode.field w 21 4) (Decode.field w 16 5) (Decode.field w 11 5)))
  | 0x05 => Decode.legal (WellFormed.maskDestination (Decode.field w 21 4)) (Decode.clean (Decode.raw w 25 1) (.vcleu (Decode.field w 21 4) (Decode.field w 16 5) (Decode.field w 11 5)))
  | 0x06 => Decode.legal (WellFormed.maskDestination (Decode.field w 21 4)) (Decode.clean (Decode.raw w 25 1) (.vcun (Decode.field w 21 4) (Decode.field w 16 5) (Decode.field w 11 5)))
  | _ => .error .illegal

/-- Major 0x29 (spec 03 R41), by its function field. -/
def Decode.major29 (w : Nat) : Except DecodeErr Instr :=
  match Decode.raw w 0 11 with
  | 0x00 => Decode.legal (WellFormed.maskDestination (Decode.field w 21 4)) (Decode.clean (Decode.raw w 15 1 + Decode.raw w 20 1 + Decode.raw w 25 1) (.mand (Decode.field w 21 4) (Decode.field w 16 4) (Decode.field w 11 4)))
  | 0x01 => Decode.legal (WellFormed.maskDestination (Decode.field w 21 4)) (Decode.clean (Decode.raw w 15 1 + Decode.raw w 20 1 + Decode.raw w 25 1) (.mor (Decode.field w 21 4) (Decode.field w 16 4) (Decode.field w 11 4)))
  | 0x02 => Decode.legal (WellFormed.maskDestination (Decode.field w 21 4)) (Decode.clean (Decode.raw w 15 1 + Decode.raw w 20 1 + Decode.raw w 25 1) (.mxor (Decode.field w 21 4) (Decode.field w 16 4) (Decode.field w 11 4)))
  | 0x03 => Decode.legal (WellFormed.maskDestination (Decode.field w 21 4)) (Decode.clean (Decode.raw w 15 1 + Decode.raw w 20 1 + Decode.raw w 25 1) (.mandn (Decode.field w 21 4) (Decode.field w 16 4) (Decode.field w 11 4)))
  | 0x04 => Decode.legal (WellFormed.maskDestination (Decode.field w 21 4)) (Decode.clean (Decode.raw w 11 5 + Decode.raw w 20 1 + Decode.raw w 25 1) (.mnot (Decode.field w 21 4) (Decode.field w 16 4)))
  | 0x05 => Decode.legal (WellFormed.maskDestination (Decode.field w 21 4)) (Decode.clean (Decode.raw w 11 5 + Decode.raw w 20 1 + Decode.raw w 25 1) (.mmov (Decode.field w 21 4) (Decode.field w 16 4)))
  | 0x06 => Decode.legal (WellFormed.maskDestination (Decode.field w 21 4)) (Decode.clean (Decode.raw w 11 5 + Decode.raw w 20 1 + Decode.raw w 25 1) (.mfirst (Decode.field w 21 4) (Decode.field w 16 4)))
  | _ => .error .illegal

/-- Major 0x2A (spec 03 R41), by its function field. -/
def Decode.major2A (w : Nat) : Except DecodeErr Instr :=
  match Decode.raw w 5 1 with
  | 0x00 => Decode.legal (WellFormed.cvtDestination (Decode.field w 0 5)) (Decode.clean (Decode.raw w 6 10) (.vcvt (Decode.field w 21 5) (Decode.field w 16 5) (Decode.field w 0 5)))
  | 0x01 => Decode.legal (WellFormed.cvtDestination (Decode.field w 0 5)) (Decode.clean (Decode.raw w 6 10) (.vcvts (Decode.field w 21 5) (Decode.field w 16 5) (Decode.field w 0 5)))
  | _ => .error .illegal

/-- Major 0x2B (spec 03 R41), by its function field. -/
def Decode.major2B (w : Nat) : Except DecodeErr Instr :=
  match Decode.raw w 0 11 with
  | 0x00 => .ok (.vredo (Decode.field w 21 5) (Decode.field w 16 5) (Decode.field w 11 5))
  | 0x01 => .ok (.vredt (Decode.field w 21 5) (Decode.field w 16 5) (Decode.field w 11 5))
  | 0x02 => .ok (.vredmin (Decode.field w 21 5) (Decode.field w 16 5) (Decode.field w 11 5))
  | 0x03 => .ok (.vredmax (Decode.field w 21 5) (Decode.field w 16 5) (Decode.field w 11 5))
  | 0x04 => .ok (.vscan (Decode.field w 21 5) (Decode.field w 16 5) (Decode.field w 11 5))
  | 0x05 => .ok (.vscanx (Decode.field w 21 5) (Decode.field w 16 5) (Decode.field w 11 5))
  | _ => .error .illegal

/-- Major 0x2C (spec 03 R41), by its function field. -/
def Decode.major2C (w : Nat) : Except DecodeErr Instr :=
  match Decode.raw w 0 11 with
  | 0x00 => .ok (.vperm (Decode.field w 21 5) (Decode.field w 16 5) (Decode.field w 11 5))
  | 0x01 => Decode.clean (Decode.raw w 11 5) (.vcomp (Decode.field w 21 5) (Decode.field w 16 5))
  | 0x02 => Decode.clean (Decode.raw w 11 5) (.vexpd (Decode.field w 21 5) (Decode.field w 16 5))
  | _ => .error .illegal

/-- Major 0x2D (spec 03 R41), by its function field. -/
def Decode.major2D (w : Nat) : Except DecodeErr Instr :=
  match Decode.raw w 0 10 with
  | 0x00 => .ok (.vslup (Decode.field w 21 5) (Decode.field w 16 5) (Decode.field w 10 6))
  | 0x01 => .ok (.vsldn (Decode.field w 21 5) (Decode.field w 16 5) (Decode.field w 10 6))
  | 0x02 => .ok (.vxchg (Decode.field w 21 5) (Decode.field w 16 5) (Decode.field w 10 6))
  | 0x10 => Decode.clean (Decode.raw w 16 5) (.vbcast (Decode.field w 21 5) (Decode.field w 10 6))
  | 0x11 => Decode.clean (Decode.raw w 16 5) (.viota (Decode.field w 21 5) (Decode.field w 10 6))
  | 0x12 => Decode.clean (Decode.raw w 16 5) (.vrng (Decode.field w 21 5) (Decode.field w 10 6))
  | _ => .error .illegal

/-- Major 0x2E (spec 03 R41), by its function field. -/
def Decode.major2E (w : Nat) : Except DecodeErr Instr :=
  match Decode.raw w 0 10 with
  | 0x00 => Decode.clean (Decode.raw w 16 10) (.vfetch (Decode.field w 10 6))
  | 0x02 => Decode.clean (Decode.raw w 16 5 + Decode.raw w 25 1) (.vnext (Decode.field w 21 4) (Decode.field w 10 6))
  | 0x01 => Decode.clean (Decode.raw w 10 16) (.vjoin)
  | 0x03 => Decode.clean (Decode.raw w 10 16) (.vpend)
  | _ => .error .illegal

/-- Major 0x2F (spec 03 R41), by its function field. -/
def Decode.major2F (w : Nat) : Except DecodeErr Instr :=
  match Decode.raw w 0 6 with
  | 0x00 => Decode.legal (WellFormed.hintAssigned (Decode.field w 6 3)) (.ok (.vld (Decode.field w 21 5) (Decode.field w 15 6) (Decode.field w 9 6) (Decode.field w 6 3)))
  | 0x01 => Decode.legal (WellFormed.hintAssigned (Decode.field w 6 3)) (.ok (.vlds (Decode.field w 21 5) (Decode.field w 15 6) (Decode.field w 9 6) (Decode.field w 6 3)))
  | 0x02 => Decode.legal (WellFormed.hintAssigned (Decode.field w 6 3)) (.ok (.vst (Decode.field w 21 5) (Decode.field w 15 6) (Decode.field w 9 6) (Decode.field w 6 3)))
  | 0x03 => Decode.legal (WellFormed.hintAssigned (Decode.field w 6 3)) (.ok (.vsts (Decode.field w 21 5) (Decode.field w 15 6) (Decode.field w 9 6) (Decode.field w 6 3)))
  | _ => .error .illegal

/-- Major 0x30 (spec 03 R41), by its function field. -/
def Decode.major30 (w : Nat) : Except DecodeErr Instr :=
  match Decode.raw w 0 6 with
  | 0x00 => Decode.legal (WellFormed.hintAssigned (Decode.field w 6 3)) (.ok (.vldc (Decode.field w 21 5) (Decode.field w 15 6) (Decode.field w 9 6) (Decode.field w 6 3)))
  | 0x01 => Decode.legal (WellFormed.hintAssigned (Decode.field w 6 3)) (.ok (.vstc (Decode.field w 21 5) (Decode.field w 15 6) (Decode.field w 9 6) (Decode.field w 6 3)))
  | _ => .error .illegal

/-- Major 0x31 (spec 03 R41), by its function field. -/
def Decode.major31 (w : Nat) : Except DecodeErr Instr :=
  match Decode.raw w 0 10 with
  | 0x00 => .ok (.vgath (Decode.field w 21 5) (Decode.field w 16 5) (Decode.field w 10 6))
  | 0x01 => .ok (.vscat (Decode.field w 21 5) (Decode.field w 16 5) (Decode.field w 10 6))
  | 0x02 => .ok (.vscadd (Decode.field w 21 5) (Decode.field w 16 5) (Decode.field w 10 6))
  | _ => .error .illegal

/-- Major 0x32 (spec 03 R41), by its function field. -/
def Decode.major32 (w : Nat) : Except DecodeErr Instr :=
  match Decode.raw w 0 6 with
  | 0x00 => Decode.legal (WellFormed.hintAssigned (Decode.field w 6 3)) (.ok (.vldb (Decode.field w 21 5) (Decode.field w 15 6) (Decode.field w 9 6) (Decode.field w 6 3)))
  | 0x01 => Decode.legal (WellFormed.hintAssigned (Decode.field w 6 3)) (.ok (.vstb (Decode.field w 21 5) (Decode.field w 15 6) (Decode.field w 9 6) (Decode.field w 6 3)))
  | 0x02 => Decode.legal (WellFormed.hintAssigned (Decode.field w 6 3)) (.ok (.vldz (Decode.field w 21 5) (Decode.field w 15 6) (Decode.field w 9 6) (Decode.field w 6 3)))
  | _ => .error .illegal

/-- Major 0x33 (spec 03 R41), by its function field. -/
def Decode.major33 (w : Nat) : Except DecodeErr Instr :=
  match Decode.raw w 5 3 with
  | 0x00 => Decode.legal (WellFormed.scopeAssigned (Decode.field w 0 3)) (.ok (.amoaddW (Decode.field w 20 6) (Decode.field w 14 6) (Decode.field w 8 6) (Decode.flag w 4) (Decode.flag w 3) (Decode.field w 0 3)))
  | 0x01 => Decode.legal (WellFormed.scopeAssigned (Decode.field w 0 3)) (.ok (.amoswapW (Decode.field w 20 6) (Decode.field w 14 6) (Decode.field w 8 6) (Decode.flag w 4) (Decode.flag w 3) (Decode.field w 0 3)))
  | 0x02 => Decode.legal (WellFormed.scopeAssigned (Decode.field w 0 3)) (.ok (.amoandW (Decode.field w 20 6) (Decode.field w 14 6) (Decode.field w 8 6) (Decode.flag w 4) (Decode.flag w 3) (Decode.field w 0 3)))
  | 0x03 => Decode.legal (WellFormed.scopeAssigned (Decode.field w 0 3)) (.ok (.amoorW (Decode.field w 20 6) (Decode.field w 14 6) (Decode.field w 8 6) (Decode.flag w 4) (Decode.flag w 3) (Decode.field w 0 3)))
  | 0x04 => Decode.legal (WellFormed.scopeAssigned (Decode.field w 0 3)) (.ok (.amoxorW (Decode.field w 20 6) (Decode.field w 14 6) (Decode.field w 8 6) (Decode.flag w 4) (Decode.flag w 3) (Decode.field w 0 3)))
  | 0x05 => Decode.legal (WellFormed.scopeAssigned (Decode.field w 0 3)) (.ok (.amominW (Decode.field w 20 6) (Decode.field w 14 6) (Decode.field w 8 6) (Decode.flag w 4) (Decode.flag w 3) (Decode.field w 0 3)))
  | 0x06 => Decode.legal (WellFormed.scopeAssigned (Decode.field w 0 3)) (.ok (.amomaxW (Decode.field w 20 6) (Decode.field w 14 6) (Decode.field w 8 6) (Decode.flag w 4) (Decode.flag w 3) (Decode.field w 0 3)))
  | 0x07 => Decode.legal (WellFormed.scopeAssigned (Decode.field w 0 3)) (.ok (.amocasW (Decode.field w 20 6) (Decode.field w 14 6) (Decode.field w 8 6) (Decode.flag w 4) (Decode.flag w 3) (Decode.field w 0 3)))
  | _ => .error .illegal

/-- Major 0x34 (spec 03 R41), by its function field. -/
def Decode.major34 (w : Nat) : Except DecodeErr Instr :=
  match Decode.raw w 5 3 with
  | 0x00 => Decode.legal (WellFormed.scopeAssigned (Decode.field w 0 3)) (.ok (.amoaddD (Decode.field w 20 6) (Decode.field w 14 6) (Decode.field w 8 6) (Decode.flag w 4) (Decode.flag w 3) (Decode.field w 0 3)))
  | 0x01 => Decode.legal (WellFormed.scopeAssigned (Decode.field w 0 3)) (.ok (.amoswapD (Decode.field w 20 6) (Decode.field w 14 6) (Decode.field w 8 6) (Decode.flag w 4) (Decode.flag w 3) (Decode.field w 0 3)))
  | 0x02 => Decode.legal (WellFormed.scopeAssigned (Decode.field w 0 3)) (.ok (.amoandD (Decode.field w 20 6) (Decode.field w 14 6) (Decode.field w 8 6) (Decode.flag w 4) (Decode.flag w 3) (Decode.field w 0 3)))
  | 0x03 => Decode.legal (WellFormed.scopeAssigned (Decode.field w 0 3)) (.ok (.amoorD (Decode.field w 20 6) (Decode.field w 14 6) (Decode.field w 8 6) (Decode.flag w 4) (Decode.flag w 3) (Decode.field w 0 3)))
  | 0x04 => Decode.legal (WellFormed.scopeAssigned (Decode.field w 0 3)) (.ok (.amoxorD (Decode.field w 20 6) (Decode.field w 14 6) (Decode.field w 8 6) (Decode.flag w 4) (Decode.flag w 3) (Decode.field w 0 3)))
  | 0x05 => Decode.legal (WellFormed.scopeAssigned (Decode.field w 0 3)) (.ok (.amominD (Decode.field w 20 6) (Decode.field w 14 6) (Decode.field w 8 6) (Decode.flag w 4) (Decode.flag w 3) (Decode.field w 0 3)))
  | 0x06 => Decode.legal (WellFormed.scopeAssigned (Decode.field w 0 3)) (.ok (.amomaxD (Decode.field w 20 6) (Decode.field w 14 6) (Decode.field w 8 6) (Decode.flag w 4) (Decode.flag w 3) (Decode.field w 0 3)))
  | 0x07 => Decode.legal (WellFormed.scopeAssigned (Decode.field w 0 3)) (.ok (.amocasD (Decode.field w 20 6) (Decode.field w 14 6) (Decode.field w 8 6) (Decode.flag w 4) (Decode.flag w 3) (Decode.field w 0 3)))
  | _ => .error .illegal

/-- Major 0x35 (spec 03 R41), by its function field. -/
def Decode.major35 (w : Nat) : Except DecodeErr Instr :=
  match Decode.raw w 3 5 with
  | 0x00 => Decode.legal (WellFormed.scopeAssigned (Decode.field w 0 3)) (Decode.clean (Decode.raw w 8 6) (.ldaW (Decode.field w 20 6) (Decode.field w 14 6) (Decode.field w 0 3)))
  | 0x01 => Decode.legal (WellFormed.scopeAssigned (Decode.field w 0 3)) (Decode.clean (Decode.raw w 8 6) (.ldaD (Decode.field w 20 6) (Decode.field w 14 6) (Decode.field w 0 3)))
  | 0x02 => Decode.legal (WellFormed.scopeAssigned (Decode.field w 0 3)) (Decode.clean (Decode.raw w 8 6) (.stlW (Decode.field w 20 6) (Decode.field w 14 6) (Decode.field w 0 3)))
  | 0x03 => Decode.legal (WellFormed.scopeAssigned (Decode.field w 0 3)) (Decode.clean (Decode.raw w 8 6) (.stlD (Decode.field w 20 6) (Decode.field w 14 6) (Decode.field w 0 3)))
  | 0x04 => Decode.legal (WellFormed.scopeAssigned (Decode.field w 0 3)) (Decode.clean (Decode.raw w 8 18) (.fence (Decode.field w 0 3)))
  | 0x05 => Decode.legal (WellFormed.scopeAssigned (Decode.field w 0 3)) (Decode.clean (Decode.raw w 20 6) (.wbr (Decode.field w 14 6) (Decode.field w 8 6) (Decode.field w 0 3)))
  | 0x06 => Decode.legal (WellFormed.scopeAssigned (Decode.field w 0 3)) (Decode.clean (Decode.raw w 20 6) (.invr (Decode.field w 14 6) (Decode.field w 8 6) (Decode.field w 0 3)))
  | 0x07 => Decode.clean (Decode.raw w 0 3 + Decode.raw w 8 12) (.lclk (Decode.field w 20 6))
  | 0x09 => Decode.clean (Decode.raw w 0 3 + Decode.raw w 20 6) (.own (Decode.field w 14 6) (Decode.field w 8 6))
  | 0x08 => Decode.clean (Decode.raw w 0 3 + Decode.raw w 8 18) (.bar)
  | _ => .error .illegal

/-- Major 0x36 (spec 03 R41), by its function field. -/
def Decode.major36 (w : Nat) : Except DecodeErr Instr :=
  match Decode.raw w 0 10 with
  | 0x00 => Decode.clean (Decode.raw w 16 10) (.mldb (Decode.field w 10 6))
  | 0x01 => .ok (.mmao (Decode.field w 21 5) (Decode.field w 16 5) (Decode.field w 10 6))
  | 0x02 => .ok (.mmaf (Decode.field w 21 5) (Decode.field w 16 5) (Decode.field w 10 6))
  | 0x03 => .ok (.mmas (Decode.field w 21 5) (Decode.field w 16 5) (Decode.field w 10 6))
  | _ => .error .illegal

/-- Major 0x37 (spec 03 R41), by its function field. -/
def Decode.major37 (w : Nat) : Except DecodeErr Instr :=
  match Decode.raw w 0 10 with
  | 0x01 => Decode.clean (Decode.raw w 16 10) (.sldc (Decode.field w 10 6))
  | 0x02 => Decode.clean (Decode.raw w 10 6) (.seval (Decode.field w 21 5) (Decode.field w 16 5))
  | 0x03 => Decode.clean (Decode.raw w 10 6) (.sevald (Decode.field w 21 5) (Decode.field w 16 5))
  | 0x04 => .ok (.sgrad (Decode.field w 21 5) (Decode.field w 16 5) (Decode.field w 10 6))
  | 0x05 => Decode.clean (Decode.raw w 16 10) (.sref (Decode.field w 10 6))
  | 0x00 => Decode.clean (Decode.raw w 10 16) (.sknot)
  | _ => .error .illegal

/-- Major 0x38 (spec 03 R41), by its function field. -/
def Decode.major38 (w : Nat) : Except DecodeErr Instr :=
  match Decode.raw w 0 10 with
  | 0x00 => Decode.clean (Decode.raw w 16 5) (.xdec (Decode.field w 21 5) (Decode.field w 10 6))
  | 0x01 => .ok (.xenc (Decode.field w 21 5) (Decode.field w 19 2) (Decode.field w 16 3) (Decode.field w 10 6))
  | _ => .error .illegal

/-- Major 0x39 (spec 03 R41), by its function field. -/
def Decode.major39 (w : Nat) : Except DecodeErr Instr :=
  match Decode.raw w 0 8 with
  | 0x00 => .ok (.flcfg (Decode.field w 20 6) (Decode.field w 14 6) (Decode.field w 8 6))
  | 0x01 => .ok (.fllvl (Decode.field w 20 6) (Decode.field w 14 6) (Decode.field w 8 6))
  | 0x02 => Decode.clean (Decode.raw w 20 6) (.flxf (Decode.field w 14 6) (Decode.field w 8 6))
  | 0x03 => Decode.clean (Decode.raw w 20 6) (.flblk (Decode.field w 14 6) (Decode.field w 8 6))
  | 0x04 => .ok (.flstart (Decode.field w 20 6) (Decode.field w 14 6) (Decode.field w 8 6))
  | _ => .error .illegal

/-- Major 0x3A (spec 03 R41), by its function field. -/
def Decode.major3A (w : Nat) : Except DecodeErr Instr :=
  match Decode.raw w 0 8 with
  | 0x00 => .ok (.bdef (Decode.field w 20 6) (Decode.field w 14 6) (Decode.field w 8 6))
  | 0x01 => .ok (.bget (Decode.field w 20 6) (Decode.field w 14 6) (Decode.field w 8 6))
  | 0x02 => Decode.clean (Decode.raw w 20 6) (.bput (Decode.field w 14 6) (Decode.field w 8 6))
  | 0x08 => .ok (.cwait (Decode.field w 20 6) (Decode.field w 14 6) (Decode.field w 8 6))
  | 0x09 => .ok (.cadd (Decode.field w 20 6) (Decode.field w 14 6) (Decode.field w 8 6))
  | _ => .error .illegal

/-- Major 0x3B (spec 03 R41), by its function field. -/
def Decode.major3B (w : Nat) : Except DecodeErr Instr :=
  match Decode.raw w 0 8 with
  | 0x00 => Decode.clean (Decode.raw w 20 6) (.topen (Decode.field w 14 6) (Decode.field w 8 6))
  | 0x01 => .ok (.twalk (Decode.field w 20 6) (Decode.field w 14 6) (Decode.field w 8 6))
  | 0x02 => .ok (.tappend (Decode.field w 20 6) (Decode.field w 14 6) (Decode.field w 8 6))
  | 0x03 => Decode.clean (Decode.raw w 20 6) (.trefit (Decode.field w 14 6) (Decode.field w 8 6))
  | 0x04 => .ok (.tsumr (Decode.field w 20 6) (Decode.field w 14 6) (Decode.field w 8 6))
  | _ => .error .illegal

/-- Major 0x3C (spec 03 R41), by its function field. -/
def Decode.major3C (w : Nat) : Except DecodeErr Instr :=
  match Decode.raw w 0 8 with
  | 0x00 => Decode.clean (Decode.raw w 8 6 + Decode.raw w 20 6) (.clstart (Decode.field w 14 6))
  | 0x08 => Decode.clean (Decode.raw w 8 6 + Decode.raw w 20 6) (.rfence (Decode.field w 14 6))
  | _ => .error .illegal

/-- The instruction a 32-bit word stands for.  Majors 0x00, 0x0B and 0x3D are unassigned. -/
def decode (w : Nat) : Except DecodeErr Instr :=
  match Decode.raw w 26 6 with
  | 0x01 => Decode.major01 w
  | 0x02 => .ok (.addi (Decode.field w 20 6) (Decode.field w 14 6) (Decode.field w 0 14))
  | 0x03 => .ok (.andi (Decode.field w 20 6) (Decode.field w 14 6) (Decode.field w 0 14))
  | 0x04 => .ok (.ori (Decode.field w 20 6) (Decode.field w 14 6) (Decode.field w 0 14))
  | 0x05 => .ok (.xori (Decode.field w 20 6) (Decode.field w 14 6) (Decode.field w 0 14))
  | 0x06 => .ok (.slti (Decode.field w 20 6) (Decode.field w 14 6) (Decode.field w 0 14))
  | 0x07 => .ok (.sltiu (Decode.field w 20 6) (Decode.field w 14 6) (Decode.field w 0 14))
  | 0x08 => Decode.major08 w
  | 0x09 => .ok (.immh (Decode.field w 20 6) (Decode.field w 0 20))
  | 0x0A => .ok (.pcrel (Decode.field w 20 6) (Decode.field w 0 20))
  | 0x0C => .ok (.beq (Decode.field w 20 6) (Decode.field w 14 6) (Decode.field w 0 14))
  | 0x0D => .ok (.bne (Decode.field w 20 6) (Decode.field w 14 6) (Decode.field w 0 14))
  | 0x0E => .ok (.blt (Decode.field w 20 6) (Decode.field w 14 6) (Decode.field w 0 14))
  | 0x0F => .ok (.bge (Decode.field w 20 6) (Decode.field w 14 6) (Decode.field w 0 14))
  | 0x10 => .ok (.bltu (Decode.field w 20 6) (Decode.field w 14 6) (Decode.field w 0 14))
  | 0x11 => .ok (.bgeu (Decode.field w 20 6) (Decode.field w 14 6) (Decode.field w 0 14))
  | 0x12 => .ok (.jlk (Decode.field w 20 6) (Decode.field w 0 20))
  | 0x13 => .ok (.jlkr (Decode.field w 20 6) (Decode.field w 14 6) (Decode.field w 0 14))
  | 0x14 => .ok (.lb (Decode.field w 20 6) (Decode.field w 14 6) (Decode.field w 0 14))
  | 0x15 => .ok (.lbu (Decode.field w 20 6) (Decode.field w 14 6) (Decode.field w 0 14))
  | 0x16 => .ok (.lh (Decode.field w 20 6) (Decode.field w 14 6) (Decode.field w 0 14))
  | 0x17 => .ok (.lhu (Decode.field w 20 6) (Decode.field w 14 6) (Decode.field w 0 14))
  | 0x18 => .ok (.lw (Decode.field w 20 6) (Decode.field w 14 6) (Decode.field w 0 14))
  | 0x19 => .ok (.lwu (Decode.field w 20 6) (Decode.field w 14 6) (Decode.field w 0 14))
  | 0x1A => .ok (.ld (Decode.field w 20 6) (Decode.field w 14 6) (Decode.field w 0 14))
  | 0x1B => .ok (.sb (Decode.field w 20 6) (Decode.field w 14 6) (Decode.field w 0 14))
  | 0x1C => .ok (.sh (Decode.field w 20 6) (Decode.field w 14 6) (Decode.field w 0 14))
  | 0x1D => .ok (.sw (Decode.field w 20 6) (Decode.field w 14 6) (Decode.field w 0 14))
  | 0x1E => .ok (.sd (Decode.field w 20 6) (Decode.field w 14 6) (Decode.field w 0 14))
  | 0x1F => Decode.major1F w
  | 0x20 => Decode.clean (Decode.raw w 12 8) (.rdc (Decode.field w 20 6) (Decode.field w 0 12))
  | 0x21 => Decode.clean (Decode.raw w 12 2 + Decode.raw w 20 6) (.wrc (Decode.field w 14 6) (Decode.field w 0 12))
  | 0x22 => Decode.clean (Decode.raw w 14 12) (.trap (Decode.field w 0 14))
  | 0x23 => Decode.major23 w
  | 0x24 => Decode.major24 w
  | 0x25 => Decode.major25 w
  | 0x26 => Decode.major26 w
  | 0x27 => Decode.major27 w
  | 0x28 => Decode.major28 w
  | 0x29 => Decode.major29 w
  | 0x2A => Decode.major2A w
  | 0x2B => Decode.major2B w
  | 0x2C => Decode.major2C w
  | 0x2D => Decode.major2D w
  | 0x2E => Decode.major2E w
  | 0x2F => Decode.major2F w
  | 0x30 => Decode.major30 w
  | 0x31 => Decode.major31 w
  | 0x32 => Decode.major32 w
  | 0x33 => Decode.major33 w
  | 0x34 => Decode.major34 w
  | 0x35 => Decode.major35 w
  | 0x36 => Decode.major36 w
  | 0x37 => Decode.major37 w
  | 0x38 => Decode.major38 w
  | 0x39 => Decode.major39 w
  | 0x3A => Decode.major3A w
  | 0x3B => Decode.major3B w
  | 0x3C => Decode.major3C w
  | 0x3E => Decode.legal (WellFormed.etypeAssigned (Decode.field w 16 5) && WellFormed.rndAssigned (Decode.field w 13 3)) (Decode.clean (Decode.raw w 0 6) (.grp (Decode.field w 22 4) (Decode.flag w 21) (Decode.field w 16 5) (Decode.field w 13 3) (Decode.flag w 12) (Decode.flag w 11) (Decode.field w 9 2) (Decode.field w 6 3)))
  | 0x3F => Decode.legal (WellFormed.pfxLegal (Decode.field w 22 4) (Decode.flag w 21) (Decode.field w 18 3) (Decode.flag w 17) (Decode.field w 15 2) (Decode.field w 10 5) (Decode.flag w 9) (Decode.field w 4 5) (Decode.flag w 3)) (if WellFormed.pfxClean (Decode.field w 22 4) (Decode.flag w 21) (Decode.field w 18 3) (Decode.flag w 17) (Decode.field w 10 5) (Decode.flag w 9) (Decode.field w 4 5) (Decode.flag w 3) then Decode.clean (Decode.raw w 0 3) (.pfx (Decode.field w 22 4) (Decode.flag w 21) (Decode.field w 18 3) (Decode.flag w 17) (Decode.field w 15 2) (Decode.field w 10 5) (Decode.flag w 9) (Decode.field w 4 5) (Decode.flag w 3)) else .error (.reserved (.pfx (Decode.field w 22 4) (Decode.flag w 21) (Decode.field w 18 3) (Decode.flag w 17) (Decode.field w 15 2) (Decode.field w 10 5) (Decode.flag w 9) (Decode.field w 4 5) (Decode.flag w 3))))
  | _ => .error .illegal

/-- The instruction the decoder reads from an instruction whose bits are `w`, numbered as the table numbers them;
bits above `nbits` are zero, and no instruction is longer than 32 bits (spec 03 R27). -/
def decodeTableWord (nbits w : Nat) : Option Instr :=
  if 32 < nbits then none
  else
    match decode (w % 2 ^ nbits) with
    | .ok i => some i
    | .error _ => none

/-- The word of a well-formed instruction, written from the formats of spec 03 R28, R31 and R33.  Events have none. -/
def encode : Instr → Nat
  | .add d a b => 0x04000000 + d.toNat * 0x100000 + a.toNat * 0x4000 + b.toNat * 0x100
  | .sub d a b => 0x04000001 + d.toNat * 0x100000 + a.toNat * 0x4000 + b.toNat * 0x100
  | .and d a b => 0x04000002 + d.toNat * 0x100000 + a.toNat * 0x4000 + b.toNat * 0x100
  | .or d a b => 0x04000003 + d.toNat * 0x100000 + a.toNat * 0x4000 + b.toNat * 0x100
  | .xor d a b => 0x04000004 + d.toNat * 0x100000 + a.toNat * 0x4000 + b.toNat * 0x100
  | .andn d a b => 0x04000005 + d.toNat * 0x100000 + a.toNat * 0x4000 + b.toNat * 0x100
  | .sll d a b => 0x04000006 + d.toNat * 0x100000 + a.toNat * 0x4000 + b.toNat * 0x100
  | .srl d a b => 0x04000007 + d.toNat * 0x100000 + a.toNat * 0x4000 + b.toNat * 0x100
  | .sra d a b => 0x04000008 + d.toNat * 0x100000 + a.toNat * 0x4000 + b.toNat * 0x100
  | .mul d a b => 0x04000010 + d.toNat * 0x100000 + a.toNat * 0x4000 + b.toNat * 0x100
  | .mulh d a b => 0x04000011 + d.toNat * 0x100000 + a.toNat * 0x4000 + b.toNat * 0x100
  | .mulhu d a b => 0x04000012 + d.toNat * 0x100000 + a.toNat * 0x4000 + b.toNat * 0x100
  | .div d a b => 0x04000013 + d.toNat * 0x100000 + a.toNat * 0x4000 + b.toNat * 0x100
  | .divu d a b => 0x04000014 + d.toNat * 0x100000 + a.toNat * 0x4000 + b.toNat * 0x100
  | .rem d a b => 0x04000015 + d.toNat * 0x100000 + a.toNat * 0x4000 + b.toNat * 0x100
  | .remu d a b => 0x04000016 + d.toNat * 0x100000 + a.toNat * 0x4000 + b.toNat * 0x100
  | .min d a b => 0x04000018 + d.toNat * 0x100000 + a.toNat * 0x4000 + b.toNat * 0x100
  | .max d a b => 0x04000019 + d.toNat * 0x100000 + a.toNat * 0x4000 + b.toNat * 0x100
  | .minu d a b => 0x0400001A + d.toNat * 0x100000 + a.toNat * 0x4000 + b.toNat * 0x100
  | .maxu d a b => 0x0400001B + d.toNat * 0x100000 + a.toNat * 0x4000 + b.toNat * 0x100
  | .clz d a => 0x04000020 + d.toNat * 0x100000 + a.toNat * 0x4000
  | .ctz d a => 0x04000021 + d.toNat * 0x100000 + a.toNat * 0x4000
  | .popc d a => 0x04000022 + d.toNat * 0x100000 + a.toNat * 0x4000
  | .seq d a b => 0x04000028 + d.toNat * 0x100000 + a.toNat * 0x4000 + b.toNat * 0x100
  | .slt d a b => 0x04000029 + d.toNat * 0x100000 + a.toNat * 0x4000 + b.toNat * 0x100
  | .sltu d a b => 0x0400002A + d.toNat * 0x100000 + a.toNat * 0x4000 + b.toNat * 0x100
  | .addi d a i => 0x08000000 + d.toNat * 0x100000 + a.toNat * 0x4000 + i.toNat
  | .andi d a i => 0x0C000000 + d.toNat * 0x100000 + a.toNat * 0x4000 + i.toNat
  | .ori d a i => 0x10000000 + d.toNat * 0x100000 + a.toNat * 0x4000 + i.toNat
  | .xori d a i => 0x14000000 + d.toNat * 0x100000 + a.toNat * 0x4000 + i.toNat
  | .slti d a i => 0x18000000 + d.toNat * 0x100000 + a.toNat * 0x4000 + i.toNat
  | .sltiu d a i => 0x1C000000 + d.toNat * 0x100000 + a.toNat * 0x4000 + i.toNat
  | .slli d a n => 0x20000000 + d.toNat * 0x100000 + a.toNat * 0x4000 + n.toNat * 0x100
  | .srli d a n => 0x20000001 + d.toNat * 0x100000 + a.toNat * 0x4000 + n.toNat * 0x100
  | .srai d a n => 0x20000002 + d.toNat * 0x100000 + a.toNat * 0x4000 + n.toNat * 0x100
  | .immh d i => 0x24000000 + d.toNat * 0x100000 + i.toNat
  | .pcrel d i => 0x28000000 + d.toNat * 0x100000 + i.toNat
  | .beq a b o => 0x30000000 + a.toNat * 0x100000 + b.toNat * 0x4000 + o.toNat
  | .bne a b o => 0x34000000 + a.toNat * 0x100000 + b.toNat * 0x4000 + o.toNat
  | .blt a b o => 0x38000000 + a.toNat * 0x100000 + b.toNat * 0x4000 + o.toNat
  | .bge a b o => 0x3C000000 + a.toNat * 0x100000 + b.toNat * 0x4000 + o.toNat
  | .bltu a b o => 0x40000000 + a.toNat * 0x100000 + b.toNat * 0x4000 + o.toNat
  | .bgeu a b o => 0x44000000 + a.toNat * 0x100000 + b.toNat * 0x4000 + o.toNat
  | .jlk d o => 0x48000000 + d.toNat * 0x100000 + o.toNat
  | .jlkr d a i => 0x4C000000 + d.toNat * 0x100000 + a.toNat * 0x4000 + i.toNat
  | .lb d a i => 0x50000000 + d.toNat * 0x100000 + a.toNat * 0x4000 + i.toNat
  | .lbu d a i => 0x54000000 + d.toNat * 0x100000 + a.toNat * 0x4000 + i.toNat
  | .lh d a i => 0x58000000 + d.toNat * 0x100000 + a.toNat * 0x4000 + i.toNat
  | .lhu d a i => 0x5C000000 + d.toNat * 0x100000 + a.toNat * 0x4000 + i.toNat
  | .lw d a i => 0x60000000 + d.toNat * 0x100000 + a.toNat * 0x4000 + i.toNat
  | .lwu d a i => 0x64000000 + d.toNat * 0x100000 + a.toNat * 0x4000 + i.toNat
  | .ld d a i => 0x68000000 + d.toNat * 0x100000 + a.toNat * 0x4000 + i.toNat
  | .sb d a i => 0x6C000000 + d.toNat * 0x100000 + a.toNat * 0x4000 + i.toNat
  | .sh d a i => 0x70000000 + d.toNat * 0x100000 + a.toNat * 0x4000 + i.toNat
  | .sw d a i => 0x74000000 + d.toNat * 0x100000 + a.toNat * 0x4000 + i.toNat
  | .sd d a i => 0x78000000 + d.toNat * 0x100000 + a.toNat * 0x4000 + i.toNat
  | .faddS d a b => 0x7C000000 + d.toNat * 0x100000 + a.toNat * 0x4000 + b.toNat * 0x100
  | .fsubS d a b => 0x7C000001 + d.toNat * 0x100000 + a.toNat * 0x4000 + b.toNat * 0x100
  | .fmulS d a b => 0x7C000002 + d.toNat * 0x100000 + a.toNat * 0x4000 + b.toNat * 0x100
  | .fdivS d a b => 0x7C000003 + d.toNat * 0x100000 + a.toNat * 0x4000 + b.toNat * 0x100
  | .fsqrtS d a => 0x7C000004 + d.toNat * 0x100000 + a.toNat * 0x4000
  | .fminS d a b => 0x7C000005 + d.toNat * 0x100000 + a.toNat * 0x4000 + b.toNat * 0x100
  | .fmaxS d a b => 0x7C000006 + d.toNat * 0x100000 + a.toNat * 0x4000 + b.toNat * 0x100
  | .ffmaS d a b => 0x7C000007 + d.toNat * 0x100000 + a.toNat * 0x4000 + b.toNat * 0x100
  | .fceqS d a b => 0x7C000008 + d.toNat * 0x100000 + a.toNat * 0x4000 + b.toNat * 0x100
  | .fcltS d a b => 0x7C000009 + d.toNat * 0x100000 + a.toNat * 0x4000 + b.toNat * 0x100
  | .fcleS d a b => 0x7C00000A + d.toNat * 0x100000 + a.toNat * 0x4000 + b.toNat * 0x100
  | .ftoiS d a => 0x7C00000C + d.toNat * 0x100000 + a.toNat * 0x4000
  | .itofS d a => 0x7C00000E + d.toNat * 0x100000 + a.toNat * 0x4000
  | .faddD d a b => 0x7C000010 + d.toNat * 0x100000 + a.toNat * 0x4000 + b.toNat * 0x100
  | .fsubD d a b => 0x7C000011 + d.toNat * 0x100000 + a.toNat * 0x4000 + b.toNat * 0x100
  | .fmulD d a b => 0x7C000012 + d.toNat * 0x100000 + a.toNat * 0x4000 + b.toNat * 0x100
  | .fdivD d a b => 0x7C000013 + d.toNat * 0x100000 + a.toNat * 0x4000 + b.toNat * 0x100
  | .fsqrtD d a => 0x7C000014 + d.toNat * 0x100000 + a.toNat * 0x4000
  | .fminD d a b => 0x7C000015 + d.toNat * 0x100000 + a.toNat * 0x4000 + b.toNat * 0x100
  | .fmaxD d a b => 0x7C000016 + d.toNat * 0x100000 + a.toNat * 0x4000 + b.toNat * 0x100
  | .ffmaD d a b => 0x7C000017 + d.toNat * 0x100000 + a.toNat * 0x4000 + b.toNat * 0x100
  | .fceqD d a b => 0x7C000018 + d.toNat * 0x100000 + a.toNat * 0x4000 + b.toNat * 0x100
  | .fcltD d a b => 0x7C000019 + d.toNat * 0x100000 + a.toNat * 0x4000 + b.toNat * 0x100
  | .fcleD d a b => 0x7C00001A + d.toNat * 0x100000 + a.toNat * 0x4000 + b.toNat * 0x100
  | .ftoiD d a => 0x7C00001C + d.toNat * 0x100000 + a.toNat * 0x4000
  | .itofD d a => 0x7C00001E + d.toNat * 0x100000 + a.toNat * 0x4000
  | .fnrw d a => 0x7C000020 + d.toNat * 0x100000 + a.toNat * 0x4000
  | .fwdn d a => 0x7C000021 + d.toNat * 0x100000 + a.toNat * 0x4000
  | .rdc d c => 0x80000000 + d.toNat * 0x100000 + c.toNat
  | .wrc a c => 0x84000000 + a.toNat * 0x4000 + c.toNat
  | .trap i => 0x88000000 + i.toNat
  | .waitev d a b => 0x8C000001 + d.toNat * 0x100000 + a.toNat * 0x4000 + b.toNat * 0x100
  | .launch a => 0x8C000003 + a.toNat * 0x4000
  | .csave a b => 0x8C000011 + a.toNat * 0x4000 + b.toNat * 0x100
  | .crestore a b => 0x8C000012 + a.toNat * 0x4000 + b.toNat * 0x100
  | .tlbinv a b => 0x8C000013 + a.toNat * 0x4000 + b.toNat * 0x100
  | .tlbinva a => 0x8C000014 + a.toNat * 0x4000
  | .embrd d a b => 0x8C000016 + d.toNat * 0x100000 + a.toNat * 0x4000 + b.toNat * 0x100
  | .rlogctl a => 0x8C000018 + a.toNat * 0x4000
  | .claim d a => 0x90000000 + d.toNat * 0x100000 + a.toNat * 0x4000
  | .spclaim d a => 0x90000001 + d.toNat * 0x100000 + a.toNat * 0x4000
  | .spqry d => 0x90000002 + d.toNat * 0x100000
  | .setl4 d a b => 0x90000010 + d.toNat * 0x100000 + a.toNat * 0x4000 + b.toNat * 0x100
  | .setl8 d a b => 0x90000011 + d.toNat * 0x100000 + a.toNat * 0x4000 + b.toNat * 0x100
  | .setl16 d a b => 0x90000012 + d.toNat * 0x100000 + a.toNat * 0x4000 + b.toNat * 0x100
  | .setl32 d a b => 0x90000013 + d.toNat * 0x100000 + a.toNat * 0x4000 + b.toNat * 0x100
  | .setl64 d a b => 0x90000014 + d.toNat * 0x100000 + a.toNat * 0x4000 + b.toNat * 0x100
  | .vadd d a b => 0x94000000 + d.toNat * 0x200000 + a.toNat * 0x10000 + b.toNat * 0x800
  | .vsub d a b => 0x94000001 + d.toNat * 0x200000 + a.toNat * 0x10000 + b.toNat * 0x800
  | .vmul d a b => 0x94000002 + d.toNat * 0x200000 + a.toNat * 0x10000 + b.toNat * 0x800
  | .vmulh d a b => 0x94000003 + d.toNat * 0x200000 + a.toNat * 0x10000 + b.toNat * 0x800
  | .vmin d a b => 0x94000004 + d.toNat * 0x200000 + a.toNat * 0x10000 + b.toNat * 0x800
  | .vmax d a b => 0x94000005 + d.toNat * 0x200000 + a.toNat * 0x10000 + b.toNat * 0x800
  | .vminu d a b => 0x94000006 + d.toNat * 0x200000 + a.toNat * 0x10000 + b.toNat * 0x800
  | .vmaxu d a b => 0x94000007 + d.toNat * 0x200000 + a.toNat * 0x10000 + b.toNat * 0x800
  | .vand d a b => 0x94000008 + d.toNat * 0x200000 + a.toNat * 0x10000 + b.toNat * 0x800
  | .vor d a b => 0x94000009 + d.toNat * 0x200000 + a.toNat * 0x10000 + b.toNat * 0x800
  | .vxor d a b => 0x9400000A + d.toNat * 0x200000 + a.toNat * 0x10000 + b.toNat * 0x800
  | .vsll d a b => 0x9400000B + d.toNat * 0x200000 + a.toNat * 0x10000 + b.toNat * 0x800
  | .vsrl d a b => 0x9400000C + d.toNat * 0x200000 + a.toNat * 0x10000 + b.toNat * 0x800
  | .vsra d a b => 0x9400000D + d.toNat * 0x200000 + a.toNat * 0x10000 + b.toNat * 0x800
  | .vabs d a => 0x9400000E + d.toNat * 0x200000 + a.toNat * 0x10000
  | .vneg d a => 0x9400000F + d.toNat * 0x200000 + a.toNat * 0x10000
  | .vadds d a b => 0x94000010 + d.toNat * 0x200000 + a.toNat * 0x10000 + b.toNat * 0x800
  | .vsubs d a b => 0x94000011 + d.toNat * 0x200000 + a.toNat * 0x10000 + b.toNat * 0x800
  | .vsel d a b => 0x94000012 + d.toNat * 0x200000 + a.toNat * 0x10000 + b.toNat * 0x800
  | .vmov d a => 0x94000013 + d.toNat * 0x200000 + a.toNat * 0x10000
  | .vfadd d a b => 0x98000000 + d.toNat * 0x200000 + a.toNat * 0x10000 + b.toNat * 0x800
  | .vfsub d a b => 0x98000001 + d.toNat * 0x200000 + a.toNat * 0x10000 + b.toNat * 0x800
  | .vfmul d a b => 0x98000002 + d.toNat * 0x200000 + a.toNat * 0x10000 + b.toNat * 0x800
  | .vfmin d a b => 0x98000003 + d.toNat * 0x200000 + a.toNat * 0x10000 + b.toNat * 0x800
  | .vfmax d a b => 0x98000004 + d.toNat * 0x200000 + a.toNat * 0x10000 + b.toNat * 0x800
  | .vfabs d a => 0x98000005 + d.toNat * 0x200000 + a.toNat * 0x10000
  | .vfneg d a => 0x98000006 + d.toNat * 0x200000 + a.toNat * 0x10000
  | .vfma d a b => 0x98000007 + d.toNat * 0x200000 + a.toNat * 0x10000 + b.toNat * 0x800
  | .vfms d a b => 0x98000008 + d.toNat * 0x200000 + a.toNat * 0x10000 + b.toNat * 0x800
  | .vfnma d a b => 0x98000009 + d.toNat * 0x200000 + a.toNat * 0x10000 + b.toNat * 0x800
  | .vfnms d a b => 0x9800000A + d.toNat * 0x200000 + a.toNat * 0x10000 + b.toNat * 0x800
  | .vdiv d a b => 0x9C000000 + d.toNat * 0x200000 + a.toNat * 0x10000 + b.toNat * 0x800
  | .vsqrt d a => 0x9C000001 + d.toNat * 0x200000 + a.toNat * 0x10000
  | .vrcps d a => 0x9C000002 + d.toNat * 0x200000 + a.toNat * 0x10000
  | .vrsqs d a => 0x9C000003 + d.toNat * 0x200000 + a.toNat * 0x10000
  | .vceq m a b => 0xA0000000 + m.toNat * 0x200000 + a.toNat * 0x10000 + b.toNat * 0x800
  | .vcne m a b => 0xA0000001 + m.toNat * 0x200000 + a.toNat * 0x10000 + b.toNat * 0x800
  | .vclt m a b => 0xA0000002 + m.toNat * 0x200000 + a.toNat * 0x10000 + b.toNat * 0x800
  | .vcle m a b => 0xA0000003 + m.toNat * 0x200000 + a.toNat * 0x10000 + b.toNat * 0x800
  | .vcltu m a b => 0xA0000004 + m.toNat * 0x200000 + a.toNat * 0x10000 + b.toNat * 0x800
  | .vcleu m a b => 0xA0000005 + m.toNat * 0x200000 + a.toNat * 0x10000 + b.toNat * 0x800
  | .vcun m a b => 0xA0000006 + m.toNat * 0x200000 + a.toNat * 0x10000 + b.toNat * 0x800
  | .mand d a b => 0xA4000000 + d.toNat * 0x200000 + a.toNat * 0x10000 + b.toNat * 0x800
  | .mor d a b => 0xA4000001 + d.toNat * 0x200000 + a.toNat * 0x10000 + b.toNat * 0x800
  | .mxor d a b => 0xA4000002 + d.toNat * 0x200000 + a.toNat * 0x10000 + b.toNat * 0x800
  | .mandn d a b => 0xA4000003 + d.toNat * 0x200000 + a.toNat * 0x10000 + b.toNat * 0x800
  | .mnot d a => 0xA4000004 + d.toNat * 0x200000 + a.toNat * 0x10000
  | .mmov d a => 0xA4000005 + d.toNat * 0x200000 + a.toNat * 0x10000
  | .mfirst d a => 0xA4000006 + d.toNat * 0x200000 + a.toNat * 0x10000
  | .vcvt d a t => 0xA8000000 + d.toNat * 0x200000 + a.toNat * 0x10000 + t.toNat
  | .vcvts d a t => 0xA8000020 + d.toNat * 0x200000 + a.toNat * 0x10000 + t.toNat
  | .vredo d a b => 0xAC000000 + d.toNat * 0x200000 + a.toNat * 0x10000 + b.toNat * 0x800
  | .vredt d a b => 0xAC000001 + d.toNat * 0x200000 + a.toNat * 0x10000 + b.toNat * 0x800
  | .vredmin d a b => 0xAC000002 + d.toNat * 0x200000 + a.toNat * 0x10000 + b.toNat * 0x800
  | .vredmax d a b => 0xAC000003 + d.toNat * 0x200000 + a.toNat * 0x10000 + b.toNat * 0x800
  | .vscan d a b => 0xAC000004 + d.toNat * 0x200000 + a.toNat * 0x10000 + b.toNat * 0x800
  | .vscanx d a b => 0xAC000005 + d.toNat * 0x200000 + a.toNat * 0x10000 + b.toNat * 0x800
  | .vperm d a b => 0xB0000000 + d.toNat * 0x200000 + a.toNat * 0x10000 + b.toNat * 0x800
  | .vcomp d a => 0xB0000001 + d.toNat * 0x200000 + a.toNat * 0x10000
  | .vexpd d a => 0xB0000002 + d.toNat * 0x200000 + a.toNat * 0x10000
  | .vslup d a sb => 0xB4000000 + d.toNat * 0x200000 + a.toNat * 0x10000 + sb.toNat * 0x400
  | .vsldn d a sb => 0xB4000001 + d.toNat * 0x200000 + a.toNat * 0x10000 + sb.toNat * 0x400
  | .vxchg d a sb => 0xB4000002 + d.toNat * 0x200000 + a.toNat * 0x10000 + sb.toNat * 0x400
  | .vbcast d sb => 0xB4000010 + d.toNat * 0x200000 + sb.toNat * 0x400
  | .viota d sb => 0xB4000011 + d.toNat * 0x200000 + sb.toNat * 0x400
  | .vrng d sb => 0xB4000012 + d.toNat * 0x200000 + sb.toNat * 0x400
  | .vfetch sb => 0xB8000000 + sb.toNat * 0x400
  | .vnext m sb => 0xB8000002 + m.toNat * 0x200000 + sb.toNat * 0x400
  | .vld d a b h => 0xBC000000 + d.toNat * 0x200000 + a.toNat * 0x8000 + b.toNat * 0x200 + h.toNat * 0x40
  | .vlds d a b h => 0xBC000001 + d.toNat * 0x200000 + a.toNat * 0x8000 + b.toNat * 0x200 + h.toNat * 0x40
  | .vst d a b h => 0xBC000002 + d.toNat * 0x200000 + a.toNat * 0x8000 + b.toNat * 0x200 + h.toNat * 0x40
  | .vsts d a b h => 0xBC000003 + d.toNat * 0x200000 + a.toNat * 0x8000 + b.toNat * 0x200 + h.toNat * 0x40
  | .vldc d a b h => 0xC0000000 + d.toNat * 0x200000 + a.toNat * 0x8000 + b.toNat * 0x200 + h.toNat * 0x40
  | .vstc d a b h => 0xC0000001 + d.toNat * 0x200000 + a.toNat * 0x8000 + b.toNat * 0x200 + h.toNat * 0x40
  | .vgath d a sb => 0xC4000000 + d.toNat * 0x200000 + a.toNat * 0x10000 + sb.toNat * 0x400
  | .vscat d a sb => 0xC4000001 + d.toNat * 0x200000 + a.toNat * 0x10000 + sb.toNat * 0x400
  | .vscadd d a sb => 0xC4000002 + d.toNat * 0x200000 + a.toNat * 0x10000 + sb.toNat * 0x400
  | .vldb d a b h => 0xC8000000 + d.toNat * 0x200000 + a.toNat * 0x8000 + b.toNat * 0x200 + h.toNat * 0x40
  | .vstb d a b h => 0xC8000001 + d.toNat * 0x200000 + a.toNat * 0x8000 + b.toNat * 0x200 + h.toNat * 0x40
  | .vldz d a b h => 0xC8000002 + d.toNat * 0x200000 + a.toNat * 0x8000 + b.toNat * 0x200 + h.toNat * 0x40
  | .amoaddW d a b c r sc => 0xCC000000 + d.toNat * 0x100000 + a.toNat * 0x4000 + b.toNat * 0x100 + c.toNat * 0x10 + r.toNat * 0x8 + sc.toNat
  | .amoswapW d a b c r sc => 0xCC000020 + d.toNat * 0x100000 + a.toNat * 0x4000 + b.toNat * 0x100 + c.toNat * 0x10 + r.toNat * 0x8 + sc.toNat
  | .amoandW d a b c r sc => 0xCC000040 + d.toNat * 0x100000 + a.toNat * 0x4000 + b.toNat * 0x100 + c.toNat * 0x10 + r.toNat * 0x8 + sc.toNat
  | .amoorW d a b c r sc => 0xCC000060 + d.toNat * 0x100000 + a.toNat * 0x4000 + b.toNat * 0x100 + c.toNat * 0x10 + r.toNat * 0x8 + sc.toNat
  | .amoxorW d a b c r sc => 0xCC000080 + d.toNat * 0x100000 + a.toNat * 0x4000 + b.toNat * 0x100 + c.toNat * 0x10 + r.toNat * 0x8 + sc.toNat
  | .amominW d a b c r sc => 0xCC0000A0 + d.toNat * 0x100000 + a.toNat * 0x4000 + b.toNat * 0x100 + c.toNat * 0x10 + r.toNat * 0x8 + sc.toNat
  | .amomaxW d a b c r sc => 0xCC0000C0 + d.toNat * 0x100000 + a.toNat * 0x4000 + b.toNat * 0x100 + c.toNat * 0x10 + r.toNat * 0x8 + sc.toNat
  | .amocasW d a b c r sc => 0xCC0000E0 + d.toNat * 0x100000 + a.toNat * 0x4000 + b.toNat * 0x100 + c.toNat * 0x10 + r.toNat * 0x8 + sc.toNat
  | .amoaddD d a b c r sc => 0xD0000000 + d.toNat * 0x100000 + a.toNat * 0x4000 + b.toNat * 0x100 + c.toNat * 0x10 + r.toNat * 0x8 + sc.toNat
  | .amoswapD d a b c r sc => 0xD0000020 + d.toNat * 0x100000 + a.toNat * 0x4000 + b.toNat * 0x100 + c.toNat * 0x10 + r.toNat * 0x8 + sc.toNat
  | .amoandD d a b c r sc => 0xD0000040 + d.toNat * 0x100000 + a.toNat * 0x4000 + b.toNat * 0x100 + c.toNat * 0x10 + r.toNat * 0x8 + sc.toNat
  | .amoorD d a b c r sc => 0xD0000060 + d.toNat * 0x100000 + a.toNat * 0x4000 + b.toNat * 0x100 + c.toNat * 0x10 + r.toNat * 0x8 + sc.toNat
  | .amoxorD d a b c r sc => 0xD0000080 + d.toNat * 0x100000 + a.toNat * 0x4000 + b.toNat * 0x100 + c.toNat * 0x10 + r.toNat * 0x8 + sc.toNat
  | .amominD d a b c r sc => 0xD00000A0 + d.toNat * 0x100000 + a.toNat * 0x4000 + b.toNat * 0x100 + c.toNat * 0x10 + r.toNat * 0x8 + sc.toNat
  | .amomaxD d a b c r sc => 0xD00000C0 + d.toNat * 0x100000 + a.toNat * 0x4000 + b.toNat * 0x100 + c.toNat * 0x10 + r.toNat * 0x8 + sc.toNat
  | .amocasD d a b c r sc => 0xD00000E0 + d.toNat * 0x100000 + a.toNat * 0x4000 + b.toNat * 0x100 + c.toNat * 0x10 + r.toNat * 0x8 + sc.toNat
  | .ldaW d a sc => 0xD4000000 + d.toNat * 0x100000 + a.toNat * 0x4000 + sc.toNat
  | .ldaD d a sc => 0xD4000008 + d.toNat * 0x100000 + a.toNat * 0x4000 + sc.toNat
  | .stlW d a sc => 0xD4000010 + d.toNat * 0x100000 + a.toNat * 0x4000 + sc.toNat
  | .stlD d a sc => 0xD4000018 + d.toNat * 0x100000 + a.toNat * 0x4000 + sc.toNat
  | .fence sc => 0xD4000020 + sc.toNat
  | .wbr a b sc => 0xD4000028 + a.toNat * 0x4000 + b.toNat * 0x100 + sc.toNat
  | .invr a b sc => 0xD4000030 + a.toNat * 0x4000 + b.toNat * 0x100 + sc.toNat
  | .lclk d => 0xD4000038 + d.toNat * 0x100000
  | .own a b => 0xD4000048 + a.toNat * 0x4000 + b.toNat * 0x100
  | .mldb sb => 0xD8000000 + sb.toNat * 0x400
  | .mmao d a sb => 0xD8000001 + d.toNat * 0x200000 + a.toNat * 0x10000 + sb.toNat * 0x400
  | .mmaf d a sb => 0xD8000002 + d.toNat * 0x200000 + a.toNat * 0x10000 + sb.toNat * 0x400
  | .mmas d a sb => 0xD8000003 + d.toNat * 0x200000 + a.toNat * 0x10000 + sb.toNat * 0x400
  | .sldc sb => 0xDC000001 + sb.toNat * 0x400
  | .seval d a => 0xDC000002 + d.toNat * 0x200000 + a.toNat * 0x10000
  | .sevald d a => 0xDC000003 + d.toNat * 0x200000 + a.toNat * 0x10000
  | .sgrad d a sb => 0xDC000004 + d.toNat * 0x200000 + a.toNat * 0x10000 + sb.toNat * 0x400
  | .sref sb => 0xDC000005 + sb.toNat * 0x400
  | .xdec d sb => 0xE0000000 + d.toNat * 0x200000 + sb.toNat * 0x400
  | .xenc d x n sb => 0xE0000001 + d.toNat * 0x200000 + x.toNat * 0x80000 + n.toNat * 0x10000 + sb.toNat * 0x400
  | .flcfg d a b => 0xE4000000 + d.toNat * 0x100000 + a.toNat * 0x4000 + b.toNat * 0x100
  | .fllvl d a b => 0xE4000001 + d.toNat * 0x100000 + a.toNat * 0x4000 + b.toNat * 0x100
  | .flxf a b => 0xE4000002 + a.toNat * 0x4000 + b.toNat * 0x100
  | .flblk a b => 0xE4000003 + a.toNat * 0x4000 + b.toNat * 0x100
  | .flstart d a b => 0xE4000004 + d.toNat * 0x100000 + a.toNat * 0x4000 + b.toNat * 0x100
  | .bdef d a b => 0xE8000000 + d.toNat * 0x100000 + a.toNat * 0x4000 + b.toNat * 0x100
  | .bget d a b => 0xE8000001 + d.toNat * 0x100000 + a.toNat * 0x4000 + b.toNat * 0x100
  | .bput a b => 0xE8000002 + a.toNat * 0x4000 + b.toNat * 0x100
  | .cwait d a b => 0xE8000008 + d.toNat * 0x100000 + a.toNat * 0x4000 + b.toNat * 0x100
  | .cadd d a b => 0xE8000009 + d.toNat * 0x100000 + a.toNat * 0x4000 + b.toNat * 0x100
  | .topen a b => 0xEC000000 + a.toNat * 0x4000 + b.toNat * 0x100
  | .twalk d a b => 0xEC000001 + d.toNat * 0x100000 + a.toNat * 0x4000 + b.toNat * 0x100
  | .tappend d a b => 0xEC000002 + d.toNat * 0x100000 + a.toNat * 0x4000 + b.toNat * 0x100
  | .trefit a b => 0xEC000003 + a.toNat * 0x4000 + b.toNat * 0x100
  | .tsumr d a b => 0xEC000004 + d.toNat * 0x100000 + a.toNat * 0x4000 + b.toNat * 0x100
  | .clstart a => 0xF0000000 + a.toNat * 0x4000
  | .rfence a => 0xF0000008 + a.toNat * 0x4000
  | .grp m v t r p f g l => 0xF8000000 + m.toNat * 0x400000 + v.toNat * 0x200000 + t.toNat * 0x10000 + r.toNat * 0x2000 + p.toNat * 0x1000 + f.toNat * 0x800 + g.toNat * 0x200 + l.toNat * 0x40
  | .pfx m v r w p q x t y => 0xFC000000 + m.toNat * 0x400000 + v.toNat * 0x200000 + r.toNat * 0x40000 + w.toNat * 0x20000 + p.toNat * 0x8000 + q.toNat * 0x400 + x.toNat * 0x200 + t.toNat * 0x10 + y.toNat * 0x8
  | .yield => 0x8C000000
  | .halt => 0x8C000002
  | .npbegin => 0x8C000004
  | .npend => 0x8C000005
  | .tret => 0x8C000010
  | .tlbinvg => 0x8C000015
  | .embage => 0x8C000017
  | .vjoin => 0xB8000001
  | .vpend => 0xB8000003
  | .bar => 0xD4000040
  | .sknot => 0xDC000000
  | .waitevReread => 0
  | .ownFlipComplete => 0
  | .bgetServe => 0
  | .cwaitReread => 0
  | .asyncEventEntry => 0
  | .preemptionRequest => 0
  | .npRegionOverrun => 0
  | .windowEntryStarvation => 0
  | .doorbell => 0
  | .dependenceMet => 0
  | .priorityAging => 0
  | .serveQueue => 0
  | .gangEnd => 0
  | .damperWindowEnd => 0
  | .migrationLapse => 0
  | .gangResume => 0
  | .gangReadmission => 0
  | .ptsTick => 0
  | .htsTick => 0
  | .homeExpireSweep => 0
  | .l1LeaseDrop => 0
  | .rangeRequestRetry => 0
  | .reservationServe => 0
  | .l1Eviction => 0
  | .hostOwnershipTake => 0
  | .hostStore => 0
  | .compressedBlockRetry => 0
  | .remoteRequest => 0
  | .engineOpFire => 0
  | .flueCopy => 0
  | .faultRecordWrite => 0
  | .engineCompletionAdd => 0
  | .engineReplay => 0
  | .engineAbort => 0
  | .engineSuspend => 0
  | .walk => 0
  | .append => 0
  | .treeRefit => 0
  | .collectiveOperation => 0
  | .biasFlipToHost => 0
  | .biasFlipToDevice => 0
  | .linkCrcFail => 0
  | .linkRetrain => 0
  | .devstatWrite => 0
  | .embctlWrite => 0
  | .registerWrite => 0
  | .deviceReset => 0
  | .attestationRequest => 0
  | .attestationReport => 0
  | .d3hotRequest => 0
  | .d3hotEntry => 0
  | .inletTemperatureChange => 0
  | .coolantFlowChange => 0
  | .lowFlowTimeout => 0
  | .unassignedInstructionWord => 0
  | .instructionFetchFault => 0
  | .softError => 0
  | .keySlotLoad => 0
  | .dynamicCapacityExtentChange => 0
  | .d3coldEntry => 0

end Sys2Proof
end

