-- ==== Sys2Proof/Machine/Classes.lean ====
section
/-! DEFINITION. Word classes, quotas and the modifiers a word accepts (spec 03 R34, R36, R41, 10 R151, R153). -/

namespace Sys2Proof.Machine

open Sys2Proof

/-- The classes of R34. -/
inductive WordClass where
  | S | X | P | G | Ld | St | Ar | Sp | Sl | Mk | Mx | Tf
  deriving DecidableEq, Repr

/-- Whether a class is a counted vector class (R34). -/
def WordClass.counted : WordClass → Bool
  | .S | .X | .P | .G => false
  | _ => true

/-- The quota of a class per convoy (R34); classes that are not counted have none. -/
def WordClass.quota : WordClass → Nat
  | .Ld => 1 | .St => 1 | .Ar => 2 | .Sp => 1 | .Sl => 1 | .Mk => 2 | .Mx => 1 | .Tf => 1
  | _ => 0

/-- A class where the function value is assigned, S where it is not (R36). -/
def WordClass.assigned (c : WordClass) (ok : Bool) : WordClass := if ok then c else .S

/-- The class of a raw word, for the check of a convoy (R36, R41): an unassigned major or function value counts as S, a
word with reserved bits set keeps its class. -/
def wordClass (w : Nat) : WordClass :=
  let fn8 := w % 256
  let fn10 := w % 1024
  let fn11 := w % 2048
  let fn6 := w % 64
  match w / 2 ^ 26 % 64 with
  | 0x0C | 0x0D | 0x0E | 0x0F | 0x10 | 0x11 | 0x12 | 0x13 | 0x21 | 0x22 => .X
  | 0x23 => WordClass.assigned .X (decide (fn8 ≤ 5 ∨ (0x10 ≤ fn8 ∧ fn8 ≤ 0x18)))
  | 0x24 => WordClass.assigned .X (decide (fn8 ≤ 2 ∨ (0x10 ≤ fn8 ∧ fn8 ≤ 0x14)))
  | 0x25 => WordClass.assigned .Ar (decide (fn11 ≤ 0x13))
  | 0x26 => WordClass.assigned .Ar (decide (fn11 ≤ 0x0A))
  | 0x27 => WordClass.assigned .Sp (decide (fn11 ≤ 3))
  | 0x28 => WordClass.assigned .Ar (decide (fn11 ≤ 6))
  | 0x29 => WordClass.assigned .Mk (decide (fn11 ≤ 6))
  | 0x2A => .Ar
  | 0x2B => WordClass.assigned .Sl (decide (fn11 ≤ 5))
  | 0x2C => WordClass.assigned .Sl (decide (fn11 ≤ 2))
  | 0x2D => if fn10 ≤ 2 then .Sl else WordClass.assigned .Ar (decide (0x10 ≤ fn10 ∧ fn10 ≤ 0x12))
  | 0x2E => WordClass.assigned .X (decide (fn10 ≤ 3))
  | 0x2F => if fn6 ≤ 1 then .Ld else WordClass.assigned .St (decide (fn6 ≤ 3))
  | 0x30 => if fn6 = 0 then .Ld else WordClass.assigned .St (decide (fn6 = 1))
  | 0x31 => if fn10 = 0 then .Ld else WordClass.assigned .St (decide (fn10 ≤ 2))
  | 0x32 => if fn6 = 1 then .St else WordClass.assigned .Ld (decide (fn6 ≤ 2))
  | 0x33 | 0x34 => .X
  | 0x35 => WordClass.assigned .X (decide (fn8 / 8 ≤ 9))
  | 0x36 => WordClass.assigned .Mx (decide (fn10 ≤ 3))
  | 0x37 => WordClass.assigned .Mx (decide (fn10 ≤ 5))
  | 0x38 => WordClass.assigned .Tf (decide (fn10 ≤ 1))
  | 0x39 => WordClass.assigned .X (decide (fn8 ≤ 4))
  | 0x3A => WordClass.assigned .X (decide (fn8 ≤ 2 ∨ fn8 = 8 ∨ fn8 = 9))
  | 0x3B => WordClass.assigned .X (decide (fn8 ≤ 4))
  | 0x3C => WordClass.assigned .X (decide (fn8 = 0 ∨ fn8 = 8))
  | 0x3E => .G
  | 0x3F => .P
  | _ => .S

/-- The class of an instruction. -/
def instrClass (i : Instr) : WordClass := wordClass (encode i)

/-- The modifiers a PFX may carry for a word, by the letters of R151: M, D, P, V, T. -/
structure Accepts where
  m : Bool
  d : Bool
  p : Bool
  v : Bool
  t : Bool
  deriving DecidableEq, Repr

/-- The letters R151 lists for a raw word of a counted class; none for any other. -/
def accepts (w : Nat) : Accepts :=
  let no : Accepts := ⟨false, false, false, false, false⟩
  let mpt : Accepts := ⟨true, false, true, false, true⟩
  let mdpt : Accepts := ⟨true, true, true, false, true⟩
  let mt : Accepts := ⟨true, false, false, false, true⟩
  let fn11 := w % 2048
  let fn10 := w % 1024
  let fn6 := w % 64
  if (wordClass w).counted then
    match w / 2 ^ 26 % 64 with
    | 0x25 => if fn11 = 0x12 then mt else mpt
    | 0x26 => if fn11 ≤ 2 then mdpt else if fn11 ≤ 6 then mpt else ⟨true, true, true, true, true⟩
    | 0x27 => if fn11 ≤ 1 then mdpt else mpt
    | 0x28 => mpt
    | 0x29 => ⟨true, false, true, false, false⟩
    | 0x2A => mdpt
    | 0x2B => if fn11 = 2 ∨ fn11 = 3 then mpt else mdpt
    | 0x2C | 0x2D => mpt
    | 0x2F => if fn6 ≤ 1 then mpt else mt
    | 0x30 => if fn6 = 0 then mpt else mt
    | 0x31 => if fn10 = 0 then mpt else mt
    | 0x32 => if fn6 = 1 then mt else mpt
    | 0x36 => ⟨false, false, false, false, true⟩
    | 0x37 => if 2 ≤ fn10 ∧ fn10 ≤ 4 then ⟨true, false, false, false, false⟩ else no
    | 0x38 => mt
    | _ => no
  else no

end Sys2Proof.Machine
end

