-- ==== Sys2Proof/Config.lean ====
section
/-! DEFINITION. Free values: constants without a body, where the spec fixes an effect but not a value.  Nothing can be
proved about what they are, so a claim holds for every choice.  Each is named in a log entry. -/

namespace Sys2Proof.Config

/-- Cycles by which CYCLE moves with the n-th free draw; the spec gives no cycle counts (spec 00 R4, entry 2). -/
opaque cyclesOf : Nat → Nat

/-- Whether the n-th unsynchronised fetch returns the old word (spec 05 R70, entry 8). -/
opaque fetchOld : Nat → Bool

/-- Sort key of chunk `c` of accumulator element (m, n) under the n-th free draw: MMAF adds chunks in any order
(spec 21 R300, entry 9). -/
opaque chunkKey : Nat → Nat → Nat → Nat → Nat

/-- Whether an access that finds a cached translation other than the tables' uses the cached one; one choice for a page and a word,
or by free draw for an engine (spec 26 R377, R378, entry 16). -/
opaque useCached : List Nat → Bool

/-- Which line of a full L1 or L2 leaves for a new one, by free draw (spec 01 R6, 14 R201, 15 R225, entries 67 and 86). -/
opaque victim : Nat → Nat

/-- Which of a stack's sixteen controllers serves a frame (spec 26 R381 does not say, entry 11). -/
opaque controllerOf : Nat → Nat

/-- Byte `i` of the signatures of the n-th attestation report, of the digest of the n-th firmware image, and of the device's identity
(spec 30 R424, entry 12). -/
opaque attestByte : Nat → Nat → Byte
opaque digestByte : Nat → Nat → Byte
opaque identityByte : Nat → Byte

/-- Old or new byte for a flue copy that reads what an earlier copy of its operation writes (spec 20 R282, entry 13). -/
opaque copyOld : Nat → Bool

/-- Sixteen random bits of the n-th rounding that VSTB makes under a stochastic mode (spec 17 R261, 06 R96, entry 23). -/
opaque roundFree : Nat → Nat

/-- Scale code of the n-th block that VSTB packs under AUTO with a NaN among its active elements (spec 17 R261, entry
24). -/
opaque packScale : Nat → Nat

/-- TVAL of the fault that reports a store lost with a link, under the n-th free draw (spec 26 R384 names none, entry 27). -/
opaque lostTval : Nat → Word

/-- What the drain delivers for a flagged accumulator element none of whose used products is infinite, under the n-th free
draw (spec 21 R301, R302, entry 28). -/
opaque drainFree : Nat → BitVec 32

/-- Rounding mode under which a flue packs a copy into blocks, by free draw (spec 20 R286 names none for XF 5, entry 30). -/
opaque packRound : Nat → Nat

/-- High nibble of the last byte of an odd number of 4-bit elements that a flue expands, by free draw (spec 20 R286, entry
31). -/
opaque lastNibble : Nat → Nat

/-- A tree value that the spec does not state, by free draw: the centroid of no keys (spec 22 R315, R318, entry 35). -/
opaque treeFree : Nat → BitVec 32

/-- Cycles of a hearth in the n-th region that overran (spec 25 R369, entry 36). -/
opaque regionCycles : Nat → Word

/-- ADDR and SOURCE of an error record that names no address or hearth, and the engine of a fault record of an indexed-access unit, by
free draw (spec 26 R383, R385, 30 R426, entry 44). -/
opaque recordField : Nat → Nat

end Sys2Proof.Config
end

