-- ==== Sys2Proof/Machine/State.lean ====
section
/-! DEFINITION. The state of the device as plain data, and the machine right after reset.

`State` is the whole package.  `thr` is the control thread whose word runs next; the other threads rest in `others`.
Everything an agent other than a thread does is an event on `agenda`, so that plain data in the state says what moves
next. -/

namespace Sys2Proof.Machine

open Sys2Proof

/-- STATUS (spec 02 R18); bits 63:7 and 2 are reserved and read zero. -/
structure Status where
  vlive : Bool
  inh : Bool
  pae : Bool
  ae : Bool
  ppriv : Bool
  priv : Bool
  deriving DecidableEq, Repr, Inhabited

/-- What a thread is doing (spec 02 R22, 25 R361, 27 R389, R392). -/
inductive Phase where
  /-- No thread: the record is empty. -/
  | absent
  /-- The thread issues words. -/
  | running
  /-- The thread is held at its word `i`, which is at PC. -/
  | waiting (i : Instr)
  /-- The gang's last HALT waits for the gang's engines (R389); PC is at the HALT. -/
  | haltWait
  /-- The thread has run CSAVE (R392). -/
  | saved
  /-- The thread has ended (R22). -/
  | ended
  deriving DecidableEq, Repr, Inhabited

/-- Overrides of a PFX that its word has not consumed yet (spec 03 R33): PFX and its word, already fetched as `next`, are one
instruction. -/
structure PfxPending where
  word : BitVec 32
  mask : Option (BitVec 4)
  rnd : Option (BitVec 3)
  pol : Option Bool
  v4 : Option (BitVec 5)
  etype : Option (BitVec 5)
  next : BitVec 32
  deriving DecidableEq, Repr

/-- The grid SKNOT captures (spec 23 R329). -/
structure Grid where
  base : BitVec 32
  step : BitVec 32
  count : Nat
  clamp : Nat
  deriving DecidableEq, Repr

/-- A captured B block (spec 21 R297): operand type, depth K, SB, element patterns (64k + n), column flags. -/
structure BBlock where
  etype : BitVec 5
  sb : BitVec 8
  elems : List (BitVec 16)
  flags : List Bool
  deriving DecidableEq, Repr

/-- A thread's array state (spec 21 R294, 23 R329). -/
inductive ArrayState where
  | empty
  | grid (g : Grid)
  | coeffs (g : Grid) (p q : Nat) (c : List (BitVec 16))
  | block (b : BBlock)
  deriving DecidableEq, Repr, Inhabited

/-- The flue staging descriptor (spec 20 R281, 23 R336 to R339), with the operand words that FLSTART's checks name; `cfg`:
an FLCFG has set it. -/
structure FlueDesc where
  cfg : Bool
  cfgD : Word
  cfgA : Word
  cfgB : Word
  lvl : List (Word × Int × Int)
  xfA : Word
  xfB : Word
  blk : Option (Word × Word)
  deriving DecidableEq, Repr, Inhabited

/-- Writes to L lines that an access happens after (spec 16 R235, R236): for each agent that makes them, the number of its last.  Agents
are threads (2 tid + 2), the engines of a gang (2 gid + 1), and 0 for all others. -/
abbrev Known := List (Nat × Nat)

/-- A divergent run (spec 07 R114 to R118, 12 R185, R186).  `vps`: next address and held rounds of each VP; `sets`: the
passes of the round still to run; `cur`: the running pass's block address and VPs; `joinPc`: the VJOIN; `mode`, `convoy`, `len`: MODE,
CONVOY and LEN at VFETCH; `supplied`: what VNEXT gave in this pass; `depth`: trap entries since a trap or event left the run (R192,
R388), 0 while none has. -/
structure VRun where
  run : Bool
  pass : Bool
  round : Nat
  vps : List (Word × Nat)
  sets : List (Word × List Nat)
  cur : Word × List Nat
  joinPc : Word
  mode : Word
  convoy : Word
  len : Word
  supplied : List (Nat × Word)
  depth : Nat
  deriving DecidableEq, Repr, Inhabited

/-- Identity of a writer in soot records and acquired entries (spec 15 R229, R230): ASID, device, HEARTH bits. -/
structure WriterId where
  asid : BitVec 10
  dev : BitVec 10
  hearth : BitVec 10
  deriving DecidableEq, Repr

/-- One control thread (spec 02 R14 to R20 and the chapters that add to it).  `known`: the writes to L lines that its next access happens
after; `seen`: those behind the values its plain loads have read; `fenced`: those before its last FENCE (R235).  An acquired entry holds
the interval and whether the scope of the release it came from covers both threads (R230, R231).  `barGen`: the address of each BAR that the
thread has reached and not completed, last first, the barrier generation it waits for, and whether an event has interrupted it (R269). -/
structure Thread where
  tid : Nat
  gang : Nat
  core : Nat
  hearth : Nat
  asid : BitVec 10
  index : Nat
  stage : Nat
  coord : Nat × Nat × Nat
  phase : Phase
  halted : Bool
  pc : Word
  sregs : Vector Word 64
  cycle : Word
  retired : Word
  status : Status
  fflags : BitVec 5
  frm : BitVec 3
  mode : Word
  convoy : Word
  len : Word
  vcap : Word
  density : Word
  xresume : Word
  rngkey : Word
  srctr : Word
  cbsel : BitVec 4
  twin : Word
  lease : Word
  racectl : Word
  siv : BitVec 29
  strm : Word
  strmk : Word
  knotbase : Word
  knotstep : Word
  knotcount : Word
  knotclamp : Word
  mxscale : Word
  wtheta : Word
  wkern : Word
  npOpen : Bool
  npOvr : Bool
  fstat : Word
  tvec : Word
  epc : Word
  cause : Word
  tval : Word
  sscratch : Word
  grant : Nat
  demand : Nat
  width : Nat
  attached : BitVec 4
  vrows : Vector (BitVec 65536) 256
  mrows : Vector (BitVec 16384) 128
  cbs : Vector (BitVec 256) 16
  array : ArrayState
  staging : FlueDesc
  vrun : VRun
  pts : BitVec 16
  acqGang : List (Option (BitVec 29 × Bool))
  acqOther : List (WriterId × BitVec 29 × Bool)
  barGen : List (Word × Nat × Bool)
  pend17 : Option Word
  pend18 : Option Word
  stopAt : Option Nat
  pfx : Option PfxPending
  inSpan : Bool
  stale : List (Nat × BitVec 32)
  poisonS : List Nat
  poisonV : List (Nat × Nat × Nat)
  known : Known
  seen : Known
  fenced : Option Known
  deriving DecidableEq, Repr, Inhabited

/-- A slot held between taking and giving back (spec 20 R277); `produce` is the role; `fin`: its holder is done with it
and an earlier slot of the ring is still held (R278). -/
structure HeldSlot where
  slot : Nat
  produce : Bool
  engine : Option Nat
  fin : Bool
  deriving DecidableEq, Repr

/-- A thread that waits on one counter of one buffer (spec 23 R343); operations wait in the order of their start (20 R278). -/
structure BufWaiter where
  tid : Nat
  produce : Bool
  count : Nat
  deriving DecidableEq, Repr

/-- A buffer (spec 20 R277); a side is true for the engine side. -/
structure Buffer where
  tile0 : Nat
  tps : Nat
  slots : Nat
  pside : Bool
  cside : Bool
  filled : Nat
  free : Nat
  pidx : Nat
  cidx : Nat
  held : List HeldSlot
  waiters : List BufWaiter
  deriving DecidableEq, Repr

/-- Where a gang is in its life (spec 08 R134, 27 R392, R394). -/
inductive GangPhase where
  | resident
  | saved
  | readmit
  | ended
  deriving DecidableEq, Repr, Inhabited

/-- A gang and the state it shares (spec 07 R119, 25 R365).  `arrived`: the threads that have arrived in the barrier generation; `barSivs`,
`barKnown`: every member's SIV, and the writes to L lines known, when the last generation ended (R230, R235). -/
structure Gang where
  gid : Nat
  launch : Nat
  gindex : Nat
  coord : Nat × Nat × Nat
  stage : Nat
  asid : BitVec 10
  hearth : Nat
  threads : Nat
  lanes : Nat
  tiles : Nat
  reserve : Nat
  phase : GangPhase
  since : Nat
  tileMem : List Host.Cell
  tilePoison : List Nat
  owners : List Nat
  buffers : List (Nat × Buffer)
  barGen : Nat
  arrived : List Nat
  barSivs : List (Nat × BitVec 29)
  barKnown : Known
  treeSlots : List (Nat × Nat)
  area : Option Word
  tareas : List (Nat × Word)
  restored : Bool
  saving : Bool
  migrate : Option Nat
  fault : Option (Nat × BitVec 6)
  deriving DecidableEq, Repr, Inhabited

/-- What an engine operation does (spec 23 R340, R348 to R350, R352), or what else is parked: an access of the launch front-end (spec 08 R123: a
dependence read of queue `q`, a status write or a counter add of a launch), or the indexed-access unit's for the gather or scatter-add
at which thread `tid` waits (spec 26 R383). -/
inductive OpKind where
  | flue (seq : Nat) (desc : FlueDesc) (counter cval : Word)
  | walk (slot buf : Nat) (desc : Nat) (query : List (BitVec 32)) (theta : BitVec 32) (dot : Bool)
  | append (slot : Nat) (desc : Nat) (key : Nat) (counter : Word)
  | refit (slot : Nat) (desc : Nat) (counter : Word)
  | collective (stack : Nat) (desc : List Byte) (serial : Nat)
  | depRead (q : Nat)
  | statWrite (launch : Nat)
  | doneAdd (launch : Nat)
  | indexed (tid : Nat)
  deriving DecidableEq, Repr

/-- Where an operation stands (spec 20 R276, R284, 25 R362, R363, R366); `aborted`: an abort written while its gang is saved. -/
inductive OpStatus where
  | queued
  | running
  | parked (cause : Nat) (addr : Word) (write tile recorded : Bool)
  | suspended
  | aborted
  deriving DecidableEq, Repr

/-- An engine operation with its restart state (spec 20 R280, R284, 22 R321).  `passes`: the passes in flight with the input
and output slot of each (R283); `cbs`: the codebooks at its start; `olds`: what bytes its copies wrote held before
(R282); `parkSeq` orders its parks (R362).  A walk keeps in `stack` the nodes still to visit in order and in `ahead` the interior nodes retired meanwhile, `piece`
1 once it has read ROOT; an append keeps in `stack` (node locked, bytes) and `olds` (address, byte) the node updates still to
make and in `ahead` the interior nodes it retires, `piece` 1 once these are known (R319, R321). -/
structure EngineOp where
  id : Nat
  kind : OpKind
  status : OpStatus
  gang : Nat
  hearth : Nat
  tid : Nat
  pc : Word
  asid : BitVec 10
  user : Bool
  clock : BitVec 16
  copy : Nat
  piece : Nat
  ahead : List Nat
  passes : List (Nat × Option Nat × Option Nat)
  stack : List (Nat × Nat)
  entries : Nat
  fill : Nat
  cbs : Vector (BitVec 256) 16
  olds : List (Nat × Byte)
  parkSeq : Nat
  deriving DecidableEq, Repr

/-- What a release, or a store, leaves with the `n` bytes at name `x`: its stamp, none for a plain store (spec 15 R223); the writes to L lines
that happen before the value there, `known`; and those before a release that a plain store has written over since, `past`, which an acquiring
atomic after it still learns (spec 16 R235). -/
structure Release where
  x : Nat
  n : Nat
  stamp : Option (BitVec 16)
  known : Known
  past : Known := []
  deriving DecidableEq, Repr

/-- A line held in a hearth's L1 (spec 14 R201, R202, 15 R220, R225): a row line, or a column line of width `width`, under treatment
`treat` (0 D, 1 L, 2 S).  `retain`: it goes last (03 R29); `gone`: the 64-byte halves of a row line that the host has taken (R228);
`asid`, `va`: the translation that filled it; `born`: the hearth's thread clocks at the fill (R222); `rels`: the release marks its bytes
came with; `missed`: the writes to the line that an L copy has not taken, by agent and number (R220, R236); `owners`: the threads that
wrote its dirty bytes behind a link, by name (26 R384). -/
structure L1Line where
  hearth : Nat
  pa : Nat
  col : Bool
  width : Nat
  slot : Nat
  alloc : Nat
  treat : Nat
  retain : Bool
  data : BitVec 1024
  dirty : BitVec 128
  gone : BitVec 2
  rts : BitVec 16
  asid : BitVec 10
  va : Nat
  born : List (Nat × BitVec 16)
  rels : List Release
  missed : Known
  owners : List (Nat × Nat)
  deriving DecidableEq, Repr

/-- A line held in the L2 of stack `stack`: of its home (spec 14 R201), or, of a D page, of a stack that has accessed it (15 R214); `dirty`: it
differs from DRAM.  Its bytes are those of the home. -/
structure L2Line where
  stack : Nat
  pa : Nat
  col : Bool
  width : Nat
  dirty : Bool
  deriving DecidableEq, Repr

/-- A poisoned byte, by name, in the copies of a hearth (spec 26 R383); `due`: not written since the poison came.  A unit of which no
byte is due is clean. -/
structure BadByte where
  hearth : Nat
  slot : Nat
  x : Nat
  due : Bool
  deriving DecidableEq, Repr

/-- The 128-byte block that a WAITEV of thread `tid` watches: of a gang's scratchpad, or of named bytes; `prompted`: a write has come
since its last read (spec 05 R82, R83). -/
structure Watch where
  tid : Nat
  gang : Option Nat
  block : Nat
  prompted : Bool
  deriving DecidableEq, Repr

/-- A translation a TLB of the device may still hold (spec 26 R377, R378): the leaf entry of the page at `base`. -/
structure TlbEntry where
  asid : BitVec 10
  base : Nat
  size : Nat
  level : Nat
  w0 : Word
  w1 : Word
  deriving DecidableEq, Repr

/-- A table entry above a leaf that a walker of the device may still hold (spec 26 R377): of the table of `level`, for the addresses from
`base` on. -/
structure TableEntry where
  asid : BitVec 10
  level : Nat
  base : Nat
  w0 : Word
  w1 : Word
  deriving DecidableEq, Repr

/-- Timestamps of an L line at its home (spec 15 R219). -/
structure LineStamp where
  pa : Nat
  col : Bool
  width : Nat
  wts : BitVec 16
  rts : BitVec 16
  deriving DecidableEq, Repr

/-- A range the directory tracks (spec 15 R216). -/
structure Range where
  base : Nat
  stride : Nat
  count : Nat
  width : Nat
  deriving DecidableEq, Repr

/-- A granted range (spec 15 R217). -/
structure DirEntry where
  home : Nat
  range : Range
  hearth : Nat
  excl : Bool
  deriving DecidableEq, Repr

/-- A refused request (spec 15 R218); `thread` is the thread whose word waits for it, `value` its HEARTH, `first` orders first refusals. -/
structure RangeReq where
  home : Nat
  range : Range
  hearth : Nat
  excl : Bool
  thread : Nat
  value : Nat
  first : Nat
  refusals : Nat
  starving : Bool
  reserved : Bool
  deriving DecidableEq, Repr

/-- A launch known to the front-end until it completes (spec 08 R124, R134); `dep`: the clock its dependence read acquired (15
R223); `known`, `done`: the writes to L lines that its gangs, and its completion, happen after (16 R235, R247). -/
structure Launch where
  id : Nat
  asid : BitVec 10
  record : List Byte
  admitted : Nat
  ended : Nat
  halted : Nat
  fault : Word
  malformed : Bool
  dep : Option (BitVec 16)
  known : Known
  done : Known
  deriving DecidableEq, Repr

/-- The front-end's view of a queue (spec 08 R121, R127, R129, R133): host queue q, child queue 16,384 + ASID. -/
structure QueueState where
  q : Nat
  head : Nat
  tail : Nat
  primed : Bool
  launch : Option Nat
  eligible : Bool
  age : Nat
  children : List (List Byte × Known)
  known : Known
  deriving DecidableEq, Repr

/-- The BAR0 registers (spec 30 R420). -/
structure Bar0 where
  ready : Bool
  therm : Bool
  werr : Bool
  fwerr : Nat
  qtbase : Word
  asidbase : Word
  cgbase : Word
  frbase : Word
  frsize : Word
  frhead : Word
  frtail : Word
  erbase : Word
  ersize : Word
  erhead : Word
  ertail : Word
  erdrop : Word
  sootbase : Word
  sootlo : Word
  sootlen : Word
  dbudget : Word
  dadmit : Word
  dec : Vector Word 4
  deriving DecidableEq, Repr

/-- What an event brings from outside (its row's summary says which fields it reads). -/
structure EventArg where
  who : Nat := 0
  addr : Nat := 0
  num : Nat := 0
  value : Word := 0
  wide : BitVec 512 := 0
  flags : List Bool := []
  bytes : List Byte := []
  nums : List Nat := []
  parts : List (Nat × List Byte) := []
  temp : Int := 0
  deriving DecidableEq, Repr

/-- The device.  `releases`: the release marks at the home banks; `writes`: how many writes to L lines there have been; `image`,
`rollback`: number and rollback index of the firmware that runs (spec 30 R418, R424). -/
structure State where
  thr : Thread
  others : List Thread
  gangs : List Gang
  ops : List EngineOp
  mem : List Host.Cell
  poison : List Nat
  sectorKeys : List (Nat × BitVec 512)
  keySlots : List (Nat × BitVec 512)
  tlb : List TlbEntry
  tables : List TableEntry
  l1 : List L1Line
  l1bad : List BadByte
  l2 : List L2Line
  stamps : List LineStamp
  releases : List Release
  writes : Nat
  watches : List Watch
  hts : Vector (BitVec 16) 4
  remoteHts : List (Nat × BitVec 16)
  dir : List DirEntry
  moving : List (Nat × Range)
  requests : List RangeReq
  heat : List (Nat × BitVec 8 × Bool)
  samples : List (Nat × Nat)
  embctl : List (Nat × Word)
  czraw : Vector Word 4
  czretry : Vector Word 4
  czovf : Vector Word 4
  czPending : List (Nat × Nat)
  raceLogs : List (Nat × Word)
  bar0 : Bar0
  budget : Nat
  devnum : BitVec 10
  queues : List QueueState
  launches : List Launch
  served : List (Nat × Nat)
  emeter : Vector Word 128
  clkstep : Vector (BitVec 3) 128
  ewin : Word
  lastMeters : List Nat
  hotWindows : Vector Nat 128
  window : List (Nat × Nat)
  groups : List (Nat × Nat × Nat)
  linkFails : List (Nat × Nat)
  linksDown : List Nat
  lost : List (Nat × Nat)
  extents : List (Nat × Nat × Nat)
  attests : List Word
  reports : Nat
  image : Nat
  rollback : Nat
  dstate : Nat
  d3req : Bool
  inlet : Int
  flow : Nat
  fused : Nat
  images : List (Nat × Thread)
  gangImages : List (Nat × Gang × List EngineOp)
  agenda : List (Instr × EventArg)
  arg : EventArg
  turns : List Nat
  free : Nat
  nextId : Nat
  deriving DecidableEq, Repr

/-- Faults that stop the model itself. -/
inductive Fault where
  /-- Raised by physical reads and writes of the front-end and of device structures whose base the driver placed at an
  address spec 26 R371 calls unbacked: the access has no defined target.  Safe: the model stops. -/
  | unbackedAddress (pa : Nat)
  deriving DecidableEq, Repr

/-- Refusals: no meaning for what was asked. -/
inductive Refusal where
  /-- Raised by an arm of `exec` whose instruction has no meaning yet.  Safe: the model stops. -/
  | notModelled (mnemonic : String)
  /-- Raised by `step` when the agenda holds a term that is no event.  Safe: no hardware run has such an agenda. -/
  | notAnEvent
  deriving DecidableEq, Repr

/-- The staging descriptor's reset state (spec 23 R336): SRC = DST = 0, SSP = DSP = 0, LEN = 1. -/
def FlueDesc.reset : FlueDesc :=
  { cfg := false, cfgD := 0, cfgA := 0, cfgB := 0, lvl := List.replicate 6 (1, 0, 0), xfA := 0, xfB := 0, blk := none }

/-- No run (spec 12 R185). -/
def VRun.idle : VRun :=
  { run := false, pass := false, round := 0, vps := [], sets := [], cur := (0, []), joinPc := 0, mode := 0, convoy := 0, len := 0
    supplied := [], depth := 0 }

/-- A thread record with every register at its reset value and no launch behind it (spec 02 R17 to R20). -/
def Thread.blank : Thread :=
  { tid := 0, gang := 0, core := 0, hearth := 0, asid := 0, index := 0, stage := 0, coord := (0, 0, 0)
    phase := .absent, halted := false, pc := 0, sregs := Vector.replicate 64 0, cycle := 0, retired := 0
    status := { vlive := false, inh := false, pae := false, ae := true, ppriv := false, priv := false }
    fflags := 0, frm := 0, mode := 0x1F0000, convoy := 0, len := 0, vcap := 128, density := 4, xresume := 0
    rngkey := 0, srctr := 0, cbsel := 0, twin := 0, lease := 0x0A0A, racectl := 0, siv := 0, strm := 0, strmk := 0
    knotbase := 0, knotstep := 0x3F800000, knotcount := 1, knotclamp := 0, mxscale := 0x7F7F
    wtheta := 0x3F000000, wkern := 0, npOpen := false, npOvr := false, fstat := 0
    tvec := 0, epc := 0, cause := 0, tval := 0, sscratch := 0
    grant := 16, demand := 0, width := 0, attached := 1
    vrows := Vector.replicate 256 0, mrows := Vector.replicate 128 0, cbs := Vector.replicate 16 0
    array := .empty, staging := FlueDesc.reset, vrun := VRun.idle, pts := 0
    acqGang := List.replicate 8 none, acqOther := [], barGen := [], pend17 := none, pend18 := none, stopAt := none
    pfx := none, inSpan := false, stale := [], poisonS := [], poisonV := [], known := [], seen := [], fenced := none }

/-- BAR0 after reset (spec 30 R420), with READY set by the reset's last step (R418). -/
def Bar0.reset : Bar0 :=
  { ready := true, therm := false, werr := false, fwerr := 0, qtbase := 0, asidbase := 0, cgbase := 0
    frbase := 0, frsize := 0, frhead := 0, frtail := 0, erbase := 0, ersize := 0, erhead := 0, ertail := 0, erdrop := 0
    sootbase := 0, sootlo := 0, sootlen := 0, dbudget := 240000, dadmit := 200000
    dec := #v[250, 700, 1400, 2200] }

/-- The device right after a successful reset (spec 30 R418): no gang resident, nothing queued. -/
def State.reset : State :=
  { thr := Thread.blank, others := [], gangs := [], ops := [], mem := [], poison := [], sectorKeys := [], keySlots := []
    tlb := [], tables := [], l1 := [], l1bad := [], l2 := [], stamps := [], releases := [], writes := 0, watches := []
    hts := Vector.replicate 4 0, remoteHts := [], dir := [], moving := []
    requests := [], heat := [], samples := [], embctl := []
    czraw := Vector.replicate 4 0, czretry := Vector.replicate 4 0, czovf := Vector.replicate 4 0
    czPending := [], raceLogs := [], bar0 := Bar0.reset, budget := 240000, devnum := 0, queues := [], launches := []
    served := [], emeter := Vector.replicate 128 0, clkstep := Vector.replicate 128 0, ewin := 0, lastMeters := []
    hotWindows := Vector.replicate 128 0, window := [], groups := [], linkFails := [], linksDown := []
    lost := [], extents := [], attests := [], reports := 0, image := 0, rollback := 0, dstate := 0, d3req := false, inlet := 250
    flow := 400, fused := 0, images := [], gangImages := [], agenda := [], arg := {}, turns := [], free := 0, nextId := 1 }

end Sys2Proof.Machine
end

