-- ==== Sys2Proof/Machine/Ops.lean ====
section
/-! DEFINITION. The named operations over memory cells, registers, lanes and threads; taking a trap and returning from
one; how a word completes (spec 02, 03, 07, 27). -/

namespace Sys2Proof.Machine

open Sys2Proof

/-- The outcome of a word, an event or a step. -/
abbrev Result := Host.Outcome State Fault Refusal

/-- Why a word does not complete.  `post` is what the trapping word still leaves behind (R23: nothing but the exceptions
the spec names). -/
inductive Stop where
  /-- The word traps with code, TVAL and the FSTAT value that code 6 or 8 records (R25, R376). -/
  | trap (code : Nat) (tval : Word) (fstat : Option Word) (post : State → State)
  /-- The word waits at its place; `post` is what its wait leaves behind. -/
  | hold (post : State → State)
  /-- The word has no meaning here. -/
  | refused (r : Refusal)

/-- A trap that leaves nothing behind. -/
def Stop.of (code : Nat) (tval : Word) : Stop := .trap code tval none id

/-- A stop that leaves something more behind. -/
def Stop.leaving (x : Stop) (f : State → State) : Stop :=
  match x with
  | .trap c v w post => .trap c v w (fun s => f (post s))
  | x => x

/-- Of two checks that one word makes, the trap that ranks first by R24; of equal ones the first check's. -/
def firstTrap {α : Type} (x : Except Stop Unit) (y : Except Stop α) : Except Stop α :=
  match x, y with
  | .ok _, y => y
  | .error (.trap c v f p), .error (.trap d w g q) => if d = 8 ∧ 8 < c then .error (.trap d w g q) else .error (.trap c v f p)
  | .error e, _ => .error e

/-- FSTAT (R376). -/
def fstatWord (reason level : Nat) (write : Bool) : Word :=
  BitVec.ofNat 64 (reason + 16 * level + if write then 128 else 0)

/-- A data access fault with FSTAT (R376). -/
def Stop.data (tval : Word) (reason level : Nat) (write : Bool) : Stop :=
  .trap 8 tval (some (fstatWord reason level write)) id

/-- A data access fault of a limit or an operand: REASON 8, LEVEL 7 (R376). -/
def Stop.limit (tval : Word) : Stop := .data tval 8 7 false

/-- A list lookup by key. -/
def assoc {α : Type} (l : List (Nat × α)) (k : Nat) : Option α :=
  match l with
  | [] => none
  | (a, v) :: r => if a = k then some v else assoc r k

/-- Replace or add a key's entry. -/
def assocSet {α : Type} (l : List (Nat × α)) (k : Nat) (v : α) : List (Nat × α) :=
  match l with
  | [] => [(k, v)]
  | (a, w) :: r => if a = k then (k, v) :: r else (a, w) :: assocSet r k v

/-! ## Cells: bytes at addresses in canonical form -/

/-- The byte at `a`; an unlisted address reads 0 (entry 4). -/
def Memory.read : List Host.Cell → Nat → Byte
  | [], _ => 0
  | (k, v) :: r, a => if k < a then Memory.read r a else if k = a then v else 0

/-- Write one byte, keeping the canonical form. -/
def Memory.write : List Host.Cell → Nat → Byte → List Host.Cell
  | [], a, b => if b = 0 then [] else [(a, b)]
  | (k, v) :: r, a, b =>
    if k < a then (k, v) :: Memory.write r a b
    else if k = a then (if b = 0 then r else (a, b) :: r)
    else if b = 0 then (k, v) :: r else (a, b) :: (k, v) :: r

/-- Addresses strictly above `lo` and rising, no byte equal to what an unlisted address reads as. -/
def Memory.wfFrom : Option Nat → List Host.Cell → Bool
  | _, [] => true
  | lo, (k, v) :: r => (match lo with | none => true | some l => decide (l < k)) && decide (v ≠ 0) && Memory.wfFrom (some k) r

/-- The canonical form. -/
def Memory.wf (m : List Host.Cell) : Bool := Memory.wfFrom none m

/-- `n` bytes from `a`. -/
def Memory.readN (m : List Host.Cell) (a : Nat) : Nat → List Byte
  | 0 => []
  | n + 1 => Memory.read m a :: Memory.readN m (a + 1) n

/-- Consecutive bytes from `a`. -/
def Memory.writeN (m : List Host.Cell) (a : Nat) : List Byte → List Host.Cell
  | [] => m
  | b :: bs => Memory.writeN (Memory.write m a b) (a + 1) bs

/-- A little-endian number of `n` bytes. -/
def Memory.num (m : List Host.Cell) (a n : Nat) : Nat := leNat (Memory.readN m a n)

/-! ## Threads and registers -/

/-- Change the current thread. -/
def State.modThr (s : State) (f : Thread → Thread) : State := { s with thr := f s.thr }

/-- Read a scalar register; s0 reads zero (R14). -/
def Thread.rs (t : Thread) (r : BitVec 6) : Word := if r = 0 then 0 else t.sregs[r.toNat]

/-- Write a scalar register; a write to s0 is discarded (R14, R58).  The write replaces poisoned bits (R383). -/
def Thread.ws (t : Thread) (r : BitVec 6) (v : Word) : Thread :=
  if r = 0 then t else { t with sregs := t.sregs.set r.toNat v, poisonS := t.poisonS.filter (· ≠ r.toNat) }

/-- Read a scalar register of the current thread. -/
def State.rs (s : State) (r : BitVec 6) : Word := s.thr.rs r

/-- Write a scalar register of the current thread. -/
def State.ws (s : State) (r : BitVec 6) (v : Word) : State := { s with thr := s.thr.ws r v }

/-- Consuming a poisoned scalar register raises the data access fault, REASON 5, TVAL 0 (R383). -/
def State.consume (s : State) (rs : List (BitVec 6)) : Except Stop Unit :=
  if rs.any (fun r => s.thr.poisonS.contains r.toNat) then .error (.data 0 5 7 false) else .ok ()

/-- STATUS as a word (R18). -/
def Status.word (x : Status) : Word :=
  BitVec.ofNat 64 ((if x.priv then 1 else 0) + (if x.ppriv then 2 else 0) + (if x.ae then 8 else 0)
    + (if x.pae then 16 else 0) + (if x.inh then 32 else 0) + if x.vlive then 64 else 0)

/-- A thread that has not ended (R22, R389). -/
def Thread.live (t : Thread) : Bool :=
  match t.phase with
  | .running | .waiting _ | .haltWait => true
  | _ => false

/-- HEARTH of a thread (R131). -/
def Thread.hearthReg (t : Thread) : Nat := t.core + 8 * t.hearth

/-- Every thread record, the current one first. -/
def State.threads (s : State) : List Thread := s.thr :: s.others

/-- The threads of a gang. -/
def State.gangThreads (s : State) (g : Nat) : List Thread :=
  s.threads.filter (fun t => decide (t.gang = g) && decide (t.phase ≠ .absent))

/-- Change every thread that `p` picks. -/
def State.mapThreads (s : State) (p : Thread → Bool) (f : Thread → Thread) : State :=
  { s with thr := if p s.thr then f s.thr else s.thr, others := s.others.map (fun t => if p t then f t else t) }

/-- Make the thread `tid` the current one; the old one rests behind the others. -/
def State.activate (s : State) (tid : Nat) : State :=
  match s.others.find? (fun t => decide (t.tid = tid)) with
  | none => s
  | some t =>
    { s with thr := t, others := s.others.filter (fun u => decide (u.tid ≠ tid)) ++ [s.thr] }

/-- The record of a gang. -/
def State.gangOf (s : State) (g : Nat) : Option Gang := s.gangs.find? (fun x => decide (x.gid = g))

/-- Change one gang. -/
def State.modGang (s : State) (g : Nat) (f : Gang → Gang) : State :=
  { s with gangs := s.gangs.map (fun x => if x.gid = g then f x else x) }

/-- The current thread's gang. -/
def State.myGang (s : State) : Option Gang := s.gangOf s.thr.gang

/-- Tiles of the current thread's gang. -/
def State.myTiles (s : State) : Nat := match s.myGang with | some g => g.tiles | none => 0

/-- The stack of a hearth numbered 0 to 127 (R131). -/
def stackOf (hearth : Nat) : Nat := hearth / 32

/-- A free draw: its number, and the state after it. -/
def State.draw (s : State) : Nat × State := (s.free, { s with free := s.free + 1 })

/-! ## Traps (R25, R26, R388) -/

/-- The address a trap saves: the PFX's where the word is prefixed (R33). -/
def Thread.trapPc (t : Thread) : Word := match t.pfx with | some _ => t.pc - 4 | none => t.pc

/-- The gang remembers the unvectored trap of its lowest-indexed thread (R134). -/
def Gang.recordFault (g : Gang) (index code : Nat) : Gang :=
  match g.fault with
  | some (k, _) => if index < k then { g with fault := some (index, BitVec.ofNat 6 code) } else g
  | none => { g with fault := some (index, BitVec.ofNat 6 code) }

/-- A trap or event leaves a divergent run; the return that matches it resumes the pass (R118, R192, R388). -/
def VRun.leave (r : VRun) : VRun :=
  if r.run && (r.pass || decide (r.depth ≠ 0)) then { r with pass := false, depth := r.depth + 1 } else r

/-- A trap return while the run waits (R388). -/
def VRun.resume (r : VRun) : VRun :=
  if r.depth = 0 then r else { r with pass := decide (r.depth = 1), depth := r.depth - 1 }

/-- A thread ends by a trap that cannot be vectored, with CAUSE, TVAL and EPC recorded (R22, R26). -/
def State.endByTrap (s : State) (code : Nat) (tval epc : Word) : State :=
  ({ s with thr := { s.thr with cause := BitVec.ofNat 64 code, tval := tval, epc := epc, pfx := none, phase := .ended } }).modGang
    s.thr.gang (fun g => g.recordFault s.thr.index code)

/-- Trap entry (R25), or the end of the thread where the trap cannot be vectored (R26).  FSTAT is written by codes 6 and
8 (R376). -/
def State.takeTrap (s : State) (code : Nat) (tval : Word) (fstat : Option Word) : State :=
  let epc := s.thr.trapPc
  let s := { s with thr := { s.thr with fstat := fstat.getD s.thr.fstat } }
  if s.thr.status.inh then s.endByTrap 11 (BitVec.ofNat 64 code) epc
  else if s.thr.tvec = 0 then s.endByTrap code tval epc
  else
    let st := s.thr.status
    { s with thr := { s.thr with
        epc := epc, cause := BitVec.ofNat 64 code, tval := tval
        status := { st with ppriv := st.priv, pae := st.ae, priv := true, ae := false, inh := true }
        pc := s.thr.tvec + BitVec.ofNat 64 (code * 64)
        pfx := none, inSpan := false, phase := .running, vrun := s.thr.vrun.leave, stopAt := none } }

/-- A BAR to which a trap returns waits again (R269). -/
def resumeBar (pc : Word) : List (Word × Nat × Bool) → List (Word × Nat × Bool)
  | [] => []
  | e :: r => if e.1 = pc ∧ e.2.2 then (e.1, e.2.1, false) :: r else e :: resumeBar pc r

/-- Trap return (R388). -/
def State.trapReturn (s : State) : State :=
  let st := s.thr.status
  { s with thr := { s.thr with
      pc := s.thr.epc, status := { st with priv := st.ppriv, ae := st.pae, inh := false }
      inSpan := s.thr.convoy.getLsbD 0, stale := [], vrun := s.thr.vrun.resume, barGen := resumeBar s.thr.epc s.thr.barGen } }

/-! ## Completing a word -/

/-- A word completes: RETIRED counts it, and its PFX (R78); CYCLE moves by a free amount (entry 2). -/
def State.retire (s : State) : State :=
  let t := s.thr
  { s with
    thr := { t with retired := t.retired + (if t.pfx.isSome then 2 else 1), pfx := none
                    cycle := t.cycle + BitVec.ofNat 64 (Config.cyclesOf s.free), phase := .running, stopAt := none }
    free := s.free + 1 }

/-- PC moves to the next word (R27). -/
def State.pcNext (s : State) : State := { s with thr := { s.thr with pc := s.thr.pc + 4 } }

/-- PC moves to a target; fetch then sees earlier stores (R70). -/
def State.pcTo (s : State) (a : Word) : State := { s with thr := { s.thr with pc := a, stale := [] } }

/-- The current thread waits at word `i`. -/
def State.waitAt (s : State) (i : Instr) : State := { s with thr := { s.thr with phase := .waiting i, stopAt := none } }

/-- End of a word `i` begun in `s`: completion, a precise trap from `s` (R23), or a wait. -/
def finishWith (i : Instr) (s : State) (r : Except Stop State) : Result :=
  match r with
  | .ok t => .next t.retire
  | .error (.trap c v f post) => .next ((post s).takeTrap c v f)
  | .error (.hold post) => .next ((post s).waitAt i)
  | .error (.refused x) => .refused x

/-- End of a word that does not transfer control. -/
def finish (i : Instr) (s : State) (r : Except Stop State) : Result := finishWith i s (r.map State.pcNext)

/-- The word's own bits as a TVAL. -/
def wordOf (i : Instr) : Word := BitVec.ofNat 64 (encode i)

/-- Illegal-instruction trap with TVAL the word (R24). -/
def Stop.illegal (i : Instr) : Stop := .of 1 (wordOf i)

/-- A privileged word at user level raises the privilege trap (R42). -/
def State.needPriv (s : State) (i : Instr) : Except Stop Unit :=
  if s.thr.status.priv then .ok () else .error (.of 3 (wordOf i))

/-- Whether the current word stands in a vector-fetched block (R187). -/
def State.inBlock (s : State) : Bool := s.thr.vrun.pass

/-- The guard every class X word but VNEXT and VPEND makes: illegal inside a vector-fetched block (R187), illegal-convoy
inside an open convoy that a trap return entered (R40). -/
def State.serial (s : State) (i : Instr) : Except Stop Unit :=
  if s.inBlock then .error (.illegal i)
  else if s.thr.inSpan && s.thr.convoy.getLsbD 0 then .error (.of 4 (s.thr.convoy >>> 32))
  else .ok ()

/-- An operand `v` that is no multiple of `n` raises the data-misaligned trap (R24, R322). -/
def alignCheck (v : Word) (n : Nat) : Except Stop Unit := if v.toNat % n = 0 then .ok () else .error (.of 7 v)

/-! ## Convoy bookkeeping (R37 to R40) -/

/-- GWORD of CONVOY. -/
def convoyWord (c : Word) : Nat := c.toNat / 2 ^ 32

/-- OPEN of CONVOY. -/
def convoyOpen (c : Word) : Bool := c.getLsbD 0

/-- Low bit and width of a class's unit count in CONVOY (R37). -/
def WordClass.countAt : WordClass → Nat × Nat
  | .Ar => (18, 2) | .Mk => (16, 2) | .Ld => (15, 1) | .St => (14, 1) | .Sp => (13, 1) | .Sl => (12, 1)
  | .Mx => (11, 1) | .Tf => (10, 1)
  | _ => (0, 0)

/-- Units of a class already completed. -/
def convoyCount (c : Word) (k : WordClass) : Nat := c.toNat / 2 ^ k.countAt.1 % 2 ^ k.countAt.2

/-- A counted word of class `k` completes: DONE and its unit count rise, OPEN falls at LEN + 1 (R38).  Outside a checked span a unit count
that is full stays full: the spec does not say what a counted word does there (entry 76). -/
def convoyStep (c : Word) (k : WordClass) : Word :=
  let room := c.toNat / 2 ^ k.countAt.1 % 2 ^ k.countAt.2 < 2 ^ k.countAt.2 - 1
  let n := c.toNat + 2 ^ 20 + if room then 2 ^ k.countAt.1 else 0
  let done := n / 2 ^ 20 % 16
  let len := n / 2 ^ 32 / 2 ^ 6 % 8 + 1
  BitVec.ofNat 64 (if done = len then n - n % 2 else n)

/-- The convoy check at a counted word or PFX (R39, R40).  A counted word that a handler runs while OPEN is 1 stands in no checked span and
runs unchecked (entry 76). -/
def State.inConvoy (s : State) (k : WordClass) : Except Stop Unit :=
  let c := s.thr.convoy
  if ¬ convoyOpen c then .error (.of 4 0)
  else if s.thr.inSpan ∧ k.quota ≤ convoyCount c k then .error (.of 4 (BitVec.ofNat 64 (convoyWord c)))
  else .ok ()

/-- End of a counted word: CONVOY counts it (R38). -/
def finishCounted (i : Instr) (s : State) (r : Except Stop State) : Result :=
  finish i s (r.map (fun t => { t with thr := { t.thr with convoy := convoyStep t.thr.convoy (instrClass i) } }))

/-! ## Lanes (R100 to R104, R400 to R404) -/

/-- The columns CL of LEN. -/
def Thread.cl (t : Thread) : Nat := t.len.toNat % 2 ^ 32

/-- The rows RL of LEN. -/
def Thread.rl (t : Thread) : Nat := t.len.toNat / 2 ^ 32

/-- Set CL and RL. -/
def Thread.setLen (t : Thread) (cl rl : Nat) : Thread := { t with len := BitVec.ofNat 64 (cl + 2 ^ 32 * rl) }

/-- Ones among the low `n` bits. -/
def popCount (v : Nat) : Nat → Nat
  | 0 => 0
  | n + 1 => v % 2 + popCount (v / 2) n

/-- Number of segments (R400). -/
def Thread.nseg (t : Thread) : Nat := popCount t.attached.toNat 4

/-- Bits of one register row (R402): NSEG x G x 128. -/
def Thread.rowBits (t : Thread) : Nat := t.nseg * t.grant * 128

/-- The capacity C(w) (R104, R402). -/
def Thread.cap (t : Thread) (w : Nat) : Nat := t.rowBits / w

/-- Bits of a LANES.WIDTH code (R103). -/
def widthBits (code : Nat) : Nat := 4 * 2 ^ code

/-- LANES (R103). -/
def Thread.lanes (t : Thread) : Word := BitVec.ofNat 64 (t.grant + 256 * t.demand + 65536 * t.width)

/-- SPAN (R400). -/
def Thread.span (t : Thread) : Word := BitVec.ofNat 64 (t.grant + 256 * t.attached.toNat + 4096 * t.nseg)

/-- VPs whose columns are lost are stopped (R368), and the CL that VJOIN restores falls with them.  A selected group all of whose VPs are
stopped so still runs its pass: the spec does not say (entry 74). -/
def VRun.cut (r : VRun) (cl : Nat) : VRun :=
  { r with
    vps := r.vps.zipIdx.map (fun (p : (Word × Nat) × Nat) => if p.2 < cl then p.1 else (0, 0))
    sets := r.sets.map (fun (p : Word × List Nat) => (p.1, p.2.filter (fun j => decide (j < cl))))
    cur := (r.cur.1, r.cur.2.filter (fun j => decide (j < cl)))
    len := BitVec.ofNat 64 (Nat.min (r.len.toNat % 2 ^ 32) cl + 2 ^ 32 * Nat.min (r.len.toNat / 2 ^ 32) 8) }

/-- Take a grant and attached set: columns at or beyond the new capacity are lost, with the poison of their groups, and CL falls to it (R102,
R403). -/
def Thread.regrant (t : Thread) (g : Nat) (att : BitVec 4) : Thread :=
  let old := t.rowBits
  let t := { t with grant := g, attached := att }
  if old ≤ t.rowBits then t
  else
    let c := t.cap (widthBits t.width)
    let t := t.setLen (Nat.min t.cl c) t.rl
    { t with
      vrun := t.vrun.cut c
      vrows := t.vrows.map (fun r => BitVec.ofNat 65536 (r.toNat % 2 ^ t.rowBits))
      mrows := t.mrows.map (fun r => BitVec.ofNat 16384 (r.toNat % 2 ^ c))
      poisonV := t.poisonV.filter (fun p => decide (128 * p.2.2 < (if p.1 < 32 then t.rowBits else c)) || decide (p.1 = 32)) }

/-- Lanes a thread holds on hearth `h`, its own or a partner, while its gang is resident (R400). -/
def Thread.lanesOn (t : Thread) (h : Nat) : Nat :=
  if t.phase = .absent then 0
  else if t.hearth % 32 = h % 32 ∧ t.attached.getLsbD (h / 32) then t.grant else 0

/-- Whether a thread's gang is resident. -/
def State.isResident (s : State) (t : Thread) : Bool :=
  match s.gangOf t.gang with | some g => decide (g.phase = .resident) | none => false

/-- A thread that has not ended and stands on its hearth: a thread that has run CSAVE stays until its gang leaves (R22, R392). -/
def State.unended (s : State) (t : Thread) : Bool := t.live || (decide (t.phase = .saved) && s.isResident t)

/-- Whether a thread counts as live on hearth `h`, by itself or by a segment (R102, R400). -/
def State.liveOn (s : State) (t : Thread) (h : Nat) : Bool :=
  s.unended t && decide (t.hearth % 32 = h % 32) && t.attached.getLsbD (h / 32)

/-- Free lanes of hearth `h` (R100, R134, R392): an ended or saved thread's lanes stay with its gang. -/
def State.freeLanes (s : State) (h : Nat) : Nat := 128 - ((s.threads.filter s.isResident).map (fun t => t.lanesOn h)).sum

/-- Largest power of two among 16, 32, 64, 128 not above `n`; 16 below that. -/
def lanePower (n : Nat) : Nat := if 128 ≤ n then 128 else if 64 ≤ n then 64 else if 32 ≤ n then 32 else 16

/-- The fair share of hearth `h` (R102). -/
def State.fairShare (s : State) (h : Nat) : Nat :=
  lanePower (128 / Nat.max 1 ((s.threads.filter (fun t => s.liveOn t h)).length))

/-- Whether hearth `h` would lower the current thread at a renegotiation point (R102): it is above share, and some other
thread of that hearth wants more than it has. -/
def State.lowers (s : State) (h : Nat) : Bool :=
  decide (s.fairShare h < s.thr.grant) &&
    s.others.any (fun t => s.unended t && decide (t.hearth = h) && decide (t.grant < t.demand))

/-- Hearth number of the current thread's segment on stack `k` (R400). -/
def State.partner (s : State) (k : Nat) : Nat := s.thr.hearth % 32 + 32 * k

/-- A renegotiation point (R102, R403): the grant falls to the least share, or the remote segments that would be lowered detach, whichever
leaves the larger capacity.  Where the own hearth alone lowers there is nothing to detach (entry 20). -/
def State.renegotiate (s : State) : State :=
  let t := s.thr
  let low := (List.range 4).filter (fun k => t.attached.getLsbD k && s.lowers (s.partner k))
  if low = [] then s
  else
    let g := (low.map (fun k => s.fairShare (s.partner k))).foldl Nat.min t.grant
    let g := Nat.min g t.vcap.toNat
    let far := low.filter (fun k => decide (k ≠ stackOf t.hearth))
    if far = [] ∨ (t.nseg - far.length) * t.grant < t.nseg * g then { s with thr := t.regrant g t.attached }
    else { s with thr := t.regrant t.grant (far.foldl (fun (a : BitVec 4) k => a &&& ~~~ (1#4 <<< k)) t.attached) }

/-- Whether code 17 can be taken now but for NSEG (R357, R369, R407). -/
def State.ready17 (s : State) : Bool :=
  s.thr.pend17.isSome && s.thr.status.ae && !((s.gangThreads s.thr.gang).any (fun t => t.npOpen && s.unended t)) && s.thr.pend18.isNone

/-- Code 17 is taken at the current word (R356). -/
def State.take17 (s : State) : State :=
  ({ s with thr := { s.thr with pend17 := none } }).takeTrap 17 (s.thr.pend17.getD 1) none

/-- Every remote segment detaches (R407). -/
def State.detach (s : State) : State :=
  { s with thr := s.thr.regrant s.thr.grant (1#4 <<< stackOf s.thr.hearth) }

/-- A word that is a renegotiation point: a held code 17 of a spanning thread is taken before the word (R407), else the
grant is renegotiated and the word goes on. -/
def atRenegotiation (s : State) (k : State → Result) : Result :=
  if decide (1 < s.thr.nseg) && s.ready17 then .next s.detach.take17 else k s.renegotiate

end Sys2Proof.Machine
end

