-- ==== Sys2Proof/Machine/Flags.lean ====
section
/-! DEFINITION. The sticky flags, the rounding of scalar words and the stochastic position counter (spec 02 R17, 05 R72,
06 R95, R96, R98). -/

namespace Sys2Proof.Machine

open Sys2Proof

/-- Flags are only ever set by arithmetic (R98). -/
def Thread.addFlags (t : Thread) (fl : Flags) : Thread := { t with fflags := t.fflags ||| BitVec.ofNat 5 fl }

/-- Set flags of the current thread. -/
def State.addFlags (s : State) (fl : Flags) : State := { s with thr := s.thr.addFlags fl }

/-- Rounding of a scalar word under FRM, position 0 (R72, R96). -/
def Thread.scalarRnd (t : Thread) : Rnd := ⟨t.frm.toNat, stochBits t.srctr t.rngkey 0, false⟩

/-- A rounding word whose effective rounding is stochastic advances SRCTR by `n` when it completes (R96). -/
def Thread.advance (t : Thread) (mode n : Nat) : Thread :=
  if mode = 5 then { t with srctr := t.srctr + BitVec.ofNat 64 n } else t

end Sys2Proof.Machine
end

