-- ==== Sys2Proof/Machine/ScalarInt.lean ====
section
/-! DEFINITION. The scalar integer words (spec 05 R58 to R63). -/

namespace Sys2Proof.Machine

open Sys2Proof

/-- A scalar word that reads `rs` and writes `d` (R58). -/
def scalarOp (i : Instr) (s : State) (rs : List (BitVec 6)) (d : BitVec 6) (v : Word) : Result :=
  finish i s (do
    s.consume rs
    .ok (s.ws d v))

/-- A truth value as a register value. -/
def boolWord (b : Bool) : Word := if b then 1 else 0

/-- Zero bits above the highest one bit; 64 for 0 (R59). -/
def clzWord (a : Word) : Word := BitVec.ofNat 64 (64 - bitLen a.toNat)

/-- Zero bits below the lowest one bit; 64 for 0 (R59). -/
def ctzNat : Nat → Nat → Nat
  | 0, _ => 0
  | n + 1, v => if v % 2 = 1 then 0 else 1 + ctzNat n (v / 2)

/-- DIV (R59, R60): truncated signed quotient; by zero, the extreme with the dividend's sign. -/
def divS (a b : Word) : Word :=
  if b = 0 then (if a.toInt < 0 then 0x8000000000000000 else 0x7FFFFFFFFFFFFFFF) else BitVec.ofInt 64 (a.toInt.tdiv b.toInt)

/-- DIVU (R59, R60). -/
def divU (a b : Word) : Word := if b = 0 then 0xFFFFFFFFFFFFFFFF else BitVec.ofNat 64 (a.toNat / b.toNat)

/-- REM (R59, R60). -/
def remS (a b : Word) : Word := if b = 0 then a else BitVec.ofInt 64 (a.toInt.tmod b.toInt)

/-- REMU (R59, R60). -/
def remU (a b : Word) : Word := if b = 0 then a else BitVec.ofNat 64 (a.toNat % b.toNat)

/-- Signed and unsigned orders and extremes (R59). -/
def sltWord (a b : Word) : Word := boolWord (decide (a.toInt < b.toInt))
def sltuWord (a b : Word) : Word := boolWord (decide (a.toNat < b.toNat))
def minS (a b : Word) : Word := if a.toInt < b.toInt then a else b
def maxS (a b : Word) : Word := if a.toInt < b.toInt then b else a
def minU (a b : Word) : Word := if a.toNat < b.toNat then a else b
def maxU (a b : Word) : Word := if a.toNat < b.toNat then b else a

/-- Bits 127:64 of the signed and of the unsigned product (R59). -/
def mulhS (a b : Word) : Word := BitVec.ofInt 64 (a.toInt * b.toInt / 2 ^ 64)
def mulhU (a b : Word) : Word := BitVec.ofNat 64 (a.toNat * b.toNat / 2 ^ 64)

/-- Shifts by an amount of 0 to 63 (R59, R62). -/
def sllWord (a : Word) (n : Nat) : Word := a <<< n
def srlWord (a : Word) (n : Nat) : Word := a >>> n
def sraWord (a : Word) (n : Nat) : Word := a.sshiftRight n

/-- The shift amount b[5:0]. -/
def shamt (b : Word) : Nat := b.toNat % 64

/-- The sign-extended 14-bit immediate (R29). -/
def imm14 (i : BitVec 14) : Word := i.signExtend 64

/-- SignExtend(imm << 14, 34) (R63). -/
def imm34 (i : BitVec 20) : Word := (i.signExtend 64) <<< 14

/-- ADD (R59). -/
def execAdd (d a b : BitVec 6) (s : State) : Result := scalarOp (.add d a b) s [a, b] d ((s.rs a) + (s.rs b))

/-- SUB (R59). -/
def execSub (d a b : BitVec 6) (s : State) : Result := scalarOp (.sub d a b) s [a, b] d ((s.rs a) - (s.rs b))

/-- AND (R59). -/
def execAnd (d a b : BitVec 6) (s : State) : Result := scalarOp (.and d a b) s [a, b] d ((s.rs a) &&& (s.rs b))

/-- OR (R59). -/
def execOr (d a b : BitVec 6) (s : State) : Result := scalarOp (.or d a b) s [a, b] d ((s.rs a) ||| (s.rs b))

/-- XOR (R59). -/
def execXor (d a b : BitVec 6) (s : State) : Result := scalarOp (.xor d a b) s [a, b] d ((s.rs a) ^^^ (s.rs b))

/-- ANDN (R59). -/
def execAndn (d a b : BitVec 6) (s : State) : Result := scalarOp (.andn d a b) s [a, b] d ((s.rs a) &&& ~~~(s.rs b))

/-- SLL (R59). -/
def execSll (d a b : BitVec 6) (s : State) : Result := scalarOp (.sll d a b) s [a, b] d (sllWord (s.rs a) (shamt (s.rs b)))

/-- SRL (R59). -/
def execSrl (d a b : BitVec 6) (s : State) : Result := scalarOp (.srl d a b) s [a, b] d (srlWord (s.rs a) (shamt (s.rs b)))

/-- SRA (R59). -/
def execSra (d a b : BitVec 6) (s : State) : Result := scalarOp (.sra d a b) s [a, b] d (sraWord (s.rs a) (shamt (s.rs b)))

/-- MUL (R59). -/
def execMul (d a b : BitVec 6) (s : State) : Result := scalarOp (.mul d a b) s [a, b] d ((s.rs a) * (s.rs b))

/-- MULH (R59). -/
def execMulh (d a b : BitVec 6) (s : State) : Result := scalarOp (.mulh d a b) s [a, b] d (mulhS (s.rs a) (s.rs b))

/-- MULHU (R59). -/
def execMulhu (d a b : BitVec 6) (s : State) : Result := scalarOp (.mulhu d a b) s [a, b] d (mulhU (s.rs a) (s.rs b))

/-- DIV (R60). -/
def execDiv (d a b : BitVec 6) (s : State) : Result := scalarOp (.div d a b) s [a, b] d (divS (s.rs a) (s.rs b))

/-- DIVU (R60). -/
def execDivu (d a b : BitVec 6) (s : State) : Result := scalarOp (.divu d a b) s [a, b] d (divU (s.rs a) (s.rs b))

/-- REM (R60). -/
def execRem (d a b : BitVec 6) (s : State) : Result := scalarOp (.rem d a b) s [a, b] d (remS (s.rs a) (s.rs b))

/-- REMU (R60). -/
def execRemu (d a b : BitVec 6) (s : State) : Result := scalarOp (.remu d a b) s [a, b] d (remU (s.rs a) (s.rs b))

/-- MIN (R59). -/
def execMin (d a b : BitVec 6) (s : State) : Result := scalarOp (.min d a b) s [a, b] d (minS (s.rs a) (s.rs b))

/-- MAX (R59). -/
def execMax (d a b : BitVec 6) (s : State) : Result := scalarOp (.max d a b) s [a, b] d (maxS (s.rs a) (s.rs b))

/-- MINU (R59). -/
def execMinu (d a b : BitVec 6) (s : State) : Result := scalarOp (.minu d a b) s [a, b] d (minU (s.rs a) (s.rs b))

/-- MAXU (R59). -/
def execMaxu (d a b : BitVec 6) (s : State) : Result := scalarOp (.maxu d a b) s [a, b] d (maxU (s.rs a) (s.rs b))

/-- SEQ (R59). -/
def execSeq (d a b : BitVec 6) (s : State) : Result := scalarOp (.seq d a b) s [a, b] d (boolWord (decide ((s.rs a) = (s.rs b))))

/-- SLT (R59). -/
def execSlt (d a b : BitVec 6) (s : State) : Result := scalarOp (.slt d a b) s [a, b] d (sltWord (s.rs a) (s.rs b))

/-- SLTU (R59). -/
def execSltu (d a b : BitVec 6) (s : State) : Result := scalarOp (.sltu d a b) s [a, b] d (sltuWord (s.rs a) (s.rs b))

/-- CLZ (R59). -/
def execClz (d a : BitVec 6) (s : State) : Result := scalarOp (.clz d a) s [a] d (clzWord (s.rs a))

/-- CTZ (R59). -/
def execCtz (d a : BitVec 6) (s : State) : Result := scalarOp (.ctz d a) s [a] d (BitVec.ofNat 64 (ctzNat 64 (s.rs a).toNat))

/-- POPC (R59). -/
def execPopc (d a : BitVec 6) (s : State) : Result := scalarOp (.popc d a) s [a] d (BitVec.ofNat 64 (popCount (s.rs a).toNat 64))

/-- ADDI (R61). -/
def execAddi (d a : BitVec 6) (i : BitVec 14) (s : State) : Result := scalarOp (.addi d a i) s [a] d ((s.rs a) + imm14 i)

/-- ANDI (R61). -/
def execAndi (d a : BitVec 6) (i : BitVec 14) (s : State) : Result := scalarOp (.andi d a i) s [a] d ((s.rs a) &&& imm14 i)

/-- ORI (R61). -/
def execOri (d a : BitVec 6) (i : BitVec 14) (s : State) : Result := scalarOp (.ori d a i) s [a] d ((s.rs a) ||| imm14 i)

/-- XORI (R61). -/
def execXori (d a : BitVec 6) (i : BitVec 14) (s : State) : Result := scalarOp (.xori d a i) s [a] d ((s.rs a) ^^^ imm14 i)

/-- SLTI (R61). -/
def execSlti (d a : BitVec 6) (i : BitVec 14) (s : State) : Result := scalarOp (.slti d a i) s [a] d (sltWord (s.rs a) (imm14 i))

/-- SLTIU (R61). -/
def execSltiu (d a : BitVec 6) (i : BitVec 14) (s : State) : Result := scalarOp (.sltiu d a i) s [a] d (sltuWord (s.rs a) (imm14 i))

/-- SLLI (R62). -/
def execSlli (d a n : BitVec 6) (s : State) : Result := scalarOp (.slli d a n) s [a] d (sllWord (s.rs a) n.toNat)

/-- SRLI (R62). -/
def execSrli (d a n : BitVec 6) (s : State) : Result := scalarOp (.srli d a n) s [a] d (srlWord (s.rs a) n.toNat)

/-- SRAI (R62). -/
def execSrai (d a n : BitVec 6) (s : State) : Result := scalarOp (.srai d a n) s [a] d (sraWord (s.rs a) n.toNat)

/-- IMMH (R63). -/
def execImmh (d : BitVec 6) (i : BitVec 20) (s : State) : Result := scalarOp (.immh d i) s [] d (imm34 i)

/-- PCREL (R63). -/
def execPcrel (d : BitVec 6) (i : BitVec 20) (s : State) : Result := scalarOp (.pcrel d i) s [] d (s.thr.pc + imm34 i)

end Sys2Proof.Machine
end

