-- ==== Sys2Proof/Machine/Cipher.lean ====
section
/-! DEFINITION. AES-256-XTS over one 64-byte sector (spec 26 R380).  The spec names the cipher, its data unit and its tweak; the algorithm is
that of FIPS 197 and IEEE 1619, and so are the orders of bytes (PRESUMED, entry 10). -/

namespace Sys2Proof.Machine

open Sys2Proof

/-! ## AES-256 -/

/-- The substitution of AES. -/
def sbox : List Nat :=
  [0x63, 0x7C, 0x77, 0x7B, 0xF2, 0x6B, 0x6F, 0xC5, 0x30, 0x01, 0x67, 0x2B, 0xFE, 0xD7, 0xAB, 0x76,
   0xCA, 0x82, 0xC9, 0x7D, 0xFA, 0x59, 0x47, 0xF0, 0xAD, 0xD4, 0xA2, 0xAF, 0x9C, 0xA4, 0x72, 0xC0] ++
  [0xB7, 0xFD, 0x93, 0x26, 0x36, 0x3F, 0xF7, 0xCC, 0x34, 0xA5, 0xE5, 0xF1, 0x71, 0xD8, 0x31, 0x15,
   0x04, 0xC7, 0x23, 0xC3, 0x18, 0x96, 0x05, 0x9A, 0x07, 0x12, 0x80, 0xE2, 0xEB, 0x27, 0xB2, 0x75] ++
  [0x09, 0x83, 0x2C, 0x1A, 0x1B, 0x6E, 0x5A, 0xA0, 0x52, 0x3B, 0xD6, 0xB3, 0x29, 0xE3, 0x2F, 0x84,
   0x53, 0xD1, 0x00, 0xED, 0x20, 0xFC, 0xB1, 0x5B, 0x6A, 0xCB, 0xBE, 0x39, 0x4A, 0x4C, 0x58, 0xCF] ++
  [0xD0, 0xEF, 0xAA, 0xFB, 0x43, 0x4D, 0x33, 0x85, 0x45, 0xF9, 0x02, 0x7F, 0x50, 0x3C, 0x9F, 0xA8,
   0x51, 0xA3, 0x40, 0x8F, 0x92, 0x9D, 0x38, 0xF5, 0xBC, 0xB6, 0xDA, 0x21, 0x10, 0xFF, 0xF3, 0xD2] ++
  [0xCD, 0x0C, 0x13, 0xEC, 0x5F, 0x97, 0x44, 0x17, 0xC4, 0xA7, 0x7E, 0x3D, 0x64, 0x5D, 0x19, 0x73,
   0x60, 0x81, 0x4F, 0xDC, 0x22, 0x2A, 0x90, 0x88, 0x46, 0xEE, 0xB8, 0x14, 0xDE, 0x5E, 0x0B, 0xDB] ++
  [0xE0, 0x32, 0x3A, 0x0A, 0x49, 0x06, 0x24, 0x5C, 0xC2, 0xD3, 0xAC, 0x62, 0x91, 0x95, 0xE4, 0x79,
   0xE7, 0xC8, 0x37, 0x6D, 0x8D, 0xD5, 0x4E, 0xA9, 0x6C, 0x56, 0xF4, 0xEA, 0x65, 0x7A, 0xAE, 0x08] ++
  [0xBA, 0x78, 0x25, 0x2E, 0x1C, 0xA6, 0xB4, 0xC6, 0xE8, 0xDD, 0x74, 0x1F, 0x4B, 0xBD, 0x8B, 0x8A,
   0x70, 0x3E, 0xB5, 0x66, 0x48, 0x03, 0xF6, 0x0E, 0x61, 0x35, 0x57, 0xB9, 0x86, 0xC1, 0x1D, 0x9E] ++
  [0xE1, 0xF8, 0x98, 0x11, 0x69, 0xD9, 0x8E, 0x94, 0x9B, 0x1E, 0x87, 0xE9, 0xCE, 0x55, 0x28, 0xDF,
   0x8C, 0xA1, 0x89, 0x0D, 0xBF, 0xE6, 0x42, 0x68, 0x41, 0x99, 0x2D, 0x0F, 0xB0, 0x54, 0xBB, 0x16]

/-- SubBytes of a byte, and its inverse. -/
def subByte (x : Nat) : Nat := (sbox[x]?).getD 0
def unsubByte (y : Nat) : Nat := sbox.findIdx (fun v => decide (v = y))

/-- Multiplication by x in GF(2^8). -/
def xtime (a : Nat) : Nat := if a < 128 then 2 * a else Nat.xor (2 * a) 0x11B

/-- Multiplication in GF(2^8) by a constant of at most four bits. -/
def gmul (c a : Nat) : Nat :=
  let p := fun (k m : Nat) => if c / 2 ^ k % 2 = 1 then m else 0
  Nat.xor (Nat.xor (p 0 a) (p 1 (xtime a))) (Nat.xor (p 2 (xtime (xtime a))) (p 3 (xtime (xtime (xtime a)))))

/-- Sum of two byte lists. -/
def xorBytes (a b : List Nat) : List Nat := (a.zip b).map (fun p => Nat.xor p.1 p.2)

/-- The 60 words of the key schedule, in order, from the eight of the key (FIPS 197). -/
def keyWords (key : List Nat) : List (List Nat) :=
  let start := (List.range 8).map (fun k => (key.drop (4 * k)).take 4)
  ((List.range 52).foldl (fun (p : List (List Nat) × Nat) n =>
    let (ws, rcon) := p
    let i := n + 8
    let t := (ws[i - 1]?).getD []
    let t := if i % 8 = 0 then xorBytes ((t.drop 1 ++ t.take 1).map subByte) [rcon, 0, 0, 0]
      else if i % 8 = 4 then t.map subByte else t
    (ws ++ [xorBytes ((ws[i - 8]?).getD []) t], if i % 8 = 0 then xtime rcon else rcon)) (start, 1)).1

/-- The round key of round `k`. -/
def roundKey (ws : List (List Nat)) (k : Nat) : List Nat := ((ws.drop (4 * k)).take 4).flatten

/-- Byte `i` of a block, which holds column i / 4, row i % 4. -/
def byteOf (b : List Nat) (i : Nat) : Nat := (b[i]?).getD 0

/-- ShiftRows: row r moves left by `n` x r columns. -/
def shiftRows (n : Nat) (b : List Nat) : List Nat := (List.range 16).map (fun i => byteOf b ((i + 4 * n * (i % 4)) % 16))

/-- MixColumns by the coefficients of a row. -/
def mixColumns (c : List Nat) (b : List Nat) : List Nat :=
  (List.range 16).map (fun i => (List.range 4).foldl (fun acc j =>
    Nat.xor acc (gmul (byteOf c ((j + 4 - i % 4) % 4)) (byteOf b (i / 4 * 4 + j)))) 0)

/-- AES-256 of one block of 16 bytes. -/
def aesEncrypt (ws : List (List Nat)) (b : List Nat) : List Nat :=
  let b := xorBytes b (roundKey ws 0)
  let b := (List.range 13).foldl (fun b k =>
    xorBytes (mixColumns [2, 3, 1, 1] (shiftRows 1 (b.map subByte))) (roundKey ws (k + 1))) b
  xorBytes (shiftRows 1 (b.map subByte)) (roundKey ws 14)

/-- Its inverse. -/
def aesDecrypt (ws : List (List Nat)) (b : List Nat) : List Nat :=
  let b := (shiftRows 3 (xorBytes b (roundKey ws 14))).map unsubByte
  let b := (List.range 13).foldl (fun b k =>
    (shiftRows 3 (mixColumns [14, 11, 13, 9] (xorBytes b (roundKey ws (13 - k))))).map unsubByte) b
  xorBytes b (roundKey ws 0)

/-! ## XTS -/

/-- The next block's tweak: multiplication by x in GF(2^128), byte 0 least significant. -/
def nextTweak (t : List Nat) : List Nat :=
  let n := 2 * t.foldr (fun b acc => b + 256 * acc) 0
  let n := if n < 2 ^ 128 then n else Nat.xor (n - 2 ^ 128) 0x87
  (List.range 16).map (fun i => n / 256 ^ i % 256)

/-- One direction of XTS over the blocks of a sector. -/
def xtsBlocks (f : List Nat → List Nat) : Nat → List Nat → List Nat → List Nat
  | 0, _, _ => []
  | n + 1, t, b => xorBytes (f (xorBytes (b.take 16) t)) t ++ xtsBlocks f n (nextTweak t) (b.drop 16)

/-- The bytes of a key, the least significant first: the first 32 are the data key and the others the tweak key. -/
def keyBytes (k : BitVec 512) : List Nat := (List.range 64).map (fun i => k.toNat / 256 ^ i % 256)

/-- A sector of 64 bytes under a key; the tweak is physical address bits 51:6, the sector's number. -/
def xts (encrypt : Bool) (k : BitVec 512) (sec : Nat) (bs : List Byte) : List Byte :=
  let key := keyBytes k
  let ws := keyWords (key.take 32)
  let tweak := aesEncrypt (keyWords (key.drop 32)) ((List.range 16).map (fun i => sec % 2 ^ 46 / 256 ^ i % 256))
  (xtsBlocks (if encrypt then aesEncrypt ws else aesDecrypt ws) 4 tweak (bs.map (·.toNat))).map (BitVec.ofNat 8)

/-- What a sector that was written under one key, or as plaintext, reads as under another: its stored bytes, decrypted. -/
def recipher (written read : Option (BitVec 512)) (sec : Nat) (bs : List Byte) : List Byte :=
  let stored := match written with | none => bs | some k => xts true k sec bs
  match read with | none => stored | some k => xts false k sec stored

end Sys2Proof.Machine
end

