-- ==== Sys2Proof/Machine/Translate.lean ====
section
/-! DEFINITION. Keys, lines, page heat and address translation (spec 14 R201, R202, 26 R370 to R378, R380, R381, 28 R409, R413). -/

namespace Sys2Proof.Machine

open Sys2Proof

/-! ## Keys (R380) -/

/-- Key value of a slot: none for slot 0, plaintext (R380). -/
def State.keyOf (s : State) (slot : Nat) : Option (BitVec 512) := if slot = 0 then none else assoc s.keySlots slot

/-- The byte at `a` read under key `k`: its own where the sector was written under `k`, else what decryption under
another key gives. -/
def State.keyedByte (s : State) (k : Option (BitVec 512)) (a : Nat) : Byte :=
  let w := assoc s.sectorKeys (a / 64)
  if w = k then Memory.read s.mem a
  else (recipher w k (a / 64) (Memory.readN s.mem (a / 64 * 64) 64))[a % 64]?.getD 0

/-- Bring a sector under key `k` before it is written. -/
def State.rekey (s : State) (k : Option (BitVec 512)) (sec : Nat) : State :=
  if assoc s.sectorKeys sec = k then s
  else
    let old := (List.range 64).map (fun i => s.keyedByte k (sec * 64 + i))
    let keys := s.sectorKeys.filter (fun p => decide (p.1 ≠ sec))
    { s with mem := Memory.writeN s.mem (sec * 64) old
             sectorKeys := match k with | none => keys | some v => (sec, v) :: keys }

/-- Bytes from `a` under key `k`. -/
def State.keyedRead (s : State) (k : Option (BitVec 512)) (a n : Nat) : List Byte :=
  (List.range n).map (fun i => s.keyedByte k (a + i))

/-- Write one byte under key `k`. -/
def State.keyedPut (s : State) (k : Option (BitVec 512)) (a : Nat) (b : Byte) : State :=
  let s := s.rekey k (a / 64)
  { s with mem := Memory.write s.mem a b }

/-- Write bytes from `a` under key `k`. -/
def State.keyedWrite (s : State) (k : Option (BitVec 512)) (a : Nat) : List Byte → State
  | [] => s
  | b :: bs => (s.keyedPut k a b).keyedWrite k (a + 1) bs

/-! ## Addresses and leaves -/

/-- First byte above bonded DRAM; first and last-plus-one byte of pool memory behind the eight ports (R371, R413). -/
def bondedEnd : Nat := 0x6000000000
def poolBase : Nat := 2 ^ 40
def poolEnd : Nat := 2 ^ 40 + 2 ^ 51

/-- Whether `n` bytes at `a` lie in one backed range (R371, R413). -/
def backed (a n : Nat) : Bool := decide (a + n ≤ bondedEnd) || (decide (poolBase ≤ a) && decide (a + n ≤ poolEnd))

/-- The home stack of a physical address (R201, R371). -/
def homeStack (pa : Nat) : Nat := if pa < bondedEnd then pa / 0x1800000000 else pa / 128 % 4

/-- Key of a physical address of device `home` in `mem`: the package's own bytes at their address, another device's
above. -/
def State.physKey (s : State) (home pa : Nat) : Nat := if home = s.devnum.toNat then pa else (home + 1) * 2 ^ 52 + pa

/-- A leaf entry with the page it maps (R373). -/
structure Leaf where
  base : Nat
  size : Nat
  level : Nat
  w0 : Word
  w1 : Word
  deriving DecidableEq, Repr

def Leaf.frame (l : Leaf) : Nat := l.w0.toNat / 2 ^ 12 % 2 ^ 40 * 4096
def Leaf.treat (l : Leaf) : Nat := bits l.w0.toNat 8 7
def Leaf.ori (l : Leaf) : Bool := l.w0.getLsbD 9
/-- Width in bytes of an oriented page: 1, 2 or 4. -/
def Leaf.oriWidth (l : Leaf) : Nat := 2 ^ bits l.w0.toNat 11 10
def Leaf.canR (l : Leaf) : Bool := l.w0.getLsbD 3
def Leaf.canW (l : Leaf) : Bool := l.w0.getLsbD 4
def Leaf.canX (l : Leaf) : Bool := l.w0.getLsbD 5
def Leaf.forUser (l : Leaf) : Bool := l.w0.getLsbD 6
def Leaf.cmp (l : Leaf) : Bool := l.w1.getLsbD 0
def Leaf.race (l : Leaf) : Bool := l.w1.getLsbD 1
def Leaf.bias (l : Leaf) : Bool := l.w1.getLsbD 2
def Leaf.slot (l : Leaf) : Nat := bits l.w1.toNat 8 3
def Leaf.home (l : Leaf) : Nat := bits l.w1.toNat 18 9
def Leaf.alloc (l : Leaf) : Nat := bits l.w1.toNat 28 19

/-! ## Lines (R201, R202) -/

/-- A line by name: a row line, or a column line of an oriented page of width `width`. -/
structure LineId where
  pa : Nat
  col : Bool
  width : Nat
  deriving DecidableEq, Repr

/-- The row line, or the column line of width `w`, that holds the named byte `x` (R202). -/
def lineOf (x : Nat) (col : Bool) (w : Nat) : LineId :=
  if col then
    let ob := 128 * (128 / w)
    ⟨x / ob * ob + x % 128 / w * w, true, w⟩
  else ⟨x / 128 * 128, false, 0⟩

/-- Position of a named byte in a line. -/
def LineId.index (l : LineId) (x : Nat) : Option Nat :=
  if x < l.pa then none
  else
    let d := x - l.pa
    if l.col then
      if d / 128 < 128 / l.width ∧ d % 128 < l.width then some (d / 128 * l.width + d % 128) else none
    else if d < 128 then some d else none

/-- Name of byte `k` of a line. -/
def LineId.byteAt (l : LineId) (k : Nat) : Nat := if l.col then l.pa + k / l.width * 128 + k % l.width else l.pa + k

def L1Line.id (l : L1Line) : LineId := ⟨l.pa, l.col, l.width⟩
def LineStamp.id (l : LineStamp) : LineId := ⟨l.pa, l.col, l.width⟩
def L2Line.id (l : L2Line) : LineId := ⟨l.pa, l.col, l.width⟩

/-! ## Page heat (R381) -/

/-- The controller that serves a physical address: 16 per stack, then one per pool port. -/
def controller (a : Nat) : Nat :=
  if a < bondedEnd then 16 * homeStack a + Config.controllerOf (a / 65536) % 16 else 64 + (a - poolBase) / 2 ^ 48

/-- EMBCTL of a controller; its reset value is EN 1, K 10. -/
def State.embctlOf (s : State) (c : Nat) : Word := (assoc s.embctl c).getD 0x2A

/-- HEAT and ACC of a frame. -/
def State.heatOf (s : State) (f : Nat) : BitVec 8 × Bool := (assoc s.heat f).getD (0, false)

/-- One request at the package's memory for the frame of `a`. -/
def State.request (s : State) (a : Nat) : State :=
  if 2 ^ 52 ≤ a then s
  else
    let f := a / 65536
    let c := controller a
    let n := (assoc s.samples c).getD 0 + 1
    let ctl := s.embctlOf c
    let h := (s.heatOf f).1
    let h' := if ctl.getLsbD 5 && decide (n % 2 ^ (ctl.toNat % 32) = 0) && decide (h ≠ 255) then h + 1 else h
    { s with samples := assocSet s.samples c n, heat := assocSet s.heat f (h', true) }

/-- Whether the L2 of a stack holds a line (R201, R214). -/
def State.inL2 (s : State) (stack : Nat) (id : LineId) : Bool := s.l2.any (fun l => decide (l.stack = stack) && decide (l.id = id))

/-- An access to a structure in memory by a walker, the front-end, a collective engine or the race detector: no request where the L2 of the
home stack holds the line, which such an access does not bring in (entry 86). -/
def State.touch (s : State) (a : Nat) : State := if s.inL2 (homeStack a) (lineOf a false 0) then s else s.request a

/-- The accesses to `n` bytes from `a`, one for each line. -/
def State.touchSpan (s : State) (a n : Nat) : State := (List.range ((a % 128 + n + 127) / 128)).foldl (fun s k => s.touch (a + 128 * k)) s

/-! ## Bytes of held lines -/

/-- Byte `k` of a held line. -/
def L1Line.byte (l : L1Line) (k : Nat) : Byte := BitVec.ofNat 8 (l.data.toNat / 2 ^ (8 * k))

/-- The bytes that hearths hold dirty under D: key slot, name and byte. -/
def State.dirtyD (s : State) : List (Nat × Nat × Byte) :=
  (s.l1.filter (fun l => decide (l.treat = 0) && decide (l.dirty ≠ 0))).foldr (fun l acc =>
    ((List.range 128).filter (fun k => l.dirty.getLsbD k)).map (fun k => (l.slot, l.id.byteAt k, l.byte k)) ++ acc) []

/-- Memory as a reader of plaintext sees it that is coherent under D and passes the L1s by: walkers and the front-end (R377).  A sector written
under a key gives its ciphertext (R380). -/
def State.view (s : State) : List Host.Cell :=
  let u := s.dirtyD.foldl (fun (u : State) p => u.keyedPut (u.keyOf p.1) p.2.1 p.2.2) s
  u.sectorKeys.foldl (fun m k => Memory.writeN m (k.1 * 64) (recipher (some k.2) none k.1 (Memory.readN u.mem (k.1 * 64) 64))) u.mem

/-! ## The walk -/

/-- Index of `va` at a level, and the bytes one entry of that level spans (R372). -/
def levelIndex (level va : Nat) : Nat :=
  match level with
  | 0 => va / 2 ^ 48 % 256
  | 1 => va / 2 ^ 39 % 512
  | 2 => va / 2 ^ 30 % 512
  | 3 => va / 2 ^ 21 % 512
  | _ => va / 2 ^ 16 % 32

def levelSpan (level : Nat) : Nat :=
  match level with
  | 0 => 2 ^ 48 | 1 => 2 ^ 39 | 2 => 2 ^ 30 | 3 => 2 ^ 21 | _ => 2 ^ 16

/-- Whether a valid entry is malformed (R374, R409); `dev` is the device's own number. -/
def malformedEntry (dev level : Nat) (w0 w1 : Word) : Bool :=
  let l : Leaf := ⟨0, levelSpan level, level, w0, w1⟩
  let kind := bits w0.toNat 2 1
  if kind = 0 then
    decide (level = 4) || decide (w1 ≠ 0) || decide (bits w0.toNat 11 3 ≠ 0) || decide (w0.toNat / 2 ^ 52 ≠ 0)
      || (decide (level ≤ 2) && decide (l.frame % 8192 ≠ 0))
  else if kind = 1 then
    decide (level ≤ 1) || decide (w0.toNat / 2 ^ 52 ≠ 0) || decide (w1.toNat / 2 ^ 29 ≠ 0) || decide (bits w0.toNat 11 10 = 3)
      || (!l.cmp && decide (l.frame % l.size ≠ 0))
      || ((l.ori || l.cmp) && decide (level ≠ 4))
      || (!l.cmp && decide (l.alloc ≠ 0))
      || (l.bias && decide (bondedEnd ≤ l.frame))
      || !backed l.frame (if l.cmp then 256 + 64 * (l.alloc + 1) else l.size)
      || (decide (l.home ≠ dev) && decide (l.treat = 0))
  else true

/-- Walk from the table at `table` of `level`; `fuel` levels remain (R372).  An error is (REASON, LEVEL) of R376. -/
def walkTables (m : List Host.Cell) (dev va : Nat) : Nat → Nat → Nat → Except (Nat × Nat) Leaf
  | 0, level, _ => .error (2, level)
  | fuel + 1, level, table =>
    let a := table + 16 * levelIndex level va
    let w0 : Word := BitVec.ofNat 64 (Memory.num m a 8)
    let w1 : Word := BitVec.ofNat 64 (Memory.num m (a + 8) 8)
    if w0.getLsbD 0 = false then .error (1, level)
    else if malformedEntry dev level w0 w1 then .error (2, level)
    else if bits w0.toNat 2 1 = 1 then .ok ⟨va / levelSpan level * levelSpan level, levelSpan level, level, w0, w1⟩
    else walkTables m dev va fuel (level + 1) (w0.toNat / 2 ^ 12 % 2 ^ 40 * 4096)

/-- The entries that a walk reads: level, address and words. -/
def walkPath (m : List Host.Cell) (dev va : Nat) : Nat → Nat → Nat → List (Nat × Nat × Word × Word)
  | 0, _, _ => []
  | fuel + 1, level, table =>
    let a := table + 16 * levelIndex level va
    let w0 : Word := BitVec.ofNat 64 (Memory.num m a 8)
    let w1 : Word := BitVec.ofNat 64 (Memory.num m (a + 8) 8)
    if w0.getLsbD 0 = false ∨ malformedEntry dev level w0 w1 ∨ bits w0.toNat 2 1 = 1 then [(level, a, w0, w1)]
    else (level, a, w0, w1) :: walkPath m dev va fuel (level + 1) (w0.toNat / 2 ^ 12 % 2 ^ 40 * 4096)

/-- An ASID's entry (R370): ROOT and TVEC, none where VALID is 0 or the layout is broken. -/
def State.asidEntry (s : State) (asid : Nat) : Option (Nat × Word) :=
  let a := s.bar0.asidbase.toNat + 32 * asid
  let m := s.view
  let root := Memory.num m a 8
  let tvec := Memory.num m (a + 8) 8
  if root % 2 = 1 ∧ root / 2 ^ 52 = 0 ∧ bits root 11 1 = 0 ∧ tvec / 2 ^ 56 = 0 ∧ tvec % 4096 = 0
      ∧ Memory.num m (a + 16) 16 = 0 then
    some (root / 4096 * 4096, BitVec.ofNat 64 tvec)
  else none

/-- The tables' own translation of `va` (R372, R376). -/
def State.walk (s : State) (asid va : Nat) : Except (Nat × Nat) Leaf :=
  match s.asidEntry asid with
  | none => .error (1, 0)
  | some (root, _) => walkTables s.view s.devnum.toNat va 5 0 root

/-- The translation a TLB may still hold for `va` (R377). -/
def State.cached (s : State) (asid va : Nat) : Option Leaf :=
  (s.tlb.find? (fun e => decide (e.asid.toNat = asid) && decide (e.base ≤ va) && decide (va < e.base + e.size))).map
    (fun e => ⟨e.base, e.size, e.level, e.w0, e.w1⟩)

/-- Keep a translation in the TLBs, in place of one for the same page. -/
def State.fillTlb (s : State) (asid : Nat) (l : Leaf) : State :=
  { s with tlb := ⟨BitVec.ofNat 10 asid, l.base, l.size, l.level, l.w0, l.w1⟩ ::
      s.tlb.filter (fun e => !(decide (e.asid.toNat = asid) && decide (e.base = l.base))) }

/-- Whether a cached table entry is on the path of `va`. -/
def TableEntry.covers (e : TableEntry) (asid va : Nat) : Bool :=
  decide (e.asid.toNat = asid) && decide (e.base ≤ va) && decide (va < e.base + levelSpan e.level)

/-- The cached table entry at which a walk starts: of those on the path of `va` the lowest that a free choice takes (R377, R378, entry 16). -/
def State.startEntry (s : State) (asid va : Nat) (m : List Nat) : Option TableEntry :=
  ([3, 2, 1, 0].flatMap (fun k => s.tables.filter (fun e => decide (e.level = k) && e.covers asid va))).find?
    (fun e => Config.useCached ((e.level + 1) :: e.base :: m))

/-- Where a walk starts: level and table. -/
def State.walkStart (s : State) (asid va : Nat) (m : List Nat) : Option (Nat × Nat) :=
  match s.startEntry asid va m with
  | some e => some (e.level + 1, e.w0.toNat / 2 ^ 12 % 2 ^ 40 * 4096)
  | none => (s.asidEntry asid).map (fun p => (0, p.1))

/-- The translation that a walk finds, from the ASID's entry or from a cached table entry (R372, R376, R377). -/
def State.walkNow (s : State) (asid va : Nat) (m : List Nat) : Except (Nat × Nat) Leaf :=
  match s.walkStart asid va m with
  | none => .error (1, 0)
  | some (level, table) => walkTables s.view s.devnum.toNat va (5 - level) level table

/-- The entries that this walk reads. -/
def State.walkReads (s : State) (asid va : Nat) (m : List Nat) : List (Nat × Nat × Word × Word) :=
  match s.walkStart asid va m with
  | none => []
  | some (level, table) => walkPath s.view s.devnum.toNat va (5 - level) level table

/-- A walker keeps a table entry, in place of one of the same level and addresses. -/
def State.keepTable (s : State) (asid va level : Nat) (w0 w1 : Word) : State :=
  let e : TableEntry := ⟨BitVec.ofNat 10 asid, level, va / levelSpan level * levelSpan level, w0, w1⟩
  { s with tables := e :: s.tables.filter (fun k => !(decide (k.asid = e.asid) && decide (k.level = level) && decide (k.base = e.base))) }

/-- What a walk leaves: its requests (R372, R381), and in the walker the entries above the leaf (R377). -/
def State.walked (s : State) (asid va : Nat) (m : List Nat) : State :=
  let path := s.walkReads asid va m
  path.dropLast.foldl (fun u p => u.keepTable asid va p.1 p.2.2.1 p.2.2.2) (path.foldl (fun u p => u.touch p.2.1) s)

/-- Translate `va`: what a walk finds, or, until an invalidation, possibly a cached translation that differs, the same for a page and a
moment `m` (R377, R378, entry 16).  An error is (REASON, LEVEL). -/
def State.translate (s : State) (asid va : Nat) (m : List Nat) : Except (Nat × Nat) Leaf × State :=
  match s.cached asid va, s.walkNow asid va m with
  | none, .ok l => (.ok l, (s.walked asid va m).fillTlb asid l)
  | none, .error e => (.error e, s.walked asid va m)
  | some c, .ok l =>
    if c = l then (.ok l, s)
    else if Config.useCached (c.base :: m) then (.ok c, s)
    else (.ok l, (s.walked asid va m).fillTlb asid l)
  | some c, .error e => if Config.useCached (c.base :: m) then (.ok c, s) else (.error e, s.walked asid va m)

/-- What a word or an operation that stops leaves of the accesses made for it in `u`: their requests (R381). -/
def State.countAs (u s : State) : State := { s with heat := u.heat, samples := u.samples }

/-- The moment of the current thread's word. -/
def State.wordMoment (s : State) : List Nat := [s.thr.tid, s.thr.retired.toNat]

/-- What an access does, for its permissions (R375). -/
inductive Use where
  | load | store | atomic | fetch
  deriving DecidableEq, Repr

/-- Whether the use writes. -/
def Use.writes : Use → Bool
  | .store | .atomic => true
  | _ => false

/-- Whether the use reads data. -/
def Use.reads : Use → Bool
  | .load | .atomic => true
  | _ => false

/-- The leaf's permissions for a use (R375). -/
def Leaf.permits (l : Leaf) (u : Use) (user : Bool) : Bool :=
  (match u with
   | .load => l.canR
   | .store => l.canW
   | .atomic => l.canR && l.canW
   | .fetch => l.canX) && (!user || l.forUser)

/-- Every check R376 makes of an address before poison and links; an error is (REASON, LEVEL). -/
def State.access (s : State) (asid : Nat) (user : Bool) (u : Use) (va : Word) (m : List Nat) : Except (Nat × Nat) Leaf × State :=
  if va.toNat / 2 ^ 56 ≠ 0 then (.error (7, 7), s)
  else
    match s.translate asid va.toNat ((if u = .fetch then 1 else 0) :: m) with
    | (.error e, s) => (.error e, s)
    | (.ok l, s) =>
      if ¬ l.permits u user then (.error (3, l.level), s)
      else if l.slot ≠ 0 ∧ (s.keyOf l.slot).isNone then (.error (4, l.level), s)
      else (.ok l, s)

end Sys2Proof.Machine
end

