-- ==== Sys2Proof/Machine/Home.lean ====
section
/-! DEFINITION. Bytes at their home: poison, compressed pages, lost links (spec 20 R289 to R291, 26 R379 to R384, 28 R414). -/

namespace Sys2Proof.Machine

open Sys2Proof

/-- Base of the addresses by which the bytes of compressed pages are named: a compressed page's logical byte `off` with
header key `h` is `cmpBase + 16 h + off`. -/
def cmpBase : Nat := 2 ^ 70

/-- Name of the byte at `va` of a leaf: its key in `mem`, or its logical place in a compressed page. -/
def State.ident (s : State) (l : Leaf) (va : Nat) : Nat :=
  let off := va - l.base
  if l.cmp then cmpBase + s.physKey l.home l.frame * 16 + off else s.physKey l.home (l.frame + off)

/-- The header key of a named byte of a compressed page; any other name is its own key. -/
def homeKey (x : Nat) : Nat := if cmpBase ≤ x then (x - cmpBase) / 65536 * 4096 else x

/-- The home of a named byte: stacks 0 to 3 of the package, or 4 + 4 x device + stack (R201, R409); a byte of a compressed page has its
header's (entry 70). -/
def homeId (x : Nat) : Nat :=
  let k := homeKey x
  if k < 2 ^ 52 then homeStack k else 4 + 4 * (k / 2 ^ 52 - 1) + homeStack (k % 2 ^ 52)

/-! ## Compressed pages (R289, R291, R379) -/

/-- Map entry of block `b`: first sector, sector count, VALID; none where bits 14:13 are not zero or a sector lies
outside the allocation. -/
def State.mapEntry (s : State) (k : Option (BitVec 512)) (hdr alloc b : Nat) : Option (Nat × Nat × Bool) :=
  let e := leNat (s.keyedRead k (hdr + 2 * b) 2)
  if bits e 14 13 ≠ 0 then none
  else if e / 2 ^ 15 = 0 then some (0, 0, false)
  else if bits e 9 0 + bits e 12 10 ≤ alloc then some (bits e 9 0, bits e 12 10 + 1, true) else none

/-- The stored sectors of a block; empty where it was never written. -/
def State.blockSectors (s : State) (k : Option (BitVec 512)) (hdr alloc b : Nat) : Option (List Byte) :=
  match s.mapEntry k hdr alloc b with
  | none => none
  | some (_, _, false) => some []
  | some (f, n, true) => some (s.keyedRead k (hdr + 256 + 64 * f) (64 * n))

/-- The 512 bytes of a block; none where it is malformed. -/
def State.blockRead (s : State) (k : Option (BitVec 512)) (hdr alloc b : Nat) : Option (List Byte) :=
  match s.blockSectors k hdr alloc b with
  | none => none
  | some bs =>
    if bs = [] then some (List.replicate 512 0)
    else if bs.length = 512 then some bs
    else
      let (xs, ok) := chunkDecode 32 bs
      if ok ∧ xs.length = 128 then some ((xs.map (leBytes 4)).flatten) else none

/-- Where blocks of these sectors lie when they are laid out one after another from sector `f`: block, first sector, sectors. -/
def layout : List (Nat × List Byte) → Nat → List (Nat × Nat × List Byte)
  | [], _ => []
  | (b, bs) :: r, f => if bs = [] then layout r f else (b, f, bs) :: layout r (f + bs.length / 64)

/-- Lay blocks out. -/
def State.layBlocks (s : State) (k : Option (BitVec 512)) (hdr : Nat) (l : List (Nat × Nat × List Byte)) : State :=
  l.foldl (fun s p =>
    (s.keyedWrite k (hdr + 2 * p.1) (leBytes 2 (p.2.1 + 1024 * (p.2.2.length / 64 - 1) + 2 ^ 15))).keyedWrite k
      (hdr + 256 + 64 * p.2.1) p.2.2) s

/-- The 64-byte units of `n` sectors from sector `f`. -/
def sectorUnits (hdr f n : Nat) : List Nat := (List.range n).map (fun j => hdr / 64 + 4 + f + j)

/-- The units of a block's stored sectors. -/
def State.blockUnits (s : State) (k : Option (BitVec 512)) (hdr alloc b : Nat) : List Nat :=
  match s.mapEntry k hdr alloc b with
  | some (f, c, true) => sectorUnits hdr f c
  | _ => []

/-- Whether a pool address lies outside every accepted extent (R414). -/
def State.uncovered (s : State) (a : Nat) : Bool :=
  decide (poolBase ≤ a) && decide (a < poolEnd) &&
    !(s.extents.any (fun e => decide (poolBase + e.1 * 2 ^ 48 + e.2.1 ≤ a) && decide (a < poolBase + e.1 * 2 ^ 48 + e.2.1 + e.2.2)))

/-- Raise a per-stack counter (R292). -/
def bump (v : Vector Word 4) (k : Nat) : Vector Word 4 := if h : k < 4 then v.set k (v[k] + 1) else v

/-- Write a whole block; none where its sectors exceed the free sectors of the allocation (R291, R379).  Poison moves with the blocks;
a poisoned block of which not `all` is written anew stays poisoned (R383). -/
def State.blockWrite (s : State) (k : Option (BitVec 512)) (hdr alloc b : Nat) (data : List Byte) (all : Bool) : Option State :=
  let (bs, raw) := blockStore data
  let blocks := (List.range 128).map (fun j => (j, if j = b then bs else (s.blockSectors k hdr alloc j).getD []))
  if alloc + 1 < (blocks.map (fun p => p.2.length / 64)).sum then none
  else
    let places := layout blocks 0
    let hurt := fun (u : Nat) => s.poison.contains u || s.uncovered (u * 64)
    let bad := (List.range 128).filter (fun j => !(decide (j = b) && all) && (s.blockUnits k hdr alloc j).any hurt)
    let poison := (s.poison.filter (fun u => !(decide (hdr / 64 + 4 ≤ u) && decide (u ≤ hdr / 64 + 4 + alloc)))) ++
      ((places.filter (fun p => bad.contains p.1)).map (fun p => sectorUnits hdr p.2.1 (p.2.2.length / 64))).flatten
    let s := { s.layBlocks k hdr places with poison := if s.poison = [] ∧ (hdr < poolBase ∨ 2 ^ 52 ≤ hdr) then [] else poison }
    some (if raw then { s with czraw := bump s.czraw (if hdr < 2 ^ 52 then homeStack hdr else 4) } else s)

/-! ## Home reads and writes -/

/-- Number of the block of a named byte of a compressed page. -/
def blockOf (x : Nat) : Nat := (x - cmpBase) % 65536 / 512

/-- Where a named run lives: slot and allocation come from its leaf or its line. -/
structure Run where
  x : Nat
  slot : Nat
  alloc : Nat
  deriving DecidableEq, Repr

/-- A leaf's run at `va`. -/
def State.runAt (s : State) (l : Leaf) (va : Nat) : Run := ⟨s.ident l va, l.slot, l.alloc⟩

/-- Read `n` bytes, at most to the end of the 512-byte block; none where a compressed block is malformed. -/
def State.homeRead (s : State) (r : Run) (n : Nat) : Option (List Byte) :=
  let k := s.keyOf r.slot
  if cmpBase ≤ r.x then
    match s.blockRead k (homeKey r.x) r.alloc (blockOf r.x) with
    | none => none
    | some bs => some ((bs.drop ((r.x - cmpBase) % 512)).take n)
  else some (s.keyedRead k r.x n)

/-- Units of 64 bytes behind a run: of a compressed block, those of its map entry and of its sectors (R383). -/
def State.units (s : State) (r : Run) (n : Nat) : List Nat :=
  if cmpBase ≤ r.x then
    (homeKey r.x + 2 * blockOf r.x) / 64 :: s.blockUnits (s.keyOf r.slot) (homeKey r.x) r.alloc (blockOf r.x)
  else (List.range ((r.x % 64 + n + 63) / 64)).map (fun j => r.x / 64 + j)

/-- The requests at the memory behind a run (R381): one for its line, or one for each sector of its compressed block, of which at most
`most`. -/
def State.requestRun (s : State) (r : Run) (most : Nat := 8) : State :=
  if cmpBase ≤ r.x then
    match s.mapEntry (s.keyOf r.slot) (homeKey r.x) r.alloc (blockOf r.x) with
    | some (f, n, true) => (List.range (Nat.min most n)).foldl (fun s j => s.request (homeKey r.x + 256 + 64 * (f + j))) s
    | _ => s.request (homeKey r.x)
  else s.request r.x

/-! ## The L2s (R201, R214, R222, R381) -/

/-- Lines that an L2 holds: 48 MiB of 128 bytes. -/
def l2Lines : Nat := 393216

/-- A line leaves an L2, that of its home with its timestamps; a dirty one is written to memory. -/
def State.leaveL2 (s : State) (l : L2Line) : State :=
  let s := { s with
    l2 := s.l2.filter (fun k => !(decide (k.stack = l.stack) && decide (k.id = l.id)))
    stamps := if l.stack = homeId l.pa then s.stamps.filter (fun k => decide (k.id ≠ l.id)) else s.stamps }
  if l.dirty then s.request (homeKey l.pa) else s

/-- Lines that `p` picks are written to memory, and stay clean in their L2. -/
def State.cleanL2 (s : State) (p : L2Line → Bool) : State :=
  let s' := (s.l2.filter (fun l => l.dirty && p l)).foldl (fun (s : State) l => s.request (homeKey l.pa)) s
  { s' with l2 := s'.l2.map (fun l => if p l then { l with dirty := false } else l) }

/-- A line enters the L2 of a stack; in a full one a free line leaves (entry 86). -/
def State.enterL2 (s : State) (stack : Nat) (id : LineId) : State :=
  let mine := s.l2.filter (fun l => decide (l.stack = stack))
  let s := if mine.length < l2Lines then s
    else match mine[Config.victim s.free % mine.length]? with
      | some l => { s with free := s.free + 1 }.leaveL2 l
      | none => s
  { s with l2 := ⟨stack, id.pa, id.col, id.width, false⟩ :: s.l2 }

/-- An access reaches its home: through the L2 by the line `via`, which a miss brings in; at the bank for a U page, where there is none (R227).
The L2 of another device is no state of this one. -/
def State.reach (s : State) (r : Run) (via : Option LineId) : State :=
  match via with
  | none => s.requestRun r
  | some id => if s.inL2 (homeId id.pa) id || decide (4 ≤ homeId id.pa) then s else (s.requestRun r).enterL2 (homeId id.pa) id

/-- A hearth's access to a line of a D page that it takes into its L1: the L2 of its own stack holds the line too, and reaches the home for one
that it does not hold (R214). -/
def State.reachNear (s : State) (hearth : Nat) (r : Run) (id : LineId) : State :=
  if s.inL2 (stackOf hearth) id then s
  else
    let u := s.reach r (some id)
    if stackOf hearth = homeId id.pa then u else u.enterL2 (stackOf hearth) id

/-- The L2s of the stacks that `at'` picks give up the lines homed elsewhere that hold a byte `p` picks (R214, R217). -/
def State.dropNear (s : State) (at' : Nat → Bool) (p : Nat → Bool) : State :=
  { s with l2 := s.l2.filter (fun l => decide (l.stack = homeId l.pa) || !at' l.stack || !((List.range 128).any (fun k => p (l.id.byteAt k)))) }

/-- A plain write reaches its home, and leaves the line in the L2 dirty. -/
def State.reachDirty (s : State) (r : Run) (via : Option LineId) : State :=
  let s := s.reach r via
  match via with
  | none => s
  | some id => { s with l2 := s.l2.map (fun l => if l.stack = homeId id.pa ∧ l.id = id then { l with dirty := true } else l) }

/-- The link that reaches a named byte, as `linksDown` counts them: the device, or 1024 + the pool port; none within the package. -/
def linkOf (x : Nat) : Option Nat :=
  let a := homeKey x
  if 2 ^ 52 ≤ a then some (a / 2 ^ 52 - 1) else if poolBase ≤ a then some (1024 + (a - poolBase) / 2 ^ 48) else none

/-- Whether a link the access needs is down (R384). -/
def State.linkLost (s : State) (x : Nat) : Bool :=
  match linkOf x with
  | some k => s.linksDown.contains k
  | none => false

/-- Whether reading the run at its home consumes poison (R383, R384, R414). -/
def State.poisoned (s : State) (r : Run) (n : Nat) : Bool :=
  (s.units r n).any (fun u => s.poison.contains u || s.uncovered (u * 64)) || s.linkLost r.x

/-- The names of a run's bytes. -/
def names (x : Nat) (bs : List Byte) : List (Nat × Byte) := (List.range bs.length).zip bs |>.map (fun p => (x + p.1, p.2))

/-- A write to a 128-byte block prompts the WAITEVs that watch it (R82, R83). -/
def State.prompt (s : State) (gang : Option Nat) (xs : List Nat) : State :=
  { s with watches := s.watches.map (fun w =>
      if w.gang = gang ∧ xs.any (fun x => decide (x / 128 = w.block)) then { w with prompted := true } else w) }

/-- Replace bytes of a block by the named ones. -/
def mergeBytes (base : Nat) (old : List Byte) (ws : List (Nat × Byte)) : List Byte :=
  ws.foldl (fun l p => l.set (p.1 - base) p.2) old

/-- Write named bytes of one compressed block: read, merge, compress again (R290), one read and one write (R381); none where it does not fit,
or is malformed. -/
def State.putBlock (s : State) (slot alloc : Nat) (base : Nat) (ws : List (Nat × Byte)) : Option State :=
  let k := s.keyOf slot
  let h := homeKey base
  let ws := ws.filter (fun p => decide (base ≤ p.1) && decide (p.1 < base + 512))
  (s.blockRead k h alloc (blockOf base)).bind (fun old =>
    ((s.requestRun ⟨base, slot, alloc⟩ 1).blockWrite k h alloc (blockOf base) (mergeBytes base old ws)
      ((List.range 512).all (fun i => ws.any (fun p => decide (p.1 = base + i))))).map (fun s => s.requestRun ⟨base, slot, alloc⟩ 1))

/-- Write named bytes of plain pages; a unit written whole loses its poison (R383). -/
def State.putPlain (s : State) (slot : Nat) (ws : List (Nat × Byte)) : State :=
  let whole := fun (u : Nat) => (List.range 64).all (fun i => ws.any (fun p => decide (p.1 = u * 64 + i)))
  let s := ws.foldl (fun s p => s.keyedPut (s.keyOf slot) p.1 p.2) s
  { s with poison := s.poison.filter (fun u => !whole u) }

/-- The compressed blocks of named bytes, in order. -/
def blocksOf (ws : List (Nat × Byte)) : List Nat :=
  ((ws.filter (fun p => decide (cmpBase ≤ p.1))).map (fun p => p.1 / 512 * 512)).eraseDups

/-- One write of named bytes of one page at the home, through the line `via` of its L2: each line or compressed block once (R290, R381),
nothing where a compressed block does not fit (R291), and nothing performed behind a link that is down (R384). -/
def State.homePut (s : State) (slot alloc : Nat) (via : Option LineId) (ws : List (Nat × Byte)) : Option State :=
  match ws with
  | [] => some s
  | (x, _) :: _ =>
    if s.linkLost x then some s
    else
      let s := s.prompt none (ws.map (·.1))
      if cmpBase ≤ x then (blocksOf ws).foldlM (fun s b => s.putBlock slot alloc b ws) s
      else some ((s.putPlain slot ws).reachDirty ⟨x, slot, alloc⟩ via)

/-- Poison the memory behind a named byte (R383). -/
def State.poisonHome (s : State) (slot alloc x : Nat) : State :=
  let us := if cmpBase ≤ x then s.blockUnits (s.keyOf slot) (homeKey x) alloc (blockOf x) else [x / 64]
  { s with poison := us ++ s.poison.filter (fun u => !us.contains u) }

/-- Cut `n` bytes from `x` into runs that stay within units of `u` bytes. -/
def cutBy (u : Nat) : Nat → Nat → Nat → List (Nat × Nat)
  | 0, _, _ => []
  | f + 1, x, n =>
    if n = 0 then []
    else
      let c := Nat.min n (u - x % u)
      (x, c) :: cutBy u f (x + c) (n - c)

/-- Cut `n` bytes from `x` into runs that stay within 64-byte units. -/
def cutRun (f x n : Nat) : List (Nat × Nat) := cutBy 64 f x n

end Sys2Proof.Machine
end

