-- ==== Sys2Proof/Machine/Coherence.lean ====
section
/-! DEFINITION. Lines in an L1, leases, dirty bytes, poison in copies, directory ranges, release marks (spec 14 R201 to R207, 15 R214 to
R228, 16 R235 to R238, 19 R274, 26 R383, R384). -/

namespace Sys2Proof.Machine

open Sys2Proof

/-! ## Serial time (R219, R222) -/

/-- Dist(a, b). -/
def dist (a b : BitVec 16) : Nat := (b - a).toNat

/-- Later(a, b). -/
def later (a b : BitVec 16) : BitVec 16 := if dist a b < 2 ^ 15 then b else a

/-- hts of a home. -/
def State.htsOf (s : State) (h : Nat) : BitVec 16 :=
  if p : h < 4 then s.hts[h] else (assoc s.remoteHts h).getD 0

/-- ExpireOld (R222). -/
def expireOld (l : LineStamp) (hts : BitVec 16) : LineStamp :=
  if 2 ^ 14 < dist l.rts hts then { l with wts := hts, rts := hts } else l

/-- A home applies ExpireOld to its L lines (R222). -/
def State.sweepHome (s : State) (h : Nat) : State :=
  { s with stamps := s.stamps.map (fun l => if homeId l.pa = h then expireOld l (s.htsOf h) else l) }

/-- Set hts of a home, which sweeps its lines at every multiple of 2^13 that hts passes (R222, entry 68). -/
def State.setHts (s : State) (h : Nat) (v : BitVec 16) : State :=
  let old := s.htsOf h
  let s := if p : h < 4 then { s with hts := s.hts.set h v } else { s with remoteHts := assocSet s.remoteHts h v }
  if old.toNat / 2 ^ 13 = v.toNat / 2 ^ 13 then s else s.sweepHome h

/-- A hearth drops the L copies that a thread's clock has left 2^14 ticks behind since their fill (R222). -/
def State.dropAged (s : State) (hearth tid : Nat) (pts : BitVec 16) : State :=
  { s with l1 := s.l1.filter (fun l => !(decide (l.hearth = hearth) && decide (l.treat = 1) &&
      l.born.any (fun b => decide (b.1 = tid) && decide (2 ^ 14 ≤ dist b.2 pts)))) }

/-- Set the current thread's clock. -/
def State.setPts (s : State) (v : BitVec 16) : State :=
  { s with thr := { s.thr with pts := v } }.dropAged s.thr.hearth s.thr.tid v

/-! ## Happens before (R235, R236): what the writes to L lines that an agent knows of rule out -/

/-- The number of the last write of an agent. -/
def Known.count (k : Known) (a : Nat) : Nat := (assoc k a).getD 0

/-- Both. -/
def Known.join (a b : Known) : Known := b.foldl (fun k p => assocSet k p.1 (Nat.max (Known.count k p.1) p.2)) a

/-- Whether one of the missed writes is known. -/
def Known.hits (k missed : Known) : Bool := missed.any (fun p => decide (p.2 ≤ Known.count k p.1))

/-- A thread, and the engines of a gang, as writers. -/
def threadAgent (tid : Nat) : Nat := 2 * tid + 2
def engineAgent (gid : Nat) : Nat := 2 * gid + 1

/-- Every write so far, those that copies have missed of threads and gangs that are gone among them. -/
def State.allWrites (s : State) : Known :=
  (0, s.writes) :: s.threads.map (fun t => (threadAgent t.tid, s.writes)) ++ s.gangs.map (fun g => (engineAgent g.gid, s.writes))
    ++ ((s.l1.map (·.missed)).flatten.map (fun p => (p.1, s.writes))).eraseDups

/-- What a thread knows, its own writes among it. -/
def State.knownOf (s : State) (t : Thread) : Known := assocSet t.known (threadAgent t.tid) s.writes

/-- What a gang's threads and engines know (R233, R234). -/
def State.gangKnown (s : State) (g : Nat) : Known :=
  (s.gangThreads g).foldl (fun k t => k.join (s.knownOf t)) [(engineAgent g, s.writes)]

/-- A hearth drops its copies of L lines, as R222 lets it at any time. -/
def State.dropLeases (s : State) (hearth : Nat) : State :=
  { s with l1 := s.l1.filter (fun l => decide (l.hearth ≠ hearth) || decide (l.treat ≠ 1)) }

/-- A hearth drops the L copies that have missed a write it must see (R236, entry 26). -/
def State.dropMissed (s : State) (hearth : Nat) (k : Known) : State :=
  { s with l1 := s.l1.filter (fun l => !(decide (l.hearth = hearth) && decide (l.treat = 1) && k.hits l.missed)) }

/-- The current thread's next access happens after the writes of `k`. -/
def State.learn (s : State) (k : Known) : State :=
  let k := s.thr.known.join k
  { s with thr := { s.thr with known := k } }.dropMissed s.thr.hearth k

/-- An agent's write of named bytes to L lines: copies that hold one of them have missed it until they take it. -/
def State.missWrite (s : State) (agent : Nat) (xs : List Nat) (holds : L1Line → List Nat → Bool) : State :=
  let n := s.writes + 1
  { s with
    writes := n
    l1 := s.l1.map (fun l => if l.treat = 1 ∧ holds l xs ∧ ¬ l.missed.any (fun p => decide (p.1 = agent)) then
      { l with missed := (agent, n) :: l.missed } else l) }

/-! ## Lines (R201, R202) -/

/-- Position of a named byte that a held line has. -/
def L1Line.at? (l : L1Line) (x : Nat) : Option Nat :=
  (l.id.index x).filter (fun k => l.col || !l.gone.getLsbD (k / 64))

/-- An S line. -/
def L1Line.soft (l : L1Line) : Bool := decide (l.treat = 2)

/-- Put byte `k` of a held line. -/
def L1Line.put (l : L1Line) (k : Nat) (b : Byte) : L1Line :=
  { l with data := (l.data &&& ~~~(255#1024 <<< (8 * k))) ||| (b.zeroExtend 1024 <<< (8 * k)) }

/-- Set or clear dirty bit `k`. -/
def L1Line.mark (l : L1Line) (k : Nat) (d : Bool) : L1Line :=
  { l with dirty := if d then l.dirty ||| (1#128 <<< k) else l.dirty &&& ~~~(1#128 <<< k) }

/-- A held line takes the bytes among `ws` that it holds, dirty or clean as `d` says (R206). -/
def L1Line.take (l : L1Line) (d : Bool) : List (Nat × Byte) → L1Line
  | [] => l
  | (x, b) :: r =>
    match l.at? x with
    | none => l.take d r
    | some k => ((l.put k b).mark k d).take d r

/-- Whether a held line has any of the named bytes. -/
def L1Line.holds (l : L1Line) (xs : List Nat) : Bool := xs.any (fun x => (l.at? x).isSome)

/-- The range that a held line's grant covers (R216, R228). -/
def L1Line.range (l : L1Line) : Range :=
  if l.col then ⟨l.pa, 128, 128 / l.width, l.width⟩
  else if l.gone = 1 then ⟨l.pa + 64, 1, 1, 64⟩ else if l.gone = 2 then ⟨l.pa, 1, 1, 64⟩ else ⟨l.pa, 1, 1, 128⟩

/-- Change the lines a hearth holds under a key slot. -/
def State.mapL1 (s : State) (hearth slot : Nat) (f : L1Line → L1Line) : State :=
  { s with l1 := s.l1.map (fun l => if l.hearth = hearth ∧ l.slot = slot then f l else l) }

/-- The copy a hearth holds of a line. -/
def State.held (s : State) (hearth slot : Nat) (id : LineId) : Option L1Line :=
  s.l1.find? (fun l => decide (l.hearth = hearth) && decide (l.slot = slot) && decide (l.id = id))

/-- The copy a hearth holds of a line, where it has the named byte. -/
def State.heldAt (s : State) (hearth slot : Nat) (id : LineId) (x : Nat) : Option L1Line :=
  (s.held hearth slot id).filter (fun l => (l.at? x).isSome)

/-- A copy of this hearth in which the byte named `x` is dirty. -/
def State.dirtyLine (s : State) (hearth slot x : Nat) : Option L1Line :=
  s.l1.find? (fun l => decide (l.hearth = hearth) && decide (l.slot = slot) &&
    (match l.at? x with | some k => l.dirty.getLsbD k | none => false))

/-- The byte a held line of this hearth gives for name `x` where it is dirty there. -/
def State.dirtyByte (s : State) (hearth slot x : Nat) : Option Byte :=
  (s.dirtyLine hearth slot x).bind (fun l => (l.at? x).map l.byte)

/-- The home's bytes of a line, name by name. -/
def State.lineBytes (s : State) (id : LineId) (slot alloc : Nat) : Option (List (Nat × Byte)) :=
  let step := if id.col then id.width else 128
  (List.range (128 / step)).foldl (fun acc j =>
    match acc, s.homeRead ⟨id.byteAt (j * step), slot, alloc⟩ step with
    | some l, some bs => some (l ++ names (id.byteAt (j * step)) bs)
    | _, _ => none) (some [])

/-! ## Poison in copies (R383) -/

/-- Whether a byte of a hearth's copies is poisoned. -/
def State.badByte (s : State) (hearth slot x : Nat) : Bool :=
  s.l1bad.any (fun b => decide (b.hearth = hearth) && decide (b.slot = slot) && decide (b.x = x))

/-- Poison comes to bytes of a hearth's copies. -/
def State.poisonCopies (s : State) (hearth slot : Nat) (xs : List Nat) : State :=
  { s with l1bad := xs.map (fun x => ⟨hearth, slot, x, true⟩) ++
      s.l1bad.filter (fun b => !(decide (b.hearth = hearth) && decide (b.slot = slot) && xs.contains b.x)) }

/-- Stores to bytes of a hearth's copies: a unit all of whose poisoned bytes have been written is clean. -/
def State.writeCopies (s : State) (hearth slot : Nat) (xs : List Nat) : State :=
  let mine := fun (b : BadByte) => decide (b.hearth = hearth) && decide (b.slot = slot)
  let l := s.l1bad.map (fun b => if mine b && xs.contains b.x then { b with due := false } else b)
  { s with l1bad := l.filter (fun b => !mine b || l.any (fun c => mine c && decide (c.x / 64 = b.x / 64) && c.due)) }

/-- Clean bytes that came from the home: their poison is the home's. -/
def State.fillPoison (s : State) (hearth slot alloc : Nat) (clean : List Nat) : State :=
  if s.l1bad = [] ∧ s.poison = [] ∧ s.linksDown = [] ∧ clean.all (fun x => decide (homeKey x < poolBase) || decide (2 ^ 52 ≤ homeKey x)) then s
  else
    let bad := ((clean.map (· / 64)).eraseDups.filter (fun u => s.poisoned ⟨u * 64, slot, alloc⟩ 64)).map
      (fun u => (List.range 64).map (u * 64 + ·))
    let s := { s with l1bad := s.l1bad.filter (fun b => !(decide (b.hearth = hearth) && decide (b.slot = slot) && clean.contains b.x)) }
    s.poisonCopies hearth slot (bad.flatten.filter (fun x => (s.dirtyByte hearth slot x).isNone))

/-- Poison of bytes whose unit no copy of the hearth holds any more is forgotten. -/
def State.sweepBad (s : State) : State :=
  { s with l1bad := s.l1bad.filter (fun b => s.l1.any (fun l => decide (l.hearth = b.hearth) && decide (l.slot = b.slot) &&
      l.holds ((List.range 64).map (b.x / 64 * 64 + ·)))) }

/-! ## Release marks (R223, R235) -/

/-- The marks that overlap a run. -/
def relsOf (l : List Release) (x n : Nat) : List Release := l.filter (fun r => decide (r.x < x + n) && decide (x < r.x + r.n))

/-- The parts of a mark that lie outside a run. -/
def Release.outside (r : Release) (x n : Nat) : List Release :=
  let b := Nat.max r.x (x + n)
  (if r.x < x then [{ r with n := Nat.min r.n (x - r.x) }] else []) ++ (if b < r.x + r.n then [{ r with x := b, n := r.x + r.n - b }] else [])

/-- The marks outside a run. -/
def relsOff (l : List Release) (x n : Nat) : List Release := l.flatMap (·.outside x n)

/-- The marks outside the named bytes. -/
def relsCut (l : List Release) (xs : List Nat) : List Release := xs.foldl (fun l x => relsOff l x 1) l

/-- What marks say of the writes before their values. -/
def relsKnown (l : List Release) : Known := l.foldl (fun k r => k.join r.known) []

/-- What they say of those and of the writes before releases that stores have written over since (R235). -/
def relsAll (l : List Release) : Known := l.foldl (fun k r => (k.join r.known).join r.past) []

/-- The marks `l` after a plain write of a run, with the mark `own` that it leaves: the stamps there are cleared (R223), and what the releases
there gave is kept for an atomic that follows (R235). -/
def plainOver (x n : Nat) (own : Option Release) (l : List Release) : List Release :=
  let past := relsAll (relsOf l x n)
  match own with
  | some r => { r with past := past } :: relsOff l x n
  | none => if past = [] then relsOff l x n else ⟨x, n, none, [], past⟩ :: relsOff l x n

/-- The marks `l` with the marks `ms` in place of those of a run. -/
def marksOver (x n : Nat) (ms l : List Release) : List Release := ms ++ relsOff l x n

/-- A plain write at the home, with its own mark. -/
def State.plainMark (s : State) (x n : Nat) (own : Option Release) : State := { s with releases := plainOver x n own s.releases }

/-- What a plain store of the current thread publishes after a FENCE, with what its acquires since then have brought (R235). -/
def State.fencedKnown (s : State) : Option Known := s.thr.fenced.map (fun k => k.join s.thr.known)

/-- The mark of a plain write of the current thread; after a FENCE it counts as a release (R235). -/
def State.fencedMark (s : State) (x n : Nat) : Option Release := s.fencedKnown.map (fun k => ⟨x, n, none, k, []⟩)

/-- The marks after a write of clock `t` that follows the marks `before` as an atomic: they stay, raised; after a FENCE it leaves a mark of its
own (R223, R235). -/
def keptMarks (x n : Nat) (before : List Release) (t : BitVec 16) (fenced : Option Known) : List Release :=
  if before = [] ∧ fenced = none then []
  else
    let stamps := before.filterMap (·.stamp)
    [⟨x, n, if stamps = [] then none else some (stamps.foldl later t), (relsAll before).join (fenced.getD []), []⟩]

/-- The mark of a release of clock `t` that writes a run; as an atomic it keeps and raises the marks `before` (R223).  It keeps no scope:
an acquire that the release does not cover learns all the same (entry 26). -/
def Release.of (x n : Nat) (before : List Release) (t : BitVec 16) (k : Known) : Release :=
  ⟨x, n, some ((before.filterMap (·.stamp)).foldl later t), (relsAll before).join k, []⟩

/-- An atomic that is such a release, at the home. -/
def State.releaseMark (s : State) (x n : Nat) (before : List Release) (t : BitVec 16) (k : Known) : State :=
  { s with releases := marksOver x n [.of x n before t k] s.releases }

/-- What a write of `n` bytes at `x` by a hearth makes of the marks there: with the bytes, in the hearth's copies where it holds them dirty under S,
at the home else, and then in the hearth's copies as well (R223, R225). -/
def State.placeMarks (s : State) (hearth slot x n : Nat) (soft : Bool) (f : List Release → List Release) : State :=
  let s := if soft && (s.dirtyByte hearth slot x).isSome then s else { s with releases := f s.releases }
  s.mapL1 hearth slot (fun l => if l.holds ((List.range n).map (x + ·)) then { l with rels := f l.rels } else l)

/-- The clock of a reader that acquires the element at `x` with these marks: a stamp more than 2^14 behind hts reads as hts. -/
def State.acquireClock (s : State) (x : Nat) (ms : List Release) (clk : BitVec 16) : BitVec 16 :=
  let h := s.htsOf (homeId x)
  (ms.filterMap (·.stamp)).foldl (fun c st => later c (if 2 ^ 14 < dist st h ∧ dist st h < 2 ^ 15 then h else st)) clk

/-! ## Filling a line (R6, R220, R238) -/

/-- A new line before its bytes come. -/
def L1Line.blank (hearth slot alloc : Nat) (id : LineId) (treat : Nat) (retain : Bool) (rts : BitVec 16) (asid : BitVec 10) (va : Nat) :
    L1Line :=
  { hearth := hearth, pa := id.pa, col := id.col, width := id.width, slot := slot, alloc := alloc, treat := treat, retain := retain
    data := 0, dirty := 0, gone := 0, rts := rts, asid := asid, va := va, born := [], rels := [], missed := [], owners := [] }

/-- The marks of a line's bytes. -/
def State.relsIn (s : State) (l : L1Line) : List Release := s.releases.filter (fun r => l.holds ((List.range r.n).map (r.x + ·)))

/-- Bytes at the home become those of the copies of a hearth that hold them, clean and with their marks. -/
def State.copyBytes (s : State) (hearth slot : Nat) (ws : List (Nat × Byte)) : State :=
  let xs := ws.map (·.1)
  s.mapL1 hearth slot (fun l =>
    if l.holds xs then
      let l := l.take false ws
      { l with rels := relsCut l.rels xs ++ s.releases.filter (fun r => xs.any (fun x => decide (r.x ≤ x) && decide (x < r.x + r.n))) }
    else l)

/-- Bytes read at the home become those of the hearth's copies where these are clean. -/
def State.showBytes (s : State) (hearth slot : Nat) (ws : List (Nat × Byte)) : State :=
  s.copyBytes hearth slot (ws.filter (fun p => (s.dirtyByte hearth slot p.1).isNone))

/-- The marks that a line's bytes come with when it is filled: those of the home, but those of the hearth's copies for the bytes it holds
dirty. -/
def State.fillMarks (s : State) (new : L1Line) (dirty : List Nat) : List Release :=
  let off := fun (r : Release) => !dirty.any (fun x => decide (r.x ≤ x) && decide (x < r.x + r.n))
  (s.relsIn new).filter off ++
    ((dirty.filterMap (s.dirtyLine new.hearth new.slot)).map (fun l => l.rels.filter (fun r => !off r))).flatten.eraseDups

/-- Fill the line `new` from its home for a clock (R238): a dirty crossing byte wins over the home's, any other crossing byte takes the
filled value, and an L copy that crosses takes a later rts; one that has missed a write and run out for a thread of the hearth leaves instead
(R250).  An element that is dirty in part is mixed byte by byte (entry 97). -/
def State.fill (s : State) (new : L1Line) (clk : BitVec 16) : Option State :=
  let hearth := new.hearth
  let slot := new.slot
  (s.lineBytes new.id slot new.alloc).map (fun bs =>
    let dirty := (bs.map (·.1)).filter (fun x => (s.dirtyByte hearth slot x).isSome)
    let line := bs.foldl (fun (l : L1Line) p =>
      match s.dirtyByte hearth slot p.1, new.id.index p.1 with
      | some b, some k => (l.put k b).mark k true
      | none, some k => l.put k p.2
      | _, none => l) new
    let line := { line with
      gone := 0, missed := [], owners := ((dirty.filterMap (s.dirtyLine hearth slot)).map (·.owners)).flatten.eraseDups
      rels := s.fillMarks { new with gone := 0 } dirty
      born := (s.threads.filter (fun t => t.live && decide (t.hearth = hearth))).map (fun t => (t.tid, t.pts)) }
    let clean := bs.filter (fun p => (s.dirtyByte hearth slot p.1).isNone)
    let xs := clean.map (·.1)
    let clocks := clk :: line.born.map (·.2)
    let s := { s with l1 := s.l1.filter (fun l => !(decide (l.hearth = hearth) && decide (l.slot = slot) && (decide (l.id = new.id) ||
      decide (l.treat = 1) && l.holds xs && clocks.any (fun c => decide (2 ^ 14 < dist c l.rts)) && decide (l.missed ≠ [])))) }
    let s := (s.showBytes hearth slot clean).mapL1 hearth slot (fun l =>
      if l.treat = 1 ∧ l.holds xs then { l with rts := later l.rts new.rts } else l)
    { s with l1 := line :: s.l1 }.fillPoison hearth slot new.alloc xs)

/-! ## Dirty bytes and leaving an L1 (R225, R226, R228) -/

/-- The dirty bytes of a held line among the names `p` picks. -/
def L1Line.dirtyNames (l : L1Line) (p : Nat → Bool) : List (Nat × Byte) :=
  ((List.range 128).filter (fun k => l.dirty.getLsbD k && p (l.id.byteAt k))).map (fun k => (l.id.byteAt k, l.byte k))

/-- ALLOC of the page a line lies in as its translation gives it now (R379). -/
def State.allocNow (s : State) (l : L1Line) : Nat :=
  if l.pa < cmpBase then l.alloc
  else
    match s.walk l.asid.toNat l.va with
    | .ok f => if f.cmp ∧ s.physKey f.home f.frame = homeKey l.pa then f.alloc else l.alloc
    | .error _ => l.alloc

/-! ## The error ring (R384, R385, R421) -/

/-- Whether a ring of a size with HEAD and TAIL takes no record (R421). -/
def ringFull (size head tail : Nat) : Bool :=
  !(decide (64 ≤ size) && decide (size ≤ 2 ^ 20)) || decide ((tail + 2 ^ 64 - head) % 2 ^ 64 = size)

/-- Append an error record, which `put` writes; a full or unusable ring counts it as dropped. -/
def State.errorRecordBy (put : State → Nat → List Byte → State) (s : State) (addr unit kind source : Nat) : State :=
  let b := s.bar0
  if ringFull b.ersize.toNat b.erhead.toNat b.ertail.toNat then { s with bar0 := { b with erdrop := b.erdrop + 1 } }
  else
    let r := leBytes 8 addr ++ leBytes 1 unit ++ leBytes 1 kind ++ leBytes 2 source ++ leBytes 8 s.ewin.toNat ++ List.replicate 12 0
    { put s (b.erbase.toNat + 32 * (b.ertail.toNat % b.ersize.toNat)) r with bar0 := { b with ertail := b.ertail + 1 } }

/-- A write of the device that recalls nothing: D copies of what it writes take it, L copies miss it, and WAITEVs that watch it look again
(R82). -/
def State.writeInPlace (s : State) (a : Nat) (bs : List Byte) : State :=
  let ws := names a bs
  let s := (((s.touchSpan a bs.length).keyedWrite none a bs).missWrite 0 (ws.map (·.1)) L1Line.holds).prompt none (ws.map (·.1))
  { s with l1 := s.l1.map (fun l => if l.treat = 0 ∧ l.slot = 0 then
      ws.foldl (fun (l : L1Line) p => match l.at? p.1 with | some k => l.put k p.2 | none => l) l else l) }

/-- A store lost with a link is logged (R384): the store's address, and the kind of a link that is down, of which R385 has no other for it; the
number of the Aeloa link to a device is free (entry 52). -/
def State.logLost (s : State) (x : Nat) : State :=
  let k := (linkOf x).getD 0
  let rec' := fun (s : State) (unit source : Nat) => State.errorRecordBy State.writeInPlace s (homeKey x % 2 ^ 52) unit 4 source
  if 1024 ≤ k then rec' s 8 ((k - 1024) % 256 * 4) else rec' { s with free := s.free + 1 } 7 (Config.recordField s.free % 2 ^ 16)

/-- Threads whose store to `x` a link that is down has lost (R384). -/
def State.loseStore (s : State) (tids : List Nat) (x : Nat) : State :=
  if s.linkLost x then { s with lost := s.lost ++ tids.map (fun t => (t, (linkOf x).getD 0)) }.logLost x else s

/-- Count an overflow (R291). -/
def State.countOverflow (s : State) (x : Nat) : State :=
  { s with czovf := bump s.czovf (if homeKey x < 2 ^ 52 then homeStack (homeKey x) else 4) }

/-- The controller of a block of a compressed page, by number. -/
def blockController (b : Nat) : Nat := controller (homeKey (cmpBase + 512 * b))

/-- Why an access to named bytes of compressed pages cannot be made yet: a block of them is locked, or the pending table of its controller is
full, whose stack is given (R290). -/
def State.namesBusy (s : State) (xs : List Nat) : Option (Option Nat) :=
  ((xs.filter (fun x => decide (cmpBase ≤ x))).map (fun x => (homeId x, (x - cmpBase) / 512))).eraseDups.findSome? (fun p =>
    if s.czPending.contains p then some none
    else if 32 ≤ (s.czPending.filter (fun q => decide (blockController q.2 = blockController p.2))).length then some (some p.1) else none)

/-- A refused request for a full table is counted. -/
def State.countRetry (s : State) (h : Option Nat) : State :=
  match h with
  | none => s
  | some h => { s with czretry := bump s.czretry h }

/-- Write back the dirty bytes of one held line that `p` picks and clear their dirty bits in every copy of the hearth; their release marks
(R223) and their poison (R383) go with them, what the home's marks there gave is kept for atomics that follow (R235), and bytes lost with a link are lost to the threads that wrote them (R384).  A line stays dirty
whose bytes do not fit their compressed page (entry 15), or wait for one of its blocks (R290). -/
def State.writeBack (s : State) (l : L1Line) (p : Nat → Bool) : State :=
  let ws := l.dirtyNames p
  let xs := ws.map (·.1)
  match s.namesBusy xs with
  | some h => s.countRetry h
  | none =>
    match s.homePut l.slot (s.allocNow l) (some l.id) ws with
    | none => s.countOverflow l.pa
    | some u =>
      let bad := xs.filter (s.badByte l.hearth l.slot)
      let u := bad.foldl (fun u x => u.poisonHome l.slot l.alloc x) u
      let hit := fun (r : Release) => xs.any (fun x => decide (r.x ≤ x) && decide (x < r.x + r.n))
      let gone := (u.releases.filter hit).filterMap (fun r => if relsAll [r] = [] then none else some ⟨r.x, r.n, none, [], relsAll [r]⟩)
      let u := if l.soft ∧ ws ≠ [] then { u with releases := (l.rels.filter hit ++ relsCut u.releases xs ++ gone).eraseDups } else u
      let u := u.mapL1 l.hearth l.slot (fun k => if k.holds xs then
        { k.take false ws with owners := k.owners.filter (fun o => !xs.contains o.1) } else k)
      if ws = [] then u
      else u.loseStore ((l.owners.filter (fun o => xs.contains o.1)).map (·.2)).eraseDups l.pa

/-- Drop a copy of a hearth, with its grant (R217). -/
def State.dropLine (s : State) (l : L1Line) : State :=
  { s with
    l1 := s.l1.filter (fun k => !(decide (k.hearth = l.hearth) && decide (k.slot = l.slot) && decide (k.id = l.id)))
    dir := if l.treat = 0 then s.dir.filter (fun e => !(decide (e.hearth = l.hearth) && decide (e.range = l.range))) else s.dir
  }.sweepBad

/-- Write back the dirty bytes of a copy, then drop it; one that cannot be written back stays (entry 15). -/
def State.evict (s : State) (l : L1Line) : State :=
  let u := s.writeBack l (fun _ => true)
  match u.held l.hearth l.slot l.id with
  | some k => if k.dirty = 0 then u.dropLine k else u
  | none => u

/-- Lines that an L1 holds: 1 MiB of 128 bytes (R6, R201). -/
def l1Lines : Nat := 8192

/-- Evict the first of these lines that can leave. -/
def State.evictOne (s : State) : List L1Line → Option State
  | [] => none
  | l :: r =>
    let u := s.evict l
    if (u.held l.hearth l.slot l.id).isNone then some u else u.evictOne r

/-- Room for one more line: in a full L1 a free line leaves, a retained one last (R29, entry 67); none where none can. -/
def State.makeRoom (s : State) (hearth : Nat) : Option State :=
  let mine := s.l1.filter (fun l => decide (l.hearth = hearth))
  if mine.length < l1Lines then some s
  else
    let turn := fun (l : List L1Line) => l.rotateLeft (Config.victim s.free)
    { s with free := s.free + 1 }.evictOne (turn (mine.filter (fun l => !l.retain)) ++ turn (mine.filter (·.retain)))

/-- Hold a line: in place of an old copy of it, or in room made for it; none where there is no room or its block is malformed. -/
def State.allocate (s : State) (new : L1Line) (clk : BitVec 16) : Option State :=
  (match s.held new.hearth new.slot new.id with
   | some _ => some s
   | none => s.makeRoom new.hearth).bind (fun s => s.fill new clk)

/-- The copies of a hearth under another key slot that hold a byte of a line. -/
def State.aliases (s : State) (hearth slot : Nat) (id : LineId) : List L1Line :=
  s.l1.filter (fun l => decide (l.hearth = hearth) && decide (l.slot ≠ slot) && l.holds ((List.range 128).map id.byteAt))

/-- They leave before the line is accessed: what was stored under one key is read deciphered under another (R380). -/
def State.unalias (s : State) (hearth slot : Nat) (id : LineId) : State :=
  (s.aliases hearth slot id).foldl (fun s l => match s.held l.hearth l.slot l.id with | some k => s.evict k | none => s) s

/-- Write back the dirty bytes a hearth holds of a line, in whatever copy (R258, R380). -/
def State.flush (s : State) (hearth slot : Nat) (id : LineId) : State :=
  let s := s.unalias hearth slot id
  (s.l1.filter (fun l => decide (l.hearth = hearth) && decide (l.slot = slot) && decide (l.dirty ≠ 0))).foldl
    (fun s l => match s.held hearth slot l.id with
      | some k => if k.dirtyNames (fun x => (id.index x).isSome) = [] then s else s.writeBack k (fun x => (id.index x).isSome)
      | none => s) s

/-! ## Leases (R219 to R222, R274) -/

/-- Timestamps of a line at its home; a line that enters the L2 takes hts (R222). -/
def State.stampOf (s : State) (id : LineId) : LineStamp :=
  let h := s.htsOf (homeId id.pa)
  (s.stamps.find? (fun l => decide (l.id = id))).getD ⟨id.pa, id.col, id.width, h, h⟩

/-- Put a line's timestamps. -/
def State.putStamp (s : State) (l : LineStamp) : State :=
  { s with stamps := l :: s.stamps.filter (fun k => decide (k.id ≠ l.id)) }

/-- One store of R221 to the lines `ls`: t from the clock and each line's rts; every line takes wts = rts = t, and the hts of its own home
follows.  Bytes are written by the caller. -/
def State.stampLines (s : State) (ls : List LineId) (clk : BitVec 16) : BitVec 16 × State :=
  let ls := ls.map (fun k => expireOld (s.stampOf k) (s.htsOf (homeId k.pa)))
  let t := ls.foldl (fun t l => later t (l.rts + 1)) clk
  (t, ls.foldl (fun s l => (s.putStamp { l with wts := t, rts := t }).setHts (homeId l.pa) (later (s.htsOf (homeId l.pa)) t)) s)

/-- A load of an L line at its home with a lease of `ticks` for clock `clk` (R220); the new clock and the state, the
line's rts standing in its stamp.  The home of a column line of pool memory is its first element's stack (entry 70). -/
def State.leaseLoad (s : State) (id : LineId) (ticks : Nat) (clk : BitVec 16) : BitVec 16 × State :=
  let h := s.htsOf (homeId id.pa)
  let l := expireOld (s.stampOf id) h
  let lt : BitVec 16 := BitVec.ofNat 16 ticks
  let l := { l with rts := later (later l.rts (l.wts + lt)) (clk + lt) }
  (later clk l.wts, (s.putStamp l).setHts (homeId id.pa) (later h l.rts))

/-- A load at the home that takes no lease (R258, R280). -/
def State.homeLoadClock (s : State) (id : LineId) (clk : BitVec 16) : BitVec 16 × State :=
  let l := expireOld (s.stampOf id) (s.htsOf (homeId id.pa))
  (later clk l.wts, s.putStamp l)

/-- The lines at the home that hold any of the named bytes, the accessed line among them. -/
def State.linesWith (s : State) (id : LineId) (xs : List Nat) : List LineId :=
  id :: ((s.stamps.map LineStamp.id).filter (fun k => decide (k ≠ id) && xs.any (fun x => (k.index x).isSome)))

/-- The one store of R221 and R274 through line `id`: every line that holds a written byte is stamped. -/
def State.leaseStore (s : State) (id : LineId) (xs : List Nat) (clk : BitVec 16) : BitVec 16 × State := s.stampLines (s.linesWith id xs) clk

/-- The issuing hearth's L copies of written lines take the data and rts = t (R221); one that has missed a write takes all its bytes
from the home anew, so that no older byte becomes valid again (R236, R250). -/
def State.refreshLease (s : State) (hearth slot : Nat) (ws : List (Nat × Byte)) (t : BitVec 16) : State :=
  (s.l1.filter (fun l => decide (l.hearth = hearth) && decide (l.slot = slot) && decide (l.treat = 1) && l.holds (ws.map (·.1)))).foldl
    (fun s l =>
      if l.missed = [] then
        (s.mapL1 hearth slot (fun k => if k.id = l.id then { k.take false ws with rts := t, rels := s.relsIn k } else k))
      else
        match s.fill { l with alloc := s.allocNow l, rts := t } t with
        | some u => u
        | none => s.dropLine l) s

/-- One write of R221 by agent `agent` through line `id`, already made at the home: its time, the copies it has passed by, and the
issuing hearth's copies. -/
def State.leasePut (s : State) (agent hearth slot : Nat) (id : LineId) (ws : List (Nat × Byte)) (clk : BitVec 16) : BitVec 16 × State :=
  let xs := ws.map (·.1)
  let (t, s) := s.leaseStore id xs clk
  let mine := fun (l : L1Line) => decide (l.hearth = hearth) && decide (l.slot = slot) && decide (l.missed = [])
  (t, (s.missWrite agent xs (fun l xs => !mine l && l.holds xs)).refreshLease hearth slot ws t)

/-! ## The directory (R216 to R218) -/

/-- The range of an access (R216). -/
def rangeOf (id : LineId) (ori : Bool) (w : Nat) : Range :=
  if id.col then ⟨id.pa, 128, 128 / id.width, id.width⟩
  else if ori then ⟨id.pa, w, 128 / w, w⟩ else ⟨id.pa, 1, 128, 1⟩

/-- A range whose elements touch is one run. -/
def Range.norm (r : Range) : Range := if r.stride = r.width then ⟨r.base, 1, 1, r.count * r.width⟩ else r

/-- Whether two ranges share a byte (R216). -/
def Range.overlaps (a b : Range) : Bool :=
  let a := a.norm
  let b := b.norm
  (List.range a.count).any (fun i => (List.range b.count).any (fun j =>
    decide (a.base + i * a.stride < b.base + j * b.stride + b.width) && decide (b.base + j * b.stride < a.base + i * a.stride + a.width)))

/-- Whether a range lies in another: it is the same, or both are runs. -/
def Range.within (a b : Range) : Bool :=
  decide (a = b) || (decide (a.count = 1) && decide (b.count = 1) && decide (b.base ≤ a.base) && decide (a.base + a.width ≤ b.base + b.width))

/-- A requester: hearth, thread, and the thread's HEARTH value. -/
structure Asker where
  hearth : Nat
  thread : Nat
  value : Nat
  deriving DecidableEq, Repr

/-- Whether the home refuses a request: an overlapping range is in transition, or reserved for another (R218). -/
def State.refuses (s : State) (r : Range) (a : Asker) : Bool :=
  s.moving.any (fun m => m.2.overlaps r) || s.requests.any (fun q => q.reserved && decide (q.thread ≠ a.thread) && q.range.overlaps r)

/-- The device recalls one half from one copy (R228): a row line's half leaves; a column line, and a line of a compressed page that
has a sector there, leave whole. -/
def State.recallHalf (s : State) (half : Nat) (l : L1Line) : State :=
  if cmpBase ≤ l.pa then
    if (s.units ⟨l.pa, l.slot, l.alloc⟩ 128).contains (half / 64) then s.evict l else s
  else if (List.range 128).all (fun k => decide (l.id.byteAt k / 64 ≠ half / 64)) then s
  else if l.col then s.evict l
  else
    let h := half / 64 % 2
    let u := s.writeBack l (fun x => decide (x / 64 = half / 64))
    { u with l1 := u.l1.map (fun k =>
        if k.hearth = l.hearth ∧ k.slot = l.slot ∧ k.id = l.id ∧ (k.dirty.toNat / 2 ^ (64 * h)) % 2 ^ 64 = 0 then
          { k with gone := k.gone ||| (1#2 <<< h) } else k) }

/-- Whether a granted range still has a dirty byte of a compressed page in a copy: its write-back does not fit, or its block is locked (R290,
R291, entry 15). -/
def State.unrecalled (s : State) (e : DirEntry) : Bool :=
  decide (cmpBase ≤ e.range.base) && s.l1.any (fun l => decide (l.hearth = e.hearth) && decide (l.treat = 0) &&
    decide (l.dirtyNames (fun x => e.range.overlaps ⟨x, 1, 1, 1⟩) ≠ []))

/-- Recall a granted range: the copies it covers are written back and removed, and so is the grant; of a line of which it covers one half, that
half (R217, R228), and the L2 of that hearth's stack gives up its copies of the range (R214).  What cannot be written back stays, and its grant
with it. -/
def State.recallEntry (s : State) (e : DirEntry) : State :=
  let s := s.dropNear (fun k => decide (k = stackOf e.hearth)) (fun x => e.range.overlaps ⟨x, 1, 1, 1⟩)
  let s := (s.l1.filter (fun l => decide (l.hearth = e.hearth) && decide (l.treat = 0))).foldl (fun s l =>
    if l.range.within e.range then s.evict l
    else if !l.col && e.range.within ⟨l.pa, 1, 1, 128⟩ then s.recallHalf (e.range.base / 64 * 64) l else s) s
  if s.unrecalled e then s else { s with dir := s.dir.filter (fun f => decide (f ≠ e)) }

/-- The overlapping ranges of other hearths that conflict: the exclusive ones with a read, all with a write (R217, R258).  Ranges of columns of
pool memory have bytes of several homes: what counts is a common byte (entry 70). -/
def State.conflictingRanges (s : State) (r : Range) (hearth : Nat) (write : Bool) : List DirEntry :=
  s.dir.filter (fun e => decide (e.hearth ≠ hearth) && (write || e.excl) && e.range.overlaps r)

/-- Recall them; before a write the L2s of other stacks give up what they hold of the range too (R214). -/
def State.recall (s : State) (r : Range) (hearth : Nat) (write : Bool) : State :=
  let s := if write then s.dropNear (fun k => decide (k ≠ stackOf hearth)) (fun x => r.overlaps ⟨x, 1, 1, 1⟩) else s
  (s.conflictingRanges r hearth write).foldl State.recallEntry s

/-- Whether one of them cannot be recalled yet, so that the home does not grant the request (R217, entry 15). -/
def State.recallStuck (s : State) (r : Range) (hearth : Nat) (write : Bool) : Bool :=
  !((s.recall r hearth write).conflictingRanges r hearth write).isEmpty

/-- Grant a range once every overlapping conflicting range of another hearth is recalled (R217).  A part that the hearth holds exclusively stays
so under a shared grant. -/
def State.grantRange (s : State) (r : Range) (home : Nat) (a : Asker) (excl : Bool) : State :=
  let r := r.norm
  let s := s.recall r a.hearth excl
  let excl := excl || s.dir.any (fun e => decide (e.hearth = a.hearth) && e.excl && r.within e.range)
  { s with dir := ⟨home, r, a.hearth, excl⟩ :: s.dir.filter (fun e => !(decide (e.hearth = a.hearth) && e.range.within r && (excl || !e.excl)))
           requests := s.requests.filter (fun q => decide (q.thread ≠ a.thread)) }

/-- Whether a hearth holds a range exclusively. -/
def State.holdsRange (s : State) (r : Range) (hearth : Nat) : Bool :=
  s.dir.any (fun e => decide (e.hearth = hearth) && e.excl && r.norm.within e.range)

/-- Whether a request is older than another: by its first refusal, then by HEARTH (R218). -/
def RangeReq.before (q p : RangeReq) : Bool := decide (q.first < p.first) || (decide (q.first = p.first) && decide (q.value < p.value))

/-- Record a refusal: the 8th makes the request starving, and a starving one takes one of the home's 16 reservations in
age order (R218). -/
def State.recordRefusal (s : State) (r : Range) (home : Nat) (a : Asker) (excl : Bool) : State :=
  let r := r.norm
  let old := s.requests.find? (fun q => decide (q.thread = a.thread) && decide (q.range = r))
  let k := (match old with | some q => q.refusals | none => 0) + 1
  let q : RangeReq := ⟨home, r, a.hearth, excl, a.thread, a.value, (match old with | some q => q.first | none => s.free), k, decide (8 ≤ k),
    match old with | some q => q.reserved | none => false⟩
  let used := (s.requests.filter (fun p => p.reserved && decide (p.home = home))).length
  let older := s.requests.any (fun p => p.starving && !p.reserved && decide (p.home = home) && decide (p.thread ≠ a.thread) && p.before q)
  let q := { q with reserved := q.reserved || (q.starving && decide (used < 16) && !older) }
  { s with requests := s.requests.filter (fun p => decide (p.thread ≠ a.thread)) ++ [q], free := s.free + 1 }

/-! ## Accesses at the home by indexed units, engines and the device (R207, R215, R258, R280) -/

/-- The bytes an access reads at its home; a run that cannot be read has been stopped before. -/
def State.homeGet (s : State) (r : Run) (n : Nat) : List Byte := (s.homeRead r n).getD (List.replicate n 0)

/-- For whom an access at the home is made: the issuing hearth, the agent that writes, the thread that a lost store is reported to. -/
structure Port where
  hearth : Nat
  agent : Nat
  tid : Nat
  deriving DecidableEq, Repr

/-- The current thread's. -/
def State.port (s : State) : Port := ⟨s.thr.hearth, threadAgent s.thr.tid, s.thr.tid⟩

/-- The line of the L2 that an access of a leaf goes through; none for a U page (R227). -/
def Leaf.via (l : Leaf) (id : LineId) : Option LineId := if l.treat = 3 then none else some id

/-- An access of a hearth's threads by line `id` to what its L1 does not serve: of a D page through the L2 of the hearth's stack (R214). -/
def State.reachLine (s : State) (hearth : Nat) (l : Leaf) (r : Run) (id : LineId) : State :=
  if l.treat = 0 then s.reachNear hearth r id else s.reach r (l.via id)

/-- A read at the home for a hearth and a clock (R258, R280). -/
def State.unitRead (s : State) (hearth : Nat) (l : Leaf) (va n : Nat) (clk : BitVec 16) : List Byte × BitVec 16 × State :=
  let r := s.runAt l va
  let id := lineOf r.x false 0
  let s := s.flush hearth r.slot id
  let s := if l.treat = 0 then s.recall (rangeOf id l.ori l.oriWidth) hearth false else s
  let bs := s.homeGet r n
  let (clk, s) := if l.treat = 1 then s.homeLoadClock id clk else (clk, s)
  (bs, clk, s.reach r (l.via id))

/-- A write at the home; none where a compressed page overflows (R258, R280).  Behind a link that is down nothing is performed (R384). -/
def State.unitWrite (s : State) (p : Port) (l : Leaf) (va : Nat) (bs : List Byte) (clk : BitVec 16) : Option (BitVec 16 × State) :=
  let r := s.runAt l va
  let id := lineOf r.x false 0
  let ws := names r.x bs
  if s.linkLost r.x then some (clk, s.loseStore [p.tid] r.x)
  else
    let s := s.flush p.hearth r.slot id
    let s := if l.treat = 0 then s.recall (rangeOf id l.ori l.oriWidth) p.hearth true else s
    (s.homePut r.slot r.alloc (l.via id) ws).map (fun s =>
      let s := s.plainMark r.x bs.length none
      if l.treat = 1 then s.leasePut p.agent p.hearth r.slot id ws clk else (clk, (s.copyBytes p.hearth r.slot ws).writeCopies p.hearth r.slot (ws.map (·.1))))

/-! ## The host and other agents outside the hearths (R221, R228) -/

/-- What is left of a granted range once a half is taken: the runs before and behind it; a range of columns goes whole (R228). -/
def DirEntry.without (e : DirEntry) (half : Nat) : List DirEntry :=
  let r := e.range.norm
  if ¬ r.overlaps ⟨half, 1, 1, 64⟩ then [e]
  else if r.count ≠ 1 then []
  else
    (if r.base < half then [{ e with range := ⟨r.base, 1, 1, half - r.base⟩ }] else [])
      ++ if half + 64 < r.base + r.width then [{ e with range := ⟨half + 64, 1, 1, r.base + r.width - (half + 64)⟩ }] else []

/-- An agent outside the hearths takes a half: D copies give it up, for the host S copies too, and the grants shrink; L copies run out by their
leases (R220, R225, R228). -/
def State.takeHalf (s : State) (host : Bool) (half : Nat) : State :=
  let u := (s.l1.filter (fun l => decide (l.treat = 0) || (host && decide (l.treat = 2)))).foldl (fun s l => s.recallHalf half l) s
  { u.dropNear (fun _ => true) (fun x => decide (x / 64 = half / 64)) with dir := u.dir.flatMap (fun e => e.without half) }

/-- The L lines that hold a byte of such a store take one time, and the copies have missed it (R221, R228). -/
def State.hostLease (s : State) (xs : List Nat) : State :=
  let ls := (s.stamps.filter (fun l => xs.any (fun x => (l.id.index x).isSome))).map LineStamp.id
  let s := s.missWrite 0 xs L1Line.holds
  if ls = [] then s else (s.stampLines ls (s.htsOf (homeId (xs.headD 0)))).2

/-- Cut `n` bytes from `x` into the runs of the lines they lie in. -/
def lineRuns (x n : Nat) : List (Nat × Nat) := cutBy 128 (n + 1) x n

/-- A write of plain bytes at the home by an agent outside the package's hearths: a store of the host, of the front-end or of another device
(R123, R221, R228). -/
def State.outsideWrite (s : State) (host : Bool) (x : Nat) (bs : List Byte) : State :=
  let n := bs.length
  let u := (List.range ((x % 64 + n + 63) / 64)).foldl (fun s k => s.takeHalf host ((x / 64 + k) * 64)) s
  let u := u.hostLease ((List.range n).map (x + ·))
  (lineRuns x n).foldl (fun u p =>
    ((u.homePut 0 0 (some (lineOf p.1 false 0)) (names p.1 ((bs.drop (p.1 - x)).take p.2))).getD u).plainMark p.1 p.2 none) u

end Sys2Proof.Machine
end

