-- ==== Sys2Proof/Machine/Race.lean ====
section
/-! DEFINITION. The race detector (spec 15 R229 to R232, 27 R398, 30 R420, R421) and scopes (spec 16 R233). -/

namespace Sys2Proof.Machine

open Sys2Proof

/-- Identity of a thread as a writer (R229). -/
def State.writerOf (s : State) (t : Thread) : WriterId := ⟨t.asid, s.devnum, BitVec.ofNat 10 t.hearthReg⟩

/-- The soot record of a sector, none where the sector lies outside the range (R420, R421). -/
def State.sootAddr (s : State) (p : Nat) : Option Nat :=
  let sec := p / 32 * 32
  if s.bar0.sootlo.toNat ≤ sec ∧ sec < s.bar0.sootlo.toNat + s.bar0.sootlen.toNat then
    some (s.bar0.sootbase.toNat + (sec - s.bar0.sootlo.toNat) / 4)
  else none

/-- A soot record's fields (R229). -/
structure Soot where
  writer : WriterId
  scope : Nat
  valid : Bool
  atom : Bool
  iv : BitVec 29
  deriving DecidableEq, Repr

def Soot.ofWord (v : Nat) : Soot :=
  { writer := ⟨BitVec.ofNat 10 (v / 2 ^ 54), BitVec.ofNat 10 (v / 2 ^ 44), BitVec.ofNat 10 (v / 2 ^ 34)⟩
    scope := bits v 33 31, valid := decide (bits v 30 30 = 1), atom := decide (bits v 29 29 = 1), iv := BitVec.ofNat 29 v }

def Soot.word (r : Soot) : Nat :=
  r.writer.asid.toNat * 2 ^ 54 + r.writer.dev.toNat * 2 ^ 44 + r.writer.hearth.toNat * 2 ^ 34 + r.scope * 2 ^ 31
    + (if r.valid then 2 ^ 30 else 0) + (if r.atom then 2 ^ 29 else 0) + r.iv.toNat

/-- Whether a scope covers the current thread and a writer (R233). -/
def State.covers (s : State) (scope : Nat) (w : WriterId) : Bool :=
  let me := s.writerOf s.thr
  match scope with
  | 0 => decide (w = me)
  | 1 => (s.gangThreads s.thr.gang).any (fun t => decide (s.writerOf t = w))
  | 2 => decide (w.dev = me.dev) && decide (w.hearth.toNat / 256 = me.hearth.toNat / 256)
  | 3 => decide (w.dev = me.dev)
  | _ => true

/-- The current thread's acquired entry for a writer (R230). -/
def State.entryFor (s : State) (w : WriterId) : Option (BitVec 29 × Bool) :=
  match (s.gangThreads s.thr.gang).find? (fun t => decide (s.writerOf t = w)) with
  | some t => (s.thr.acqGang[t.index]?).getD none
  | none => (s.thr.acqOther.find? (fun e => decide (e.1 = w))).map (·.2)

/-- Raise an entry: the later interval in 29-bit serial time, with the coverage of the release it came from. -/
def later29 (old : Option (BitVec 29 × Bool)) (iv : BitVec 29) (covered : Bool) : BitVec 29 × Bool :=
  match old with
  | none => (iv, covered)
  | some e => if e.1 = iv then (iv, e.2 || covered) else if (iv - e.1).toNat < 2 ^ 28 then (iv, covered) else e

/-- Raise the current thread's entry for a writer to `iv`; the other-thread entries are replaced least recently used
first (R230). -/
def State.raiseEntry (s : State) (w : WriterId) (iv : BitVec 29) (covered : Bool) : State :=
  if w = s.writerOf s.thr then s
  else
    match (s.gangThreads s.thr.gang).find? (fun t => decide (s.writerOf t = w)) with
    | some t =>
      { s with thr := { s.thr with
          acqGang := s.thr.acqGang.set t.index (some (later29 ((s.thr.acqGang[t.index]?).getD none) iv covered)) } }
    | none =>
      let old := (s.thr.acqOther.find? (fun e => decide (e.1 = w))).map (·.2)
      { s with thr := { s.thr with
          acqOther := ((w, later29 old iv covered) :: s.thr.acqOther.filter (fun e => decide (e.1 ≠ w))).take 8 } }

/-- A release operation raises SIV (R230). -/
def State.bumpSiv (s : State) : State := { s with thr := { s.thr with siv := s.thr.siv + 1 } }

/-- An access as the detector sees it. -/
structure RaceAccess where
  use : Use
  scope : Nat
  deriving DecidableEq, Repr

/-- Whether an access of the current thread conflicts with a record (R231). -/
def State.conflicts (s : State) (a : RaceAccess) (r : Soot) : Bool :=
  r.valid && decide (r.writer ≠ s.writerOf s.thr) &&
    !(match s.entryFor r.writer with
      | some e => e.2 && decide (1 ≤ (e.1 - r.iv).toNat) && decide ((e.1 - r.iv).toNat < 2 ^ 28)
      | none => false) &&
    !(decide (a.use = .atomic) && r.atom && s.covers a.scope r.writer && s.covers r.scope r.writer)

/-- A word of the race log's memory as the device reads it. -/
def State.logRead (s : State) (l : Leaf) (va n : Nat) : Nat := leNat (s.unitRead s.thr.hearth l va n 0).1

/-- A write of the device to the race log, under the store rule of its page from the clock of its home (R221, R223); the clock of the
write. -/
def State.logWrite (s : State) (l : Leaf) (va : Nat) (bs : List Byte) (clk : BitVec 16) : BitVec 16 × State :=
  (s.unitWrite ⟨s.thr.hearth, 0, s.thr.tid⟩ l va bs clk).getD (clk, s)

/-- Append a race-log entry for the current thread's ASID (R231, R398): the entry, then TAIL as a release.  The descriptor and its
entries are reached in that ASID at supervisor privilege; where they cannot be reached the entry is dropped (entry 22).  Where ASID, DEV, HEARTH and
kind stand in bytes 23:16 is entry 91. -/
def State.raceLog (s : State) (va : Word) (soot : Nat) (a : RaceAccess) : State :=
  match assoc s.raceLogs s.thr.asid.toNat with
  | none => s
  | some d =>
    let asid := s.thr.asid.toNat
    match s.walk asid d.toNat with
    | .error _ => s
    | .ok l =>
      let get := fun (o n : Nat) => s.logRead l (d.toNat + o) n
      let n := get 8 4
      let head := get 0x10 8
      let tail := get 0x18 8
      let clk := s.htsOf (homeId (s.ident l (d.toNat + 0x18)))
      if (tail + 2 ^ 64 - head) % 2 ^ 64 = n then (s.logWrite l (d.toNat + 0x20) (leBytes 8 (get 0x20 8 + 1)) clk).2
      else
        let e := get 0 8 + 32 * (tail % n)
        match s.walk asid e with
        | .error _ => s
        | .ok le =>
          let me := s.writerOf s.thr
          let kind := match a.use with | .store => 1 | .atomic => 2 | _ => 0
          let who := me.asid.toNat + me.dev.toNat * 2 ^ 10 + me.hearth.toNat * 2 ^ 20 + kind * 2 ^ 30
          let bs := leBytes 8 va.toNat ++ leBytes 8 soot ++ leBytes 8 who ++ leBytes 8 s.thr.pc.toNat
          let (clk, s) := s.logWrite le e bs clk
          let (clk, s) := s.logWrite l (d.toNat + 0x18) (leBytes 8 (tail + 1)) clk
          let x := s.ident l (d.toNat + 0x18)
          s.plainMark x 8 (some (.of x 8 [] clk ((s.knownOf s.thr).join [(0, s.writes)])))

/-- Why the race log of the current thread's ASID cannot be reached yet: a compressed block of its descriptor or of the entry is locked (R290). -/
def State.logBusy (s : State) : Option (Option Nat) :=
  let busy := fun (l : Leaf) (va n : Nat) => s.namesBusy ((List.range n).map (s.ident l va + ·))
  let asid := s.thr.asid.toNat
  match assoc s.raceLogs asid with
  | none => none
  | some d =>
    match s.walk asid d.toNat with
    | .error _ => none
    | .ok l =>
      let get := fun (o n : Nat) => s.logRead l (d.toNat + o) n
      let e := get 0 8 + 32 * (get 0x18 8 % get 8 4)
      (busy l d.toNat 0x28).or (match s.walk asid e with | .error _ => none | .ok le => busy le e 32)

/-- The physical addresses of the sectors that an access of `n` bytes touches. -/
def Leaf.sectors (l : Leaf) (va : Word) (n : Nat) : List Nat :=
  let p := l.frame + (va.toNat - l.base)
  (List.range ((p % 32 + n + 31) / 32)).map (fun k => p / 32 * 32 + 32 * k)

/-- Whether every sector of an access to a race-checked page has a record (R421). -/
def State.sootCovers (s : State) (l : Leaf) (va : Word) (n : Nat) : Bool := !l.race || (l.sectors va n).all (fun p => (s.sootAddr p).isSome)

/-- Write a record. -/
def State.writeSoot (s : State) (ra : Nat) (r : Soot) : State := { s with mem := Memory.writeN s.mem ra (leBytes 8 r.word) }.touch ra

/-- The race check of one sector of an access (R231): trap, log, or pass; a store that is no conflict writes the record with the thread's
identity, SIV and scope.  The device's reads and writes of records are accesses to memory (R381), and those of a log in a locked block wait
(R290). -/
def State.raceSector (s : State) (va : Word) (a : RaceAccess) (p : Nat) : Except Stop State :=
  match s.sootAddr p with
  | none => .ok s
  | some ra =>
    let raw := Memory.num s.mem ra 8
    let r := Soot.ofWord raw
    let u := s.touch ra
    if s.conflicts a r then
      if s.thr.racectl.getLsbD 0 then
        match u.logBusy with
        | none => .ok (u.raceLog va raw a)
        | some h => .error (.hold (fun s => s.countRetry h))
      else .error (.trap 15 va none u.countAs)
    else if a.use.writes then .ok (u.writeSoot ra ⟨s.writerOf s.thr, a.scope, true, decide (a.use = .atomic), s.thr.siv⟩)
    else .ok u

/-- The race check of one access of `n` bytes to a race-checked page, sector by sector (R231). -/
def State.raceCheck (s : State) (l : Leaf) (va : Word) (n : Nat) (a : RaceAccess) : Except Stop State :=
  if ¬ l.race then .ok s else (l.sectors va n).foldlM (fun s p => s.raceSector va a p) s

/-- An acquire that reads a race-checked sector with a valid record raises the entry for its writer (R230). -/
def State.raceAcquire (s : State) (l : Leaf) (va : Word) : State :=
  if ¬ l.race then s
  else
    match s.sootAddr (l.frame + (va.toNat - l.base)) with
    | none => s
    | some ra =>
      let r := Soot.ofWord (Memory.num s.mem ra 8)
      if r.valid then (s.touch ra).raiseEntry r.writer r.iv (s.covers r.scope r.writer) else s.touch ra

end Sys2Proof.Machine
end

