-- ==== Sys2Proof/Machine/Memory.lean ====
section
/-! DEFINITION. A thread's and an engine's accesses to memory and to the scratchpad (spec 05 R67 to R69, 14 R200 to R207,
15 R214 to R227, 17 R254, R258, R264, 20 R280, R290, 26 R383, R384). -/

namespace Sys2Proof.Machine

open Sys2Proof

/-! ## The scratchpad window (R199, R200) -/

/-- Offset in the scratchpad of an address in the open window. -/
def State.windowOff (s : State) (va : Word) : Option Nat :=
  let b := s.thr.twin.toNat / 2 ^ 21 * 2 ^ 21
  if s.thr.twin.getLsbD 0 ∧ b ≤ va.toNat ∧ va.toNat < b + s.myTiles * 4096 then some (va.toNat - b) else none

/-- Bytes of a gang's scratchpad. -/
def State.tileRead (s : State) (g : Nat) (off n : Nat) : List Byte :=
  match s.gangOf g with
  | none => List.replicate n 0
  | some x => Memory.readN x.tileMem off n

/-- Write bytes of a gang's scratchpad; written bytes lose their poison, and WAITEVs that watch them look again (R82). -/
def State.tileWrite (s : State) (g : Nat) (off : Nat) (bs : List Byte) : State :=
  (s.prompt (some g) ((List.range bs.length).map (off + ·))).modGang g (fun x => { x with
    tileMem := Memory.writeN x.tileMem off bs
    tilePoison := x.tilePoison.filter (fun p => !(decide (off ≤ p) && decide (p < off + bs.length))) })

/-- Whether a tile is engine-owned. -/
def State.engineOwned (s : State) (g tile : Nat) : Bool :=
  match s.gangOf g with
  | none => false
  | some x => x.owners.contains tile

/-- Whether reading scratchpad bytes consumes poison (R383). -/
def State.tilePoisoned (s : State) (g off n : Nat) : Bool :=
  match s.gangOf g with
  | none => false
  | some x => x.tilePoison.any (fun p => decide (off ≤ p) && decide (p < off + n))

/-! ## One access of a thread -/

/-- An access: use, size in bytes, column line and its element width in bytes, scope for atomics; `hint` is the cache hint (R29), `unit`:
an indexed-access unit makes it at the home (R258). -/
structure Acc where
  use : Use
  n : Nat
  col : Bool
  width : Nat
  scope : Nat
  hint : Nat := 0
  unit : Bool := false
  deriving DecidableEq, Repr

/-- A plain row access. -/
def Acc.row (u : Use) (n : Nat) : Acc := { use := u, n := n, col := false, width := 0, scope := 0 }

/-- Where an access goes. -/
inductive Target where
  | tile (off : Nat)
  | mem (l : Leaf)
  deriving DecidableEq, Repr

/-- The line an access goes through. -/
def Acc.line (a : Acc) (x : Nat) : LineId := lineOf x a.col a.width

/-- The copy that serves an access without the home: under L a load within its lease, under D and S a load or a store (R214, R220). -/
def State.serves (s : State) (a : Acc) (l : Leaf) (r : Run) : Option L1Line :=
  let ok := fun (c : L1Line) => decide (c.treat = l.treat) &&
    (decide (l.treat ≠ 1) || (!a.use.writes && decide (dist s.thr.pts c.rts ≤ 2 ^ 14)))
  if a.unit ∨ a.use = .atomic ∨ l.treat = 3 then none
  else (s.heldAt s.thr.hearth r.slot (a.line r.x) r.x).filter ok

/-- Whether dirty bytes that a reader of a hearth sees cover the whole unit `u` of plain memory: its poison is gone once they are written
back (R383). -/
def State.rewritten (s : State) (hearth slot u : Nat) : Bool :=
  (List.range 64).all (fun i => s.l1.any (fun l => decide (l.slot = slot) && (decide (l.hearth = hearth) || decide (l.treat = 0)) &&
    (match l.at? (u * 64 + i) with | some k => l.dirty.getLsbD k | none => false)))

/-- Whether a byte at the home, under what hearths hold dirty of it, is poisoned for a reader of a hearth (R383). -/
def State.homeBad (s : State) (hearth : Nat) (r : Run) (n : Nat) : Bool :=
  let dirtyBad := s.l1bad.any (fun b => decide (b.slot = r.slot) && decide (r.x ≤ b.x) && decide (b.x < r.x + n) &&
    s.l1.any (fun l => decide (l.hearth = b.hearth) && decide (l.slot = b.slot) && (decide (l.hearth = hearth) || decide (l.treat = 0)) &&
      (match l.at? b.x with | some k => l.dirty.getLsbD k | none => false)))
  let clean := (List.range n).any (fun i => (s.dirtyByte hearth r.slot (r.x + i)).isNone)
  dirtyBad || (clean && (s.linkLost r.x || (s.units r n).any (fun u => s.uncovered (u * 64) ||
    s.poison.contains u && !(decide (r.x < cmpBase) && s.rewritten hearth r.slot u))))

/-- Whether a reading access consumes poison: of the copy that serves it, else of its home (R383). -/
def State.readsBad (s : State) (a : Acc) (l : Leaf) (r : Run) : Bool :=
  match s.serves a l r with
  | some _ => (List.range a.n).any (fun i => s.badByte s.thr.hearth r.slot (r.x + i))
  | none => s.homeBad s.thr.hearth r a.n

/-- Why an access through a line of a compressed page cannot be made yet (R290). -/
def State.blockBusy (s : State) (l : Leaf) (id : LineId) : Option (Option Nat) :=
  if ¬ l.cmp then none else s.namesBusy ((List.range 128).map id.byteAt)

/-- A thread's access to such a line waits. -/
def State.tableCheck (s : State) (l : Leaf) (id : LineId) : Except Stop Unit :=
  match s.blockBusy l id with
  | none => .ok ()
  | some h => .error (.hold (fun s => s.countRetry h))

/-- An indexed-access unit that reads poison parks for the current thread's word, with a record of cause 8 (R383, entry 71). -/
def State.parkUnit (s : State) (va : Word) (write : Bool) : State :=
  if s.ops.any (fun o => decide (o.kind = .indexed s.thr.tid) && decide (o.pc = s.thr.pc)) then s
  else
    let o : EngineOp :=
      { id := s.nextId, kind := .indexed s.thr.tid, status := .parked 8 va write false false, gang := s.thr.gang, hearth := s.thr.hearth
        tid := s.thr.tid, pc := s.thr.pc, asid := s.thr.asid, user := !s.thr.status.priv, clock := s.thr.pts, copy := 0, piece := 0
        ahead := [], passes := [], stack := [], entries := 0, fill := 0, cbs := s.thr.cbs, olds := [], parkSeq := s.free }
    { s with ops := s.ops ++ [o], nextId := s.nextId + 1, free := s.free + 1 }

/-- A word whose indexed-access unit is parked waits for the driver (R363, R383). -/
def State.unitFree (s : State) : Except Stop Unit :=
  if s.ops.any (fun o => decide (o.kind = .indexed s.thr.tid) && decide (o.pc = s.thr.pc)) then .error (.hold id) else .ok ()

/-- A copy of this line's bytes under another key slot, of a compressed page, that cannot be written back yet: the access waits (R380, entry 15). -/
def State.aliasCheck (s : State) (l : Leaf) (id : LineId) : Except Stop Unit :=
  if l.cmp ∧ s.aliases s.thr.hearth l.slot id ≠ [] then .error (.hold (fun s => s.unalias s.thr.hearth l.slot id)) else .ok ()

/-- The checks of one access in the order of R24, R200, R204, R205, R232 and R254 after alignment up to the format fault:
access fault, orientation, tile ownership, format.  A sector outside the soot range faults before poison does (entry 94).  A fault keeps the
requests made so far (R381). -/
def State.place (s : State) (a : Acc) (va : Word) : Except Stop (Target × State) :=
  let w := a.use.writes
  match s.windowOff va with
  | some off =>
    if s.myTiles * 4096 < off + a.n then .error (.data va 8 7 w)
    else if a.use.reads ∧ s.tilePoisoned s.thr.gang off a.n then .error (.data va 5 7 w)
    else if a.col then .error (.of 12 va)
    else if s.engineOwned s.thr.gang (off / 4096) then .error (.of 13 va)
    else .ok (.tile off, s)
  | none =>
    match s.access s.thr.asid.toNat (!s.thr.status.priv) a.use va s.wordMoment with
    | (.error e, u) => .error ((Stop.data va e.1 e.2 w).leaving u.countAs)
    | (.ok l, s) =>
      let r := s.runAt l va.toNat
      let s := s.unalias s.thr.hearth r.slot (a.line r.x)
      let home := (s.serves a l r).isNone
      if a.use ≠ .fetch ∧ ¬ s.sootCovers l va a.n then .error ((Stop.data va 8 7 w).leaving s.countAs)
      else if a.use.reads ∧ s.readsBad a l r then
        .error (if a.unit then .hold (fun s => s.parkUnit va w) else (Stop.data va 5 7 w).leaving s.countAs)
      else if a.col ∧ ¬ (l.ori ∧ l.oriWidth = a.width) then .error ((Stop.of 12 va).leaving s.countAs)
      else if home ∧ l.cmp ∧ (s.homeRead r a.n).isNone then .error ((Stop.of 14 (BitVec.ofNat 64 (va.toNat / 512 * 512))).leaving s.countAs)
      else do
        s.aliasCheck l (a.line r.x)
        if home then s.tableCheck l (a.line r.x) else .ok ()
        .ok (.mem l, s)

/-- The checks of one aligned access: misaligned first, then those of `place` (R24, R254). -/
def State.resolve (s : State) (a : Acc) (va : Word) : Except Stop (Target × State) :=
  if va.toNat % a.n ≠ 0 then .error (.of 7 va) else s.place a va

/-- A trap of an access leaves the requests made before it (R381). -/
def State.counting {α : Type} (s : State) (x : Except Stop α) : Except Stop α :=
  match x with
  | .error (.trap c v f post) => .error (.trap c v f (fun t => post (s.countAs t)))
  | x => x

/-- The checks of one access of a word that reads scalar registers `rs`, and vector elements poisoned as `bad` says: misaligned, then
poison of its operands, then another data access fault of the word, `lost`, then those of `place` (R24, R383). -/
def State.resolveWith (s : State) (rs : List (BitVec 6)) (bad : Bool) (lost : Except Stop Unit) (a : Acc) (va : Word) :
    Except Stop (Target × State) :=
  s.counting (if va.toNat % a.n ≠ 0 then .error (.of 7 va)
  else do
    s.consume rs
    if bad then .error (.data 0 5 7 false) else lost
    s.place a va)

/-- The same where the word has no such fault of its own. -/
def State.resolveOp (s : State) (rs : List (BitVec 6)) (bad : Bool) (a : Acc) (va : Word) : Except Stop (Target × State) :=
  s.resolveWith rs bad (.ok ()) a va

/-- The current thread as a requester. -/
def State.asker (s : State) : Asker := ⟨s.thr.hearth, s.thr.tid, s.thr.hearthReg⟩

/-- Ask the directory for the range of a line; a refused request waits (R217, R218), and so does one for which a dirty line of a compressed page
cannot be recalled yet (entry 15). -/
def State.askRange (s : State) (l : Leaf) (id : LineId) (x : Nat) (excl : Bool) : Except Stop State :=
  let r := rangeOf id l.ori l.oriWidth
  if s.refuses r s.asker then .error (.hold (fun s => s.recordRefusal r (homeId x) s.asker excl))
  else if l.cmp ∧ s.recallStuck r s.thr.hearth excl then .error (.hold (fun s => s.recall r s.thr.hearth excl))
  else .ok (s.grantRange r (homeId x) s.asker excl)

/-- Why an access to a line of a compressed page is not yet made at the home: a dirty byte of the line cannot be written back, the hearth's own
or, under D, another's (R290, R291, entry 15). -/
def State.homeStuck (s : State) (hearth : Nat) (l : Leaf) (slot : Nat) (id : LineId) (write : Bool) : Bool :=
  let u := s.flush hearth slot id
  l.cmp && (u.l1.any (fun k => decide (k.hearth = hearth) && decide (k.dirtyNames (fun x => (id.index x).isSome) ≠ [])) ||
    decide (l.treat = 0) && u.recallStuck (rangeOf id l.ori l.oriWidth) hearth write)

/-- The write-backs of such an access. -/
def State.clearHome (s : State) (hearth : Nat) (l : Leaf) (slot : Nat) (id : LineId) (write : Bool) : State :=
  let u := s.flush hearth slot id
  if l.treat = 0 then u.recall (rangeOf id l.ori l.oriWidth) hearth write else u

/-- Ask for an access that is made at the home and holds no range: under D the directory (R215, R258). -/
def State.askHome (s : State) (l : Leaf) (id : LineId) (x : Nat) (write : Bool) : Except Stop State :=
  let r := rangeOf id l.ori l.oriWidth
  if l.treat = 0 ∧ s.refuses r s.asker then .error (.hold (fun s => s.recordRefusal r (homeId x) s.asker write))
  else if s.homeStuck s.thr.hearth l l.slot id write then .error (.hold (fun s => s.clearHome s.thr.hearth l l.slot id write))
  else if l.treat ≠ 0 then .ok s
  else
    .ok ({ s with requests := s.requests.filter (fun q => decide (q.thread ≠ s.thr.tid)) }.recall r s.thr.hearth write)

/-- The overflow trap counts (R291). -/
def State.overflow (u : State) (x : Nat) (va : Word) : Stop := .trap 16 va none (fun s => (u.countAs s).countOverflow x)

/-- Read through a held line. -/
def L1Line.readRun (l : L1Line) (x n : Nat) : List Byte :=
  (List.range n).map (fun i => match l.at? (x + i) with | some k => l.byte k | none => 0)

/-- Bytes as a reader of a hearth sees them that keeps no copy: its dirty bytes, then those dirty elsewhere under D, then the home's. -/
def State.mixGet (s : State) (hearth : Nat) (r : Run) (n : Nat) : List Byte :=
  let home := s.homeGet r n
  (List.range n).map (fun i =>
    match s.dirtyByte hearth r.slot (r.x + i) with
    | some b => b
    | none =>
      match (s.l1.find? (fun l => decide (l.treat = 0) && decide (l.slot = r.slot) &&
          (match l.at? (r.x + i) with | some k => l.dirty.getLsbD k | none => false))).bind (fun l => (l.at? (r.x + i)).map l.byte) with
      | some b => b
      | none => (home[i]?).getD 0)

/-- A new line for an access. -/
def State.newLine (s : State) (a : Acc) (l : Leaf) (r : Run) (va : Word) (rts : BitVec 16) : L1Line :=
  L1Line.blank s.thr.hearth r.slot r.alloc (a.line r.x) l.treat (decide (a.hint = 2)) rts s.thr.asid va.toNat

/-- Allocate the line of an access and read through it; under a streaming hint, or without room, the bytes pass by the L1 (R29), and clean
copies of L and S bytes take what was read, so that no later read goes back (R237). -/
def State.allocRead (s : State) (a : Acc) (l : Leaf) (r : Run) (va : Word) (rts clk : BitVec 16) : List Byte × State :=
  let line := if a.hint = 1 then none else s.allocate (s.newLine a l r va rts) clk
  match line.bind (fun u => (u.heldAt u.thr.hearth r.slot (a.line r.x) r.x).map (fun c => (c, u))) with
  | some (c, u) => (c.readRun r.x a.n, u.reachLine s.thr.hearth l r (a.line r.x))
  | none =>
    let bs := s.mixGet s.thr.hearth r a.n
    (bs, (if l.treat = 1 ∨ l.treat = 2 then s.showBytes s.thr.hearth r.slot (names r.x bs) else s).reachLine s.thr.hearth l r (a.line r.x))

/-- A load that no copy serves (R217, R220, R225, R227). -/
def State.loadHome (s : State) (a : Acc) (l : Leaf) (r : Run) (va : Word) : Except Stop (List Byte × State) :=
  let id := a.line r.x
  match l.treat with
  | 0 => do
    let s ← if a.hint = 1 then s.askHome l id r.x false else s.askRange l id r.x false
    .ok (s.allocRead a l r va 0 0)
  | 1 =>
    let old := s.thr.pts
    let (clk, s) := s.leaseLoad id (s.thr.lease.toNat % 256) old
    .ok ((s.setPts clk).allocRead a l r va (s.stampOf id).rts clk)
  | 2 => .ok (s.allocRead a l r va 0 0)
  | _ => .ok (s.homeGet r a.n, s.reach r none)

/-- The marks that come with a value the current thread has read: those of the L or S copy that gave it, else those at the home (R223). -/
def State.marksFor (s : State) (a : Acc) (l : Leaf) (r : Run) : List Release :=
  let h := s.thr.hearth
  let copy := if a.use = .atomic then none
    else match l.treat with
    | 1 => s.serves a l r
    | 2 => (s.heldAt h r.slot (a.line r.x) r.x).or (s.dirtyLine h r.slot r.x)
    | _ => none
  relsOf (match copy with | some c => c.rels | none => s.releases) r.x a.n

/-- Mark the copy of a line that the hearth holds as the last to leave, under hint 2 (R29). -/
def State.retainLine (s : State) (a : Acc) (slot : Nat) (id : LineId) : State :=
  if a.hint = 2 then s.mapL1 s.thr.hearth slot (fun k => if k.id = id then { k with retain := true } else k) else s

/-- A plain load remembers what its value's marks say: a FENCE makes it an acquire (R235). -/
def State.noteMarks (s : State) (ms : List Release) : State :=
  match ms with
  | [] => s
  | _ => { s with thr := { s.thr with seen := s.thr.seen.join (relsKnown ms) } }

/-- The race check of a thread's access at a resolved target (R231, R254). -/
def State.raceAt (s : State) (a : Acc) (t : Target) (va : Word) : Except Stop State :=
  match t with
  | .tile _ => .ok s
  | .mem l => s.raceCheck l va a.n ⟨a.use, a.scope⟩

/-- A thread's read of `n` bytes at a resolved target (R214, R217, R220, R225, R227). -/
def State.readAt (s : State) (a : Acc) (t : Target) (va : Word) : Except Stop (List Byte × State) :=
  match t with
  | .tile off => .ok (s.tileRead s.thr.gang off a.n, s)
  | .mem l => do
    let r := s.runAt l va.toNat
    let (bs, s) ← (match s.serves a l r with
      | some c => .ok (c.readRun r.x a.n, s.retainLine a r.slot c.id)
      | none => s.loadHome a l r va : Except Stop (List Byte × State))
    .ok (bs, s.noteMarks (s.marksFor a l r))

/-- A thread's load at a resolved target: the race check, then the read. -/
def State.loadAt (s : State) (a : Acc) (t : Target) (va : Word) : Except Stop (List Byte × State) := do
  let s ← s.raceAt a t va
  s.readAt a t va

/-- What a fetch of the word at name `x` would see now: the hearth's copy, or the home. -/
def State.seenWord (s : State) (r : Run) : BitVec 32 :=
  let w : Run := { r with x := r.x / 4 * 4 }
  let home := s.mixGet s.thr.hearth w 4
  let bs := (List.range 4).map (fun i =>
    match s.l1.find? (fun l => decide (l.hearth = s.thr.hearth) && decide (l.slot = r.slot) && (l.at? (w.x + i)).isSome &&
        (decide (l.treat ≠ 1) || decide (dist s.thr.pts l.rts ≤ 2 ^ 14))) with
    | some l => (match l.at? (w.x + i) with | some k => l.byte k | none => 0)
    | none => (home[i]?).getD 0)
  BitVec.ofNat 32 (leNat bs)

/-- Remember what the words a store overwrites read before, until the next branch, jump, WRC or trap return (R70); of several stores to a word,
what it read before the first (entry 8). -/
def State.noteStore (s : State) (r : Run) (n : Nat) : State :=
  (List.range ((r.x % 4 + n + 3) / 4)).foldl (fun s k =>
    let x := r.x / 4 * 4 + 4 * k
    if s.thr.stale.any (fun p => decide (p.1 = x)) then s
    else { s with thr := { s.thr with stale := (x, s.seenWord { r with x := x }) :: s.thr.stale } }) s

/-- One store of R221 and R274 by the current thread to the L line `id`; none where a compressed page overflows. -/
def State.leaseWrite (s : State) (r : Run) (id : LineId) (ws : List (Nat × Byte)) : Option State :=
  if s.linkLost r.x then some (s.loseStore [s.thr.tid] r.x)
  else (s.homePut r.slot r.alloc (some id) ws).map (fun s =>
    let (t, s) := s.leasePut s.port.agent s.thr.hearth r.slot id ws s.thr.pts
    s.setPts t)

/-- The current thread's store at the home of a D, S or U page; its hearth's copies then hold the bytes, clean, whatever they held before
(R206, R227, R258, R265). -/
def State.homeStore (s : State) (r : Run) (via : Option LineId) (ws : List (Nat × Byte)) : Option State :=
  if s.linkLost r.x then some (s.loseStore [s.thr.tid] r.x)
  else (s.homePut r.slot r.alloc via ws).map (fun s =>
    (s.copyBytes s.thr.hearth r.slot ws).writeCopies s.thr.hearth r.slot (ws.map (·.1)))

/-- The hearth's copies take stored bytes, dirty (R206, R225), and note who wrote those behind a link (R384). -/
def State.putDirty (s : State) (slot : Nat) (ws : List (Nat × Byte)) : State :=
  let xs := ws.map (·.1)
  let h := s.thr.hearth
  let mine := (xs.filter (fun x => (linkOf x).isSome)).map (fun x => (x, s.thr.tid))
  ((s.mapL1 h slot (fun k => if k.holds xs then
      { k.take true ws with owners := mine ++ k.owners.filter (fun o => !xs.contains o.1) } else k)).writeCopies h slot xs).prompt none xs

/-- A store through a line that a hearth holds or allocates; where it does neither, at the home (R29, R214). -/
def State.lineStore (s : State) (a : Acc) (l : Leaf) (r : Run) (va : Word) (ws : List (Nat × Byte)) : Except Stop State :=
  let line := match s.heldAt s.thr.hearth r.slot (a.line r.x) r.x with
    | some _ => some s
    | none => if a.hint = 1 then none
      else (s.allocate (s.newLine a l r va 0) 0).map (fun (u : State) => u.reachLine u.thr.hearth l r (a.line r.x))
  match line with
  | some u => .ok ((u.retainLine a r.slot (a.line r.x)).putDirty r.slot ws)
  | none =>
    match s.homeStore r (l.via (a.line r.x)) ws with
    | some u => .ok u
    | none => .error (s.overflow r.x va)

/-- The dirty bytes that a hearth's stores to the page of `x` join: its own, and under D those of every hearth. -/
def State.pageDirty (s : State) (slot x : Nat) : List (Nat × Byte) :=
  ((s.l1.filter (fun k => decide (k.slot = slot) && (decide (k.hearth = s.thr.hearth) || decide (k.treat = 0)) && decide (cmpBase ≤ k.pa) &&
    decide ((k.pa - cmpBase) / 65536 = (x - cmpBase) / 65536))).map (fun k => k.dirtyNames (fun _ => true))).flatten

/-- A store that is to be held dirty overflows its compressed page where its bytes do not fit with those (R291, entry 15). -/
def State.fitCheck (s : State) (l : Leaf) (r : Run) (va : Word) (ws : List (Nat × Byte)) : Except Stop Unit :=
  if l.cmp ∧ (s.homePut r.slot r.alloc none (s.pageDirty r.slot r.x ++ ws)).isNone then .error (s.overflow r.x va) else .ok ()

/-- The store of bytes under the treatment of their page; a D line is stored to under an exclusive grant, but by a streaming store to a
line the hearth does not hold, which is made at the home once every other hearth has given it up (R29, R214, R217). -/
def State.treatStore (s : State) (a : Acc) (l : Leaf) (r : Run) (va : Word) (ws : List (Nat × Byte)) : Except Stop State :=
  let id := a.line r.x
  let made := fun (o : Option State) => match o with | some s => Except.ok s | none => .error (s.overflow r.x va)
  match l.treat with
  | 1 => made ((s.retainLine a r.slot id).leaseWrite r id ws)
  | 2 => do
    s.fitCheck l r va ws
    s.lineStore a l r va ws
  | 0 => do
    let out := decide (a.hint = 1) && (s.heldAt s.thr.hearth r.slot id r.x).isNone
    let s ← if s.holdsRange (rangeOf id l.ori l.oriWidth) s.thr.hearth then .ok s
      else if out then s.askHome l id r.x true else s.askRange l id r.x true
    s.fitCheck l r va ws
    s.lineStore a l r va ws
  | _ => made (s.homeStore r none ws)

/-- A thread's store at a resolved target (R214, R217, R221, R225, R227, R291). -/
def State.storeAt (s : State) (a : Acc) (t : Target) (va : Word) (bs : List Byte) : Except Stop State :=
  match t with
  | .tile off => .ok (s.tileWrite s.thr.gang off bs)
  | .mem l => do
    let r := s.runAt l va.toNat
    let s ← s.raceCheck l va bs.length ⟨a.use, a.scope⟩
    let s ← (s.noteStore r bs.length).treatStore a l r va (names r.x bs)
    .ok (s.placeMarks s.thr.hearth r.slot r.x bs.length (decide (l.treat = 2)) (plainOver r.x bs.length (s.fencedMark r.x bs.length)))

/-- A read at a resolved target, which `judge` judges before the race check of its sectors (R24, R232). -/
def State.readJudged (s : State) (a : Acc) (t : Target) (va : Word) (judge : State → List Byte → Except Stop Unit) :
    Except Stop (List Byte × State) := do
  let (bs, s) ← s.readAt a t va
  s.counting (judge s bs)
  let s ← s.raceAt a t va
  .ok (bs, s)

/-- A thread's plain load of an address, for a word that reads the scalar registers `rs` for it. -/
def State.load (s : State) (rs : List (BitVec 6)) (a : Acc) (va : Word) : Except Stop (List Byte × State) := do
  let (t, s) ← s.resolveOp rs false a va
  s.loadAt a t va

/-- A thread's plain store to an address, for a word that reads the scalar registers `rs` for it. -/
def State.store (s : State) (rs : List (BitVec 6)) (a : Acc) (va : Word) (bs : List Byte) : Except Stop State := do
  let (t, s) ← s.resolveOp rs false a va
  s.storeAt a t va bs

/-! ## Atomics (R207, R215, R264, R265) -/

/-- The value that an atomic at a resolved target finds. -/
def State.atomicOld (s : State) (a : Acc) (t : Target) (va : Word) : Nat :=
  match t with
  | .tile off => leNat (s.tileRead s.thr.gang off a.n)
  | .mem l => leNat (s.mixGet s.thr.hearth (s.runAt l va.toNat) a.n)

/-- An atomic at the bank: `f` gives the new value, or none where nothing is written (a failing CAS).  An atomic keeps and
raises the marks it follows (R207, R221, R223, R264, R265). -/
def State.atomicAt (s : State) (a : Acc) (t : Target) (va : Word) (kind : Use) (f : Nat → Option Nat) :
    Except Stop (Nat × State) :=
  match t with
  | .tile off =>
    let old := leNat (s.tileRead s.thr.gang off a.n)
    match f old with
    | none => .ok (old, s)
    | some v => .ok (old, s.tileWrite s.thr.gang off (leBytes a.n v))
  | .mem l => do
    let r := s.runAt l va.toNat
    let id := a.line r.x
    let s := s.flush s.thr.hearth r.slot id
    let s ← s.askHome l id r.x true
    let old := leNat (s.homeGet r a.n)
    match f old with
    | none => do
      let s ← s.raceCheck l va a.n ⟨.load, a.scope⟩
      let (clk, s) := if l.treat = 1 then s.homeLoadClock id s.thr.pts else (s.thr.pts, s)
      .ok (old, (((s.setPts clk).showBytes s.thr.hearth r.slot (names r.x (leBytes a.n old))).reach r (l.via id)).noteMarks
        (relsOf s.releases r.x a.n))
    | some v => do
      let s ← s.raceCheck l va a.n ⟨kind, a.scope⟩
      let ws := names r.x (leBytes a.n v)
      let s := (s.noteStore r a.n).noteMarks (relsOf s.releases r.x a.n)
      let before := relsOf s.releases r.x a.n
      match if l.treat = 1 then s.leaseWrite r id ws else s.homeStore r (l.via id) ws with
      | none => .error (s.overflow r.x va)
      | some s => .ok (old, s.placeMarks s.thr.hearth r.slot r.x a.n false
          (marksOver r.x a.n (keptMarks r.x a.n before s.thr.pts s.fencedKnown)))

/-! ## Stores of a vector word (R194, R195, R274) -/

/-- An element of a vector store: address, bytes, none where an earlier element stores them, for a byte of which it covers one nibble,
which one (R195), and whether its sources are poisoned (R383). -/
structure StoreElem where
  va : Word
  bs : List Byte
  nib : Option Nat
  bad : Bool
  deriving DecidableEq, Repr

/-- A byte with one nibble replaced. -/
def mergeNibble (h v old : Nat) : Nat := if h = 0 then old / 16 * 16 + v % 16 else old % 16 + v % 16 * 16

/-- A store to an L line that waits for the end of its word: bytes in order, a lone nibble with its half; `ord` orders the lines by their first
elements, of which `va` is the address. -/
structure LateStore where
  ord : Nat
  run : Run
  id : LineId
  va : Word
  ws : List (Nat × Byte × Option Nat)
  deriving DecidableEq, Repr

/-- Insert a pending store in increasing line address, joining stores to one line. -/
def LateStore.insert (p : LateStore) : List LateStore → List LateStore
  | [] => [p]
  | q :: r =>
    if q.id = p.id ∧ q.run.slot = p.run.slot then { q with ws := q.ws ++ p.ws } :: r
    else if p.id.pa < q.id.pa then p :: q :: r else q :: LateStore.insert p r

/-- The bytes a pending store leaves, over the home's. -/
def State.lateBytes (s : State) (p : LateStore) : List (Nat × Byte) :=
  p.ws.foldl (fun acc w =>
    let old := (assoc acc w.1).getD ((s.homeGet { p.run with x := w.1 } 1).headD 0)
    assocSet acc w.1 (match w.2.2 with
      | none => w.2.1
      | some h => BitVec.ofNat 8 (mergeNibble h w.2.1.toNat old.toNat))) []

/-- Make pending stores, one for each line (R274), and collect those that overflow: a line's bytes are the write that R291 judges. -/
def State.makeLate (s : State) (late : List LateStore) : State × List LateStore :=
  late.foldl (fun (u : State × List LateStore) p => match u.1.leaseWrite p.run p.id (u.1.lateBytes p) with
    | none => (u.1, p :: u.2)
    | some s => (s, u.2)) (s, [])

/-- Of stores, that of the first element (R113). -/
def firstLate (l : List LateStore) : Option LateStore :=
  l.foldl (fun o p => match o with | some q => if p.ord < q.ord then some p else some q | none => some p) none

/-- The end of a word that leaves stores to L lines for its end; an overflow is its line's first element's (R113, entry 15). -/
def State.endLate (s : State) (late : List LateStore) : Except Stop State :=
  let u := s.makeLate late
  match firstLate u.2 with
  | none => .ok u.1
  | some p => .error (u.1.overflow p.run.x p.va)

/-- An element among the pending stores. -/
def State.pendLate (s : State) (l : Leaf) (a : Acc) (e : StoreElem) (late : List LateStore) : List LateStore :=
  let r := s.runAt l e.va.toNat
  LateStore.insert ⟨late.length, r, a.line r.x, e.va, (names r.x e.bs).map (fun p => (p.1, p.2, e.nib))⟩ late

/-- One more store to an L line for the end of the word. -/
def State.addLate (s : State) (l : Leaf) (a : Acc) (e : StoreElem) (late : List LateStore) : State × List LateStore :=
  let r := s.runAt l e.va.toNat
  let s := (s.noteStore r e.bs.length).retainLine a r.slot (a.line r.x)
  (s.placeMarks s.thr.hearth r.slot r.x e.bs.length false (plainOver r.x e.bs.length (s.fencedMark r.x e.bs.length)), s.pendLate l a e late)

/-- What traps at an element `e` that cannot be stored, before the elements `es`: the overflow of an earlier element's line comes first (R113), a
line with all its elements that can be. -/
def State.lateTrap (s : State) (rs : List (BitVec 6)) (a : Acc) (es : List StoreElem) (late : List LateStore) (x : Stop) : Stop :=
  if late = [] then x
  else
    let all := es.foldl (fun late e =>
      match s.resolveOp rs e.bad a e.va with
      | .ok (.mem l, _) =>
        if l.treat = 1 ∧ late.any (fun p => decide (p.id = a.line (s.ident l e.va.toNat)) && decide (p.run.slot = l.slot)) then s.pendLate l a e late
        else late
      | _ => late) late
    match firstLate (s.makeLate all).2 with
    | none => x
    | some p => s.overflow p.run.x p.va

/-- One element of a vector store at its resolved target (R195, R274). -/
def State.storeElem (s : State) (a : Acc) (t : Target) (e : StoreElem) (late : List LateStore) : Except Stop (State × List LateStore) :=
  let bank : Except Stop (State × List LateStore) :=
    match e.nib with
    | none => do
      let s ← s.storeAt a t e.va e.bs
      .ok (s, late)
    | some h => do
      let (_, s) ← s.atomicAt a t e.va .store (fun old => some (mergeNibble h (leNat e.bs) old))
      .ok (match t with
        | .mem l =>
          let r := s.runAt l e.va.toNat
          (s.retainLine a r.slot (a.line r.x)).placeMarks s.thr.hearth r.slot r.x 1 false (plainOver r.x 1 (s.fencedMark r.x 1))
        | .tile _ => s, late)
  if e.bs = [] then .ok (s, late)
  else
    match t with
    | .tile _ => bank
    | .mem l =>
      if l.treat = 1 then do
        let s ← s.raceCheck l e.va e.bs.length ⟨a.use, a.scope⟩
        .ok (s.addLate l a e late)
      else bank

/-- Plain units that the bytes `xs` stored at the home by one word cover whole lose their poison, where the hearth holds none of them dirty
(R383). -/
def State.healUnits (s : State) (slot : Nat) (xs : List Nat) : State :=
  { s with poison := s.poison.filter (fun u => !(List.range 64).all (fun i =>
      xs.contains (u * 64 + i) && (s.dirtyByte s.thr.hearth slot (u * 64 + i)).isNone)) }

/-- The bytes that an element stores, by key slot and name. -/
def State.storedNames (s : State) (t : Target) (e : StoreElem) : List (Nat × Nat) :=
  match t with
  | .tile _ => []
  | .mem l => (names (s.ident l e.va.toNat) e.bs).map (fun p => (l.slot, p.1))

/-- The elements of a vector store in order; the stores to one L line are one store (R274), and a lone nibble is one
read-modify-write at its bank (R195).  `done`: the bytes stored so far. -/
def State.storeElemsFrom (rs : List (BitVec 6)) (a : Acc) : List StoreElem → State → List LateStore → List (Nat × Nat) → Except Stop State
  | [], s, late, done =>
    (s.endLate late).map (fun s => if s.poison = [] then s
      else ((done.map (·.1)).eraseDups).foldl (fun s k => s.healUnits k ((done.filter (fun p => decide (p.1 = k))).map (·.2))) s)
  | e :: r, s, late, done =>
    match (do
      let (t, s) ← s.resolveOp rs e.bad a e.va
      let (u, late) ← s.storeElem a t e late
      .ok (t, u, late) : Except Stop (Target × State × List LateStore)) with
    | .error x => .error (s.lateTrap rs a r late x)
    | .ok (t, s, late) => State.storeElemsFrom rs a r s late (if s.poison = [] then [] else s.storedNames t e ++ done)

/-- The elements of a vector store from the first on. -/
def State.storeElems (rs : List (BitVec 6)) (a : Acc) (es : List StoreElem) (s : State) (late : List LateStore) : Except Stop State :=
  State.storeElemsFrom rs a es s late []

/-! ## Indexed accesses (R209, R210, R258) -/

/-- A thread's indexed write of an element at its home (R258). -/
def State.unitStore (s : State) (a : Acc) (l : Leaf) (e : StoreElem) : Except Stop State := do
  let r := s.runAt l e.va.toNat
  let s ← (s.noteStore r e.bs.length).askHome l (a.line r.x) r.x true
  match s.unitWrite s.port l e.va.toNat e.bs s.thr.pts with
  | none => .error (s.overflow r.x e.va)
  | some (clk, s) =>
    let s := s.setPts clk
    .ok (s.placeMarks s.thr.hearth r.slot r.x e.bs.length false (plainOver r.x e.bs.length (s.fencedMark r.x e.bs.length)))

/-- One element of a scatter. -/
def State.scatterElem (s : State) (rs : List (BitVec 6)) (a : Acc) (e : StoreElem) (late : List LateStore) :
    Except Stop (State × List LateStore) := do
  let (t, s) ← s.resolveOp rs e.bad a e.va
  match t with
  | .tile off => .ok (s.tileWrite s.thr.gang off e.bs, late)
  | .mem l => do
    let s ← s.raceCheck l e.va e.bs.length ⟨.store, 0⟩
    if l.treat = 1 then .ok (s.addLate l a e late)
    else do
      let s ← s.unitStore a l e
      .ok (s, late)

/-- The elements of a scatter in order, each at its home; the stores to one L line are one store (R209, R258, R274). -/
def State.scatterElems (rs : List (BitVec 6)) (a : Acc) : List StoreElem → State → List LateStore → Except Stop State
  | [], s, late => s.endLate late
  | e :: r, s, late =>
    match s.scatterElem rs a e late with
    | .error x => .error (s.lateTrap rs a r late x)
    | .ok (s, late) => State.scatterElems rs a r s late

/-- A gather's read of one element at its home (R258); the hearth's clean copies take what was read, so that no later read goes back (R237). -/
def State.gatherElem (s : State) (rs : List (BitVec 6)) (bad : Bool) (a : Acc) (va : Word) : Except Stop (List Byte × State) := do
  let (t, s) ← s.resolveOp rs bad a va
  match t with
  | .tile off => .ok (s.tileRead s.thr.gang off a.n, s)
  | .mem l => do
    let r := s.runAt l va.toNat
    let s ← s.raceCheck l va a.n ⟨.load, 0⟩
    let s ← s.askHome l (a.line r.x) r.x false
    let (bs, clk, s) := s.unitRead s.thr.hearth l va.toNat a.n s.thr.pts
    .ok (bs, ((s.setPts clk).showBytes s.thr.hearth r.slot (names r.x bs)).noteMarks (relsOf s.releases r.x a.n))

/-- A scatter-add's update of one address at its bank: `f` gives the new bytes from the old (R210, R258). -/
def State.addElem (s : State) (rs : List (BitVec 6)) (bad : Bool) (a : Acc) (va : Word) (f : List Byte → List Byte)
    (late : List LateStore) : Except Stop (List Byte × State × List LateStore) := do
  let (t, s) ← s.resolveOp rs bad a va
  match t with
  | .tile off =>
    let old := s.tileRead s.thr.gang off a.n
    .ok (old, s.tileWrite s.thr.gang off (f old), late)
  | .mem l => do
    let r := s.runAt l va.toNat
    let s ← s.raceCheck l va a.n ⟨.store, 0⟩
    if l.treat = 1 then
      let pend := (late.map (fun p => s.lateBytes p)).flatten
      let home := s.homeGet r a.n
      let old := (List.range a.n).map (fun i => (assoc pend (r.x + i)).getD ((home[i]?).getD 0))
      let (s, late) := s.addLate l a ⟨va, f old, none, false⟩ late
      .ok (old, s, late)
    else do
      let s := s.flush s.thr.hearth r.slot (a.line r.x)
      let s ← s.askHome l (a.line r.x) r.x true
      let old := s.homeGet r a.n
      let s ← s.unitStore a l ⟨va, f old, none, false⟩
      .ok (old, s, late)

/-! ## Acquires and releases (R223, R230, R235) -/

/-- The reader after an acquire of a value with these marks at name `x` (R223, R236). -/
def State.acquireMarks (s : State) (x : Nat) (ms : List Release) : State :=
  (s.setPts (s.acquireClock x ms s.thr.pts)).learn (relsKnown ms)

/-- The reader after an acquire by access `a` at `va` (R223, R230, R235); a scratchpad word is its gang's. -/
def State.acquired (s : State) (a : Acc) (t : Target) (va : Word) : State :=
  match t with
  | .tile _ => s.learn (s.gangKnown s.thr.gang)
  | .mem l =>
    let r := s.runAt l va.toNat
    (s.acquireMarks r.x (s.marksFor a l r)).raceAcquire l va

/-- What a release of `n` bytes leaves with the element it wrote: the writer's clock as its stamp, and its identity and new SIV in the
record of a race-checked sector (R223, R230). -/
def State.released (s : State) (t : Target) (va : Word) (n scope : Nat) (atom : Bool) : State :=
  match t with
  | .tile _ => s
  | .mem l =>
    let r := s.runAt l va.toNat
    let own := Release.of r.x n (if atom then relsOf s.releases r.x n else []) s.thr.pts (s.knownOf s.thr)
    let s := s.placeMarks s.thr.hearth r.slot r.x n (decide (l.treat = 2)) (if atom then marksOver r.x n [own] else plainOver r.x n (some own))
    if ¬ l.race then s
    else
      match s.sootAddr (l.frame + (va.toNat - l.base)) with
      | none => s
      | some ra =>
        s.writeSoot ra ⟨s.writerOf s.thr, scope, true, atom, s.thr.siv⟩

/-- What a FENCE at `scope` does to the order of accesses: earlier plain loads count as acquires, those of the scratchpad of all that its gang
knows, and later plain stores as releases (R235).  From stack scope up every later load of an L line is performed after it at that scope, so
that a copy which has missed a write gives it no more (R235, R253, entry 26). -/
def State.fenceOrder (s : State) (scope : Nat) : State :=
  let s := s.learn (s.thr.seen.join (s.gangKnown s.thr.gang))
  let s := if 2 ≤ scope then s.dropMissed s.thr.hearth s.allWrites else s
  { s with thr := { s.thr with seen := [], fenced := some (s.knownOf s.thr) } }

/-- Whether a scope covers a store lost with a link: a device's link from domain scope on, a pool port's at system scope
(R233, R384; `lost` names them as `linksDown` does). -/
def scopeCoversLink (scope link : Nat) : Bool := decide ((if 1024 ≤ link then 5 else 4) ≤ scope)

/-- A release raises the data access fault, REASON 6, where a store of the thread that it covers was lost with a link; the
fault reports it once (R384).  The spec names no TVAL for it (entry 27). -/
def State.lostCheck (s : State) (covers : Nat → Bool) : Except Stop Unit :=
  if s.lost.any (fun p => decide (p.1 = s.thr.tid) && covers p.2) then
    .error (.trap 8 (Config.lostTval s.free) (some (fstatWord 6 7 true))
      (fun s => { s with lost := s.lost.filter (fun p => !(decide (p.1 = s.thr.tid) && covers p.2)), free := s.free + 1 }))
  else .ok ()

/-! ## Engine accesses (R276, R279, R290, R362) -/

/-- Why an engine access faults: its cause and address.  Cause 0 is no fault: the access waits for a compressed block, refused where
`full` names the stack of a full table (R290), or for dirty bytes of one that cannot be written back yet (entry 15).  `heat` and `samples`
are those of R381 once the operation's accesses so far are counted. -/
structure EngineFault where
  cause : Nat
  addr : Word
  write : Bool
  tile : Bool
  full : Option Nat := none
  heat : List (Nat × BitVec 8 × Bool)
  samples : List (Nat × Nat)
  deriving DecidableEq, Repr

/-- A fault of an engine's access. -/
def State.engineFault (s : State) (cause : Nat) (addr : Word) (write tile : Bool) (full : Option Nat := none) : EngineFault :=
  ⟨cause, addr, write, tile, full, s.heat, s.samples⟩

/-- An access that faults has made its requests (R381). -/
def EngineFault.counted (e : EngineFault) (s : State) : State := { s with heat := e.heat, samples := e.samples }

/-- An engine operation's accesses. -/
def EngineOp.port (o : EngineOp) : Port := ⟨o.hearth, engineAgent o.gang, o.tid⟩

/-- Translate an engine's access (R280, R375); wide runs are cut by the caller so that each stays in one 64-byte unit. -/
def State.engineAccess (s : State) (asid hearth : Nat) (user : Bool) (u : Use) (va n : Nat) : Except EngineFault (Leaf × State) :=
  let a : Word := BitVec.ofNat 64 va
  match { s with free := s.free + 1 }.access asid user u a [s.free] with
  | (.error _, s) => .error (s.engineFault 8 a u.writes false)
  | (.ok l, s) =>
    let r := s.runAt l va
    let s := s.unalias hearth r.slot (lineOf r.x false 0)
    if u.reads ∧ s.homeBad hearth r n then .error (s.engineFault 8 a u.writes false)
    else if l.cmp ∧ (s.homeRead r n).isNone then .error (s.engineFault 14 a u.writes false)
    else
      match s.blockBusy l (lineOf r.x false 0) with
      | some h => .error (s.engineFault 0 a u.writes false h)
      | none =>
        if s.homeStuck hearth l r.slot (lineOf r.x false 0) u.writes then .error (s.engineFault 0 a u.writes false) else .ok (l, s)

/-- An engine reads `n` bytes of memory. -/
def State.engineRead (s : State) (asid hearth : Nat) (user : Bool) (va n : Nat) (clk : BitVec 16) :
    Except EngineFault (List Byte × BitVec 16 × State) :=
  (cutRun (n + 1) va n).foldlM (fun (acc : List Byte × BitVec 16 × State) (p : Nat × Nat) => do
    let (bs, clk, s) := acc
    let (l, s) ← s.engineAccess asid hearth user .load p.1 p.2
    let (b, clk, s) := s.unitRead hearth l p.1 p.2 clk
    .ok (bs ++ b, clk, s)) ([], clk, s)

/-- An engine writes bytes to memory. -/
def State.engineWrite (s : State) (asid : Nat) (port : Port) (user : Bool) (va : Nat) (bs : List Byte) (clk : BitVec 16) :
    Except EngineFault (BitVec 16 × State) :=
  (cutRun (bs.length + 1) va bs.length).foldlM (fun (acc : BitVec 16 × State) (p : Nat × Nat) => do
    let (clk, s) := acc
    let (l, s) ← s.engineAccess asid port.hearth user .store p.1 p.2
    match s.unitWrite port l p.1 ((bs.drop (p.1 - va)).take p.2) clk with
    | none => .error (s.engineFault 16 (BitVec.ofNat 64 p.1) true false)
    | some (clk, s) => .ok (clk, s)) (clk, s)

/-- The checks of an engine's access to tiles of gang `g`; a tile of the thread side is named by its first byte accessed (R276, R362). -/
def State.engineTile (s : State) (g off n : Nat) (write : Bool) : Except EngineFault Unit :=
  let tiles := match s.gangOf g with | some x => x.tiles | none => 0
  if tiles * 4096 < off + n then .error (s.engineFault 8 (BitVec.ofNat 64 off) write true)
  else
    match (List.range ((off % 4096 + n + 4095) / 4096)).find? (fun k => !s.engineOwned g (off / 4096 + k)) with
    | some k => .error (s.engineFault 13 (BitVec.ofNat 64 (Nat.max off ((off / 4096 + k) * 4096))) write true)
    | none => .ok ()

/-- An engine reads tiles of gang `g` (R276). -/
def State.engineTileRead (s : State) (g off n : Nat) : Except EngineFault (List Byte) := do
  s.engineTile g off n false
  if s.tilePoisoned g off n then .error (s.engineFault 8 (BitVec.ofNat 64 off) false true) else .ok (s.tileRead g off n)

/-- An engine writes tiles of gang `g` (R276). -/
def State.engineTileWrite (s : State) (g off : Nat) (bs : List Byte) : Except EngineFault State := do
  s.engineTile g off bs.length true
  .ok (s.tileWrite g off bs)

/-- An atomic add of `v` to an 8-byte counter for an engine or the front-end, a release with its clock and of what its agent knows
(R223, R279). -/
def State.engineAdd (s : State) (asid : Nat) (port : Port) (user : Bool) (va : Nat) (v : Word) (clk : BitVec 16) (k : Known) :
    Except EngineFault (BitVec 16 × State) := do
  let (l, s) ← s.engineAccess asid port.hearth user .atomic va 8
  let r := s.runAt l va
  let before := relsOf s.releases r.x 8
  let (bs, _, s) := s.unitRead port.hearth l va 8 clk
  match s.unitWrite port l va (leBytes 8 ((leNat bs + v.toNat) % 2 ^ 64)) clk with
  | none => .error (s.engineFault 16 (BitVec.ofNat 64 va) true false)
  | some (t, s) => .ok (t, s.releaseMark r.x 8 before t k)

/-- Data memory as a program reads it (R69): the byte a load of the current thread at `va` would return, with no effect;
none where the address does not translate. -/
def State.peek (s : State) (va : Word) : Option Byte :=
  match s.windowOff va with
  | some off => some ((s.tileRead s.thr.gang off 1).headD 0)
  | none =>
    match s.walk s.thr.asid.toNat va.toNat with
    | .error _ => none
    | .ok l =>
      let r := s.runAt l va.toNat
      let s := s.unalias s.thr.hearth r.slot (lineOf r.x false 0)
      match s.serves (Acc.row .load 1) l r with
      | some c => (c.at? r.x).map c.byte
      | none => some ((s.mixGet s.thr.hearth r 1).headD 0)

end Sys2Proof.Machine
end

