-- ==== Sys2Proof/Machine/ScalarMem.lean ====
section
/-! DEFINITION. Scalar loads and stores (spec 05 R67 to R69). -/

namespace Sys2Proof.Machine

open Sys2Proof

/-- ea of a scalar load or store (R67). -/
def State.ea (s : State) (a : BitVec 6) (i : BitVec 14) : Word := s.rs a + imm14 i

/-- A scalar load of `n` bytes; `ext` makes the register value (R67, R68). -/
def scalarLoad (w : Instr) (s : State) (n : Nat) (d a : BitVec 6) (i : BitVec 14) (ext : Nat → Word) : Result :=
  finish w s (do
    let (bs, t) ← s.load [a] (Acc.row .load n) (s.ea a i)
    .ok (t.ws d (ext (leNat bs))))

/-- A scalar store of the low `n` bytes of sd (R67, R68). -/
def scalarStore (w : Instr) (s : State) (n : Nat) (d a : BitVec 6) (i : BitVec 14) : Result :=
  finish w s (s.store [a, d] (Acc.row .store n) (s.ea a i) (leBytes n (s.rs d).toNat))

/-- Sign extension from `n` bits. -/
def signed (n : Nat) (v : Nat) : Word := BitVec.ofInt 64 (sgn n v)

/-- LB (R67, R68). -/
def execLb (d a : BitVec 6) (i : BitVec 14) (s : State) : Result := scalarLoad (.lb d a i) s 1 d a i (signed 8)

/-- LBU (R67, R68). -/
def execLbu (d a : BitVec 6) (i : BitVec 14) (s : State) : Result := scalarLoad (.lbu d a i) s 1 d a i (BitVec.ofNat 64)

/-- LH (R67, R68). -/
def execLh (d a : BitVec 6) (i : BitVec 14) (s : State) : Result := scalarLoad (.lh d a i) s 2 d a i (signed 16)

/-- LHU (R67, R68). -/
def execLhu (d a : BitVec 6) (i : BitVec 14) (s : State) : Result := scalarLoad (.lhu d a i) s 2 d a i (BitVec.ofNat 64)

/-- LW (R67, R68). -/
def execLw (d a : BitVec 6) (i : BitVec 14) (s : State) : Result := scalarLoad (.lw d a i) s 4 d a i (signed 32)

/-- LWU (R67, R68). -/
def execLwu (d a : BitVec 6) (i : BitVec 14) (s : State) : Result := scalarLoad (.lwu d a i) s 4 d a i (BitVec.ofNat 64)

/-- LD (R67, R68). -/
def execLd (d a : BitVec 6) (i : BitVec 14) (s : State) : Result := scalarLoad (.ld d a i) s 8 d a i (BitVec.ofNat 64)

/-- SB (R67, R68). -/
def execSb (d a : BitVec 6) (i : BitVec 14) (s : State) : Result := scalarStore (.sb d a i) s 1 d a i

/-- SH (R67, R68). -/
def execSh (d a : BitVec 6) (i : BitVec 14) (s : State) : Result := scalarStore (.sh d a i) s 2 d a i

/-- SW (R67, R68). -/
def execSw (d a : BitVec 6) (i : BitVec 14) (s : State) : Result := scalarStore (.sw d a i) s 4 d a i

/-- SD (R67, R68). -/
def execSd (d a : BitVec 6) (i : BitVec 14) (s : State) : Result := scalarStore (.sd d a i) s 8 d a i

end Sys2Proof.Machine
end

