-- ==== Sys2Proof/Machine/Atomics.lean ====
section
/-! DEFINITION. Atomic words (spec 17 R264, R265). -/

namespace Sys2Proof.Machine

open Sys2Proof

/-- An atomic of `z` bytes: `f` takes the old value, b and c, and gives the new value or none (R264).  AR makes it an acquire
and a release; a failing CAS is a load, and no release (R264, R265), so that a CAS reports a lost store once it is known to write (R384, entry
27). -/
def amo (w : Instr) (s : State) (z : Nat) (d a b : BitVec 6) (col ar : Bool) (sc : BitVec 3) (useD : Bool)
    (f : Nat → Nat → Nat → Option Nat) : Result :=
  finish w s (do
    s.serial w
    let va := s.rs a
    let n := 8 * z
    let g := fun old => f old ((s.rs b).toNat % 2 ^ n) ((s.rs d).toNat % 2 ^ n)
    let acc : Acc := { use := .atomic, n := z, col := col, width := if col then z else 0, scope := sc.toNat }
    let lost := if ar then s.lostCheck (scopeCoversLink sc.toNat) else .ok ()
    let (t, u) ← s.resolveWith (if useD then [a, b, d] else [a, b]) false (if useD then .ok () else lost) acc va
    if useD && (g (u.atomicOld acc t va)).isSome then lost else .ok ()
    if ¬ ar then do
      let (old, v) ← u.atomicAt acc t va .atomic g
      .ok (v.ws d (signed n old))
    else do
      let u := u.acquired acc t va
      let (old, v) ← u.bumpSiv.atomicAt acc t va .atomic g
      if (g old).isSome then .ok ((v.released t va z sc.toNat true).ws d (signed n old))
      else .ok ({ v with thr := { v.thr with siv := u.thr.siv } }.ws d (signed n old)))

/-- Signed minimum and maximum of n-bit patterns. -/
def amoMin (n x y : Nat) : Nat := if sgn n x ≤ sgn n y then x else y
def amoMax (n x y : Nat) : Nat := if sgn n x < sgn n y then y else x

/-- AMOADD.W (R264). -/
def execAmoaddW (d a b : BitVec 6) (c r : Bool) (sc : BitVec 3) (s : State) : Result :=
  amo (.amoaddW d a b c r sc) s 4 d a b c r sc false (fun old x _ => some ((old + x) % 2 ^ 32))

/-- AMOSWAP.W (R264). -/
def execAmoswapW (d a b : BitVec 6) (c r : Bool) (sc : BitVec 3) (s : State) : Result :=
  amo (.amoswapW d a b c r sc) s 4 d a b c r sc false (fun _ x _ => some x)

/-- AMOAND.W (R264). -/
def execAmoandW (d a b : BitVec 6) (c r : Bool) (sc : BitVec 3) (s : State) : Result :=
  amo (.amoandW d a b c r sc) s 4 d a b c r sc false (fun old x _ => some (Nat.land old x))

/-- AMOOR.W (R264). -/
def execAmoorW (d a b : BitVec 6) (c r : Bool) (sc : BitVec 3) (s : State) : Result :=
  amo (.amoorW d a b c r sc) s 4 d a b c r sc false (fun old x _ => some (Nat.lor old x))

/-- AMOXOR.W (R264). -/
def execAmoxorW (d a b : BitVec 6) (c r : Bool) (sc : BitVec 3) (s : State) : Result :=
  amo (.amoxorW d a b c r sc) s 4 d a b c r sc false (fun old x _ => some (Nat.xor old x))

/-- AMOMIN.W (R264). -/
def execAmominW (d a b : BitVec 6) (c r : Bool) (sc : BitVec 3) (s : State) : Result :=
  amo (.amominW d a b c r sc) s 4 d a b c r sc false (fun old x _ => some (amoMin 32 old x))

/-- AMOMAX.W (R264). -/
def execAmomaxW (d a b : BitVec 6) (c r : Bool) (sc : BitVec 3) (s : State) : Result :=
  amo (.amomaxW d a b c r sc) s 4 d a b c r sc false (fun old x _ => some (amoMax 32 old x))

/-- AMOCAS.W (R264). -/
def execAmocasW (d a b : BitVec 6) (c r : Bool) (sc : BitVec 3) (s : State) : Result :=
  amo (.amocasW d a b c r sc) s 4 d a b c r sc true (fun old x y => if old = y then some x else none)

/-- AMOADD.D (R264). -/
def execAmoaddD (d a b : BitVec 6) (c r : Bool) (sc : BitVec 3) (s : State) : Result :=
  amo (.amoaddD d a b c r sc) s 8 d a b c r sc false (fun old x _ => some ((old + x) % 2 ^ 64))

/-- AMOSWAP.D (R264). -/
def execAmoswapD (d a b : BitVec 6) (c r : Bool) (sc : BitVec 3) (s : State) : Result :=
  amo (.amoswapD d a b c r sc) s 8 d a b c r sc false (fun _ x _ => some x)

/-- AMOAND.D (R264). -/
def execAmoandD (d a b : BitVec 6) (c r : Bool) (sc : BitVec 3) (s : State) : Result :=
  amo (.amoandD d a b c r sc) s 8 d a b c r sc false (fun old x _ => some (Nat.land old x))

/-- AMOOR.D (R264). -/
def execAmoorD (d a b : BitVec 6) (c r : Bool) (sc : BitVec 3) (s : State) : Result :=
  amo (.amoorD d a b c r sc) s 8 d a b c r sc false (fun old x _ => some (Nat.lor old x))

/-- AMOXOR.D (R264). -/
def execAmoxorD (d a b : BitVec 6) (c r : Bool) (sc : BitVec 3) (s : State) : Result :=
  amo (.amoxorD d a b c r sc) s 8 d a b c r sc false (fun old x _ => some (Nat.xor old x))

/-- AMOMIN.D (R264). -/
def execAmominD (d a b : BitVec 6) (c r : Bool) (sc : BitVec 3) (s : State) : Result :=
  amo (.amominD d a b c r sc) s 8 d a b c r sc false (fun old x _ => some (amoMin 64 old x))

/-- AMOMAX.D (R264). -/
def execAmomaxD (d a b : BitVec 6) (c r : Bool) (sc : BitVec 3) (s : State) : Result :=
  amo (.amomaxD d a b c r sc) s 8 d a b c r sc false (fun old x _ => some (amoMax 64 old x))

/-- AMOCAS.D (R264). -/
def execAmocasD (d a b : BitVec 6) (c r : Bool) (sc : BitVec 3) (s : State) : Result :=
  amo (.amocasD d a b c r sc) s 8 d a b c r sc true (fun old x y => if old = y then some x else none)

end Sys2Proof.Machine
end

