-- ==== Sys2Proof/Machine/Operands.lean ====
section
/-! DEFINITION. Operands of vector words: element types, the effective mode, guards, element placement and the shared frame of
a counted word (spec 03 R32, R33, 06 R87, R88, R97, 07 R105 to R109, 11 R154 to R158, 12 R172, R188). -/

namespace Sys2Proof.Machine

open Sys2Proof

/-- Width in bits of an assigned type code (R32); 0 for any other. -/
def typeWidth (t : Nat) : Nat :=
  match t with
  | 0x00 | 0x08 | 0x10 => 64
  | 0x01 | 0x09 | 0x11 => 32
  | 0x02 | 0x03 | 0x0A | 0x12 => 16
  | 0x04 | 0x05 | 0x0B | 0x13 => 8
  | 0x06 | 0x07 | 0x0C | 0x14 => 4
  | _ => 0

/-- Floating types (R32). -/
def isFp (t : Nat) : Bool := decide (t ≤ 6)

/-- Two's complement integer types In. -/
def isI (t : Nat) : Bool := decide (8 ≤ t) && decide (t ≤ 12)

/-- Unsigned integer types Nn. -/
def isN (t : Nat) : Bool := decide (16 ≤ t) && decide (t ≤ 20)

/-- The ten integer types. -/
def isInt (t : Nat) : Bool := isI t || isN t

/-- FP64, FP32, FP16, BF16, F8E4, F8E5: the types of major 0x26 (R156). -/
def isFp6 (t : Nat) : Bool := decide (t ≤ 5)

/-- FP64, FP32, FP16, BF16: the types of major 0x27 (R156). -/
def isFp4 (t : Nat) : Bool := decide (t ≤ 3)

/-- Every assigned type but 0x1F. -/
def isAny (t : Nat) : Bool := decide (typeWidth t ≠ 0)

/-- An element read as an integer under its type (R157). -/
def intOf (t p : Nat) : Int := if isI t then sgn (typeWidth t) p else (p : Int)

/-- The effective mode of a counted word: MODE changed by its PFX (R19, R33, R159). -/
structure VCtx where
  et : Nat
  f : Nat
  cl : Nat
  rl : Nat
  mask : Nat
  minv : Bool
  zero : Bool
  rnd : Nat
  flush : Bool
  v4 : Option (BitVec 5)
  deriving DecidableEq, Repr

/-- Rows the word acts on: F x RL. -/
def VCtx.rows (c : VCtx) : Nat := c.f * c.rl

/-- The effective mode of the thread's next counted word; dynamic rounding is FRM (R92). -/
def Thread.vctx (t : Thread) : VCtx :=
  let m := t.mode.toNat
  let p := t.pfx
  let ovr {α : Type} (g : PfxPending → Option α) : Option α := p.bind g
  let rnd := match ovr (·.rnd) with | some r => r.toNat | none => bits m 15 13
  { et := match ovr (·.etype) with | some e => e.toNat | none => bits m 20 16
    f := 2 ^ bits m 10 9
    cl := t.cl
    rl := t.rl
    mask := match ovr (·.mask) with | some k => k.toNat | none => bits m 25 22
    minv := match ovr (·.mask) with | some _ => false | none => decide (bits m 21 21 = 1)
    zero := match ovr (·.pol) with | some z => z | none => decide (bits m 12 12 = 1)
    rnd := if rnd = 6 then t.frm.toNat else rnd
    flush := decide (bits m 11 11 = 1)
    v4 := ovr (·.v4) }

/-- Bit (row, col) of mask register `m`; m0 reads all ones (R31, R107). -/
def Thread.maskBit (t : Thread) (m row col : Nat) : Bool :=
  if m = 0 then true else if h : m * 8 + row < 128 then t.mrows[m * 8 + row].getLsbD col else false

/-- Whether column `j` may be touched: inside a pass, only the columns of its VP set (R188). -/
def Thread.inPass (t : Thread) (j : Nat) : Bool := !t.vrun.pass || t.vrun.cur.2.contains j

/-- The effective guard of element (i, j) (R108, R109, R188). -/
def Thread.guard (t : Thread) (c : VCtx) (i j : Nat) : Bool :=
  (t.maskBit c.mask (i % c.rl) j != c.minv) && t.inPass j

/-- Index of grouped row `i` of register `r` among the rows of the file (R108). -/
def rowIndex (c : VCtx) (r : BitVec 5) (i : Nat) : Nat := (r.toNat + i / c.rl) * 8 + i % c.rl

/-- A register row by index. -/
def Thread.row (t : Thread) (k : Nat) : Nat := if h : k < 256 then t.vrows[k].toNat else 0

/-- Replace a register row by index. -/
def Thread.setRow (t : Thread) (k v : Nat) : Thread :=
  if h : k < 256 then { t with vrows := t.vrows.set k (BitVec.ofNat 65536 v) } else t

/-- Element `j` of a row at width `w` (R106, R402). -/
def elemAt (row w j : Nat) : Nat := row / 2 ^ (j * w) % 2 ^ w

/-- Element (i, j) of register `r` at width `w`. -/
def Thread.elem (t : Thread) (c : VCtx) (r : BitVec 5) (w i j : Nat) : Nat := elemAt (t.row (rowIndex c r i)) w j

/-- A row whose columns 0 to `cl` - 1 hold `f`, the rest as in `old` (R109). -/
def buildRow (w cl old : Nat) (f : Nat → Nat) : Nat :=
  (List.range cl).foldl (fun acc j => acc + f j % 2 ^ w * 2 ^ (j * w)) 0 + old / 2 ^ (cl * w) * 2 ^ (cl * w)

/-- Write columns of register `r`, grouped row by grouped row; `f i j old` is the new element. -/
def Thread.writeRows (t : Thread) (c : VCtx) (r : BitVec 5) (w : Nat) (f : Nat → Nat → Nat → Nat) : Thread :=
  (List.range c.rows).foldl (fun u i =>
    let k := rowIndex c r i
    let old := t.row k
    u.setRow k (buildRow w c.cl old (fun j => f i j (elemAt old w j)))) t

/-- Poisoned groups a write covers whole are clean again (R383). -/
def Thread.healed (t : Thread) (c : VCtx) (r : BitVec 5) (w : Nat) (written : Nat → Nat → Bool) : Thread :=
  if t.poisonV = [] then t
  else { t with poisonV := t.poisonV.filter (fun p =>
    !((List.range c.rows).any (fun i => decide (rowIndex c r i = p.1 * 8 + p.2.1) &&
      (List.range (128 / w)).all (fun k => decide (p.2.2 * (128 / w) + k < c.cl) && written i (p.2.2 * (128 / w) + k))))) }

/-- Element-wise destination rule (R109, R154): active elements take the result, masked-off ones follow the policy, columns
outside the pass and tails stay.  Flags come from active elements only (R98). -/
def Thread.elementwise (t : Thread) (c : VCtx) (d : BitVec 5) (w : Nat) (op : Nat → Nat → Nat × Flags) : Thread :=
  let u := t.writeRows c d w (fun i j old =>
    if t.guard c i j then (op i j).1 else if c.zero && t.inPass j then 0 else old)
  let fl := (List.range c.rows).foldl (fun a i => (List.range c.cl).foldl (fun a j =>
    if t.guard c i j then joinFlags a (op i j).2 else a) a) 0
  (u.healed c d w (fun i j => t.guard c i j || (c.zero && t.inPass j))).addFlags fl

/-- A mask register's row by index. -/
def Thread.maskRow (t : Thread) (m row : Nat) : Nat := if h : m * 8 + row < 128 then t.mrows[m * 8 + row].toNat else 0

/-- Write the bits of columns 0 to CL - 1 of mask `m`; `f i j old` is the new bit. -/
def Thread.writeMask (t : Thread) (c : VCtx) (m : BitVec 4) (f : Nat → Nat → Bool → Bool) : Thread :=
  (List.range c.rl).foldl (fun u i =>
    let k := m.toNat * 8 + i
    let old := t.maskRow m.toNat i
    if h : k < 128 then
      { u with mrows := u.mrows.set k (BitVec.ofNat 16384
          (buildRow 1 c.cl old (fun j => if f i j (decide (old / 2 ^ j % 2 = 1)) then 1 else 0))) }
    else u) t

/-- Place in `poisonV` of mask register `m`, whose groups are of 128 columns (R383). -/
def maskMark (m : Nat) : Nat := 40 + m

/-- No bit of mask register `m` in the first `rows` rows and `cols` columns is poisoned; m0 is no storage (R107, R383). -/
def Thread.maskSound (t : Thread) (m rows cols : Nat) : Bool :=
  decide (m = 0) || t.poisonV.all (fun p => !(decide (p.1 = maskMark m) && decide (p.2.1 < rows) && decide (p.2.2 * 128 < cols)))

/-- Poisoned groups of a mask that a write covers whole are clean again (R383). -/
def Thread.maskHealed (t : Thread) (c : VCtx) (m : BitVec 4) (written : Nat → Nat → Bool) : Thread :=
  if t.poisonV = [] then t
  else { t with poisonV := t.poisonV.filter (fun p => !(decide (p.1 = maskMark m.toNat) && decide (p.2.1 < c.rl) &&
    (List.range 128).all (fun k => decide (p.2.2 * 128 + k < c.cl) && written p.2.1 (p.2.2 * 128 + k)))) }

/-- Element-wise rule for a mask destination (R109, R167, R169). -/
def Thread.maskwise (t : Thread) (c : VCtx) (m : BitVec 4) (op : Nat → Nat → Bool × Flags) : Thread :=
  let u := t.writeMask c m (fun i j old => if t.guard c i j then (op i j).1 else if c.zero && t.inPass j then false else old)
  let u := u.maskHealed c m (fun i j => t.guard c i j || (c.zero && t.inPass j))
  let fl := (List.range c.rl).foldl (fun a i => (List.range c.cl).foldl (fun a j =>
    if t.guard c i j then joinFlags a (op i j).2 else a) a) 0
  u.addFlags fl

/-- Rounding of element (i, j) of a vector word (R92, R96, R97). -/
def Thread.elemRnd (t : Thread) (c : VCtx) (i j : Nat) : Rnd :=
  ⟨c.rnd, if c.rnd = 5 then stochBits t.srctr t.rngkey (i * c.cl + j) else 0, c.flush⟩

/-- A floating element read under flush (R97). -/
def VCtx.fval (c : VCtx) (p : Nat) : FVal := (fmtOf c.et).val ((fmtOf c.et).flushIn c.flush p)

/-- Entry `code` of a codebook register as a BF16 pattern (R88). -/
def Thread.cbEntry (t : Thread) (cb code : Nat) : Nat :=
  if h : cb < 16 then t.cbs[cb].toNat / 2 ^ (16 * code) % 2 ^ 16 else 0

/-- The exact value of an element of any type under a codebook and flush (R84, R87, R88, R97). -/
def Thread.valueOf (t : Thread) (ty cb : Nat) (flush : Bool) (p : Nat) : FVal :=
  if ty = 7 then bf16.val (bf16.flushIn flush (t.cbEntry cb p))
  else if isFp ty then (fmtOf ty).val ((fmtOf ty).flushIn flush p)
  else intVal (intOf ty p)

/-- Vector-state trap with TVAL the word (R21, R155). -/
def Stop.vstate (i : Instr) : Stop := .of 9 (wordOf i)

/-- No element (i, j) of a register that a word uses, read at width `w`, is poisoned (R383). -/
def Thread.soundAt (t : Thread) (c : VCtx) (r : BitVec 5) (w : Nat) (used : Nat → Nat → Bool) : Bool :=
  t.poisonV.all (fun p => (List.range c.rows).all (fun i =>
    !(decide (rowIndex c r i = p.1 * 8 + p.2.1) && (List.range c.cl).any (fun j => decide (j * w / 128 = p.2.2) && used i j))))

/-- Active elements of source rows must not be poisoned: the data access fault, REASON 5, TVAL 0 (R383). -/
def Thread.sound (t : Thread) (c : VCtx) (rs : List (BitVec 5 × Nat)) : Bool :=
  rs.all (fun r => t.soundAt c r.1 r.2 (t.guard c))

/-- Row 0 of the guarding mask, where the columns from `lo` to `hi` are guarded by it: the first poisoned one, none where all are sound (R107,
R383). -/
def Thread.firstBad (t : Thread) (m lo hi : Nat) : Option Nat :=
  if m = 0 ∨ t.poisonV = [] then none
  else ((List.range (hi - lo)).map (lo + ·)).find? (fun j => t.poisonV.any (fun p => decide (p.1 = maskMark m) && decide (p.2.1 = 0) && decide (p.2.2 = j / 128)))

/-- A word's guard must not be read from poisoned bits of its mask: no element is known to be active before (R383, entry 64). -/
def State.maskCheck (s : State) (c : VCtx) : Except Stop Unit :=
  if s.thr.maskSound c.mask c.rl c.cl then .ok () else .error (.data 0 5 7 false)

/-- What a counted word checks before its operands (R21, R40, R108, R155, R156, R187; order by R24, entry 17).  `regs` are its vector registers, `types` the types it accepts, `widths` the widths it reads and
writes.  The capacity is checked at RL = 0 too, before R154 lets the word complete without effect (entry 89). -/
def State.vready (s : State) (i : Instr) (regs : List (BitVec 5)) (types : Nat → Bool) (widths : VCtx → List Nat) :
    Except Stop VCtx :=
  let c := s.thr.vctx
  let k := instrClass i
  if c.et ≠ 0x1F ∧ ¬ types c.et then .error (.illegal i)
  else if regs.any (fun r => decide (r.toNat % c.f ≠ 0)) then .error (.illegal i)
  else if s.inBlock ∧ (k = .Sl ∨ k = .Mx ∨ k = .Tf) then .error (.illegal i)
  else do
    s.inConvoy k
    if ¬ s.thr.status.vlive ∨ c.et = 0x1F then .error (.vstate i)
    else if (widths c).any (fun w => decide (s.thr.cap w < c.cl)) then .error (.vstate i)
    else .ok c

/-- The same, then the check of its mask. -/
def State.vcheck (s : State) (i : Instr) (regs : List (BitVec 5)) (types : Nat → Bool) (widths : VCtx → List Nat) : Except Stop VCtx := do
  let c ← s.vready i regs types widths
  s.maskCheck c
  .ok c

/-- A counted register word: checks, nothing to do at CL = 0 or RL = 0 (R21, R154, R172), else `body` on the thread. -/
def vword (i : Instr) (s : State) (regs srcs : List (BitVec 5)) (types : Nat → Bool) (widths : VCtx → List Nat)
    (body : VCtx → Thread → Thread) : Result :=
  finishCounted i s (do
    let c ← s.vcheck i regs types widths
    if c.cl = 0 ∨ c.rl = 0 then .ok s
    else if ¬ s.thr.sound c (srcs.map (fun r => (r, typeWidth c.et))) then .error (.data 0 5 7 false)
    else .ok { s with thr := body c s.thr })

/-- The common case of one width, that of the effective type. -/
def oneWidth (c : VCtx) : List Nat := [typeWidth c.et]

/-- A counted word with scalar operands `rs` that reads of each register the elements `reads` names (R383). -/
def vwordAt (i : Instr) (s : State) (rs : List (BitVec 6)) (regs : List (BitVec 5)) (types : Nat → Bool)
    (reads : VCtx → Thread → List (BitVec 5 × (Nat → Nat → Bool))) (body : VCtx → Thread → Thread) : Result :=
  finishCounted i s (do
    let c ← s.vcheck i regs types oneWidth
    if c.cl = 0 ∨ c.rl = 0 then .ok s
    else do
      s.consume rs
      if ¬ (reads c s.thr).all (fun r => s.thr.soundAt c r.1 (typeWidth c.et) r.2) then .error (.data 0 5 7 false)
      else .ok { s with thr := body c s.thr })

end Sys2Proof.Machine
end

