-- ==== Sys2Proof/Machine/Convoys.lean ====
section
/-! DEFINITION. Fetching a word, GRP and PFX (spec 03 R27, R31 to R40, 05 R70, 12 R187). -/

namespace Sys2Proof.Machine

open Sys2Proof

/-- Fetch fault (R24, R376). -/
def fetchFault (va : Word) (reason level : Nat) : Stop := .trap 6 va (some (fstatWord reason level false)) id

/-- Fetch the word at `va` (R15, R24, R27, R200, R375): the hearth's copy or the home's bytes, the home's under R381 a request.  A word the
thread has stored to since its last branch, jump, WRC or trap return may read old or new (R70).  A fetch from a locked block waits (R290). -/
def State.fetch (s : State) (va : Word) : Except Stop (BitVec 32 × State) :=
  if va.toNat % 4 ≠ 0 then .error (.of 5 va)
  else if va.toNat / 2 ^ 56 ≠ 0 then .error (fetchFault va 7 7)
  else if (s.windowOff va).isSome then .error (fetchFault va 8 7)
  else
    let a := Acc.row .fetch 4
    let fault := fun (u : State) (reason level : Nat) => Except.error ((fetchFault va reason level).leaving u.countAs)
    match s.access s.thr.asid.toNat (!s.thr.status.priv) .fetch va s.wordMoment with
    | (.error e, u) => fault u e.1 e.2
    | (.ok l, s) =>
      let r := s.runAt l va.toNat
      let home := (s.serves a l r).isNone
      let s := s.unalias s.thr.hearth r.slot (a.line r.x)
      if s.readsBad a l r then fault s 5 7
      else if l.cmp ∧ (s.homeRead r 4).isNone then fault s 8 7
      else do
        s.aliasCheck l (a.line r.x)
        if home then s.tableCheck l (a.line r.x) else .ok ()
        let new := s.seenWord r
        let s := if home then s.reachLine s.thr.hearth l r (a.line r.x) else s
        match assoc s.thr.stale r.x with
        | none => .ok (new, s)
        | some old => .ok (if Config.fetchOld s.free then old else new, { s with free := s.free + 1 })

/-- The word at `va` with no effect on the state. -/
def State.fetchPeek (s : State) (va : Word) : Except Stop (BitVec 32) := (s.fetch va).map (·.1)

/-- The words after a GRP, at most `n` from `va`, up to the first that cannot be fetched. -/
def State.fetchRun (s : State) : Nat → Word → List (Except Stop (BitVec 32))
  | 0, _ => []
  | n + 1, va =>
    match s.fetchPeek va with
    | .error e => [.error e]
    | .ok w => .ok w :: s.fetchRun n (va + 4)

/-- Split a run after its `n`-th counted word: the span, and the rest; none where the run ends first. -/
def splitSpan : Nat → List (Except Stop (BitVec 32)) → Option (List (BitVec 32) × List (Except Stop (BitVec 32)))
  | 0, l => some ([], l)
  | _ + 1, [] => none
  | _ + 1, .error _ :: _ => none
  | n + 1, .ok w :: r =>
    (splitSpan (if (wordClass w.toNat).counted then n else n + 1) r).map (fun p => (w :: p.1, p.2))

/-- Every PFX of a span stands directly before a counted word (R35 check 3). -/
def pfxPlaced : List (BitVec 32) → Bool
  | [] => true
  | [w] => decide (wordClass w.toNat ≠ .P)
  | w :: v :: r => (decide (wordClass w.toNat ≠ .P) || (wordClass v.toNat).counted) && pfxPlaced (v :: r)

/-- No unit class above its quota (R34, R35 check 4). -/
def quotasMet (span : List (BitVec 32)) : Bool :=
  [WordClass.Ld, .St, .Ar, .Sp, .Sl, .Mk, .Mx, .Tf].all (fun k =>
    decide ((span.filter (fun w => decide (wordClass w.toNat = k))).length ≤ k.quota))

/-- Check 5 of R35: the first word after the span that is no S word is neither counted nor a PFX; the scan stops at the
first word that cannot be fetched. -/
def afterSpan : List (Except Stop (BitVec 32)) → Bool
  | [] => true
  | .error _ :: _ => true
  | .ok w :: r =>
    let k := wordClass w.toNat
    if k = .S then afterSpan r else !(k.counted || decide (k = .P))

/-- The check of a GRP with `n` counted words at address `g` (R35, R36). -/
def State.spanCheck (s : State) (g : Word) (n : Nat) (tval : Word) : Except Stop Unit :=
  let run := s.fetchRun 31 (g + 4)
  match splitSpan n run with
  | none =>
    match run.getLast? with
    | some (.error e) => .error e
    | _ => .error (.of 4 tval)
  | some (span, rest) =>
    if span.any (fun w => decide (wordClass w.toNat = .X) || decide (wordClass w.toNat = .G)) then .error (.of 4 tval)
    else if pfxPlaced span && quotasMet span && afterSpan rest then .ok ()
    else .error (.of 4 tval)

/-- GRP (R31, R35 to R38).  In an open convoy that a trap return entered, a GRP fails rule 2 (R40), once its own span can be fetched (R24). -/
def execGrp (m : BitVec 4) (v : Bool) (t : BitVec 5) (r : BitVec 3) (p f : Bool) (g : BitVec 2) (l : BitVec 3) (s : State) :
    Result :=
  let i : Instr := .grp m v t r p f g l
  finish i s (do
    let check := s.spanCheck s.thr.pc (l.toNat + 1) (wordOf i)
    match check with
    | .error (.trap 4 _ _ _) | .ok _ =>
      if s.thr.inSpan ∧ convoyOpen s.thr.convoy then .error (.of 4 (s.thr.convoy >>> 32)) else check
    | e => e
    .ok { s with thr := { s.thr with
      mode := BitVec.ofNat 64 (encode i / 64 % 2 ^ 20 * 64)
      convoy := BitVec.ofNat 64 (encode i * 2 ^ 32 + 1)
      inSpan := true } })

/-- PFX (R33, R39, R40, R153): its own checks, which come before those of its word (entry 87); its word then runs as one instruction with
it.  A PFX whose own bits are illegal or reserved has taken that trap already, before the word after it is fetched (entry 87). -/
def execPfx (m : BitVec 4) (v : Bool) (r : BitVec 3) (w : Bool) (p : BitVec 2) (q : BitVec 5) (x : Bool) (t : BitVec 5)
    (y : Bool) (s : State) : Result :=
  let i : Instr := .pfx m v r w p q x t y
  let res : Except Stop (BitVec 32) := do
    let n ← s.fetchPeek (s.thr.pc + 4)
    let a := accepts n.toNat
    let counted := (wordClass n.toNat).counted
    if counted ∧ ((v ∧ ¬ a.m) ∨ (w ∧ ¬ a.d) ∨ (p ≠ 0 ∧ ¬ a.p) ∨ (x ∧ ¬ a.v) ∨ (y ∧ ¬ a.t)) then .error (.illegal i)
    else if ¬ convoyOpen s.thr.convoy then .error (.of 4 0)
    else if ¬ counted then .error (.of 4 (s.thr.convoy >>> 32))
    else .ok n
  match res with
  | .ok n => .next { s with thr := { s.thr with
      pc := s.thr.pc + 4
      pfx := some { word := BitVec.ofNat 32 (encode i)
                    mask := if v then some m else none, rnd := if w then some r else none
                    pol := if p = 0 then none else some (decide (p = 2)), v4 := if x then some q else none
                    etype := if y then some t else none, next := n } } }
  | .error e => finish i s (.error e)

/-- Whether a pass has reached its sixteenth word and that word is not VPEND (R187). -/
def State.blockOverrun (s : State) (w : BitVec 32) : Bool :=
  s.thr.vrun.pass && decide (15 ≤ (s.thr.pc - s.thr.vrun.cur.1).toNat / 4) && decide (w ≠ 0xB8000003)

end Sys2Proof.Machine
end

