-- ==== Sys2Proof/Machine/Blocks.lean ====
section
/-! DEFINITION. Vector-fetched blocks: VFETCH, VJOIN, VNEXT, VPEND (spec 07 R114 to R118, 12 R185 to R191). -/

namespace Sys2Proof.Machine

open Sys2Proof

/-- A group of VPs with one next address and the rounds its longest-waiting VP was held. -/
structure VGroup where
  addr : Word
  vps : List Nat
  held : Nat
  deriving DecidableEq, Repr

/-- Put VP `j` into its group, groups in increasing address order (R115). -/
def VGroup.join (a : Word) (j held : Nat) : List VGroup → List VGroup
  | [] => [⟨a, [j], held⟩]
  | g :: r =>
    if g.addr = a then { g with vps := g.vps ++ [j], held := Nat.max g.held held } :: r
    else if a.toNat < g.addr.toNat then ⟨a, [j], held⟩ :: g :: r
    else g :: VGroup.join a j held r

/-- The groups of the VPs that have not stopped. -/
def VRun.groups (r : VRun) : List VGroup :=
  (r.vps.zipIdx).foldl (fun l p => if p.1.1 = 0 then l else VGroup.join p.1.1 p.2 p.1.2 l) []

/-- Insert by rank: held longer first, then lower address (R115). -/
def VGroup.rank (g : VGroup) : List VGroup → List VGroup
  | [] => [g]
  | h :: r => if h.held < g.held then g :: h :: r else h :: VGroup.rank g r

/-- The addresses of up to eight selected groups (R115). -/
def VRun.selected (r : VRun) : List Word :=
  ((r.groups.foldl (fun l g => VGroup.rank g l) []).take 8).map (·.addr)

/-- Start the next pass of the round, else the next round, else end the run (R115, R188, R190): the thread's next word. -/
def Thread.nextPass (t : Thread) : Thread :=
  let r := t.vrun
  match r.sets with
  | p :: rest =>
    { t with vrun := { r with sets := rest, cur := p, pass := true, supplied := [] }, pc := p.1, mode := r.mode }
  | [] =>
    let sel := r.selected
    match r.groups.filter (fun g => sel.contains g.addr) with
    | [] => { t with vrun := { r with pass := false, cur := (0, []), supplied := [] }, pc := r.joinPc }
    | g :: gs =>
      let vps := r.vps.map (fun v => if v.1 = 0 then v else if sel.contains v.1 then (v.1, 0) else (v.1, v.2 + 1))
      { t with
        vrun := { r with vps := vps, sets := gs.map (fun g => (g.addr, g.vps)), cur := (g.addr, g.vps), pass := true
                         supplied := [], round := r.round + 1 }
        pc := g.addr, mode := r.mode }

/-- VFETCH (R114, R186; order of its traps by R24, entry 18). -/
def execVfetch (sb : BitVec 6) (s : State) : Result :=
  let i : Instr := .vfetch sb
  finishWith i s (do
    if s.inBlock then .error (.illegal i) else .ok ()
    let n ← s.fetchPeek (s.thr.pc + 4)
    let b := s.rs sb
    if n ≠ 0xB8000001 then .error (.illegal i)
    else if b.toNat % 4 ≠ 0 then .error (.of 5 b)
    else if b.toNat / 2 ^ 56 ≠ 0 then .error (fetchFault b 7 7)
    else do
      s.serial i
      if ¬ s.thr.status.vlive then .error (.vstate i) else .ok ()
      s.consume [sb]
      let t := s.thr
      let c := t.vctx
      if ¬ t.maskSound c.mask 1 t.cl then .error (.data 0 5 7 false) else .ok ()
      let parts := (List.range t.cl).filter (fun j => t.maskBit c.mask 0 j != c.minv)
      let vps := (List.range t.cl).map (fun j => if parts.contains j then (b, 0) else ((0 : Word), 0))
      let run : VRun := { run := true, pass := false, round := 0, vps := if parts = [] then [] else vps
                          sets := if parts = [] then [] else [(b, parts)], cur := (0, []), joinPc := t.pc + 4
                          mode := t.mode, convoy := t.convoy, len := t.len, supplied := [], depth := 0 }
      .ok { s with thr := { t with vrun := run }.nextPass })

/-- VJOIN (R116, R191): only once the run has ended, at whatever address (entry 95).  The CONVOY it restores is open only where VFETCH stood in no
checked span, and so is no trap return (R40). -/
def execVjoin (s : State) : Result :=
  finish .vjoin s (do
    let r := s.thr.vrun
    if s.inBlock ∨ ¬ (r.run ∧ r.depth = 0 ∧ r.sets = [] ∧ r.groups = []) then .error (.illegal .vjoin)
    else do
      s.serial .vjoin
      if ¬ s.thr.status.vlive then .error (.vstate .vjoin)
      else .ok { s with thr := { s.thr with mode := r.mode, convoy := r.convoy, len := r.len, vrun := VRun.idle, inSpan := false } })

/-- The guard of VNEXT and VPEND: only inside a block, and no open convoy (R187, R190). -/
def State.blockWord (s : State) (i : Instr) : Except Stop Unit :=
  if ¬ s.inBlock then .error (.illegal i)
  else if s.thr.inSpan && convoyOpen s.thr.convoy then .error (.of 4 (s.thr.convoy >>> 32))
  else if ¬ s.thr.status.vlive then .error (.vstate i)
  else .ok ()

/-- VNEXT (R148, R189). -/
def execVnext (m : BitVec 4) (sb : BitVec 6) (s : State) : Result :=
  let i : Instr := .vnext m sb
  finish i s (do
    let b := s.rs sb
    if ¬ s.inBlock then .error (.illegal i)
    else if b.toNat % 4 ≠ 0 then .error (.of 5 b)
    else if b.toNat / 2 ^ 56 ≠ 0 then .error (fetchFault b 7 7)
    else do
      s.blockWord i
      s.consume [sb]
      if ¬ s.thr.maskSound m.toNat 1 s.thr.cl then .error (.data 0 5 7 false) else .ok ()
      let r := s.thr.vrun
      let hit := r.cur.2.filter (fun j => s.thr.maskBit m.toNat 0 j)
      let kept := r.supplied.filter (fun p => !hit.contains p.1)
      .ok { s with thr := { s.thr with vrun := { r with supplied := kept ++ hit.map (fun j => (j, b)) } } })

/-- VPEND (R190): a VP of the pass takes the address its VNEXT supplied, or stops (R115). -/
def execVpend (s : State) : Result :=
  finishWith .vpend s (do
    s.blockWord .vpend
    let r := s.thr.vrun
    let vps := (r.vps.zipIdx).map (fun p =>
      if r.cur.2.contains p.2 then ((assoc r.supplied p.2).getD 0, 0) else p.1)
    .ok { s with thr := { s.thr with vrun := { r with vps := vps }, stale := s.thr.stale }.nextPass })

end Sys2Proof.Machine
end

