-- ==== Sys2Proof/Machine/Branches.lean ====
section
/-! DEFINITION. Branches and jumps (spec 05 R64 to R66). -/

namespace Sys2Proof.Machine

open Sys2Proof

/-- The target of a branch or jump by a word offset (R29): PC + 4 x SignExtend(off, n). -/
def offTarget (pc : Word) (n : Nat) (o : BitVec n) : Word := pc + (o.signExtend 64) <<< 2

/-- A conditional branch (R64). -/
def branch (i : Instr) (s : State) (a b : BitVec 6) (o : BitVec 14) (c : Bool) : Result :=
  finishWith i s (do
    s.serial i
    s.consume [a, b]
    .ok (if c then s.pcTo (offTarget s.thr.pc 14 o) else s.pcNext))

/-- BEQ (R64). -/
def execBeq (a b : BitVec 6) (o : BitVec 14) (s : State) : Result := branch (.beq a b o) s a b o (decide ((s.rs a) = (s.rs b)))

/-- BNE (R64). -/
def execBne (a b : BitVec 6) (o : BitVec 14) (s : State) : Result := branch (.bne a b o) s a b o (decide ((s.rs a) ≠ (s.rs b)))

/-- BLT (R64). -/
def execBlt (a b : BitVec 6) (o : BitVec 14) (s : State) : Result := branch (.blt a b o) s a b o (decide ((s.rs a).toInt < (s.rs b).toInt))

/-- BGE (R64). -/
def execBge (a b : BitVec 6) (o : BitVec 14) (s : State) : Result := branch (.bge a b o) s a b o (decide ((s.rs b).toInt ≤ (s.rs a).toInt))

/-- BLTU (R64). -/
def execBltu (a b : BitVec 6) (o : BitVec 14) (s : State) : Result := branch (.bltu a b o) s a b o (decide ((s.rs a).toNat < (s.rs b).toNat))

/-- BGEU (R64). -/
def execBgeu (a b : BitVec 6) (o : BitVec 14) (s : State) : Result := branch (.bgeu a b o) s a b o (decide ((s.rs b).toNat ≤ (s.rs a).toNat))

/-- JLK (R65). -/
def execJlk (d : BitVec 6) (o : BitVec 20) (s : State) : Result :=
  finishWith (.jlk d o) s (do
    s.serial (.jlk d o)
    .ok ((s.ws d (s.thr.pc + 4)).pcTo (offTarget s.thr.pc 20 o)))

/-- JLKR (R65, R66): the target is not checked here. -/
def execJlkr (d a : BitVec 6) (i : BitVec 14) (s : State) : Result :=
  finishWith (.jlkr d a i) s (do
    s.serial (.jlkr d a i)
    s.consume [a]
    .ok ((s.ws d (s.thr.pc + 4)).pcTo (s.rs a + imm14 i)))

end Sys2Proof.Machine
end

