-- ==== Sys2Proof/Machine/VectorArith.lean ====
section
/-! DEFINITION. Element-wise vector arithmetic, compares, masks and conversions (spec 11 R154 to R158, R162 to R171). -/

namespace Sys2Proof.Machine

open Sys2Proof

/-! ## Integer words (R157, R162) -/

/-- A two-operand integer word; `op` takes the type and the two patterns. -/
def vint (i : Instr) (s : State) (d a b : BitVec 5) (types : Nat → Bool) (op : Nat → Nat → Nat → Nat) : Result :=
  vword i s [d, a, b] [a, b] types oneWidth (fun c t =>
    let w := typeWidth c.et
    t.elementwise c d w (fun i j => (op c.et (t.elem c a w i j) (t.elem c b w i j), 0)))

/-- A one-operand integer word. -/
def vint1 (i : Instr) (s : State) (d a : BitVec 5) (types : Nat → Bool) (op : Nat → Nat → Nat) : Result :=
  vword i s [d, a] [a] types oneWidth (fun c t =>
    let w := typeWidth c.et
    t.elementwise c d w (fun i j => (op c.et (t.elem c a w i j), 0)))

/-- An integer modulo 2^w of its type. -/
def modW (t : Nat) (z : Int) : Nat := wrap (typeWidth t) z

/-- SatI or SatN of the type (R1, R162). -/
def satW (t : Nat) (z : Int) : Nat :=
  let w := typeWidth t
  let lo : Int := if isI t then -(2 ^ (w - 1)) else 0
  let hi : Int := if isI t then 2 ^ (w - 1) - 1 else 2 ^ w - 1
  wrap w (if z < lo then lo else if hi < z then hi else z)

/-- The shift amount: the low log2 w bits of b. -/
def vshamt (t b : Nat) : Nat := b % typeWidth t

/-- VADD (R162). -/
def execVadd (d a b : BitVec 5) (s : State) : Result :=
  vint (.vadd d a b) s d a b isInt (fun t x y => modW t (intOf t x + intOf t y))

/-- VSUB (R162). -/
def execVsub (d a b : BitVec 5) (s : State) : Result :=
  vint (.vsub d a b) s d a b isInt (fun t x y => modW t (intOf t x - intOf t y))

/-- VMUL (R162). -/
def execVmul (d a b : BitVec 5) (s : State) : Result :=
  vint (.vmul d a b) s d a b isInt (fun t x y => modW t (intOf t x * intOf t y))

/-- VMULH (R162). -/
def execVmulh (d a b : BitVec 5) (s : State) : Result :=
  vint (.vmulh d a b) s d a b isInt (fun t x y => modW t (intOf t x * intOf t y / 2 ^ typeWidth t))

/-- VMIN (R162). -/
def execVmin (d a b : BitVec 5) (s : State) : Result :=
  vint (.vmin d a b) s d a b isInt (fun t x y => if intOf t x < intOf t y then x else y)

/-- VMAX (R162). -/
def execVmax (d a b : BitVec 5) (s : State) : Result :=
  vint (.vmax d a b) s d a b isInt (fun t x y => if intOf t x < intOf t y then y else x)

/-- VMINU (R162). -/
def execVminu (d a b : BitVec 5) (s : State) : Result :=
  vint (.vminu d a b) s d a b isInt (fun _ x y => if x < y then x else y)

/-- VMAXU (R162). -/
def execVmaxu (d a b : BitVec 5) (s : State) : Result :=
  vint (.vmaxu d a b) s d a b isInt (fun _ x y => if x < y then y else x)

/-- VAND (R162). -/
def execVand (d a b : BitVec 5) (s : State) : Result :=
  vint (.vand d a b) s d a b isAny (fun _ x y => Nat.land x y)

/-- VOR (R162). -/
def execVor (d a b : BitVec 5) (s : State) : Result :=
  vint (.vor d a b) s d a b isAny (fun _ x y => Nat.lor x y)

/-- VXOR (R162). -/
def execVxor (d a b : BitVec 5) (s : State) : Result :=
  vint (.vxor d a b) s d a b isAny (fun _ x y => Nat.xor x y)

/-- VSLL (R162). -/
def execVsll (d a b : BitVec 5) (s : State) : Result :=
  vint (.vsll d a b) s d a b isInt (fun t x y => x * 2 ^ vshamt t y)

/-- VSRL (R162). -/
def execVsrl (d a b : BitVec 5) (s : State) : Result :=
  vint (.vsrl d a b) s d a b isInt (fun t x y => x / 2 ^ vshamt t y)

/-- VSRA (R162). -/
def execVsra (d a b : BitVec 5) (s : State) : Result :=
  vint (.vsra d a b) s d a b isInt (fun t x y => modW t (intOf t x / 2 ^ vshamt t y))

/-- VADDS (R162). -/
def execVadds (d a b : BitVec 5) (s : State) : Result :=
  vint (.vadds d a b) s d a b isInt (fun t x y => satW t (intOf t x + intOf t y))

/-- VSUBS (R162). -/
def execVsubs (d a b : BitVec 5) (s : State) : Result :=
  vint (.vsubs d a b) s d a b isInt (fun t x y => satW t (intOf t x - intOf t y))

/-- VABS (R162). -/
def execVabs (d a : BitVec 5) (s : State) : Result := vint1 (.vabs d a) s d a isInt (fun t x => modW t (if intOf t x < 0 then -intOf t x else intOf t x))

/-- VNEG (R162). -/
def execVneg (d a : BitVec 5) (s : State) : Result := vint1 (.vneg d a) s d a isInt (fun t x => modW t (-intOf t x))

/-- VMOV (R162). -/
def execVmov (d a : BitVec 5) (s : State) : Result := vint1 (.vmov d a) s d a isAny (fun _ x => x)

/-- VSEL (R168): every element within bounds is written, from va where the guard is 1 and from vb elsewhere. -/
def execVsel (d a b : BitVec 5) (s : State) : Result :=
  vwordAt (.vsel d a b) s [] [d, a, b] isAny (fun c t =>
    [(a, t.guard c), (b, fun i j => t.inPass j && !t.guard c i j)]) (fun c t =>
    let w := typeWidth c.et
    (t.writeRows c d w (fun i j old =>
      if ¬ t.inPass j then old else if t.guard c i j then t.elem c a w i j else t.elem c b w i j)).healed c d w
      (fun _ j => t.inPass j))

/-! ## Floating words (R157, R163, R164) -/

/-- A floating word that rounds: SRCTR advances by the elements it covers (R96). -/
def vround (i : Instr) (s : State) (d : BitVec 5) (srcs : List (BitVec 5)) (types : Nat → Bool)
    (op : VCtx → Thread → Rnd → Nat → Nat → Nat × Flags) : Result :=
  vword i s (d :: srcs) srcs types oneWidth (fun c t =>
    (t.elementwise c d (typeWidth c.et) (fun i j => op c t (t.elemRnd c i j) i j)).advance c.rnd (c.rows * c.cl))

/-- A floating element of a register, flushed (R97). -/
def Thread.felem (t : Thread) (c : VCtx) (r : BitVec 5) (i j : Nat) : FVal := c.fval (t.elem c r (typeWidth c.et) i j)

/-- The flushed pattern of an element. -/
def Thread.fpat (t : Thread) (c : VCtx) (r : BitVec 5) (i j : Nat) : Nat :=
  (fmtOf c.et).flushIn c.flush (t.elem c r (typeWidth c.et) i j)

/-- A floating word that rounds nothing. -/
def vexact (i : Instr) (s : State) (d : BitVec 5) (srcs : List (BitVec 5)) (types : Nat → Bool)
    (op : VCtx → Thread → Nat → Nat → Nat × Flags) : Result :=
  vword i s (d :: srcs) srcs types oneWidth (fun c t => t.elementwise c d (typeWidth c.et) (op c t))

/-- VFADD (R163). -/
def execVfadd (d a b : BitVec 5) (s : State) : Result :=
  vround (.vfadd d a b) s d [a, b] isFp6 (fun c t rn i j => (fmtOf c.et).add rn (t.felem c a i j) (t.felem c b i j))

/-- VFSUB (R163). -/
def execVfsub (d a b : BitVec 5) (s : State) : Result :=
  vround (.vfsub d a b) s d [a, b] isFp6 (fun c t rn i j => (fmtOf c.et).add rn (t.felem c a i j) (t.felem c b i j).flip)

/-- VFMUL (R163). -/
def execVfmul (d a b : BitVec 5) (s : State) : Result :=
  vround (.vfmul d a b) s d [a, b] isFp6 (fun c t rn i j => (fmtOf c.et).mul rn (t.felem c a i j) (t.felem c b i j))

/-- VFMIN (R163, R75). -/
def execVfmin (d a b : BitVec 5) (s : State) : Result :=
  vexact (.vfmin d a b) s d [a, b] isFp6 (fun c t i j => (fmtOf c.et).pick false (t.fpat c a i j) (t.fpat c b i j))

/-- VFMAX (R163, R75). -/
def execVfmax (d a b : BitVec 5) (s : State) : Result :=
  vexact (.vfmax d a b) s d [a, b] isFp6 (fun c t i j => (fmtOf c.et).pick true (t.fpat c a i j) (t.fpat c b i j))

/-- A sign change of a flushed pattern; a NaN gives the NaN of cause 1 (R164). -/
def signChange (f : Fmt) (neg : Bool → Bool) (p : Nat) : Nat × Flags :=
  if (f.val p).isNan then f.nanIn [f.val p] false
  else (f.signed (neg (f.sign p)) (p % 2 ^ (f.eb + f.mb)), 0)

/-- VFABS (R164). -/
def execVfabs (d a : BitVec 5) (s : State) : Result :=
  vexact (.vfabs d a) s d [a] isFp6 (fun c t i j => signChange (fmtOf c.et) (fun _ => false) (t.fpat c a i j))

/-- VFNEG (R164). -/
def execVfneg (d a : BitVec 5) (s : State) : Result :=
  vexact (.vfneg d a) s d [a] isFp6 (fun c t i j => signChange (fmtOf c.et) (fun x => !x) (t.fpat c a i j))

/-- A fused word: C is the fourth operand, or the old element of vd (R141, R163). -/
def vfused (i : Instr) (s : State) (d a b : BitVec 5) (np nc : Bool) : Result :=
  let k := s.thr.vctx.v4.getD d
  vround i s d [a, b, k] isFp6 (fun c t rn i j =>
    let x := t.felem c a i j
    let z := t.felem c k i j
    (fmtOf c.et).fma rn (if np then x.flip else x) (t.felem c b i j) (if nc then z.flip else z))

/-- VFMA (R163). -/
def execVfma (d a b : BitVec 5) (s : State) : Result := vfused (.vfma d a b) s d a b false false

/-- VFMS (R163). -/
def execVfms (d a b : BitVec 5) (s : State) : Result := vfused (.vfms d a b) s d a b false true

/-- VFNMA (R163). -/
def execVfnma (d a b : BitVec 5) (s : State) : Result := vfused (.vfnma d a b) s d a b true true

/-- VFNMS (R163). -/
def execVfnms (d a b : BitVec 5) (s : State) : Result := vfused (.vfnms d a b) s d a b true false

/-! ## Seeds, division, square root (R165, R166) -/

/-- VDIV (R166). -/
def execVdiv (d a b : BitVec 5) (s : State) : Result :=
  vround (.vdiv d a b) s d [a, b] isFp4 (fun c t rn i j => (fmtOf c.et).div rn (t.felem c a i j) (t.felem c b i j))

/-- VSQRT (R166). -/
def execVsqrt (d a : BitVec 5) (s : State) : Result :=
  vround (.vsqrt d a) s d [a] isFp4 (fun c t rn i j => (fmtOf c.et).sqrt rn (t.felem c a i j))

/-- A seed's magnitude rounded to nearest even among the format's values of at most 13 significant bits (R165); `flush` as
R97.  One that rounds above M is an infinity with overflow, though its exact value be at most M (entry 90). -/
def seedRound (f : Fmt) (flush neg : Bool) (m : Nat) (e : Int) (more : Bool) : Nat × Flags :=
  let top : Int := e + bitLen m - 1
  let q : Int := max (top - (Nat.min 12 f.mb : Nat)) (1 - (f.bias : Int) - f.mb)
  let (k, rem, sh) := cutAt m e q
  let k' := if roundsUp 0 0 neg k rem sh more then k + 1 else k
  if f.above k' q false then (f.signed neg ((2 ^ f.eb - 1) * 2 ^ f.mb), flagOF)
  else if k' = 0 then (f.signed neg 0, 0)
  else
    let (p, _) := f.round ⟨0, 0, false⟩ neg k' q false
    if flush && f.flushes && decide (f.expo p = 0) then (f.signed neg 0, joinFlags flagUF flagNX) else (p, 0)

/-- The reciprocal seed of a flushed reading (R165). -/
def rcpSeed (f : Fmt) (flush : Bool) (v : FVal) : Nat × Flags :=
  match v with
  | .nan _ => f.nanIn [v] false
  | .inf s => (f.signed s 0, 0)
  | .num s m e =>
    if m = 0 then (f.signed s ((2 ^ f.eb - 1) * 2 ^ f.mb), flagDZ)
    else
      let n := 2 ^ (40 + bitLen m)
      seedRound f flush s (n / m) (-e - (40 + bitLen m : Nat)) (decide (n % m ≠ 0))

/-- The reciprocal square-root seed of a flushed reading (R165). -/
def rsqSeed (f : Fmt) (flush : Bool) (v : FVal) : Nat × Flags :=
  match v with
  | .nan _ => f.nanIn [v] false
  | .inf s => if s then f.invalid 5 else (0, 0)
  | .num s m e =>
    if m = 0 then (f.signed s ((2 ^ f.eb - 1) * 2 ^ f.mb), flagDZ)
    else if s then f.invalid 5
    else
      let (m, e) := if e % 2 = 0 then (m, e) else (2 * m, e - 1)
      let sh := 40 + bitLen m
      let n := 2 ^ (2 * sh)
      let r := isqrtFrom (n / m) (bitLen (n / m) / 2 + 1) 0
      seedRound f flush false r (-(e / 2) - (sh : Nat)) (decide (r * r * m ≠ n))

/-- VRCPS (R165). -/
def execVrcps (d a : BitVec 5) (s : State) : Result :=
  vexact (.vrcps d a) s d [a] isFp4 (fun c t i j => rcpSeed (fmtOf c.et) c.flush (t.felem c a i j))

/-- VRSQS (R165). -/
def execVrsqs (d a : BitVec 5) (s : State) : Result :=
  vexact (.vrsqs d a) s d [a] isFp4 (fun c t i j => rsqSeed (fmtOf c.et) c.flush (t.felem c a i j))

/-! ## Compares (R167) and masks (R169) -/

/-- A compare: a group factor above 1 is illegal (R158), which the odd register number 1 in the list checks. -/
def vcompare (i : Instr) (s : State) (m : BitVec 4) (a b : BitVec 5) (types : Nat → Bool)
    (op : VCtx → Nat → Nat → Bool × Flags) : Result :=
  vword i s [a, b, 1] [a, b] types oneWidth (fun c t =>
    let w := typeWidth c.et
    t.maskwise c m (fun i j => op c (t.elem c a w i j) (t.elem c b w i j)))

/-- A comparison of two elements under R157: integer relation, floating relation, result on a NaN, and whether a quiet NaN is
invalid (R167). -/
def cmpOp (ri : Int → Int → Bool) (rf : FVal → FVal → Bool) (onNan quietInvalid : Bool) (c : VCtx) (x y : Nat) : Bool × Flags :=
  if isFp c.et then
    let a := c.fval x
    let b := c.fval y
    if a.isNan || b.isNan then (onNan, if quietInvalid then flagNV else sigFlag [a, b]) else (rf a b, 0)
  else (ri (intOf c.et x) (intOf c.et y), 0)

/-- The types of VCEQ, VCNE, VCLT and VCLE (R156). -/
def isCmp (t : Nat) : Bool := isInt t || isFp6 t

/-- VCEQ (R167). -/
def execVceq (m : BitVec 4) (a b : BitVec 5) (s : State) : Result :=
  vcompare (.vceq m a b) s m a b isCmp (cmpOp (fun x y => decide (x = y)) FVal.eq false false)

/-- VCNE (R167). -/
def execVcne (m : BitVec 4) (a b : BitVec 5) (s : State) : Result :=
  vcompare (.vcne m a b) s m a b isCmp (cmpOp (fun x y => decide (x ≠ y)) (fun x y => !x.eq y) true false)

/-- VCLT (R167). -/
def execVclt (m : BitVec 4) (a b : BitVec 5) (s : State) : Result :=
  vcompare (.vclt m a b) s m a b isCmp (cmpOp (fun x y => decide (x < y)) FVal.lt false true)

/-- VCLE (R167). -/
def execVcle (m : BitVec 4) (a b : BitVec 5) (s : State) : Result :=
  vcompare (.vcle m a b) s m a b isCmp (cmpOp (fun x y => decide (x ≤ y)) (fun x y => x.lt y || x.eq y) false true)

/-- VCLTU (R167). -/
def execVcltu (m : BitVec 4) (a b : BitVec 5) (s : State) : Result :=
  vcompare (.vcltu m a b) s m a b isInt (fun _ x y => (decide (x < y), 0))

/-- VCLEU (R167). -/
def execVcleu (m : BitVec 4) (a b : BitVec 5) (s : State) : Result :=
  vcompare (.vcleu m a b) s m a b isInt (fun _ x y => (decide (x ≤ y), 0))

/-- VCUN (R167). -/
def execVcun (m : BitVec 4) (a b : BitVec 5) (s : State) : Result :=
  vcompare (.vcun m a b) s m a b isFp6 (fun c x y =>
    ((c.fval x).isNan || (c.fval y).isNan, sigFlag [c.fval x, c.fval y]))

/-- A mask word (R169) that reads the masks `srcs`, of which it consumes every bit within the lengths (entry 64): no capacity check (R155). -/
def mword (i : Instr) (s : State) (m : BitVec 4) (srcs : List (BitVec 4)) (op : VCtx → Thread → Nat → Nat → Bool) : Result :=
  finishCounted i s (do
    let c ← s.vcheck i [1] isAny (fun _ => [])
    if c.cl = 0 ∨ c.rl = 0 then .ok s
    else if ¬ srcs.all (fun a => s.thr.maskSound a.toNat c.rl c.cl) then .error (.data 0 5 7 false)
    else .ok { s with thr := s.thr.maskwise c m (fun i j => (op c s.thr i j, 0)) })

/-- MAND (R169). -/
def execMand (m a b : BitVec 4) (s : State) : Result :=
  mword (.mand m a b) s m [a, b] (fun _ t i j =>
    let x := t.maskBit a.toNat i j
    let y := t.maskBit b.toNat i j
    x && y)

/-- MOR (R169). -/
def execMor (m a b : BitVec 4) (s : State) : Result :=
  mword (.mor m a b) s m [a, b] (fun _ t i j =>
    let x := t.maskBit a.toNat i j
    let y := t.maskBit b.toNat i j
    x || y)

/-- MXOR (R169). -/
def execMxor (m a b : BitVec 4) (s : State) : Result :=
  mword (.mxor m a b) s m [a, b] (fun _ t i j =>
    let x := t.maskBit a.toNat i j
    let y := t.maskBit b.toNat i j
    x != y)

/-- MANDN (R169). -/
def execMandn (m a b : BitVec 4) (s : State) : Result :=
  mword (.mandn m a b) s m [a, b] (fun _ t i j =>
    let x := t.maskBit a.toNat i j
    let y := t.maskBit b.toNat i j
    x && !y)

/-- MNOT (R169). -/
def execMnot (m a : BitVec 4) (s : State) : Result := mword (.mnot m a) s m [a] (fun _ t i j => !t.maskBit a.toNat i j)

/-- MMOV (R169). -/
def execMmov (m a : BitVec 4) (s : State) : Result := mword (.mmov m a) s m [a] (fun _ t i j => t.maskBit a.toNat i j)

/-- MFIRST (R169). -/
def execMfirst (m a : BitVec 4) (s : State) : Result :=
  mword (.mfirst m a) s m [a] (fun c t i j =>
    t.maskBit a.toNat i j && !((List.range j).any (fun k => t.guard c i k && t.maskBit a.toNat i k)))

/-! ## Conversions (R170, R171) -/

/-- One conversion of an exact value into type `ty`; `sat` for VCVTS (R170). -/
def convert (sat : Bool) (rn : Rnd) (ty : Nat) (v : FVal) : Nat × Flags :=
  if isFp ty then
    let f := fmtOf ty
    match v with
    | .inf s =>
      if f.ieee then f.infOf s else if sat then (f.signed s f.maxPat, flagNV) else f.infOf s
    | .num s _ _ =>
      let (p, fl) := f.deliver rn v
      if sat ∧ Nat.land fl flagOF ≠ 0 then (f.signed s f.maxPat, joinFlags flagOF flagNX) else (p, fl)
    | .nan _ => f.deliver rn v
  else toIntSat (typeWidth ty) (isI ty) rn v

/-- One conversion of an element of source type `st` (R170). -/
def convertElem (sat : Bool) (rn : Rnd) (t : Thread) (c : VCtx) (ty p : Nat) : Nat × Flags :=
  if isInt c.et ∧ isInt ty then (if sat then satW ty (intOf c.et p) else wrap (typeWidth ty) (intOf c.et p), 0)
  else convert sat rn ty (t.valueOf c.et t.cbsel.toNat c.flush p)

/-- VCVT and VCVTS: rounding words where a side is floating, CB4 among them (R96, R170). -/
def vconvert (i : Instr) (s : State) (sat : Bool) (d a ty : BitVec 5) : Result :=
  vword i s [d, a] [a] isAny (fun c => [typeWidth c.et, typeWidth ty.toNat]) (fun c t =>
    let u := t.elementwise c d (typeWidth ty.toNat) (fun i j =>
      convertElem sat (t.elemRnd c i j) t c ty.toNat (t.elem c a (typeWidth c.et) i j))
    if isInt c.et ∧ isInt ty.toNat then u else u.advance c.rnd (c.rows * c.cl))

/-- VCVT (R170). -/
def execVcvt (d a t : BitVec 5) (s : State) : Result := vconvert (.vcvt d a t) s false d a t

/-- VCVTS (R170). -/
def execVcvts (d a t : BitVec 5) (s : State) : Result := vconvert (.vcvts d a t) s true d a t

end Sys2Proof.Machine
end

