-- ==== Sys2Proof/Machine/VectorMem.lean ====
section
/-! DEFINITION. Row, strided, column, gather and scatter words (spec 12 R193 to R195, 14 R204 to R211, 17 R254 to R258, 25
R359 to R361). -/

namespace Sys2Proof.Machine

open Sys2Proof

/-! ## Resuming and stopping inside a word (R359 to R361) -/

/-- VALID, KIND and N of XRESUME (R263). -/
def Thread.xvalid (t : Thread) : Bool := t.xresume.getLsbD 63
def Thread.xkind (t : Thread) : Nat := bits t.xresume.toNat 62 56
def Thread.xcount (t : Thread) : Nat := bits t.xresume.toNat 23 0

/-- XRESUME with a recorded kind and count. -/
def xresumeWord (kind n : Nat) : Word := BitVec.ofNat 64 (2 ^ 63 + kind * 2 ^ 56 + n)

/-- A word of a kind that finds another kind recorded raises the vector-state trap (R360). -/
def State.kindCheck (s : State) (i : Instr) (kind : Nat) : Except Stop Unit :=
  if s.thr.xvalid ∧ s.thr.xkind ≠ kind then .error (.vstate i) else .ok ()

/-- Where a word of a kind starts: N where it resumes, else 0. -/
def Thread.startAt (t : Thread) (kind : Nat) : Nat := if t.xvalid ∧ t.xkind = kind then t.xcount else 0

/-- A resumed word that completes clears XRESUME (R263, R359). -/
def State.clearResume (s : State) (kind : Nat) : State :=
  if s.thr.xvalid ∧ s.thr.xkind = kind then { s with thr := { s.thr with xresume := 0 } } else s

/-- The pending asynchronous event of highest rank: code 18 first (R357). -/
def State.pendingAsync (s : State) : Option (Nat × Word) :=
  match s.thr.pend18 with
  | some v => some (18, v)
  | none => if s.ready17 ∧ s.thr.nseg ≤ 1 then s.thr.pend17.map (fun v => (17, v)) else none

/-- Take the pending asynchronous event at the current word (R356, R357). -/
def State.takeAsync (s : State) : State :=
  match s.pendingAsync with
  | none => s
  | some (18, v) => ({ s with thr := { s.thr with pend18 := none } }).takeTrap 18 v none
  | some (c, v) => ({ s with thr := { s.thr with pend17 := none } }).takeTrap c v none

/-- Where an event stops a word that covers `total` positions from `start` on: strictly inside it, and only where an event is
pending with AE = 1 (R359). -/
def State.stopPoint (s : State) (start total : Nat) : Option Nat :=
  match s.thr.stopAt with
  | some n => if s.thr.status.ae ∧ s.pendingAsync.isSome ∧ start < n ∧ n < total then some n else none
  | none => none

/-- End of a word of a kind that may stop inside: `run lo hi` performs the positions from `lo` to `hi`.  Stopped, it records its
progress and the event is taken at the word; CONVOY does not count it (R359). -/
def kindWord (i : Instr) (s : State) (kind : Nat) (pre : Except Stop VCtx) (total : VCtx → Nat)
    (run : VCtx → Nat → Nat → Except Stop State) : Result :=
  let checked : Except Stop VCtx := do
    let c ← pre
    s.kindCheck i kind
    s.maskCheck c
    .ok c
  match checked with
  | .error e => finish i s (.error e)
  | .ok c =>
    let lo := s.thr.startAt kind
    match s.stopPoint lo (total c) with
    | some n =>
      match run c lo n with
      | .error e => finish i s (.error e)
      | .ok t => .next ({ t with thr := { t.thr with xresume := xresumeWord kind n, stopAt := none } }).takeAsync
    | none => finishCounted i s ((run c lo (total c)).map (fun t => t.clearResume kind))

/-! ## Addresses (R193, R255) -/

/-- Address of element (i, j) from row base, row step and column step; w bits. -/
structure RowShape where
  base : Word
  rowStep : Word
  colStep : Word
  unit : Bool
  deriving DecidableEq, Repr

/-- VLD and VST: rows at a pitch, packed columns (R193). -/
def addrRow (sa sb : Word) (w i j : Nat) : Word := sa + BitVec.ofNat 64 i * sb + BitVec.ofNat 64 (j * w / 8)

/-- VLDS and VSTS: columns at a stride, adjacent rows.  R140 gives every row the pitch sb, R193 these words a column stride: this is
R193's reading (entry 72). -/
def addrStride (sa sb : Word) (w i j : Nat) : Word := sa + BitVec.ofNat 64 j * sb + BitVec.ofNat 64 (i * w / 8)

/-- VLDC and VSTC (R255). -/
def addrCol (sa sb : Word) (w i j : Nat) : Word :=
  if w = 64 ∨ w = 4 then sa + BitVec.ofNat 64 (j * 128 + i * w / 8)
  else
    let z := w / 8
    let n := 128 / z
    let o := sa.toNat % (128 * n)
    let rr := o / 128 + j
    let cc := o % 128 / z + i
    BitVec.ofNat 64 (sa.toNat - o + rr / n * sb.toNat + cc / n * (128 * n) + rr % n * 128 + cc % n * z)

/-- The access of an element of w bits under a cache hint (R29). -/
def elemAcc (u : Use) (col : Bool) (w : Nat) (h : BitVec 3) : Acc :=
  { use := u, n := Nat.max 1 (w / 8), col := col, width := if col then w / 8 else 0, scope := 0, hint := h.toNat }

/-- Whether element (i, j) of a register is poisoned (R383). -/
def Thread.badElem (t : Thread) (c : VCtx) (r : BitVec 5) (w i j : Nat) : Bool :=
  !t.soundAt c r w (fun a b => decide (a = i) && decide (b = j))

/-! ## Loads and stores -/

/-- Load the active elements among positions `lo` to `hi` in row-major order: the values by position (R113, R194). -/
def loadElems (c : VCtx) (rs : List (BitVec 6)) (acc : Acc) (w : Nat) (addr : Nat → Nat → Word) (u : Thread) :
    List Nat → State → Except Stop (List (Nat × Nat) × State)
  | [], s => .ok ([], s)
  | p :: r, s =>
    let i := p / c.cl
    let j := p % c.cl
    if ¬ u.guard c i j then loadElems c rs acc w addr u r s
    else do
      let (bs, s) ← s.load rs acc (addr i j)
      let v := leNat bs
      let v := if w = 4 then v / 16 ^ (j % 2) % 16 else v
      let (l, s) ← loadElems c rs acc w addr u r s
      .ok ((p, v) :: l, s)

/-- Positions `lo` to `hi` - 1. -/
def positions (lo hi : Nat) : List Nat := (List.range (hi - lo)).map (lo + ·)

/-- A vector load (R109, R194, R359). -/
def vload (i : Instr) (s : State) (d : BitVec 5) (a b : BitVec 6) (h : BitVec 3) (types : Nat → Bool) (col : Bool)
    (addr : Word → Word → Nat → Nat → Nat → Word) : Result :=
  kindWord i s 3 (s.vready i [d] types oneWidth) (fun c => c.rows * c.cl) (fun c lo hi =>
    if c.cl = 0 ∨ c.rl = 0 then .ok s
    else do
      let w := typeWidth c.et
      let (vs, t) ← loadElems c [a, b] (elemAcc .load col w h) w (addr (s.rs a) (s.rs b) w) s.thr (positions lo hi) s
      let u := t.thr
      let u := u.writeRows c d w (fun i j old =>
        let p := i * c.cl + j
        if p < lo ∨ hi ≤ p then old
        else if s.thr.guard c i j then (assoc vs p).getD 0 else if c.zero && u.inPass j then 0 else old)
      .ok { t with thr := u.healed c d w (fun i j =>
        decide (lo ≤ i * c.cl + j) && decide (i * c.cl + j < hi) && (u.guard c i j || c.zero && u.inPass j)) })

/-- An active 4-bit element of a store: its byte's address, its nibble, its value, whether it is poisoned. -/
structure NibElem where
  va : Word
  half : Nat
  v : Nat
  bad : Bool
  deriving DecidableEq, Repr

/-- The stores of 4-bit elements in order: each byte once, at its first element, whole where the word covers both of its nibbles, with
the last value of each (R195). -/
def nibbleStores (seen : List Word) : List NibElem → List StoreElem
  | [] => []
  | e :: r =>
    if seen.contains e.va then ⟨e.va, [], none, e.bad⟩ :: nibbleStores seen r
    else
      let last := fun (h : Nat) => (((e :: r).filter (fun x => decide (x.va = e.va) && decide (x.half = h))).getLast?).map (·.v)
      (match last 0, last 1 with
       | some lo, some hi => (⟨e.va, leBytes 1 (lo + 16 * hi), none, e.bad⟩ : StoreElem)
       | some v, none => ⟨e.va, leBytes 1 v, some 0, e.bad⟩
       | none, some v => ⟨e.va, leBytes 1 v, some 1, e.bad⟩
       | none, none => ⟨e.va, [], none, e.bad⟩) :: nibbleStores (e.va :: seen) r

/-- The elements a vector store writes, in row-major order among positions `lo` to `hi`. -/
def storeList (c : VCtx) (d : BitVec 5) (w : Nat) (addr : Nat → Nat → Word) (t : Thread) (lo hi : Nat) : List StoreElem :=
  let act := (positions lo hi).filter (fun p => t.guard c (p / c.cl) (p % c.cl))
  if w = 4 then
    nibbleStores [] (act.map (fun p =>
      ⟨addr (p / c.cl) (p % c.cl), p % c.cl % 2, t.elem c d w (p / c.cl) (p % c.cl), t.badElem c d w (p / c.cl) (p % c.cl)⟩))
  else
    act.map (fun p => ⟨addr (p / c.cl) (p % c.cl), leBytes (w / 8) (t.elem c d w (p / c.cl) (p % c.cl)), none,
      t.badElem c d w (p / c.cl) (p % c.cl)⟩)

/-- A vector store (R194, R195, R274, R359). -/
def vstore (i : Instr) (s : State) (d : BitVec 5) (a b : BitVec 6) (h : BitVec 3) (types : Nat → Bool) (col : Bool)
    (addr : Word → Word → Nat → Nat → Nat → Word) : Result :=
  kindWord i s 3 (s.vready i [d] types oneWidth) (fun c => c.rows * c.cl) (fun c lo hi =>
    if c.cl = 0 ∨ c.rl = 0 then .ok s
    else
      let w := typeWidth c.et
      State.storeElems [a, b] (elemAcc .store col w h) (storeList c d w (addr (s.rs a) (s.rs b) w) s.thr lo hi) s [])

/-- The types of VLDS and VSTS (R173). -/
def isWide (t : Nat) : Bool := isAny t && decide (typeWidth t ≠ 4)

/-- VLD (R193, R194). -/
def execVld (d : BitVec 5) (a b : BitVec 6) (h : BitVec 3) (s : State) : Result :=
  vload (.vld d a b h) s d a b h isAny false addrRow

/-- VLDS (R193, R194). -/
def execVlds (d : BitVec 5) (a b : BitVec 6) (h : BitVec 3) (s : State) : Result :=
  vload (.vlds d a b h) s d a b h isWide false addrStride

/-- VST (R193 to R195). -/
def execVst (d : BitVec 5) (a b : BitVec 6) (h : BitVec 3) (s : State) : Result :=
  vstore (.vst d a b h) s d a b h isAny false addrRow

/-- VSTS (R193 to R195). -/
def execVsts (d : BitVec 5) (a b : BitVec 6) (h : BitVec 3) (s : State) : Result :=
  vstore (.vsts d a b h) s d a b h isWide false addrStride

/-- VLDC (R255, R256). -/
def execVldc (d : BitVec 5) (a b : BitVec 6) (h : BitVec 3) (s : State) : Result :=
  vload (.vldc d a b h) s d a b h isAny true addrCol

/-- VSTC (R255, R256). -/
def execVstc (d : BitVec 5) (a b : BitVec 6) (h : BitVec 3) (s : State) : Result :=
  vstore (.vstc d a b h) s d a b h isAny true addrCol

/-! ## Gather and scatter (R257, R258) -/

/-- Address of an indexed element: base + N32 index x size (R257). -/
def addrIndexed (t : Thread) (c : VCtx) (base : Word) (a : BitVec 5) (z i j : Nat) : Word :=
  base + BitVec.ofNat 64 (t.elem c a 32 i j * z)

/-- Widths a gather or scatter reads (R155, R257). -/
def indexedWidths (c : VCtx) : List Nat := [typeWidth c.et, 32]

/-- The active positions of a word. -/
def activeList (c : VCtx) (t : Thread) : List (Nat × Nat) :=
  ((positions 0 (c.rows * c.cl)).map (fun p => (p / c.cl, p % c.cl))).filter (fun p => t.guard c p.1 p.2)

/-- The access of an indexed unit to elements of w bits. -/
def unitAcc (u : Use) (w : Nat) : Acc := { Acc.row u (w / 8) with unit := true }

/-- VGATH (R257, R258; poison parks its unit, R383). -/
def execVgath (d a : BitVec 5) (sb : BitVec 6) (s : State) : Result :=
  let i : Instr := .vgath d a sb
  finishCounted i s (do
    let c ← s.vcheck i [d, a] isWide indexedWidths
    if c.cl = 0 ∨ c.rl = 0 then .ok s
    else do
      s.unitFree
      let w := typeWidth c.et
      let (vs, t) ← (activeList c s.thr).foldlM (fun (acc : List (Nat × Nat) × State) p => do
        let (bs, t) ← acc.2.gatherElem [sb] (s.thr.badElem c a 32 p.1 p.2) (unitAcc .load w)
          (addrIndexed s.thr c (s.rs sb) a (w / 8) p.1 p.2)
        .ok (acc.1 ++ [(p.1 * c.cl + p.2, leNat bs)], t)) ([], s)
      let u := t.thr.elementwise c d w (fun i j => ((assoc vs (i * c.cl + j)).getD 0, 0))
      .ok { t with thr := u })

/-- VSCAT (R209, R257, R258). -/
def execVscat (d a : BitVec 5) (sb : BitVec 6) (s : State) : Result :=
  let i : Instr := .vscat d a sb
  finishCounted i s (do
    let c ← s.vcheck i [d, a] isWide indexedWidths
    if c.cl = 0 ∨ c.rl = 0 then .ok s
    else
      let w := typeWidth c.et
      State.scatterElems [sb] (unitAcc .store w) ((activeList c s.thr).map (fun p =>
        ⟨addrIndexed s.thr c (s.rs sb) a (w / 8) p.1 p.2, leBytes (w / 8) (s.thr.elem c d w p.1 p.2), none,
          s.thr.badElem c a 32 p.1 p.2 || s.thr.badElem c d w p.1 p.2⟩)) s [])

/-- The types of VSCADD (R257). -/
def isScadd (t : Nat) : Bool := (isInt t && decide (typeWidth t ≠ 4)) || isFp4 t

/-- Sum of R210 under the effective rounding, a stochastic one acting as RNE. -/
def scaddSum (c : VCtx) (x y : Nat) : Nat × Flags :=
  if isFp c.et then
    (fmtOf c.et).add ⟨if c.rnd = 5 then 0 else c.rnd, 0, c.flush⟩ (c.fval x) (c.fval y)
  else ((x + y) % 2 ^ typeWidth c.et, 0)

/-- Join one value into the sums by address, addresses in order of first appearance (R210). -/
def scaddJoin (c : VCtx) (va : Word) (v : Nat) : List (Word × Nat) → Flags → List (Word × Nat) × Flags
  | [], fl => ([(va, v)], fl)
  | (a, x) :: r, fl =>
    if a = va then let (y, g) := scaddSum c x v; ((a, y) :: r, joinFlags fl g)
    else let (r', fl') := scaddJoin c va v r fl; ((a, x) :: r', fl')

/-- The active elements of VSCADD in order: address, value, whether its sources are poisoned. -/
def scaddItems (c : VCtx) (t : Thread) (base : Word) (d a : BitVec 5) : List (Word × Nat × Bool) :=
  let w := typeWidth c.et
  (activeList c t).map (fun p => (addrIndexed t c base a (w / 8) p.1 p.2, t.elem c d w p.1 p.2,
    t.badElem c a 32 p.1 p.2 || t.badElem c d w p.1 p.2))

/-- What is left of the updates, as stores. -/
def scaddRest (c : VCtx) (sb : BitVec 6) (acc : Acc) (sums : List (Word × Nat)) (s : State) : List (Word × Nat × Bool) → List Word → List StoreElem
  | [], _ => []
  | (va, _, bad) :: r, seen =>
    if seen.contains va then scaddRest c sb acc sums s r seen
    else
      let x := ((sums.find? (fun p => decide (p.1 = va))).map (·.2)).getD 0
      match s.resolveOp [sb] bad acc va with
      | .ok (.mem l, u) =>
        ⟨va, leBytes acc.n (scaddSum c (leNat (u.homeGet (u.runAt l va.toNat) acc.n)) x).1, none, bad⟩ :: scaddRest c sb acc sums s r (va :: seen)
      | _ => scaddRest c sb acc sums s r (va :: seen)

/-- The updates of VSCADD in the order in which its addresses appear, each one read-modify-write of its address's sum; every other
element is checked at its place (R113, R210, R257). -/
def scaddUpdates (c : VCtx) (sb : BitVec 6) (acc : Acc) (sums : List (Word × Nat)) :
    List (Word × Nat × Bool) → List Word → Flags → State → List LateStore → Except Stop State
  | [], _, fl, s, late => (s.endLate late).map (fun t => t.addFlags fl)
  | (va, _, bad) :: r, seen, fl, s, late =>
    if seen.contains va then
      match s.resolveOp [sb] bad acc va with
      | .error e => .error (s.lateTrap [sb] acc (scaddRest c sb acc sums s r seen) late e)
      | .ok (_, s) => scaddUpdates c sb acc sums r seen fl s late
    else
      let x := ((sums.find? (fun p => decide (p.1 = va))).map (·.2)).getD 0
      match s.addElem [sb] bad acc va (fun old => leBytes acc.n (scaddSum c (leNat old) x).1) late with
      | .error e => .error (s.lateTrap [sb] acc (scaddRest c sb acc sums s r (va :: seen)) late e)
      | .ok (old, s, late) => scaddUpdates c sb acc sums r (va :: seen) (joinFlags fl (scaddSum c (leNat old) x).2) s late

/-- VSCADD (R210, R257, R258): sums per address first, then one update of each address at its bank. -/
def execVscadd (d a : BitVec 5) (sb : BitVec 6) (s : State) : Result :=
  let i : Instr := .vscadd d a sb
  finishCounted i s (do
    let c ← s.vcheck i [d, a] isScadd indexedWidths
    if c.cl = 0 ∨ c.rl = 0 then .ok s
    else do
      s.unitFree
      let items := scaddItems c s.thr (s.rs sb) d a
      let (sums, fl) := items.foldl (fun (p : List (Word × Nat) × Flags) e => scaddJoin c e.1 e.2.1 p.1 p.2) ([], 0)
      scaddUpdates c sb (unitAcc .atomic (typeWidth c.et)) sums items [] fl s [])

end Sys2Proof.Machine
end

