-- ==== Sys2Proof/Machine/Streams.lean ====
section
/-! DEFINITION. Self-describing block streams and compressed streams: VLDB, VSTB, VLDZ (spec 06 R90, R91, 14 R212, R213, 17
R259 to R263). -/

namespace Sys2Proof.Machine

open Sys2Proof

/-! ## Blocks (R90, R91) -/

/-- A block's elements: count, type code, codebook, and whether it is a zero run. -/
structure BlkFmt where
  count : Nat
  etype : Nat
  cb : Nat
  run : Bool
  deriving DecidableEq, Repr

/-- The format of a block from its format and scale bytes; none where the block is malformed.  Byte 0 ends a stream and is
taken before (R90). -/
def blkFmt (fb sc : Nat) : Option BlkFmt :=
  if fb = 0x01 then some ⟨124, 6, 0, false⟩
  else if fb = 0x02 then some ⟨124, 12, 0, false⟩
  else if fb = 0x0F then (if sc = 0 then none else some ⟨sc, 0, 0, true⟩)
  else if 0x10 ≤ fb ∧ fb ≤ 0x1F then some ⟨124, 7, fb - 0x10, false⟩
  else if fb = 0x20 then some ⟨62, 4, 0, false⟩
  else if fb = 0x21 then some ⟨62, 5, 0, false⟩
  else if fb = 0x22 then some ⟨62, 11, 0, false⟩
  else if fb = 0x30 then some ⟨31, 3, 0, false⟩
  else if fb = 0x31 then some ⟨31, 2, 0, false⟩
  else none

/-- Value of element `k` of a block whose payload is `pay`; none is the NaN of cause 2 that a NaN scale gives (R91). -/
def Thread.blkValue (t : Thread) (f : BlkFmt) (sc pay : Nat) (flush : Bool) (k : Nat) : Option FVal :=
  if f.run then some (.num false 0 0)
  else if sc = 255 then none
  else some ((t.valueOf f.etype f.cb flush (elemAt pay (typeWidth f.etype) k)).scale ((sc : Int) - 127))

/-- Convert of R260: one rounding into type `ty` with the saturation and flags of VCVTS, those of its floating rows for integer elements
too (entry 98). -/
def blkConvert (rn : Rnd) (ty : Nat) (x : Option FVal) : Nat × Flags :=
  match x with
  | some v => convert true rn ty v
  | none => (if isFp ty then ((fmtOf ty).nanOf 2).1 else 0, flagNV)

/-! ## Whole-unit accesses -/

/-- The same stop with TVAL `v`. -/
def Stop.retval (v : Word) : Stop → Stop
  | .trap c _ f post => .trap c v f post
  | e => e

/-- Replace TVAL in an error. -/
def atUnit {α : Type} (v : Word) (r : Except Stop α) : Except Stop α :=
  match r with
  | .ok a => .ok a
  | .error e => .error (e.retval v)

/-- Read a 64-byte block as one access, which `judge` judges before the race check of its sectors; a fault carries TVAL `p` (R254, R260). -/
def State.loadBlock (s : State) (h : Nat) (p : Word) (judge : List Byte → Except Stop Unit) : Except Stop (List Byte × State) := do
  let a := { Acc.row .load 64 with hint := h }
  let (t, s) ← atUnit p (s.resolve a p)
  let (bs, s) ← atUnit p (s.readAt a t p)
  s.counting (judge bs)
  let s ← atUnit p (s.raceAt a t p)
  .ok (bs, s)

/-- Runs of a span within 32-byte sectors. -/
def State.loadRuns (s : State) (h : Nat) (p n : Nat) : Except Stop (List Byte × State) :=
  (cutBy 32 (n + 1) p n).foldlM (fun (acc : List Byte × State) r => do
    let a := { Acc.row .load r.2 with hint := h }
    let (t, s) ← acc.2.place a (BitVec.ofNat 64 r.1)
    let (b, s) ← s.readAt a t (BitVec.ofNat 64 r.1)
    .ok (acc.1 ++ b, s)) ([], s)

/-- The race checks of a span that has been read (R231, R254). -/
def State.raceSpan (s : State) (h : Nat) (p n : Nat) : Except Stop State :=
  (cutBy 32 (n + 1) p n).foldlM (fun (s : State) r => do
    let a := { Acc.row .load r.2 with hint := h }
    let (t, s) ← s.place a (BitVec.ofNat 64 r.1)
    s.raceAt a t (BitVec.ofNat 64 r.1)) s

/-- Read `n` bytes from `p` in runs within 32-byte sectors, under a cache hint.  A chunk is one access to R200: one that begins in the
window and runs past its end faults (entry 75). -/
def State.loadSpan (s : State) (h : Nat) (p n : Nat) : Except Stop (List Byte × State) :=
  match s.windowOff (BitVec.ofNat 64 p) with
  | some off =>
    if s.myTiles * 4096 < off + n then .error (.limit (BitVec.ofNat 64 p)) else s.loadRuns h p n
  | none => s.loadRuns h p n

/-! ## VLDB (R260) -/

/-- The types of VLDB. -/
def isStream (t : Nat) : Bool := isFp t || (isI t && decide (t ≠ 12))

/-- What VLDB makes of a block's bytes before its elements: a malformed one faults, and so do poisoned bits of the mask that guards its columns
(R90, R383). -/
def vldbJudge (c : VCtx) (t : Thread) (p k e cap : Nat) (bs : List Byte) : Except Stop Unit :=
  let fb := (bs.headD 0).toNat
  if fb = 0 then .ok ()
  else
    match blkFmt fb ((bs.drop 1).headD 0).toNat with
    | none => .error (.of 14 (BitVec.ofNat 64 p))
    | some b => if (t.firstBad c.mask e (e + Nat.min (b.count - k) (cap - e))).isSome then .error (.data 0 5 7 false) else .ok ()

/-- The loop of R260: the elements for columns `e` on, and where the stream stopped (ADDR, K, END). -/
def vldbLoop (c : VCtx) (h cap lim : Nat) : Nat → Nat → Nat → Nat → State →
    Except Stop (List (Option FVal) × (Nat × Nat × Bool) × State)
  | 0, p, k, _, s => .ok ([], (p, k, false), s)
  | f + 1, p, k, e, s =>
    if e = cap ∨ lim < p + 64 then .ok ([], (p, k, false), s)
    else do
      let (bs, s) ← s.loadBlock h (BitVec.ofNat 64 p) (vldbJudge c s.thr p k e cap)
      let fb := (bs.headD 0).toNat
      let sc := ((bs.drop 1).headD 0).toNat
      if fb = 0 then .ok ([], (p, k, true), s)
      else
        match blkFmt fb sc with
        | none => .error (.of 14 (BitVec.ofNat 64 p))
        | some b =>
          let n := Nat.min (b.count - k) (cap - e)
          let pay := leNat (bs.drop 2)
          let xs := (List.range n).map (fun q => s.thr.blkValue b sc pay c.flush (k + q))
          let (ys, r) ← if b.count ≤ k + n then vldbLoop c h cap lim f (p + 64) 0 (e + n) s
            else vldbLoop c h cap lim f p (k + n) (e + n) s
          .ok (xs ++ ys, r)

/-- STRM and STRMK after a stream word (R259). -/
def Thread.setStream (t : Thread) (p k : Nat) (done : Bool) : Thread :=
  { t with strm := BitVec.ofNat 64 (p % 2 ^ 56), strmk := BitVec.ofNat 64 (k + if done then 2 ^ 63 else 0) }

/-- The context of a word that acts on columns 0 to `n` - 1 of row 0 alone. -/
def VCtx.row0 (c : VCtx) (n : Nat) : VCtx := { c with cl := n, rl := 1, f := 1 }

/-- VLDB (R260). -/
def execVldb (d : BitVec 5) (a b : BitVec 6) (h : BitVec 3) (s : State) : Result :=
  let i : Instr := .vldb d a b h
  finishCounted i s (do
    let c ← s.vready i [d] isStream (fun _ => [])
    let sa := (s.rs a).toNat
    let sb := (s.rs b).toNat
    let w := typeWidth c.et
    let cap := s.thr.cap w
    if sa % 64 ≠ 0 then .error (.of 7 (s.rs a))
    else do
      s.consume [a, b]
      let (xs, (p, k, done), t) ← vldbLoop c h.toNat cap (sa + sb % 2 ^ 40) (cap + 2) sa (sb / 2 ^ 40) 0 s
      let vals := xs.toArray
      let e := xs.length
      let c' := c.row0 e
      let u := t.thr.elementwise c' d w (fun _ j => blkConvert (t.thr.elemRnd c' 0 j) c.et ((vals[j]?).getD none))
      .ok { t with thr := ((u.advance c.rnd (c.f * s.thr.rl * e)).setLen e s.thr.rl).setStream p k done })

/-! ## VSTB (R261) -/

/-- The types of VSTB. -/
def isPack (t : Nat) : Bool := isFp6 t || (isI t && decide (t ≠ 12))

/-- Whether VSTB accepts a packing control word. -/
def packOk (ctl : Nat) : Bool :=
  [0x01, 0x02, 0x20, 0x21, 0x22, 0x30, 0x31].contains (ctl % 256)
    && !(decide (bits ctl 15 8 = 255) && decide (bits ctl 16 16 = 0)) && decide (ctl / 2 ^ 18 = 0)

/-- M of a block's element type: its largest finite value. -/
def typeMax (ty : Nat) : FVal := if isFp ty then (fmtOf ty).val (fmtOf ty).maxPat else .num false (2 ^ (typeWidth ty - 1) - 1) 0

/-- Whether |v| x 2^(127 - s) is at most M. -/
def fits (ty s : Nat) (v : FVal) : Bool :=
  match v with
  | .num _ m e => !((typeMax ty).lt (.num false m (e + 127 - s)))
  | _ => false

/-- Scale code under AUTO; with a NaN among the active elements the spec states none, and `free` gives it (entry 24). -/
def autoScale (ty free : Nat) (xs : List FVal) : Nat :=
  if xs.any FVal.isNan then free % 255
  else ((List.range 255).find? (fun s => xs.all (fits ty s))).getD 254

/-- One block of R261 from its elements, none for a position that is not active: its bytes and flags. -/
def packBlock (ctl : Nat) (f : BlkFmt) (free : Nat) (rn : Nat → Rnd) (xs : List (Option FVal)) : List Byte × Flags :=
  let act := xs.filterMap id
  let sc := if bits ctl 16 16 = 1 then autoScale f.etype free act else bits ctl 15 8
  let w := typeWidth f.etype
  let es := xs.zipIdx.map (fun p =>
    match p.1 with
    | none => ((0 : Nat), (0 : Flags))
    | some v => convert true (rn p.2) f.etype (v.scale (127 - (sc : Int))))
  let pay := (es.zipIdx.map (fun p => p.1.1 * 2 ^ (p.2 * w))).sum
  let nanScale := act.any FVal.isNan && (decide (f.etype = 6) || isI f.etype)
  (BitVec.ofNat 8 ctl :: BitVec.ofNat 8 (if nanScale then 255 else sc) :: leBytes 62 pay,
    (es.map (·.2)).foldl joinFlags 0)

/-- The blocks of R261 in order with their flags; `free` numbers the free draws, 256 to a block. -/
def packBlocks (ctl mode : Nat) (flush : Bool) (free : Nat) (xs : List (Option FVal)) : List (List Byte × Flags) :=
  match blkFmt (ctl % 256) 1 with
  | none => []
  | some f =>
    (List.range ((xs.length + f.count - 1) / f.count)).map (fun b =>
      packBlock ctl f (Config.packScale (free + 256 * b + 255))
        (fun k => ⟨mode, Config.roundFree (free + 256 * b + k) % 65536, flush⟩) ((xs.drop (b * f.count)).take f.count))

/-- An end block. -/
def endBlock : List Byte := List.replicate 64 0

/-- The stores of VSTB: each half of a block (entry 25). -/
def halfStores (sa : Nat) (bytes : List Byte) : List StoreElem :=
  (List.range (bytes.length / 32)).map (fun k => ⟨BitVec.ofNat 64 (sa + 32 * k), (bytes.drop (32 * k)).take 32, none, false⟩)

/-- A control word that VSTB does not accept is a format fault of its first block, after that block's access faults (R24, R205, R261, entry
25). -/
def State.badControl (s : State) (a : Acc) (sa : Word) (blocks : Bool) : Except Stop Unit :=
  if ¬ blocks then .error (.of 14 sa)
  else do
    let (_, s) ← s.place a sa
    let (_, s) ← s.place a (sa + 32)
    .error ((Stop.of 14 sa).leaving s.countAs)

/-- VSTB (R261).  At CL = 0 it packs no block and still writes the end block that END asks for; at RL = 0 it packs its CL columns of row
0 all the same (entry 25). -/
def execVstb (d : BitVec 5) (a b : BitVec 6) (h : BitVec 3) (s : State) : Result :=
  let i : Instr := .vstb d a b h
  finishCounted i s (do
    let c ← s.vready i [d] isPack oneWidth
    let sa := (s.rs a).toNat
    let ctl := (s.rs b).toNat
    let w := typeWidth c.et
    let t := s.thr
    let c' := c.row0 c.cl
    let fin := decide (bits ctl 17 17 = 1)
    let acc := { Acc.row .store 32 with hint := h.toNat }
    if sa % 64 ≠ 0 then .error (.of 7 (s.rs a)) else s.consume [a, b]
    s.maskCheck c'
    if ¬ t.sound c' [(d, w)] then .error (.data 0 5 7 false) else .ok ()
    if ¬ packOk ctl then s.badControl acc (s.rs a) (decide (c.cl ≠ 0) || fin) else .ok ()
    (do
      let xs := (List.range c.cl).map (fun j =>
        if t.guard c' 0 j then some (t.valueOf c.et t.cbsel.toNat c.flush (t.elem c' d w 0 j)) else none)
      let blks := packBlocks ctl c.rnd c.flush s.free xs
      let nb := blks.length
      let bytes := ((blks.map (·.1)) ++ if fin then [endBlock] else []).flatten
      let u ← State.storeElems [] acc (halfStores sa bytes) s []
      let u := u.addFlags ((blks.map (·.2)).foldl joinFlags 0)
      .ok { u with thr := u.thr.setStream (sa + 64 * nb) 0 fin, free := u.free + 256 * nb }))

/-! ## VLDZ (R262, R263) -/

/-- What a run of VLDZ delivers: the patterns in column order, where it stopped, the stop it met, and the state. -/
structure ZRun where
  vals : List Nat
  addr : Nat
  k : Nat
  done : Bool
  stop : Option Stop
  st : State

/-- A run that ends here. -/
def ZRun.at (s : State) (p k : Nat) (done : Bool) (e : Option Stop) : ZRun := ⟨[], p, k, done, e, s⟩

/-- The chunk at `p`, read only if it lies wholly below `lim`: its head and bytes, or none. -/
def State.loadChunk (s : State) (h p lim : Nat) : Except Stop (Option (ChunkHead × List Byte) × State) :=
  atUnit (BitVec.ofNat 64 p) (do
    if lim < p + 4 then .ok (none, s)
    else do
      let (h4, s) ← s.loadSpan h p 4
      let n := (chunkHead h4).headBytes
      if lim < p + n then .ok (none, s)
      else do
        let (hd, s) ← s.loadSpan h p n
        let len := (chunkHead hd).bytes
        if lim < p + len then .ok (none, s)
        else do
          let (bs, s) ← s.loadSpan h p len
          .ok (some (chunkHead hd, bs), s))

/-- The loop of R262.  A malformed chunk gives the elements that its decoder makes before it, those past the byte length of a sub-stream from
zeros, and the format fault follows where the capacity is not reached first (entry 93); that fault ranks before the race check of the chunk
(R254).  A column from `lo` on whose guard is poisoned stops the word there (R383). -/
def vldzLoop (w hint cap lim lo mask : Nat) : Nat → Nat → Nat → Nat → State → ZRun
  | 0, p, k, _, s => .at s p k false none
  | f + 1, p, k, e, s =>
    if e = cap then .at s p k false none
    else
      match s.loadChunk hint p lim with
      | .error x => .at s p k false (some x)
      | .ok (none, t) => .at t p k false none
      | .ok (some (h, bs), t) =>
        if h.count = 0 then
          match atUnit (BitVec.ofNat 64 p) (t.raceSpan hint p h.bytes) with
          | .error x => .at s p k false (some x)
          | .ok t => .at t p k true none
        else
          let (xs, ok) := chunkDecode w bs
          let n := Nat.min (xs.length - k) (cap - e)
          let vs := (xs.drop k).take n
          let whole := decide (h.count ≤ k + n)
          let bad := (s.thr.firstBad mask (Nat.max lo e) (e + n)).map (· - e)
          let poison := fun (q : Nat) (u : State) =>
            ({ vals := vs.take q, addr := p, k := k + q, done := false, stop := some ((Stop.data 0 5 7 false).leaving u.countAs), st := u } : ZRun)
          if bad = some 0 then poison 0 t
          else if !ok && bad.isNone && (decide (e + n < cap) || whole) then
            { vals := vs, addr := p, k := k + n, done := false, stop := some (.of 14 (BitVec.ofNat 64 p)), st := t }
          else
            match atUnit (BitVec.ofNat 64 p) (t.raceSpan hint p h.bytes) with
            | .error x => .at s p k false (some x)
            | .ok t =>
              match bad with
              | some q => poison q t
              | none =>
                let r := if whole then vldzLoop w hint cap lim lo mask f (p + h.bytes) 0 (e + n) t
                  else vldzLoop w hint cap lim lo mask f p (k + n) (e + n) t
                { r with vals := vs ++ r.vals }

/-- Deliver columns `lo` to `hi` - 1 of row 0. -/
def Thread.deliver (t : Thread) (c : VCtx) (d : BitVec 5) (w : Nat) (vals : List Nat) (lo hi : Nat) : Thread :=
  let c' := c.row0 hi
  let arr := vals.toArray
  let u := t.writeRows c' d w (fun _ j old =>
    if j < lo then old
    else if t.guard c' 0 j then (arr[j]?).getD 0 else if c.zero && t.inPass j then 0 else old)
  u.healed c' d w (fun _ j => decide (lo ≤ j) && (t.guard c' 0 j || (c.zero && t.inPass j)))

/-- VLDZ (R262, R263, R359). -/
def execVldz (d : BitVec 5) (a b : BitVec 6) (h : BitVec 3) (s : State) : Result :=
  let i : Instr := .vldz d a b h
  let pre : Except Stop VCtx := do
    let c ← s.vready i [d] isWide (fun _ => [])
    s.kindCheck i 1
    s.consume [a, b]
    .ok c
  match pre with
  | .error e => finish i s (.error e)
  | .ok c =>
    let sa := (s.rs a).toNat
    let sb := (s.rs b).toNat
    let w := typeWidth c.et
    let cap := s.thr.cap w
    let lo := s.thr.startAt 1
    let z := vldzLoop w h.toNat cap (sa + sb % 2 ^ 40) lo c.mask (cap + 2) sa (sb / 2 ^ 40) 0 s
    let total := z.vals.length
    let upTo := fun (hi : Nat) =>
      { z.st with thr := { z.st.thr.deliver c d w z.vals lo hi with xresume := xresumeWord 1 (Nat.max lo hi) } }
    match s.stopPoint lo total, z.stop with
    | some n, _ => .next ({ upTo n with thr := { (upTo n).thr with stopAt := none } }).takeAsync
    | none, some (.trap code tval f post) => finish i s (.error (.trap code tval f (fun _ => post (upTo total))))
    | none, some e => finish i s (.error e)
    | none, none =>
      let t := upTo total
      finishCounted i s (.ok { t with thr := ({ t.thr with xresume := 0 }.setLen total s.thr.rl).setStream z.addr z.k z.done })

end Sys2Proof.Machine
end

