-- ==== Sys2Proof/Machine/Engines.lean ====
section
/-! DEFINITION. The engine model: operations, counters, buffers and tile owners (spec 17 R270, 20 R276 to R285, 23 R322, R323,
R341 to R344). -/

namespace Sys2Proof.Machine

open Sys2Proof

/-! ## Operations -/

/-- The operation of an id. -/
def State.opOf (s : State) (id : Nat) : Option EngineOp := s.ops.find? (fun o => decide (o.id = id))

/-- Change one operation. -/
def State.modOp (s : State) (id : Nat) (f : EngineOp → EngineOp) : State :=
  { s with ops := s.ops.map (fun o => if o.id = id then f o else o) }

/-- An operation has completed or been aborted. -/
def State.dropOp (s : State) (id : Nat) : State := { s with ops := s.ops.filter (fun o => decide (o.id ≠ id)) }

/-- The operations a gang started that have not completed. -/
def State.gangOps (s : State) (g : Nat) : List EngineOp := s.ops.filter (fun o => decide (o.gang = g))

/-- A new operation of the current thread, with the next id, its clock at pts and its codebooks as they stand (R280, entry
32). -/
def State.newOp (s : State) (k : OpKind) : EngineOp :=
  { id := s.nextId, kind := k, status := .queued, gang := s.thr.gang, hearth := s.thr.hearth, tid := s.thr.tid
    pc := s.thr.pc, asid := s.thr.asid, user := !s.thr.status.priv, clock := s.thr.pts, copy := 0, piece := 0, ahead := []
    passes := [], stack := [], entries := 0, fill := 0, cbs := s.thr.cbs, olds := [], parkSeq := 0 }

/-- Queue an operation. -/
def State.start (s : State) (k : OpKind) : State := { s with ops := s.ops ++ [s.newOp k], nextId := s.nextId + 1 }

/-- Park an operation at its restart state; its requests stay counted, and an overflow counts (R284, R291, R362, R381).  An access that waits for a compressed block parks
nothing, and is made again (R290). -/
def State.park (s : State) (id : Nat) (e : EngineFault) : State :=
  let s := e.counted s
  if e.cause = 0 then s.countRetry e.full
  else
  let t := s.modOp id (fun o => { o with status := .parked e.cause e.addr e.write e.tile false, parkSeq := s.nextId })
  let t := { t with nextId := s.nextId + 1 }
  if e.cause ≠ 16 then t
  else
    match (s.opOf id).map (fun o => s.walk o.asid.toNat e.addr.toNat) with
    | some (.ok l) =>
      let k := homeKey (s.ident l e.addr.toNat)
      { t with czovf := bump t.czovf (if k < 2 ^ 52 then homeStack k else 4) }
    | _ => t

/-- Whether a parked operation may go on by itself: cause 13, once its record is written and its tile engine-owned (R276, R362). -/
def State.retries (s : State) (o : EngineOp) : Bool :=
  match o.status with
  | .parked 13 addr _ true true => s.engineOwned o.gang (addr.toNat / 4096)
  | .running => true
  | _ => false

/-! ## Counter operands (R323) -/

/-- ADDR and SCOPE of a counter operand. -/
def counterAddr (v : Word) : Nat := v.toNat % 2 ^ 56
def counterScope (v : Word) : Nat := bits v.toNat 58 56

/-- The checks of a counter operand `v` of a word that reads scalar registers `rs`: misaligned, poison, limits (R24, R322, R323); `orNone`:
whether a zero ADDR is accepted. -/
def State.counterOperand (s : State) (v : Word) (orNone : Bool) (rs : List (BitVec 6)) : Except Stop Unit :=
  if counterAddr v % 8 ≠ 0 then .error (.of 7 v)
  else do
    s.consume rs
    if v.toNat / 2 ^ 59 ≠ 0 ∨ 5 < counterScope v ∨ (counterAddr v = 0 ∧ ¬ orNone) then .error (.limit v) else .ok ()

/-- A limit of an operand `v` (R322). -/
def limitCheck (v : Word) (ok : Bool) : Except Stop Unit := if ok then .ok () else .error (.limit v)

/-! ## Buffers (R277, R278, R341 to R344) -/

/-- A gang's buffer. -/
def Gang.buf (g : Gang) (b : Nat) : Option Buffer := assoc g.buffers b

/-- Put or remove a buffer. -/
def Gang.putBuf (g : Gang) (n : Nat) (b : Buffer) : Gang := { g with buffers := assocSet g.buffers n b }
def Gang.delBuf (g : Gang) (n : Nat) : Gang := { g with buffers := g.buffers.filter (fun p => decide (p.1 ≠ n)) }

/-- Give tiles to one side. -/
def Gang.flip (g : Gang) (tiles : List Nat) (engine : Bool) : Gang :=
  let rest := g.owners.filter (fun t => !tiles.contains t)
  { g with owners := if engine then rest ++ tiles else rest }

/-- Tiles of a slot, and of the whole ring. -/
def Buffer.tilesOf (b : Buffer) (slot : Nat) : List Nat := (List.range b.tps).map (b.tile0 + slot * b.tps + ·)
def Buffer.ring (b : Buffer) : List Nat := (List.range (b.slots * b.tps)).map (b.tile0 + ·)

/-- The count a role waits for. -/
def Buffer.avail (b : Buffer) (produce : Bool) : Nat := if produce then b.free else b.filled

/-- Whether no thread began to wait on the role's counter before thread `tid` (R343). -/
def Buffer.first (b : Buffer) (tid : Nat) (produce : Bool) : Bool :=
  match b.waiters.find? (fun w => w.produce == produce) with
  | some w => decide (w.tid = tid)
  | none => true

/-- Begin to wait, once. -/
def Buffer.wait (b : Buffer) (tid : Nat) (produce : Bool) (n : Nat) : Buffer :=
  if b.waiters.any (fun w => decide (w.tid = tid) && (w.produce == produce)) then b
  else { b with waiters := b.waiters ++ [⟨tid, produce, n⟩] }

/-- Leave the order of waiters. -/
def Buffer.leave (b : Buffer) (tid : Nat) : Buffer := { b with waiters := b.waiters.filter (fun w => decide (w.tid ≠ tid)) }

/-- Take `n` slots in ring order for a thread or an engine operation: the first slot and the buffer (R278, R343). -/
def Buffer.take (b : Buffer) (produce : Bool) (n : Nat) (engine : Option Nat) : Nat × Buffer :=
  let i := if produce then b.pidx else b.cidx
  let slots := (List.range n).map (fun k => ({ slot := (i + k) % b.slots, produce := produce, engine := engine, fin := false } : HeldSlot))
  let b := { b with held := b.held ++ slots }
  (i, if produce then { b with free := b.free - n, pidx := (i + n) % b.slots }
      else { b with filled := b.filled - n, cidx := (i + n) % b.slots })

/-- Give slots back: published or freed in ring order, so a slot done early waits for those before it (R278).  The slots
that changed hands, and the buffer. -/
def Buffer.give (b : Buffer) (produce : Bool) (slots : List Nat) : List Nat × Buffer :=
  let held := b.held.map (fun h => if h.produce = produce ∧ slots.contains h.slot then { h with fin := true } else h)
  let out := (held.filter (fun h => h.produce == produce)).takeWhile (·.fin)
  let b := { b with held := held.filter (fun h => !out.contains h) }
  (out.map (·.slot), if produce then { b with filled := b.filled + out.length } else { b with free := b.free + out.length })

/-- Slots given back flip to the engine side where it holds them next (R342). -/
def Gang.giveSlots (g : Gang) (n : Nat) (b : Buffer) (produce : Bool) (slots : List Nat) : Gang :=
  let (out, b) := b.give produce slots
  let next := if produce then b.cside else b.pside
  let g := g.putBuf n b
  if next then g.flip ((out.map b.tilesOf).flatten) true else g

/-- Whether a tile belongs to a defined buffer (R270). -/
def Gang.inBuffer (g : Gang) (tile : Nat) : Bool := g.buffers.any (fun p => p.2.ring.contains tile)

/-- The current thread watches no block any more (R82). -/
def State.unwatch (s : State) : State := { s with watches := s.watches.filter (fun w => decide (w.tid ≠ s.thr.tid)) }

/-- A thread's wait ends without its word: it leaves the order of waiters of every buffer of its gang, and watches nothing (R83, R343); a BAR
keeps the arrival it has made (R269). -/
def State.leaveWaits (s : State) : State :=
  let bars := s.thr.barGen.map (fun e => if s.thr.phase = .waiting .bar ∧ e.1 = s.thr.pc then (e.1, e.2.1, true) else e)
  let u : State := { s with thr := { s.thr with barGen := bars } }
  u.unwatch.modGang s.thr.gang (fun g => { g with buffers := g.buffers.map (fun p => (p.1, p.2.leave s.thr.tid)) })

/-! ## Flue descriptors (R281, R336 to R339) -/

def FlueDesc.ssp (d : FlueDesc) : Nat := bits d.cfgB.toNat 13 12
def FlueDesc.dsp (d : FlueDesc) : Nat := bits d.cfgB.toNat 15 14
def FlueDesc.size (d : FlueDesc) : Nat := bits d.cfgB.toNat 11 0 + 1
def FlueDesc.xf (d : FlueDesc) : Nat := bits d.xfA.toNat 2 0
def FlueDesc.fields (d : FlueDesc) : Nat := bits d.xfA.toNat 7 4
def FlueDesc.fieldBytes (d : FlueDesc) : Nat := 2 ^ bits d.xfA.toNat 9 8
def FlueDesc.ptile (d : FlueDesc) : Option Nat := if bits d.xfA.toNat 10 10 = 1 then some (bits d.xfA.toNat 24 16) else none
def FlueDesc.etype (d : FlueDesc) : Nat := bits d.xfA.toNat 29 25
def FlueDesc.subs (d : FlueDesc) : Nat := bits d.xfA.toNat 32 30 + 1
def FlueDesc.tr (d : FlueDesc) : Nat := bits d.xfA.toNat 34 33

/-- COUNTk. -/
def FlueDesc.count (d : FlueDesc) (k : Nat) : Nat := match d.lvl[k]? with | some l => bits l.1.toNat 24 0 | none => 1

/-- Copies of the whole nest. -/
def FlueDesc.copies (d : FlueDesc) : Nat := ((List.range 6).map d.count).foldl (· * ·) 1

/-- Indices i0 to i5 of copy `n` in loop order (R282). -/
def FlueDesc.indices (d : FlueDesc) (n : Nat) : List Nat :=
  ((List.range 6).foldl (fun (acc : List Nat × Nat) k => (acc.1 ++ [acc.2 % d.count k], acc.2 / d.count k)) ([], n)).1

/-- Base and strides of a side. -/
def FlueDesc.base (d : FlueDesc) (dst : Bool) : Nat := (if dst then d.cfgA else d.cfgD).toNat % 2 ^ 56
def FlueDesc.stride (d : FlueDesc) (dst : Bool) (k : Nat) : Int :=
  match d.lvl[k]? with | some l => if dst then l.2.2 else l.2.1 | none => 0

/-- Space and buffer number of a side. -/
def FlueDesc.space (d : FlueDesc) (dst : Bool) : Nat := if dst then d.dsp else d.ssp
def FlueDesc.bufNo (d : FlueDesc) (dst : Bool) : Nat := bits (if dst then d.cfgA else d.cfgD).toNat 60 56

/-- Address of a side for indices `ix` (R282). -/
def FlueDesc.addr (d : FlueDesc) (dst : Bool) (ix : List Nat) : Nat :=
  (((d.base dst : Int) + (ix.zipIdx.map (fun (p : Nat × Nat) => (p.1 : Int) * d.stride dst p.2)).sum) % 2 ^ 56).toNat

/-- Whether the block list stands on a side, and its tile (R285, R339). -/
def FlueDesc.listOn (d : FlueDesc) (dst : Bool) : Bool :=
  match d.blk with | some b => decide (b.2.toNat = if dst then 1 else 0) | none => false
def FlueDesc.ltile (d : FlueDesc) : Option Nat := d.blk.map (fun b => b.1.toNat)

/-- Buffers an operation names with their roles (R283, R348). -/
def OpKind.bufs : OpKind → List (Nat × Bool)
  | .flue _ d _ _ => (if d.ssp = 2 then [(d.bufNo false, false)] else []) ++ (if d.dsp = 2 then [(d.bufNo true, true)] else [])
  | .walk _ b _ _ _ _ => [(b, true)]
  | _ => []

/-- Most bytes that XF 4 makes of one copy: each group at the full width (R287). -/
def FlueDesc.mostChunk (d : FlueDesc) : Nat :=
  let w := typeWidth d.etype
  let e := d.size * 8 / w
  let q := (e + d.subs - 1) / d.subs
  4 + 2 * d.subs + ((List.range d.subs).map (fun j =>
    let c := Nat.min e ((j + 1) * q) - Nat.min e (j * q)
    (c * w + 5 * ((c + 15) / 16) + 7) / 8)).sum

/-- Most bytes that XF 5 makes of one copy: its blocks and an end block (R261). -/
def FlueDesc.mostBlocks (d : FlueDesc) : Nat :=
  let n := match blkFmt (d.xfB.toNat % 256) 1 with | some f => f.count | none => 1
  64 * ((d.size * 8 / typeWidth d.etype + n - 1) / n + bits d.xfB.toNat 17 17)

/-- Most bytes from its address on that one copy could touch on a side (R270, R286). -/
def FlueDesc.reach (d : FlueDesc) (dst : Bool) : Nat :=
  if ¬ dst then (if d.xf = 3 then 20 + 8 * 65535 else d.size)
  else
    match d.xf with
    | 2 => Nat.min 4096 ((d.size / 64 * 255 * typeWidth d.etype + 7) / 8)
    | 3 => 2 ^ 24 * (typeWidth d.etype / 8)
    | 4 => d.mostChunk
    | 5 => d.mostBlocks
    | _ => d.size

/-- Lowest and highest byte a tile-space side could reach; de-interleaving starts at the tile of its address (R270, R286). -/
def FlueDesc.extent (d : FlueDesc) (dst : Bool) : Int × Int :=
  let n := fun k => if d.listOn dst ∧ k ≤ 1 then 65535 else d.count k - 1
  let ext := (List.range 6).map (fun k => (n k : Int) * d.stride dst k)
  let lo : Int := (d.base dst : Int) + (ext.map (fun e => min 0 e)).sum
  let hi : Int := (d.base dst : Int) + (ext.map (fun e => max 0 e)).sum
  (lo, if dst ∧ d.xf = 1 then (hi / 4096 + d.fields) * 4096 - 1 else hi + d.reach dst - 1)

/-- Whether a side names a tile. -/
def FlueDesc.sideNames (d : FlueDesc) (dst : Bool) (tile : Nat) : Bool :=
  decide (d.space dst = 1) &&
    (let (lo, hi) := d.extent dst
     decide (lo < 0) || decide (2 ^ 56 ≤ hi) || (decide (lo / 4096 ≤ tile) && decide ((tile : Int) ≤ hi / 4096)))

/-- Whether an operation names a tile (R270). -/
def EngineOp.names (o : EngineOp) (tile : Nat) : Bool :=
  match o.kind with
  | .flue _ d _ _ => (decide (d.xf = 1) && decide (d.ptile = some tile)) || decide (d.ltile = some tile)
      || d.sideNames false tile || d.sideNames true tile
  | _ => false

/-- Whether some operation of a gang names a tile. -/
def State.tileNamed (s : State) (g tile : Nat) : Bool := (s.gangOps g).any (fun o => o.names tile)

/-- Whether an operation has made every access but its completion add. -/
def EngineOp.workDone (o : EngineOp) : Bool :=
  match o.kind with
  | .flue _ d _ _ => decide (d.copies ≤ o.copy)
  | .append .. => decide (o.piece = 1) && o.stack.isEmpty
  | .refit .. => decide (o.piece = 1)
  | .collective .. => decide (o.piece = 2)
  | _ => false

/-- Counter and value of an operation's completion add (R279). -/
def OpKind.completion : OpKind → Word × Word
  | .flue _ _ c v => (c, v)
  | .append _ _ _ c => (c, 1)
  | .refit _ _ c => (c, 1)
  | .collective _ d _ => (BitVec.ofNat 64 (leNat ((d.drop 0x18).take 8)), 1)
  | _ => (0, 0)

/-! ## Turns at the walker (R318, R348 to R350) -/

/-- Descriptor and slot of a walker operation. -/
def OpKind.tree : OpKind → Option (Nat × Nat)
  | .walk sl _ de _ _ _ => some (sl, de)
  | .append sl de _ _ => some (sl, de)
  | .refit sl de _ => some (sl, de)
  | _ => none

def OpKind.isRefit : OpKind → Bool
  | .refit .. => true
  | _ => false

def OpKind.isAppend : OpKind → Bool
  | .append .. => true
  | _ => false

/-- Whether two operations act on one tree. -/
def EngineOp.sameTree (o p : EngineOp) : Bool :=
  decide (o.asid = p.asid) && (match o.kind.tree, p.kind.tree with | some a, some b => decide (a.2 = b.2) | _, _ => false)

/-- The walker operations of a hearth in start order. -/
def State.walkerOps (s : State) (hearth : Nat) : List EngineOp :=
  s.ops.filter (fun o => decide (o.hearth = hearth) && o.kind.tree.isSome)

/-- Operations in the order an engine takes them: those that have started, the restored ones among them, before queued ones (R367). -/
def startedFirst (l : List EngineOp) : List EngineOp :=
  l.filter (fun o => decide (o.status ≠ .queued)) ++ l.filter (fun o => decide (o.status = .queued))

/-- Whether an operation is among the eight that the walker runs, and no earlier one of its tree holds it back: a refit holds
back all, a refit waits for all, an append for an earlier append (R318, R349; entry 38). -/
def State.walkerTurn (s : State) (o : EngineOp) : Bool :=
  ((startedFirst (s.walkerOps o.hearth)).take 8).any (fun p => decide (p.id = o.id))
    && !(((startedFirst s.ops).takeWhile (fun p => decide (p.id ≠ o.id))).any (fun p => o.sameTree p &&
      (o.kind.isRefit || p.kind.isRefit || (o.kind.isAppend && p.kind.isAppend && !p.workDone))))
    && (decide (o.status = .queued) || s.retries o)

/-! ## Tile owners -/

/-- OWN (R230, R234, R270): its limits, its wait and the flip.  A flip toward the thread side acquires. -/
def execOwn (a b : BitVec 6) (s : State) : Result :=
  let i : Instr := .own a b
  finish i s (do
    s.serial i
    s.consume [a, b]
    let v := s.rs a
    let side := (s.rs b).toNat
    let tile := v.toNat
    match s.myGang with
    | none => .error (.limit v)
    | some g =>
      if g.tiles ≤ tile ∨ 1 < side ∨ g.inBuffer tile then .error (.limit v)
      else if side = 0 ∧ s.tileNamed g.gid tile then .error (.hold id)
      else
        let u := s.bumpSiv.modGang g.gid (fun g => g.flip [tile] (decide (side = 1)))
        .ok (if side = 0 then u.learn (u.gangKnown g.gid) else u))

end Sys2Proof.Machine
end

