-- ==== Sys2Proof/Machine/MemOrder.lean ====
section
/-! DEFINITION. Ordered loads and stores, FENCE, range write-back and invalidate, LCLK, BAR, RFENCE (spec 16 R233 to R236,
17 R266 to R269, 28 R410). -/

namespace Sys2Proof.Machine

open Sys2Proof

/-- A load-acquire of `z` bytes (R266). -/
def loadAcquire (w : Instr) (s : State) (z : Nat) (d a : BitVec 6) (sc : BitVec 3) : Result :=
  finish w s (do
    s.serial w
    let acc : Acc := { Acc.row .load z with scope := sc.toNat }
    let (t, u) ← s.resolveOp [a] false acc (s.rs a)
    let (bs, u) ← u.loadAt acc t (s.rs a)
    .ok ((u.acquired acc t (s.rs a)).ws d (signed (8 * z) (leNat bs))))

/-- A store-release of `z` bytes (R230, R266, R384). -/
def storeRelease (w : Instr) (s : State) (z : Nat) (d a : BitVec 6) (sc : BitVec 3) : Result :=
  finish w s (do
    s.serial w
    let acc : Acc := { Acc.row .store z with scope := sc.toNat }
    let (t, u) ← s.resolveWith [a, d] false (s.lostCheck (scopeCoversLink sc.toNat)) acc (s.rs a)
    let u ← u.bumpSiv.storeAt acc t (s.rs a) (leBytes z (s.rs d).toNat)
    .ok (u.released t (s.rs a) z sc.toNat false))

/-- LDA.W (R266). -/
def execLdaW (d a : BitVec 6) (sc : BitVec 3) (s : State) : Result := loadAcquire (.ldaW d a sc) s 4 d a sc

/-- LDA.D (R266). -/
def execLdaD (d a : BitVec 6) (sc : BitVec 3) (s : State) : Result := loadAcquire (.ldaD d a sc) s 8 d a sc

/-- STL.W (R266). -/
def execStlW (d a : BitVec 6) (sc : BitVec 3) (s : State) : Result := storeRelease (.stlW d a sc) s 4 d a sc

/-- STL.D (R266). -/
def execStlD (d a : BitVec 6) (sc : BitVec 3) (s : State) : Result := storeRelease (.stlD d a sc) s 8 d a sc

/-- FENCE (R230, R235, R384). -/
def execFence (sc : BitVec 3) (s : State) : Result :=
  let i : Instr := .fence sc
  finish i s (do
    s.serial i
    s.lostCheck (scopeCoversLink sc.toNat)
    .ok (if sc = 0 then s.bumpSiv else s.bumpSiv.fenceOrder sc.toNat))

/-- RFENCE (R384, R410): every access of this model is performed and acknowledged when its word completes; for R235 it is a FENCE. -/
def execRfence (a : BitVec 6) (s : State) : Result :=
  let i : Instr := .rfence a
  finish i s (do
    s.serial i
    s.consume [a]
    let v := s.rs a
    if v.toNat / 2 ^ 10 % 2 ^ 53 ≠ 0 then .error (.limit v)
    else
      let all := v.getLsbD 63
      let dev := v.toNat % 1024
      if ¬ all ∧ dev = s.devnum.toNat then .ok s
      else do
        s.lostCheck (fun l => decide (l < 1024) && (all || decide (l = dev)))
        .ok (s.fenceOrder 5))

/-! ## WBR and INVR (R225, R267) -/

/-- The pieces of a range of virtual addresses, page by page, that are translated: the open scratchpad window is not (R200, R254). -/
def State.softPieces (s : State) (va n : Nat) : List (Nat × Nat) :=
  let b := s.thr.twin.toNat / 2 ^ 21 * 2 ^ 21
  let e := if s.thr.twin.getLsbD 0 then b + s.myTiles * 4096 else b
  ((List.range ((va % 65536 + n + 65535) / 65536)).flatMap (fun k =>
    let lo := Nat.max va (va / 65536 * 65536 + 65536 * k)
    let hi := Nat.min (va + n) (va / 65536 * 65536 + 65536 * (k + 1))
    if e ≤ lo ∨ hi ≤ b ∨ e ≤ b then [(lo, hi)] else [(lo, b), (e, hi)])).filter (fun p => decide (p.1 < p.2))

/-- The named runs of the S pages in a range of virtual addresses; an unmapped page is skipped (R267), any other fault of translation,
permission or key is the word's (R375, R376; TVAL, entry 73). -/
def State.softRuns (s : State) (u : Use) (va n : Nat) : Except Stop (List (Nat × Nat) × State) :=
  (s.softPieces va n).foldlM (fun (acc : List (Nat × Nat) × State) p =>
    match acc.2.translate acc.2.thr.asid.toNat p.1 (0 :: acc.2.wordMoment) with
    | (x, s) =>
      let fault := fun (e : Nat × Nat) => Except.error ((Stop.data (BitVec.ofNat 64 p.1) e.1 e.2 u.writes).leaving s.countAs)
      match x with
      | .error e => if e.1 = 1 then .ok (acc.1, s) else fault e
      | .ok l =>
        if l.treat ≠ 2 then .ok (acc.1, s)
        else if ¬ l.permits u (!s.thr.status.priv) then fault (3, l.level)
        else if l.slot ≠ 0 ∧ (s.keyOf l.slot).isNone then fault (4, l.level)
        else .ok (acc.1 ++ [(s.ident l p.1, p.2 - p.1)], s)) ([], s)

/-- Whether a name lies in a run. -/
def inRun (r : Nat × Nat) (x : Nat) : Bool := decide (r.1 ≤ x) && decide (x < r.1 + r.2)

/-- The S lines of the hearth with a byte in a run, under whatever key they are held (R201, R380). -/
def State.softLines (s : State) (r : Nat × Nat) : List L1Line :=
  s.l1.filter (fun l => decide (l.hearth = s.thr.hearth) && l.soft && (List.range 128).any (fun k => inRun r (l.id.byteAt k)))

/-- Why the write-back of the S lines with a byte in a run cannot be made yet (R290). -/
def State.softBusy (s : State) (r : Nat × Nat) (p : Nat → Bool) : Option (Option Nat) :=
  s.namesBusy (((s.softLines r).map (fun l => (l.dirtyNames p).map (·.1))).flatten)

/-- Write back the dirty bytes in a run (R225). -/
def State.writeBackRun (s : State) (r : Nat × Nat) : State :=
  (s.softLines r).foldl (fun s l => match s.held l.hearth l.slot l.id with
    | some k => s.writeBack k (inRun r)
    | none => s) s

/-- Write back the dirty bytes outside a run, then drop its lines (R225, R267); a line with bytes outside that do not fit their page
stays, without its bytes in the run (entry 15). -/
def State.dropRun (s : State) (r : Nat × Nat) : State :=
  (s.softLines r).foldl (fun s l => match s.held l.hearth l.slot l.id with
    | some k =>
      let s := s.writeBack k (fun x => !inRun r x)
      match s.held l.hearth l.slot l.id with
      | some k => if k.dirtyNames (fun x => !inRun r x) = [] then s.dropLine k else s
      | none => s
    | none => s) s

/-- WBR and INVR: the limit at every scope, data from stack scope up, with the permission of R375; the word waits for a locked block among
those it writes back, whose bytes in a run `back` picks (R290). -/
def rangeWord (w : Instr) (s : State) (a b : BitVec 6) (sc : BitVec 3) (u : Use) (back : Nat × Nat → Nat → Bool)
    (act : State → Nat × Nat → State) : Result :=
  finish w s (do
    s.serial w
    s.consume [a, b]
    let va := (s.rs a).toNat
    let n := (s.rs b).toNat
    if 2 ^ 56 < va + n then .error (.limit (s.rs a))
    else if sc.toNat < 2 ∨ n = 0 then .ok s
    else do
      let (runs, t) ← s.softRuns u va n
      match runs.findSome? (fun r => t.softBusy r (back r)) with
      | some h => .error (.hold (fun s => s.countRetry h))
      | none => .ok (runs.foldl act t))

/-- WBR (R225, R267). -/
def execWbr (a b : BitVec 6) (sc : BitVec 3) (s : State) : Result := 
  rangeWord (.wbr a b sc) s a b sc .store inRun State.writeBackRun

/-- INVR (R225, R267). -/
def execInvr (a b : BitVec 6) (sc : BitVec 3) (s : State) : Result := 
  rangeWord (.invr a b sc) s a b sc .load (fun r x => !inRun r x) State.dropRun

/-! ## LCLK and BAR -/

/-- LCLK (R268). -/
def execLclk (d : BitVec 6) (s : State) : Result :=
  let i : Instr := .lclk d
  finish i s (do
    s.serial i
    .ok (s.ws d (s.thr.pts.zeroExtend 64)))

/-- The generation that the BAR at PC waits for, where it has been reached already. -/
def Thread.barAt (t : Thread) : Option Nat := (t.barGen.find? (fun e => decide (e.1 = t.pc) && !e.2.2)).map (·.2.1)

/-- The current thread reaches the BAR at PC, which is a release, and arrives in the barrier's generation, in which it arrives once (R230, R269).  A
handler's BAR joins the generation in which the BAR that it interrupts has arrived, while that stands (entry 92). -/
def State.arrive (s : State) (g : Gang) : State :=
  match s.thr.barAt with
  | some _ => s
  | none => ({ s.bumpSiv with thr := { s.bumpSiv.thr with barGen := (s.thr.pc, g.barGen, false) :: s.thr.barGen } }).modGang g.gid
      (fun g => if g.arrived.contains s.thr.index then g else { g with arrived := s.thr.index :: g.arrived })

/-- Raise the gang entries to each member's SIV. -/
def raiseAll (sivs : List (Nat × BitVec 29)) (l : List (Option (BitVec 29 × Bool))) : List (Option (BitVec 29 × Bool)) :=
  l.zipIdx.map (fun p => match assoc sivs p.2 with
    | some iv => some (later29 p.1 iv true)
    | none => p.1)

/-- The generation advances: every member's entry for each member rises to that member's SIV, and what one member knows all know (R230,
R235, R269). -/
def State.openBarrier (s : State) (g : Gang) : State :=
  let sivs := (s.gangThreads g.gid).map (fun t => (t.index, t.siv))
  let k := s.gangKnown g.gid
  let s := s.mapThreads (fun t => decide (t.gang = g.gid) && t.live) (fun t => { t with acqGang := raiseAll sivs t.acqGang, known := t.known.join k })
  (s.dropMissed s.thr.hearth k).modGang g.gid (fun g => { g with barGen := g.barGen + 1, arrived := [], barSivs := sivs, barKnown := k })

/-- The current thread completes a barrier whose generation has advanced while it had run CSAVE: it takes what that barrier gave (R230, R235,
R269). -/
def State.passBarrier (s : State) (g : Gang) : State :=
  { s with thr := { s.thr with acqGang := raiseAll g.barSivs s.thr.acqGang } }.learn g.barKnown

/-- Whether every thread of a gang that has not ended has arrived; one that has run CSAVE arrives when it is back (R269, R365). -/
def State.allArrived (s : State) (g : Gang) : Bool :=
  (s.gangThreads g.gid).all (fun u => !s.unended u || u.barGen.any (fun e => decide (e.2.1 = g.barGen)) || g.arrived.contains u.index)

/-- BAR (R269): the thread completes when the generation of this BAR has advanced. -/
def execBar (s : State) : Result :=
  finish .bar s (do
    s.serial .bar
    match s.myGang with
    | none => .ok s
    | some g =>
      let t := s.arrive g
      let done := fun (t : State) => { t with thr := { t.thr with barGen := t.thr.barGen.filter (fun e => !(decide (e.1 = t.thr.pc) && !e.2.2)) } }
      if t.thr.barAt ≠ some g.barGen then .ok (done (t.passBarrier g))
      else
        match t.myGang with
        | none => .ok (done t)
        | some g' => if t.allArrived g' then .ok (done (t.openBarrier g')) else .error (.hold (fun s => s.arrive g)))

end Sys2Proof.Machine
end

