-- ==== Sys2Proof/Machine/Buffers.lean ====
section
/-! DEFINITION. Buffers and counters: BDEF, BGET, BPUT, CWAIT, CADD, and the steps BGET_SERVE, CWAIT_REREAD and
OWN_FLIP_COMPLETE (spec 20 R277, R278, 23 R341 to R346). -/

namespace Sys2Proof.Machine

open Sys2Proof

/-! ## BDEF (R341, R342) -/

/-- The ring that a shape operand names, unfilled, its sides as `v` says (R277, R341). -/
def ringOf (sh v : Nat) : Buffer :=
  let n := bits sh 21 16 + 1
  { tile0 := bits sh 8 0, tps := bits sh 26 24 + 1, slots := n, pside := decide (v % 2 = 1), cside := decide (v / 2 % 2 = 1)
    filled := 0, free := n, pidx := 0, cidx := 0, held := [], waiters := [] }

/-- Whether an operation names a tile by its PTILE or LTILE (R341). -/
def EngineOp.listTile (o : EngineOp) (tile : Nat) : Bool :=
  match o.kind with
  | .flue _ d _ _ => (decide (d.xf = 1) && decide (d.ptile = some tile)) || decide (d.ltile = some tile)
  | _ => false

/-- Whether a shape operand defines a ring that the gang accepts as buffer `n` (R277, R341). -/
def State.ringOk (s : State) (g : Gang) (n sh : Nat) : Bool :=
  let b := ringOf sh 0
  decide (sh / 2 ^ 27 = 0) && decide (bits sh 23 22 = 0) && decide (bits sh 15 9 = 0)
    && decide (b.tile0 + b.slots * b.tps ≤ g.tiles)
    && !(g.buffers.any (fun (p : Nat × Buffer) => decide (p.1 ≠ n) && b.ring.any (fun t => p.2.ring.contains t)))
    && !(b.ring.any (fun t => (s.gangOps g.gid).any (fun o => o.listTile t)))

/-- Whether some operation of a gang names a buffer. -/
def State.bufferNamed (s : State) (g n : Nat) : Bool :=
  (s.gangOps g).any (fun o => o.kind.bufs.any (fun p => decide (p.1 = n)))

/-- BDEF (R341, R342): a tile given to the thread side waits until no operation names it (R270).  Where several operands are at fault, sd comes first, then sb (entry 33). -/
def execBdef (d a b : BitVec 6) (s : State) : Result :=
  let i : Instr := .bdef d a b
  finish i s (do
    s.serial i
    s.consume [d, a, b]
    let n := (s.rs d).toNat
    let sh := (s.rs a).toNat
    let v := (s.rs b).toNat
    let undef := (s.rs b).getLsbD 8
    limitCheck (s.rs d) (decide (n ≤ 31))
    limitCheck (s.rs b) (decide (v / 2 ^ 9 = 0) && decide (bits v 7 2 = 0))
    match s.myGang with
    | none => .error (.limit (s.rs a))
    | some g => do
      limitCheck (s.rs a) (if undef then decide (sh = 0) else s.ringOk g n sh)
      let old := g.buf n
      let oldRing := match old with | some o => o.ring | none => []
      let new := ringOf sh v
      let newRing := if undef then [] else new.ring
      let back := (oldRing.filter (fun t => !newRing.contains t)) ++ (if new.pside then [] else newRing)
      if (match old with | some o => !o.held.isEmpty || s.bufferNamed g.gid n | none => false) then .error (.hold id)
      else if back.any (fun t => s.tileNamed g.gid t) then .error (.hold id)
      else
        let keep := match old with | some o => o.waiters | none => []
        let u := s.modGang g.gid (fun g =>
          let g := (g.flip back false).flip (if new.pside then newRing else []) true
          if undef then g.delBuf n else g.putBuf n { new with waiters := keep })
        .ok (if back = [] then u else u.learn (u.gangKnown g.gid)))

/-! ## BGET and BPUT (R343, R344) -/

/-- The checks of a buffer operand and of a count and role operand: the buffer, the count, and whether the role produces. -/
def getOperands (g : Gang) (a b : Word) : Except Stop (Buffer × Nat × Bool) :=
  match g.buf a.toNat with
  | none => .error (.limit a)
  | some q =>
    let c := bits b.toNat 6 0
    if b.toNat / 2 ^ 9 ≠ 0 ∨ b.getLsbD 7 ∨ c < 1 ∨ q.slots < c then .error (.limit b) else .ok (q, c, b.getLsbD 8)

/-- A trap leaves the thread out of the order of waiters. -/
def leaving (r : Except Stop State) : Except Stop State :=
  match r with
  | .error (.trap c v f post) => .error (.trap c v f (fun s => (post s).leaveWaits))
  | x => x

/-- BGET (R230, R343): it acquires and counts as a release of its thread (R230). -/
def execBget (d a b : BitVec 6) (s : State) : Result :=
  let i : Instr := .bget d a b
  finish i s (do
    s.serial i
    leaving (do
      s.consume [a, b]
      match s.myGang with
      | none => .error (.limit (s.rs a))
      | some g => do
        let n := (s.rs a).toNat
        let (q, c, produce) ← getOperands g (s.rs a) (s.rs b)
        let who := s.thr.tid
        if (if produce then q.pside else q.cside) then .error (.limit (s.rs b))
        else if ¬ (c ≤ q.avail produce ∧ q.first who produce) then
          .error (.hold (fun s => s.modGang g.gid (fun g => g.putBuf n (q.wait who produce c))))
        else
          let (first, q) := (q.leave who).take produce c none
          let tiles := ((List.range c).map (fun k => q.tilesOf ((first + k) % q.slots))).flatten
          let u := s.bumpSiv.modGang g.gid (fun g => (g.putBuf n q).flip tiles false)
          .ok ((u.learn (u.gangKnown g.gid)).ws d (BitVec.ofNat 64 (q.tile0 + q.tps * first)))))

/-- BPUT (R230, R342, R344). -/
def execBput (a b : BitVec 6) (s : State) : Result :=
  let i : Instr := .bput a b
  finish i s (do
    s.serial i
    s.consume [a, b]
    match s.myGang with
    | none => .error (.limit (s.rs a))
    | some g => do
      let n := (s.rs a).toNat
      let (q, c, produce) ← getOperands g (s.rs a) (s.rs b)
      let mine := (q.held.filter (fun h => (h.produce == produce) && h.engine.isNone)).map (·.slot)
      if mine.length < c then .error (.limit (s.rs b))
      else .ok (s.bumpSiv.modGang g.gid (fun g => g.giveSlots n q produce (mine.take c))))

/-! ## CWAIT and CADD (R345, R346) -/

/-- The block of 128 bytes that a wait on the word at `va` watches (R82, R345). -/
def State.blockAt (s : State) (t : Target) (va : Word) : Option Nat × Nat :=
  match t with
  | .tile off => (some s.thr.gang, off / 128)
  | .mem l => (none, s.ident l va.toNat / 128)

/-- Whether the hearth's own copy serves a read and has missed a write, so that the wait looks again. -/
def State.behind (s : State) (a : Acc) (t : Target) (va : Word) : Bool :=
  match t with
  | .tile _ => false
  | .mem l => match s.serves a l (s.runAt l va.toNat) with | some c => decide (c.missed ≠ []) | none => false

/-- The current thread waits for a write to a block, in place of what it watched before. -/
def State.watch (s : State) (b : Option Nat × Nat) (behind : Bool) : State :=
  { s.unwatch with watches := ⟨s.thr.tid, b.1, b.2, behind⟩ :: s.unwatch.watches }

/-- One look of a wait at the word at `va`, an acquire of `scope` whose operands are `rs`: where `ends` holds of the word, it is the result,
with the state the wait leaves; else the wait watches its block (R82, R345). -/
def State.waitRead (s : State) (rs : List (BitVec 6)) (va : Word) (scope : Nat) (ends : Word → Bool) : Except Stop (Word × State) := do
  let acc : Acc := { Acc.row .load 8 with scope := scope }
  let (t, u) ← s.resolveOp rs false acc va
  let (bs, v) ← u.loadAt acc t va
  let x : Word := BitVec.ofNat 64 (leNat bs)
  if ends x then .ok (x, (v.acquired acc t va).unwatch) else .error (.hold (fun s => s.watch (u.blockAt t va) (u.behind acc t va)))

/-- Whether a waiting word of the current thread looks again: a write to its block has come, or it watches none yet (R82, R83). -/
def State.looksAgain (s : State) : Bool :=
  match s.watches.find? (fun w => decide (w.tid = s.thr.tid)) with
  | some w => w.prompted
  | none => true

/-- CWAIT (R323, R345). -/
def execCwait (d a b : BitVec 6) (s : State) : Result :=
  let i : Instr := .cwait d a b
  finish i s (do
    s.serial i
    leaving (do
      s.counterOperand (s.rs a) false [a, b]
      let (v, u) ← s.waitRead [] (BitVec.ofNat 64 (counterAddr (s.rs a))) (counterScope (s.rs a)) (fun v => decide ((s.rs b).toNat ≤ v.toNat))
      .ok (u.ws d v)))

/-- CADD (R230, R346, R384). -/
def execCadd (d a b : BitVec 6) (s : State) : Result :=
  let i : Instr := .cadd d a b
  finish i s (do
    s.serial i
    s.counterOperand (s.rs a) false [a, b]
    let va : Word := BitVec.ofNat 64 (counterAddr (s.rs a))
    let sc := counterScope (s.rs a)
    let acc : Acc := { Acc.row .atomic 8 with scope := sc }
    let (t, u) ← s.resolveWith [] false (s.lostCheck (scopeCoversLink sc)) acc va
    let (old, u) ← u.bumpSiv.atomicAt acc t va .atomic (fun v => some ((v + (s.rs b).toNat) % 2 ^ 64))
    .ok ((u.released t va 8 sc true).ws d (BitVec.ofNat 64 old)))

/-! ## Waits that end -/

/-- BGET_SERVE (R343): the current thread's waiting BGET looks again. -/
def execBgetServe (s : State) : Result :=
  match s.thr.phase with
  | .waiting (.bget d a b) => execBget d a b s
  | _ => .next s

/-- CWAIT_REREAD (R83, R345): the current thread's waiting CWAIT rereads once a write to its block prompts it. -/
def execCwaitReread (s : State) : Result :=
  match s.thr.phase with
  | .waiting (.cwait d a b) => if s.looksAgain then execCwait d a b s else .next s
  | _ => .next s

/-- OWN_FLIP_COMPLETE (R270): the current thread's waiting OWN looks again. -/
def execOwnFlipComplete (s : State) : Result :=
  match s.thr.phase with
  | .waiting (.own a b) => execOwn a b s
  | _ => .next s

end Sys2Proof.Machine
end

