-- ==== Sys2Proof/Machine/Arrays.lean ====
section
/-! DEFINITION. What the array and transform words share: the order of their checks and their tile accesses (spec 21 R295, 23
R324). -/

namespace Sys2Proof.Machine

open Sys2Proof

/-- Checks 1 and 2 of R324, after the convoy rules: the vector state, the group factor, the effective type. -/
def State.acheck (s : State) (i : Instr) (regs : List (BitVec 5)) (types : Nat → Bool) : Except Stop VCtx :=
  let c := s.thr.vctx
  if s.inBlock then .error (.illegal i)
  else do
    s.inConvoy (instrClass i)
    if ¬ s.thr.status.vlive ∨ c.et = 0x1F then .error (.vstate i)
    else if regs.any (fun r => decide (r.toNat % c.f ≠ 0)) then .error (.illegal i)
    else if ¬ types c.et then .error (.illegal i)
    else .ok c

/-- Check 4: lengths and the capacity at 32 bits (R155, R324). -/
def State.lengths (s : State) (i : Instr) (ok : Bool) : Except Stop Unit :=
  if ok && decide (s.thr.cl ≤ s.thr.cap 32) then .ok () else .error (.vstate i)

/-- Check 5: the scalar operand in `r`; alignment first, then its poison, then every other limit (R24, R324). -/
def State.operandCheck (s : State) (r : BitVec 6) (aligned limits : Bool) : Except Stop Unit :=
  if ¬ aligned then .error (.of 7 (s.rs r))
  else do
    s.consume [r]
    if ¬ limits then .error (.limit (s.rs r)) else .ok ()

/-- Whether an offset names a byte of the gang's tiles. -/
def State.inTiles (s : State) (off : Nat) : Bool := decide (off < s.myTiles * 4096)

/-- Check 6 of R324 over `n` bytes at offset `off` of one tile: the first byte that fails, a poisoned one that is read among them (R383). -/
def State.partCheck (s : State) (read wr : Bool) (off n : Nat) : Except Stop Unit :=
  let owned := s.engineOwned s.thr.gang (off / 4096)
  if s.myTiles ≤ off / 4096 then .error (.data (BitVec.ofNat 64 off) 8 7 wr)
  else if read && s.tilePoisoned s.thr.gang off (if owned then 1 else n) then
    .error (.data (BitVec.ofNat 64 (((List.range n).find? (fun k => s.tilePoisoned s.thr.gang (off + k) 1)).getD 0 + off)) 5 7 false)
  else if owned then .error (.of 13 (BitVec.ofNat 64 off))
  else .ok ()

/-- Check 6 of R324 over `n` bytes at scratchpad offset `off`, in increasing offset: TVAL is the first failing byte's. -/
def State.tileCheck (s : State) (off n : Nat) (read wr : Bool) : Except Stop Unit :=
  (cutBy 4096 (n + 1) off n).foldlM (fun _ p => s.partCheck read wr p.1 p.2) ()

/-- Marker in `poisonV` of a poisoned cell array. -/
def arrayMark : Nat := 32

/-- Consuming a poisoned cell array raises the data access fault, REASON 5, TVAL 0 (R383). -/
def State.arraySound (s : State) : Except Stop Unit :=
  if s.thr.poisonV.any (fun p => decide (p.1 = arrayMark)) then .error (.data 0 5 7 false) else .ok ()

/-- The cell array takes a new state, which replaces poisoned cells. -/
def Thread.setArray (t : Thread) (x : ArrayState) : Thread :=
  { t with array := x, poisonV := t.poisonV.filter (fun p => decide (p.1 ≠ arrayMark)) }

/-- A tile read by the current thread at an offset (R295). -/
def State.myTile (s : State) (off n : Nat) : List Byte := s.tileRead s.thr.gang off n

/-- The element format of an operand type: CB4 elements stand as their BF16 entries. -/
def opFmt (et : Nat) : Fmt := if et = 7 then bf16 else fmtOf et

/-- An operand element as the array holds it: CB4 looked up, flush applied (R97, R297, R298). -/
def Thread.opElem (t : Thread) (et : Nat) (flush : Bool) (p : Nat) : Nat :=
  if et = 7 then bf16.flushIn flush (t.cbEntry t.cbsel.toNat p)
  else if isFp et then (fmtOf et).flushIn flush p
  else p

/-- FP32 under RNE; flush as the effective mode says (R97). -/
def rne (flush : Bool) : Rnd := ⟨0, 0, flush⟩

/-- An FP32 operand under flush. -/
def f32In (flush : Bool) (p : Nat) : FVal := fp32.val (fp32.flushIn flush p)

/-- A signed product of two numbers: its integer and exponent; 0 where an operand is no number. -/
def prodOf (a b : FVal) : Int × Int :=
  match a, b with
  | .num s m e, .num t n f => ((if s != t then -((m * n : Nat) : Int) else (m * n : Nat)), e + f)
  | _, _ => (0, 0)

/-- An exact sum of signed terms at their least exponent. -/
def exactSum (ts : List (Int × Int)) : Int × Int :=
  let q := ts.foldl (fun q t => min q t.2) (match ts with | [] => 0 | t :: _ => t.2)
  ((ts.map (fun t => t.1 * 2 ^ (t.2 - q).toNat)).sum, q)

end Sys2Proof.Machine
end

