-- ==== Sys2Proof/Machine/Transform.lean ====
section
/-! DEFINITION. The transform words XDEC and XENC (spec 20 R286 to R288, 23 R334, R335). -/

namespace Sys2Proof.Machine

open Sys2Proof

/-- XDEC (R334). -/
def execXdec (d : BitVec 5) (sb : BitVec 6) (s : State) : Result :=
  let i : Instr := .xdec d sb
  finishCounted i s (do
    let c ← s.acheck i [d] isWide
    let off := (s.rs sb).toNat
    s.operandCheck sb (off % 4 == 0) (s.inTiles off)
    s.tileCheck off 4 true false
    let h4 := chunkHead (s.myTile off 4)
    let w := typeWidth c.et
    if ¬ h4.ok ∨ s.thr.cap w < h4.count then .error (.of 14 (s.rs sb))
    else do
      s.tileCheck off h4.headBytes true false
      let h := chunkHead (s.myTile off h4.headBytes)
      s.maskCheck (c.row0 h4.count)
      s.tileCheck off h.bytes true false
      let (xs, ok) := chunkDecode w (s.myTile off h.bytes)
      if ¬ ok then .error (.of 14 (s.rs sb))
      else
        let u := s.thr.deliver c d w xs 0 h.count
        .ok { s with thr := (u.setLen h.count s.thr.rl).setStream (off + h.bytes) 0 (decide (h.count = 0)) })

/-- The chunk of elements under transform code `x`; code 3 takes the shortest, a tie going to the lower code (R335). -/
def chunkBest (w n x : Nat) (xs : List Nat) : List Byte :=
  if x < 3 then chunkEncode w n x xs
  else
    let c0 := chunkEncode w n 0 xs
    let c1 := chunkEncode w n 1 xs
    let c2 := chunkEncode w n 2 xs
    let m := if c1.length < c0.length then c1 else c0
    if c2.length < m.length then c2 else m

/-- XENC (R335): columns 0 to CL - 1 of row 0, whatever RL holds. -/
def execXenc (d : BitVec 5) (x : BitVec 2) (n : BitVec 3) (sb : BitVec 6) (s : State) : Result :=
  let i : Instr := .xenc d x n sb
  finishCounted i s (do
    let c ← s.acheck i [d] isWide
    let w := typeWidth c.et
    let t := s.thr
    let c' := c.row0 c.cl
    if t.cap w < c.cl then .error (.vstate i)
    else do
      let off := (s.rs sb).toNat
      s.operandCheck sb (off % 4 == 0) (s.inTiles off)
      let xs := (List.range c.cl).map (fun j => if t.guard c' 0 j then t.elem c' d w 0 j else 0)
      let bs := chunkBest w (n.toNat + 1) x.toNat xs
      s.maskCheck c'
      if ¬ t.sound c' [(d, w)] then .error (.data 0 5 7 false) else .ok ()
      s.tileCheck off bs.length false true
      (do
        let u := s.tileWrite t.gang off bs
        .ok { u with thr := u.thr.setStream (off + bs.length) 0 false }))

end Sys2Proof.Machine
end

