-- ==== Sys2Proof/Machine/Flue.lean ====
section
/-! DEFINITION. The flue sequencers: FLCFG, FLLVL, FLXF, FLBLK, FLSTART, and the steps FLUE_COPY and ENGINE_OP_FIRE (spec 20
R278 to R286, 23 R336 to R340, R428). -/

namespace Sys2Proof.Machine

open Sys2Proof

/-! ## Staging (R336 to R339, R428) -/

/-- A word that stages part of the descriptor. -/
def stage (i : Instr) (s : State) (rs : List (BitVec 6)) (check : Except Stop Unit) (f : FlueDesc → FlueDesc) : Result :=
  finish i s (do
    s.serial i
    s.consume rs
    check
    .ok { s with thr := { s.thr with staging := f s.thr.staging } })

/-- The form of an address operand in its space (R336). -/
def addressForm (v : Word) (space : Nat) : Bool :=
  if space = 2 then decide (v.toNat / 2 ^ 61 = 0)
  else decide (v.toNat / 2 ^ 56 = 0) && (decide (space = 0) || decide (v.toNat < 2 ^ 21))

/-- FLCFG (R336); where several operands are at fault the control operand comes first (entry 33). -/
def execFlcfg (d a b : BitVec 6) (s : State) : Result :=
  let c := (s.rs b).toNat
  stage (.flcfg d a b) s [d, a, b] (do
      limitCheck (s.rs b) (decide (c / 2 ^ 16 = 0) && decide (bits c 15 14 ≠ 3) && decide (bits c 13 12 ≠ 3))
      limitCheck (s.rs d) (addressForm (s.rs d) (bits c 13 12))
      limitCheck (s.rs a) (addressForm (s.rs a) (bits c 15 14)))
    (fun _ => { FlueDesc.reset with cfg := true, cfgD := s.rs d, cfgA := s.rs a, cfgB := s.rs b })

/-- A stride's range (R337). -/
def strideOk (v : Word) : Bool := decide (-(2 ^ 39) ≤ v.toInt) && decide (v.toInt < 2 ^ 39)

/-- FLLVL (R337). -/
def execFllvl (d a b : BitVec 6) (s : State) : Result :=
  let v := (s.rs d).toNat
  stage (.fllvl d a b) s [d, a, b] (do
      limitCheck (s.rs d) (decide (v / 2 ^ 35 = 0) && decide (bits v 31 25 = 0) && decide (bits v 34 32 ≤ 5)
        && decide (1 ≤ bits v 24 0) && decide (bits v 24 0 ≤ 2 ^ 24))
      limitCheck (s.rs a) (strideOk (s.rs a))
      limitCheck (s.rs b) (strideOk (s.rs b)))
    (fun x => { x with lvl := x.lvl.set (bits v 34 32) (s.rs d, (s.rs a).toInt, (s.rs b).toInt) })

/-- Whether a transform word is one that FLXF accepts (R338, R428). -/
def transformOk (v : Nat) : Bool :=
  let xf := bits v 2 0
  let unused := fun (hi lo : Nat) (xs : List Nat) => xs.contains xf || decide (bits v hi lo = 0)
  decide (v / 2 ^ 35 = 0) && decide (bits v 15 11 = 0) && decide (bits v 3 3 = 0) && decide (xf ≤ 5)
    && unused 34 33 [4] && unused 32 30 [4] && unused 29 25 [2, 3, 4, 5] && unused 24 16 [1] && unused 10 10 [1]
    && unused 9 8 [1] && unused 7 4 [1]
    && (decide (xf ≠ 1) || (decide (2 ≤ bits v 7 4) && decide (bits v 7 4 ≤ 8)))
    && (match xf with
        | 2 => isStream (bits v 29 25)
        | 3 | 4 => isWide (bits v 29 25)
        | 5 => isPack (bits v 29 25)
        | _ => true)

/-- FLXF (R338, R428). -/
def execFlxf (a b : BitVec 6) (s : State) : Result :=
  let v := (s.rs a).toNat
  stage (.flxf a b) s [a, b] (do
      limitCheck (s.rs a) (transformOk v)
      limitCheck (s.rs b) (if bits v 2 0 = 5 then packOk (s.rs b).toNat else decide (s.rs b = 0)))
    (fun x => { x with xfA := s.rs a, xfB := s.rs b })

/-- FLBLK (R339). -/
def execFlblk (a b : BitVec 6) (s : State) : Result :=
  stage (.flblk a b) s [a, b] (do
      limitCheck (s.rs a) (decide ((s.rs a).toNat ≤ 511))
      limitCheck (s.rs b) (decide ((s.rs b).toNat ≤ 1)))
    (fun x => { x with blk := some (s.rs a, s.rs b) })

/-! ## FLSTART (R340) -/

/-- The sd of the FLLVL that last set a level's count. -/
def FlueDesc.levelWord (d : FlueDesc) (k : Nat) : Word := match d.lvl[k]? with | some l => l.1 | none => 1

/-- Whether a buffer side of a descriptor stands (first two rows of R340). -/
def FlueDesc.sideOk (d : FlueDesc) (g : Gang) (dst : Bool) : Bool :=
  match g.buf (d.bufNo dst) with
  | none => false
  | some b => (if dst then b.pside else b.cside) && decide (d.base dst + d.size ≤ b.tps * 4096)

/-- The rows of R340 in order: whether each holds, and the word it names. -/
def FlueDesc.rows (d : FlueDesc) (g : Gang) : List (Bool × Word) :=
  let pt := d.ptile.getD 0
  let lt := d.ltile.getD 0
  let blkA := (d.blk.map (·.1)).getD 0
  let pv := decide (d.xf = 1) && d.ptile.isSome
  [ (!decide (d.ssp = 2) || d.sideOk g false, d.cfgD)
  , (!decide (d.dsp = 2) || d.sideOk g true, d.cfgA)
  , (d.blk.isNone || decide (d.count 1 = 1), d.levelWord 1)
  , (d.blk.isNone || decide (d.count 0 ≤ 1024), d.levelWord 0)
  , (d.blk.isNone || decide (lt < g.tiles), blkA)
  , (!decide (d.xf = 1) || !d.cfg || (decide (d.size % (d.fields * d.fieldBytes) = 0) && decide (d.dsp = 1)), d.cfgB)
  , (!pv || decide (pt < g.tiles), d.xfA)
  , (!decide (d.xf = 2) || !d.cfg || decide (d.size % 64 = 0), d.cfgB)
  , (!(decide (d.xf = 4) || decide (d.xf = 5)) || !d.cfg || decide (d.size % (typeWidth d.etype / 8) = 0), d.cfgB)
  , (!pv || !g.inBuffer pt, d.xfA)
  , (d.blk.isNone || !g.inBuffer lt, blkA) ]

/-- Whether an operation is on a sequencer of a hearth. -/
def EngineOp.onSeq (o : EngineOp) (hearth seq : Nat) : Bool :=
  decide (o.hearth = hearth) && (match o.kind with | .flue q _ _ _ => decide (q = seq) | _ => false)

/-- FLSTART (R280, R340). -/
def execFlstart (d a b : BitVec 6) (s : State) : Result :=
  let i : Instr := .flstart d a b
  finish i s (do
    s.serial i
    s.counterOperand (s.rs d) true [d, a, b]
    limitCheck (s.rs b) (decide ((s.rs b).toNat ≤ 3))
    match s.myGang with
    | none => .ok s
    | some g =>
      match (s.thr.staging.rows g).find? (fun r => !r.1) with
      | some r => .error (.limit r.2)
      | none =>
        let seq := (s.rs b).toNat
        if 4 ≤ (s.ops.filter (fun o => o.onSeq s.thr.hearth seq)).length then .error (.hold id)
        else .ok (s.start (.flue seq s.thr.staging (s.rs d) (s.rs a))))

/-! ## One copy (R282 to R286) -/

/-- Where bytes of a side lie: memory, or tiles of the operation's gang; `room`: bytes to the end of a buffer's slot. -/
structure Side where
  mem : Bool
  addr : Nat
  room : Option Nat
  deriving DecidableEq, Repr

/-- Address of byte `k` of a side; memory addresses are modulo 2^56. -/
def Side.at (x : Side) (k : Nat) : Nat := if x.mem then (x.addr + k) % 2 ^ 56 else x.addr + k

/-- Key of a byte in an operation's `olds`. -/
def Side.key (x : Side) (k : Nat) : Nat := if x.mem then x.at k else 2 ^ 60 + x.at k

/-- The fault of an access `n` bytes past the end of a slot (R283). -/
def Side.slotFault (x : Side) (s : State) (n : Nat) (write : Bool) : Option EngineFault :=
  match x.room with
  | some r => if r < n then some (s.engineFault 8 (BitVec.ofNat 64 x.addr) write true) else none
  | none => none

/-- Read `n` bytes from byte `k` of a side; a byte that an earlier copy of the operation wrote may read old (R282, entry 13). -/
def sideRead (x : Side) (k n : Nat) (o : EngineOp) (s : State) : Except EngineFault (List Byte × EngineOp × State) := do
  match x.slotFault s (k + n) false with
  | some e => .error e
  | none => .ok ()
  let (bs, o, s) ← if x.mem then do
      let (bs, clk, s) ← s.engineRead o.asid.toNat o.hearth o.user (x.at k) n o.clock
      .ok (bs, { o with clock := clk }, s)
    else do
      let bs ← s.engineTileRead o.gang (x.at k) n
      .ok (bs, o, s)
  if o.olds = [] then .ok (bs, o, s)
  else
    let bs := bs.zipIdx.map (fun p => match assoc o.olds (x.key (k + p.2)) with
      | some b => if Config.copyOld (s.free + p.2) then b else p.1
      | none => p.1)
    .ok (bs, o, { s with free := s.free + n })

/-- Remember what the bytes of a side held before a copy writes them. -/
def EngineOp.remember (o : EngineOp) (x : Side) (k : Nat) (old : List Byte) : EngineOp :=
  { o with olds := o.olds ++ (old.zipIdx.map (fun p => (x.key (k + p.2), p.1))).filter (fun p => (assoc o.olds p.1).isNone) }

/-- Write bytes at byte `k` of a side; `keep`: the operation may read them again. -/
def sideWrite (x : Side) (k : Nat) (bs : List Byte) (keep : Bool) (o : EngineOp) (s : State) :
    Except EngineFault (EngineOp × State) := do
  match x.slotFault s (k + bs.length) true with
  | some e => .error e
  | none => .ok ()
  if x.mem then do
    let old := match s.engineRead o.asid.toNat o.hearth o.user (x.at k) bs.length o.clock with
      | .ok (b, _, _) => b
      | .error _ => []
    let (clk, s) ← s.engineWrite o.asid.toNat o.port o.user (x.at k) bs o.clock
    let o := if keep then o.remember x k old else o
    .ok ({ o with clock := clk }, s)
  else do
    let old := s.tileRead o.gang (x.at k) bs.length
    let s ← s.engineTileWrite o.gang (x.at k) bs
    .ok (if keep then o.remember x k old else o, s)

/-- What a copy came to: the fault that stopped it, the bytes of its pieces performed, the operation and the state. -/
structure CopyEnd where
  fault : Option EngineFault
  piece : Nat
  op : EngineOp
  st : State

/-- Cut a copy into the pieces of R284 at 64 KiB boundaries of memory sides and at tile boundaries. -/
def copyPieces (x y : Side) (len : Nat) : Nat → Nat → List (Nat × Nat)
  | 0, _ => []
  | f + 1, k =>
    if len ≤ k then []
    else
      let room := fun (z : Side) => let u := if z.mem then 65536 else 4096; u - z.at k % u
      let n := Nat.min (len - k) (Nat.min (room x) (room y))
      (k, n) :: copyPieces x y len f (k + n)

/-- Copy pieces from `x` to `y`, those below `start` being performed already. -/
def copyPlain (x y : Side) (keep : Bool) : List (Nat × Nat) → Nat → EngineOp → State → CopyEnd
  | [], start, o, s => ⟨none, start, o, s⟩
  | p :: r, start, o, s =>
    if p.1 < start then copyPlain x y keep r start o s
    else
      match sideRead x p.1 p.2 o s with
      | .error e => ⟨some e, p.1, o, s⟩
      | .ok (bs, o', s') =>
        match sideWrite y p.1 bs keep o' s' with
        | .error e => ⟨some e, p.1, o, s⟩
        | .ok (o, s) => copyPlain x y keep r (p.1 + p.2) o s

/-- Perform writes of a transformed copy in order, `done` counting the bytes passed; those below `start` are performed
already. -/
def copyWrites (y : Side) (keep : Bool) : List (Nat × List Byte) → Nat → Nat → EngineOp → State → CopyEnd
  | [], _, done, o, s => ⟨none, done, o, s⟩
  | (k, bs) :: r, start, done, o, s =>
    if done + bs.length ≤ start then copyWrites y keep r start (done + bs.length) o s
    else
      match sideWrite y k bs keep o s with
      | .error e => ⟨some e, done, o, s⟩
      | .ok (o, s) => copyWrites y keep r start (done + bs.length) o s

/-- Contiguous output as writes, cut at page and tile boundaries. -/
def outWrites (y : Side) (bs : List Byte) : List (Nat × List Byte) :=
  (copyPieces y y bs.length (bs.length + 1) 0).map (fun p => (p.1, (bs.drop p.1).take p.2))

/-- Patterns of width w packed into bytes, low positions first; `pad` fills an odd last nibble. -/
def packElems (w pad : Nat) (xs : List Nat) : List Byte :=
  let v := (xs.zipIdx.map (fun p => p.1 * 2 ^ (p.2 * w))).sum
  let n := (xs.length * w + 7) / 8
  leBytes n (v + if xs.length * w % 8 = 4 then pad % 16 * 2 ^ (xs.length * w) else 0)

/-- The elements of `n` blocks from byte `k` of side bytes `bs` as VLDB expands them, up to an end block; none where one is
malformed, with its number (R286). -/
def expandBlocks (t : Thread) (ty : Nat) : Nat → Nat → List Byte → List Nat × Option Nat
  | 0, _, _ => ([], none)
  | n + 1, b, bs =>
    let fb := (bs.headD 0).toNat
    let sc := ((bs.drop 1).headD 0).toNat
    if fb = 0 then ([], none)
    else
      match blkFmt fb sc with
      | none => ([], some b)
      | some f =>
        let pay := leNat ((bs.drop 2).take 62)
        let xs := (List.range f.count).map (fun k => (blkConvert (rne false) ty (t.blkValue f sc pay false k)).1)
        let (ys, e) := expandBlocks t ty n (b + 1) (bs.drop 64)
        (xs ++ ys, e)

/-- The end of a copy that faults before it writes. -/
def CopyEnd.failed (e : EngineFault) (start : Nat) (o : EngineOp) (s : State) : CopyEnd := ⟨some e, start, o, s⟩

/-- Write contiguous output, or park where it passes the end of a slot. -/
def copyOut (y : Side) (bs : List Byte) (keep : Bool) (start : Nat) (o : EngineOp) (s : State) : CopyEnd :=
  match y.slotFault s bs.length true with
  | some e => .failed e start o s
  | none => copyWrites y keep (outWrites y bs) start 0 o s

/-- A format park of a copy at source address `a` (R286). -/
def formatFault (x : Side) (k : Nat) (s : State) : EngineFault := s.engineFault 14 (BitVec.ofNat 64 (x.at k)) false (!x.mem)

/-- De-interleave (R286): the writes of LEN bytes `bs`, field f of record r at byte P(r) x W of tile f. -/
def deinterleave (d : FlueDesc) (bs : List Byte) (perm : Nat → Nat) : List (Nat × List Byte) :=
  let w := d.fieldBytes
  let n := d.size / (d.fields * w)
  ((List.range n).map (fun r => (List.range d.fields).map (fun f =>
    (f * 4096 + perm r * w, (bs.drop ((r * d.fields + f) * w)).take w)))).flatten

/-- One copy from `x` to `y` under the descriptor's transform (R282, R286). -/
def copyThrough (d : FlueDesc) (x y : Side) (start : Nat) (o : EngineOp) (s : State) : CopyEnd :=
  let keep := decide (1 < d.copies) && (x.mem == y.mem)
  let len := d.size
  match x.slotFault s (if d.xf = 3 then 4 else len) false, (if d.xf = 0 then y.slotFault s len true else none) with
  | some e, _ => .failed e start o s
  | none, some e => .failed e start o s
  | none, none =>
    match d.xf with
    | 0 => copyPlain x y keep (copyPieces x y len (len + 1) 0) start o s
    | 1 =>
      match sideRead x 0 len o s with
      | .error e => .failed e start o s
      | .ok (bs, o, s) =>
        let n := d.size / (d.fields * d.fieldBytes)
        let y' : Side := ⟨false, y.addr / 4096 * 4096, none⟩
        match d.ptile with
        | none => copyWrites y' keep (deinterleave d bs id) start 0 o s
        | some p =>
          match s.engineTileRead o.gang (p * 4096) (2 * n) with
          | .error e => .failed e start o s
          | .ok ps => copyWrites y' keep (deinterleave d bs (fun r => elemAt (leNat ps) 16 r % n)) start 0 o s
    | 2 =>
      match sideRead x 0 len o s with
      | .error e => .failed e start o s
      | .ok (bs, o, s) =>
        let (xs, bad) := expandBlocks { Thread.blank with cbs := o.cbs } d.etype (len / 64) 0 bs
        match bad with
        | some b => .failed (formatFault x (64 * b) s) start o s
        | none =>
          let out := packElems (typeWidth d.etype) (Config.lastNibble s.free) xs
          let s := { s with free := s.free + 1 }
          if 4096 < out.length then .failed (formatFault x 0 s) start o s else copyOut y out keep start o s
    | 3 =>
      let read := (do
        let (h4, o, s) ← sideRead x 0 4 o s
        let (h, o, s) ← sideRead x 0 (chunkHead h4).headBytes o s
        if (chunkHead h4).ok then sideRead x 0 (chunkHead h).bytes o s else .ok (h4, o, s))
      match read with
      | .error e => .failed e start o s
      | .ok (bs, o, s) =>
        let w := typeWidth d.etype
        let (xs, ok) := chunkDecode w bs
        if ¬ ok then .failed (formatFault x 0 s) start o s else copyOut y (packElems w 0 xs) keep start o s
    | 4 =>
      match sideRead x 0 len o s with
      | .error e => .failed e start o s
      | .ok (bs, o, s) =>
        let w := typeWidth d.etype
        let v := leNat bs
        copyOut y (chunkBest w d.subs d.tr ((List.range (len * 8 / w)).map (elemAt v w))) keep start o s
    | _ =>
      match sideRead x 0 len o s with
      | .error e => .failed e start o s
      | .ok (bs, o, s) =>
        let w := typeWidth d.etype
        let v := leNat bs
        let t := Thread.blank
        let xs := (List.range (len * 8 / w)).map (fun k => some (t.valueOf d.etype 0 false (elemAt v w k)))
        let blks := packBlocks d.xfB.toNat (Config.packRound s.free % 6) false (s.free + 1) xs
        let fin := if bits d.xfB.toNat 17 17 = 1 then [endBlock] else []
        copyOut y ((blks.map (·.1)) ++ fin).flatten keep start o { s with free := s.free + 1 + 256 * blks.length }

/-- The side of copy `n` with indices `ix`: a buffer's side lies in its pass's slot (R283). -/
def State.flueSide (s : State) (o : EngineOp) (d : FlueDesc) (dst : Bool) (n : Nat) (ix : List Nat) : Option Side :=
  let a := d.addr dst ix
  if d.space dst ≠ 2 then some ⟨decide (d.space dst = 0), a, none⟩
  else
    match (s.gangOf o.gang).bind (fun g => g.buf (d.bufNo dst)), assoc o.passes (n / d.count 0) with
    | some b, some sl =>
      match (if dst then sl.2 else sl.1) with
      | some k => some ⟨false, (b.tile0 + k * b.tps) * 4096 + a, some (b.tps * 4096 - a)⟩
      | none => none
    | _, _ => none

/-- The indices of a side: the list entry's row and column replace i1 and i0 on the list's side (R285). -/
def FlueDesc.listed (d : FlueDesc) (dst : Bool) (ix : List Nat) (e : Nat) : List Nat :=
  if d.listOn dst then (ix.set 0 (e % 65536)).set 1 (e / 65536) else ix

/-- The list entry of copy `n`, 0 without a list (R285). -/
def State.listEntry (s : State) (o : EngineOp) (d : FlueDesc) (n : Nat) : Except EngineFault Nat :=
  match d.ltile with
  | none => .ok 0
  | some t => (s.engineTileRead o.gang (t * 4096 + 4 * (n % d.count 0)) 4).map leNat

/-- Where the bytes that a plain copy writes lie, as runs of names, those of tiles from 2^80 on: addresses modulo 2^56, and two addresses of
one frame the same (R282).  None where a page does not translate. -/
def State.copyRuns (s : State) (o : EngineOp) (d : FlueDesc) (n : Nat) : Option (List (Nat × Nat)) :=
  match s.listEntry o d n with
  | .error _ => none
  | .ok e =>
    if d.blk.isSome ∧ e = 0xFFFFFFFF then some []
    else
      (s.flueSide o d true n (d.listed true (d.indices n) e)).bind (fun y =>
        (copyPieces y y d.size (d.size + 1) 0).foldr (fun p acc =>
          if ¬ y.mem then acc.map ((2 ^ 80 + y.at p.1, p.2) :: ·)
          else
            match acc, s.walk o.asid.toNat (y.at p.1) with
            | some l, .ok f => some ((s.ident f (y.at p.1), p.2) :: l)
            | _, _ => none) (some []))

/-- Whether runs of bytes share none. -/
def apart (a b : List (Nat × Nat)) : Bool := a.all (fun p => b.all (fun q => decide (p.1 + p.2 ≤ q.1) || decide (q.1 + q.2 ≤ p.1)))

/-- Whether copy `n` may run before the earlier copies still to run: a plain copy whose bytes they do not write (R282,
entry 34). -/
def State.mayRunAhead (s : State) (o : EngineOp) (d : FlueDesc) (n : Nat) : Bool :=
  decide (n = o.copy) || (decide (d.xf = 0) && decide (n ≤ o.copy + 63) && !o.ahead.contains n &&
    (positions o.copy n).all (fun j => o.ahead.contains j ||
      (match s.copyRuns o d j, s.copyRuns o d n with
       | some a, some b => apart a b
       | _, _ => false)))

/-- Copy `n` of an operation from piece `start` (R282 to R286). -/
def State.copyOne (s : State) (o : EngineOp) (d : FlueDesc) (n start : Nat) : CopyEnd :=
  match s.listEntry o d n with
  | .error e => .failed e start o s
  | .ok e =>
    if d.blk.isSome ∧ e = 0xFFFFFFFF then ⟨none, 0, o, s⟩
    else
      let ix := d.indices n
      match s.flueSide o d false n (d.listed false ix e), s.flueSide o d true n (d.listed true ix e) with
      | some x, some y => copyThrough d x y start o s
      | _, _ => ⟨none, 0, o, s⟩

/-- The restart copy moves past copies performed ahead (R284). -/
def EngineOp.settle : Nat → EngineOp → EngineOp
  | 0, o => o
  | f + 1, o =>
    if o.ahead.contains o.copy then
      EngineOp.settle f { o with copy := o.copy + 1, ahead := o.ahead.filter (fun k => decide (k ≠ o.copy)) }
    else o

/-- Whether every copy of a pass has been performed. -/
def EngineOp.passDone (o : EngineOp) (d : FlueDesc) (p : Nat) : Bool :=
  (positions (p * d.count 0) ((p + 1) * d.count 0)).all (fun n => decide (n < o.copy) || o.ahead.contains n)

/-- Slots of finished passes return and publish in order (R283). -/
def State.settlePasses (s : State) (o : EngineOp) (d : FlueDesc) : State :=
  let out := o.passes.takeWhile (fun p => o.passDone d p.1)
  let s := s.modOp o.id (fun o => { o with passes := o.passes.drop out.length })
  out.foldl (fun s p => s.modGang o.gang (fun g =>
    let g := match p.2.1, g.buf (d.bufNo false) with
      | some k, some b => g.giveSlots (d.bufNo false) b false [k]
      | _, _ => g
    match p.2.2, g.buf (d.bufNo true) with
    | some k, some b => g.giveSlots (d.bufNo true) b true [k]
    | _, _ => g)) s

/-- Whether an operation is the first on its sequencer. -/
def State.oldestFlue (s : State) (o : EngineOp) (seq : Nat) : Bool :=
  match (startedFirst s.ops).find? (fun p => p.onSeq o.hearth seq) with
  | some p => decide (p.id = o.id)
  | none => false

/-- Whether an operation may act now: running, first to start, or at a tile that was flipped to it (R276, R340). -/
def State.mayAct (s : State) (o : EngineOp) (first : Bool) : Bool := first && (decide (o.status = .queued) || s.retries o)

/-- FLUE_COPY (R282 to R286): `who` names the operation and `num` how far beyond the restart copy to go.  A copy that faults
parks the operation; one performed ahead is performed whole or not at all. -/
def execFlueCopy (s : State) : Result :=
  match s.opOf s.arg.who with
  | none => .next s
  | some o =>
    match o.kind with
    | .flue seq d _ _ =>
      let n := o.copy + s.arg.num
      if ¬ s.mayAct o (s.oldestFlue o seq) ∨ d.copies ≤ n ∨ ¬ s.mayRunAhead o d n then .next s
      else if (d.ssp = 2 ∨ d.dsp = 2) ∧ (assoc o.passes (n / d.count 0)).isNone then .next s
      else
        let r := s.copyOne { o with status := .running } d n (if n = o.copy then o.piece else 0)
        match r.fault with
        | some e =>
          if n = o.copy then .next ((r.st.modOp o.id (fun _ => { r.op with piece := r.piece })).park o.id e)
          else .next (s.park o.id e)
        | none =>
          let p := if n = o.copy then { r.op with copy := o.copy + 1, piece := 0 } else { r.op with ahead := r.op.ahead ++ [n] }
          let p := EngineOp.settle 65 p
          .next ((r.st.modOp o.id (fun _ => p)).settlePasses p d)
    | _ => .next s

/-- The next pass of a flue operation that has no slots yet, within 64 copies of the restart copy (R283, R284). -/
def EngineOp.nextPass (o : EngineOp) (d : FlueDesc) : Option Nat :=
  let p := match o.passes.getLast? with | some q => q.1 + 1 | none => o.copy / d.count 0
  if p * d.count 0 < d.copies ∧ p * d.count 0 ≤ o.copy + 63 then some p else none

/-- The pass for which an operation waits to reserve slots now (R278, R283). -/
def State.wants (s : State) (o : EngineOp) : Option Nat :=
  match o.kind with
  | .flue seq d _ _ => if s.mayAct o (s.oldestFlue o seq) ∧ o.kind.bufs ≠ [] then o.nextPass d else none
  | .walk .. => if o.passes = [] ∧ s.walkerTurn o then some o.copy else none
  | _ => none

/-- Whether an operation started before `o` waits on one of the counters that `o` waits on (R278). -/
def State.waitsBefore (s : State) (o : EngineOp) : Bool :=
  s.ops.any (fun p => decide (p.gang = o.gang) && decide (p.id < o.id) && p.kind.bufs.any o.kind.bufs.contains && (s.wants p).isSome)

/-- Reserve one slot of each buffer an operation names for pass `p`, at once or none, in the order of start (R278). -/
def State.fire (s : State) (o : EngineOp) (p : Nat) : State :=
  match s.gangOf o.gang with
  | none => s
  | some g =>
    let bs := o.kind.bufs
    let ready := bs.all (fun x => match g.buf x.1 with | some b => decide (1 ≤ b.avail x.2) | none => false)
    if ¬ ready ∨ s.waitsBefore o then s
    else
      let (g, ins, outs) := bs.foldl (fun (acc : Gang × Option Nat × Option Nat) x => match acc.1.buf x.1 with
        | some b =>
          let (k, b) := b.take x.2 1 (some o.id)
          if x.2 then (acc.1.putBuf x.1 b, acc.2.1, some k) else (acc.1.putBuf x.1 b, some k, acc.2.2)
        | none => acc) (g, none, none)
      (s.modGang o.gang (fun _ => g)).modOp o.id (fun o => { o with passes := o.passes ++ [(p, ins, outs)] })

/-- ENGINE_OP_FIRE (R278, R283): `who` names the operation.  A queued operation that is first on its sequencer starts; one
that names buffers reserves the slots of its next pass, or goes on waiting for them. -/
def execEngineOpFire (s : State) : Result :=
  match s.opOf s.arg.who with
  | none => .next s
  | some o =>
    match o.kind with
    | .flue seq _ _ _ =>
      if ¬ s.mayAct o (s.oldestFlue o seq) then .next s
      else
        let s := s.modOp o.id (fun o => { o with status := .running })
        match s.wants { o with status := .running } with
        | none => .next s
        | some p => .next (s.fire o p)
    | .walk .. =>
      match s.wants o with
      | none => .next s
      | some p => .next ((s.modOp o.id (fun o => { o with status := .running })).fire o p)
    | _ => .next s

end Sys2Proof.Machine
end

