-- ==== Sys2Proof/Machine/Walker.lean ====
section
/-! DEFINITION. The tether walker: TOPEN, TWALK, TAPPEND, TREFIT, TSUMR, and the steps WALK, APPEND and TREE_REFIT (spec 22 R309
to R321, 23 R347 to R351). -/

namespace Sys2Proof.Machine

open Sys2Proof

/-! ## The tree in memory (R309 to R311) -/

/-- A tree descriptor. -/
structure Tree where
  pool : Nat
  nodes : Nat
  root : Nat
  envBase : Nat
  keyBase : Nat
  valBase : Nat
  d : Nat
  dv : Nat
  leafCap : Nat
  fanout : Nat
  freeHead : Nat
  retired : Nat
  flags : Nat
  deriving DecidableEq, Repr

/-- The little-endian field of `n` bytes at `o`. -/
def fieldAt (bs : List Byte) (o n : Nat) : Nat := leNat ((bs.drop o).take n)

/-- Read a descriptor's 64 bytes. -/
def treeOf (bs : List Byte) : Tree :=
  { pool := fieldAt bs 0 8, nodes := fieldAt bs 8 4, root := fieldAt bs 0xC 4, envBase := fieldAt bs 0x10 8
    keyBase := fieldAt bs 0x18 8, valBase := fieldAt bs 0x20 8, d := fieldAt bs 0x28 2, dv := fieldAt bs 0x2A 2
    leafCap := fieldAt bs 0x2C 2, fanout := fieldAt bs 0x2E 2, freeHead := fieldAt bs 0x30 4, retired := fieldAt bs 0x34 4
    flags := fieldAt bs 0x38 8 }

/-- The limits of R309. -/
def Tree.ok (t : Tree) : Bool :=
  decide (t.pool % 1024 = 0) && decide (2 ≤ t.nodes) && decide (t.nodes ≤ 2 ^ 24) && decide (t.envBase % 64 = 0)
    && decide (1 ≤ t.d) && decide (t.d ≤ 256) && decide (t.dv ≤ 256) && (decide (t.dv ≠ 0) || decide (t.valBase = 0))
    && decide (2 ≤ t.leafCap) && decide (t.leafCap ≤ 240) && decide (2 ≤ t.fanout) && decide (t.fanout ≤ 16)
    && decide (t.flags < 2)

/-- ESIZE, and the addresses of a node and of its envelope. -/
def Tree.esize (t : Tree) : Nat := 64 * ((16 + 4 * t.d + 4 * t.dv + 63) / 64)
def Tree.nodeAt (t : Tree) (i : Nat) : Nat := t.pool + 1024 * i
def Tree.envAt (t : Tree) (i : Nat) : Nat := t.envBase + i * t.esize

/-- A node (R310). -/
structure Node where
  kind : Nat
  count : Nat
  parent : Nat
  slots : List Nat
  deriving DecidableEq, Repr

/-- An envelope (R311). -/
structure Env where
  cnt : Nat
  rad : Nat
  c : List Nat
  v : List Nat
  deriving DecidableEq, Repr

/-- 32-bit words of bytes. -/
def words32 (n : Nat) (bs : List Byte) : List Nat := (List.range n).map (fun k => fieldAt bs (4 * k) 4)

/-- A node's bytes, unused ones zero. -/
def Node.bytes (n : Node) : List Byte :=
  leBytes 4 n.kind ++ leBytes 4 n.count ++ leBytes 4 n.parent ++ List.replicate 52 0
    ++ (n.slots.map (leBytes 4)).flatten ++ List.replicate (960 - 4 * n.slots.length) 0

/-- An envelope's bytes. -/
def Env.bytes (e : Env) : List Byte :=
  leBytes 8 e.cnt ++ leBytes 4 e.rad ++ List.replicate 4 0 ++ ((e.c ++ e.v).map (leBytes 4)).flatten

/-! ## Arithmetic (R313, R315) -/

/-- The exact difference of two FP32 patterns. -/
def diff32 (a b : Nat) : FVal :=
  match fp32.val a, fp32.val b with
  | .num s m e, .num t n f => exactAdd 0 s m e (!t) n f
  | .inf s, .inf t => if s = t then .nan false else .inf s
  | .inf s, .num .. => .inf s
  | .num .., .inf t => .inf (!t)
  | _, _ => .nan false

/-- The exact sum of squares. -/
def sqSum (xs : List FVal) : FVal :=
  if xs.any FVal.isNan then .nan false
  else if xs.any (fun x => match x with | .inf _ => true | _ => false) then .inf false
  else
    let (v, q) := exactSum (xs.map (fun x => prodOf x x))
    .num false v.natAbs q

/-- The exact squared distance of two points. -/
def sqDist (a b : List Nat) : FVal := sqSum ((a.zip b).map (fun p => diff32 p.1 p.2))

/-- The opening test of an envelope (R313). -/
def opens (dot : Bool) (theta : Nat) (q : List Nat) (e : Env) : Bool :=
  let r := fp32.val e.rad
  let th := fp32.val theta
  if dot then
    let qn := (fp32.sqrt (rne false) (sqSum (q.map fp32.val))).1
    let p := fp32.val (fp32.mul (rne false) (fp32.val qn) r).1
    !p.isNan && !(th.lt p)
  else
    let d := (fp32.sqrt (rne false) (sqDist q e.c)).1
    let p := fp32.val (fp32.mul (rne false) th (fp32.val d)).1
    !p.isNan && !r.isNan && !(p.lt r)

/-- (n C + key) / (n + 1), rounded once. -/
def mean32 (n c k : Nat) : Nat :=
  match fp32.val c, fp32.val k with
  | .num s m e, .num t p f => (fp32.div (rne false) (exactAdd 0 s (n * m) e t p f) (.num false (n + 1) 0)).1
  | a, b => (fp32.fma (rne false) a (.num false n 0) b).1

/-- RUP of RAD plus the square root of an exact square, in exact reals, cut at 2^-170, which is below every FP32 value; a sum below zero gives
0, which no distance is below (R315).  None for a NaN, and for infinities of opposite sign. -/
def radUp (rad : Nat) (sq : FVal) : Option Nat :=
  match fp32.val rad, sq with
  | .num s m e, .num _ n f =>
    let v := n * 2 ^ (f + 340).toNat
    let r := isqrtFrom v (bitLen v / 2 + 1) 0
    let k := m * 2 ^ (e + 170).toNat
    let sum := 2 * (if s then r - k else k + r) + (if r * r ≠ v then 1 else 0)
    some (if sum = 0 ∨ s ∧ r < k then 0 else (fp32.round ⟨3, 0, false⟩ false sum (-171) false).1)
  | .nan _, _ => none
  | _, .nan _ => none
  | .inf s, .num .. => some (if s then 0 else (fp32.infOf false).1)
  | .inf s, .inf _ => if s then none else some (fp32.infOf false).1
  | _, .inf _ => some (fp32.infOf false).1

/-- RUP of RAD plus the distance of two points; where that is no number, the NaN of cause 1 for a NaN operand, else that of infinity less
infinity (R86). -/
def distUp (rad : Nat) (a b : List Nat) : Nat :=
  match radUp rad (sqDist a b) with
  | some x => x
  | none => (fp32.nanOf (if (rad :: a ++ b).any (fun p => (fp32.val p).isNan) then 1 else 3)).1

/-- The larger of two radii; a NaN is the larger, and that of cause 1 before that of cause 3 (R86, entry 35). -/
def wider (x y : Nat) : Nat :=
  if x = (fp32.nanOf 1).1 ∨ y = (fp32.nanOf 1).1 then (fp32.nanOf 1).1 else Nat.max x y

/-- The envelope of a node after key and value are added (R315). -/
def Env.add (e : Env) (key val : List Nat) : Env :=
  let c := (e.c.zip key).map (fun p => mean32 e.cnt p.1 p.2)
  { cnt := (e.cnt + 1) % 2 ^ 64
    rad := wider (distUp e.rad c e.c) (distUp 0 key c)
    c := c
    v := (e.v.zip val).map (fun p => (fp32.add (rne false) (fp32.val p.1) (fp32.val p.2)).1) }

/-- The mean of patterns: the exact sum over their number, rounded once (R316); a NaN among them gives the NaN of cause 1, infinities of both
signs that of cause 3 (R86). -/
def meanOf (xs : List Nat) : Nat :=
  let vs := xs.map fp32.val
  if vs.any FVal.isNan then (fp32.nanOf 1).1
  else
    match vs.contains (.inf false), vs.contains (.inf true) with
    | true, true => (fp32.nanOf 3).1
    | true, false => (fp32.infOf false).1
    | false, true => (fp32.infOf true).1
    | false, false =>
      let (v, q) := exactSum (vs.map (fun v => match v with | .num s m e => ((if s then -(m : Int) else m), e) | _ => (0, 0)))
      (fp32.div (rne false) (.num (decide (v < 0)) v.natAbs q) (.num false xs.length 0)).1

/-- A key with its value, as an append or TREFIT reads it. -/
structure KeyVal where
  key : List Nat
  val : List Nat
  deriving DecidableEq, Repr

/-- The envelope computed from keys in order (R316, R318); the centroid of no keys is a free value (entry 35). -/
def envOf (d dv : Nat) (ks : List KeyVal) (draw : Nat) : Env :=
  let n := ks.length
  let c := (List.range d).map (fun e =>
    if n = 0 then (Config.treeFree (draw + e)).toNat
    else meanOf (ks.map (fun k => (k.key[e]?).getD 0)))
  { cnt := n
    rad := ks.foldl (fun r k => wider r (distUp 0 k.key c)) 0
    c := c
    v := (List.range dv).map (fun e => ks.foldl (fun a k =>
      (fp32.add (rne false) (fp32.val a) (fp32.val ((k.val[e]?).getD 0))).1) 0) }

/-- The lowest dimension of greatest extent (R316). -/
def widest (d : Nat) (ps : List (List Nat)) : Nat :=
  let extent := fun (e : Nat) =>
    let xs := ps.map (fun p => (p[e]?).getD 0)
    let lo := xs.foldl (fun a x => if (fp32.val x).lt (fp32.val a) then x else a) (xs.headD 0)
    let hi := xs.foldl (fun a x => if (fp32.val a).lt (fp32.val x) then x else a) (xs.headD 0)
    diff32 hi lo
  (List.range d).foldl (fun b e => if (extent b).lt (extent e) then e else b) 0

/-- Insert a point into points ordered by a coordinate, then by index. -/
def placeBy (e : Nat) (p : Nat × List Nat) : List (Nat × List Nat) → List (Nat × List Nat)
  | [] => [p]
  | q :: r =>
    let a := fp32.val ((p.2[e]?).getD 0)
    let b := fp32.val ((q.2[e]?).getD 0)
    if a.lt b || (!(b.lt a) && decide (p.1 < q.1)) then p :: q :: r else q :: placeBy e p r

/-- The two halves of a split (R316); entry 37 for ties among children. -/
def halves (d : Nat) (ps : List (Nat × List Nat)) : List Nat × List Nat :=
  let l := (ps.foldl (fun acc p => placeBy (widest d (ps.map (·.2))) p acc) []).map (·.1)
  let h := (ps.length + 1) / 2
  (l.take h, l.drop h)

/-! ## Engine accesses of the walker -/

/-- A computation of an engine operation over the device that may fault. -/
abbrev Eng := StateT (EngineOp × State) (Except EngineFault)

/-- Read and write memory as the operation. -/
def engRead (va n : Nat) : Eng (List Byte) := fun (x : EngineOp × State) => do
  let (bs, clk, s) ← x.2.engineRead x.1.asid.toNat x.1.hearth x.1.user (va % 2 ^ 64) n x.1.clock
  .ok (bs, ({ x.1 with clock := clk }, s))

def engWrite (va : Nat) (bs : List Byte) : Eng Unit := fun (x : EngineOp × State) => do
  let (clk, s) ← x.2.engineWrite x.1.asid.toNat x.1.port x.1.user (va % 2 ^ 64) bs x.1.clock
  .ok ((), ({ x.1 with clock := clk }, s))

/-- `n` free draws. -/
def engDraw (n : Nat) : Eng Nat := fun (x : EngineOp × State) => .ok (x.2.free, (x.1, { x.2 with free := x.2.free + n }))

def readTree (desc : Nat) : Eng Tree := do
  let bs ← engRead desc 64
  pure (treeOf bs)

/-- A node with the slots that its COUNT names. -/
def readNode (t : Tree) (i : Nat) : Eng Node := do
  let h ← engRead (t.nodeAt i) 64
  let n := Nat.min 240 (fieldAt h 4 4)
  let bs ← engRead (t.nodeAt i + 0x40) (4 * n)
  pure { kind := fieldAt h 0 4, count := fieldAt h 4 4, parent := fieldAt h 8 4, slots := words32 n bs }

def readEnv (t : Tree) (i : Nat) : Eng Env := do
  let bs ← engRead (t.envAt i) (16 + 4 * t.d + 4 * t.dv)
  pure { cnt := fieldAt bs 0 8, rad := fieldAt bs 8 4, c := words32 t.d (bs.drop 16), v := words32 t.dv (bs.drop (16 + 4 * t.d)) }

def readKey (t : Tree) (k : Nat) : Eng KeyVal := do
  let kb ← engRead (t.keyBase + 4 * t.d * k) (4 * t.d)
  let vb ← engRead (t.valBase + 4 * t.dv * k) (4 * t.dv)
  pure ⟨words32 t.d kb, words32 t.dv vb⟩

/-! ## Locks (R319) -/

/-- Whether an append of a tree holds the lock of a node: that of its next update (R319). -/
def State.nodeLocked (s : State) (asid : BitVec 10) (desc node : Nat) : Bool :=
  s.ops.any (fun p => p.kind.isAppend && decide (p.asid = asid) && decide ((p.kind.tree.map (·.2)) = some desc)
    && decide ((p.stack.head?.map (·.1)) = some node))

/-! ## WALK (R313, R314) -/

/-- An entry's bytes (R314). -/
def entryBytes (ty node first count : Nat) : List Byte := leBytes 4 ty ++ leBytes 4 node ++ leBytes 4 first ++ leBytes 4 count

/-- Write an entry at the next position of the reserved slot. -/
def emit (buf : Nat) (bs : List Byte) : Eng Unit := fun (x : EngineOp × State) =>
  match x.1.passes, (x.2.gangOf x.1.gang).bind (fun g => g.buf buf) with
  | (_, _, some k) :: _, some b => do
    let s ← x.2.engineTileWrite x.1.gang ((b.tile0 + k * b.tps) * 4096 + 16 * x.1.fill) bs
    .ok ((), ({ x.1 with fill := x.1.fill + 1, entries := x.1.entries + 1 }, s))
  | _, _ => .ok ((), x)

/-- One node visit, or the END entry once no node is left (R313); the result says whether the walk has ended. -/
def visit (buf desc : Nat) (q : List Nat) (theta : Nat) (dot : Bool) : Eng Bool := do
  let t ← readTree desc
  let (o, _) ← get
  if o.piece = 0 then
    modify (fun (x : EngineOp × State) => ({ x.1 with piece := 1, stack := [(t.root, 0)] }, x.2))
    pure false
  else
    match o.stack with
    | [] => do
      emit buf (entryBytes 0 o.entries 0 0)
      pure true
    | (n, _) :: rest => do
      let e ← readEnv t n
      let nd ← readNode t n
      let go := fun (kids : List Nat) =>
        modify (fun (x : EngineOp × State) => ({ x.1 with stack := kids.map (fun k => (k, 0)) ++ rest }, x.2))
      if e.cnt = 0 then go []
      else if opens dot theta q e then do
        emit buf (entryBytes 1 n 0 e.cnt)
        go []
      else if nd.kind = 1 ∨ (nd.kind = 3 ∧ o.ahead.contains n) then go nd.slots
      else if 0 < nd.count then do
        emit buf (entryBytes 2 n 0 nd.count)
        go []
      else go []
      pure false

/-- Publish the slot of a walk. -/
def State.publishWalk (s : State) (o : EngineOp) (buf : Nat) : State :=
  match o.passes with
  | (_, _, some k) :: _ =>
    (s.modGang o.gang (fun g => match g.buf buf with | some b => g.giveSlots buf b true [k] | none => g)).modOp o.id
      (fun o => { o with passes := [], fill := 0 })
  | _ => s

/-- WALK (R313, R314, R319, R321): `who` names the operation, which visits one node.  It needs its output slot reserved, and it
waits for a node that an append has locked. -/
def execWalk (s : State) : Result :=
  match s.opOf s.arg.who with
  | none => .next s
  | some o =>
    match o.kind with
    | .walk _ buf desc q theta dot =>
      let locked : Bool := match o.stack with | (n, _) :: _ => s.nodeLocked o.asid desc n | [] => false
      if ¬ s.walkerTurn o ∨ o.passes = [] ∨ locked then .next s
      else
        match (visit buf desc (q.map BitVec.toNat) theta.toNat dot).run ({ o with status := .running }, s) with
        | .error e => .next (s.park o.id e)
        | .ok (fin, (p, u)) =>
          let u := u.modOp o.id (fun _ => p)
          let cap := match (u.gangOf o.gang).bind (fun g => g.buf buf) with | some b => b.tps * 256 | none => 0
          let u := if fin ∨ cap ≤ p.fill then u.publishWalk p buf else u
          .next (if fin then u.dropOp o.id else u)
    | _ => .next s

/-! ## APPEND (R315 to R317) -/

/-- One node update: the node whose lock it needs and the bytes to write. -/
structure Update where
  lock : Nat
  writes : List (Nat × List Byte)
  deriving DecidableEq, Repr

/-- A lock that no node has. -/
def noLock : Nat := 2 ^ 32

/-- The child nearest a key, the lower slot on a tie (R315): slot and node. -/
def nearest (t : Tree) (key : List Nat) (kids : List Nat) : Eng (Option (Nat × Nat)) := do
  let r ← kids.zipIdx.foldlM (fun (best : Option (Nat × Nat × FVal)) (p : Nat × Nat) => do
    let e ← readEnv t p.1
    let d := sqDist key e.c
    match best with
    | none => pure (some (p.2, p.1, d))
    | some b => pure (if d.lt b.2.2 then some (p.2, p.1, d) else best)) none
  pure (r.map (fun b => (b.1, b.2.1)))

/-- A step of a descent: node, its contents, its envelope, and the slot taken. -/
structure Step where
  node : Nat
  body : Node
  env : Env
  slot : Nat
  deriving DecidableEq, Repr

/-- The path from a node to the leaf, root first; none where it does not end within `fuel` nodes. -/
def descend (t : Tree) (key : List Nat) : Nat → Nat → Eng (Option (List Step))
  | 0, _ => pure none
  | f + 1, n => do
    let nd ← readNode t n
    let e ← readEnv t n
    if nd.kind = 1 then do
      match ← nearest t key nd.slots with
      | none => pure none
      | some (j, c) => do
        let r ← descend t key f c
        pure (r.map (fun l => ⟨n, nd, e, j⟩ :: l))
    else pure (some [⟨n, nd, e, 0⟩])

/-- The keys beneath a node in order; `fuel` levels. -/
def keysUnder (t : Tree) : Nat → Nat → Eng (List KeyVal)
  | 0, _ => pure []
  | f + 1, n => do
    let nd ← readNode t n
    if nd.kind = 1 then do
      let ls ← nd.slots.mapM (fun c => keysUnder t f c)
      pure ls.flatten
    else nd.slots.mapM (readKey t)

/-- A node that a split makes, with the keys beneath it. -/
structure NewNode where
  idx : Nat
  body : Node
  env : Env
  keys : List KeyVal
  deriving DecidableEq, Repr

/-- What a split has made so far: new nodes, the pair that replaces the last node, nodes retired, children to re-parent. -/
structure SplitAcc where
  made : List NewNode
  pair : Nat × Nat
  gone : List Nat
  moved : List (Nat × Nat)
  next : Nat
  deriving DecidableEq, Repr

/-- Give made nodes their parent. -/
def SplitAcc.adopt (a : SplitAcc) (kids : List Nat) (p : Nat) : SplitAcc :=
  { a with made := a.made.map (fun m => if kids.contains m.idx then { m with body := { m.body with parent := p } } else m)
           moved := a.moved ++ (kids.filter (fun c => !a.made.any (fun m => decide (m.idx = c)))).map (fun c => (c, p)) }

/-- The keys beneath a child, made or old. -/
def SplitAcc.keysOf (t : Tree) (a : SplitAcc) (c : Nat) : Eng (List KeyVal) :=
  match a.made.find? (fun m => decide (m.idx = c)) with
  | some m => pure m.keys
  | none => keysUnder t t.nodes c

/-- The centroid of a child, made or old. -/
def SplitAcc.centroid (t : Tree) (a : SplitAcc) (c : Nat) : Eng (List Nat) :=
  match a.made.find? (fun m => decide (m.idx = c)) with
  | some m => pure m.env.c
  | none => do
    let e ← readEnv t c
    pure e.c

/-- A new interior node over children. -/
def SplitAcc.over (t : Tree) (a : SplitAcc) (idx parent : Nat) (kids : List Nat) : Eng SplitAcc := do
  let ls ← kids.mapM (fun c => a.keysOf t c)
  let ks := ls.flatten
  let d ← engDraw (t.d + 1)
  let m : NewNode := ⟨idx, ⟨1, kids.length, parent, kids⟩, envOf t.d t.dv ks d, ks⟩
  pure { (a.adopt kids idx) with made := (a.adopt kids idx).made ++ [m], next := idx + 1 }

/-- Bytes that record an envelope and, where slots are given, a node's COUNT and slots. -/
def envWrites (t : Tree) (n : Nat) (e : Env) (slots : Option (List Nat)) : List (Nat × List Byte) :=
  let b := e.bytes
  [(t.envAt n, b.take 12), (t.envAt n + 16, b.drop 16)] ++
    (match slots with
     | none => []
     | some l => [(t.nodeAt n + 4, leBytes 4 l.length), (t.nodeAt n + 0x40, (l.map (leBytes 4)).flatten)])

/-- Carry a split up the path, given leaf side first: the steps left are kept ones. -/
def carrySplit (t : Tree) : List Step → SplitAcc → Eng (SplitAcc × List Step × Option (List Nat))
  | [], a => do
    let a' ← a.over t a.next 0xFFFFFFFF [a.pair.1, a.pair.2]
    pure (a', [], none)
  | p :: up, a => do
    let slots := p.body.slots.take p.slot ++ [a.pair.1, a.pair.2] ++ p.body.slots.drop (p.slot + 1)
    if slots.length ≤ t.fanout then
      pure (a.adopt [a.pair.1, a.pair.2] p.node, p :: up, some slots)
    else do
      let cs ← slots.mapM (fun c => do
        let x ← a.centroid t c
        pure (c, x))
      let (x, y) := halves t.d cs
      let i := a.next
      let a1 ← a.over t i p.body.parent x
      let a2 ← a1.over t (i + 1) p.body.parent y
      carrySplit t up { a2 with pair := (i, i + 1), gone := a2.gone ++ [p.node] }

/-- New nodes that an append needs, the path given leaf side first (R316). -/
def newNodes (t : Tree) : List Step → Nat
  | [] => 1
  | p :: up => if p.body.slots.length + 1 ≤ t.fanout then 0 else 2 + newNodes t up

/-- The node updates of an append in order (R315 to R317, entry 37): new nodes first, then the kept path root first, each node with
its envelope, then the descriptor, then what is retired; none where the path has no end.  A FULL tree takes no append (R317). -/
def planAppend (desc k : Nat) : Eng (Option (List Update × List Nat)) := do
  let t ← readTree desc
  if t.flags % 2 = 1 then pure (some ([], []))
  else
  let kv ← readKey t k
  match ← descend t kv.key t.nodes t.root with
  | none => pure none
  | some path =>
    match path.reverse with
    | [] => pure none
    | leaf :: up => do
      let grown := fun (p : Step) => p.env.add kv.key kv.val
      if leaf.body.count < t.leafCap then
        let slots := leaf.body.slots ++ [k]
        pure (some (path.map (fun (x : Step) =>
          ⟨x.node, envWrites t x.node (grown x) (if x.node = leaf.node then some slots else none)⟩), []))
      else if t.nodes < t.freeHead + 2 + newNodes t up then
        pure (some ([⟨noLock, [(desc + 0x38, leBytes 8 (t.flags ||| 1))]⟩], []))
      else do
        let ks := leaf.body.slots ++ [k]
        let kvs ← ks.mapM (fun j => do
          let v ← readKey t j
          pure (j, v))
        let (x, y) := halves t.d (kvs.map (fun (p : Nat × KeyVal) => (p.1, p.2.key)))
        let pick := fun (l : List Nat) => l.map (fun j => (assoc kvs j).getD kv)
        let d2 ← engDraw (t.d + 1)
        let f := t.freeHead
        let mk := fun (i : Nat) (l : List Nat) =>
          (⟨i, ⟨2, l.length, leaf.body.parent, l⟩, envOf t.d t.dv (pick l) d2, pick l⟩ : NewNode)
        let a : SplitAcc := ⟨[mk f x, mk (f + 1) y], (f, f + 1), [leaf.node], [], f + 2⟩
        let (a, kept, top) ← carrySplit t up a
        let fresh := a.made.map (fun (m : NewNode) =>
          (⟨noLock, [(t.nodeAt m.idx, m.body.bytes), (t.envAt m.idx, m.env.bytes)]⟩ : Update))
        let low := match kept with | p :: _ => p.node | [] => noLock
        let keep := kept.reverse.map (fun (p : Step) =>
          (⟨p.node, envWrites t p.node (grown p) (if p.node = low then top else none)⟩ : Update))
        let root := match kept with | [] => a.next - 1 | _ => t.root
        let head : Update := ⟨noLock, [(desc + 0xC, leBytes 4 root), (desc + 0x30, leBytes 4 a.next)
          , (desc + 0x34, leBytes 4 (t.retired + a.gone.length))]⟩
        let moved := a.moved.map (fun (p : Nat × Nat) => (⟨noLock, [(t.nodeAt p.1 + 8, leBytes 4 p.2)]⟩ : Update))
        let gone := a.gone.map (fun (n : Nat) => (⟨n, [(t.nodeAt n, leBytes 4 3)]⟩ : Update))
        pure (some (fresh ++ keep ++ [head] ++ moved ++ gone, a.gone.filter (fun n => decide (n ≠ leaf.node))))

/-- The bytes of an update, one by one. -/
def Update.cells (u : Update) : List (Nat × Byte) := (u.writes.map (fun (w : Nat × List Byte) => names w.1 w.2)).flatten

/-- Store a plan in the operation. -/
def EngineOp.withPlan (o : EngineOp) (us : List Update) (gone : List Nat) : EngineOp :=
  { o with piece := 1, stack := us.map (fun (u : Update) => (u.lock, u.cells.length)), olds := (us.map Update.cells).flatten
           ahead := gone }

/-- Gather consecutive bytes into runs. -/
def runsOf : List (Nat × Byte) → List (Nat × List Byte)
  | [] => []
  | (a, b) :: r =>
    match runsOf r with
    | (c, bs) :: q => if c = a + 1 then (a, b :: bs) :: q else (a, [b]) :: (c, bs) :: q
    | [] => [(a, [b])]

/-- APPEND (R315 to R319, R321): `who` names the operation, which makes its plan or its next node update.  An update is performed
wholly or not at all. -/
def execAppend (s : State) : Result :=
  match s.opOf s.arg.who with
  | none => .next s
  | some o =>
    match o.kind with
    | .append _ desc k _ =>
      if ¬ s.walkerTurn o then .next s
      else if o.piece = 0 then
        match (planAppend desc k).run ({ o with status := .running }, s) with
        | .error e => .next (s.park o.id e)
        | .ok (none, (p, u)) => .next (u.modOp o.id (fun _ => p))
        | .ok (some (us, gone), (p, u)) => .next (u.modOp o.id (fun _ => p.withPlan us gone))
      else
        match o.stack with
        | [] => .next s
        | (n, c) :: rest =>
          let act : Eng Unit := (runsOf (o.olds.take c)).forM (fun (w : Nat × List Byte) => engWrite w.1 w.2)
          match act.run ({ o with status := .running }, s) with
          | .error e => .next (s.park o.id e)
          | .ok (_, (p, u)) =>
            let u := u.modOp o.id (fun _ => { p with stack := rest, olds := o.olds.drop c })
            .next (if o.ahead.contains n then
                { u with ops := u.ops.map (fun (w : EngineOp) => match w.kind with
                    | .walk .. => if w.sameTree o then { w with ahead := w.ahead ++ [n] } else w
                    | _ => w) }
              else u)
    | _ => .next s

/-! ## TREE_REFIT (R318) -/

/-- A node of the rewritten tree. -/
structure Packed where
  idx : Nat
  body : Node
  env : Env
  deriving DecidableEq, Repr

/-- Number a subtree in depth-first order from `next`: its nodes, its keys, and the next number. -/
def packTree (t : Tree) : Nat → Nat → Nat → Nat → Eng (List Packed × List KeyVal × Nat)
  | 0, _, _, next => pure ([], [], next)
  | f + 1, n, parent, next => do
    let nd ← readNode t n
    if nd.kind = 1 then do
      let (ps, ks, roots, after) ← nd.slots.foldlM
        (fun (acc : List Packed × List KeyVal × List Nat × Nat) (c : Nat) => do
          let (ps, ks, nx) ← packTree t f c next acc.2.2.2
          pure (acc.1 ++ ps, acc.2.1 ++ ks, acc.2.2.1 ++ [acc.2.2.2], nx)) ([], [], [], next + 1)
      let d ← engDraw (t.d + 1)
      pure (⟨next, ⟨1, nd.slots.length, parent, roots⟩, envOf t.d t.dv ks d⟩ :: ps, ks, after)
    else do
      let ks ← nd.slots.mapM (readKey t)
      let d ← engDraw (t.d + 1)
      pure ([⟨next, ⟨2, nd.slots.length, parent, nd.slots⟩, envOf t.d t.dv ks d⟩], ks, next + 1)

/-- The whole of TREFIT's work: every read before the first write. -/
def refitTree (desc : Nat) : Eng Unit := do
  let t ← readTree desc
  let (ps, _, n) ← packTree t t.nodes t.root 0xFFFFFFFF 0
  ps.forM (fun (p : Packed) => do
    engWrite (t.nodeAt p.idx) p.body.bytes
    engWrite (t.envAt p.idx) p.env.bytes)
  engWrite (desc + 0xC) (leBytes 4 0)
  engWrite (desc + 0x30) (leBytes 4 n ++ leBytes 4 0)
  engWrite (desc + 0x38) (leBytes 8 0)

/-- TREE_REFIT (R318): `who` names the operation, which runs as one step. -/
def execTreeRefit (s : State) : Result :=
  match s.opOf s.arg.who with
  | none => .next s
  | some o =>
    match o.kind with
    | .refit _ desc _ =>
      if ¬ s.walkerTurn o ∨ o.workDone then .next s
      else
        match (refitTree desc).run ({ o with status := .running }, s) with
        | .error e => .next (s.park o.id e)
        | .ok (_, (p, u)) => .next (u.modOp o.id (fun _ => { p with piece := 1 }))
    | _ => .next s

/-! ## The words (R347 to R351) -/

/-- Descriptor address of an open slot of the current gang. -/
def State.openTree (s : State) (v : Word) : Option Nat := s.myGang.bind (fun g => assoc g.treeSlots v.toNat)

/-- The 64-byte descriptor at an address, read by the thread and judged as `judge` says. -/
def State.threadTree (s : State) (va : Word) (judge : Tree → Except Stop Unit := fun _ => .ok ()) : Except Stop (Tree × State) := do
  let (t, s) ← s.resolveOp [] false (Acc.row .load 64) va
  let (bs, s) ← s.readJudged (Acc.row .load 64) t va (fun _ bs => judge (treeOf bs))
  .ok (treeOf bs, s)

/-- Close a tree slot, and open it on a descriptor. -/
def State.closeTree (s : State) (slot : Nat) : State :=
  s.modGang s.thr.gang (fun g => { g with treeSlots := g.treeSlots.filter (fun p => decide (p.1 ≠ slot)) })

def State.openOn (s : State) (slot desc : Nat) : State :=
  s.modGang s.thr.gang (fun g => { g with treeSlots := (slot, desc) :: g.treeSlots })

/-- TOPEN (R309, R347): it closes its slot before it waits for the descriptor, and a malformed one leaves the slot closed. -/
def execTopen (a b : BitVec 6) (s : State) : Result :=
  let i : Instr := .topen a b
  finish i s (do
    s.serial i
    let slot := (s.rs a).toNat
    let v := s.rs b
    alignCheck v 64
    s.consume [a, b]
    limitCheck (s.rs a) (decide (slot < 8))
    if (s.gangOps s.thr.gang).any (fun o => decide (o.kind.tree.map (·.1) = some slot)) then .error (.hold id)
    else
      let u := s.closeTree slot
      if v = 0 then .ok u
      else if u.gangs.any (fun g => decide (g.asid = s.thr.asid) && g.treeSlots.any (fun p => decide (p.2 = v.toNat))) then
        .error (.hold (fun s => s.closeTree slot))
      else do
        let (_, u) ← u.threadTree v (fun t => if t.ok then .ok () else .error (.trap 14 v none (fun s => s.closeTree slot)))
        .ok (u.openOn slot v.toNat))

/-- A walker with no room makes its word wait (R348). -/
def State.walkerRoom (s : State) : Except Stop Unit :=
  if 16 ≤ (s.walkerOps s.thr.hearth).length then .error (.hold id) else .ok ()

/-- An open slot named by operand `v` (R322). -/
def State.slotOperand (s : State) (v : Word) : Except Stop Nat :=
  match s.openTree v with
  | some de => .ok de
  | none => .error (.limit v)

/-- TWALK (R312, R348): the query is read by the thread when the word completes. -/
def execTwalk (d a b : BitVec 6) (s : State) : Result :=
  let i : Instr := .twalk d a b
  finish i s (do
    s.serial i
    alignCheck (s.rs a) 4
    s.consume [d, a, b]
    let de ← s.slotOperand (s.rs d)
    limitCheck (s.rs b) (match s.myGang.bind (fun g => g.buf (s.rs b).toNat) with | some q => q.pside | none => false)
    limitCheck (s.rs a) (s.inTiles (s.rs a).toNat)
    s.walkerRoom
    let (t, u) ← s.threadTree (BitVec.ofNat 64 de)
    u.counting (u.tileCheck (s.rs a).toNat (4 * t.d) true false)
    let q := (words32 t.d (u.myTile (s.rs a).toNat (4 * t.d))).map (BitVec.ofNat 32)
    .ok (u.start (.walk (s.rs d).toNat (s.rs b).toNat de q (s.thr.wtheta.setWidth 32) (s.thr.wkern.getLsbD 0))))

/-- TAPPEND (R349). -/
def execTappend (d a b : BitVec 6) (s : State) : Result :=
  let i : Instr := .tappend d a b
  finish i s (do
    s.serial i
    s.counterOperand (s.rs b) true [d, a, b]
    let de ← s.slotOperand (s.rs d)
    limitCheck (s.rs a) (decide ((s.rs a).toNat < 2 ^ 32 - 1))
    s.walkerRoom
    .ok (s.start (.append (s.rs d).toNat de (s.rs a).toNat (s.rs b))))

/-- TREFIT (R350). -/
def execTrefit (a b : BitVec 6) (s : State) : Result :=
  let i : Instr := .trefit a b
  finish i s (do
    s.serial i
    s.counterOperand (s.rs b) false [a, b]
    let de ← s.slotOperand (s.rs a)
    s.walkerRoom
    .ok (s.start (.refit (s.rs a).toNat de (s.rs b))))

/-- TSUMR (R319, R351): the envelope of ESIZE bytes, read in 64-byte accesses; it waits for a node that an append has locked. -/
def execTsumr (d a b : BitVec 6) (s : State) : Result :=
  let i : Instr := .tsumr d a b
  finish i s (do
    s.serial i
    alignCheck (s.rs b) 64
    s.consume [d, a, b]
    let de ← s.slotOperand (s.rs d)
    let (t, u) ← s.threadTree (BitVec.ofNat 64 de)
    u.counting (do
      limitCheck (s.rs a) (decide ((s.rs a).toNat < t.nodes))
      limitCheck (s.rs b) (s.inTiles (s.rs b).toNat))
    let (bs, u) ← firstTrap (u.counting (u.tileCheck (s.rs b).toNat t.esize false true))
      (if s.nodeLocked s.thr.asid de (s.rs a).toNat then .error (.hold id)
      else (List.range (t.esize / 64)).foldlM (fun (acc : List Byte × State) (k : Nat) => do
        let (x, u) ← acc.2.load [] (Acc.row .load 64) (BitVec.ofNat 64 (t.envAt (s.rs a).toNat + 64 * k))
        .ok (acc.1 ++ x, u)) ([], u))
    .ok (u.tileWrite s.thr.gang (s.rs b).toNat bs))

end Sys2Proof.Machine
end

