-- ==== Sys2Proof/Machine/Collective.lean ====
section
/-! DEFINITION. The collective engine: CLSTART and the step COLLECTIVE_OPERATION (spec 20 R293, 23 R352, 28 R411). -/

namespace Sys2Proof.Machine

open Sys2Proof

/-- A collective descriptor with the member list of its group (R352, R411). -/
structure Coll where
  src : Nat
  dst : Nat
  bytes : Nat
  op : Nat
  ty : Nat
  group : Nat
  counter : Word
  members : List Nat
  deriving DecidableEq, Repr

/-- 16-bit words of bytes. -/
def words16 (n : Nat) (bs : List Byte) : List Nat := (List.range n).map (fun k => fieldAt bs (2 * k) 2)

/-- Read the 64 bytes of a descriptor and the member list behind them. -/
def collOf (bs : List Byte) : Coll :=
  { src := fieldAt bs 0 8, dst := fieldAt bs 8 8, bytes := fieldAt bs 0x10 4, op := fieldAt bs 0x14 1, ty := fieldAt bs 0x15 1
    group := fieldAt bs 0x16 2, counter := BitVec.ofNat 64 (fieldAt bs 0x18 8), members := words16 ((bs.length - 64) / 2) (bs.drop 64) }

/-- Whether an operation combines elements. -/
def Coll.reduces (c : Coll) : Bool := decide (c.op ≤ 2)

/-- The limits of R352 on a descriptor's 64 bytes. -/
def Coll.ok (c : Coll) (tail : List Byte) : Bool :=
  decide (c.op ≤ 4) && (!c.reduces || (isScadd c.ty && decide (c.bytes % (typeWidth c.ty / 8) = 0)))
    && (if c.op = 4 then decide (c.bytes = 0) else decide (1 ≤ c.bytes) && decide (c.bytes ≤ 65536))
    && decide (counterAddr c.counter % 8 = 0) && decide (counterAddr c.counter ≠ 0) && decide (c.counter.toNat / 2 ^ 59 = 0)
    && decide (counterScope c.counter ≤ 5) && tail.all (fun b => decide (b = 0))

/-- The member list of a group; none where its entry breaks R411. -/
def State.groupList (s : State) (g : Nat) : Option (List Byte) :=
  let a := s.bar0.cgbase.toNat + 16 * g
  let m := s.view
  let l := Memory.num m a 8
  let n := Memory.num m (a + 8) 2
  let bs := Memory.readN m l (2 * n)
  if l % 8 = 0 ∧ 2 ≤ n ∧ n ≤ 4096 ∧ Memory.num m (a + 10) 6 = 0 ∧ (words16 n bs).all (fun m => decide (m < 4096)) then some bs
  else none

/-- Member identifier of a stack of this device. -/
def State.memberId (s : State) (stack : Nat) : Nat := 4 * s.devnum.toNat + stack

/-- The collective operations of a stack. -/
def State.collOps (s : State) (stack : Nat) : List EngineOp :=
  s.ops.filter (fun o => match o.kind with | .collective k _ _ => decide (k = stack) | _ => false)

/-- Operations a stack has started on a group. -/
def State.startedOn (s : State) (stack group : Nat) : Nat :=
  match s.groups.find? (fun (p : Nat × Nat × Nat) => decide (p.1 = stack) && decide (p.2.1 = group)) with
  | some p => p.2.2
  | none => 0

/-- Count one more. -/
def State.countOn (s : State) (stack group : Nat) : State :=
  { s with groups := (stack, group, s.startedOn stack group + 1) ::
      s.groups.filter (fun (p : Nat × Nat × Nat) => !(decide (p.1 = stack) && decide (p.2.1 = group))) }

/-- The requests that reading a group's entry and its list makes (R381). -/
def State.touchGroup (s : State) (group n : Nat) : State :=
  let e := s.bar0.cgbase.toNat + 16 * group
  (s.touchSpan e 16).touchSpan (Memory.num s.view e 8) n

/-- What CLSTART makes of a descriptor at `v`: a malformed one, and a group that is none or does not hold the thread's stack once, is a format
fault (R352, R411). -/
def clJudge (v : Word) (s : State) (bs : List Byte) : Except Stop Unit :=
  let c := collOf bs
  if ¬ c.ok (bs.drop 0x20) then .error (.of 14 v)
  else
    match s.groupList c.group with
    | none => .error (.of 14 v)
    | some l =>
      if ((words16 (l.length / 2) l).filter (fun m => decide (m = s.memberId (stackOf s.thr.hearth)))).length = 1 then .ok ()
      else (s.touchGroup c.group l.length).counting (.error (.of 14 v))

/-- CLSTART (R280, R352, R411): the operation keeps its descriptor and its group's list. -/
def execClstart (a : BitVec 6) (s : State) : Result :=
  let i : Instr := .clstart a
  finish i s (do
    s.serial i
    let v := s.rs a
    let (t, u) ← s.resolveOp [a] false (Acc.row .load 64) v
    let (bs, u) ← u.readJudged (Acc.row .load 64) t v (clJudge v)
    let c := collOf bs
    let l := (u.groupList c.group).getD []
    let stack := stackOf s.thr.hearth
    if 16 ≤ (s.collOps stack).length then .error (.hold id)
    else .ok (((u.touchGroup c.group l.length).start (.collective stack (bs ++ l) (s.startedOn stack c.group))).countOn stack c.group))

/-! ## The operation (R293, R411) -/

/-- One combination of two elements. -/
def collPair (c : Coll) (x y : Nat) : Nat :=
  if isFp c.ty then
    let f := fmtOf c.ty
    match c.op with
    | 0 => (f.add (rne false) (f.val x) (f.val y)).1
    | 1 => (f.pick false x y).1
    | _ => (f.pick true x y).1
  else
    match c.op with
    | 0 => (x + y) % 2 ^ typeWidth c.ty
    | 1 => if intOf c.ty y < intOf c.ty x then y else x
    | _ => if intOf c.ty x < intOf c.ty y then y else x

/-- Combine the elements of two participants. -/
def collJoin (c : Coll) (xs ys : List Nat) : List Nat := (xs.zip ys).map (fun p => collPair c p.1 p.2)

/-- One level of the tree: pairs (2k, 2k + 1), an odd last entry passing up unchanged. -/
def pairLevel (c : Coll) : List (List Nat) → List (List Nat)
  | x :: y :: r => collJoin c x y :: pairLevel c r
  | l => l

/-- The tree over participants; 12 levels serve 4,096. -/
def treeFold (c : Coll) : Nat → List (List Nat) → List Nat
  | 0, l => l.headD []
  | f + 1, l => treeFold c f (pairLevel c l)

/-- The result of an operation from every participant's bytes in order. -/
def Coll.result (c : Coll) (parts : List (List Byte)) : List Byte :=
  if c.op = 4 then []
  else if c.op = 3 then parts.flatten
  else
    let z := typeWidth c.ty / 8
    let elems := fun (bs : List Byte) => (List.range (c.bytes / z)).map (fun k => fieldAt bs (z * k) z)
    ((treeFold c 12 (parts.map elems)).map (leBytes z)).flatten

/-- Whether two matched operations agree (R411); TYPE is ignored where the operation ignores it. -/
def Coll.agrees (a b : Coll) : Bool :=
  decide (a.op = b.op) && decide (a.bytes = b.bytes) && (!a.reduces || decide (a.ty = b.ty)) && decide (a.members = b.members)

/-- The operation of a stack that matches the `n`-th on a group. -/
def State.matched (s : State) (stack group n : Nat) : Option EngineOp :=
  (s.collOps stack).find? (fun o => match o.kind with
    | .collective _ d k => decide (k = n) && decide ((collOf d).group = group)
    | _ => false)

/-- The local participants of an operation, in member order: participant number and operation, none where one of them has not
started it. -/
def State.localParts (s : State) (c : Coll) (n : Nat) : Option (List (Nat × EngineOp)) :=
  (c.members.zipIdx.filter (fun (p : Nat × Nat) => decide (p.1 / 4 = s.devnum.toNat))).foldr
    (fun (p : Nat × Nat) acc => match acc, s.matched (p.1 % 4) c.group n with
      | some l, some o => some ((p.2, o) :: l)
      | _, _ => none) (some [])

/-- Whether a collective operation may act. -/
def State.collTurn (s : State) (o : EngineOp) : Bool := decide (o.status = .queued) || s.retries o

/-- Read every local participant's source; an error names the operation that faults. -/
def readParts (c : Coll) : List (Nat × EngineOp) → State → Except (Nat × EngineFault) (List (Nat × List Byte) × State)
  | [], s => .ok ([], s)
  | (p, o) :: r, s =>
    let src := match o.kind with | .collective _ d _ => (collOf d).src | _ => 0
    match s.engineRead o.asid.toNat o.hearth o.user src c.bytes o.clock with
    | .error e => .error (o.id, e)
    | .ok (bs, clk, s) =>
      match readParts c r (s.modOp o.id (fun o => { o with clock := clk })) with
      | .error e => .error e
      | .ok (l, s) => .ok ((p, bs) :: l, s)

/-- COLLECTIVE_OPERATION (R293, R411): `who` names a local operation; `parts` holds the bytes of each participant on other
devices by participant number, and `flags` whether one of their operations or lists differs.  Once every participant has
started, the result is formed for all of them at once (`piece` 1, the bytes still to write in `olds`); a further step of each
operation writes its destination. -/
def execCollectiveOperation (s : State) : Result :=
  match s.opOf s.arg.who with
  | none => .next s
  | some o =>
    match o.kind with
    | .collective _ d n =>
      let c := collOf d
      if ¬ s.collTurn o ∨ o.workDone then .next s
      else if o.piece = 1 then
        match s.engineWrite o.asid.toNat o.port o.user c.dst (o.olds.map (·.2)) o.clock with
        | .error e => .next (s.park o.id e)
        | .ok (clk, u) => .next (u.modOp o.id (fun o => { o with clock := clk, olds := [], piece := 2 }))
      else
        match s.localParts c n with
        | none => .next s
        | some here =>
          let remote := (List.range c.members.length).filter (fun p => !here.any (fun (x : Nat × EngineOp) => decide (x.1 = p)))
          let given := remote.all (fun p => match assoc s.arg.parts p with | some bs => decide (bs.length = c.bytes) | none => false)
          let same := here.all (fun (x : Nat × EngineOp) => match x.2.kind with | .collective _ e _ => c.agrees (collOf e) | _ => false)
          let ready := here.all (fun (x : Nat × EngineOp) => s.collTurn x.2)
          if ¬ (given ∧ same ∧ ready) ∨ s.arg.flags.headD false then .next s
          else
            match readParts c here s with
            | .error (id, e) => .next (s.park id e)
            | .ok (l, u) =>
              let all := (List.range c.members.length).map (fun p => ((assoc l p).orElse (fun _ => assoc s.arg.parts p)).getD [])
              let res := (c.result all).map (fun b => ((0 : Nat), b))
              .next (here.foldl (fun (u : State) (x : Nat × EngineOp) => u.modOp x.2.id (fun o =>
                { o with piece := 1, olds := res, status := .running })) u)
    | _ => .next s

end Sys2Proof.Machine
end

