-- ==== Sys2Proof/Machine/ControlRegs.lean ====
section
/-! DEFINITION. The control registers, RDC and WRC (spec 02 R17 to R19, 05 R78, R79, and the chapters that add
registers). -/

namespace Sys2Proof.Machine

open Sys2Proof

/-- Access of a register at one level (R17). -/
inductive CregAccess where
  | none | ro | rw
  deriving DecidableEq, Repr

/-- User and supervisor access of an assigned control register; none for an unassigned number. -/
def cregAccess (c : BitVec 12) : Option (CregAccess × CregAccess) :=
  match c.toNat with
  | 0x000 | 0x001 | 0x010 | 0x011 | 0x015 | 0x016 | 0x017 | 0x020 | 0x021 | 0x022 | 0x028 | 0x029 | 0x02A | 0x033 | 0x050
  | 0x058 | 0x059 => some (.ro, .ro)
  | 0x008 | 0x012 | 0x014 | 0x031 | 0x032 | 0x034 | 0x035 => some (.ro, .rw)
  | 0x009 | 0x00A | 0x013 | 0x018 | 0x019 | 0x01A | 0x01C | 0x01D | 0x01E | 0x01F | 0x030 | 0x040 | 0x041 | 0x042 | 0x043
  | 0x044 | 0x048 | 0x049 => some (.rw, .rw)
  | 0x051 | 0x100 | 0x101 | 0x102 | 0x103 | 0x104 => some (.none, .rw)
  | _ => Option.none

/-- VRUN (R185); a VP that VNEXT has given 0 counts as going until its pass's VPEND (entry 85). -/
def Thread.vrunWord (t : Thread) : Word :=
  let r := t.vrun
  let going := (r.vps.filter (fun v => decide (v.1 ≠ 0))).length
  BitVec.ofNat 64 ((if r.run then 1 else 0) + (if r.pass then 2 else 0) + 256 * Nat.min 255 r.round
    + 65536 * Nat.min 255 going)

/-- Quarter `k` of a codebook register (R89). -/
def Thread.cbq (t : Thread) (k : Nat) : Word := BitVec.ofNat 64 (t.cbs[t.cbsel.toNat].toNat / 2 ^ (64 * k))

/-- Write quarter `k` of the selected codebook (R89). -/
def Thread.setCbq (t : Thread) (k : Nat) (v : Word) : Thread :=
  let old := t.cbs[t.cbsel.toNat]
  { t with cbs := t.cbs.set t.cbsel.toNat ((old &&& ~~~(0xFFFFFFFFFFFFFFFF#256 <<< (64 * k))) ||| (v.zeroExtend 256 <<< (64 * k))) }

/-- The value of a control register of the current thread (R78). -/
def State.creg (s : State) (c : BitVec 12) : Word :=
  let t := s.thr
  match c.toNat with
  | 0x000 => t.cycle
  | 0x001 => t.retired
  | 0x008 => t.status.word
  | 0x009 => t.fflags.zeroExtend 64
  | 0x00A => t.frm.zeroExtend 64
  | 0x010 => t.mode
  | 0x011 => t.len
  | 0x012 => t.vcap
  | 0x013 => t.density
  | 0x014 => t.xresume
  | 0x015 => t.convoy
  | 0x016 => t.lanes
  | 0x017 => t.vrunWord
  | 0x018 => t.rngkey
  | 0x019 => t.srctr
  | 0x01A => t.cbsel.zeroExtend 64
  | 0x01C => t.cbq 0
  | 0x01D => t.cbq 1
  | 0x01E => t.cbq 2
  | 0x01F => t.cbq 3
  | 0x020 => BitVec.ofNat 64 (t.coord.1 + 2 ^ 16 * t.coord.2.1 + 2 ^ 32 * t.coord.2.2)
  | 0x021 => BitVec.ofNat 64 (t.index + 256 * t.stage)
  | 0x022 => BitVec.ofNat 64 t.hearthReg
  | 0x028 => if h : t.hearth < 128 then s.emeter[t.hearth] else 0
  | 0x029 => if h : t.hearth < 128 then s.clkstep[t.hearth].zeroExtend 64 else 0
  | 0x02A => s.ewin
  | 0x030 => t.twin
  | 0x031 => t.lease
  | 0x032 => t.racectl
  | 0x033 => t.siv.zeroExtend 64
  | 0x034 => t.strm
  | 0x035 => t.strmk
  | 0x040 => t.knotbase
  | 0x041 => t.knotstep
  | 0x042 => t.knotcount
  | 0x043 => t.knotclamp
  | 0x044 => t.mxscale
  | 0x048 => t.wtheta
  | 0x049 => t.wkern
  | 0x050 => BitVec.ofNat 64 ((if t.npOpen then 1 else 0) + if t.npOvr then 2 else 0)
  | 0x051 => t.fstat
  | 0x058 => t.span
  | 0x059 => s.devnum.zeroExtend 64
  | 0x100 => t.tvec
  | 0x101 => t.epc
  | 0x102 => t.cause
  | 0x103 => t.tval
  | 0x104 => t.sscratch
  | _ => 0

/-- Whether `v` may be written to a register: no reserved bit set, no reserved value in a field (R17, R79 and the register's
own map). -/
def cregLegal (c : BitVec 12) (v : Word) : Bool :=
  let n := v.toNat
  match c.toNat with
  | 0x008 => decide (n < 128) && decide (bits n 2 2 = 0)
  | 0x009 => decide (n < 32)
  | 0x00A => decide (n < 6)
  | 0x012 => decide (n = 16) || decide (n = 32) || decide (n = 64) || decide (n = 128)
  | 0x013 => decide (n ≤ 16)
  | 0x014 => decide (bits n 55 24 = 0) && decide (bits n 62 56 ≤ 3)
  | 0x01A => decide (n < 16)
  | 0x030 => decide (n < 2 ^ 56) && decide (bits n 20 1 = 0)
  | 0x031 => decide (n < 2 ^ 16) && decide (1 ≤ bits n 7 0) && decide (4 ≤ bits n 15 8) && decide (bits n 15 8 ≤ 16)
  | 0x032 => decide (n < 2)
  | 0x034 => decide (n < 2 ^ 56)
  | 0x035 => decide (bits n 62 24 = 0)
  | 0x040 => decide (n < 2 ^ 32)
  | 0x041 => decide (n < 2 ^ 31) && decide (1 ≤ bits n 30 23) && decide (bits n 30 23 ≤ 254)
  | 0x042 => decide (1 ≤ n) && decide (n ≤ 13)
  | 0x043 => decide (n ≤ 2)
  | 0x044 => decide (n < 2 ^ 16)
  | 0x048 => decide (n < 2 ^ 32) && decide (bits n 30 23 ≠ 255) && (decide (n < 2 ^ 31) || decide (n = 2 ^ 31))
  | 0x049 => decide (n ≤ 1)
  | 0x051 => decide (n < 2 ^ 8) && decide (bits n 3 0 ≤ 8)
  | 0x100 => decide (n < 2 ^ 56) && decide (n % 4096 = 0)
  | 0x102 => decide (n < 64)
  | _ => true

/-- Write a legal value to a writable register (R79); read-only bits of STATUS keep their old values. -/
def Thread.setCreg (t : Thread) (c : BitVec 12) (v : Word) : Thread :=
  match c.toNat with
  | 0x008 => { t with status := { t.status with
      inh := v.getLsbD 5, pae := v.getLsbD 4, ae := v.getLsbD 3, ppriv := v.getLsbD 1 } }
  | 0x009 => { t with fflags := v.setWidth 5 }
  | 0x00A => { t with frm := v.setWidth 3 }
  | 0x012 => { t with vcap := v }
  | 0x013 => { t with density := v }
  | 0x014 => { t with xresume := v }
  | 0x018 => { t with rngkey := v }
  | 0x019 => { t with srctr := v }
  | 0x01A => { t with cbsel := v.setWidth 4 }
  | 0x01C => t.setCbq 0 v
  | 0x01D => t.setCbq 1 v
  | 0x01E => t.setCbq 2 v
  | 0x01F => t.setCbq 3 v
  | 0x030 => { t with twin := v }
  | 0x031 => { t with lease := v }
  | 0x032 => { t with racectl := v }
  | 0x034 => { t with strm := v }
  | 0x035 => { t with strmk := v }
  | 0x040 => { t with knotbase := v }
  | 0x041 => { t with knotstep := v }
  | 0x042 => { t with knotcount := v }
  | 0x043 => { t with knotclamp := v }
  | 0x044 => { t with mxscale := v }
  | 0x048 => { t with wtheta := v }
  | 0x049 => { t with wkern := v }
  | 0x051 => { t with fstat := v }
  | 0x100 => { t with tvec := v }
  | 0x101 => { t with epc := v }
  | 0x102 => { t with cause := v }
  | 0x103 => { t with tval := v }
  | 0x104 => { t with sscratch := v }
  | _ => t

/-- Access of a register at the thread's level. -/
def State.accessOf (s : State) (c : BitVec 12) : Option CregAccess :=
  (cregAccess c).map (fun p => if s.thr.status.priv then p.2 else p.1)

/-- RDC (R78, R17): privilege trap for a register that is none at user level, illegal-instruction for an unassigned
number. -/
def execRdc (d : BitVec 6) (c : BitVec 12) (s : State) : Result :=
  let i : Instr := .rdc d c
  finish i s (match s.accessOf c with
    | Option.none => .error (.illegal i)
    | some .none => .error (.of 3 (wordOf i))
    | some _ => .ok (s.ws d (s.creg c)))

/-- After a write to VCAP below G, G falls to VCAP (R104). -/
def State.capToVcap (s : State) : State :=
  if s.thr.vcap.toNat < s.thr.grant then { s with thr := s.thr.regrant s.thr.vcap.toNat s.thr.attached } else s

/-- The write itself; a write to VCAP is a renegotiation point (R102, R104).  WRC is a point of R70. -/
def State.writeCreg (s : State) (c : BitVec 12) (v : Word) : State :=
  let s := { s with thr := { s.thr.setCreg c v with stale := [] } }
  if c.toNat = 0x012 then s.renegotiate.capToVcap else s

/-- What WRC checks of its register at the thread's level, in R24's order: illegal-instruction, then privilege (R17, R79). -/
def State.wrcAccess (s : State) (i : Instr) (c : BitVec 12) : Except Stop Unit :=
  match s.accessOf c with
  | Option.none => .error (.illegal i)
  | some .ro => .error (.illegal i)
  | some .none => .error (.of 3 (wordOf i))
  | some .rw => .ok ()

/-- WRC (R79, R17, R104, R407): a reserved value (code 2) before the privilege trap (code 3), that before the convoy's (R24). -/
def execWrc (a : BitVec 6) (c : BitVec 12) (s : State) : Result :=
  let i : Instr := .wrc a c
  let r : Except Stop State := do
    if s.inBlock then .error (.illegal i) else .ok ()
    match s.wrcAccess i c with
    | .error (.trap 1 v f post) => .error (.trap 1 v f post)
    | acc => do
      if ¬ cregLegal c (s.rs a) then .error (.of 2 (wordOf i)) else .ok ()
      acc
      s.serial i
      s.consume [a]
      .ok (s.writeCreg c (s.rs a))
  match r with
  | .ok _ => if c.toNat = 0x012 ∧ 1 < s.thr.nseg ∧ s.ready17 then .next s.detach.take17 else finish i s r
  | .error _ => finish i s r

end Sys2Proof.Machine
end

