-- ==== Sys2Proof/Machine/FrontEnd.lean ====
section
/-! DEFINITION. The launch front-end: doorbells, records, serving, placement, gangs and threads, completion (spec 08 R120 to R136,
27 R394, 28 R413, 30 R418, R420). -/

namespace Sys2Proof.Machine

open Sys2Proof

/-! ## Physical structures (R123) -/

/-- Read and write plain bytes of a structure at a physical address. -/
def State.physRead (s : State) (a n : Nat) : List Byte := Memory.readN s.view a n
def State.physNum (s : State) (a n : Nat) : Nat := leNat (s.physRead a n)
def State.physWrite (s : State) (a : Nat) (bs : List Byte) : State := s.outsideWrite false a bs

/-- Hearth number of an agent that has no hearth. -/
def noHearth : Nat := 1024

/-- The front-end's accesses. -/
def frontPort : Port := ⟨noHearth, 0, 0⟩

/-- Whether the device takes work: READY, in D0, no D3hot pending (R418, R425). -/
def State.serving (s : State) : Bool := s.bar0.ready && decide (s.dstate = 0) && !s.d3req

/-! ## The launch record (R124 to R126) -/

def Launch.field (l : Launch) (o n : Nat) : Nat := fieldAt l.record o n
def Launch.entry (l : Launch) : Nat := l.field 0 8
def Launch.args (l : Launch) : Nat := l.field 8 8
def Launch.gx (l : Launch) : Nat := l.field 0x10 2 + 1
def Launch.gy (l : Launch) : Nat := l.field 0x12 2 + 1
def Launch.gz (l : Launch) : Nat := l.field 0x14 2 + 1
def Launch.ctrl (l : Launch) : Nat := l.field 0x18 8
def Launch.cohort (l : Launch) : Bool := decide (bits l.ctrl 23 23 = 1)
def Launch.eclass (l : Launch) : Nat := bits l.ctrl 22 21
def Launch.prio (l : Launch) : Nat := bits l.ctrl 20 18
def Launch.tiles (l : Launch) : Nat := bits l.ctrl 17 8
def Launch.lanes (l : Launch) : Nat := 16 * 2 ^ bits l.ctrl 7 6
def Launch.stages (l : Launch) : Nat := bits l.ctrl 5 3 + 1
def Launch.threads (l : Launch) : Nat := bits l.ctrl 2 0 + 1
def Launch.depAddr (l : Launch) : Nat := l.field 0x20 8
def Launch.depTgt (l : Launch) : Nat := l.field 0x28 8
def Launch.statAddr (l : Launch) : Nat := l.field 0x30 8
def Launch.doneAddr (l : Launch) : Nat := l.field 0x38 8

/-- Gangs of a launch (R125). -/
def Launch.total (l : Launch) : Nat := l.gx * l.gy * l.gz * l.stages

/-- EC of an energy class now (R136, R420). -/
def State.energy (s : State) (k : Nat) : Nat := match s.bar0.dec.toList[k]? with | some v => v.toNat | none => 0

/-! ## Placement (R130) -/

/-- What one gang of a unit needs; `chain`: it goes on the hearth of the gang before it in the unit or on a neighbour. -/
structure GangNeed where
  threads : Nat
  lanes : Nat
  tiles : Nat
  chain : Bool
  deriving DecidableEq, Repr

/-- Free cores, lanes and tiles of every hearth. -/
structure Room where
  cores : Nat
  lanes : Nat
  tiles : Nat
  deriving DecidableEq, Repr

/-- Gangs resident on a hearth. -/
def State.gangsOn (s : State) (h : Nat) : List Gang := s.gangs.filter (fun g => decide (g.phase = .resident) && decide (g.hearth = h))

/-- Room on a hearth now. -/
def State.roomOn (s : State) (h : Nat) : Room :=
  { cores := 8 - ((s.gangsOn h).map (·.threads)).sum, lanes := s.freeLanes h, tiles := 512 - ((s.gangsOn h).map (·.tiles)).sum }

/-- Room of an idle device. -/
def idleRoom : List Room := List.replicate 128 ⟨8, 128, 512⟩

/-- Same hearth or a neighbour on the 4 x 8 grid of one stack. -/
def near (a b : Nat) : Bool :=
  decide (stackOf a = stackOf b) &&
    (let r := a % 32 / 8
     let c := a % 8
     let r' := b % 32 / 8
     let c' := b % 8
     decide ((r - r') + (r' - r) + ((c - c') + (c' - c)) ≤ 1))

/-- Whether a gang fits, and the room left behind it. -/
def GangNeed.fits (n : GangNeed) (r : Room) : Bool :=
  decide (n.threads ≤ r.cores) && decide (n.threads * n.lanes ≤ r.lanes) && decide (n.tiles ≤ r.tiles)

def GangNeed.take (n : GangNeed) (r : Room) : Room := ⟨r.cores - n.threads, r.lanes - n.threads * n.lanes, r.tiles - n.tiles⟩

/-- Place gangs in order on the preferred hearths first; all of them or none. -/
def placeAll (pref : List Nat) : List GangNeed → Nat → List Room → Option (List Nat)
  | [], _, _ => some []
  | n :: r, prev, rooms =>
    (pref.filter (fun h => !n.chain || near prev h)).findSome? (fun h =>
      match rooms[h]? with
      | some m => if n.fits m then (placeAll pref r h (rooms.set h (n.take m))).map (h :: ·) else none
      | none => none)

/-- Insert a hearth by its meter of the last window. -/
def byMeter (m : Nat → Nat) (h : Nat) : List Nat → List Nat
  | [] => [h]
  | k :: r => if m h < m k then h :: k :: r else k :: byMeter m h r

/-- Hearths in the order of preference: lowest meter, then lowest number, which is lowest stack first. -/
def State.preferred (s : State) : List Nat :=
  (List.range 128).foldl (fun l h => byMeter (fun k => (s.lastMeters[k]?).getD 0) h l) []

/-- Needs of `n` gangs of a launch from linear index `k`. -/
def Launch.needs (l : Launch) (k n : Nat) : List GangNeed :=
  (List.range n).map (fun j => ⟨l.threads, l.lanes, l.tiles, decide ((k + j) % l.stages ≠ 0)⟩)

/-- Whether a record is malformed (R126); `asid`: the ASID of a child queue. -/
def State.malformed (s : State) (l : Launch) (asid : Option Nat) : Bool :=
  decide (l.entry % 4 ≠ 0) || decide (l.entry / 2 ^ 56 ≠ 0) || decide (l.field 0x16 2 / 1024 ≠ 0) || decide (l.ctrl / 2 ^ 24 ≠ 0)
    || decide (l.depAddr % 8 ≠ 0) || decide (l.statAddr % 16 ≠ 0) || decide (l.doneAddr % 8 ≠ 0)
    || (match asid with | some a => decide (l.field 0x16 2 ≠ a) | none => false)
    || (s.asidEntry (l.field 0x16 2 % 1024)).isNone
    || decide (512 < l.tiles) || decide (128 < l.threads * l.lanes)
    || (l.cohort && (decide (1024 < l.total) || decide (s.bar0.dadmit.toNat < l.total * s.energy l.eclass)
        || (placeAll (List.range 128) (l.needs 0 l.total) 0 idleRoom).isNone))

/-! ## Completion (R126, R134, R223) -/

/-- Change, find and forget launches. -/
def State.launchOf (s : State) (id : Nat) : Option Launch := s.launches.find? (fun l => decide (l.id = id))
def State.modLaunch (s : State) (id : Nat) (f : Launch → Launch) : State :=
  { s with launches := s.launches.map (fun l => if l.id = id then f l else l) }
def State.dropLaunch (s : State) (id : Nat) : State := { s with launches := s.launches.filter (fun l => decide (l.id ≠ id)) }

/-- Park an access of the front-end (R123). -/
def State.parkFront (s : State) (k : OpKind) (asid : BitVec 10) (e : EngineFault) : State :=
  let o : EngineOp :=
    { id := s.nextId, kind := k, status := .queued, gang := 0, hearth := noHearth, tid := 0, pc := 0, asid := asid, user := false
      clock := 0, copy := 0, piece := 0, ahead := [], passes := [], stack := [], entries := 0, fill := 0
      cbs := Vector.replicate 16 0, olds := [], parkSeq := 0 }
  ({ s with ops := s.ops ++ [o], nextId := s.nextId + 1 }).park o.id e

/-- The clock that the front-end stamps an element with: hts of its home stack (R223). -/
def State.frontClock (s : State) (asid : BitVec 10) (va : Nat) : BitVec 16 :=
  match s.walk asid.toNat va with
  | .ok l => s.htsOf (homeId (s.ident l va))
  | .error _ => 0

/-- Whether a completion writes to an address that a record gives: not to 0, nor for a malformed record to a misaligned address or
without an ASID entry (R126, R134). -/
def State.completes (s : State) (l : Launch) (addr align : Nat) : Bool :=
  decide (addr ≠ 0) && (!l.malformed || (decide (addr % align = 0) && (s.asidEntry l.asid.toNat).isSome))

/-- The completion counter's add, then the launch is forgotten. -/
def State.addDone (s : State) (l : Launch) : State :=
  if ¬ s.completes l l.doneAddr 8 then s.dropLaunch l.id
  else
    match s.engineAdd l.asid.toNat frontPort false l.doneAddr 1 (s.frontClock l.asid l.doneAddr) (l.done.join [(0, s.writes)]) with
    | .error e => s.parkFront (.doneAdd l.id) l.asid e
    | .ok (_, s) => s.dropLaunch l.id

/-- The status block, then the counter. -/
def State.completeLaunch (s : State) (id : Nat) : State :=
  match s.launchOf id with
  | none => s
  | some l =>
    if ¬ s.completes l l.statAddr 16 then s.addDone l
    else
      match s.engineWrite l.asid.toNat frontPort false l.statAddr (leBytes 8 l.halted ++ leBytes 8 l.fault.toNat)
          (s.frontClock l.asid l.statAddr) with
      | .error e => s.parkFront (.statWrite l.id) l.asid e
      | .ok (_, s) => s.addDone l

/-! ## Queues (R120 to R122, R127, R133) -/

/-- First child queue number; the queues of resumed gangs follow them (R133, R394). -/
def childBase : Nat := 16384
def resumeBase : Nat := 16384 + 1024

/-- A queue that nothing has used. -/
def QueueState.empty (q : Nat) : QueueState :=
  { q := q, head := 0, tail := 0, primed := false, launch := none, eligible := false, age := 0, children := [], known := [] }

def State.queueOf (s : State) (q : Nat) : QueueState := (s.queues.find? (fun x => decide (x.q = q))).getD (QueueState.empty q)

/-- Put a queue, queues in rising number. -/
def putQueue (x : QueueState) : List QueueState → List QueueState
  | [] => [x]
  | y :: r => if y.q = x.q then x :: r else if x.q < y.q then x :: y :: r else y :: putQueue x r

def State.setQueue (s : State) (x : QueueState) : State := { s with queues := putQueue x s.queues }

/-- Fields of the table entry of host queue `q`. -/
def State.entryAt (s : State) (q : Nat) : Nat := s.bar0.qtbase.toNat + 32 * q
def State.qRing (s : State) (q : Nat) : Nat := s.physNum (s.entryAt q) 8
def State.qLog (s : State) (q : Nat) : Nat := s.physNum (s.entryAt q + 8) 1
def State.qEnable (s : State) (q : Nat) : Nat := s.physNum (s.entryAt q + 9) 1
def State.qErr (s : State) (q : Nat) : Nat := s.physNum (s.entryAt q + 0xA) 1

/-- Whether an entry keeps R120. -/
def State.entryOk (s : State) (q : Nat) : Bool :=
  decide (s.qRing q % 64 = 0) && decide (4 ≤ s.qLog q) && decide (s.qLog q ≤ 16) && decide (s.qEnable q < 2)
    && decide (s.physNum (s.entryAt q + 0xB) 1 = 0) && decide (s.physNum (s.entryAt q + 0x10) 16 = 0)

/-- Move a queue past its head record (R120, R127, R133); a child record keeps its place until its last gang is admitted (entry 83).
The device writes HEAD only while ENABLE is 1 (R122); a record begun before ENABLE was cleared writes its own HEAD plus 1 all the same where ENABLE is 1 again (entry 40). -/
def State.advance (s : State) (q : Nat) : State :=
  let x := s.queueOf q
  if childBase ≤ q then
    s.setQueue { x with children := x.children.drop 1, launch := none, eligible := false, age := 0 }
  else
    let h := (x.head + 1) % 2 ^ s.qLog q
    let s := s.setQueue { x with head := h, launch := none, eligible := false, age := 0 }
    if s.qEnable q % 2 = 1 then s.physWrite (s.entryAt q + 0xC) (leBytes 4 h) else s

/-- The next pending record of a queue: its bytes, its ASID for a child queue, and the writes it comes after. -/
def State.nextRecord (s : State) (q : Nat) : Option (List Byte × Option Nat × Known) :=
  let x := s.queueOf q
  if childBase ≤ q then (x.children.head?).map (fun r => (r.1, some (q - childBase), r.2))
  else if ¬ x.primed ∨ x.head = x.tail ∨ s.qErr q ≠ 0 ∨ s.qEnable q % 2 = 0 then none
  else some (s.physRead (s.qRing q + 64 * x.head) 64, none, x.known)

/-- The requests that reading the head of a queue makes: its record and the entry of its ASID (R381). -/
def State.touchHead (s : State) (q own : Nat) : State :=
  let s := if childBase ≤ q then s else s.touchSpan (s.qRing q + 64 * (s.queueOf q).head) 64
  s.touchSpan (s.bar0.asidbase.toNat + 32 * (own % 1024)) 32

/-- Read records up to the first well-formed one, which becomes the head; malformed ones complete at once (R126), with MALFORMED alone in FAULT
(entry 88). -/
def State.settleHead (q : Nat) : Nat → State → State
  | 0, s => s
  | f + 1, s =>
    if (s.queueOf q).launch.isSome then s
    else
      match s.nextRecord q with
      | none => s
      | some (bs, child, known) =>
        let own := fieldAt bs 0x16 2
        let l : Launch := { id := s.nextId, asid := BitVec.ofNat 10 (child.getD own), record := bs, admitted := 0, ended := 0
                            halted := 0, fault := 0, malformed := false, dep := none, known := known, done := [] }
        let s := { s with nextId := s.nextId + 1 }.touchHead q own
        if s.malformed l child then
          let s := { s with launches := s.launches ++ [{ l with malformed := true, fault := BitVec.ofNat 64 (2 ^ 62) }] }
          State.settleHead q f ((s.advance q).completeLaunch l.id)
        else
          let s := { s with launches := s.launches ++ [l] }
          s.setQueue { s.queueOf q with launch := some l.id, eligible := decide (l.depAddr = 0), age := 0 }

/-- Records a queue can hold. -/
def queueFuel : Nat := 65537

/-- A queue whose ENABLE is 0 takes HEAD afresh at its next doorbell (R122). -/
def State.seeQueues (s : State) : State :=
  { s with queues := s.queues.map (fun x => if x.primed ∧ s.qEnable x.q % 2 = 0 then { x with primed := false } else x) }

/-- A queue's head, not begun, is pending no more: it is forgotten with its parked dependence read (R122). -/
def State.dropHead (s : State) (x : QueueState) : State :=
  match x.launch with
  | none => s
  | some l => { s.dropLaunch l with ops := s.ops.filter (fun o => decide (o.kind ≠ .depRead x.q)) }

/-- DOORBELL (R121, R122, R418): `who` is the queue and `bytes` the 64 bytes written.  Where HEAD is taken afresh, a head whose units
are begun stays the head, and any other is read again (entry 40).  TAIL takes the place of the one before it, so a TAIL behind that one leaves
the records from it on pending no more (entry 88); one at HEAD adds none and takes none away.  A queue table entry or ring outside every backed
range has no defined content. -/
def execDoorbell (s : State) : Result :=
  let q := s.arg.who
  let bs := s.arg.bytes ++ List.replicate (64 - s.arg.bytes.length) 0
  if 16384 ≤ q ∨ ¬ s.bar0.ready then .next s
  else if ¬ backed (s.entryAt q) 32 then .fault (.unbackedAddress (s.entryAt q))
  else
    let x := s.queueOf q
    let fail := fun (e : Nat) => (s.physWrite (s.entryAt q + 0xA) [BitVec.ofNat 8 e]).setQueue { x with primed := false }
    let tail := fieldAt bs 0 4
    let ring := 2 ^ s.qLog q
    let head := if x.primed then x.head else s.physNum (s.entryAt q + 0xC) 4
    if s.qEnable q % 2 = 0 ∨ s.qErr q ≠ 0 then .next (s.setQueue { x with primed := false })
    else if ((bs.drop 4).take 60).any (fun b => decide (b ≠ 0)) ∨ ring ≤ tail then .next (fail 1)
    else if ¬ s.entryOk q ∨ ring ≤ head then .next (fail 2)
    else if ¬ backed (s.qRing q) (64 * ring) then .fault (.unbackedAddress (s.qRing q))
    else
      let moved := decide (head ≠ x.head)
      let begun := match x.launch.bind s.launchOf with | some l => decide (0 < l.admitted) | none => false
      let again := !x.primed && !begun
      let u := (if again then s.dropHead x else s).touchSpan (s.entryAt q) 32
      let kept := if x.primed then x.tail else if begun ∧ ¬ moved then (head + 1) % ring else tail
      .next (State.settleHead q queueFuel (u.setQueue { x with
        head := if moved ∧ begun then (head + ring - 1) % ring else head
        tail := if tail = head then kept else tail, primed := true, launch := if again then none else x.launch, known := [(0, s.writes)] }))

/-! ## Serving (R127 to R129, R136, R394) -/

/-- A head that may be served: its queue, effective priority, whether it is a cohort, whether it has waited 2^20 cycles, the
gangs of its next unit, their reservations together, and the hearths it may not use. -/
structure Head where
  q : Nat
  prio : Nat
  cohort : Bool
  waited : Bool
  unit : List GangNeed
  cost : Nat
  barred : List Nat
  deriving DecidableEq, Repr

/-- Whether a parked dependence read holds a queue back (R123). -/
def State.depParked (s : State) (q : Nat) : Bool :=
  s.ops.any (fun o => match o.kind with | .depRead k => decide (k = q) | _ => false)

/-- Number of gangs in a launch's next unit (R128). -/
def Launch.unitSize (l : Launch) : Nat := if l.cohort then l.total else l.stages

/-- The head of an ordinary queue, where it is eligible and its queue is served (R121, R127); a head not begun needs the doorbell that made it
pending to stand (R122). -/
def State.queueHead (s : State) (x : QueueState) : Option Head :=
  match x.launch.bind s.launchOf with
  | none => none
  | some l =>
    let open' := decide (childBase ≤ x.q) || (decide (s.qErr x.q = 0) && ((x.primed && decide (s.qEnable x.q % 2 = 1)) || decide (0 < l.admitted)))
    if x.eligible ∧ open' ∧ ¬ s.depParked x.q ∧ x.q < resumeBase then
      some ⟨x.q, Nat.min 7 (l.prio + x.age), l.cohort, decide (1 ≤ x.age), l.needs l.admitted l.unitSize, l.unitSize * s.energy l.eclass, []⟩
    else none

/-- Gangs of a launch not yet ended, in linear order. -/
def State.gangsOf (s : State) (launch : Nat) : List Gang :=
  (s.gangs.filter (fun g => decide (g.launch = launch))).foldl (fun acc g =>
    acc.takeWhile (fun k => decide (k.gindex < g.gindex)) ++ g :: acc.dropWhile (fun k => decide (k.gindex < g.gindex))) []

/-- The gangs readmitted together with a gang: itself, or every gang of its cohort launch (R394). -/
def State.readmitUnit (s : State) (g : Gang) (l : Launch) : List Gang := if l.cohort then s.gangsOf l.id else [g]

/-- Needs of gangs to be readmitted.  A gang that returns alone is placed freely, away from the other gangs of its coordinate if need be
(entry 84). -/
def readmitNeeds : List Gang → Option Gang → List GangNeed
  | [], _ => []
  | g :: r, prev =>
    ⟨g.threads, g.lanes, g.tiles, decide (g.stage ≠ 0) && (match prev with | some p => decide (p.gindex + 1 = g.gindex) | none => false)⟩
      :: readmitNeeds r (some g)

/-- The head that a gang waiting for readmission is (R138, R394): the first of its unit, once all of them wait. -/
def State.readmitHead (s : State) (g : Gang) : Option Head :=
  match s.launchOf g.launch with
  | none => none
  | some l =>
    let u := s.readmitUnit g l
    if g.phase = .readmit ∧ u.all (fun k => decide (k.phase = .readmit)) ∧ (u.head?.map (·.gid)) = some g.gid then
      let x := s.queueOf (resumeBase + g.gid)
      some ⟨x.q, Nat.min 7 (l.prio + x.age), l.cohort, decide (1 ≤ x.age), readmitNeeds u none
        , u.length * s.energy l.eclass, if g.migrate.isSome then [g.hearth] else []⟩
    else none

/-- Reservations of the resident gangs (R136). -/
def State.reserved (s : State) : Nat := ((s.gangs.filter (fun g => decide (g.phase = .resident))).map (·.reserve)).sum

/-- Where a head's unit goes, none where it is not admissible (R128, R130, R136). -/
def State.placement (s : State) (h : Head) : Option (List Nat) :=
  if s.bar0.dadmit.toNat < s.reserved + h.cost ∨ 1024 < h.unit.length then none
  else placeAll (s.preferred.filter (fun k => !h.barred.contains k)) h.unit 0 ((List.range 128).map s.roomOn)

/-- Every head that may be served. -/
def State.heads (s : State) : List Head := s.queues.filterMap s.queueHead ++ s.gangs.filterMap s.readmitHead

/-- The head to serve now: of highest effective priority among the admissible, none below a holding head, round robin within a
priority (R128, R129). -/
def State.choose (s : State) : Option (Head × List Nat) :=
  if ¬ s.serving then none
  else
    let hs := s.heads.map (fun h => (h, s.placement h))
    let hold := hs.foldl (fun (m : Nat) (p : Head × Option (List Nat)) =>
      if p.2.isNone && (p.1.cohort || p.1.waited) then Nat.max m p.1.prio else m) 0
    let fit := hs.filterMap (fun (p : Head × Option (List Nat)) =>
      match p.2 with | some w => if hold ≤ p.1.prio then some (p.1, w) else none | none => none)
    let top := fit.foldl (fun (m : Nat) (p : Head × List Nat) => Nat.max m p.1.prio) 0
    let best := fit.filter (fun (p : Head × List Nat) => decide (p.1.prio = top))
    let after := best.filter (fun (p : Head × List Nat) => match assoc s.served top with | some q => decide (q < p.1.q) | none => true)
    (if after = [] then best else after).foldl (fun (b : Option (Head × List Nat)) (p : Head × List Nat) =>
      match b with | some c => if p.1.q < c.1.q then some p else b | none => some p) none

/-! ## Gangs and threads (R20, R125, R358) -/

/-- Add a thread record. -/
def State.addThread (s : State) (t : Thread) : State :=
  if s.thr.phase = .absent then { s with thr := t } else { s with others := s.others ++ [t] }

/-- The lowest free cores of a hearth. -/
def State.freeCores (s : State) (h : Nat) : List Nat :=
  let used := s.threads.filter (fun t => decide (t.hearth = h) && decide (t.phase ≠ .absent) &&
    (match s.gangOf t.gang with | some g => decide (g.phase = .resident) | none => false))
  (List.range 8).filter (fun c => !used.any (fun t => decide (t.core = c)))

/-- A thread in the state of R20 and R358; its clock starts at the hts of its stack, moved past its dependence, and it comes after the
writes of `known`. -/
def State.startThread (s : State) (g : Gang) (core index : Nat) (entry args : Word) (dep : Option (BitVec 16)) (known : Known) :
    Thread :=
  let h := s.htsOf (stackOf g.hearth)
  { Thread.blank with
    tid := s.nextId, gang := g.gid, core := core, hearth := g.hearth, asid := g.asid, index := index, stage := g.stage
    coord := g.coord, phase := .running, pc := entry, sregs := Thread.blank.sregs.set 1 args
    tvec := (match s.asidEntry g.asid.toNat with | some e => e.2 | none => 0)
    grant := g.lanes, attached := 1#4 <<< stackOf g.hearth, pts := (match dep with | some c => later h c | none => h)
    known := known }

/-- Start the threads of a gang on free cores. -/
def State.startThreads (s : State) (g : Gang) (entry args : Word) (dep : Option (BitVec 16)) (known : Known) :
    List (Nat × Nat) → State
  | [] => s
  | (k, c) :: r =>
    let t := s.startThread g c k entry args dep known
    (({ s with nextId := s.nextId + 1 }).addThread t).startThreads g entry args dep known r

/-- Admit gang `k` of a launch to hearth `h`; its threads take the lowest free cores in thread order (entry 82).  The hearth
drops its copies of L lines, which were filled before these threads' clocks (R222, R247, entry 68). -/
def State.admitGang (s : State) (l : Launch) (k h : Nat) : State :=
  let c := k / l.stages
  let g : Gang :=
    { gid := s.nextId, launch := l.id, gindex := k, coord := (c % l.gx, c / l.gx % l.gy, c / (l.gx * l.gy)), stage := k % l.stages
      asid := l.asid, hearth := h, threads := l.threads, lanes := l.lanes, tiles := l.tiles, reserve := s.energy l.eclass
      phase := .resident, since := s.nextId, tileMem := [], tilePoison := [], owners := [], buffers := [], barGen := 0
      arrived := [], barSivs := [], barKnown := [], treeSlots := [], area := none, tareas := [], restored := true, saving := false, migrate := none, fault := none }
  let cores := (s.freeCores h).take l.threads
  let s := { s with gangs := s.gangs ++ [g], nextId := s.nextId + 1 }
  (s.startThreads g (BitVec.ofNat 64 l.entry) (BitVec.ofNat 64 l.args) l.dep l.known ((List.range l.threads).zip cores)).dropLeases h

/-- SERVE_QUEUE (R127 to R130, R136): one unit of the chosen head of a host or child queue is admitted. -/
def execServeQueue (s : State) : Result :=
  match s.choose with
  | none => .next s
  | some (h, w) =>
    let x := s.queueOf h.q
    match x.launch.bind s.launchOf with
    | none => .next s
    | some l =>
      let u := (w.zipIdx).foldl (fun (s : State) (p : Nat × Nat) => s.admitGang l (l.admitted + p.2) p.1) s
      let n := l.admitted + w.length
      let u := (u.modLaunch l.id (fun l => { l with admitted := n })).setQueue { x with age := 0 }
      let u := { u with served := assocSet u.served h.prio h.q }
      .next (if n < l.total then u else State.settleHead h.q queueFuel (u.advance h.q))

/-- DEPENDENCE_MET (R123, R127, R223): `who` is the queue, whose head's counter is read with acquire order; a value with no stamp moves no clock
(R273). -/
def execDependenceMet (s : State) : Result :=
  let x := s.queueOf s.arg.who
  match x.launch.bind s.launchOf with
  | none => .next s
  | some l =>
    if x.eligible ∨ s.depParked x.q then .next s
    else
      match s.engineAccess l.asid.toNat noHearth false .load l.depAddr 8 with
      | .error e => .next (if e.cause = 0 then (e.counted s).countRetry e.full else s.parkFront (.depRead x.q) l.asid e)
      | .ok (f, u) =>
        let r := u.runAt f l.depAddr
        let ms := relsOf u.releases r.x 8
        let (bs, _, u) := u.unitRead noHearth f l.depAddr 8 (s.frontClock l.asid l.depAddr)
        if leNat bs < l.depTgt then .next u
        else
          let clk := (ms.filterMap (·.stamp)).head?.map (u.acquireClock r.x ms)
          .next ((u.modLaunch l.id (fun l => { l with dep := clk, known := l.known.join (relsKnown ms) })).setQueue { x with eligible := true, age := 0 })

/-- PRIORITY_AGING (R129): the eligible head of queue `who` has waited another 2^20 cycles. -/
def execPriorityAging (s : State) : Result :=
  let x := s.queueOf s.arg.who
  if s.heads.any (fun h => decide (h.q = x.q)) then .next (s.setQueue { x with age := Nat.min 7 (x.age + 1) }) else .next s

/-! ## The end of a gang (R134) -/

/-- FAULT of a launch after a gang with an unvectored trap has ended. -/
def Launch.withFault (l : Launch) (g : Gang) : Launch :=
  match g.fault with
  | none => l
  | some (k, c) =>
    if l.fault.getLsbD 63 ∧ l.fault.toNat % 2 ^ 53 ≤ g.gindex then l
    else { l with fault := BitVec.ofNat 64 (2 ^ 63 + c.toNat * 2 ^ 56 + k % 8 * 2 ^ 53 + g.gindex % 2 ^ 53) }

/-- Forget the threads of a gang. -/
def State.dropThreads (s : State) (g : Nat) : State :=
  { s with thr := if s.thr.gang = g then Thread.blank else s.thr, others := s.others.filter (fun t => decide (t.gang ≠ g)) }

/-- GANG_END (R134, R389): `who` is the gang. -/
def execGangEnd (s : State) : Result :=
  match s.gangOf s.arg.who with
  | none => .next s
  | some g =>
    let ts := s.gangThreads g.gid
    if g.phase ≠ .resident ∨ ¬ ts.all (fun t => decide (t.phase = .ended)) ∨ s.gangOps g.gid ≠ [] then .next s
    else
      let u := { s with gangs := s.gangs.filter (fun k => decide (k.gid ≠ g.gid)) }.dropThreads g.gid
      match u.launchOf g.launch with
      | none => .next u
      | some l =>
        let l := { (l.withFault g) with ended := l.ended + 1, done := l.done.join (s.gangKnown g.gid), halted := l.halted + if ts.all (·.halted) then 1 else 0 }
        let u := u.modLaunch l.id (fun _ => l)
        .next (if l.ended = l.total then u.completeLaunch l.id else u)

end Sys2Proof.Machine
end

