-- ==== Sys2Proof/Machine/EngineEvents.lean ====
section
/-! DEFINITION. Parked operations, replay and abort, completion adds, suspension (spec 20 R279, 25 R362, R363, R366, 30 R421). -/

namespace Sys2Proof.Machine

open Sys2Proof

/-! ## Fault records (R362, R421) -/

/-- SOURCE of an operation (R362): stack, hearth, engine and flue sequencer; a collective engine has no hearth (entry 41), and the
engine bits of an indexed-access unit are free (entry 71). -/
def EngineOp.source (o : EngineOp) : Nat :=
  let at' := o.hearth / 32 + 4 * (o.hearth % 32)
  match o.kind with
  | .flue q _ _ _ => at' + 1024 * q
  | .walk .. | .append .. | .refit .. => at' + 128
  | .collective k _ _ => k + 256
  | .depRead _ | .statWrite _ | .doneAdd _ => 384
  | .indexed _ => at' + 128 * (Config.recordField o.parkSeq % 8)

/-- FAULT_RECORD_WRITE (R362, R421): `who` names a parked operation; records of one engine keep the order of its faults. -/
def execFaultRecordWrite (s : State) : Result :=
  match s.opOf s.arg.who with
  | none => .next s
  | some o =>
    match o.status with
    | .parked cause addr write tile false =>
      let earlier := s.ops.any (fun p => decide (p.source = o.source) && decide (p.parkSeq < o.parkSeq) &&
        (match p.status with | .parked _ _ _ _ r => !r | _ => false))
      let b := s.bar0
      if earlier ∨ ringFull b.frsize.toNat b.frhead.toNat b.frtail.toNat then .next s
      else
        let at' := b.frbase.toNat + 32 * (b.frtail.toNat % b.frsize.toNat)
        let r := leBytes 8 addr.toNat ++ leBytes 2 o.asid.toNat ++ leBytes 1 cause
          ++ leBytes 1 ((if write then 1 else 0) + if tile then 2 else 0) ++ leBytes 2 o.source ++ leBytes 2 0
          ++ leBytes 8 o.id ++ leBytes 8 o.pc.toNat
        if ¬ backed at' 32 then .fault (.unbackedAddress at')
        else
          let s := s.physWrite at' r
          .next ({ s with bar0 := { s.bar0 with frtail := s.bar0.frtail + 1 } }.modOp o.id
            (fun o => { o with status := .parked cause addr write tile true }))
    | _ => .next s

/-! ## Completion adds (R134, R279) -/

/-- ENGINE_COMPLETION_ADD (R123, R279): `who` names an operation that has performed every other access; a replayed write of the
front-end is made again. -/
def execEngineCompletionAdd (s : State) : Result :=
  match s.opOf s.arg.who with
  | none => .next s
  | some o =>
    let may := decide (o.status = .queued) || decide (o.status = .running)
    match o.kind with
    | .depRead _ | .indexed _ => .next s
    | .statWrite l => if may then .next ((s.dropOp o.id).completeLaunch l) else .next s
    | .doneAdd l =>
      match s.launchOf l with
      | some la => if may then .next ((s.dropOp o.id).addDone la) else .next s
      | none => .next s
    | _ =>
      if ¬ o.workDone ∨ ¬ may ∨ o.passes ≠ [] then .next s
      else
        let (c, v) := o.kind.completion
        if counterAddr c = 0 then .next (s.dropOp o.id)
        else
          match s.engineAdd o.asid.toNat o.port o.user (counterAddr c) v o.clock (s.gangKnown o.gang) with
          | .error e => .next (s.park o.id e)
          | .ok (_, u) => .next (u.dropOp o.id)

/-! ## Replay and abort (R123, R363) -/

/-- A retried access sees the page tables as they stand (R363): the TLBs and the walkers forget the page of the fault. -/
def State.forgetPage (s : State) (asid : BitVec 10) (va : Nat) : State :=
  { s with
    tlb := s.tlb.filter (fun e => !(decide (e.asid = asid) && decide (e.base ≤ va) && decide (va < e.base + e.size)))
    tables := s.tables.filter (fun e => !e.covers asid.toNat va) }

/-- Change a parked operation of a saved gang; its retry sees the page tables as they stand now (R363, R366).  An indexed access is
made again by its word. -/
def State.modSaved (s : State) (id : Nat) (st : OpStatus) : State :=
  let parked := fun (o : EngineOp) => decide (o.id = id) && (match o.status with | .parked .. => true | _ => false)
  let redo := fun (o : EngineOp) => decide (st = .suspended) && (match o.kind with | .indexed _ => true | _ => false)
  let u := ((s.gangImages.map (fun p => p.2.2)).flatten.filter parked).foldl (fun s o =>
    match o.status with | .parked _ addr .. => s.forgetPage o.asid addr.toNat | _ => s) s
  { u with gangImages := u.gangImages.map (fun (p : Nat × Gang × List EngineOp) => (p.1, p.2.1, p.2.2.filterMap (fun (o : EngineOp) =>
      if parked o then (if redo o then none else some { o with status := st }) else some o))) }

/-- ENGINE_REPLAY (R363): `value` is the word written to ENGREPLAY, bit 63 clear. -/
def execEngineReplay (s : State) : Result :=
  if s.arg.value.getLsbD 63 ∨ ¬ s.bar0.ready then .next s
  else
    match s.opOf s.arg.value.toNat with
    | none => .next (s.modSaved s.arg.value.toNat .suspended)
    | some o =>
      match o.status with
      | .parked _ addr .. =>
        let s := s.forgetPage o.asid addr.toNat
        match o.kind with
        | .depRead _ | .indexed _ => .next (s.dropOp o.id)
        | _ => .next (s.modOp o.id (fun o => { o with status := .running }))
      | _ => .next s

/-- Every thread of a gang that has not ended ends with CAUSE 19 (R363). -/
def State.endGang (s : State) (g token : Nat) : State :=
  let hit := fun (t : Thread) => decide (t.gang = g) && (t.live || decide (t.phase = .saved))
  let ks := (s.threads.filter hit).map (·.index)
  (s.mapThreads hit (fun t => { t with cause := 19, tval := BitVec.ofNat 64 token, phase := .ended, pfx := none })).modGang g
    (fun x => ks.foldl (fun x k => x.recordFault k 19) x)

/-- ENGINE_ABORT (R123, R363): `value` is the word written to ENGREPLAY, bit 63 set; entry 42 for an aborted status write. -/
def execEngineAbort (s : State) : Result :=
  let id := s.arg.value.toNat % 2 ^ 63
  if ¬ s.arg.value.getLsbD 63 ∨ ¬ s.bar0.ready then .next s
  else
    match s.opOf id with
    | none => .next (s.modSaved id .aborted)
    | some o =>
      match o.status with
      | .parked .. =>
        let s := s.dropOp id
        match o.kind with
        | .depRead q =>
          match (s.queueOf q).launch with
          | none => .next s
          | some l =>
            let s := s.modLaunch l (fun l => { l with fault := l.fault ||| BitVec.ofNat 64 (2 ^ 62) })
            .next (State.settleHead q queueFuel ((s.advance q).completeLaunch l))
        | .statWrite l =>
          match s.launchOf l with
          | some la => .next (s.addDone la)
          | none => .next s
        | .doneAdd l => .next (s.dropLaunch l)
        | _ => .next (s.endGang o.gang id)
      | _ => .next s

/-- ENGINE_SUSPEND (R366): `who` names an operation still running 20 µs after its gang's first CSAVE. -/
def execEngineSuspend (s : State) : Result :=
  match s.opOf s.arg.who with
  | none => .next s
  | some o =>
    match s.gangOf o.gang with
    | none => .next s
    | some g =>
      if g.saving ∧ o.status = .running then .next (s.modOp o.id (fun o => { o with status := .suspended })) else .next s

end Sys2Proof.Machine
end

