-- ==== Sys2Proof/Machine/System.lean ====
section
/-! DEFINITION. TRAP, YIELD, WAITEV, the system words but for context save, and the events of a thread's boundary (spec 05 R80 to
R83, 25 R356 to R369, 27 R386 to R398). -/

namespace Sys2Proof.Machine

open Sys2Proof

/-! ## TRAP, YIELD, WAITEV -/

/-- TRAP (R80): code 10, its immediate as TVAL. -/
def execTrap (imm : BitVec 14) (s : State) : Result :=
  let i : Instr := .trap imm
  finish i s (do
    s.serial i
    .error (.of 10 (imm.signExtend 64)))

/-- YIELD (R81, R102, R407). -/
def execYield (s : State) : Result :=
  match s.serial .yield with
  | .error e => finish .yield s (.error e)
  | .ok _ => atRenegotiation s (fun u => finish .yield u (.ok u))

/-- WAITEV (R82, R83). -/
def execWaitev (d a b : BitVec 6) (s : State) : Result :=
  let i : Instr := .waitev d a b
  finish i s (do
    s.serial i
    leaving (do
      let (v, u) ← s.waitRead [a, b] (s.rs a) 3 (fun v => decide (v ≠ s.rs b))
      .ok (u.ws d v)))

/-- WAITEV_REREAD (R82, R83): the current thread's waiting WAITEV rereads once a write to its block prompts it. -/
def execWaitevReread (s : State) : Result :=
  match s.thr.phase with
  | .waiting (.waitev d a b) => if s.looksAgain then execWaitev d a b s else .next s
  | _ => .next s

/-! ## The end of a thread, child launches, regions (R389 to R391) -/

/-- Whether no other thread of the current thread's gang is live. -/
def State.lastLive (s : State) : Bool :=
  s.others.all (fun t => !(decide (t.gang = s.thr.gang) && t.live))

/-- The current thread has halted: RETIRED counts the HALT, and its region is closed (R22, R389). -/
def State.halt (s : State) : State :=
  { s.retire with thr := { s.retire.thr with phase := .ended, halted := true, npOpen := false } }

/-- HALT (R389): the last live thread waits for the gang's engines, which is no blocked wait. -/
def execHalt (s : State) : Result :=
  match s.serial .halt with
  | .error e => finish .halt s (.error e)
  | .ok _ =>
    if s.lastLive ∧ s.gangOps s.thr.gang ≠ [] then .next { s with thr := { s.thr with phase := .haltWait } }
    else .next s.halt

/-- An access of a system word: at supervisor privilege in the thread's ASID (R386), judged as `judge` says before its race check. -/
def State.superLoad (s : State) (rs : List (BitVec 6)) (n : Nat) (va : Word) (lost : Except Stop Unit := .ok ())
    (judge : State → List Byte → Except Stop Unit := fun _ _ => .ok ()) : Except Stop (List Byte × State) := do
  let keep := s.thr.status.priv
  let p := { s with thr := { s.thr with status := { s.thr.status with priv := true } } }
  let (t, u) ← p.resolveWith rs false lost (Acc.row .load n) va
  let (bs, u) ← u.readJudged (Acc.row .load n) t va judge
  .ok (bs, { u with thr := { u.thr with status := { u.thr.status with priv := keep } } })

/-- LAUNCH (R133, R247, R390): the record joins the child queue of the thread's ASID, which holds 256. -/
def execLaunch (a : BitVec 6) (s : State) : Result :=
  let i : Instr := .launch a
  finish i s (do
    s.serial i
    let (bs, u) ← s.superLoad [a] 64 (s.rs a) (s.lostCheck (scopeCoversLink 3))
    let x := s.queueOf (childBase + s.thr.asid.toNat)
    if 256 ≤ x.children.length then .error (.hold id)
    else
      .ok (State.settleHead x.q queueFuel (u.setQueue { x with children := x.children ++ [(bs, s.knownOf s.thr)] })))

/-- NPBEGIN (R391). -/
def execNpbegin (s : State) : Result :=
  finish .npbegin s (do
    s.serial .npbegin
    .ok (if s.thr.npOpen then s else { s with thr := { s.thr with npOpen := true, npOvr := false } }))

/-- NPEND (R391). -/
def execNpend (s : State) : Result :=
  finish .npend s (do
    s.serial .npend
    .ok { s with thr := { s.thr with npOpen := false } })

/-- The guard of a privileged class X word, in the order of R24. -/
def State.privSerial (s : State) (i : Instr) : Except Stop Unit := do
  if s.inBlock then .error (.illegal i) else .ok ()
  s.needPriv i
  s.serial i

/-- TRET (R388). -/
def execTret (s : State) : Result :=
  finishWith .tret s (do
    s.privSerial .tret
    .ok s.trapReturn)

/-! ## Translation, heat and the race log (R396 to R398) -/

/-- Forget the translations that `p` picks and the cached table entries that `q` picks. -/
def State.dropTlb (s : State) (p : TlbEntry → Bool) (q : TableEntry → Bool) : State :=
  { s with tlb := s.tlb.filter (fun e => !p e), tables := s.tables.filter (fun e => !q e) }

/-- TLBINV (R396). -/
def execTlbinv (a b : BitVec 6) (s : State) : Result :=
  let i : Instr := .tlbinv a b
  finish i s (do
    s.privSerial i
    s.consume [a, b]
    let va := (s.rs a).toNat
    limitCheck (s.rs a) (decide (va / 2 ^ 56 = 0))
    limitCheck (s.rs b) (decide ((s.rs b).toNat < 1024))
    .ok (s.dropTlb (fun e => decide (e.asid.toNat = (s.rs b).toNat) && decide (e.base ≤ va) && decide (va < e.base + e.size))
      (·.covers (s.rs b).toNat va)))

/-- TLBINVA (R396). -/
def execTlbinva (a : BitVec 6) (s : State) : Result :=
  let i : Instr := .tlbinva a
  finish i s (do
    s.privSerial i
    s.consume [a]
    limitCheck (s.rs a) (decide ((s.rs a).toNat < 1024))
    .ok (s.dropTlb (fun e => decide (e.asid.toNat = (s.rs a).toNat)) (fun e => decide (e.asid.toNat = (s.rs a).toNat))))

/-- TLBINVG (R396). -/
def execTlbinvg (s : State) : Result :=
  finish .tlbinvg s (do
    s.privSerial .tlbinvg
    .ok (s.dropTlb (fun _ => true) (fun _ => true)))

/-- EMBRD (R397). -/
def execEmbrd (d a b : BitVec 6) (s : State) : Result :=
  let i : Instr := .embrd d a b
  finish i s (do
    s.privSerial i
    let pa := (s.rs a).toNat
    alignCheck (s.rs a) 65536
    s.consume [a, b]
    limitCheck (s.rs a) (backed pa 65536)
    limitCheck (s.rs b) (decide ((s.rs b).toNat < 2))
    let f := pa / 65536
    let (h, acc) := s.heatOf f
    let u := if (s.rs b).getLsbD 0 then { s with heat := assocSet s.heat f (h, false) } else s
    .ok (u.ws d (BitVec.ofNat 64 (h.toNat + if acc then 256 else 0))))

/-- EMBAGE (R381, R397). -/
def execEmbage (s : State) : Result :=
  finish .embage s (do
    s.privSerial .embage
    .ok { s with heat := s.heat.map (fun (p : Nat × BitVec 8 × Bool) => (p.1, p.2.1 >>> 1, p.2.2)) })

/-- Whether 64 bytes are a race-log descriptor (R398). -/
def raceLogOk (bs : List Byte) : Bool :=
  decide (fieldAt bs 0 8 % 4096 = 0) && decide (1 ≤ fieldAt bs 8 4) && decide (fieldAt bs 8 4 ≤ 2 ^ 20)
    && decide (fieldAt bs 0xC 4 = 0) && (bs.drop 0x28).all (fun b => decide (b = 0))

/-- RLOGCTL (R398). -/
def execRlogctl (a : BitVec 6) (s : State) : Result :=
  let i : Instr := .rlogctl a
  finish i s (do
    s.privSerial i
    let v := s.rs a
    let k := s.thr.asid.toNat
    if v = 0 then do
      s.consume [a]
      .ok { s with raceLogs := s.raceLogs.filter (fun p => decide (p.1 ≠ k)) }
    else do
      let (_, u) ← s.superLoad [a] 64 v (judge := fun _ bs => if raceLogOk bs then .ok () else .error (.of 14 v))
      .ok { u with raceLogs := assocSet u.raceLogs k v })

/-! ## Boundaries (R24, R42, R356 to R361) -/

/-- The blocked waits of R361: an asynchronous event is taken in them, and a grant may shrink. -/
def isBlockedWait (i : Instr) : Bool :=
  match i with
  | .waitev .. | .bar | .cwait .. | .bget .. | .own .. | .launch .. | .flstart .. | .twalk .. | .tappend .. | .trefit ..
  | .clstart .. | .topen .. | .bdef .. => true
  | _ => false

/-- Whether the current thread is at a point where an event may be taken (R361): not between a PFX and its word. -/
def State.atBoundary (s : State) : Bool :=
  s.thr.pfx.isNone && (match s.thr.phase with
    | .running => true
    | .waiting i => isBlockedWait i
    | _ => false)

/-- ASYNC_EVENT_ENTRY (R356 to R361): the current thread takes its pending event. -/
def execAsyncEventEntry (s : State) : Result :=
  if ¬ s.atBoundary ∨ ¬ s.thr.status.ae ∨ s.pendingAsync.isNone then .next s else .next s.leaveWaits.takeAsync

/-- UNASSIGNED_INSTRUCTION_WORD (R24, R42, R187): `value` is the word at PC; one that decodes stands past the end of a block.  One with
reserved bits may be illegal besides, as `flags[0]` says, and is so first. -/
def execUnassignedInstructionWord (s : State) : Result :=
  let w : BitVec 32 := s.arg.value.setWidth 32
  let code := match decode w.toNat with | .error (.reserved _) => if s.arg.flags.headD false then 1 else 2 | _ => 1
  .next (s.takeTrap code (w.zeroExtend 64) none)

/-- INSTRUCTION_FETCH_FAULT (R24): the fetch at PC faults. -/
def execInstructionFetchFault (s : State) : Result :=
  match s.fetch s.thr.pc with
  | .error (.trap c v f post) => .next ((post s).takeTrap c v f)
  | _ => .next s

/-! ## Pre-emption requests and region overruns (R364, R369, R389) -/

/-- A thread that counts for a pre-emption request: not one that halts for the gang's engines (R389). -/
def Thread.preemptible (t : Thread) : Bool := t.live && decide (t.phase ≠ .haltWait)

/-- Whether a gang may be asked to leave (R364). -/
def State.mayPreempt (s : State) (g : Gang) : Bool :=
  let ts := (s.gangThreads g.gid).filter Thread.preemptible
  decide (g.phase = .resident) && !ts.isEmpty && ts.all (fun t => decide (t.tvec ≠ 0))

/-- An event that arrives after position `num` of the word a thread runs next, where `num` is above 0 and no other event is pending at the
thread: that word started before it (R357, R359). -/
def Thread.arrival (t : Thread) (num : Nat) : Thread :=
  if 0 < num ∧ t.phase = .running ∧ t.pend17 = none ∧ t.pend18 = none then { t with stopAt := some num } else t

/-- Code 17 becomes pending for every live thread of a gang.  A later request takes the place of one still pending: the spec does not say
what becomes of a driver's request when the damper asks too (entry 77). -/
def State.deliver17 (s : State) (g : Nat) (tval : Word) (num : Nat) : State :=
  s.mapThreads (fun t => decide (t.gang = g) && t.preemptible) (fun t => { t.arrival num with pend17 := some tval })

/-- PREEMPTION_REQUEST (R359, R364): `nums` are the gangs that the driver names; with `num` above 0 it arrives after that position of the
words their threads run next.  A gang of a COHORT launch is accepted only where all
live gangs of its launch are named and may be asked; refusals are reported. -/
def execPreemptionRequest (s : State) : Result :=
  let ok : Nat → Bool := fun k => match s.gangOf k with
    | none => false
    | some g =>
      if (match s.launchOf g.launch with | some l => l.cohort | none => false) then
        ((s.gangsOf g.launch).filter (fun x => (s.gangThreads x.gid).any Thread.preemptible)).all
          (fun x => s.arg.nums.contains x.gid && s.mayPreempt x) && s.mayPreempt g
      else s.mayPreempt g
  .next (s.arg.nums.foldl (fun (u : State) k => if ok k then u.deliver17 k 1 s.arg.num else { u with reports := u.reports + 1 }) s)

/-- NP_REGION_OVERRUN (R359, R369): the region of thread `who` has been open for 100 µs; the cycles elapsed are free (entry 36).  With `num`
above 0 it comes after that position of the word the thread runs next. -/
def execNpRegionOverrun (s : State) : Result :=
  let hit := fun (t : Thread) => decide (t.tid = s.arg.who) && s.unended t && t.npOpen
  if ¬ s.threads.any hit then .next s
  else
    let n := Config.regionCycles s.free
    .next { (s.mapThreads hit (fun t => { t.arrival s.arg.num with npOpen := false, npOvr := true, pend18 := some n })) with free := s.free + 1 }

end Sys2Proof.Machine
end

