-- ==== Sys2Proof/Machine/Context.lean ====
section
/-! DEFINITION. A gang leaves its hearth and returns: CSAVE, CRESTORE, GANG_RESUME, GANG_READMISSION (spec 25 R364 to R368, 27 R392
to R395, 28 R407). -/

namespace Sys2Proof.Config

open Sys2Proof.Machine

/-- What the bytes from 0x1400 of a thread area that no CSAVE of this device wrote hold, by free draw (R393, entry 6). -/
opaque foreignThread : Nat → Thread

/-- What the first 64 KiB of such a gang area hold past its header, by free draw (R393, entry 6). -/
opaque foreignGang : Nat → Gang × List EngineOp

/-- Byte `i` of what the n-th save of a thread or a gang writes in the format that the spec leaves open (R393, entry 6). -/
opaque areaByte : Nat → Nat → Byte

end Sys2Proof.Config

namespace Sys2Proof.Machine

open Sys2Proof

/-- The FORMAT word (R393). -/
def contextFormat : Nat := 0x09500001

/-- Where this model's image handles stand in the bytes of a thread area and of a gang area whose format the spec leaves open
(R393, entry 6). -/
def threadHandleAt : Nat := 0x1400
def gangHandleAt : Nat := 0x80

/-! ## CSAVE (R365, R366, R392, R393) -/

/-- The laid-out bytes of a thread area, up to 0x1400 (R393). -/
def State.threadArea (s : State) (rpc : Word) : List Byte :=
  let t := s.thr
  leBytes 8 contextFormat ++ leBytes 8 (t.grant + 65536 * t.width) ++ leBytes 8 rpc.toNat
    ++ ((t.sregs.toList.drop 1).map (fun (v : Word) => leBytes 8 v.toNat)).flatten ++ List.replicate 496 0
    ++ ((List.range 512).map (fun n =>
      let c : BitVec 12 := BitVec.ofNat 12 n
      leBytes 8 (if (cregAccess c).isSome then (s.creg c).toNat else 0))).flatten

/-- LINFO of a launch (R393). -/
def Launch.linfo (l : Launch) : Nat := l.asid.toNat + bits l.ctrl 23 18 * 2 ^ 18

/-- The gang header (R393). -/
def gangHeader (g : Gang) (l : Launch) : List Byte :=
  leBytes 8 contextFormat ++ leBytes 8 (g.tiles + (g.threads - 1) * 2 ^ 16 + g.lanes * 2 ^ 32) ++ leBytes 8 l.id
    ++ leBytes 8 l.linfo ++ leBytes 8 g.gindex ++ List.replicate 24 0
    ++ ((List.range 8).map (fun k => leBytes 8 ((assoc g.tareas k).getD 0).toNat)).flatten

/-- Store bytes from `va` in pieces of 64; on a fault the pieces before it stay written (R392). -/
def State.storeRun (s : State) (va : Word) (bs : List Byte) : Nat → Except Stop State
  | 0 => .ok s
  | f + 1 =>
    if bs = [] then .ok s
    else
      let p := bs.take (if bs.length < 64 then 8 else 64)
      match s.store [] (Acc.row .store p.length) va p with
      | .ok u => u.storeRun (va + BitVec.ofNat 64 p.length) (bs.drop p.length) f
      | .error (.trap c v x post) => .error (.trap c v x (fun _ => post s))
      | .error e => .error e

/-- The engine rule has begun for the current gang (R366). -/
def State.markSaving (s : State) : State := s.modGang s.thr.gang (fun g => { g with saving := true })

/-- A stop that also leaves the engine rule begun (R392). -/
def Stop.saving : Stop → Stop
  | .trap c v x post => .trap c v x (fun s => (post s).markSaving)
  | .hold post => .hold (fun s => (post s).markSaving)
  | .refused r => .refused r

/-- `n` bytes of the format left open. -/
def openBytes (k n : Nat) : List Byte := (List.range n).map (Config.areaByte k)

/-- The bytes of a thread area (R393). -/
def State.threadBytes (s : State) : List Byte :=
  s.threadArea (s.thr.pc + 4) ++ leBytes 8 s.nextId ++ openBytes s.nextId (0xC0000 - 0x1408)

/-- Write the thread's own area whole and keep its image. -/
def State.saveThread (s : State) (sa : Word) : Except Stop State := do
  let h := s.nextId
  let u ← s.storeRun sa s.threadBytes 13000
  .ok ({ u with nextId := h + 1, images := (h, s.thr) :: u.images }.modGang s.thr.gang
    (fun g => { g with tareas := assocSet g.tareas s.thr.index sa, saving := true }))

/-- A gang with the thread areas of its threads that have not ended (R393). -/
def State.withAreas (s : State) (g : Gang) : Gang :=
  { g with tareas := g.tareas.filter (fun p => (s.gangThreads g.gid).any (fun t => decide (t.index = p.1) && decide (t.phase ≠ .ended))) }

/-- The bytes of a gang area (R393). -/
def State.gangBytes (s : State) (g : Gang) (l : Launch) : List Byte :=
  gangHeader g l ++ leBytes 8 s.nextId ++ openBytes s.nextId (0x10000 - 0x88) ++ Memory.readN g.tileMem 0 (g.tiles * 4096)

/-- Write the gang area; the gang leaves its hearth, and its trees stay open (R347, R366, R392, R394). -/
def State.saveGang (s : State) (sb : Word) : Except Stop State :=
  match s.myGang.bind (fun g => (s.launchOf g.launch).map (fun l => (g, l))) with
  | none => .ok s
  | some (g, l) => do
    let h := s.nextId
    let g := s.withAreas g
    let u ← s.storeRun sb (s.gangBytes g l) 40000
    let gone : Gang :=
      { g with phase := if g.migrate.isSome then .readmit else .saved, tileMem := [], tilePoison := [], owners := [], buffers := []
               area := some sb, saving := false }
    .ok ({ u with nextId := h + 1, gangImages := (h, g, s.gangOps g.gid) :: u.gangImages
                  ops := u.ops.filter (fun o => decide (o.gang ≠ g.gid)) }.modGang g.gid (fun _ => gone))

/-- CSAVE (R366, R392, R407). -/
def execCsave (a b : BitVec 6) (s : State) : Result :=
  let i : Instr := .csave a b
  let sa := s.rs a
  let sb := s.rs b
  let checks : Except Stop Unit := do
    s.privSerial i
    if 1 < s.thr.nseg then .error (.vstate i) else .ok ()
    alignCheck sa 65536
    alignCheck sb 65536
    s.consume [a, b]
  match checks with
  | .error e => finish i s (.error e)
  | .ok _ =>
    let last := s.lastLive
    if last ∧ (s.gangOps s.thr.gang).any (fun o => decide (o.status = .running)) then
      finish i s (.error (Stop.saving (.hold id)))
    else
      match (do
        let u ← s.saveThread sa
        if last then u.saveGang sb else .ok u) with
      | .error e => finish i s (.error e.saving)
      | .ok u => .next { u.pcNext.retire with thr := { u.pcNext.retire.thr with phase := .saved } }

/-! ## CRESTORE (R367, R368, R395) -/

/-- The control registers a context brings back, from their saved words; VCAP, LANES.GRANT and PRIV are not among them (R395). -/
def Thread.withCregs (t : Thread) (w : Nat → Word) : Thread :=
  let st := w 0x008
  { t with
    cycle := w 0x000, retired := w 0x001
    status := { vlive := st.getLsbD 6, inh := st.getLsbD 5, pae := st.getLsbD 4, ae := st.getLsbD 3, ppriv := st.getLsbD 1, priv := true }
    fflags := (w 0x009).setWidth 5, frm := (w 0x00A).setWidth 3, mode := w 0x010, len := w 0x011, density := w 0x013
    xresume := w 0x014, convoy := w 0x015, demand := bits (w 0x016).toNat 15 8, width := bits (w 0x016).toNat 18 16
    rngkey := w 0x018, srctr := w 0x019, cbsel := (w 0x01A).setWidth 4, twin := w 0x030, lease := w 0x031, racectl := w 0x032
    siv := (w 0x033).setWidth 29, strm := w 0x034, strmk := w 0x035, knotbase := w 0x040, knotstep := w 0x041, knotcount := w 0x042
    knotclamp := w 0x043, mxscale := w 0x044, wtheta := w 0x048, wkern := w 0x049
    npOpen := (w 0x050).getLsbD 0, npOvr := (w 0x050).getLsbD 1, fstat := w 0x051
    tvec := w 0x100, epc := w 0x101, cause := w 0x102, tval := w 0x103, sscratch := w 0x104 }

/-- The thread as its context and the grant it now holds give it (R365, R368, R395): `img` saved, `now` running, `w` its saved
words, `h` the hts of its stack.  A code 18 still pending is region state (R357, R365); the handler's own words are checked by no span (R272). -/
def Thread.restored (img now : Thread) (regs : List Word) (w : Nat → Word) (h : BitVec 16) : Thread :=
  let t := img.withCregs w
  let t := { t with
    tid := now.tid, gang := now.gang, core := now.core, hearth := now.hearth, asid := now.asid, index := now.index
    stage := now.stage, coord := now.coord, phase := now.phase, halted := now.halted, pc := now.pc
    sregs := Vector.ofFn (fun (k : Fin 64) => if k.val = 0 then 0 else (regs[k.val - 1]?).getD 0)
    vcap := now.vcap, pts := later img.pts h, pend17 := now.pend17, pend18 := now.pend18 <|> img.pend18, stopAt := none, pfx := none
    inSpan := false, stale := now.stale, known := now.known, seen := img.seen.join now.seen
    fenced := match img.fenced, now.fenced with | some a, some b => some (a.join b) | none, b => b | a, none => a }
  let u := t.regrant now.grant now.attached
  let cl := Nat.min t.cl (u.cap (widthBits u.width))
  let u := { u.setLen cl (Nat.min t.rl 8) with vrun := u.vrun.cut (u.cap (widthBits u.width)) }
  let kind := bits u.xresume.toNat 62 56
  { u with xresume := if cl < t.cl ∧ (kind = 1 ∨ kind = 3) then 0 else u.xresume }

/-- Load `n` pieces of 64 bytes from `va`. -/
def State.loadRun (s : State) (va : Word) : Nat → Except Stop (List Byte × State)
  | 0 => .ok ([], s)
  | f + 1 => do
    let (bs, u) ← s.load [] (Acc.row .load 64) va
    let (r, u) ← u.loadRun (va + 64) f
    .ok (bs ++ r, u)

/-- Tiles as cells. -/
def cellsOf (bs : List Byte) : List Host.Cell := Memory.writeN [] 0 bs

/-- The thread state that a thread area's bytes from 0x1400 hold: an image this device saved, else a free value (entry 6). -/
def State.threadImage (s : State) (h : Nat) : Thread × State :=
  match assoc s.images h with
  | some t => (t, s)
  | none => let (n, u) := s.draw; (Config.foreignThread n, u)

/-- The gang state of a gang area likewise; operations of a foreign area take new identities. -/
def State.gangImage (s : State) (h : Nat) : (Gang × List EngineOp) × State :=
  match assoc s.gangImages h with
  | some g => (g, s)
  | none =>
    let (n, u) := s.draw
    let (g, ops) := Config.foreignGang n
    ((g, ops.zipIdx.map (fun (p : EngineOp × Nat) => { p.1 with id := u.nextId + p.2 })), { u with nextId := u.nextId + ops.length })

/-- The gang's state comes back: owner bits, tiles, buffers, barrier, tree slots, operations (R365, R367). -/
def State.restoreGang (s : State) (g : Gang) (sb : Word) : Except Stop State := do
  let (hb, u) ← s.load [] (Acc.row .load 8) (sb + BitVec.ofNat 64 gangHandleAt)
  let ((img, ops), u) := u.gangImage (leNat hb)
  let (ts, u) ← u.loadRun (sb + 0x10000) (g.tiles * 64)
  let back := ops.map (fun (o : EngineOp) =>
    { o with hearth := g.hearth, gang := g.gid, status := if o.status = .suspended then .running else o.status })
  .ok ({ u with ops := u.ops ++ back }.modGang g.gid (fun x =>
    { x with tileMem := cellsOf ts, tilePoison := img.tilePoison, owners := img.owners, buffers := img.buffers
             barGen := img.barGen, arrived := img.arrived, barSivs := img.barSivs, barKnown := img.barKnown, treeSlots := img.treeSlots, restored := true }))

/-- Operations of a gang whose abort was written while it was saved take effect (R363, R366). -/
def State.applyAborts (s : State) (g : Nat) : State :=
  ((s.gangOps g).filter (fun o => decide (o.status = .aborted))).foldl (fun s o => (s.dropOp o.id).endGang g o.id) s

/-- The FORMAT words of CRESTORE's two areas: both are read, then judged, then race checked (R24, R232, R395). -/
def State.formatWords (s : State) (sa sb : Word) : Except Stop State := do
  let a := Acc.row .load 8
  let (ta, u) ← s.resolveOp [] false a sa
  let (tb, u) ← u.resolveOp [] false a sb
  let (fa, u) ← u.readAt a ta sa
  let (fb, u) ← u.readAt a tb sb
  let judge := fun (va : Word) (bs : List Byte) => if leNat bs = contextFormat then .ok () else .error (Stop.of 14 va)
  u.counting (judge sa fa)
  u.counting (judge sb fb)
  let u ← u.raceAt a ta sa
  u.raceAt a tb sb

/-- CRESTORE (R367, R368, R395): the first one of a readmitted gang restores the gang's state. -/
def execCrestore (a b : BitVec 6) (s : State) : Result :=
  let i : Instr := .crestore a b
  let sa := s.rs a
  let sb := s.rs b
  let r : Except Stop State := do
    s.privSerial i
    alignCheck sa 65536
    alignCheck sb 65536
    s.consume [a, b]
    let u ← s.formatWords sa sb
    u.counting (if s.thr.grant < s.thr.vcap.toNat then .error (.vstate i) else .ok ())
    let (hb, u) ← u.load [] (Acc.row .load 8) (sa + BitVec.ofNat 64 threadHandleAt)
    let (img, u) := u.threadImage (leNat hb)
    let u ← match u.myGang with
      | some g => if g.restored then .ok u else u.restoreGang g sb
      | none => .ok u
    let (bs, u) ← u.loadRun sa 80
    let regs := (List.range 63).map (fun k => (BitVec.ofNat 64 (fieldAt bs (0x18 + 8 * k) 8) : Word))
    let w := fun (n : Nat) => (BitVec.ofNat 64 (fieldAt bs (0x400 + 8 * n) 8) : Word)
    let t := img.restored u.thr regs w (u.htsOf (stackOf u.thr.hearth))
    .ok (({ u with thr := t }.setPts t.pts).learn (u.knownOf img))
  match r with
  | .error e => finish i s (.error e)
  | .ok u =>
    match finish i s (.ok u) with
    | .next u => .next (u.applyAborts u.thr.gang)
    | x => x

/-! ## GANG_RESUME and GANG_READMISSION (R394) -/

/-- GANG_RESUME (R394, R420): `value` is the word written to RESUME.  A header that cannot be read is a mismatch (entry 43); one in a locked
block is read again later (R290). -/
def execGangResume (s : State) : Result :=
  let v := s.arg.value.toNat
  let refuse := { s with reports := s.reports + 1 }
  if ¬ s.bar0.ready then .next s
  else if v / 2 ^ 56 ≠ 0 ∨ bits v 15 10 ≠ 0 then .next { s with bar0 := { s.bar0 with werr := true } }
  else
    let area := v / 65536 * 65536
    match s.engineRead (v % 1024) noHearth false area 0x80 0 with
    | .error e =>
      .next (if e.cause = 0 then { (e.counted s).countRetry e.full with agenda := s.agenda ++ [(.gangResume, s.arg)] } else e.counted refuse)
    | .ok (bs, _, u) =>
      let refuse := { u with reports := u.reports + 1 }
      let lanes := fieldAt bs 0xC 1
      match u.gangs.find? (fun g => decide (g.phase = .saved) && decide (g.launch = fieldAt bs 0x10 8) && decide (g.gindex = fieldAt bs 0x20 8)) with
      | none => .next refuse
      | some g =>
        match u.launchOf g.launch with
        | none => .next refuse
        | some l =>
          if fieldAt bs 0 8 = contextFormat ∧ fieldAt bs 0x18 8 = l.linfo ∧ (lanes = 16 ∨ lanes = 32 ∨ lanes = 64 ∨ lanes = 128) then
            .next (u.modGang g.gid (fun g => { g with
              phase := .readmit, lanes := lanes, area := some (BitVec.ofNat 64 area)
              tareas := (List.range 8).map (fun k => (k, (BitVec.ofNat 64 (fieldAt bs (0x40 + 8 * k) 8) : Word))) }))
          else .next refuse

/-- A readmitted thread (R394). -/
def State.readmitThread (s : State) (g : Gang) (old : Thread) (core : Nat) (rpc tarea : Word) : Thread :=
  let t := s.startThread g core old.index rpc tarea none (s.knownOf old)
  { t with tid := old.tid, sregs := t.sregs.set 2 (g.area.getD 0), status := { t.status with priv := true, ae := false, inh := true } }

/-- The saved PCs of a gang's threads by index. -/
def State.savedPcs (s : State) (g : Gang) : Except EngineFault (List (Nat × Word) × State) :=
  ((s.gangThreads g.gid).filter (fun t => decide (t.phase = .saved))).foldlM (fun (acc : List (Nat × Word) × State) t => do
    let (bs, _, u) ← acc.2.engineRead g.asid.toNat noHearth false (((assoc g.tareas t.index).getD 0).toNat + 0x10) 8 0
    .ok (acc.1 ++ [(t.index, BitVec.ofNat 64 (leNat bs))], u)) ([], s)

/-- Those of every gang of a unit. -/
def State.unitPcs (s : State) (u : List Gang) : Except EngineFault (List (List (Nat × Word)) × State) :=
  u.foldlM (fun (acc : List (List (Nat × Word)) × State) g => do
    let (l, t) ← acc.2.savedPcs g
    .ok (acc.1 ++ [l], t)) ([], s)

/-- Readmit one gang to a hearth, which drops its copies of L lines (entry 68); an ended thread's lanes are its gang's (R100, R134, R394). -/
def State.readmitGang (s : State) (g : Gang) (pcs : List (Nat × Word)) (h : Nat) : State :=
  let e := match s.launchOf g.launch with | some l => s.energy l.eclass | none => 0
  let cores := s.freeCores h
  let g : Gang := { g with hearth := h, phase := .resident, since := s.nextId, reserve := e, restored := false, saving := false, migrate := none }
  let s := { s with nextId := s.nextId + 1 }.modGang g.gid (fun _ => g)
  (s.mapThreads (fun t => decide (t.gang = g.gid)) (fun t =>
    let c := (cores[t.index]?).getD 0
    if t.phase = .saved then s.readmitThread g t c ((assoc pcs t.index).getD 0) ((assoc g.tareas t.index).getD 0)
    else { t with hearth := h, core := c, grant := g.lanes, attached := 1#4 <<< stackOf h })).dropLeases h

/-- GANG_READMISSION (R138, R394): the chosen head is a saved or migrated gang, or a saved cohort.  A gang whose RPC cannot be read
is refused (entry 43); where a locked block holds an RPC, the choice comes again (R290). -/
def execGangReadmission (s : State) : Result :=
  match s.choose with
  | none => .next s
  | some (h, w) =>
    if h.q < resumeBase then .next s
    else
      match (s.gangOf (h.q - resumeBase)).bind (fun g => (s.launchOf g.launch).map (fun l => s.readmitUnit g l)) with
      | none => .next s
      | some u =>
        match s.unitPcs u with
        | .error e =>
          .next (if e.cause = 0 then (e.counted s).countRetry e.full
            else u.foldl (fun (s : State) g => s.modGang g.gid (fun g => { g with phase := .saved, migrate := none }))
              { e.counted s with reports := s.reports + 1 })
        | .ok (pcs, t) =>
          let s' := ((u.zip pcs).zip w).foldl (fun (s : State) (p : (Gang × List (Nat × Word)) × Nat) => s.readmitGang p.1.1 p.1.2 p.2) t
          .next { (s'.setQueue { s.queueOf h.q with age := 0 }) with served := assocSet s.served h.prio h.q }

end Sys2Proof.Machine
end

