-- ==== Sys2Proof/Machine/DeviceEvents.lean ====
section
/-! DEFINITION. The device's own events: the damper, clocks, the directory, evictions, the host, other devices, links, BAR0, reset,
power, cooling and soft errors (spec 08 R135 to R139, 15 R218 to R228, 20 R290, 26 R380 to R385, 28 R409, R413, 30 R418 to R426). -/

namespace Sys2Proof.Machine

open Sys2Proof

/-! ## The error ring (R385, R421) -/

/-- An error record written as the front-end writes. -/
def State.errorRecord (s : State) (addr unit kind source : Nat) : State := s.errorRecordBy State.physWrite addr unit kind source

/-- A record that names no address (entry 44). -/
def State.errorFree (s : State) (unit kind : Nat) (source : Option Nat) : State :=
  { s with free := s.free + 2 }.errorRecord (Config.recordField s.free % 2 ^ 64) unit kind
    (source.getD (Config.recordField (s.free + 1) % 2 ^ 16))

/-- SOURCE of a hearth (R362). -/
def sourceOf (hearth : Nat) : Nat := hearth / 32 + 4 * (hearth % 32)

/-- A flag of an event's argument; one not given is false. -/
def EventArg.flag (a : EventArg) (k : Nat) : Bool := (a.flags[k]?).getD false

/-- A number of an event's argument; one not given is 0. -/
def EventArg.nat (a : EventArg) (k : Nat) : Nat := (a.nums[k]?).getD 0

/-! ## Windows of the issue queue (R110, R139) -/

/-- WINDOW_ENTRY_STARVATION (R110, R139): a micro-operation of thread `who` has waited `num` cycles while `nums` are the threads that
hold an entry of its hearth's window each; past four entries of its own it receives the next free one of the 96. -/
def execWindowEntryStarvation (s : State) : Result :=
  match s.threads.find? (fun t => decide (t.tid = s.arg.who) && t.live) with
  | none => .next s
  | some t =>
    let now := s.arg.nums.map (fun k => (t.hearth, k))
    let mine := s.arg.nums.filter (fun k => decide (k = t.tid))
    if 256 ≤ s.arg.num ∧ 4 ≤ mine.length ∧ now.length < 96 then
      .next { s with window := s.window.filter (fun p => decide (p.1 ≠ t.hearth)) ++ now ++ [(t.hearth, t.tid)] }
    else .next s

/-! ## The damper (R135, R137, R138, R422, R426) -/

/-- The inlet factor in hundredths and the flow factor in two-hundredths (R426). -/
def State.inletFactor (s : State) : Nat := if 350 < s.inlet then (450 - s.inlet).toNat else 100
def State.flowFactor (s : State) : Nat := Nat.min s.flow 200

/-- Whether `k` times the budget in force is below `n` times `e` nanojoules. -/
def State.budgetBelow (s : State) (k n e : Nat) : Bool :=
  decide (k * (s.budget * 1000 * s.inletFactor * s.flowFactor) < n * e * 20000)

/-- Whether `n` times `e` nanojoules are below `k` times the budget in force. -/
def State.budgetAbove (s : State) (k n e : Nat) : Bool :=
  decide (n * e * 20000 < k * (s.budget * 1000 * s.inletFactor * s.flowFactor))

/-- The clock step of a hearth. -/
def State.stepAt (s : State) (h : Nat) : Nat := if p : h < 128 then s.clkstep[h].toNat else 0

/-- Step the hearths at the end of a window whose package meter is `pkg` nJ (R137). -/
def State.stepClocks (s : State) (pkg : Nat) : State :=
  let down := s.budgetBelow 1 1 pkg
  let up := s.budgetAbove 9 10 pkg
  let step := Vector.ofFn (fun (h : Fin 128) =>
    let c := s.clkstep[h]
    if down then (if s.budgetBelow 1 128 (s.arg.nat h.val) ∧ c.toNat < 5 then c + 1 else c)
    else if up ∧ c ≠ 0 then c - 1 else c)
  { s with clkstep := step
           hotWindows := Vector.ofFn (fun (h : Fin 128) => if step[h].toNat = 5 then s.hotWindows[h] + 1 else 0) }

/-- Whether a region is open on a hearth, against which only clock steps are allowed (R137, R369). -/
def State.regionOn (s : State) (h : Nat) : Bool := s.threads.any (fun t => t.npOpen && decide (t.hearth = h) && s.unended t)

/-- Whether a gang may be asked to migrate (R137, R138). -/
def State.mayMigrate (s : State) (g : Gang) : Bool :=
  let ts := s.gangThreads g.gid
  s.mayPreempt g && !s.regionOn g.hearth && ts.all (fun t => decide (t.nseg = 1) && decide (t.tvec ≠ 0) && decide (t.phase ≠ .haltWait))
    && !(match s.launchOf g.launch with | some l => l.cohort | none => false)
    && (placeAll (s.preferred.filter (fun h => decide (h ≠ g.hearth) && decide (s.stepAt h ≤ 1))) (readmitNeeds [g] none) 0
        ((List.range 128).map s.roomOn)).isSome

/-- Whether a hearth is hot enough to lose a gang (R138). -/
def State.hot (s : State) (h : Nat) : Bool :=
  (if p : h < 128 then decide (8 ≤ s.hotWindows[h]) else false) && s.budgetBelow 1 128 ((s.lastMeters[h]?).getD 0)

/-- The migration request of R138: of the gangs that qualify, the one resident longest.  A request is outstanding until it lapses or its gang is
resident again (entry 88). -/
def State.requestMigration (s : State) : State :=
  if s.gangs.any (fun g => g.migrate.isSome) then s
  else
    match (s.gangs.filter (fun g => s.hot g.hearth && s.mayMigrate g)).foldl (fun (b : Option Gang) g =>
        match b with | some c => if g.since < c.since then some g else b | none => some g) none with
    | none => s
    | some g => (s.modGang g.gid (fun g => { g with migrate := some s.ewin.toNat })).deliver17 g.gid 2 s.arg.addr

/-- DAMPER_WINDOW_END (R135, R137, R138, R422): `nums` are the hearths' energies of the window and `num` the package's, in nJ;
`flags[0]`: the damper asks for a migration, after position `addr` of the words the gang's threads run next.  EMETER moves at the window's
end only: the spec does not say when it moves within one (entry 81). -/
def execDamperWindowEnd (s : State) : Result :=
  let u := { s with
    ewin := s.ewin + 1
    lastMeters := (List.range 128).map s.arg.nat
    emeter := Vector.ofFn (fun (h : Fin 128) => s.emeter[h] + BitVec.ofNat 64 (s.arg.nat h.val)) }
  let u := u.stepClocks s.arg.num
  let u := if s.arg.flag 0 then u.requestMigration else u
  .next { u with budget := s.bar0.dbudget.toNat }

/-- MIGRATION_LAPSE (R138): the request of gang `who` has stood 8 windows without a save; a code 17 not yet taken is withdrawn. -/
def execMigrationLapse (s : State) : Result :=
  match s.gangOf s.arg.who with
  | none => .next s
  | some g =>
    match g.migrate with
    | none => .next s
    | some w =>
      if g.phase = .resident ∧ w + 8 ≤ s.ewin.toNat then
        .next ((s.modGang g.gid (fun g => { g with migrate := none })).mapThreads (fun t => decide (t.gang = g.gid))
          (fun t => if t.pend17 = some 2 then { t with pend17 := none } else t))
      else .next s

/-! ## Logical clocks (R219, R222) -/

/-- PTS_TICK (R219, R222): the clock of thread `who` advances, and its hearth drops the copies it leaves 2^14 ticks behind. -/
def execPtsTick (s : State) : Result :=
  let hit := fun (t : Thread) => decide (t.tid = s.arg.who) && t.live
  .next ((s.threads.filter hit).foldl (fun s t => s.dropAged t.hearth t.tid (t.pts + 1))
    (s.mapThreads hit (fun t => { t with pts := t.pts + 1 })))

/-- HTS_TICK (R219): the clock of home stack `who` advances. -/
def execHtsTick (s : State) : Result := .next (s.setHts s.arg.who (s.htsOf s.arg.who + 1))

/-- HOME_EXPIRE_SWEEP (R222): home `who` applies ExpireOld to its L lines. -/
def execHomeExpireSweep (s : State) : Result := .next (s.sweepHome s.arg.who)

/-- The line an event names: `addr`, a column line of width `num` where `flags[0]` is set. -/
def EventArg.line (a : EventArg) : LineId := lineOf a.addr (a.flag 0) (if a.num = 0 then 1 else a.num)

/-- L1_LEASE_DROP (R222): hearth `who` drops its L copy of a line. -/
def execL1LeaseDrop (s : State) : Result :=
  .next { s with l1 := s.l1.filter (fun l => !(decide (l.hearth = s.arg.who) && decide (l.treat = 1) && decide (l.id = s.arg.line))) }

/-! ## The directory and compressed blocks (R218, R290) -/

/-- Ranges as an event lists them: home, base, stride, count, width. -/
def rangesOf : Nat → List Nat → List (Nat × Range)
  | 0, _ => []
  | f + 1, h :: b :: st :: c :: w :: r => (h, ⟨b, st, c, w⟩) :: rangesOf f r
  | _, _ => []

/-- RANGE_REQUEST_RETRY (R218): thread `who` retries its request next; `nums` are the ranges then in transition. -/
def execRangeRequestRetry (s : State) : Result :=
  .next { s with moving := rangesOf s.arg.nums.length s.arg.nums, turns := s.arg.who :: s.turns }

/-- RESERVATION_SERVE (R218): the reserved request of thread `who` is granted once its range is out of transition and every range that conflicts
is recalled, and its reservation is released. -/
def execReservationServe (s : State) : Result :=
  match s.requests.find? (fun q => decide (q.thread = s.arg.who) && q.reserved) with
  | none => .next s
  | some q =>
    if s.moving.any (fun m => m.2.overlaps q.range) then .next s
    else if s.recallStuck q.range.norm q.hearth q.excl then .next (s.recall q.range.norm q.hearth q.excl)
    else
      let u := s.grantRange q.range q.home ⟨q.hearth, q.thread, q.value⟩ q.excl
      .next { u with turns := s.arg.who :: s.turns }

/-- Pairs as an event lists them. -/
def pairsOf : Nat → List Nat → List (Nat × Nat)
  | 0, _ => []
  | f + 1, a :: b :: r => (a, b) :: pairsOf f r
  | _, _ => []

/-- COMPRESSED_BLOCK_RETRY (R290): thread `who` retries; `nums` are the blocks then locked, each a home and a block. -/
def execCompressedBlockRetry (s : State) : Result :=
  .next { s with czPending := pairsOf s.arg.nums.length s.arg.nums, turns := s.arg.who :: s.turns }

/-! ## Evictions and the host (R225, R228, R382) -/

/-- L1_EVICTION (R225): hearth `who` evicts a line; a retained one only where it holds no other (R29). -/
def execL1Eviction (s : State) : Result :=
  let mine := s.l1.filter (fun l => decide (l.hearth = s.arg.who))
  .next ((mine.filter (fun l => decide (l.id = s.arg.line) && (!l.retain || mine.all (·.retain)))).foldl State.evict s)

/-- HOST_OWNERSHIP_TAKE (R228): the host takes the half at `addr`. -/
def execHostOwnershipTake (s : State) : Result :=
  if s.arg.addr < bondedEnd then .next (s.takeHalf true (s.arg.addr / 64 * 64)) else .next s

/-- HOST_STORE (R122, R123, R228, R412): the host writes `bytes` at `addr` of device memory, which is
bonded DRAM: a store with a byte above it does nothing (entry 96). -/
def execHostStore (s : State) : Result :=
  let a := s.arg.addr
  let bs := s.arg.bytes
  if bs = [] ∨ bondedEnd < a + bs.length then .next s
  else .next (s.outsideWrite true a bs).seeQueues

/-- Physical address of the leaf that maps `va`. -/
def leafAddr (m : List Host.Cell) (va : Nat) : Nat → Nat → Nat → Option Nat
  | 0, _, _ => none
  | fuel + 1, level, table =>
    let a := table + 16 * levelIndex level va
    let w0 := Memory.num m a 8
    if bits w0 2 1 = 1 then some a else leafAddr m va fuel (level + 1) (w0 / 2 ^ 12 % 2 ^ 40 * 4096)

/-- Whether a name is in a page. -/
def State.inPage (s : State) (l : Leaf) (y : Nat) : Bool :=
  let x := s.ident l l.base
  decide (x ≤ y) && decide (y < x + l.size)

/-- Write back every dirty byte of a page from every L1, then from the L2s (R382). -/
def State.cleanPage (s : State) (l : Leaf) : State :=
  let mine := s.inPage l
  let s := s.l1.foldl (fun s k =>
    match s.held k.hearth k.slot k.id with
    | some k => s.writeBack k mine
    | none => s) s
  s.cleanL2 (fun k => (List.range 128).any (fun j => mine (k.id.byteAt j)))

/-- Flip the bias of the page of `addr` in ASID `who` (R382): the leaf takes the bit, and the translations of its frame are fetched
anew.  A flip to host bias that cannot write back every dirty byte, for a locked block (R290) or for an overflow (R291), begins later, behind the
other events. -/
def State.flipBias (s : State) (host : Bool) : State :=
  match s.asidEntry s.arg.who, s.walk s.arg.who s.arg.addr with
  | some (root, _), .ok l =>
    match leafAddr s.view s.arg.addr 5 0 root with
    | none => s
    | some a =>
      if l.bias = host ∨ (host ∧ bondedEnd ≤ l.frame) then s
      else
        let u := if host then s.cleanPage l else s
        if host ∧ u.l1.any (fun k => decide (k.dirtyNames (u.inPage l) ≠ [])) then { u with agenda := u.agenda ++ [(.biasFlipToHost, s.arg)] }
        else
        let w := if host then l.w1 ||| 4 else l.w1 &&& ~~~4
        (u.physWrite (a + 8) (leBytes 8 w.toNat)).dropTlb (fun e => decide ((⟨e.base, e.size, e.level, e.w0, e.w1⟩ : Leaf).frame = l.frame))
          (fun _ => false)
  | _, _ => s

/-- BIAS_FLIP_TO_HOST (R382). -/
def execBiasFlipToHost (s : State) : Result := .next (s.flipBias true)

/-- BIAS_FLIP_TO_DEVICE (R382): the host has given up every line of the page. -/
def execBiasFlipToDevice (s : State) : Result := .next (s.flipBias false)

/-! ## Other devices (R409) -/

/-- New value of a remote atomic (R264): operation, operand, comparand. -/
def remoteAtomic (op n old x c : Nat) : Option Nat :=
  match op with
  | 0 => some ((old + x) % 2 ^ n)
  | 1 => some x
  | 2 => some (Nat.land old x)
  | 3 => some (Nat.lor old x)
  | 4 => some (Nat.xor old x)
  | 5 => some (amoMin n old x)
  | 6 => some (amoMax n old x)
  | _ => if old = c then some x else none

/-- The name of a remote request's first byte: of a compressed page where `nums[4]` gives its ALLOC + 1, `addr` its header and `nums[5]` the
offset in the page. -/
def EventArg.remoteRun (a : EventArg) : Run :=
  if a.nat 4 = 0 then ⟨a.addr, a.nat 1, 0⟩ else ⟨cmpBase + 16 * a.addr + a.nat 5, a.nat 1, a.nat 4 - 1⟩

/-- A store of another device to bytes of this one, or none where a compressed block does not take it (R291, R409). -/
def State.remoteWrite (s : State) (r : Run) (id : LineId) (via : Option LineId) (lease : Bool) (bs : List Byte) (clk : BitVec 16) : Option (BitVec 16 × State) :=
  let xs := (List.range bs.length).map (r.x + ·)
  (s.homePut r.slot r.alloc via (names r.x bs)).map (fun u =>
    let u := u.missWrite 0 xs L1Line.holds
    if lease then u.leaseStore id xs clk else (clk, u))

/-- REMOTE_REQUEST (R215, R220, R221, R223, R409): another device's access to `addr` here.  `num`: 0 a load, 1 a store, 2 to 9 an atomic
of R264 in its order, 10 a store of another device to its own memory at name `addr`; `bytes`: what is stored, or the atomic's operand,
then, for CAS, the comparand; `nums`: treatment (1 L, 2 S, 3 U), key slot, column width or 0, bytes of a load, ALLOC + 1 and offset for a
compressed page; `value`: the requester's clock in bits 15:0 and its TICKS in bits 23:16; `flags[0]`: a release.  What the requester
receives is no state of this device.  A request to a locked block waits behind the other events (R290). -/
def execRemoteRequest (s : State) : Result :=
  let a := s.arg
  let r := a.remoteRun
  let treat := a.nat 0
  let id := lineOf r.x (decide (a.nat 2 ≠ 0)) (if a.nat 2 = 0 then 1 else a.nat 2)
  let clk : BitVec 16 := a.value.setWidth 16
  let via := if treat = 3 then none else some id
  let n := if a.num = 0 then a.nat 3 else if a.num = 9 then a.bytes.length / 2 else a.bytes.length
  if a.num = 10 then .next (if 2 ^ 52 ≤ a.addr ∧ a.addr < cmpBase then s.outsideWrite false a.addr a.bytes else s)
  else if treat = 0 ∨ 3 < treat ∨ 9 < a.num ∨ n = 0 ∨ ¬ backed (homeKey r.x) n ∨ (r.slot ≠ 0 ∧ (s.keyOf r.slot).isNone) then .next s
  else match s.namesBusy [r.x] with
  | some h => .next { s.countRetry h with agenda := s.agenda ++ [(.remoteRequest, a)] }
  | none =>
  if a.num = 0 then .next ((if treat = 1 then (s.leaseLoad id (bits a.value.toNat 23 16) clk).2 else s).reach r via)
  else
    let old := leNat (s.homeGet r n)
    let v := if a.num = 1 then some (leNat a.bytes)
      else remoteAtomic (a.num - 2) (8 * n) old (leNat (a.bytes.take n)) (leNat (a.bytes.drop n))
    match v with
    | none => .next ((if treat = 1 then (s.homeLoadClock id clk).2 else s).reach r via)
    | some v =>
      let atom := decide (a.num ≠ 1)
      let before := if atom then relsOf s.releases r.x n else []
      match s.remoteWrite r id via (decide (treat = 1)) (leBytes n v) clk with
      | none => .next (s.countOverflow r.x)
      | some (t, u) =>
        let own := Release.of r.x n before t u.allWrites
        let ms := if a.flag 0 then [own] else keptMarks r.x n before t none
        .next { u with releases := if atom then marksOver r.x n ms u.releases else plainOver r.x n (if a.flag 0 then some own else none) u.releases }

/-! ## Links (R384, R385) -/

/-- Error unit and number of a link: Aeloa links 0 to 15, then CXL ports from 16. -/
def linkUnit (k : Nat) : Nat × Nat := if k < 16 then (7, k) else (8, k - 16)

/-- LINK_CRC_FAIL (R384, R385): link `who` replays a flit and every later one of its channel; `flags[0]`: the flit was a replay, so one more replay
in a row has failed.  A first failure begins the count anew. -/
def execLinkCrcFail (s : State) : Result :=
  let (unit, n) := linkUnit s.arg.who
  let fails := match assoc s.linkFails s.arg.who with | some k => if s.arg.flag 0 then k + 1 else 0 | none => 0
  .next ({ s with linkFails := assocSet s.linkFails s.arg.who fails }.errorFree unit 2 (some (n % 256 * 4)))

/-- LINK_RETRAIN (R384, R385): link `who` has failed 8 replays; `flags[0]`: it comes back.  If it does not, `nums` are the devices, or
1024 + the pool port, that it cut off, and `parts` the threads a store of which was lost with it, each with the bytes of the store's address.  What the
L2s hold of the memory cut off is lost. -/
def execLinkRetrain (s : State) : Result :=
  let k := s.arg.who
  let (unit, n) := linkUnit k
  if (assoc s.linkFails k).getD 0 < 8 then .next s
  else
    let u := { s with linkFails := s.linkFails.filter (fun p => decide (p.1 ≠ k)) }.errorFree unit 3 (some (n % 256 * 4))
    if s.arg.flag 0 then .next u
    else
      let u := u.errorFree unit 4 (some (n % 256 * 4))
      let lost := (s.arg.parts.map (fun p => s.arg.nums.map (fun d => (p.1, d)))).flatten
      let u := { u with linksDown := u.linksDown ++ s.arg.nums, lost := u.lost ++ lost }
      let u := s.arg.parts.foldl (fun (u : State) p => u.errorRecord (leNat p.2) unit 4 (n % 256 * 4)) u
      .next { u with l2 := u.l2.filter (fun l => !u.linkLost l.pa) }

/-! ## BAR0 (R381, R420 to R422) -/

/-- A write that is ignored. -/
def State.badWrite (s : State) : State := { s with bar0 := { s.bar0 with werr := true } }

/-- DEVSTAT_WRITE (R420): `value` is the word written. -/
def execDevstatWrite (s : State) : Result :=
  .next (if s.arg.value.getLsbD 3 then { s with bar0 := { s.bar0 with werr := false } } else s)

/-- EMBCTL_WRITE (R381, R420): controller `who`, 16 per stack, then pool port p at 64 + p. -/
def execEmbctlWrite (s : State) : Result :=
  let v := s.arg.value
  if ¬ s.bar0.ready ∨ 72 ≤ s.arg.who then .next s
  else if v.toNat / 64 ≠ 0 ∨ 20 < v.toNat % 32 then .next s.badWrite
  else .next { s with embctl := assocSet s.embctl s.arg.who v, samples := assocSet s.samples s.arg.who 0 }

/-- Whether a size of a ring may be written (R420). -/
def ringSizeOk (v : Nat) : Bool := (List.range 15).any (fun k => decide (v = 2 ^ (k + 6)))

/-- The registers with a row of their own in the table of events. -/
def ownRow (o : Nat) : Bool :=
  decide (o = 0) || decide (o = 0x20) || decide (o = 0x28) || decide (o = 0x200)
    || (decide (0x100000 ≤ o) && decide (o < 0x140000) && decide (o % 8 = 0) && decide (0x100 ≤ o % 0x10000) && decide (o % 0x10000 < 0x180))
    || (decide (0x180100 ≤ o) && decide (o < 0x180140) && decide (o % 8 = 0))

/-- BAR0 after a write of `v` at offset `o`; none where the write is ignored and sets WERR (R420). -/
def Bar0.write (b : Bar0) (o : Nat) (v : Word) : Option Bar0 :=
  let page := v.toNat % 4096 = 0
  let soot := v.toNat % 2 ^ 21 = 0
  let dec := fun (k : Fin 4) => if 1 ≤ v.toNat ∧ v.toNat ≤ 240000 then some { b with dec := b.dec.set k v } else none
  match o with
  | 0x08 => if page then some { b with qtbase := v } else none
  | 0x10 => if page then some { b with asidbase := v } else none
  | 0x18 => if v.toNat % 16 = 0 then some { b with cgbase := v } else none
  | 0x40 => if page then some { b with frbase := v } else none
  | 0x48 => if ringSizeOk v.toNat then some { b with frsize := v } else none
  | 0x50 => some { b with frhead := v }
  | 0x60 => if page then some { b with erbase := v } else none
  | 0x68 => if ringSizeOk v.toNat then some { b with ersize := v } else none
  | 0x70 => some { b with erhead := v }
  | 0x90 => if soot then some { b with sootbase := v } else none
  | 0x98 => if soot then some { b with sootlo := v } else none
  | 0xA0 => if soot then some { b with sootlen := v } else none
  | 0x100 => if 1000 ≤ v.toNat ∧ v.toNat ≤ 240000 then some { b with dbudget := v } else none
  | 0x108 => if v.toNat < 2 ^ 32 then some { b with dadmit := v } else none
  | 0x110 => dec 0
  | 0x118 => dec 1
  | 0x120 => dec 2
  | 0x128 => dec 3
  | _ => none

/-- REGISTER_WRITE (R418, R420): `addr` is the offset, `value` the word. -/
def execRegisterWrite (s : State) : Result :=
  if ¬ s.bar0.ready ∨ ownRow s.arg.addr then .next s
  else
    match s.bar0.write s.arg.addr s.arg.value with
    | none => .next s.badWrite
    | some b => .next { s with bar0 := b }

/-- IDLE of DEVSTAT: no gang resident (R420). -/
def State.idle (s : State) : Bool := s.gangs.all (fun g => decide (g.phase ≠ .resident))

/-! ## What a read of BAR0 returns (R418, R420, R423) -/

/-- DEVSTAT (R420). -/
def State.devstat (s : State) : Nat :=
  (if s.bar0.ready then 1 else 0) + (if s.idle then 2 else 0) + (if s.bar0.therm then 4 else 0) + (if s.bar0.werr then 8 else 0)
    + 16 * (s.bar0.fwerr % 16)

/-- A capability record (R423). -/
structure Capability where
  id : Nat
  version : Nat
  data : Nat
  deriving DecidableEq, Repr

/-- The records of the part in list order (R423). -/
def capabilities : List Capability := [⟨1, 1, 4 + 32 * 2 ^ 8 + 128 * 2 ^ 16⟩, ⟨2, 1, 384⟩, ⟨3, 1, 16⟩, ⟨4, 1, 8⟩, ⟨5, 1, 63⟩]

/-- Where the list begins; the records follow one another (R420, entry 79). -/
def capList : Nat := 0x1000

/-- A half of the capability list's record `k`: ID, VERSION and NEXT, or DATA (R423). -/
def capWord (k : Nat) (high : Bool) : Option Nat :=
  (capabilities[k]?).map (fun c =>
    if high then c.data else c.id + c.version * 2 ^ 16 + (if k + 1 < capabilities.length then (capList + 16 * (k + 1)) * 2 ^ 32 else 0))

/-- What the host reads at offset `o`: a register marked W reads zero; none where the spec names no register, or while READY is 0 any but
DEVSTAT and the capability list (R418, R420). -/
def State.barRead (s : State) (o : Nat) : Option Nat :=
  let b := s.bar0
  if o = 0 then some s.devstat
  else if capList ≤ o ∧ o < capList + 16 * capabilities.length then
    (if o % 8 = 0 then capWord ((o - capList) / 16) (decide (o % 16 = 8)) else none)
  else if ¬ b.ready then none
  else if 0x100000 ≤ o ∧ o < 0x140000 then
    let k := (o - 0x100000) / 0x10000
    let at' := o % 0x10000
    if p : k < 4 then
      (match at' with
       | 0x00 => some s.czraw[k].toNat
       | 0x08 => some s.czretry[k].toNat
       | 0x10 => some s.czovf[k].toNat
       | _ => if 0x100 ≤ at' ∧ at' < 0x180 ∧ at' % 8 = 0 then some (s.embctlOf (16 * k + (at' - 0x100) / 8)).toNat else none)
    else none
  else if 0x180100 ≤ o ∧ o < 0x180140 ∧ o % 8 = 0 then some (s.embctlOf (64 + (o - 0x180100) / 8)).toNat
  else
    match o with
    | 0x08 => some b.qtbase.toNat
    | 0x10 => some b.asidbase.toNat
    | 0x18 => some b.cgbase.toNat
    | 0x20 | 0x28 | 0x200 => some 0
    | 0x40 => some b.frbase.toNat
    | 0x48 => some b.frsize.toNat
    | 0x50 => some b.frhead.toNat
    | 0x58 => some b.frtail.toNat
    | 0x60 => some b.erbase.toNat
    | 0x68 => some b.ersize.toNat
    | 0x70 => some b.erhead.toNat
    | 0x78 => some b.ertail.toNat
    | 0x80 => some b.erdrop.toNat
    | 0x90 => some b.sootbase.toNat
    | 0x98 => some b.sootlo.toNat
    | 0xA0 => some b.sootlen.toNat
    | 0x100 => some b.dbudget.toNat
    | 0x108 => some b.dadmit.toNat
    | 0x110 => some b.dec[0].toNat
    | 0x118 => some b.dec[1].toNat
    | 0x120 => some b.dec[2].toNat
    | 0x128 => some b.dec[3].toNat
    | _ => none

/-! ## Reset, keys, attestation and power (R418, R424, R425) -/

/-- The step of R418 that fails, 0 if none: `flags` say that the image could not be read, that its Ed25519 signature fails, that its
ML-DSA-65 signature fails, that training fails, that clearing fails; `num` is its rollback index. -/
def State.failingStep (s : State) : Nat :=
  let a := s.arg
  if a.flag 0 then 1 else if a.flag 1 || a.flag 2 || decide (a.num < s.fused) then 2 else if a.flag 3 then 3 else if a.flag 4 then 4 else 0

/-- The device after a reset (R418): DRAM keeps its bytes, and what stands outside the device stays as it is; `value` is the DEVNUM that
firmware writes in step 3.  The image that runs is a new one. -/
def State.deviceReset (s : State) : State :=
  let f := s.failingStep
  { State.reset with
    mem := s.mem, poison := s.poison, sectorKeys := s.sectorKeys, keySlots := if f = 0 then [] else s.keySlots
    devnum := if f = 0 ∨ f = 4 then s.arg.value.setWidth 10 else s.devnum
    image := if f = 0 then s.nextId else s.image, rollback := if f = 0 then s.arg.num else s.rollback
    linksDown := s.linksDown, extents := s.extents, reports := s.reports, inlet := s.inlet, flow := s.flow, fused := s.fused
    agenda := s.agenda, arg := s.arg, free := s.free, nextId := s.nextId + 1
    bar0 := { Bar0.reset with ready := decide (f = 0), fwerr := f, therm := decide (350 < s.inlet) || decide (s.flow < 200) } }

/-- DEVICE_RESET (R418). -/
def execDeviceReset (s : State) : Result := .next s.deviceReset

/-- KEY_SLOT_LOAD (R380, R424): slot `who` takes the key `wide`. -/
def execKeySlotLoad (s : State) : Result :=
  if ¬ s.bar0.ready ∨ s.arg.who = 0 ∨ 63 < s.arg.who then .next s
  else .next { s with keySlots := assocSet s.keySlots s.arg.who s.arg.wide }

/-- ATTESTATION_REQUEST (R420, R424): `value` is the word written to ATTEST. -/
def execAttestationRequest (s : State) : Result :=
  if ¬ s.bar0.ready then .next s
  else if s.arg.value.toNat % 64 ≠ 0 then .next s.badWrite
  else .next { s with attests := s.attests ++ [s.arg.value] }

/-- What a report holds before its signatures (R424): the digest and the rollback index of the firmware that runs, the device's identity,
the nonce.  Digest and identity are free values, one for each image and one for the device (entry 12). -/
def State.reportHead (s : State) (nonce : List Byte) : List Byte :=
  (List.range 48).map (Config.digestByte s.image) ++ leBytes 8 s.rollback ++ (List.range 32).map Config.identityByte ++ nonce

/-- ATTESTATION_REPORT (R424, entry 12): the oldest request is answered; both signatures are free. -/
def execAttestationReport (s : State) : Result :=
  match s.attests with
  | [] => .next s
  | r :: rest =>
    if ¬ backed r.toNat 40 then .fault (.unbackedAddress r.toNat)
    else
      let dest := s.physNum (r.toNat + 32) 8
      let bs := s.reportHead (s.physRead r.toNat 32) ++ (List.range (64 + 3309)).map (Config.attestByte s.free)
      if ¬ backed dest bs.length then .fault (.unbackedAddress dest)
      else .next { s.physWrite dest bs with attests := rest, free := s.free + 1 }

/-- D3HOT_REQUEST (R425). -/
def execD3hotRequest (s : State) : Result :=
  if s.bar0.ready ∧ s.dstate = 0 then .next { s with d3req := true } else .next s

/-- D3HOT_ENTRY (R425). -/
def execD3hotEntry (s : State) : Result :=
  if s.d3req ∧ s.idle then .next { s with d3req := false, dstate := 1 } else .next s

/-- D3COLD_ENTRY (R425): the device loses its supply, and with it everything it held. -/
def execD3coldEntry (s : State) : Result :=
  .next { State.reset with
    dstate := 2, bar0 := { Bar0.reset with ready := false }, linksDown := s.linksDown, extents := s.extents, inlet := s.inlet
    flow := s.flow, fused := s.fused, agenda := s.agenda, arg := s.arg, free := s.free, nextId := s.nextId }

/-- DYNAMIC_CAPACITY_EXTENT_CHANGE (R413, R414): an extent of port `who` at `addr` within its window, `num` bytes; `flags[0]`: added. -/
def execDynamicCapacityExtentChange (s : State) : Result :=
  let e := (s.arg.who, s.arg.addr, s.arg.num)
  if s.arg.flag 0 then
    if s.arg.who < 8 ∧ 0 < s.arg.num ∧ s.arg.addr + s.arg.num ≤ 2 ^ 48
        ∧ (s.extents.filter (fun x => decide (x.1 = s.arg.who))).length < 256 then
      .next { s with extents := s.extents ++ [e] }
    else .next s
  else .next { s with extents := s.extents.filter (fun x => decide (x ≠ e)) }

/-! ## Cooling (R426) -/

/-- THERM follows the limits that scale the budget. -/
def State.withTherm (s : State) : State :=
  { s with bar0 := { s.bar0 with therm := decide (350 < s.inlet) || decide (s.flow < 200) } }

/-- INLET_TEMPERATURE_CHANGE (R426): the inlet is at `temp` tenths of a degree; a reset that follows takes the event's other fields. -/
def execInletTemperatureChange (s : State) : Result :=
  let u := { s with inlet := s.arg.temp }.withTherm
  let u := if decide (s.inlet < 150) != decide (s.arg.temp < 150) then u.errorFree 9 5 none else u
  .next (if 450 < s.arg.temp then (u.errorFree 9 5 none).deviceReset else u)

/-- COOLANT_FLOW_CHANGE (R426): the flow is `num` hundredths of a litre a minute. -/
def execCoolantFlowChange (s : State) : Result :=
  let u := { s with flow := s.arg.num }.withTherm
  .next (if decide (s.flow < 200) != decide (s.arg.num < 200) then u.errorFree 9 5 none else u)

/-- LOW_FLOW_TIMEOUT (R426): the flow has been below 1.0 L/min for more than 1 s. -/
def execLowFlowTimeout (s : State) : Result :=
  if s.flow < 100 then .next (s.errorFree 9 5 none).deviceReset else .next s

/-! ## Errors of memory and arrays (R383, R385) -/

/-- Log an error: corrected, or poisoned where `flags[0]` is set. -/
def State.logError (s : State) (addr unit source : Nat) (poisoned : Bool) : State :=
  s.errorRecord addr unit (if poisoned then 1 else 0) source

/-- SOFT_ERROR (R383, R385): an error of unit `num` (R385), uncorrectable where `flags[0]` is set.  `addr`: physical address, tile offset
or register number; `who`: the hearth of an L1 or a TLB, the stack of an L2, the gang of a scratchpad, the thread of registers or cells; `nums`: the tile
bytes, or row and 128-bit group of a vector register (`flags[1]`), or row and 128-column group of a mask register (`flags[2]`), that it hit.  A
clean copy is fetched anew and counts as corrected; dirty bytes of an L1 are poisoned where they stand, those of an L2 at their home. -/
def execSoftError (s : State) : Result :=
  let a := s.arg
  let bad := a.flag 0
  let poisonUnit := fun (s : State) (x : Nat) => { s with poison := (homeKey x / 64) :: s.poison.filter (· ≠ homeKey x / 64) }
  match a.num with
  | 0 => .next ((if bad then poisonUnit s a.addr else s).logError a.addr 0 (homeStack a.addr) bad)
  | 1 =>
    let hit := s.l2.filter (fun l => decide (l.stack = a.who) && (l.id.index a.addr).isSome)
    if hit.any (·.dirty) then .next ((if bad then poisonUnit s a.addr else s).logError a.addr 1 (a.who % 4) bad)
    else
      let u := hit.foldl (fun (s : State) l =>
        if l.stack = homeId l.pa ∨ ¬ s.inL2 (homeId l.pa) l.id then s.request (homeKey l.pa) else s) s
      .next (u.logError a.addr 1 (a.who % 4) false)
  | 2 =>
    let hit := s.l1.filter (fun l => decide (l.hearth = a.who) && (l.at? a.addr).isSome)
    match hit.find? (fun l => (s.dirtyByte a.who l.slot a.addr).isSome) with
    | some l => .next ((if bad then s.poisonCopies a.who l.slot [a.addr] else s).logError a.addr 2 (sourceOf a.who) bad)
    | none => .next ((hit.foldl (fun s l => (s.fill l l.rts).getD s) s).logError a.addr 2 (sourceOf a.who) false)
  | 3 =>
    match s.gangOf a.who with
    | none => .next s
    | some g =>
      let u := if bad then s.modGang g.gid (fun g => { g with tilePoison := a.nums ++ g.tilePoison }) else s
      .next (u.logError a.addr 3 (sourceOf g.hearth) bad)
  | 4 =>
    match s.threads.find? (fun t => decide (t.tid = a.who) && decide (t.phase ≠ .absent)) with
    | none => .next s
    | some t =>
      let hit := fun (t : Thread) =>
        if ¬ bad then t
        else if a.flag 1 then { t with poisonV := (a.addr % 32, a.nat 0 % 8, a.nat 1) :: t.poisonV }
        else if a.flag 2 then (if a.addr % 16 = 0 then t else { t with poisonV := (maskMark (a.addr % 16), a.nat 0 % 8, a.nat 1) :: t.poisonV })
        else if a.addr = 0 then t else { t with poisonS := a.addr % 64 :: t.poisonS }
      .next ((s.mapThreads (fun t => decide (t.tid = a.who)) hit).logError a.addr 4 (sourceOf t.hearth) bad)
  | 5 =>
    match s.threads.find? (fun t => decide (t.tid = a.who) && decide (t.phase ≠ .absent)) with
    | none => .next s
    | some t =>
      let u := if bad then s.mapThreads (fun t => decide (t.tid = a.who)) (fun t => { t with poisonV := (arrayMark, 0, 0) :: t.poisonV }) else s
      .next (u.logError a.addr 5 (sourceOf t.hearth) bad)
  | 6 => .next ((s.dropTlb (fun e => decide (e.base ≤ a.addr) && decide (a.addr < e.base + e.size)) (fun e => e.covers e.asid.toNat a.addr)).logError a.addr 6 (sourceOf a.who) false)
  | _ => .next s

end Sys2Proof.Machine
end

