-- ==== Sys2Proof/Machine/Lanes.lean ====
section
/-! DEFINITION. CLAIM, SPCLAIM, SPQRY and SETL (spec 07 R101 to R105, 11 R160, R161, 28 R400 to R404, R407). -/

namespace Sys2Proof.Machine

open Sys2Proof

/-- av(k) of R401: free lanes of the partner hearth and the lanes this thread holds there. -/
def State.avail (s : State) (k : Nat) : Nat := s.freeLanes (s.partner k) + s.thr.lanesOn (s.partner k)

/-- Stacks of a wanted set with at least `g` lanes (R401). -/
def State.offering (s : State) (w : BitVec 4) (g : Nat) : List Nat :=
  (List.range 4).filter (fun k => w.getLsbD k && decide (g ≤ s.avail k))

/-- A set of stacks as bits. -/
def stackBits (l : List Nat) : BitVec 4 := l.foldl (fun a k => a ||| (1#4 <<< k)) 0

/-- The claim of R401 with request `q` over the wanted stacks: greatest |S(g)| x g, the larger g first, among the grants that the own stack,
which stays attached, offers (R400). -/
def State.claim (s : State) (q : Nat) (w : BitVec 4) : State :=
  let q1 := lanePower (Nat.min (Nat.max q 16) s.thr.vcap.toNat)
  let w := w ||| (1#4 <<< stackOf s.thr.hearth)
  let cands := [128, 64, 32, 16].filter (fun g => decide (g ≤ q1) && decide (g ≤ s.avail (stackOf s.thr.hearth)))
  let best := cands.foldl (fun (b : Option Nat) g =>
    match b with
    | none => some g
    | some h => if (s.offering w h).length * h < (s.offering w g).length * g then some g else some h) none
  let g := best.getD 16
  let t := s.thr.regrant g (stackBits (s.offering w g))
  { s with thr := { t with demand := if g < q1 then q1 else 0 } }

/-- CLAIM (R101, R160, R401): SPCLAIM over the attached set; sd receives the grant. -/
def execClaim (d a : BitVec 6) (s : State) : Result :=
  let i : Instr := .claim d a
  finish i s (do
    s.serial i
    s.consume [a]
    let t := s.claim (s.rs a).toNat s.thr.attached
    .ok (t.ws d (BitVec.ofNat 64 t.thr.grant)))

/-- SPCLAIM (R401). -/
def execSpclaim (d a : BitVec 6) (s : State) : Result :=
  let i : Instr := .spclaim d a
  finish i s (do
    s.serial i
    s.consume [a]
    let v := (s.rs a).toNat
    if v / 2 ^ 12 ≠ 0 then .error (.limit (s.rs a))
    else
      let t := s.claim (bits v 7 0) (BitVec.ofNat 4 (bits v 11 8))
      .ok (t.ws d t.thr.span))

/-- SPQRY (R404). -/
def execSpqry (d : BitVec 6) (s : State) : Result :=
  let i : Instr := .spqry d
  finish i s (do
    s.serial i
    .ok (s.ws d (BitVec.ofNat 64 (s.avail 0 + 2 ^ 8 * s.avail 1 + 2 ^ 16 * s.avail 2 + 2 ^ 24 * s.avail 3))))

/-- A thread's first SETL sets VLIVE and zeroes v0 to v31 (R21). -/
def Thread.goLive (t : Thread) : Thread :=
  if t.status.vlive then t
  else { t with status := { t.status with vlive := true }, vrows := Vector.replicate 256 0, poisonV := t.poisonV.filter (fun p => decide (32 ≤ p.1)) }

/-- SETL at a width code after the renegotiation (R105, R161). -/
def setLengths (s : State) (code : Nat) (d a b : BitVec 6) : State :=
  let n := (s.rs a).toNat
  let m := (s.rs b).toNat
  let t := s.thr.goLive
  let t := { t.setLen (Nat.min n (t.cap (widthBits code))) (Nat.min m 8) with width := code }
  { s with thr := t.ws d t.len }

/-- SETL (R102, R105, R161, R407). -/
def setl (i : Instr) (s : State) (code : Nat) (d a b : BitVec 6) : Result :=
  match (do s.serial i; s.consume [a, b] : Except Stop Unit) with
  | .error e => finish i s (.error e)
  | .ok _ => atRenegotiation s (fun s => finish i s (.ok (setLengths s code d a b)))

/-- SETL at 4 bits (R105, R161). -/
def execSetl4 (d a b : BitVec 6) (s : State) : Result := setl (.setl4 d a b) s 0 d a b

/-- SETL at 8 bits (R105, R161). -/
def execSetl8 (d a b : BitVec 6) (s : State) : Result := setl (.setl8 d a b) s 1 d a b

/-- SETL at 16 bits (R105, R161). -/
def execSetl16 (d a b : BitVec 6) (s : State) : Result := setl (.setl16 d a b) s 2 d a b

/-- SETL at 32 bits (R105, R161). -/
def execSetl32 (d a b : BitVec 6) (s : State) : Result := setl (.setl32 d a b) s 3 d a b

/-- SETL at 64 bits (R105, R161). -/
def execSetl64 (d a b : BitVec 6) (s : State) : Result := setl (.setl64 d a b) s 4 d a b

end Sys2Proof.Machine
end

