-- ==== Sys2Proof/Machine/Matrix.lean ====
section
/-! DEFINITION. The cell array in matrix mode: MLDB, MMAO, MMAF, MMAS (spec 21 R294 to R303, 23 R325 to R328). -/

namespace Sys2Proof.Machine

open Sys2Proof

/-- Operand types of the matrix words (R296). -/
def isOperand (t : Nat) : Bool := [2, 3, 4, 5, 6, 7, 11, 12].contains t

/-- Depth K of a B block (R296). -/
def depthOf (et : Nat) : Nat := 4096 / typeWidth et

/-- Whether a reading is a NaN or an infinity. -/
def FVal.special : FVal → Bool
  | .num .. => false
  | _ => true

/-- MLDB (R297, R325). -/
def execMldb (sb : BitVec 6) (s : State) : Result :=
  let i : Instr := .mldb sb
  finishCounted i s (do
    let c ← s.acheck i [] isOperand
    let off := (s.rs sb).toNat
    s.operandCheck sb (off % 4096 == 0) (s.inTiles off)
    s.tileCheck off 32768 true false
    let w := typeWidth c.et
    let k := depthOf c.et
    let v := leNat (s.myTile off 32768)
    let elems := (List.range (64 * k)).map (fun e => s.thr.opElem c.et c.flush (elemAt v w e))
    let scale := bits s.thr.mxscale.toNat 15 8
    let arr := elems.toArray
    let flags := (List.range 64).map (fun n => (isFp c.et || decide (c.et = 7)) && (decide (scale = 255) ||
      (List.range k).any (fun q => ((opFmt c.et).val ((arr[64 * q + n]?).getD 0)).special)))
    let blk : BBlock := { etype := BitVec.ofNat 5 c.et, sb := BitVec.ofNat 8 scale
                          elems := elems.map (BitVec.ofNat 16), flags := flags }
    .ok { s with thr := s.thr.setArray (.block blk) })

/-- A row of A: its elements as patterns, and which of them a bitmap lets the word use (R298, R301). -/
structure ARow where
  elems : Array Nat
  used : Array Bool

/-- What one matrix word computes with: the operand type, the scales, B's elements, rows of A by m, the chunk order, and the
draw that its free values take. -/
structure Mma where
  et : Nat
  sa : Nat
  sb : Nat
  flush : Bool
  b : Array Nat
  bflags : Array Bool
  rows : List (Nat × ARow)
  anyOrder : Bool
  free : Nat

/-- Whether the operand type is floating. -/
def Mma.fp (x : Mma) : Bool := isFp x.et || decide (x.et = 7)

/-- A(m, k) and B(k, n) as readings. -/
def Mma.aVal (x : Mma) (r : ARow) (k : Nat) : FVal :=
  if (r.used[k]?).getD true then (opFmt x.et).val ((r.elems[k]?).getD 0) else .num false 0 0
def Mma.bVal (x : Mma) (k n : Nat) : FVal := (opFmt x.et).val ((x.b[64 * k + n]?).getD 0)

/-- Whether row `r` is flagged (R298): a NaN or infinity among the elements it uses, or SA = 0xFF. -/
def Mma.rowFlag (x : Mma) (r : ARow) : Bool :=
  x.fp && (decide (x.sa = 255) || (List.range (depthOf x.et)).any (fun k => (x.aVal r k).special))

/-- Whether all 64 elements of a chunk of a row are zero (R299). -/
def Mma.zeroChunk (x : Mma) (r : ARow) (c : Nat) : Bool :=
  (List.range 64).all (fun q => match x.aVal r (64 * c + q) with | .num _ m _ => decide (m = 0) | _ => false)

/-- The rounded chunk sum S(m, n, c) (R299). -/
def Mma.chunkSum (x : Mma) (r : ARow) (n c : Nat) : Nat × Flags :=
  let (v, q) := exactSum ((List.range 64).map (fun k => prodOf (x.aVal r (64 * c + k)) (x.bVal (64 * c + k) n)))
  if v = 0 then (0, 0)
  else fp32.round (rne x.flush) (decide (v < 0)) v.natAbs (q + x.sa + x.sb - 254) false

/-- Insert a chunk by its key, ties in index order. -/
def insertKey (key : Nat → Nat) (c : Nat) : List Nat → List Nat
  | [] => [c]
  | d :: r => if key c < key d then c :: d :: r else d :: insertKey key c r

/-- The order in which chunks `lo` to `hi` - 1 of an element are added (R300; any order for MMAF, entry 9). -/
def Mma.order (x : Mma) (m n lo hi : Nat) : List Nat :=
  if x.anyOrder then (positions lo hi).foldl (fun l c => insertKey (Config.chunkKey x.free m n) c l) [] else positions lo hi

/-- Accumulate floating chunks `lo` to `hi` - 1 into pattern `a` (R299, R300). -/
def Mma.accumulate (x : Mma) (r : ARow) (m n lo hi : Nat) (a : Nat) : Nat × Flags :=
  (x.order m n lo hi).foldl (fun (acc : Nat × Flags) c =>
    if x.zeroChunk r c then acc
    else
      let (sm, f) := x.chunkSum r n c
      let (y, g) := fp32.add (rne x.flush) (f32In x.flush acc.1) (f32In x.flush sm)
      (y, joinFlags acc.2 (joinFlags f g))) (a, 0)

/-- Accumulate integer chunks modulo 2^32 (R299, R300). -/
def Mma.accumulateInt (x : Mma) (r : ARow) (n lo hi : Nat) (a : Nat) : Nat :=
  let w := typeWidth x.et
  wrap 32 ((a : Int) + ((positions (64 * lo) (64 * hi)).map (fun k =>
    if (r.used[k]?).getD true then sgn w ((r.elems[k]?).getD 0) * sgn w ((x.b[64 * k + n]?).getD 0) else 0)).sum)

/-- Sign of an infinite reading. -/
def FVal.infSign : FVal → Option Bool
  | .inf s => some s
  | _ => none

/-- The drain's resolver for a flagged element (R302). -/
def Mma.resolve (x : Mma) (r : ARow) (n : Nat) (a : Nat) : Nat × Flags :=
  let ks := (List.range (depthOf x.et)).filter (fun k => (r.used[k]?).getD true)
  let cv := f32In x.flush a
  let pairs := ks.map (fun k => (x.aVal r k, x.bVal k n))
  let ops := cv :: pairs.flatMap (fun p => [p.1, p.2])
  let zeroInf := pairs.any (fun p => match p with
    | (.inf _, .num _ m _) => decide (m = 0)
    | (.num _ m _, .inf _) => decide (m = 0)
    | _ => false)
  let infs := (match cv with | .inf s => [s] | _ => []) ++ pairs.filterMap (fun p => match p with
    | (.inf s, .inf t) => some (s != t)
    | (.inf s, .num t _ _) => some (s != t)
    | (.num t _ _, .inf s) => some (s != t)
    | _ => none)
  if ops.any FVal.isNan then ((fp32.nanOf 1).1, sigFlag ops)
  else if x.sa = 255 ∨ x.sb = 255 then fp32.invalid 2
  else if zeroInf then fp32.invalid 4
  else if infs.contains true && infs.contains false then fp32.invalid 3
  else if infs = [] then ((Config.drainFree x.free).toNat, 0)
  else fp32.infOf (infs.contains true)

/-- Element (m, n) after chunks `lo` to `hi` - 1; a flagged one waits for the drain at the end of the word (R300, R302,
R328). -/
def Mma.element (x : Mma) (m n lo hi : Nat) (a : Nat) : Nat × Flags :=
  match assoc x.rows m with
  | none => (a, 0)
  | some r =>
    if ¬ x.fp then (x.accumulateInt r n lo hi a, 0)
    else if x.rowFlag r || (x.bflags[n]?).getD false then
      if hi * 64 = depthOf x.et then x.resolve r n a else (a, 0)
    else x.accumulate r m n lo hi a

/-- The bitmap of MMAS: block side and offset (R327). -/
structure Bitmap where
  side : Nat
  off : Nat
  deriving DecidableEq, Repr

/-- Checks 1 to 3 of a matrix word (R324, R326, R360), with its captured block. -/
def State.mmaCheck (s : State) (i : Instr) (d a : BitVec 5) : Except Stop VCtx := do
  let c ← s.acheck i [d, a] isOperand
  match s.thr.array with
  | .block b => if b.etype.toNat ≠ c.et then .error (.illegal i) else s.kindCheck i 2
  | _ => .error (.vstate i)
  .ok c

/-- Chunks of a matrix word; none where its lengths are zero (R21). -/
def mmaTotal (c : VCtx) : Nat := if c.cl = 0 ∨ c.rl = 0 then 0 else depthOf c.et / 64

/-- The runs of bytes of row m that a word reads: the whole row, or its blocks with bit 1 (R301, R326, R327). -/
def rowRuns (et off : Nat) (bm : Option (Nat × Nat)) (m : Nat) : List (Nat × Nat) :=
  match bm with
  | none => [(off, 512)]
  | some (side, v) =>
    let n := depthOf et / side
    let len := side * typeWidth et / 8
    ((List.range n).filter (fun q => decide (v / 2 ^ (m / side * n + q) % 2 = 1))).map (fun q => (off + q * len, len))

/-- Chunks `lo` to `hi` - 1 of a matrix word: checks 4 to 6 of R324, then R298 to R303. -/
def mmaRun (i : Instr) (s : State) (d a : BitVec 5) (sb : BitVec 6) (anyOrder : Bool) (bm : Option Bitmap) (base : Nat)
    (aligned limits : Bool) (c : VCtx) (lo hi : Nat) : Except Stop State :=
  if c.cl = 0 ∨ c.rl = 0 then .ok s
  else
    match s.thr.array with
    | .block b => do
      let t := s.thr
      s.lengths i (decide (c.cl ≤ 64))
      s.operandCheck sb aligned limits
      s.arraySound
      s.maskCheck c
      let active := (List.range c.rows).filter (fun m => (List.range c.cl).any (fun n => t.guard c m n))
      let allOf : VCtx := { c with mask := 0, minv := false, f := 1, rl := 1, cl := c.rows }
      if ¬ (t.sound c [(d, 32)] && t.sound allOf [(a, 32)]) then .error (.data 0 5 7 false) else .ok ()
      let bmv ← match bm with
        | none => (.ok none : Except Stop (Option (Nat × Nat)))
        | some m => do
          let n := ((c.rows + m.side - 1) / m.side * (depthOf c.et / m.side) + 7) / 8
          s.tileCheck m.off n true false
          .ok (some (m.side, leNat (s.myTile m.off n)))
      let offOf := fun m => base + 512 * t.elem { c with rl := 1 } a 32 0 m
      active.foldlM (fun _ m => (rowRuns c.et (offOf m) bmv m).foldlM (fun _ r => s.tileCheck r.1 r.2 true false) ()) ()
      let w := typeWidth c.et
      let k := depthOf c.et
      let rows := active.map (fun m =>
        let v := leNat (s.myTile (offOf m) 512)
        let used := match bmv with
          | none => Array.replicate k true
          | some (side, bv) => ((List.range k).map (fun e => decide (bv / 2 ^ (m / side * (k / side) + e / side) % 2 = 1))).toArray
        (m, ({ elems := ((List.range k).map (fun e => t.opElem c.et c.flush (elemAt v w e))).toArray, used := used } : ARow)))
      let x : Mma := { et := c.et, sa := bits t.mxscale.toNat 7 0, sb := b.sb.toNat, flush := c.flush
                       b := (b.elems.map BitVec.toNat).toArray, bflags := b.flags.toArray, rows := rows
                       anyOrder := anyOrder, free := s.free }
      let u := t.elementwise c d 32 (fun m n => x.element m n lo hi (t.elem c d 32 m n))
      .ok { s with thr := u, free := s.free + 1 }
    | _ => .error (.vstate i)

/-- MMAO (R300, R326, R328). -/
def execMmao (d a : BitVec 5) (sb : BitVec 6) (s : State) : Result :=
  let i : Instr := .mmao d a sb
  let v := (s.rs sb).toNat
  kindWord i s 2 (s.mmaCheck i d a) mmaTotal (mmaRun i s d a sb false none v (v % 512 == 0) (s.inTiles v))

/-- MMAF (R300, R326, R328). -/
def execMmaf (d a : BitVec 5) (sb : BitVec 6) (s : State) : Result :=
  let i : Instr := .mmaf d a sb
  let v := (s.rs sb).toNat
  kindWord i s 2 (s.mmaCheck i d a) mmaTotal (mmaRun i s d a sb true none v (v % 512 == 0) (s.inTiles v))

/-- MMAS (R301, R327, R328). -/
def execMmas (d a : BitVec 5) (sb : BitVec 6) (s : State) : Result :=
  let i : Instr := .mmas d a sb
  let v := (s.rs sb).toNat
  let base := bits v 20 0
  let bm := bits v 52 32
  kindWord i s 2 (s.mmaCheck i d a) mmaTotal (mmaRun i s d a sb false
    (some ⟨if bits v 63 63 = 1 then 32 else 16, bm⟩) base (base % 512 == 0 && bm % 8 == 0)
    (decide (bits v 62 53 = 0) && decide (bits v 31 21 = 0) && s.inTiles base && s.inTiles bm))

end Sys2Proof.Machine
end

