-- ==== Sys2Proof/Machine/ScalarFp.lean ====
section
/-! DEFINITION. The scalar floating-point words (spec 05 R71 to R77). -/

namespace Sys2Proof.Machine

open Sys2Proof

/-- A scalar floating format: FP32 for .S forms, FP64 for .D forms (R71). -/
def fmtSD (dbl : Bool) : Fmt := if dbl then fp64 else fp32

/-- The operand of a format in a register (R71): bits 31:0, or all 64. -/
def operandOf (f : Fmt) (v : Word) : Nat := v.toNat % 2 ^ f.width

/-- The reading of a register's operand. -/
def State.fp (s : State) (f : Fmt) (r : BitVec 6) : FVal := f.val (operandOf f (s.rs r))

/-- A scalar word that rounds under FRM: result, flags, and the SRCTR advance (R72, R96). -/
def roundingOp (i : Instr) (s : State) (rs : List (BitVec 6)) (d : BitVec 6) (r : Nat × Flags) : Result :=
  finish i s (do
    s.consume rs
    let t := (s.ws d (BitVec.ofNat 64 r.1)).addFlags r.2
    .ok { t with thr := t.thr.advance s.thr.frm.toNat 1 })

/-- A scalar word that rounds nothing. -/
def exactOp (i : Instr) (s : State) (rs : List (BitVec 6)) (d : BitVec 6) (r : Nat × Flags) : Result :=
  finish i s (do
    s.consume rs
    .ok ((s.ws d (BitVec.ofNat 64 r.1)).addFlags r.2))

/-- The compares of R76: 1 or 0, invalid as `quietInvalid` and the operands give. -/
def fcmp (quietInvalid : Bool) (r : FVal → FVal → Bool) (a b : FVal) : Nat × Flags :=
  if a.isNan || b.isNan then (0, if quietInvalid then flagNV else sigFlag [a, b])
  else (if r a b then 1 else 0, 0)

/-- FADD.S (R73, R74). -/
def execFaddS (d a b : BitVec 6) (s : State) : Result :=
  roundingOp (.faddS d a b) s [a, b] d (fp32.add s.thr.scalarRnd (s.fp fp32 a) (s.fp fp32 b))

/-- FSUB.S (R73, R74). -/
def execFsubS (d a b : BitVec 6) (s : State) : Result :=
  roundingOp (.fsubS d a b) s [a, b] d (fp32.add s.thr.scalarRnd (s.fp fp32 a) (s.fp fp32 b).flip)

/-- FMUL.S (R73, R74). -/
def execFmulS (d a b : BitVec 6) (s : State) : Result :=
  roundingOp (.fmulS d a b) s [a, b] d (fp32.mul s.thr.scalarRnd (s.fp fp32 a) (s.fp fp32 b))

/-- FDIV.S (R73, R74). -/
def execFdivS (d a b : BitVec 6) (s : State) : Result :=
  roundingOp (.fdivS d a b) s [a, b] d (fp32.div s.thr.scalarRnd (s.fp fp32 a) (s.fp fp32 b))

/-- FSQRT.S (R73, R74). -/
def execFsqrtS (d a : BitVec 6) (s : State) : Result :=
  roundingOp (.fsqrtS d a) s [a] d (fp32.sqrt s.thr.scalarRnd (s.fp fp32 a))

/-- FMIN.S (R75). -/
def execFminS (d a b : BitVec 6) (s : State) : Result :=
  exactOp (.fminS d a b) s [a, b] d (fp32.pick false (operandOf fp32 (s.rs a)) (operandOf fp32 (s.rs b)))

/-- FMAX.S (R75). -/
def execFmaxS (d a b : BitVec 6) (s : State) : Result :=
  exactOp (.fmaxS d a b) s [a, b] d (fp32.pick true (operandOf fp32 (s.rs a)) (operandOf fp32 (s.rs b)))

/-- FFMA.S (R73, R74): the old sd is the addend. -/
def execFfmaS (d a b : BitVec 6) (s : State) : Result :=
  roundingOp (.ffmaS d a b) s [a, b, d] d (fp32.fma s.thr.scalarRnd (s.fp fp32 a) (s.fp fp32 b) (s.fp fp32 d))

/-- FCEQ.S (R76). -/
def execFceqS (d a b : BitVec 6) (s : State) : Result :=
  exactOp (.fceqS d a b) s [a, b] d (fcmp false FVal.eq (s.fp fp32 a) (s.fp fp32 b))

/-- FCLT.S (R76). -/
def execFcltS (d a b : BitVec 6) (s : State) : Result :=
  exactOp (.fcltS d a b) s [a, b] d (fcmp true FVal.lt (s.fp fp32 a) (s.fp fp32 b))

/-- FCLE.S (R76). -/
def execFcleS (d a b : BitVec 6) (s : State) : Result :=
  exactOp (.fcleS d a b) s [a, b] d (fcmp true (fun x y => x.lt y || x.eq y) (s.fp fp32 a) (s.fp fp32 b))

/-- FTOI.S (R77). -/
def execFtoiS (d a : BitVec 6) (s : State) : Result :=
  roundingOp (.ftoiS d a) s [a] d (toIntSat 64 true s.thr.scalarRnd (s.fp fp32 a))

/-- ITOF.S (R73). -/
def execItofS (d a : BitVec 6) (s : State) : Result :=
  roundingOp (.itofS d a) s [a] d (fp32.deliver s.thr.scalarRnd (intVal (s.rs a).toInt))

/-- FADD.D (R73, R74). -/
def execFaddD (d a b : BitVec 6) (s : State) : Result :=
  roundingOp (.faddD d a b) s [a, b] d (fp64.add s.thr.scalarRnd (s.fp fp64 a) (s.fp fp64 b))

/-- FSUB.D (R73, R74). -/
def execFsubD (d a b : BitVec 6) (s : State) : Result :=
  roundingOp (.fsubD d a b) s [a, b] d (fp64.add s.thr.scalarRnd (s.fp fp64 a) (s.fp fp64 b).flip)

/-- FMUL.D (R73, R74). -/
def execFmulD (d a b : BitVec 6) (s : State) : Result :=
  roundingOp (.fmulD d a b) s [a, b] d (fp64.mul s.thr.scalarRnd (s.fp fp64 a) (s.fp fp64 b))

/-- FDIV.D (R73, R74). -/
def execFdivD (d a b : BitVec 6) (s : State) : Result :=
  roundingOp (.fdivD d a b) s [a, b] d (fp64.div s.thr.scalarRnd (s.fp fp64 a) (s.fp fp64 b))

/-- FSQRT.D (R73, R74). -/
def execFsqrtD (d a : BitVec 6) (s : State) : Result :=
  roundingOp (.fsqrtD d a) s [a] d (fp64.sqrt s.thr.scalarRnd (s.fp fp64 a))

/-- FMIN.D (R75). -/
def execFminD (d a b : BitVec 6) (s : State) : Result :=
  exactOp (.fminD d a b) s [a, b] d (fp64.pick false (operandOf fp64 (s.rs a)) (operandOf fp64 (s.rs b)))

/-- FMAX.D (R75). -/
def execFmaxD (d a b : BitVec 6) (s : State) : Result :=
  exactOp (.fmaxD d a b) s [a, b] d (fp64.pick true (operandOf fp64 (s.rs a)) (operandOf fp64 (s.rs b)))

/-- FFMA.D (R73, R74): the old sd is the addend. -/
def execFfmaD (d a b : BitVec 6) (s : State) : Result :=
  roundingOp (.ffmaD d a b) s [a, b, d] d (fp64.fma s.thr.scalarRnd (s.fp fp64 a) (s.fp fp64 b) (s.fp fp64 d))

/-- FCEQ.D (R76). -/
def execFceqD (d a b : BitVec 6) (s : State) : Result :=
  exactOp (.fceqD d a b) s [a, b] d (fcmp false FVal.eq (s.fp fp64 a) (s.fp fp64 b))

/-- FCLT.D (R76). -/
def execFcltD (d a b : BitVec 6) (s : State) : Result :=
  exactOp (.fcltD d a b) s [a, b] d (fcmp true FVal.lt (s.fp fp64 a) (s.fp fp64 b))

/-- FCLE.D (R76). -/
def execFcleD (d a b : BitVec 6) (s : State) : Result :=
  exactOp (.fcleD d a b) s [a, b] d (fcmp true (fun x y => x.lt y || x.eq y) (s.fp fp64 a) (s.fp fp64 b))

/-- FTOI.D (R77). -/
def execFtoiD (d a : BitVec 6) (s : State) : Result :=
  roundingOp (.ftoiD d a) s [a] d (toIntSat 64 true s.thr.scalarRnd (s.fp fp64 a))

/-- ITOF.D (R73). -/
def execItofD (d a : BitVec 6) (s : State) : Result :=
  roundingOp (.itofD d a) s [a] d (fp64.deliver s.thr.scalarRnd (intVal (s.rs a).toInt))

/-- FNRW (R73, R74): FP64 to FP32 under FRM. -/
def execFnrw (d a : BitVec 6) (s : State) : Result :=
  roundingOp (.fnrw d a) s [a] d (fp32.deliver s.thr.scalarRnd (s.fp fp64 a))

/-- FWDN (R73, R74): FP32 to FP64, exact. -/
def execFwdn (d a : BitVec 6) (s : State) : Result :=
  exactOp (.fwdn d a) s [a] d (fp64.deliver s.thr.scalarRnd (s.fp fp32 a))

end Sys2Proof.Machine
end

