-- ==== Sys2Proof/Machine/Spline.lean ====
section
/-! DEFINITION. The cell array in spline mode: SKNOT, SLDC, SEVAL, SEVALD, SGRAD, SREF (spec 21 R304 to R308, 23 R329 to
R333). -/

namespace Sys2Proof.Machine

open Sys2Proof

/-- Patterns of the FP32 constants of R305. -/
def k16 : Nat := 0x3E2AAAAB
def k23 : Nat := 0x3F2AAAAB
def f32One : Nat := 0x3F800000
def f32Half : Nat := 0x3F000000
def f32MHalf : Nat := 0xBF000000
def f32MOne : Nat := 0xBF800000
def f32OneHalf : Nat := 0x3FC00000
def f32MOneHalf : Nat := 0xBFC00000
def f32MTwo : Nat := 0xC0000000

/-- FP32 steps under RNE on patterns, their flags withdrawn (R305). -/
def f32Add (fl : Bool) (a b : Nat) : Nat := (fp32.add (rne fl) (f32In fl a) (f32In fl b)).1
def f32Sub (fl : Bool) (a b : Nat) : Nat := (fp32.add (rne fl) (f32In fl a) (f32In fl b).flip).1
def f32Mul (fl : Bool) (a b : Nat) : Nat := (fp32.mul (rne fl) (f32In fl a) (f32In fl b)).1
def f32Div (fl : Bool) (a b : Nat) : Nat := (fp32.div (rne fl) (f32In fl a) (f32In fl b)).1
def f32Fma (fl : Bool) (a b c : Nat) : Nat := (fp32.fma (rne fl) (f32In fl a) (f32In fl b) (f32In fl c)).1

/-- The FP32 pattern of a small integer. -/
def f32OfNat (n : Nat) : Nat := (fp32.deliver (rne false) (.num false n 0)).1

/-- Where an input falls (R305): outside with no contribution, a NaN of a cause with or without invalid, or an interval and
local coordinate. -/
inductive Edge where
  | zero
  | nan (cause : Nat) (invalid : Bool)
  | at (i f : Nat)
  deriving DecidableEq, Repr

/-- The interval and local coordinate of input pattern `x` (R305). -/
def Grid.locate (g : Grid) (fl : Bool) (x : Nat) : Edge :=
  let xv := f32In fl x
  match xv with
  | .nan sg => .nan 1 sg
  | _ =>
    let u := f32Div fl (f32Sub fl x g.base.toNat) g.step.toNat
    match fp32.val u with
    | .nan _ => .nan 5 true
    | .inf s =>
      if g.clamp = 0 then .at (if s then 0 else g.count - 1) (if s then 0 else f32One)
      else if g.clamp = 1 then .zero
      else .nan 5 true
    | .num s m e =>
      let below := s && decide (m ≠ 0)
      let n := (cutAt m e 0).1
      if ¬ below ∧ n < g.count then .at n (if m = 0 then 0 else f32Sub fl u (f32OfNat n))
      else if g.clamp = 0 then .at (if below then 0 else g.count - 1) (if below then 0 else f32One)
      else if g.clamp = 1 then .zero
      else if below then .at 0 u else .at (g.count - 1) (f32Sub fl u (f32OfNat (g.count - 1)))

/-- The basis values B0 to B3 at local coordinate `f` (R305). -/
def basis (fl : Bool) (f : Nat) : List Nat :=
  let g := f32Sub fl f32One f
  let m := f32Mul fl
  [ m (m (m g g) g) k16
  , f32Fma fl (m (f32Fma fl f f32Half f32MOne) f) f k23
  , f32Fma fl (f32Fma fl (f32Fma fl f f32MHalf f32Half) f f32Half) f k16
  , m (m (m f f) f) k16 ]

/-- The derivative values D0 to D3 (R305). -/
def dbasis (fl : Bool) (f : Nat) : List Nat :=
  let g := f32Sub fl f32One f
  let m := f32Mul fl
  [ m (m g g) f32MHalf
  , m (f32Fma fl f f32OneHalf f32MTwo) f
  , f32Fma fl (f32Fma fl f f32MOneHalf f32One) f f32Half
  , m (m f f) f32Half ]

/-- One rounding of an exact sum of products (R305): a NaN operand first, then zero by infinity, then infinities of both
signs, as R302 ranks them (entry 29).  An exact sum of 0 is +0, whatever the signs of its zeros (R355, entry 78). -/
def dotRound (fl : Bool) (ps : List (FVal × FVal)) : Nat × Flags :=
  let ops := ps.flatMap (fun p => [p.1, p.2])
  let zeroInf := ps.any (fun p => match p with
    | (.inf _, .num _ m _) => decide (m = 0)
    | (.num _ m _, .inf _) => decide (m = 0)
    | _ => false)
  let infs := ps.filterMap (fun p => if p.1 = .inf true ∨ p.1 = .inf false ∨ p.2 = .inf true ∨ p.2 = .inf false then
    some (p.1.neg != p.2.neg) else none)
  if ops.any FVal.isNan then fp32.nanIn ops false
  else if zeroInf then fp32.invalid 4
  else if infs.contains true && infs.contains false then fp32.invalid 3
  else if infs ≠ [] then fp32.infOf (infs.contains true)
  else
    match ps with
    | [] => (0, 0)
    | p :: r =>
      let one := fun (q : FVal × FVal) => match q with
        | (.num s m e, .num t n f) => (s != t, m * n, e + f)
        | _ => (false, 0, 0)
      let sum := r.foldl (fun (acc : FVal) q => match acc with
        | .num s m e => exactAdd 0 s m e (one q).1 (one q).2.1 (one q).2.2
        | v => v) (.num (one p).1 (one p).2.1 (one p).2.2)
      fp32.deliver (rne fl) (match sum with | .num s m e => .num (s && decide (m ≠ 0)) m e | v => v)

/-- The captured coefficients of a thread's array (R304). -/
structure Coeffs where
  grid : Grid
  p : Nat
  q : Nat
  c : Array Nat

/-- Coefficient j of edge (p, q) as a reading. -/
def Coeffs.at (k : Coeffs) (p q j : Nat) : FVal := bf16.val ((k.c[16 * (p * k.q + q) + j]?).getD 0)

/-- Result of an edge that is a NaN. -/
def nanEdge (cause : Nat) (invalid : Bool) : Nat × Flags := ((fp32.nanOf cause).1, if invalid then flagNV else 0)

/-- The edge value for input pattern `x` (R305). -/
def Coeffs.value (k : Coeffs) (fl : Bool) (p q x : Nat) : Nat × Flags :=
  match k.grid.locate fl x with
  | .zero => (0, 0)
  | .nan c inv => nanEdge c inv
  | .at i f => dotRound fl ((basis fl f).zipIdx.map (fun b => (k.at p q (i + b.2), f32In fl b.1)))

/-- The edge derivative (R305). -/
def Coeffs.slope (k : Coeffs) (fl : Bool) (p q x : Nat) : Nat × Flags :=
  match k.grid.locate fl x with
  | .zero => (0, 0)
  | .nan c inv => nanEdge c inv
  | .at i f =>
    let (a, g) := dotRound fl ((dbasis fl f).zipIdx.map (fun b => (k.at p q (i + b.2), f32In fl b.1)))
    let (b, h) := fp32.div (rne fl) (f32In fl a) (f32In fl k.grid.step.toNat)
    (b, joinFlags g h)

/-- The coefficients, or the vector-state trap (R294). -/
def State.coeffs (s : State) (i : Instr) : Except Stop Coeffs :=
  match s.thr.array with
  | .coeffs g p q c => .ok ⟨g, p, q, (c.map BitVec.toNat).toArray⟩
  | _ => .error (.vstate i)

/-- SEVAL, SEVALD and SGRAD take FP32 only (R305). -/
def isF32 (t : Nat) : Bool := decide (t = 1)

/-- Every assigned type but 0x1F. -/
def anyType (t : Nat) : Bool := isAny t

/-- SKNOT (R329). -/
def execSknot (s : State) : Result :=
  finishCounted .sknot s (do
    let _ ← s.acheck .sknot [] anyType
    let t := s.thr
    .ok { s with thr := t.setArray (.grid ⟨t.knotbase.setWidth 32, t.knotstep.setWidth 32, t.knotcount.toNat, t.knotclamp.toNat⟩) })

/-- SLDC (R304, R330). -/
def execSldc (sb : BitVec 6) (s : State) : Result :=
  let i : Instr := .sldc sb
  finishCounted i s (do
    let c ← s.acheck i [] anyType
    let g ← match s.thr.array with
      | .grid g => (.ok g : Except Stop Grid)
      | .coeffs g _ _ _ => .ok g
      | _ => .error (.vstate i)
    let v := (s.rs sb).toNat
    let q := bits v 45 40 + 1
    let p := bits v 37 32 + 1
    let base := bits v 20 0
    s.operandCheck sb (base % 32 == 0)
      (decide (bits v 63 46 = 0) && decide (bits v 39 38 = 0) && decide (bits v 31 21 = 0) && s.inTiles base)
    s.arraySound
    s.tileCheck base (p * q * 32) true false
    let n := leNat (s.myTile base (p * q * 32))
    let cs := (List.range (16 * p * q)).map (fun k => BitVec.ofNat 16 (bf16.flushIn c.flush (elemAt n 16 k)))
    .ok { s with thr := s.thr.setArray (.coeffs g p q cs) })

/-- The checks of SEVAL, SEVALD and SGRAD (R331, R332), and the context that reads va whole. -/
def State.splineCheck (s : State) (i : Instr) (regs : List (BitVec 5)) : Except Stop (VCtx × Coeffs) := do
  let c ← s.acheck i regs isF32
  let k ← s.coeffs i
  if c.cl = 0 ∨ c.rl = 0 then .ok (c, k)
  else do
    s.lengths i (decide (k.p ≤ c.cl) && decide (k.q ≤ c.cl))
    .ok (c, k)

/-- What a spline word must not read poisoned: the cell array, then the guard of its first `n` columns (R383). -/
def State.splineSound (s : State) (c : VCtx) (n : Nat) : Except Stop Unit := do
  s.arraySound
  s.maskCheck { c with cl := n }

/-- Elements of a register all of whose columns a word reads (R383). -/
def Thread.soundAll (t : Thread) (c : VCtx) (rs : List (BitVec 5)) : Bool :=
  t.sound { c with mask := 0, minv := false } (rs.map (fun r => (r, 32)))

/-- SEVAL (R306, R331). -/
def execSeval (d a : BitVec 5) (s : State) : Result :=
  let i : Instr := .seval d a
  finishCounted i s (do
    let (c, k) ← s.splineCheck i [d, a]
    if c.cl = 0 ∨ c.rl = 0 then .ok s
    else do
      s.splineSound c k.q
      let t := s.thr
      if ¬ (t.soundAll { c with cl := k.p } [a] && t.sound { c with cl := k.q } [(d, 32)]) then .error (.data 0 5 7 false)
      else
        .ok { s with thr := t.elementwise { c with cl := k.q } d 32 (fun m q =>
          (List.range k.p).foldl (fun (acc : Nat × Flags) p =>
            let (v, f) := k.value c.flush p q (t.elem c a 32 m p)
            let (y, g) := fp32.add (rne c.flush) (f32In c.flush acc.1) (f32In c.flush v)
            (y, joinFlags acc.2 (joinFlags f g))) (t.elem c d 32 m q, 0)) })

/-- SEVALD (R306, R331). -/
def execSevald (d a : BitVec 5) (s : State) : Result :=
  let i : Instr := .sevald d a
  finishCounted i s (do
    let (c, k) ← s.splineCheck i [d, a]
    if c.cl = 0 ∨ c.rl = 0 then .ok s
    else do
      s.splineSound c k.p
      let t := s.thr
      if ¬ (t.sound { c with cl := k.p } [(a, 32)] && t.soundAll { c with cl := k.q } [d]) then .error (.data 0 5 7 false)
      else
        .ok { s with thr := t.elementwise { c with cl := k.p } d 32 (fun m p =>
          (List.range k.q).foldl (fun (acc : Nat × Flags) q =>
            let (v, f) := k.slope c.flush p q (t.elem c a 32 m p)
            let (w, g) := fp32.mul (rne c.flush) (f32In c.flush (t.elem c d 32 m q)) (f32In c.flush v)
            let (y, h) := fp32.add (rne c.flush) (f32In c.flush acc.1) (f32In c.flush w)
            (y, joinFlags (joinFlags acc.2 f) (joinFlags g h))) (0, 0)) })

/-- Add `v` to gradient word `o` of the tiles held as an array of FP32 words (R307). -/
def gradAdd (fl : Bool) (acc : Array Nat × Flags) (o v : Nat) : Array Nat × Flags :=
  let (y, f) := fp32.add (rne fl) (f32In fl ((acc.1[o]?).getD 0)) (f32In fl v)
  (acc.1.setIfInBounds o y, joinFlags acc.2 f)

/-- The terms of one (s, p, q) of SGRAD in order (R307). -/
def Coeffs.gradTerms (k : Coeffs) (fl : Bool) (p q x g : Nat) (acc : Array Nat × Flags) : Array Nat × Flags :=
  let o := 16 * (p * k.q + q)
  match k.grid.locate fl x with
  | .zero => acc
  | .nan c inv =>
    let (v, f) := nanEdge c inv
    let r := (List.range (k.grid.count + 3)).foldl (fun a j => gradAdd fl a (o + j) v) acc
    (r.1, joinFlags r.2 f)
  | .at i f =>
    (basis fl f).zipIdx.foldl (fun a b =>
      let (w, h) := fp32.mul (rne fl) (f32In fl g) (f32In fl b.1)
      let r := gradAdd fl a (o + i + b.2) w
      (r.1, joinFlags r.2 h)) acc

/-- SGRAD (R307, R332). -/
def execSgrad (d a : BitVec 5) (sb : BitVec 6) (s : State) : Result :=
  let i : Instr := .sgrad d a sb
  finishCounted i s (do
    let (c, k) ← s.splineCheck i [d, a]
    if c.cl = 0 ∨ c.rl = 0 then .ok s
    else do
      let off := (s.rs sb).toNat
      let n := k.p * k.q * 64
      s.operandCheck sb (off % 64 == 0) (s.inTiles off)
      s.splineSound c k.p
      let t := s.thr
      if ¬ (t.sound { c with cl := k.p } [(a, 32)] && t.soundAll { c with cl := k.q } [d]) then .error (.data 0 5 7 false)
      else do
        s.tileCheck off n true true
        let old := leNat (s.myTile off n)
        let words := ((List.range (n / 4)).map (fun j => elemAt old 32 j)).toArray
        let (res, fl) := (List.range c.rows).foldl (fun acc m => (List.range k.p).foldl (fun acc p =>
          if ¬ t.guard c m p then acc
          else (List.range k.q).foldl (fun acc q =>
            k.gradTerms c.flush p q (t.elem c a 32 m p) (t.elem c d 32 m q) acc) acc) acc) (words, 0)
        .ok ((s.tileWrite s.thr.gang off ((res.toList.map (leBytes 4)).flatten)).addFlags fl))

/-- The refined coefficients of one edge (R308): patterns and flags of the BF16 roundings. -/
def Coeffs.refine (k : Coeffs) (fl : Bool) (p q : Nat) : List (Nat × Flags) :=
  let g := k.grid.count
  let c := k.at p q
  let add := fun (a b : FVal) => (fp32.add (rne fl) a b).1
  (List.range 16).map (fun n =>
    if 2 * g + 2 < n then (0, 0)
    else
      let v := if n % 2 = 0 then
          let j := n / 2
          (fp32.val (add (c j) (c (j + 1)))).scale (-1)
        else
          let j := (n + 1) / 2
          (fp32.val (fp32.fma (rne fl) (.num false 6 0) (c j) (f32In fl (add (c (j - 1)) (c (j + 1))))).1).scale (-3)
      bf16.deliver (rne fl) v)

/-- SREF (R308, R333). -/
def execSref (sb : BitVec 6) (s : State) : Result :=
  let i : Instr := .sref sb
  finishCounted i s (do
    let c ← s.acheck i [] anyType
    let k ← s.coeffs i
    let g := k.grid
    if 6 < g.count ∨ g.step.toNat / 2 ^ 23 < 2 then .error (.vstate i)
    else do
      let off := (s.rs sb).toNat
      let n := k.p * k.q * 32
      s.operandCheck sb (off % 32 == 0) (s.inTiles off)
      s.arraySound
      s.tileCheck off n false true
      let cs : List (Nat × Flags) := ((List.range k.p).map (fun p => ((List.range k.q).map (fun q => k.refine c.flush p q)).flatten)).flatten
      let g' : Grid := { g with step := g.step - 0x800000, count := 2 * g.count }
      let u := s.tileWrite s.thr.gang off ((cs.map (fun x => leBytes 2 x.1)).flatten)
      let fl' := cs.foldl (fun a x => joinFlags a x.2) 0
      let arr : ArrayState := .coeffs g' k.p k.q (cs.map (fun x => BitVec.ofNat 16 x.1))
      let t := { u.thr.setArray arr with knotstep := g'.step.zeroExtend 64, knotcount := BitVec.ofNat 64 g'.count }
      .ok ({ u with thr := t }.addFlags fl'))

end Sys2Proof.Machine
end

