-- ==== Sys2Proof/Machine/VectorData.lean ====
section
/-! DEFINITION. Reductions, scans, permutes, slides, broadcast, index, random numbers and the segment exchange (spec 12 R172
to R184, 28 R405, R406). -/

namespace Sys2Proof.Machine

open Sys2Proof

/-- The types of the reductions, scans and VRNG (R173). -/
def isRed (t : Nat) : Bool := isInt t || isFp6 t

/-- Add of R175 on patterns of the effective type. -/
def addElem (c : VCtx) (rn : Rnd) (x y : Nat) : Nat × Flags :=
  if isFp c.et then (fmtOf c.et).add rn (c.fval x) (c.fval y) else ((x + y) % 2 ^ typeWidth c.et, 0)

/-- Pick of R175. -/
def pickElem (c : VCtx) (wantMax : Bool) (x y : Nat) : Nat × Flags :=
  if isFp c.et then
    (fmtOf c.et).pick wantMax ((fmtOf c.et).flushIn c.flush x) ((fmtOf c.et).flushIn c.flush y)
  else (if decide (intOf c.et y < intOf c.et x) = wantMax then x else y, 0)

/-- Rounding of the addition that element (i, c) names (R176). -/
def Thread.sumRnd (t : Thread) (c : VCtx) (i col : Nat) : Rnd :=
  ⟨c.rnd, if c.rnd = 5 then stochBits t.srctr t.rngkey (i * c.cl + col) else 0, c.flush⟩

/-- Write one result per row in column 0 under R174; `f i` is the result and its flags. -/
def Thread.writeReduced (t : Thread) (c : VCtx) (d : BitVec 5) (f : Nat → Nat × Flags) : Thread :=
  let w := typeWidth c.et
  let u := t.writeRows c d w (fun i j old => if j = 0 then (f i).1 else if c.zero then 0 else old)
  (u.healed c d w (fun _ j => decide (j = 0) || c.zero)).addFlags ((List.range c.rows).foldl (fun a i => joinFlags a (f i).2) 0)

/-- The carry a scan's first active column takes: under flush a subnormal is a zero of its sign before any use (R97, R177).  A reduction
with no active element delivers the carry's bits unchanged instead (R174). -/
def Thread.carry (t : Thread) (c : VCtx) (b : BitVec 5) (i : Nat) : Nat :=
  let x := t.elem c b (typeWidth c.et) i 0
  if isFp c.et then (fmtOf c.et).flushIn c.flush x else x

/-- The running combination of row `i` from the carry (R175). -/
def Thread.foldRow (t : Thread) (c : VCtx) (a b : BitVec 5) (i : Nat) (op : Nat → Nat → Nat → Nat × Flags) : Nat × Flags :=
  let w := typeWidth c.et
  (List.range c.cl).foldl (fun acc j =>
    if t.guard c i j then
      let (v, fl) := op j acc.1 (t.elem c a w i j)
      (v, joinFlags acc.2 fl)
    else acc) (t.elem c b w i 0, 0)

/-- One level of the tree of VREDT (R175): entries are the first column covered and the value, absent or present. -/
def treeLevel (comb : Nat → Nat → Nat → Nat × Flags) : List (Nat × Option Nat) → List (Nat × Option Nat) × Flags
  | (a, x) :: (b, y) :: r =>
    let (rest, fl) := treeLevel comb r
    match x, y with
    | some x, some y => let (v, g) := comb b x y; ((a, some v) :: rest, joinFlags g fl)
    | some x, none => ((a, some x) :: rest, fl)
    | none, y => ((a, y) :: rest, fl)
  | l => (l, 0)

/-- The whole tree; `fuel` levels are enough for `fuel` entries. -/
def treeSum (comb : Nat → Nat → Nat → Nat × Flags) : Nat → List (Nat × Option Nat) → List (Nat × Option Nat) × Flags
  | 0, l => (l, 0)
  | f + 1, l =>
    if l.length ≤ 1 then (l, 0)
    else
      let (m, g) := treeLevel comb l
      let (r, h) := treeSum comb f m
      (r, joinFlags g h)

/-- A reduction word (R174): it reads the carry of every row. -/
def vreduce (i : Instr) (s : State) (d a b : BitVec 5) (rounds : Bool) (f : VCtx → Thread → Nat → Nat × Flags) : Result :=
  vwordAt i s [] [d, a, b] isRed (fun c t => [(a, t.guard c), (b, fun _ j => decide (j = 0))]) (fun c t =>
    let u := t.writeReduced c d (f c t)
    if rounds && isFp c.et then u.advance c.rnd (c.rows * c.cl) else u)

/-- VREDO (R175). -/
def execVredo (d a b : BitVec 5) (s : State) : Result :=
  vreduce (.vredo d a b) s d a b true (fun c t i => t.foldRow c a b i (fun j x y => addElem c (t.sumRnd c i j) x y))

/-- VREDT (R175, R176). -/
def execVredt (d a b : BitVec 5) (s : State) : Result :=
  vreduce (.vredt d a b) s d a b true (fun c t i =>
    let w := typeWidth c.et
    let l := (List.range c.cl).map (fun j => (j, if t.guard c i j then some (t.elem c a w i j) else none))
    let (r, fl) := treeSum (fun col x y => addElem c (t.sumRnd c i col) x y) c.cl l
    match r with
    | (_, some v) :: _ =>
      let (z, g) := addElem c (t.sumRnd c i 0) (t.elem c b w i 0) v
      (z, joinFlags fl g)
    | _ => (t.elem c b w i 0, fl))

/-- VREDMIN (R175). -/
def execVredmin (d a b : BitVec 5) (s : State) : Result :=
  vreduce (.vredmin d a b) s d a b false (fun c t i => t.foldRow c a b i (fun _ x y => pickElem c false x y))

/-- VREDMAX (R175). -/
def execVredmax (d a b : BitVec 5) (s : State) : Result :=
  vreduce (.vredmax d a b) s d a b false (fun c t i => t.foldRow c a b i (fun _ x y => pickElem c true x y))

/-- What an exclusive scan delivers of its carry at a row's first active column: a NaN does not pass its payload (R86). -/
def VCtx.freshNaN (c : VCtx) (x : Nat) : Nat := if isFp c.et && ((fmtOf c.et).val x).isNan then ((fmtOf c.et).nanOf 1).1 else x

/-- The scan of row `i`: each active column's element, inclusive or not, and the flags (R177). -/
def Thread.scanRow (t : Thread) (c : VCtx) (a b : BitVec 5) (i : Nat) (incl : Bool) : List (Option Nat) × Flags :=
  let w := typeWidth c.et
  let (l, _, fl) := (List.range c.cl).foldl (fun (acc : List (Option Nat) × Nat × Flags) j =>
    let (l, x, fl) := acc
    if t.guard c i j then
      let (v, g) := addElem c (t.sumRnd c i j) x (t.elem c a w i j)
      (some (if incl then v else if l.all Option.isNone then c.freshNaN x else x) :: l, v, joinFlags fl g)
    else (none :: l, x, fl)) ([], t.carry c b i, 0)
  (l.reverse, fl)

/-- A scan word (R177): it reads the carry of a row with an active element. -/
def vscan (i : Instr) (s : State) (d a b : BitVec 5) (incl : Bool) : Result :=
  vwordAt i s [] [d, a, b] isRed (fun c t =>
    [(a, t.guard c), (b, fun r j => decide (j = 0) && (List.range c.cl).any (fun k => t.guard c r k))]) (fun c t =>
    let rows := (List.range c.rows).map (fun r => t.scanRow c a b r incl)
    let u := t.writeRows c d (typeWidth c.et) (fun r j old =>
      match (rows.getD r ([], 0)).1.getD j none with
      | some v => v
      | none => if c.zero then 0 else old)
    let u := u.healed c d (typeWidth c.et) (fun r j => t.guard c r j || c.zero)
    let u := u.addFlags (rows.foldl (fun x r => joinFlags x r.2) 0)
    if isFp c.et then u.advance c.rnd (c.rows * c.cl) else u)

/-- VSCAN (R177). -/
def execVscan (d a b : BitVec 5) (s : State) : Result := vscan (.vscan d a b) s d a b true

/-- VSCANX (R177). -/
def execVscanx (d a b : BitVec 5) (s : State) : Result := vscan (.vscanx d a b) s d a b false

/-- Columns of one segment at the word's width (R402). -/
def Thread.segCols (t : Thread) (w : Nat) : Nat := t.grant * 128 / w

/-- The source column of column (i, j) under VPERM, none past the bound (R178, R405). -/
def Thread.permSource (t : Thread) (c : VCtx) (b : BitVec 5) (i j : Nat) : Option Nat :=
  let w := typeWidth c.et
  let lo := j / t.segCols w * t.segCols w
  let k := lo + t.elem c b w i j
  if k < Nat.min c.cl (lo + t.segCols w) then some k else none

/-- The columns of row `i` that some active element takes. -/
def Thread.taken (t : Thread) (c : VCtx) (src : Nat → Nat → Option Nat) (i k : Nat) : Bool :=
  (List.range c.cl).any (fun j => t.guard c i j && decide (src i j = some k))

/-- VPERM (R178, R405): within each segment. -/
def execVperm (d a b : BitVec 5) (s : State) : Result :=
  vwordAt (.vperm d a b) s [] [d, a, b] isAny (fun c t => [(b, t.guard c), (a, t.taken c (t.permSource c b))]) (fun c t =>
    let w := typeWidth c.et
    t.elementwise c d w (fun i j => ((match t.permSource c b i j with
      | some k => t.elem c a w i k
      | none => 0), 0)))

/-- The active elements of a row in column order. -/
def Thread.survivors (t : Thread) (c : VCtx) (a : BitVec 5) (i : Nat) : List Nat :=
  ((List.range c.cl).filter (fun j => t.guard c i j)).map (fun j => t.elem c a (typeWidth c.et) i j)

/-- VCOMP (R179): CL becomes the greatest survivor count. -/
def execVcomp (d a : BitVec 5) (s : State) : Result :=
  vword (.vcomp d a) s [d, a] [a] isAny oneWidth (fun c t =>
    let rows := (List.range c.rows).map (fun i => t.survivors c a i)
    let u := t.writeRows c d (typeWidth c.et) (fun i j old =>
      match (rows.getD i [])[j]? with
      | some v => v
      | none => if c.zero then 0 else old)
    let u := u.healed c d (typeWidth c.et) (fun i j => decide (j < (rows.getD i []).length) || c.zero)
    u.setLen (rows.foldl (fun m r => Nat.max m r.length) 0) c.rl)

/-- The source column of column (i, j) under VEXPD: the number of active columns before it. -/
def Thread.expandSource (t : Thread) (c : VCtx) (i j : Nat) : Nat := ((List.range j).filter (fun k => t.guard c i k)).length

/-- VEXPD (R180). -/
def execVexpd (d a : BitVec 5) (s : State) : Result :=
  vwordAt (.vexpd d a) s [] [d, a] isAny (fun c t => [(a, t.taken c (fun i j => some (t.expandSource c i j)))]) (fun c t =>
    let w := typeWidth c.et
    t.elementwise c d w (fun i j => (t.elem c a w i (t.expandSource c i j), 0)))

/-- A counted word with scalar operands: a poisoned one faults (R383). -/
def vwordS (i : Instr) (s : State) (rs : List (BitVec 6)) (regs srcs : List (BitVec 5)) (types : Nat → Bool)
    (body : VCtx → Thread → Thread) : Result :=
  finishCounted i s (do
    let c ← s.vcheck i regs types oneWidth
    if c.cl = 0 ∨ c.rl = 0 then .ok s
    else do
      s.consume rs
      if ¬ s.thr.sound c (srcs.map (fun r => (r, typeWidth c.et))) then .error (.data 0 5 7 false)
      else .ok { s with thr := body c s.thr })

/-- A slide (R181, R405): `src` gives the source column of a column of a segment, none outside the ranges. -/
def vslide (i : Instr) (s : State) (d a : BitVec 5) (sb : BitVec 6) (src : Nat → Nat → Nat → Nat → Option Nat) : Result :=
  let from' := fun (c : VCtx) (t : Thread) (j : Nat) =>
    let w := typeWidth c.et
    let lo := j / t.segCols w * t.segCols w
    src (t.rs sb).toNat lo (Nat.min c.cl (lo + t.segCols w)) j
  vwordAt i s [sb] [d, a] isAny (fun c t => [(a, t.taken c (fun _ j => from' c t j))]) (fun c t =>
    let w := typeWidth c.et
    (t.writeRows c d w (fun i j old =>
      match from' c t j with
      | none => old
      | some k => if t.guard c i j then t.elem c a w i k else if c.zero then 0 else old)).healed c d w
      (fun i j => (from' c t j).isSome && (t.guard c i j || c.zero)))

/-- VSLUP (R181). -/
def execVslup (d a : BitVec 5) (sb : BitVec 6) (s : State) : Result :=
  vslide (.vslup d a sb) s d a sb (fun n lo _ j => if lo + n ≤ j then some (j - n) else none)

/-- VSLDN (R181). -/
def execVsldn (d a : BitVec 5) (sb : BitVec 6) (s : State) : Result :=
  vslide (.vsldn d a sb) s d a sb (fun n _ hi j => if j + n < hi then some (j + n) else none)

/-- VXCHG (R406): column c of segment k takes column c of segment (k + sb) mod NSEG. -/
def execVxchg (d a : BitVec 5) (sb : BitVec 6) (s : State) : Result :=
  let from' := fun (c : VCtx) (t : Thread) (j : Nat) =>
    let ls := t.segCols (typeWidth c.et)
    (j / ls + (t.rs sb).toNat % t.nseg) % t.nseg * ls + j % ls
  vwordAt (.vxchg d a sb) s [sb] [d, a] isAny (fun c t => [(a, t.taken c (fun _ j => some (from' c t j)))]) (fun c t =>
    t.elementwise c d (typeWidth c.et) (fun i j =>
      (if from' c t j < c.cl then t.elem c a (typeWidth c.et) i (from' c t j) else 0, 0)))

/-- VBCAST (R182). -/
def execVbcast (d : BitVec 5) (sb : BitVec 6) (s : State) : Result :=
  vwordS (.vbcast d sb) s [sb] [d] [] isAny (fun c t =>
    t.elementwise c d (typeWidth c.et) (fun _ _ => ((t.rs sb).toNat % 2 ^ typeWidth c.et, 0)))

/-- VIOTA (R183). -/
def execViota (d : BitVec 5) (sb : BitVec 6) (s : State) : Result :=
  vwordS (.viota d sb) s [sb] [d] [] isInt (fun c t =>
    t.elementwise c d (typeWidth c.et) (fun _ j => (((t.rs sb).toNat + j) % 2 ^ typeWidth c.et, 0)))

/-- The element VRNG makes of 64 random bits (R184). -/
def rngElem (ty : Nat) (z : Word) : Nat :=
  let n := z.toNat
  let sh := match ty with | 0 => 11 | 1 => 40 | 2 => 53 | 3 => 56 | 4 => 60 | _ => 61
  if isFp ty then ((fmtOf ty).deliver ⟨0, 0, false⟩ (.num false (n / 2 ^ sh) (-((64 - sh : Nat) : Int)))).1
  else n / 2 ^ (64 - typeWidth ty)

/-- VRNG (R184). -/
def execVrng (d : BitVec 5) (sb : BitVec 6) (s : State) : Result :=
  vwordS (.vrng d sb) s [sb] [d] [] isRed (fun c t =>
    t.elementwise c d (typeWidth c.et) (fun i j =>
      (rngElem c.et (mix64 ((t.rs sb + BitVec.ofNat 64 (i * c.cl + j)) ^^^ t.rngkey)), 0)))

end Sys2Proof.Machine
end

