-- ==== Sys2Proof/Machine/Dispatch.lean ====
section
/-! DEFINITION. One arm per constructor: each word and event goes to its meaning. -/

namespace Sys2Proof.Machine

open Sys2Proof

/-- What a word or an event does. -/
def exec (i : Instr) (s : State) : Host.Outcome State Fault Refusal :=
  match i with
  | .add d a b => Sys2Proof.Machine.execAdd d a b s
  | .sub d a b => Sys2Proof.Machine.execSub d a b s
  | .and d a b => Sys2Proof.Machine.execAnd d a b s
  | .or d a b => Sys2Proof.Machine.execOr d a b s
  | .xor d a b => Sys2Proof.Machine.execXor d a b s
  | .andn d a b => Sys2Proof.Machine.execAndn d a b s
  | .sll d a b => Sys2Proof.Machine.execSll d a b s
  | .srl d a b => Sys2Proof.Machine.execSrl d a b s
  | .sra d a b => Sys2Proof.Machine.execSra d a b s
  | .mul d a b => Sys2Proof.Machine.execMul d a b s
  | .mulh d a b => Sys2Proof.Machine.execMulh d a b s
  | .mulhu d a b => Sys2Proof.Machine.execMulhu d a b s
  | .div d a b => Sys2Proof.Machine.execDiv d a b s
  | .divu d a b => Sys2Proof.Machine.execDivu d a b s
  | .rem d a b => Sys2Proof.Machine.execRem d a b s
  | .remu d a b => Sys2Proof.Machine.execRemu d a b s
  | .min d a b => Sys2Proof.Machine.execMin d a b s
  | .max d a b => Sys2Proof.Machine.execMax d a b s
  | .minu d a b => Sys2Proof.Machine.execMinu d a b s
  | .maxu d a b => Sys2Proof.Machine.execMaxu d a b s
  | .clz d a => Sys2Proof.Machine.execClz d a s
  | .ctz d a => Sys2Proof.Machine.execCtz d a s
  | .popc d a => Sys2Proof.Machine.execPopc d a s
  | .seq d a b => Sys2Proof.Machine.execSeq d a b s
  | .slt d a b => Sys2Proof.Machine.execSlt d a b s
  | .sltu d a b => Sys2Proof.Machine.execSltu d a b s
  | .addi d a im => Sys2Proof.Machine.execAddi d a im s
  | .andi d a im => Sys2Proof.Machine.execAndi d a im s
  | .ori d a im => Sys2Proof.Machine.execOri d a im s
  | .xori d a im => Sys2Proof.Machine.execXori d a im s
  | .slti d a im => Sys2Proof.Machine.execSlti d a im s
  | .sltiu d a im => Sys2Proof.Machine.execSltiu d a im s
  | .slli d a n => Sys2Proof.Machine.execSlli d a n s
  | .srli d a n => Sys2Proof.Machine.execSrli d a n s
  | .srai d a n => Sys2Proof.Machine.execSrai d a n s
  | .immh d im => Sys2Proof.Machine.execImmh d im s
  | .pcrel d im => Sys2Proof.Machine.execPcrel d im s
  | .beq a b o => Sys2Proof.Machine.execBeq a b o s
  | .bne a b o => Sys2Proof.Machine.execBne a b o s
  | .blt a b o => Sys2Proof.Machine.execBlt a b o s
  | .bge a b o => Sys2Proof.Machine.execBge a b o s
  | .bltu a b o => Sys2Proof.Machine.execBltu a b o s
  | .bgeu a b o => Sys2Proof.Machine.execBgeu a b o s
  | .jlk d o => Sys2Proof.Machine.execJlk d o s
  | .jlkr d a im => Sys2Proof.Machine.execJlkr d a im s
  | .lb d a im => Sys2Proof.Machine.execLb d a im s
  | .lbu d a im => Sys2Proof.Machine.execLbu d a im s
  | .lh d a im => Sys2Proof.Machine.execLh d a im s
  | .lhu d a im => Sys2Proof.Machine.execLhu d a im s
  | .lw d a im => Sys2Proof.Machine.execLw d a im s
  | .lwu d a im => Sys2Proof.Machine.execLwu d a im s
  | .ld d a im => Sys2Proof.Machine.execLd d a im s
  | .sb d a im => Sys2Proof.Machine.execSb d a im s
  | .sh d a im => Sys2Proof.Machine.execSh d a im s
  | .sw d a im => Sys2Proof.Machine.execSw d a im s
  | .sd d a im => Sys2Proof.Machine.execSd d a im s
  | .faddS d a b => Sys2Proof.Machine.execFaddS d a b s
  | .fsubS d a b => Sys2Proof.Machine.execFsubS d a b s
  | .fmulS d a b => Sys2Proof.Machine.execFmulS d a b s
  | .fdivS d a b => Sys2Proof.Machine.execFdivS d a b s
  | .fsqrtS d a => Sys2Proof.Machine.execFsqrtS d a s
  | .fminS d a b => Sys2Proof.Machine.execFminS d a b s
  | .fmaxS d a b => Sys2Proof.Machine.execFmaxS d a b s
  | .ffmaS d a b => Sys2Proof.Machine.execFfmaS d a b s
  | .fceqS d a b => Sys2Proof.Machine.execFceqS d a b s
  | .fcltS d a b => Sys2Proof.Machine.execFcltS d a b s
  | .fcleS d a b => Sys2Proof.Machine.execFcleS d a b s
  | .ftoiS d a => Sys2Proof.Machine.execFtoiS d a s
  | .itofS d a => Sys2Proof.Machine.execItofS d a s
  | .faddD d a b => Sys2Proof.Machine.execFaddD d a b s
  | .fsubD d a b => Sys2Proof.Machine.execFsubD d a b s
  | .fmulD d a b => Sys2Proof.Machine.execFmulD d a b s
  | .fdivD d a b => Sys2Proof.Machine.execFdivD d a b s
  | .fsqrtD d a => Sys2Proof.Machine.execFsqrtD d a s
  | .fminD d a b => Sys2Proof.Machine.execFminD d a b s
  | .fmaxD d a b => Sys2Proof.Machine.execFmaxD d a b s
  | .ffmaD d a b => Sys2Proof.Machine.execFfmaD d a b s
  | .fceqD d a b => Sys2Proof.Machine.execFceqD d a b s
  | .fcltD d a b => Sys2Proof.Machine.execFcltD d a b s
  | .fcleD d a b => Sys2Proof.Machine.execFcleD d a b s
  | .ftoiD d a => Sys2Proof.Machine.execFtoiD d a s
  | .itofD d a => Sys2Proof.Machine.execItofD d a s
  | .fnrw d a => Sys2Proof.Machine.execFnrw d a s
  | .fwdn d a => Sys2Proof.Machine.execFwdn d a s
  | .rdc d c => Sys2Proof.Machine.execRdc d c s
  | .wrc a c => Sys2Proof.Machine.execWrc a c s
  | .trap im => Sys2Proof.Machine.execTrap im s
  | .waitev d a b => Sys2Proof.Machine.execWaitev d a b s
  | .launch a => Sys2Proof.Machine.execLaunch a s
  | .csave a b => Sys2Proof.Machine.execCsave a b s
  | .crestore a b => Sys2Proof.Machine.execCrestore a b s
  | .tlbinv a b => Sys2Proof.Machine.execTlbinv a b s
  | .tlbinva a => Sys2Proof.Machine.execTlbinva a s
  | .embrd d a b => Sys2Proof.Machine.execEmbrd d a b s
  | .rlogctl a => Sys2Proof.Machine.execRlogctl a s
  | .claim d a => Sys2Proof.Machine.execClaim d a s
  | .spclaim d a => Sys2Proof.Machine.execSpclaim d a s
  | .spqry d => Sys2Proof.Machine.execSpqry d s
  | .setl4 d a b => Sys2Proof.Machine.execSetl4 d a b s
  | .setl8 d a b => Sys2Proof.Machine.execSetl8 d a b s
  | .setl16 d a b => Sys2Proof.Machine.execSetl16 d a b s
  | .setl32 d a b => Sys2Proof.Machine.execSetl32 d a b s
  | .setl64 d a b => Sys2Proof.Machine.execSetl64 d a b s
  | .vadd d a b => Sys2Proof.Machine.execVadd d a b s
  | .vsub d a b => Sys2Proof.Machine.execVsub d a b s
  | .vmul d a b => Sys2Proof.Machine.execVmul d a b s
  | .vmulh d a b => Sys2Proof.Machine.execVmulh d a b s
  | .vmin d a b => Sys2Proof.Machine.execVmin d a b s
  | .vmax d a b => Sys2Proof.Machine.execVmax d a b s
  | .vminu d a b => Sys2Proof.Machine.execVminu d a b s
  | .vmaxu d a b => Sys2Proof.Machine.execVmaxu d a b s
  | .vand d a b => Sys2Proof.Machine.execVand d a b s
  | .vor d a b => Sys2Proof.Machine.execVor d a b s
  | .vxor d a b => Sys2Proof.Machine.execVxor d a b s
  | .vsll d a b => Sys2Proof.Machine.execVsll d a b s
  | .vsrl d a b => Sys2Proof.Machine.execVsrl d a b s
  | .vsra d a b => Sys2Proof.Machine.execVsra d a b s
  | .vabs d a => Sys2Proof.Machine.execVabs d a s
  | .vneg d a => Sys2Proof.Machine.execVneg d a s
  | .vadds d a b => Sys2Proof.Machine.execVadds d a b s
  | .vsubs d a b => Sys2Proof.Machine.execVsubs d a b s
  | .vsel d a b => Sys2Proof.Machine.execVsel d a b s
  | .vmov d a => Sys2Proof.Machine.execVmov d a s
  | .vfadd d a b => Sys2Proof.Machine.execVfadd d a b s
  | .vfsub d a b => Sys2Proof.Machine.execVfsub d a b s
  | .vfmul d a b => Sys2Proof.Machine.execVfmul d a b s
  | .vfmin d a b => Sys2Proof.Machine.execVfmin d a b s
  | .vfmax d a b => Sys2Proof.Machine.execVfmax d a b s
  | .vfabs d a => Sys2Proof.Machine.execVfabs d a s
  | .vfneg d a => Sys2Proof.Machine.execVfneg d a s
  | .vfma d a b => Sys2Proof.Machine.execVfma d a b s
  | .vfms d a b => Sys2Proof.Machine.execVfms d a b s
  | .vfnma d a b => Sys2Proof.Machine.execVfnma d a b s
  | .vfnms d a b => Sys2Proof.Machine.execVfnms d a b s
  | .vdiv d a b => Sys2Proof.Machine.execVdiv d a b s
  | .vsqrt d a => Sys2Proof.Machine.execVsqrt d a s
  | .vrcps d a => Sys2Proof.Machine.execVrcps d a s
  | .vrsqs d a => Sys2Proof.Machine.execVrsqs d a s
  | .vceq m a b => Sys2Proof.Machine.execVceq m a b s
  | .vcne m a b => Sys2Proof.Machine.execVcne m a b s
  | .vclt m a b => Sys2Proof.Machine.execVclt m a b s
  | .vcle m a b => Sys2Proof.Machine.execVcle m a b s
  | .vcltu m a b => Sys2Proof.Machine.execVcltu m a b s
  | .vcleu m a b => Sys2Proof.Machine.execVcleu m a b s
  | .vcun m a b => Sys2Proof.Machine.execVcun m a b s
  | .mand d a b => Sys2Proof.Machine.execMand d a b s
  | .mor d a b => Sys2Proof.Machine.execMor d a b s
  | .mxor d a b => Sys2Proof.Machine.execMxor d a b s
  | .mandn d a b => Sys2Proof.Machine.execMandn d a b s
  | .mnot d a => Sys2Proof.Machine.execMnot d a s
  | .mmov d a => Sys2Proof.Machine.execMmov d a s
  | .mfirst d a => Sys2Proof.Machine.execMfirst d a s
  | .vcvt d a t => Sys2Proof.Machine.execVcvt d a t s
  | .vcvts d a t => Sys2Proof.Machine.execVcvts d a t s
  | .vredo d a b => Sys2Proof.Machine.execVredo d a b s
  | .vredt d a b => Sys2Proof.Machine.execVredt d a b s
  | .vredmin d a b => Sys2Proof.Machine.execVredmin d a b s
  | .vredmax d a b => Sys2Proof.Machine.execVredmax d a b s
  | .vscan d a b => Sys2Proof.Machine.execVscan d a b s
  | .vscanx d a b => Sys2Proof.Machine.execVscanx d a b s
  | .vperm d a b => Sys2Proof.Machine.execVperm d a b s
  | .vcomp d a => Sys2Proof.Machine.execVcomp d a s
  | .vexpd d a => Sys2Proof.Machine.execVexpd d a s
  | .vslup d a sb => Sys2Proof.Machine.execVslup d a sb s
  | .vsldn d a sb => Sys2Proof.Machine.execVsldn d a sb s
  | .vxchg d a sb => Sys2Proof.Machine.execVxchg d a sb s
  | .vbcast d sb => Sys2Proof.Machine.execVbcast d sb s
  | .viota d sb => Sys2Proof.Machine.execViota d sb s
  | .vrng d sb => Sys2Proof.Machine.execVrng d sb s
  | .vfetch sb => Sys2Proof.Machine.execVfetch sb s
  | .vnext m sb => Sys2Proof.Machine.execVnext m sb s
  | .vld d a b h => Sys2Proof.Machine.execVld d a b h s
  | .vlds d a b h => Sys2Proof.Machine.execVlds d a b h s
  | .vst d a b h => Sys2Proof.Machine.execVst d a b h s
  | .vsts d a b h => Sys2Proof.Machine.execVsts d a b h s
  | .vldc d a b h => Sys2Proof.Machine.execVldc d a b h s
  | .vstc d a b h => Sys2Proof.Machine.execVstc d a b h s
  | .vgath d a sb => Sys2Proof.Machine.execVgath d a sb s
  | .vscat d a sb => Sys2Proof.Machine.execVscat d a sb s
  | .vscadd d a sb => Sys2Proof.Machine.execVscadd d a sb s
  | .vldb d a b h => Sys2Proof.Machine.execVldb d a b h s
  | .vstb d a b h => Sys2Proof.Machine.execVstb d a b h s
  | .vldz d a b h => Sys2Proof.Machine.execVldz d a b h s
  | .amoaddW d a b c r sc => Sys2Proof.Machine.execAmoaddW d a b c r sc s
  | .amoswapW d a b c r sc => Sys2Proof.Machine.execAmoswapW d a b c r sc s
  | .amoandW d a b c r sc => Sys2Proof.Machine.execAmoandW d a b c r sc s
  | .amoorW d a b c r sc => Sys2Proof.Machine.execAmoorW d a b c r sc s
  | .amoxorW d a b c r sc => Sys2Proof.Machine.execAmoxorW d a b c r sc s
  | .amominW d a b c r sc => Sys2Proof.Machine.execAmominW d a b c r sc s
  | .amomaxW d a b c r sc => Sys2Proof.Machine.execAmomaxW d a b c r sc s
  | .amocasW d a b c r sc => Sys2Proof.Machine.execAmocasW d a b c r sc s
  | .amoaddD d a b c r sc => Sys2Proof.Machine.execAmoaddD d a b c r sc s
  | .amoswapD d a b c r sc => Sys2Proof.Machine.execAmoswapD d a b c r sc s
  | .amoandD d a b c r sc => Sys2Proof.Machine.execAmoandD d a b c r sc s
  | .amoorD d a b c r sc => Sys2Proof.Machine.execAmoorD d a b c r sc s
  | .amoxorD d a b c r sc => Sys2Proof.Machine.execAmoxorD d a b c r sc s
  | .amominD d a b c r sc => Sys2Proof.Machine.execAmominD d a b c r sc s
  | .amomaxD d a b c r sc => Sys2Proof.Machine.execAmomaxD d a b c r sc s
  | .amocasD d a b c r sc => Sys2Proof.Machine.execAmocasD d a b c r sc s
  | .ldaW d a sc => Sys2Proof.Machine.execLdaW d a sc s
  | .ldaD d a sc => Sys2Proof.Machine.execLdaD d a sc s
  | .stlW d a sc => Sys2Proof.Machine.execStlW d a sc s
  | .stlD d a sc => Sys2Proof.Machine.execStlD d a sc s
  | .fence sc => Sys2Proof.Machine.execFence sc s
  | .wbr a b sc => Sys2Proof.Machine.execWbr a b sc s
  | .invr a b sc => Sys2Proof.Machine.execInvr a b sc s
  | .lclk d => Sys2Proof.Machine.execLclk d s
  | .own a b => Sys2Proof.Machine.execOwn a b s
  | .mldb sb => Sys2Proof.Machine.execMldb sb s
  | .mmao d a sb => Sys2Proof.Machine.execMmao d a sb s
  | .mmaf d a sb => Sys2Proof.Machine.execMmaf d a sb s
  | .mmas d a sb => Sys2Proof.Machine.execMmas d a sb s
  | .sldc sb => Sys2Proof.Machine.execSldc sb s
  | .seval d a => Sys2Proof.Machine.execSeval d a s
  | .sevald d a => Sys2Proof.Machine.execSevald d a s
  | .sgrad d a sb => Sys2Proof.Machine.execSgrad d a sb s
  | .sref sb => Sys2Proof.Machine.execSref sb s
  | .xdec d sb => Sys2Proof.Machine.execXdec d sb s
  | .xenc d x n sb => Sys2Proof.Machine.execXenc d x n sb s
  | .flcfg d a b => Sys2Proof.Machine.execFlcfg d a b s
  | .fllvl d a b => Sys2Proof.Machine.execFllvl d a b s
  | .flxf a b => Sys2Proof.Machine.execFlxf a b s
  | .flblk a b => Sys2Proof.Machine.execFlblk a b s
  | .flstart d a b => Sys2Proof.Machine.execFlstart d a b s
  | .bdef d a b => Sys2Proof.Machine.execBdef d a b s
  | .bget d a b => Sys2Proof.Machine.execBget d a b s
  | .bput a b => Sys2Proof.Machine.execBput a b s
  | .cwait d a b => Sys2Proof.Machine.execCwait d a b s
  | .cadd d a b => Sys2Proof.Machine.execCadd d a b s
  | .topen a b => Sys2Proof.Machine.execTopen a b s
  | .twalk d a b => Sys2Proof.Machine.execTwalk d a b s
  | .tappend d a b => Sys2Proof.Machine.execTappend d a b s
  | .trefit a b => Sys2Proof.Machine.execTrefit a b s
  | .tsumr d a b => Sys2Proof.Machine.execTsumr d a b s
  | .clstart a => Sys2Proof.Machine.execClstart a s
  | .rfence a => Sys2Proof.Machine.execRfence a s
  | .grp m v t r p f g l => Sys2Proof.Machine.execGrp m v t r p f g l s
  | .pfx m v r w p q x t y => Sys2Proof.Machine.execPfx m v r w p q x t y s
  | .yield => Sys2Proof.Machine.execYield s
  | .halt => Sys2Proof.Machine.execHalt s
  | .npbegin => Sys2Proof.Machine.execNpbegin s
  | .npend => Sys2Proof.Machine.execNpend s
  | .tret => Sys2Proof.Machine.execTret s
  | .tlbinvg => Sys2Proof.Machine.execTlbinvg s
  | .embage => Sys2Proof.Machine.execEmbage s
  | .vjoin => Sys2Proof.Machine.execVjoin s
  | .vpend => Sys2Proof.Machine.execVpend s
  | .bar => Sys2Proof.Machine.execBar s
  | .sknot => Sys2Proof.Machine.execSknot s
  | .waitevReread => Sys2Proof.Machine.execWaitevReread s
  | .ownFlipComplete => Sys2Proof.Machine.execOwnFlipComplete s
  | .bgetServe => Sys2Proof.Machine.execBgetServe s
  | .cwaitReread => Sys2Proof.Machine.execCwaitReread s
  | .asyncEventEntry => Sys2Proof.Machine.execAsyncEventEntry s
  | .preemptionRequest => Sys2Proof.Machine.execPreemptionRequest s
  | .npRegionOverrun => Sys2Proof.Machine.execNpRegionOverrun s
  | .windowEntryStarvation => Sys2Proof.Machine.execWindowEntryStarvation s
  | .doorbell => Sys2Proof.Machine.execDoorbell s
  | .dependenceMet => Sys2Proof.Machine.execDependenceMet s
  | .priorityAging => Sys2Proof.Machine.execPriorityAging s
  | .serveQueue => Sys2Proof.Machine.execServeQueue s
  | .gangEnd => Sys2Proof.Machine.execGangEnd s
  | .damperWindowEnd => Sys2Proof.Machine.execDamperWindowEnd s
  | .migrationLapse => Sys2Proof.Machine.execMigrationLapse s
  | .gangResume => Sys2Proof.Machine.execGangResume s
  | .gangReadmission => Sys2Proof.Machine.execGangReadmission s
  | .ptsTick => Sys2Proof.Machine.execPtsTick s
  | .htsTick => Sys2Proof.Machine.execHtsTick s
  | .homeExpireSweep => Sys2Proof.Machine.execHomeExpireSweep s
  | .l1LeaseDrop => Sys2Proof.Machine.execL1LeaseDrop s
  | .rangeRequestRetry => Sys2Proof.Machine.execRangeRequestRetry s
  | .reservationServe => Sys2Proof.Machine.execReservationServe s
  | .l1Eviction => Sys2Proof.Machine.execL1Eviction s
  | .hostOwnershipTake => Sys2Proof.Machine.execHostOwnershipTake s
  | .hostStore => Sys2Proof.Machine.execHostStore s
  | .compressedBlockRetry => Sys2Proof.Machine.execCompressedBlockRetry s
  | .remoteRequest => Sys2Proof.Machine.execRemoteRequest s
  | .engineOpFire => Sys2Proof.Machine.execEngineOpFire s
  | .flueCopy => Sys2Proof.Machine.execFlueCopy s
  | .faultRecordWrite => Sys2Proof.Machine.execFaultRecordWrite s
  | .engineCompletionAdd => Sys2Proof.Machine.execEngineCompletionAdd s
  | .engineReplay => Sys2Proof.Machine.execEngineReplay s
  | .engineAbort => Sys2Proof.Machine.execEngineAbort s
  | .engineSuspend => Sys2Proof.Machine.execEngineSuspend s
  | .walk => Sys2Proof.Machine.execWalk s
  | .append => Sys2Proof.Machine.execAppend s
  | .treeRefit => Sys2Proof.Machine.execTreeRefit s
  | .collectiveOperation => Sys2Proof.Machine.execCollectiveOperation s
  | .biasFlipToHost => Sys2Proof.Machine.execBiasFlipToHost s
  | .biasFlipToDevice => Sys2Proof.Machine.execBiasFlipToDevice s
  | .linkCrcFail => Sys2Proof.Machine.execLinkCrcFail s
  | .linkRetrain => Sys2Proof.Machine.execLinkRetrain s
  | .devstatWrite => Sys2Proof.Machine.execDevstatWrite s
  | .embctlWrite => Sys2Proof.Machine.execEmbctlWrite s
  | .registerWrite => Sys2Proof.Machine.execRegisterWrite s
  | .deviceReset => Sys2Proof.Machine.execDeviceReset s
  | .attestationRequest => Sys2Proof.Machine.execAttestationRequest s
  | .attestationReport => Sys2Proof.Machine.execAttestationReport s
  | .d3hotRequest => Sys2Proof.Machine.execD3hotRequest s
  | .d3hotEntry => Sys2Proof.Machine.execD3hotEntry s
  | .inletTemperatureChange => Sys2Proof.Machine.execInletTemperatureChange s
  | .coolantFlowChange => Sys2Proof.Machine.execCoolantFlowChange s
  | .lowFlowTimeout => Sys2Proof.Machine.execLowFlowTimeout s
  | .unassignedInstructionWord => Sys2Proof.Machine.execUnassignedInstructionWord s
  | .instructionFetchFault => Sys2Proof.Machine.execInstructionFetchFault s
  | .softError => Sys2Proof.Machine.execSoftError s
  | .keySlotLoad => Sys2Proof.Machine.execKeySlotLoad s
  | .dynamicCapacityExtentChange => Sys2Proof.Machine.execDynamicCapacityExtentChange s
  | .d3coldEntry => Sys2Proof.Machine.execD3coldEntry s

end Sys2Proof.Machine
end

