-- ==== Sys2Proof/Machine/Step.lean ====
section
/-! DEFINITION. One step of the device: an event of the agenda, a turn, or a word of the current thread. -/

namespace Sys2Proof.Machine

open Sys2Proof

/-- Whether the current thread stands between a PFX and its word, which are one instruction (R33). -/
def State.midWord (s : State) : Bool := s.thr.pfx.isSome && decide (s.thr.phase = .running)

/-- Whether the current thread takes its pending event before its next word (R361); a thread that lets that word stop inside
goes on (R359). -/
def State.takesEvent (s : State) : Bool :=
  s.thr.status.ae && s.pendingAsync.isSome && s.thr.pfx.isNone && s.thr.stopAt.isNone

/-- The state in which an event of the agenda runs. -/
def State.eventState (s : State) (rest : List (Instr × EventArg)) (a : EventArg) : State := { s with agenda := rest, arg := a }

/-- A state whose event is the current thread's own. -/
def State.ownEvent (s : State) (v : Word) (f : Bool := false) : State := { s with arg := { value := v, flags := [f] } }

/-- The word to run: the one that a PFX has fetched, or the one at PC (R27, R33). -/
def State.nextWord (s : State) : Except Stop (BitVec 32 × State) :=
  match s.thr.pfx with
  | some p => .ok (p.next, s)
  | none => s.fetch s.thr.pc

/-- Whether a word that is `i` but for reserved bits raises the illegal-instruction trap all the same (R24, R42); the words of the array take
their type after their encoding (R324). -/
def State.alsoIllegal (s : State) (i : Instr) : Bool :=
  if 0x36 ≤ encode i / 2 ^ 26 ∧ encode i / 2 ^ 26 ≤ 0x38 then s.inBlock
  else match exec i s with
    | .next t => decide (t = s.takeTrap 1 (wordOf i) none)
    | _ => false

/-- Another thread with something to do, if there is one, becomes current. -/
def State.rotate (s : State) : State :=
  match s.others.find? (fun t => t.live) with
  | some t => s.activate t.tid
  | none => s

/-- A running thread's word: fetched, decoded, executed; a fetch fault and a word that is no instruction are events of its own.  Where a locked
block holds the word, others have their turn first (R290).  A word that is no instruction by its own bits takes that trap before the words after
it are fetched, be it a GRP (entry 87). -/
def State.runWord (s : State) : Result :=
  match s.nextWord with
  | .error (.hold post) => .next (post s).rotate
  | .error _ => exec .instructionFetchFault s
  | .ok (w, u) =>
    match decode w.toNat with
    | .ok i => if u.blockOverrun w then exec .unassignedInstructionWord (u.ownEvent (w.zeroExtend 64)) else exec i u
    | .error (.reserved i) => exec .unassignedInstructionWord (u.ownEvent (w.zeroExtend 64) (u.blockOverrun w || u.alsoIllegal i))
    | .error .illegal => exec .unassignedInstructionWord (u.ownEvent (w.zeroExtend 64))

/-- What a waiting thread runs to look again at what it waits for. -/
def retryOf (i : Instr) : Instr :=
  match i with
  | .waitev .. => .waitevReread
  | .cwait .. => .cwaitReread
  | .bget .. => .bgetServe
  | .own .. => .ownFlipComplete
  | i => i

/-- A retry that still waits gives the next thread its turn. -/
def afterRetry (r : Result) : Result :=
  match r with
  | .next s =>
    match s.thr.phase with
    | .waiting _ => .next s.rotate
    | _ => .next s
  | r => r

/-- A thread that waits at `i`: a blocked wait is a renegotiation point and takes events (R102, R361, R407); then it looks again. -/
def State.runWait (s : State) (i : Instr) : Result :=
  if isBlockedWait i then
    if decide (1 < s.thr.nseg) && s.ready17 then .next s.leaveWaits.detach.take17
    else
      let u := s.renegotiate
      if u.takesEvent then exec .asyncEventEntry (u.ownEvent 0) else afterRetry (exec (retryOf i) u)
  else afterRetry (exec (retryOf i) s)

/-- The current thread's part of a step. -/
def State.runThread (s : State) : Result :=
  match s.thr.phase with
  | .running => if s.takesEvent then exec .asyncEventEntry (s.ownEvent 0) else s.runWord
  | .waiting i => s.runWait i
  | .haltWait =>
    match exec .halt s with
    | .next u => .next (if u.thr.phase = .haltWait then u.rotate else u)
    | r => r
  | _ => .next s.rotate

/-- One step. -/
def step (s : State) : Host.Outcome State Fault Refusal :=
  if s.midWord then s.runThread
  else
    match s.agenda, s.turns with
    | (i, a) :: rest, _ => if i.isEvent then exec i (s.eventState rest a) else .refused .notAnEvent
    | [], t :: rest => .next ({ s with turns := rest }.activate t)
    | [], [] => s.runThread

/-! ## A word where the next step fetches it -/

/-- Address of that word, its frame, and the tables that map it: levels 0, 1 and 2, the last with a 1 GiB leaf. -/
def fetchPc : Nat := 0x1000
def fetchFrame : Nat := 0xC0000000
def fetchTables (s : State) : Nat := if s.bar0.asidbase.toNat < 0x40000000 then 0x80000000 else 0x100000

/-- The state in which the next step fetches the word `w`: the current thread runs, user or supervisor as it is, at a page that its
ASID maps, with no event or turn before it. -/
def State.withFetchWord (s : State) (nbits w : Nat) : State :=
  let t := fetchTables s
  let a := s.bar0.asidbase.toNat + 32 * s.thr.asid.toNat
  let p := fetchFrame + fetchPc
  let m := Memory.writeN s.mem a (leBytes 8 (t + 1) ++ List.replicate 24 0)
  let m := Memory.writeN m t (leBytes 8 (t + 0x2000 + 1) ++ leBytes 8 0)
  let m := Memory.writeN m (t + 0x2000) (leBytes 8 (t + 0x4000 + 1) ++ leBytes 8 0)
  let m := Memory.writeN m (t + 0x4000) (leBytes 8 (fetchFrame + 0x7B) ++ leBytes 8 (s.devnum.toNat * 2 ^ 9))
  let m := Memory.writeN m p (leBytes 4 (w % 2 ^ nbits))
  { s with
    mem := m, poison := s.poison.filter (· ≠ p / 64), sectorKeys := s.sectorKeys.filter (fun k => decide (k.1 ≠ p / 64))
    tlb := [], tables := [], l1 := [], l1bad := [], moving := [], requests := [], agenda := [], turns := []
    thr := { s.thr with
      phase := .running, pc := BitVec.ofNat 64 fetchPc, twin := 0, pfx := none, stale := [], pend17 := none, pend18 := none
      stopAt := none
      vrun := VRun.idle } }

end Sys2Proof.Machine
end

