-- ==== Sys2Proof/Safety.lean ====
section
/-! DEFINITION. What a safe run is, and the words in which claims speak of a state and of what a word leaves of it. -/

namespace Sys2Proof.Machine

open Sys2Proof

/-- A run that no fault and no refusal stops. -/
def State.Safe (s : State) : Prop := ∀ n, ∃ t, Sys2Proof.core.run n s = .next t

/-- No register of `rs` is poisoned (R383). -/
abbrev State.Clean (s : State) (rs : List (BitVec 6)) : Prop := ∀ r ∈ rs, r.toNat ∉ s.thr.poisonS

/-- A class X word may run: no pass of a vector-fetched block, no open convoy that the thread stands in (R40, R187). -/
abbrev State.Serial (s : State) : Prop :=
  s.thr.vrun.pass = false ∧ ¬ (s.thr.inSpan = true ∧ s.thr.convoy.getLsbD 0 = true)

/-- What every completed word leaves: PC at `pc`, RETIRED one up, two with a PFX (R78), no PFX pending, the thread running. -/
def Completed (s t : State) (pc : Word) : Prop :=
  t.thr.pc = pc ∧ t.thr.retired = s.thr.retired + (if s.thr.pfx.isSome then 2 else 1) ∧ t.thr.pfx = none ∧ t.thr.phase = .running

/-- Of the scalar registers only `d` differs, which holds `v`; s0 reads zero whatever is written to it (R14, R58); `d` is no
longer poisoned, the others are as before (R383). -/
def Wrote (s t : State) (d : BitVec 6) (v : Word) : Prop :=
  (∀ r, t.rs r = if r = d ∧ r ≠ 0 then v else s.rs r) ∧
  (∀ r : BitVec 6, r.toNat ∈ t.thr.poisonS ↔ r.toNat ∈ s.thr.poisonS ∧ (r ≠ d ∨ d = 0))

/-- No scalar register differs. -/
def KeptScalars (s t : State) : Prop := t.thr.sregs = s.thr.sregs ∧ t.thr.poisonS = s.thr.poisonS

/-- The thread record with the bookkeeping of `t` that any completed word changes: PC, RETIRED, CYCLE, PFX, phase, the mark where an
event may stop it. -/
def Thread.bookOf (u t : Thread) : Thread :=
  { u with pc := t.pc, retired := t.retired, cycle := t.cycle, pfx := t.pfx, phase := t.phase, stopAt := t.stopAt }

/-- Only the bookkeeping, the scalar registers and the free-value counter differ: flags, modes, vector state, exception registers,
memory and every other part of the device are as before. -/
def ScalarFrame (s t : State) : Prop :=
  t = { s with thr := ({ s.thr with sregs := t.thr.sregs, poisonS := t.thr.poisonS }).bookOf t.thr, free := t.free }

/-- As `ScalarFrame`, and the word addresses stored to since the last transfer are forgotten (R70). -/
def JumpFrame (s t : State) : Prop :=
  t = { s with thr := ({ s.thr with sregs := t.thr.sregs, poisonS := t.thr.poisonS, stale := [] }).bookOf t.thr, free := t.free }

/-- As `ScalarFrame`, and FFLAGS may gain flags and SRCTR may move. -/
def FloatFrame (s t : State) : Prop :=
  t = { s with
    thr := ({ s.thr with sregs := t.thr.sregs, poisonS := t.thr.poisonS, fflags := t.thr.fflags, srctr := t.thr.srctr }).bookOf t.thr
    free := t.free }

/-- Word `i` completes in `s`, reads `rs` and writes `v` to `d`, and changes nothing else. -/
def Computes (i : Instr) (s : State) (rs : List (BitVec 6)) (d : BitVec 6) (v : Word) : Prop :=
  s.Clean rs → ∃ t, exec i s = .next t ∧ Completed s t (s.thr.pc + 4) ∧ Wrote s t d v ∧ ScalarFrame s t

/-! ## Translation -/

/-- The entries on the way to `va` as the tables are now: level, address and words (R372). -/
def State.tablePath (s : State) (asid va : Nat) : List (Nat × Nat × Word × Word) :=
  match s.asidEntry asid with
  | none => []
  | some p => walkPath s.view s.devnum.toNat va 5 0 p.1

/-- What the walkers keep of the tables on the way to `va` is as the tables are now (R377, R378). -/
def State.TablesCurrent (s : State) (asid va : Nat) : Prop :=
  ∀ e ∈ s.tables, e.covers asid va = true → ∃ a, (e.level, a, e.w0, e.w1) ∈ (s.tablePath asid va).dropLast

/-- No byte that a walk to `va` reads, of the ASID's entry or of the tables, is one that `P` names. -/
def State.TablesApart (s : State) (asid va : Nat) (P : Nat → Prop) : Prop :=
  (∀ k < 32, ¬ P (s.bar0.asidbase.toNat + 32 * asid + k)) ∧ ∀ e ∈ s.tablePath asid va, ∀ k < 16, ¬ P (e.2.1 + k)

/-- The tables translate `va` by the leaf `l`, and nothing that a TLB or a walker keeps says otherwise (R372, R377). -/
def State.Finds (s : State) (asid va : Nat) (l : Leaf) : Prop :=
  s.walk asid va = .ok l ∧ (s.cached asid va = none ∨ s.cached asid va = some l) ∧ s.TablesCurrent asid va

/-- Memory in canonical form: the device's bytes, every gang's scratchpad, and every saved gang's. -/
def State.MemoryForm (s : State) : Prop :=
  Memory.wf s.mem = true ∧ (∀ g ∈ s.gangs, Memory.wf g.tileMem = true) ∧ (∀ p ∈ s.gangImages, Memory.wf p.2.1.tileMem = true)

/-! ## Counted words -/

/-- The lengths and the row a thread may have: at most 8 rows, 16,384 columns and 65,536 bits of a row (R104, R105, R402). -/
def Thread.LegalLengths (t : Thread) : Prop := t.rl ≤ 8 ∧ t.cl ≤ 16384 ∧ t.rowBits ≤ 65536

/-- No bit of mask register `m` in the first `rows` rows and `cols` columns is poisoned: `poisonV` names the groups of 128 columns of mask
register `m` as those of a register 40 + m; m0 is no storage (R107, R383). -/
def State.CleanMask (s : State) (m rows cols : Nat) : Prop :=
  m = 0 ∨ ∀ p ∈ s.thr.poisonV, p.1 = 40 + m → p.2.1 < rows → cols ≤ p.2.2 * 128

/-- A counted word of class `k` may run: an open convoy with a unit of the class left (R39, R40), no slide, matrix or transform word
inside a block (R187), the vector state live and an effective type among `types` (R21, R155, R156), registers on the group factor
(R108), CL within the capacity at every width the word uses (R155), no poison in the mask that guards the word (R383). -/
def State.Ready (s : State) (k : WordClass) (regs : List (BitVec 5)) (types widths : List Nat) : Prop :=
  s.thr.convoy.getLsbD 0 = true ∧ (s.thr.inSpan = true → convoyCount s.thr.convoy k < k.quota) ∧
  (s.thr.vrun.pass = true → k ≠ .Sl ∧ k ≠ .Mx ∧ k ≠ .Tf) ∧ s.thr.status.vlive = true ∧ s.thr.vctx.et ∈ types ∧
  (∀ r ∈ regs, r.toNat % s.thr.vctx.f = 0) ∧ (∀ w ∈ widths, s.thr.vctx.cl ≤ s.thr.cap w) ∧ s.thr.LegalLengths ∧
  s.CleanMask s.thr.vctx.mask s.thr.vctx.rl s.thr.vctx.cl

/-- No active element of the registers `rs`, read at width `w`, is poisoned (R383). -/
def State.CleanRows (s : State) (rs : List (BitVec 5)) (w : Nat) : Prop :=
  ∀ p ∈ s.thr.poisonV, ∀ r ∈ rs, ∀ i < s.thr.vctx.rows, rowIndex s.thr.vctx r i = p.1 * 8 + p.2.1 →
    ∀ j < s.thr.vctx.cl, j * w / 128 = p.2.2 → s.thr.guard s.thr.vctx i j = false

/-- The counted word of class `k` completes, CONVOY counts it (R38), and of the device only the bookkeeping, CONVOY and what `u`
changes of the thread differ. -/
def VectorDone (s t : State) (k : WordClass) (u : Thread) : Prop :=
  Completed s t (s.thr.pc + 4) ∧
    t = { s with thr := ({ u with convoy := convoyStep s.thr.convoy k }).bookOf t.thr, free := t.free }

/-- Elements of register `d` at width `w` within the lengths of `c` hold `f`; the tails of its rows and every row of another register
are as before (R106, R108, R109). -/
def RowsWritten (s t : State) (c : VCtx) (d : BitVec 5) (w : Nat) (f : Nat → Nat → Nat) : Prop :=
  (∀ i < c.rows, ∀ j < c.cl, t.thr.elem c d w i j = f i j) ∧
  (∀ i < c.rows, t.thr.row (rowIndex c d i) / 2 ^ (c.cl * w) = s.thr.row (rowIndex c d i) / 2 ^ (c.cl * w)) ∧
  ∀ k, (∀ i < c.rows, k ≠ rowIndex c d i) → t.thr.row k = s.thr.row k

/-- The element-wise rule (R109, R154, R188): an active element takes `f`, a masked-off one 0 or its old value by the policy. -/
def State.underGuard (s : State) (d : BitVec 5) (w : Nat) (f : Nat → Nat → Nat) (i j : Nat) : Nat :=
  if s.thr.guard s.thr.vctx i j then f i j
  else if s.thr.vctx.zero = true ∧ s.thr.inPass j = true then 0 else s.thr.elem s.thr.vctx d w i j

/-- FFLAGS gains exactly the flags `f` of active elements (R98). -/
def FlagsGained (s t : State) (f : Nat → Nat → Nat) : Prop :=
  ∀ b < 5, t.thr.fflags.getLsbD b = true ↔ s.thr.fflags.getLsbD b = true ∨
    ∃ i < s.thr.vctx.rows, ∃ j < s.thr.vctx.cl, s.thr.guard s.thr.vctx i j = true ∧ (f i j).testBit b = true

/-- The bits of mask `m` within the lengths hold `f`; every other mask bit reads as before, and m0 reads all ones (R31, R107). -/
def MaskWritten (s t : State) (m : BitVec 4) (f : Nat → Nat → Bool) : Prop :=
  ∀ n < 16, ∀ i < 8, ∀ j < 16384, t.thr.maskBit n i j =
    if n = m.toNat ∧ m ≠ 0 ∧ i < s.thr.vctx.rl ∧ j < s.thr.vctx.cl then f i j else s.thr.maskBit n i j

/-- A counted word that computes element by element, with no flag: it completes and writes `f` under its guard. -/
def Elementwise (i : Instr) (s : State) (k : WordClass) (regs srcs : List (BitVec 5)) (types : List Nat) (d : BitVec 5)
    (f : Nat → Nat → Nat) : Prop :=
  let w := typeWidth s.thr.vctx.et
  s.Ready k regs types [w] → s.CleanRows srcs w →
    ∃ t, exec i s = .next t ∧ VectorDone s t k { s.thr with vrows := t.thr.vrows, poisonV := t.thr.poisonV } ∧
      RowsWritten s t s.thr.vctx d w (s.underGuard d w f)

/-- The same with flags, and SRCTR moved where `moves` and the effective rounding is stochastic (R96, R98). -/
def FloatElementwise (i : Instr) (s : State) (k : WordClass) (regs srcs : List (BitVec 5)) (types widths : List Nat) (d : BitVec 5)
    (w : Nat) (moves : Bool) (f : Nat → Nat → Nat × Flags) : Prop :=
  s.Ready k regs types widths → s.CleanRows srcs (typeWidth s.thr.vctx.et) →
    ∃ t, exec i s = .next t ∧
      VectorDone s t k { s.thr with
        vrows := t.thr.vrows, poisonV := t.thr.poisonV, fflags := t.thr.fflags, srctr := t.thr.srctr } ∧
      RowsWritten s t s.thr.vctx d w (s.underGuard d w (fun i j => (f i j).1 % 2 ^ w)) ∧ FlagsGained s t (fun i j => (f i j).2) ∧
      t.thr.srctr = s.thr.srctr +
        (if moves = true ∧ s.thr.vctx.rnd = 5 then BitVec.ofNat 64 (s.thr.vctx.rows * s.thr.vctx.cl) else 0)

end Sys2Proof.Machine
end

