-- ==== Sys2Proof/Certificates/Slice0/Obligations.lean ====
section
/-! DEFINITION. The statements for the provers. -/

open Sys2Proof Sys2Proof.Machine



/-! ## Scalar words -/

/-- R59, R60: the register forms but for the counts; REM and REMU are a - b x quotient with the quotients of R60.
R59: CLZ, CTZ and POPC count what the library's own counts say; each word has its place in format A. -/
def Obligations.ScalarRegisterResults : Prop :=
  (∀ (s : State) (d a b : BitVec 6),
    let x := s.rs a
    let y := s.rs b
    let q : Word := if y = 0 then (if x.slt 0 then 0x8000000000000000 else 0x7FFFFFFFFFFFFFFF) else x.sdiv y
    let qu : Word := if y = 0 then 0xFFFFFFFFFFFFFFFF else x / y
    let n := (y.setWidth 6).toNat
    Computes (.add d a b) s [a, b] d (x + y) ∧ Computes (.sub d a b) s [a, b] d (x - y) ∧
    Computes (.and d a b) s [a, b] d (x &&& y) ∧ Computes (.or d a b) s [a, b] d (x ||| y) ∧
    Computes (.xor d a b) s [a, b] d (x ^^^ y) ∧ Computes (.andn d a b) s [a, b] d (x &&& ~~~y) ∧
    Computes (.sll d a b) s [a, b] d (x <<< n) ∧ Computes (.srl d a b) s [a, b] d (x >>> n) ∧
    Computes (.sra d a b) s [a, b] d (x.sshiftRight n) ∧ Computes (.mul d a b) s [a, b] d (x * y) ∧
    Computes (.mulh d a b) s [a, b] d (((x.signExtend 128 * y.signExtend 128) >>> 64).setWidth 64) ∧
    Computes (.mulhu d a b) s [a, b] d (((x.setWidth 128 * y.setWidth 128) >>> 64).setWidth 64) ∧
    Computes (.div d a b) s [a, b] d q ∧ Computes (.divu d a b) s [a, b] d qu ∧
    Computes (.rem d a b) s [a, b] d (x - y * q) ∧ Computes (.remu d a b) s [a, b] d (x - y * qu) ∧
    Computes (.min d a b) s [a, b] d (if x.slt y then x else y) ∧ Computes (.max d a b) s [a, b] d (if x.slt y then y else x) ∧
    Computes (.minu d a b) s [a, b] d (if x < y then x else y) ∧ Computes (.maxu d a b) s [a, b] d (if x < y then y else x) ∧
    Computes (.seq d a b) s [a, b] d (if x = y then 1 else 0) ∧ Computes (.slt d a b) s [a, b] d (if x.slt y then 1 else 0) ∧
    Computes (.sltu d a b) s [a, b] d (if x < y then 1 else 0)) ∧
  (∀ (s : State) (d a : BitVec 6),
    Computes (.clz d a) s [a] d (s.rs a).clz ∧ Computes (.ctz d a) s [a] d (s.rs a).ctz ∧
    Computes (.popc d a) s [a] d (s.rs a).cpop) ∧
  (∀ (d a b : BitVec 6),
    let table : List (BitVec 8 × BitVec 6 × Instr) :=
      [(0x00, b, .add d a b), (0x01, b, .sub d a b), (0x02, b, .and d a b), (0x03, b, .or d a b), (0x04, b, .xor d a b),
       (0x05, b, .andn d a b), (0x06, b, .sll d a b), (0x07, b, .srl d a b), (0x08, b, .sra d a b), (0x10, b, .mul d a b),
       (0x11, b, .mulh d a b), (0x12, b, .mulhu d a b), (0x13, b, .div d a b), (0x14, b, .divu d a b), (0x15, b, .rem d a b),
       (0x16, b, .remu d a b), (0x18, b, .min d a b), (0x19, b, .max d a b), (0x1A, b, .minu d a b), (0x1B, b, .maxu d a b),
       (0x20, 0, .clz d a), (0x21, 0, .ctz d a), (0x22, 0, .popc d a), (0x28, b, .seq d a b), (0x29, b, .slt d a b),
       (0x2A, b, .sltu d a b)]
    ∀ p ∈ table, decode (0x01#6 ++ d ++ a ++ p.2.1 ++ p.1).toNat = .ok p.2.2)

/-- R61 to R63: the immediate forms are the register forms with the extended immediate; IMMH and PCREL; each word's place in its
format. -/
def Obligations.ScalarImmediateResults : Prop :=
  ∀ (s : State) (d a n : BitVec 6) (i : BitVec 14) (u : BitVec 20),
    let x := s.rs a
    let y : Word := i.signExtend 64
    let v : Word := ((u.setWidth 34) <<< 14).signExtend 64
    Computes (.addi d a i) s [a] d (x + y) ∧ Computes (.andi d a i) s [a] d (x &&& y) ∧
    Computes (.ori d a i) s [a] d (x ||| y) ∧ Computes (.xori d a i) s [a] d (x ^^^ y) ∧
    Computes (.slti d a i) s [a] d (if x.slt y then 1 else 0) ∧ Computes (.sltiu d a i) s [a] d (if x < y then 1 else 0) ∧
    Computes (.slli d a n) s [a] d (x <<< n.toNat) ∧ Computes (.srli d a n) s [a] d (x >>> n.toNat) ∧
    Computes (.srai d a n) s [a] d (x.sshiftRight n.toNat) ∧
    Computes (.immh d u) s [] d v ∧ Computes (.pcrel d u) s [] d (s.thr.pc + v) ∧
    (∀ p ∈ ([(0x02, .addi d a i), (0x03, .andi d a i), (0x04, .ori d a i), (0x05, .xori d a i), (0x06, .slti d a i),
             (0x07, .sltiu d a i)] : List (BitVec 6 × Instr)), decode (p.1 ++ d ++ a ++ i).toNat = .ok p.2) ∧
    (∀ p ∈ ([(0x00, .slli d a n), (0x01, .srli d a n), (0x02, .srai d a n)] : List (BitVec 8 × Instr)),
      decode (0x08#6 ++ d ++ a ++ n ++ p.1).toNat = .ok p.2) ∧
    decode (0x09#6 ++ d ++ u).toNat = .ok (.immh d u) ∧ decode (0x0A#6 ++ d ++ u).toNat = .ok (.pcrel d u)

/-- The type codes of the word families (R32, R156, R173). -/
def Sys2Proof.Machine.intTypes : List Nat := [8, 9, 10, 11, 12, 16, 17, 18, 19, 20]
def Sys2Proof.Machine.fp6Types : List Nat := [0, 1, 2, 3, 4, 5]
def Sys2Proof.Machine.fp4Types : List Nat := [0, 1, 2, 3]
def Sys2Proof.Machine.anyTypes : List Nat := [0, 1, 2, 3, 4, 5, 6, 7] ++ intTypes

/-- The counted words but those of the array and of the transforms, for a thread whose effective type has `w` bits: class (R36), registers
whose numbers the group factor must divide (R108; a compare and a mask word take F = 1 alone, R158), the registers that the word reads under
its guard and no more, accepted types (R156, R173), the widths at which CL must fit (R155). -/
def Sys2Proof.Machine.vectorTable (w : Nat) (v4 : Option (BitVec 5)) (d a b ty : BitVec 5) (m p q : BitVec 4) (x y : BitVec 6)
    (h : BitVec 3) : List (Instr × WordClass × List (BitVec 5) × List (BitVec 5) × List Nat × List Nat) :=
  let k := v4.getD d
  let ints := intTypes
  let red := intTypes ++ fp6Types
  let wide := anyTypes.filter (fun t => decide (typeWidth t ≠ 4))
  let stream := fp6Types ++ [6, 8, 9, 10, 11]
  let of := fun (c : WordClass) (regs srcs : List (BitVec 5)) (ts ws : List Nat) (i : Instr) => (i, c, regs, srcs, ts, ws)
  [.vadd d a b, .vsub d a b, .vmul d a b, .vmulh d a b, .vmin d a b, .vmax d a b, .vminu d a b, .vmaxu d a b, .vsll d a b, .vsrl d a b,
    .vsra d a b, .vadds d a b, .vsubs d a b].map (of .Ar [d, a, b] [a, b] ints [w]) ++
  [.vand d a b, .vor d a b, .vxor d a b].map (of .Ar [d, a, b] [a, b] anyTypes [w]) ++
  [.vabs d a, .vneg d a].map (of .Ar [d, a] [a] ints [w]) ++ [.vmov d a].map (of .Ar [d, a] [a] anyTypes [w]) ++
  [.vsel d a b].map (of .Ar [d, a, b] [] anyTypes [w]) ++
  [.vfadd d a b, .vfsub d a b, .vfmul d a b, .vfmin d a b, .vfmax d a b].map (of .Ar [d, a, b] [a, b] fp6Types [w]) ++
  [.vfabs d a, .vfneg d a].map (of .Ar [d, a] [a] fp6Types [w]) ++
  [.vfma d a b, .vfms d a b, .vfnma d a b, .vfnms d a b].map (of .Ar [d, a, b, k] [a, b, k] fp6Types [w]) ++
  [.vdiv d a b].map (of .Sp [d, a, b] [a, b] fp4Types [w]) ++ [.vsqrt d a, .vrcps d a, .vrsqs d a].map (of .Sp [d, a] [a] fp4Types [w]) ++
  [.vceq m a b, .vcne m a b, .vclt m a b, .vcle m a b].map (of .Ar [a, b, 1] [a, b] red [w]) ++
  [.vcltu m a b, .vcleu m a b].map (of .Ar [a, b, 1] [a, b] ints [w]) ++ [.vcun m a b].map (of .Ar [a, b, 1] [a, b] fp6Types [w]) ++
  [.mand m p q, .mor m p q, .mxor m p q, .mandn m p q, .mnot m p, .mmov m p, .mfirst m p].map (of .Mk [1] [] anyTypes []) ++
  [.vcvt d a ty, .vcvts d a ty].map (of .Ar [d, a] [a] anyTypes [w, typeWidth ty.toNat]) ++
  [.vredo d a b, .vredt d a b, .vredmin d a b, .vredmax d a b, .vscan d a b, .vscanx d a b].map (of .Sl [d, a, b] [] red [w]) ++
  [.vperm d a b].map (of .Sl [d, a, b] [] anyTypes [w]) ++ [.vcomp d a].map (of .Sl [d, a] [a] anyTypes [w]) ++
  [.vexpd d a, .vslup d a x, .vsldn d a x, .vxchg d a x].map (of .Sl [d, a] [] anyTypes [w]) ++
  [.vbcast d x].map (of .Ar [d] [] anyTypes [w]) ++ [.viota d x].map (of .Ar [d] [] ints [w]) ++ [.vrng d x].map (of .Ar [d] [] red [w]) ++
  [.vld d x y h, .vldc d x y h].map (of .Ld [d] [] anyTypes [w]) ++ [.vlds d x y h].map (of .Ld [d] [] wide [w]) ++
  [.vst d x y h, .vstc d x y h].map (of .St [d] [] anyTypes [w]) ++ [.vsts d x y h].map (of .St [d] [] wide [w]) ++
  [.vgath d a x].map (of .Ld [d, a] [] wide [w, 32]) ++ [.vscat d a x].map (of .St [d, a] [] wide [w, 32]) ++
  [.vscadd d a x].map (of .St [d, a] [] (intTypes.filter (fun t => decide (typeWidth t ≠ 4)) ++ fp4Types) [w, 32]) ++
  [.vldb d x y h].map (of .Ld [d] [] stream []) ++ [.vstb d x y h].map (of .St [d] [] (fp6Types ++ [8, 9, 10, 11]) [w]) ++
  [.vldz d x y h].map (of .Ld [d] [] wide [])

/-- The words of the array and the transforms with class, registers and accepted types (R324). -/
def Sys2Proof.Machine.arrayTable (d a : BitVec 5) (x : BitVec 6) (z : BitVec 2) (n : BitVec 3) :
    List (Instr × WordClass × List (BitVec 5) × List Nat) :=
  let operands : List Nat := [2, 3, 4, 5, 6, 7, 11, 12]
  let wide := anyTypes.filter (fun t => decide (typeWidth t ≠ 4))
  [(.mldb x, .Mx, [], operands), (.mmao d a x, .Mx, [d, a], operands), (.mmaf d a x, .Mx, [d, a], operands),
   (.mmas d a x, .Mx, [d, a], operands), (.sknot, .Mx, [], anyTypes), (.sldc x, .Mx, [], anyTypes), (.seval d a, .Mx, [d, a], [1]),
   (.sevald d a, .Mx, [d, a], [1]), (.sgrad d a x, .Mx, [d, a], [1]), (.sref x, .Mx, [], anyTypes), (.xdec d x, .Tf, [d], wide),
   (.xenc d z n x, .Tf, [d], wide)]

/-- The words that compute from scalar registers and read exactly the registers listed (R59, R61, R62, R73). -/
def Sys2Proof.Machine.scalarReaders (d a b n : BitVec 6) (i : BitVec 14) : List (Instr × List (BitVec 6)) :=
  let two : List Instr :=
    [.add d a b, .sub d a b, .and d a b, .or d a b, .xor d a b, .andn d a b, .sll d a b, .srl d a b, .sra d a b, .mul d a b,
     .mulh d a b, .mulhu d a b, .div d a b, .divu d a b, .rem d a b, .remu d a b, .min d a b, .max d a b, .minu d a b,
     .maxu d a b, .seq d a b, .slt d a b, .sltu d a b]
  let twoF : List Instr :=
    [.faddS d a b, .fsubS d a b, .fmulS d a b, .fdivS d a b, .fminS d a b, .fmaxS d a b, .fceqS d a b, .fcltS d a b,
     .fcleS d a b, .faddD d a b, .fsubD d a b, .fmulD d a b, .fdivD d a b, .fminD d a b, .fmaxD d a b, .fceqD d a b,
     .fcltD d a b, .fcleD d a b]
  let one : List Instr :=
    [.clz d a, .ctz d a, .popc d a, .addi d a i, .andi d a i, .ori d a i, .xori d a i, .slti d a i, .sltiu d a i, .slli d a n,
     .srli d a n, .srai d a n, .fsqrtS d a, .ftoiS d a, .itofS d a, .fsqrtD d a, .ftoiD d a, .itofD d a, .fnrw d a, .fwdn d a]
  let three : List Instr := [.ffmaS d a b, .ffmaD d a b]
  two.map (·, [a, b]) ++ twoF.map (·, [a, b]) ++ one.map (·, [a]) ++ three.map (·, [a, b, d])

/-- Control registers as R17 gives them: those a user may write, those that only a supervisor may write, and those that a user may not
even read. -/
def Sys2Proof.Machine.userRegs : List Nat :=
  [0x009, 0x00A, 0x013, 0x018, 0x019, 0x01A, 0x01C, 0x01D, 0x01E, 0x01F, 0x030, 0x040, 0x041, 0x042, 0x043, 0x044, 0x048, 0x049]
def Sys2Proof.Machine.superRegs : List Nat := [0x008, 0x012, 0x014, 0x031, 0x032, 0x034, 0x035]
def Sys2Proof.Machine.secretRegs : List Nat := [0x051, 0x100, 0x101, 0x102, 0x103, 0x104]

/-- No earlier check of R24 stops the word at supervisor level: a WRC names a register it may write and a legal value, a VJOIN stands at
the end of its run, a VFETCH stands before its VJOIN with a legal address. -/
def Sys2Proof.Machine.NoEarlierTrap (i : Instr) (s : State) : Prop :=
  match i with
  | .wrc a c => c.toNat ∈ userRegs ++ superRegs ++ secretRegs ∧ cregLegal c (s.rs a) = true
  | .vjoin => s.thr.vrun.run = true ∧ s.thr.vrun.depth = 0 ∧ s.thr.vrun.sets = [] ∧ ∀ v ∈ s.thr.vrun.vps, v.1 = 0
  | .vfetch sb => s.fetchPeek (s.thr.pc + 4) = .ok 0xB8000001 ∧ (s.rs sb).toNat % 4 = 0 ∧ (s.rs sb).toNat < 2 ^ 56
  | _ => True

/-- The other words that read scalar registers, with what R24 ranks before their poison: an operand that must be aligned, the privilege
of a privileged word, the segments of a CSAVE. -/
def Sys2Proof.Machine.serialReaders (s : State) (d a b : BitVec 6) (i o : BitVec 14) (c r : Bool) (sc : BitVec 3) :
    List (Instr × List (BitVec 6) × Prop) :=
  let al := fun (x : BitVec 6) (n : Nat) => (s.rs x).toNat % n = 0
  let sup := s.thr.status.priv = true
  [.beq a b o, .bne a b o, .blt a b o, .bge a b o, .bltu a b o, .bgeu a b o].map (·, [a, b], True) ++ [(.jlkr d a i, [a], True)] ++
  [.amoaddW d a b c r sc, .amoswapW d a b c r sc, .amoandW d a b c r sc, .amoorW d a b c r sc, .amoxorW d a b c r sc,
    .amominW d a b c r sc, .amomaxW d a b c r sc].map (·, [a, b], al a 4) ++
  [.amoaddD d a b c r sc, .amoswapD d a b c r sc, .amoandD d a b c r sc, .amoorD d a b c r sc, .amoxorD d a b c r sc,
    .amominD d a b c r sc, .amomaxD d a b c r sc].map (·, [a, b], al a 8) ++
  [(.amocasW d a b c r sc, [a, b, d], al a 4), (.amocasD d a b c r sc, [a, b, d], al a 8), (.ldaW d a sc, [a], al a 4),
   (.ldaD d a sc, [a], al a 8), (.stlW d a sc, [a, d], al a 4), (.stlD d a sc, [a, d], al a 8), (.rfence a, [a], True),
   (.wbr a b sc, [a, b], True), (.invr a b sc, [a, b], True), (.claim d a, [a], True), (.spclaim d a, [a], True),
   (.setl4 d a b, [a, b], True), (.setl8 d a b, [a, b], True), (.setl16 d a b, [a, b], True), (.setl32 d a b, [a, b], True),
   (.setl64 d a b, [a, b], True), (.own a b, [a, b], True), (.bdef d a b, [d, a, b], True), (.bput a b, [a, b], True),
   (.cadd d a b, [a, b], al a 8), (.launch a, [a], al a 64), (.flcfg d a b, [d, a, b], True), (.fllvl d a b, [d, a, b], True),
   (.flxf a b, [a, b], True), (.flblk a b, [a, b], True), (.flstart d a b, [d, a, b], al d 8), (.topen a b, [a, b], al b 64),
   (.twalk d a b, [d, a, b], al a 4), (.tappend d a b, [d, a, b], al b 8), (.trefit a b, [a, b], al b 8),
   (.tsumr d a b, [d, a, b], al b 64), (.clstart a, [a], al a 64), (.tlbinv a b, [a, b], sup), (.tlbinva a, [a], sup),
   (.embrd d a b, [a, b], al a 65536 ∧ sup), (.rlogctl a, [a], al a 64 ∧ sup),
   (.csave a b, [a, b], al a 65536 ∧ al b 65536 ∧ sup ∧ s.thr.nseg ≤ 1), (.crestore a b, [a, b], al a 65536 ∧ al b 65536 ∧ sup)]

/-- The first active element of the next counted word in row-major order (R113). -/
def Sys2Proof.Machine.FirstActive (s : State) (i j : Nat) : Prop :=
  let c := s.thr.vctx
  let active := fun i j => i < c.rows ∧ j < c.cl ∧ s.thr.guard c i j = true
  active i j ∧ ∀ i' j', active i' j' → i < i' ∨ i = i' ∧ j ≤ j'

/-- R383: a word that consumes a poisoned scalar register takes the data access fault with REASON 5, LEVEL 7 and TVAL 0, and
nothing else of it happens: the words that compute, the loads and stores where their address is aligned, WRC of a register that it may write and a
legal value, the other class X words, where nothing that ranks before it in R24 stops them, and one that waits leaves its wait.
R383: so does a counted word that consumes a poisoned scalar register, a poisoned active element of a register that it reads under its guard,
or poisoned bits of the mask that guards it; a row load or store faults at its first active element, where that is aligned. -/
def Obligations.PoisonedScalarOperandFaults : Prop :=
  (∀ (s : State) (d a b n : BitVec 6) (i : BitVec 14),
    let ea := s.rs a + i.signExtend 64
    (∀ p ∈ scalarReaders d a b n i, ¬ s.Clean p.2 → exec p.1 s = .next (s.takeTrap 8 0 (some 0x75))) ∧
    (∀ p ∈ ([(.lb d a i, 1), (.lbu d a i, 1), (.lh d a i, 2), (.lhu d a i, 2), (.lw d a i, 4), (.lwu d a i, 4), (.ld d a i, 8)] :
      List (Instr × Nat)), ea.toNat % p.2 = 0 → ¬ s.Clean [a] → exec p.1 s = .next (s.takeTrap 8 0 (some 0x75))) ∧
    (∀ p ∈ ([(.sb d a i, 1), (.sh d a i, 2), (.sw d a i, 4), (.sd d a i, 8)] : List (Instr × Nat)),
      ea.toNat % p.2 = 0 → ¬ s.Clean [a, d] → exec p.1 s = .next (s.takeTrap 8 0 (some 0x75)))) ∧
  (∀ (s : State) (d a b : BitVec 6) (i o : BitVec 14) (n : BitVec 12) (c r : Bool) (sc : BitVec 3), s.Serial →
    (∀ p ∈ serialReaders s d a b i o c r sc, p.2.2 → ¬ s.Clean p.2.1 → exec p.1 s = .next (s.takeTrap 8 0 (some 0x75))) ∧
    (n.toNat ∈ userRegs ∨ s.thr.status.priv = true ∧ (n.toNat ∈ superRegs ∨ n.toNat ∈ secretRegs) → cregLegal n (s.rs a) = true →
      ¬ s.Clean [a] → exec (.wrc a n) s = .next (s.takeTrap 8 0 (some 0x75))) ∧
    (∀ p ∈ ([(.bget d a b, True), (.waitev d a b, (s.rs a).toNat % 8 = 0), (.cwait d a b, (s.rs a).toNat % 8 = 0)] : List (Instr × Prop)),
      p.2 → ¬ s.Clean [a, b] → exec p.1 s = .next (s.leaveWaits.takeTrap 8 0 (some 0x75))) ∧
    (s.thr.status.vlive = true → NoEarlierTrap (.vfetch a) s → ¬ s.Clean [a] →
      exec (.vfetch a) s = .next (s.takeTrap 8 0 (some 0x75)))) ∧
  ∀ (s : State) (d a b ty : BitVec 5) (m p q : BitVec 4) (x y : BitVec 6) (h : BitVec 3), ty.toNat ∈ anyTypes →
    let c := s.thr.vctx
    let w := typeWidth c.et
    let healthy := { s with thr := { s.thr with poisonV := [] } }
    let row := fun i j => s.rs x + BitVec.ofNat 64 i * s.rs y + BitVec.ofNat 64 (j * w / 8)
    (∀ r ∈ vectorTable w c.v4 d a b ty m p q x y h, healthy.Ready r.2.1 r.2.2.1 r.2.2.2.2.1 r.2.2.2.2.2 →
      (¬ s.CleanMask c.mask c.rl c.cl ∨ ¬ s.CleanRows r.2.2.2.1 w) → exec r.1 s = .next (s.takeTrap 8 0 (some 0x75))) ∧
    (∀ r ∈ ([(.vbcast d x, .Ar, [d], anyTypes), (.viota d x, .Ar, [d], intTypes), (.vrng d x, .Ar, [d], intTypes ++ fp6Types),
        (.vslup d a x, .Sl, [d, a], anyTypes), (.vsldn d a x, .Sl, [d, a], anyTypes), (.vxchg d a x, .Sl, [d, a], anyTypes)] :
        List (Instr × WordClass × List (BitVec 5) × List Nat)), s.Ready r.2.1 r.2.2.1 r.2.2.2 [w] → 0 < c.cl → 0 < c.rl →
      ¬ s.Clean [x] → exec r.1 s = .next (s.takeTrap 8 0 (some 0x75))) ∧
    (s.thr.xresume.getLsbD 63 = false → s.thr.stopAt = none → ∀ i j, FirstActive s i j → (row i j).toNat % max 1 (w / 8) = 0 →
      (s.Ready .Ld [d] anyTypes [w] → ¬ s.Clean [x, y] → exec (.vld d x y h) s = .next (s.takeTrap 8 0 (some 0x75))) ∧
      (s.Ready .St [d] anyTypes [w] → (¬ s.Clean [x, y] ∨ ∃ e ∈ s.thr.poisonV, rowIndex c d i = e.1 * 8 + e.2.1 ∧ j * w / 128 = e.2.2) →
        exec (.vst d x y h) s = .next (s.takeTrap 8 0 (some 0x75))))

/-- R64: each conditional branch goes to PC + 4 x offset exactly where its condition holds, and writes no register.
R65, R66: JLK and JLKR write the link and go to their target, which JLKR takes from the old sa and does not check. -/
def Obligations.BranchesAndJumps : Prop :=
  (∀ (s : State) (a b : BitVec 6) (o : BitVec 14), s.Serial → s.Clean [a, b] →
    let x := s.rs a
    let y := s.rs b
    let goes := fun (i : Instr) (c : Bool) =>
      ∃ t, exec i s = .next t ∧ KeptScalars s t ∧
        if c then Completed s t (s.thr.pc + 4 * o.signExtend 64) ∧ JumpFrame s t else Completed s t (s.thr.pc + 4) ∧ ScalarFrame s t
    goes (.beq a b o) (x == y) ∧ goes (.bne a b o) (x != y) ∧ goes (.blt a b o) (x.slt y) ∧ goes (.bge a b o) (y.sle x) ∧
    goes (.bltu a b o) (x.ult y) ∧ goes (.bgeu a b o) (y.ule x)) ∧
  (∀ (s : State) (d a : BitVec 6) (i : BitVec 14) (o : BitVec 20), s.Serial →
    (∃ t, exec (.jlk d o) s = .next t ∧ Completed s t (s.thr.pc + 4 * o.signExtend 64) ∧ Wrote s t d (s.thr.pc + 4) ∧ JumpFrame s t) ∧
    (s.Clean [a] → ∃ t, exec (.jlkr d a i) s = .next t ∧ Completed s t (s.rs a + i.signExtend 64) ∧ Wrote s t d (s.thr.pc + 4) ∧
      JumpFrame s t))

/-- R187, R24: inside a pass of a vector-fetched block every word of class X but VNEXT and VPEND takes the illegal-instruction trap
with TVAL the word.
R40, R34, R24: in an open convoy that the thread stands in, a word of class X takes the illegal-convoy trap with TVAL the GRP, unless an
earlier check of R24 stops it; a privileged word is considered at supervisor level.
R24, R39, R40, R155, R156, R108: a counted word of an illegal type, or with a register that the group factor does not divide, takes the
illegal-instruction trap; else, in no open convoy or with its class's quota used up, the illegal-convoy trap, TVAL 0 or the GRP; else, where
the vector state is not live or the type is 0x1F, and then where CL exceeds the capacity at a width of the word, the vector-state trap, TVAL the
word in all of them. (That the capacity counts at RL = 0 too is the model's choice, entry 89, the rank of the group factor entry 17.)  R324: an
array or transform word checks its convoy and the vector state before its registers and its type. -/
def Obligations.NoSerialWordInsideAConvoyOrBlock : Prop :=
  (∀ (i : Instr) (s : State), i.isEvent = false → instrClass i = .X → (∀ m sb, i ≠ .vnext m sb) → i ≠ .vpend →
    s.thr.vrun.pass = true → exec i s = .next (s.takeTrap 1 (BitVec.ofNat 64 (encode i)) none)) ∧
  (∀ (i : Instr) (s : State), i.isEvent = false → instrClass i = .X → (∀ m sb, i ≠ .vnext m sb) → i ≠ .vpend →
    s.thr.vrun.pass = false → s.thr.inSpan = true → s.thr.convoy.getLsbD 0 = true → s.thr.status.priv = true → NoEarlierTrap i s →
    exec i s = .next (s.takeTrap 4 (s.thr.convoy >>> 32) none)) ∧
  (∀ (s : State) (d a b ty : BitVec 5) (m p q : BitVec 4) (x y : BitVec 6) (h : BitVec 3), ty.toNat ∈ anyTypes →
    let c := s.thr.vctx
    ∀ r ∈ vectorTable (typeWidth c.et) c.v4 d a b ty m p q x y h,
      let traps := fun (code : Nat) (v : Word) => exec r.1 s = .next (s.takeTrap code v none)
      let word : Word := BitVec.ofNat 64 (encode r.1)
      let bad := c.et ≠ 31 ∧ c.et ∉ r.2.2.2.2.1 ∨ (∃ n ∈ r.2.2.1, n.toNat % c.f ≠ 0)
      let spent := s.thr.inSpan = true ∧ r.2.1.quota ≤ convoyCount s.thr.convoy r.2.1
      (bad → traps 1 word) ∧
      (¬ bad → (s.thr.vrun.pass = true → r.2.1 ≠ .Sl) →
        (s.thr.convoy.getLsbD 0 = false → traps 4 0) ∧
        (s.thr.convoy.getLsbD 0 = true → spent → traps 4 (s.thr.convoy >>> 32)) ∧
        (s.thr.convoy.getLsbD 0 = true → ¬ spent →
          (s.thr.status.vlive = false ∨ c.et = 31 → traps 9 word) ∧ ((∃ n ∈ r.2.2.2.2.2, s.thr.cap n < c.cl) → traps 9 word)))) ∧
  (∀ (s : State) (d a : BitVec 5) (x : BitVec 6) (z : BitVec 2) (n : BitVec 3), s.thr.vrun.pass = false →
    let c := s.thr.vctx
    ∀ r ∈ arrayTable d a x z n,
      let traps := fun (code : Nat) (v : Word) => exec r.1 s = .next (s.takeTrap code v none)
      let word : Word := BitVec.ofNat 64 (encode r.1)
      let spent := s.thr.inSpan = true ∧ r.2.1.quota ≤ convoyCount s.thr.convoy r.2.1
      let dead := s.thr.status.vlive = false ∨ c.et = 31
      (s.thr.convoy.getLsbD 0 = false → traps 4 0) ∧ (s.thr.convoy.getLsbD 0 = true → spent → traps 4 (s.thr.convoy >>> 32)) ∧
      (s.thr.convoy.getLsbD 0 = true → ¬ spent → (dead → traps 9 word) ∧
        (¬ dead → (∃ k ∈ r.2.2.1, k.toNat % c.f ≠ 0) ∨ c.et ∉ r.2.2.2 → traps 1 word)))

/-! ## Scalar floating point -/

/-- A scalar floating word completes with the pattern and flags `r`; under FRM 5 a word that rounds moves SRCTR by one (R72, R96). -/
def Sys2Proof.Machine.Rounds (i : Instr) (s : State) (rs : List (BitVec 6)) (d : BitVec 6) (moves : Bool) (r : Nat × Flags) : Prop :=
  s.Clean rs → ∃ t, exec i s = .next t ∧ Completed s t (s.thr.pc + 4) ∧ Wrote s t d (BitVec.ofNat 64 r.1) ∧ FloatFrame s t ∧
    t.thr.fflags = s.thr.fflags ||| BitVec.ofNat 5 r.2 ∧
    t.thr.srctr = s.thr.srctr + (if moves ∧ s.thr.frm = 5 then 1 else 0)

/-- R71 to R74, R77: the words that round, at FP32 and FP64: each completes, writes its delivered pattern with bits 63:32 zero for
FP32, only ever sets flags, and changes nothing else; what is delivered is the model's rounding of the exact result, which
`Obligations.RoundingPicksTheNeighbour` states.  FSUB is the sum with the second operand's sign changed. -/
def Obligations.ScalarFloatRounding : Prop :=
  ∀ (s : State) (d a b : BitVec 6),
    let rn : Rnd := ⟨s.thr.frm.toNat, stochBits s.thr.srctr s.thr.rngkey 0, false⟩
    let x := fp32.val ((s.rs a).setWidth 32).toNat
    let y := fp32.val ((s.rs b).setWidth 32).toNat
    let z := fp32.val ((s.rs d).setWidth 32).toNat
    let u := fp64.val (s.rs a).toNat
    let v := fp64.val (s.rs b).toNat
    let w := fp64.val (s.rs d).toNat
    Rounds (.faddS d a b) s [a, b] d true (fp32.add rn x y) ∧ Rounds (.fsubS d a b) s [a, b] d true (fp32.add rn x y.flip) ∧
    Rounds (.fmulS d a b) s [a, b] d true (fp32.mul rn x y) ∧ Rounds (.fdivS d a b) s [a, b] d true (fp32.div rn x y) ∧
    Rounds (.fsqrtS d a) s [a] d true (fp32.sqrt rn x) ∧ Rounds (.ffmaS d a b) s [a, b, d] d true (fp32.fma rn x y z) ∧
    Rounds (.ftoiS d a) s [a] d true (toIntSat 64 true rn x) ∧
    Rounds (.itofS d a) s [a] d true (fp32.deliver rn (intVal (s.rs a).toInt)) ∧
    Rounds (.faddD d a b) s [a, b] d true (fp64.add rn u v) ∧ Rounds (.fsubD d a b) s [a, b] d true (fp64.add rn u v.flip) ∧
    Rounds (.fmulD d a b) s [a, b] d true (fp64.mul rn u v) ∧ Rounds (.fdivD d a b) s [a, b] d true (fp64.div rn u v) ∧
    Rounds (.fsqrtD d a) s [a] d true (fp64.sqrt rn u) ∧ Rounds (.ffmaD d a b) s [a, b, d] d true (fp64.fma rn u v w) ∧
    Rounds (.ftoiD d a) s [a] d true (toIntSat 64 true rn u) ∧
    Rounds (.itofD d a) s [a] d true (fp64.deliver rn (intVal (s.rs a).toInt)) ∧
    Rounds (.fnrw d a) s [a] d true (fp32.deliver rn u)

/-- A reading as a rational; an infinity reads as a number beyond those of every format, a NaN as 0. -/
def Sys2Proof.Machine.ratOf : FVal → ℚ
  | .num neg m e => (if neg then -1 else 1) * m * (2 : ℚ) ^ e
  | .inf neg => (if neg then -1 else 1) * (2 : ℚ) ^ 2000
  | .nan _ => 0

/-- A pattern of the format that reads as a number. -/
def Sys2Proof.Machine.FinitePat (f : Fmt) (p : Nat) : Prop := p < 2 ^ f.width ∧ (f.val p).special = false

/-- R75, R76, R73: FMIN and FMAX give one of the operands' patterns, -0 below +0, the NaN of cause 1 where both are NaNs; the compares
give 1 or 0; no flag but invalid can rise, and SRCTR stays; FWDN gives the same number, sign and infinity at FP64. -/
def Obligations.ScalarFloatMinMaxCompare : Prop :=
  ∀ (s : State) (d a b : BitVec 6), s.Clean [a, b] →
    let gives := fun (i : Instr) (r : Nat) (nv : Bool) => ∃ t, exec i s = .next t ∧ Completed s t (s.thr.pc + 4) ∧
      Wrote s t d (BitVec.ofNat 64 r) ∧ FloatFrame s t ∧ t.thr.srctr = s.thr.srctr ∧
      t.thr.fflags = s.thr.fflags ||| (if nv then 1 else 0)
    let all := fun (f : Fmt) (mn mx eq lt le : Instr) =>
      let p := (s.rs a).toNat % 2 ^ f.width
      let q := (s.rs b).toNat % 2 ^ f.width
      let x := f.val p
      let y := f.val q
      let sig := decide (x = .nan true) || decide (y = .nan true)
      let first := decide (ratOf x < ratOf y) || (decide (ratOf x = ratOf y) && x.neg)
      (x.isNan = true → y.isNan = true → gives mn (f.nanOf 1).1 sig ∧ gives mx (f.nanOf 1).1 sig) ∧
      (x.isNan = true → y.isNan = false → gives mn q sig ∧ gives mx q sig) ∧
      (x.isNan = false → y.isNan = true → gives mn p sig ∧ gives mx p sig) ∧
      (x.isNan = false → y.isNan = false → gives mn (if first then p else q) false ∧ gives mx (if first then q else p) false ∧
        gives eq (if ratOf x = ratOf y then 1 else 0) false ∧ gives lt (if ratOf x < ratOf y then 1 else 0) false ∧
        gives le (if ratOf x ≤ ratOf y then 1 else 0) false) ∧
      ((x.isNan || y.isNan) = true → gives eq 0 sig ∧ gives lt 0 true ∧ gives le 0 true)
    let w := fp32.val ((s.rs a).toNat % 2 ^ 32)
    all fp32 (.fminS d a b) (.fmaxS d a b) (.fceqS d a b) (.fcltS d a b) (.fcleS d a b) ∧
    all fp64 (.fminD d a b) (.fmaxD d a b) (.fceqD d a b) (.fcltD d a b) (.fcleD d a b) ∧
    (w.isNan = true → gives (.fwdn d a) 0x7FF8000000000001 (decide (w = .nan true))) ∧
    (w.isNan = false → ∃ r, ratOf (fp64.val r) = ratOf w ∧ (fp64.val r).neg = w.neg ∧ gives (.fwdn d a) r false)

/-- A finite pattern's value as a real. -/
noncomputable def Sys2Proof.Machine.realOf (f : Fmt) (p : Nat) : ℝ := ((ratOf (f.val p) : ℚ) : ℝ)

/-- R92, R96: `y`, of a pattern with last bit `odd`, is what mode `mode` with random bits `bits` picks for `x` among the values `V`: itself
where it is one; else under RNE the nearest, the even pattern on a tie; under RTZ the greatest magnitude not above; under RDN the greatest
not above; under RUP the least not below; under RNA the nearest, away from zero on a tie; under the stochastic mode the upper neighbour
exactly where (x - a) 2^16 exceeds `bits` (b - a). -/
def Sys2Proof.Machine.Picks (mode bits : Nat) (V : ℝ → Prop) (x y : ℝ) (odd : Bool) : Prop :=
  (V x → y = x) ∧
  (mode = 5 → ∀ a b, V a → V b → a < x → x < b → (∀ v, V v → v ≤ a ∨ b ≤ v) →
    y = if bits * (b - a) < (x - a) * 65536 then b else a) ∧
  ∀ v, V v →
    (mode = 0 → |y - x| ≤ |v - x| ∧ (|y - x| = |v - x| → v ≠ y → odd = false)) ∧
    (mode = 1 → |y| ≤ |x| ∧ 0 ≤ y * x ∧ (|v| ≤ |x| → |v| ≤ |y|)) ∧
    (mode = 2 → y ≤ x ∧ (v ≤ x → v ≤ y)) ∧
    (mode = 3 → x ≤ y ∧ (x ≤ v → y ≤ v)) ∧
    (mode = 4 → |y - x| ≤ |v - x| ∧ (|y - x| = |v - x| → v ≠ y → |v| ≤ |y|))

/-- The infinity of a format, or what stands for it (R93, R94). -/
def Sys2Proof.Machine.infPat (f : Fmt) : Nat := if f = f8e4 then 0x7F else if f = f4 then 7 else (2 ^ f.eb - 1) * 2 ^ f.mb

/-- R93: whether a nonzero exact result overflows: above the largest magnitude, under a directed mode always, under a nearest one from
half a step above on. -/
def Sys2Proof.Machine.Overflows (f : Fmt) (mode : Nat) (x : ℝ) : Prop :=
  let m := realOf f f.maxPat
  let half := (m - realOf f (f.maxPat - 1)) / 2
  m < |x| ∧ (mode = 1 ∨ mode = 2 ∨ mode = 3 ∨ m + half < |x| ∨ (|x| = m + half ∧ (mode = 4 ∨ f.maxPat % 2 = 1)))

/-- R92 to R97: the pattern and flags that a format delivers for a nonzero exact result `x`: an overflow as R93 has it, with overflow and
inexact; else the value picked, its sign kept, inexact exactly where it differs from `x`, underflow where it is also below the smallest
normal number; under flush a subnormal result of the wide formats is a zero of its sign, with underflow and inexact. -/
def Sys2Proof.Machine.Delivers (f : Fmt) (rn : Rnd) (x : ℝ) (r : Nat × Flags) : Prop :=
  let mode := if rn.mode = 5 ∧ realOf f f.maxPat < |x| then 0 else rn.mode
  let neg := decide (x < 0)
  let sign := if neg then 2 ^ (f.eb + f.mb) else 0
  let out := mode = 0 ∨ mode = 4 ∨ (mode = 3 ∧ 0 < x) ∨ (mode = 2 ∧ x < 0)
  (Overflows f mode x → r.2 = 20 ∧ (out → r.1 = if f = f8e4 then 0x7F else infPat f + sign) ∧ (¬ out → r.1 = f.maxPat + sign)) ∧
  (¬ Overflows f mode x → ∃ p, FinitePat f p ∧ f.sign p = neg ∧
    Picks mode rn.r (fun v => ∃ u, FinitePat f u ∧ v = realOf f u) x (realOf f p) (decide (p % 2 = 1)) ∧
    if rn.flush = true ∧ f.flushes = true ∧ realOf f p ≠ 0 ∧ f.expo p = 0 then r = (sign, 24)
    else r.1 = p ∧ (realOf f p = x → r.2 = 0) ∧ (realOf f p ≠ x → r.2 = if f.expo p = 0 then 24 else 16))

/-- R165: the seed of `x`, an exact nonzero real: to nearest, ties to even, among the values of the format with at most 13 significant
bits, with no flag; an infinity and overflow above them; a subnormal one under flush is a zero of its sign with underflow and inexact. -/
def Sys2Proof.Machine.SeedOf (f : Fmt) (flush : Bool) (x : ℝ) (r : Nat × Flags) : Prop :=
  let k := min 13 (f.mb + 1)
  let neg := decide (x < 0)
  let sign := if neg then 2 ^ (f.eb + f.mb) else 0
  let narrow := fun (v : ℝ) => ∃ (m : Nat) (e : ℤ), m < 2 ^ k ∧ |v| = m * (2 : ℝ) ^ e
  let limit : ℝ := (2 : ℝ) ^ ((f.bias : ℤ) + 1) - (2 : ℝ) ^ ((f.bias : ℤ) - k)
  (limit ≤ |x| → r = (infPat f + sign, 4)) ∧
  (|x| < limit → ∃ p, FinitePat f p ∧ f.sign p = neg ∧ narrow (realOf f p) ∧
    (∀ u, FinitePat f u → narrow (realOf f u) → |realOf f p - x| ≤ |realOf f u - x| ∧
      (|realOf f p - x| = |realOf f u - x| → realOf f u ≠ realOf f p →
        ∃ n : ℤ, realOf f p = 2 * n * (realOf f u - realOf f p))) ∧
    r = if flush = true ∧ f.expo p = 0 ∧ realOf f p ≠ 0 then (sign, 24) else (p, 0))

/-- R86: the NaN of cause `c`, and the invalid flag of delivering one into F4. -/
def Sys2Proof.Machine.nanPat (f : Fmt) (c : Nat) : Nat :=
  if f = fp64 then 0x7FF8000000000000 + c else if f = fp32 then 0x7FC00000 + c else if f = fp16 then 0x7E00 + c
  else if f = bf16 then 0x7FC0 + c else if f = f8e4 then 0x7F else if f = f8e5 then 0x7E else 0

/-- R84, R92 to R97: the value of a pattern; a number delivered; the sixteen bits of a stochastic rounding (R96).
R73, R74, R165, R170, R77: the sum, product, fused product and sum, quotient and root of finite numbers are their exact value delivered, a
zero with its sign; what NaNs, infinities, zeros and negative operands give; the seeds; and the rounding to an integer.  Every floating
word's result is stated by these functions. -/
def Obligations.RoundingPicksTheNeighbour : Prop :=
  let formats := [fp64, fp32, fp16, bf16, f8e4, f8e5, f4]
  (∀ f ∈ formats, ∀ p, FinitePat f p →
    let e := p / 2 ^ f.mb % 2 ^ f.eb
    let m := p % 2 ^ f.mb
    |realOf f p| = (if e = 0 then (m : ℝ) / 2 ^ f.mb * (2 : ℝ) ^ (1 - (f.bias : ℤ)) else (1 + (m : ℝ) / 2 ^ f.mb) * (2 : ℝ) ^ ((e : ℤ) - f.bias)) ∧
    (f.sign p = true ↔ 2 ^ (f.eb + f.mb) ≤ p) ∧ (f.sign p = true → realOf f p ≤ 0) ∧ (f.sign p = false → 0 ≤ realOf f p)) ∧
  (∀ c k : Word, ∀ e : Nat, stochBits c k e =
    (((fun z : Word => (z ^^^ (z >>> 31)) * 0xD6E8FEB86659FD93)^[3] ((c + BitVec.ofNat 64 e) ^^^ k)) >>> 48 ^^^
      ((fun z : Word => (z ^^^ (z >>> 31)) * 0xD6E8FEB86659FD93)^[3] ((c + BitVec.ofNat 64 e) ^^^ k)) >>> 32 >>> 48).toNat) ∧
  (∀ f ∈ formats, ∀ (rn : Rnd) (neg : Bool) (m : Nat) (e : Int), rn.mode ≤ 5 → rn.r < 65536 → m ≠ 0 →
    Delivers f rn ((ratOf (.num neg m e) : ℚ) : ℝ) (f.deliver rn (.num neg m e))) ∧
  (∀ f ∈ formats, ∀ (rn : Rnd) (p q z : Nat), rn.mode ≤ 5 → rn.r < 65536 → FinitePat f p → FinitePat f q → FinitePat f z →
    let x := realOf f p
    let y := realOf f q
    let w := realOf f z
    let zero := fun (neg : Bool) => ((if neg then 2 ^ (f.eb + f.mb) else 0 : Nat), (0 : Flags))
    let gives := fun (v : ℝ) (neg : Bool) (r : Nat × Flags) => (v ≠ 0 → Delivers f rn v r) ∧ (v = 0 → r = zero neg)
    let both := fun (s t : Bool) => if s = t then s else decide (rn.mode = 2)
    let cross := f.sign p != f.sign q
    gives (x + y) (both (f.sign p) (f.sign q)) (f.add rn (f.val p) (f.val q)) ∧
    gives (x - y) (both (f.sign p) (!f.sign q)) (f.add rn (f.val p) (f.val q).flip) ∧
    gives (x * y) cross (f.mul rn (f.val p) (f.val q)) ∧
    gives (x * y + w) (both cross (f.sign z)) (f.fma rn (f.val p) (f.val q) (f.val z)) ∧
    (y ≠ 0 → gives (x / y) cross (f.div rn (f.val p) (f.val q))) ∧
    (0 < x → Delivers f rn (Real.sqrt x) (f.sqrt rn (f.val p))) ∧ (x = 0 → f.sqrt rn (f.val p) = zero (f.sign p))) ∧
  (∀ f ∈ [fp64, fp32, fp16, bf16, f8e5], ∀ (rn : Rnd) (a b c : FVal), 
    let nan := fun (k : Nat) (nv : Bool) => ((nanPat f k : Nat), (if nv then 1 else 0 : Flags))
    let inf := fun (neg : Bool) (fl : Nat) => ((infPat f + (if neg then 2 ^ (f.eb + f.mb) else 0) : Nat), (fl : Flags))
    let sig := fun (v : FVal) => decide (v = .nan true)
    let isInf := fun (v : FVal) => decide (v = .inf true) || decide (v = .inf false)
    let isZero := fun (v : FVal) => decide (ratOf v = 0) && !v.isNan
    let cross := a.neg != b.neg
    let bad := isZero a && isInf b || isInf a && isZero b
    ((a.isNan || b.isNan) = true → let r := nan 1 (sig a || sig b)
      f.add rn a b = r ∧ f.mul rn a b = r ∧ f.div rn a b = r) ∧
    (a.isNan = true → f.sqrt rn a = nan 1 (sig a) ∧ f.deliver rn a = nan 1 (sig a)) ∧
    ((a.isNan || b.isNan || c.isNan) = true → f.fma rn a b c = nan 1 (sig a || sig b || sig c || bad)) ∧
    ((a.isNan || b.isNan || c.isNan) = false →
      (isInf a = true → isInf b = true → f.add rn a b = (if a.neg = b.neg then inf a.neg 0 else nan 3 true) ∧ f.div rn a b = nan 5 true) ∧
      (isInf a = true → isInf b = false → f.add rn a b = inf a.neg 0 ∧ f.add rn b a = inf a.neg 0 ∧ f.div rn a b = inf cross 0 ∧
        f.div rn b a = ((if cross then 2 ^ (f.eb + f.mb) else 0 : Nat), (0 : Flags))) ∧
      ((isInf a || isInf b) = true → f.mul rn a b = (if bad then nan 4 true else inf cross 0) ∧
        f.fma rn a b c = (if bad then nan 4 true else if isInf c && c.neg != cross then nan 3 true else inf cross 0)) ∧
      (isInf a = false → isInf b = false → isInf c = true → f.fma rn a b c = inf c.neg 0) ∧
      (isInf a = false → isZero b = true → f.div rn a b = (if isZero a then nan 5 true else inf cross 2)) ∧
      (isInf a = true → f.sqrt rn a = (if a.neg then nan 5 true else inf false 0) ∧ f.deliver rn a = inf a.neg 0) ∧
      (ratOf a < 0 → f.sqrt rn a = nan 5 true))) ∧
  (∀ f ∈ [fp64, fp32, fp16, bf16], ∀ (flush : Bool) (p : Nat), FinitePat f p →
    let x := realOf f p
    let big := ((infPat f + (if f.sign p then 2 ^ (f.eb + f.mb) else 0) : Nat), (2 : Flags))
    (x ≠ 0 → SeedOf f flush (1 / x) (rcpSeed f flush (f.val p))) ∧ (0 < x → SeedOf f flush (1 / Real.sqrt x) (rsqSeed f flush (f.val p))) ∧
    (x = 0 → rcpSeed f flush (f.val p) = big ∧ rsqSeed f flush (f.val p) = big) ∧ (x < 0 → rsqSeed f flush (f.val p) = (nanPat f 5, 1)) ∧
    ∀ b : Bool, rcpSeed f flush (.inf b) = ((if b then 2 ^ (f.eb + f.mb) else 0 : Nat), 0) ∧
      rsqSeed f flush (.inf b) = (if b then (nanPat f 5, 1) else (0, 0)) ∧
      rcpSeed f flush (.nan b) = (nanPat f 1, if b then 1 else 0) ∧ rsqSeed f flush (.nan b) = (nanPat f 1, if b then 1 else 0)) ∧
  (∀ (n : Nat) (sg : Bool) (rn : Rnd) (neg : Bool) (m : Nat) (e : Int), 0 < n → rn.mode ≤ 5 → rn.r < 65536 →
    let lo : Int := if sg then -(2 ^ (n - 1)) else 0
    let hi : Int := if sg then 2 ^ (n - 1) - 1 else 2 ^ n - 1
    let x : ℝ := ((ratOf (.num neg m e) : ℚ) : ℝ)
    (∃ z : Int, Picks rn.mode rn.r (fun v => ∃ k : Int, v = k) x z (decide (z % 2 = 1)) ∧
      toIntSat n sg rn (.num neg m e) =
        if hi < z then ((BitVec.ofInt n hi).toNat, 1) else if z < lo then ((BitVec.ofInt n lo).toNat, 1)
        else ((BitVec.ofInt n z).toNat, if m % 2 ^ (-e).toNat = 0 then 0 else 16)) ∧
    ∀ b : Bool, toIntSat n sg rn (.nan b) = (0, 1) ∧ toIntSat n sg rn (.inf b) = ((BitVec.ofInt n (if b then lo else hi)).toNat, 1))

/-! ## Scalar loads and stores -/

/-- `n` bytes at `va` lie in the thread's open scratchpad window, at offset `off` of the tiles of its gang `g`, aligned, none of them in
an engine-owned tile (R199, R200). -/
def Sys2Proof.Machine.WindowAt (s : State) (va : Word) (n : Nat) (g : Gang) (off : Nat) : Prop :=
  s.myGang = some g ∧ s.thr.twin.getLsbD 0 = true ∧ va.toNat = s.thr.twin.toNat / 2 ^ 21 * 2 ^ 21 + off ∧
    off + n ≤ g.tiles * 4096 ∧ va.toNat % n = 0 ∧ off / 4096 ∉ g.owners

/-- `n` bytes at `va` lie, aligned, in a page of treatment U that the thread may use so: plaintext, neither compressed nor
race-checked, behind no link that is down, not poisoned for a use that reads, outside the scratchpad window, of a line that the hearth
holds under no key slot; `pa` is where they stand in memory. -/
def Sys2Proof.Machine.UncachedAt (s : State) (u : Use) (va : Word) (n : Nat) (l : Leaf) (pa : Nat) : Prop :=
  s.windowOff va = none ∧ va.toNat % n = 0 ∧ va.toNat < 2 ^ 56 ∧ s.Finds s.thr.asid.toNat va.toNat l ∧
    s.aliases s.thr.hearth 0 ⟨pa / 128 * 128, false, 0⟩ = [] ∧
    l.permits u (!s.thr.status.priv) = true ∧ l.treat = 3 ∧ l.slot = 0 ∧ l.cmp = false ∧ l.race = false ∧
    pa = s.physKey l.home (l.frame + (va.toNat - l.base)) ∧ pa + n ≤ 2 ^ 70 ∧ assoc s.sectorKeys (pa / 64) = none ∧
    s.linkLost pa = false ∧ (u.reads = true → s.homeBad s.thr.hearth ⟨pa, 0, l.alloc⟩ n = false)

/-- `n` bytes at `va` lie, aligned, in a plain page of treatment D, L or S that the thread may use so, as in `UncachedAt`, with no grant of the
directory in transition or reserved and no poison in any copy. -/
def Sys2Proof.Machine.CachedAt (s : State) (u : Use) (va : Word) (n : Nat) (l : Leaf) (pa : Nat) : Prop :=
  s.windowOff va = none ∧ va.toNat % n = 0 ∧ va.toNat < 2 ^ 56 ∧ s.Finds s.thr.asid.toNat va.toNat l ∧
    s.aliases s.thr.hearth 0 ⟨pa / 128 * 128, false, 0⟩ = [] ∧
    l.permits u (!s.thr.status.priv) = true ∧ l.treat < 3 ∧ l.slot = 0 ∧ l.cmp = false ∧ l.race = false ∧
    pa = s.physKey l.home (l.frame + (va.toNat - l.base)) ∧ pa + n ≤ 2 ^ 70 ∧ s.sectorKeys = [] ∧
    s.linkLost pa = false ∧ (u.reads = true → s.homeBad s.thr.hearth ⟨pa, 0, l.alloc⟩ n = false) ∧
    s.moving = [] ∧ s.requests = [] ∧ s.l1bad = []

/-- `m` is the thread's hearth's one copy of the row line around `pa`, of the page's treatment, holds the half of `pa`, and is within its
lease where the treatment is L (R214, R220). -/
def Sys2Proof.Machine.HeldRow (s : State) (m : L1Line) (treat pa : Nat) : Prop :=
  m ∈ s.l1 ∧ m.hearth = s.thr.hearth ∧ m.slot = 0 ∧ m.treat = treat ∧ m.id = ⟨pa / 128 * 128, false, 0⟩ ∧
    m.gone.getLsbD (pa % 128 / 64) = false ∧ (treat = 1 → (m.rts - s.thr.pts).toNat ≤ 2 ^ 14) ∧
    ∀ k ∈ s.l1, k.hearth = m.hearth → k.slot = m.slot → k.id = m.id → k = m

/-- The copies in the L1s are the same lines, but for the marks that come with their bytes; of the bytes that `P` names a copy of the
thread's hearth holds what memory holds, clean, and every other byte of a copy is as it was. -/
def Sys2Proof.Machine.SameLines (s t : State) (P : Nat → Prop) : Prop :=
  t.l1.length = s.l1.length ∧ ∀ p ∈ s.l1.zip t.l1, p.2 = { p.1 with data := p.2.data, dirty := p.2.dirty, rels := p.2.rels } ∧
    ∀ k < 128, let x := p.1.id.byteAt k
      (¬ (p.1.hearth = s.thr.hearth ∧ P x) → p.2.byte k = p.1.byte k ∧ p.2.dirty.getLsbD k = p.1.dirty.getLsbD k) ∧
      (p.1.hearth = s.thr.hearth → P x → p.1.slot = 0 → p.1.at? x = some k →
        p.2.byte k = Memory.read t.mem x ∧ p.2.dirty.getLsbD k = false)

/-- The word a load of R67 makes of the bytes at consecutive places: sign- or zero-extended, least significant first. -/
def Sys2Proof.Machine.loadValue (i : Instr) (B : Nat → Byte) : Word :=
  match i with
  | .lb .. => (B 0).signExtend 64
  | .lbu .. => (B 0).setWidth 64
  | .lh .. => (B 1 ++ B 0).signExtend 64
  | .lhu .. => (B 1 ++ B 0).setWidth 64
  | .lw .. => (B 3 ++ B 2 ++ B 1 ++ B 0).signExtend 64
  | .lwu .. => (B 3 ++ B 2 ++ B 1 ++ B 0).setWidth 64
  | .ld .. => B 7 ++ B 6 ++ B 5 ++ B 4 ++ B 3 ++ B 2 ++ B 1 ++ B 0
  | _ => 0

/-- The scalar loads and stores with their sizes. -/
def Sys2Proof.Machine.scalarLoads (d a : BitVec 6) (i : BitVec 14) : List (Instr × Nat) :=
  [(.lb d a i, 1), (.lbu d a i, 1), (.lh d a i, 2), (.lhu d a i, 2), (.lw d a i, 4), (.lwu d a i, 4), (.ld d a i, 8)]
def Sys2Proof.Machine.scalarStores (d a : BitVec 6) (i : BitVec 14) : List (Instr × Nat) :=
  [(.sb d a i, 1), (.sh d a i, 2), (.sw d a i, 4), (.sd d a i, 8)]

/-- R67, R200: a scalar load in the scratchpad window gives its gang's bytes; one in an uncached page gives the bytes of memory, which
is left as it was; in either case only the destination register and the bookkeeping differ, but for the TLBs and the tables the walkers keep, the
page heat, and what a
FENCE makes of the marks of the value read (R235).
R214, R217, R220, R225: in a D, L or S page the load gives the bytes of the copy that the hearth holds, within its lease if it is of an L line,
and changes no copy; with no copy in the device it gives the bytes of memory, and what the hearth then holds is clean. -/
def Obligations.ScalarLoadsReadTheirBytes : Prop :=
  ∀ (s : State) (d a : BitVec 6) (i : BitVec 14), s.Clean [a] →
    let ea := s.rs a + i.signExtend 64
    ∀ w ∈ scalarLoads d a i,
      (∀ g off, WindowAt s ea w.2 g off → (∀ k < w.2, off + k ∉ g.tilePoison) →
        ∃ t, exec w.1 s = .next t ∧ Completed s t (s.thr.pc + 4) ∧
          Wrote s t d (loadValue w.1 (fun k => Memory.read g.tileMem (off + k))) ∧ ScalarFrame s t) ∧
      (∀ l pa, UncachedAt s .load ea w.2 l pa →
        ∃ t, exec w.1 s = .next t ∧ Completed s t (s.thr.pc + 4) ∧
          Wrote s t d (loadValue w.1 (fun k => Memory.read s.mem (pa + k))) ∧
          t = { s with
            thr := ({ s.thr with sregs := t.thr.sregs, poisonS := t.thr.poisonS, seen := t.thr.seen }).bookOf t.thr
            tlb := t.tlb, tables := t.tables, heat := t.heat, samples := t.samples, free := t.free }) ∧
      (∀ l pa, CachedAt s .load ea w.2 l pa →
        (∀ m, HeldRow s m l.treat pa →
          ∃ t, exec w.1 s = .next t ∧ Completed s t (s.thr.pc + 4) ∧ Wrote s t d (loadValue w.1 (fun k => m.byte (pa % 128 + k))) ∧
            t = { s with
              thr := ({ s.thr with sregs := t.thr.sregs, poisonS := t.thr.poisonS, seen := t.thr.seen }).bookOf t.thr
              tlb := t.tlb, tables := t.tables, heat := t.heat, samples := t.samples, free := t.free }) ∧
        (s.l1 = [] → s.dir = [] →
          ∃ t, exec w.1 s = .next t ∧ Completed s t (s.thr.pc + 4) ∧
            Wrote s t d (loadValue w.1 (fun k => Memory.read s.mem (pa + k))) ∧ t.mem = s.mem ∧ t.gangs = s.gangs ∧ t.others = s.others ∧
            t.thr.vrows = s.thr.vrows ∧ t.thr.status = s.thr.status ∧
            ∀ m ∈ t.l1, m.hearth = s.thr.hearth ∧ m.treat = l.treat ∧ m.dirty = 0))

/-- R67, R200: a scalar store in the scratchpad window, or in an uncached page, writes the low bytes of sd at its address and no other
byte; every other gang, register and part of the device is as before, but for the TLBs and the tables the walkers keep, the page heat, the poison and the release marks of
what it overwrites, its hearth's copies of it, which hold it clean (R206), the WAITEVs that watch it (R82), and the note of the words it
changed for R70.
R214, R217, R221, R225: in an L page, with no copy in the device, the store writes memory at once; in a D or S page it writes the copy that the
hearth holds, under an exclusive grant if it is of a D line, and every crossing copy, dirty there (R206); with no copy in the device the
hearth takes the line and holds the stored bytes dirty, the others as memory has them, clean; either way memory is as it was. -/
def Obligations.ScalarStoresWriteTheirBytes : Prop :=
  ∀ (s : State) (d a : BitVec 6) (i : BitVec 14), s.MemoryForm → s.Clean [a, d] →
    let ea := s.rs a + i.signExtend 64
    ∀ w ∈ scalarStores d a i,
      (∀ g off, WindowAt s ea w.2 g off →
        ∃ t g', exec w.1 s = .next t ∧ Completed s t (s.thr.pc + 4) ∧ KeptScalars s t ∧
          t = { s with thr := s.thr.bookOf t.thr, gangs := t.gangs, watches := t.watches, free := t.free } ∧ t.myGang = some g' ∧
          g' = { g with tileMem := g'.tileMem, tilePoison := g'.tilePoison } ∧
          (∀ h, h ≠ s.thr.gang → t.gangOf h = s.gangOf h) ∧
          (∀ p, p ∈ g'.tilePoison ↔ p ∈ g.tilePoison ∧ ¬ (off ≤ p ∧ p < off + w.2)) ∧
          ∀ x, Memory.read g'.tileMem x =
            if off ≤ x ∧ x < off + w.2 then (s.rs d).extractLsb' (8 * (x - off)) 8 else Memory.read g.tileMem x) ∧
      (∀ l pa, UncachedAt s .store ea w.2 l pa →
        ∃ t, exec w.1 s = .next t ∧ Completed s t (s.thr.pc + 4) ∧ KeptScalars s t ∧
          t = { s with
            thr := ({ s.thr with stale := t.thr.stale }).bookOf t.thr
            mem := t.mem, poison := t.poison, releases := t.releases, l1 := t.l1, l1bad := t.l1bad, watches := t.watches, tlb := t.tlb
            tables := t.tables, heat := t.heat, samples := t.samples, free := t.free } ∧ SameLines s t (fun x => pa ≤ x ∧ x < pa + w.2) ∧
          ∀ x, Memory.read t.mem x =
            if pa ≤ x ∧ x < pa + w.2 then (s.rs d).extractLsb' (8 * (x - pa)) 8 else Memory.read s.mem x) ∧
      (∀ l pa, CachedAt s .store ea w.2 l pa →
        let v := fun (x : Nat) => (s.rs d).extractLsb' (8 * (x - pa)) 8
        let stored := fun (x : Nat) => pa ≤ x ∧ x < pa + w.2
        let done := fun (t : State) => exec w.1 s = .next t ∧ Completed s t (s.thr.pc + 4) ∧ KeptScalars s t ∧ t.gangs = s.gangs ∧
          t.others = s.others ∧ t.thr.vrows = s.thr.vrows ∧ t.thr.status = s.thr.status
        (l.treat = 1 → s.l1 = [] →
          ∃ t, done t ∧ t.l1 = [] ∧ ∀ x, Memory.read t.mem x = if stored x then v x else Memory.read s.mem x) ∧
        (l.treat ≠ 1 →
          (s.l1 = [] → s.dir = [] → ∃ t m, done t ∧ t.mem = s.mem ∧ t.l1 = [m] ∧ m.hearth = s.thr.hearth ∧ m.treat = l.treat ∧
            m.id = ⟨pa / 128 * 128, false, 0⟩ ∧ m.gone = 0 ∧
            ∀ k < 128, let x := pa / 128 * 128 + k
              m.dirty.getLsbD k = decide (stored x) ∧ m.byte k = if stored x then v x else Memory.read s.mem x) ∧
          (∀ m, HeldRow s m l.treat pa →
            (l.treat = 0 → s.holdsRange (rangeOf ⟨pa / 128 * 128, false, 0⟩ l.ori l.oriWidth) s.thr.hearth = true) →
            ∃ t, done t ∧ t.mem = s.mem ∧ t.dir = s.dir ∧ t.l1.length = s.l1.length ∧
              ∀ p ∈ s.l1.zip t.l1, p.2 = { p.1 with data := p.2.data, dirty := p.2.dirty, rels := p.2.rels, owners := p.2.owners } ∧
                ∀ k < 128,
                  (∀ x, stored x → p.1.at? x = some k → p.1.hearth = s.thr.hearth → p.1.slot = 0 →
                    p.2.byte k = v x ∧ p.2.dirty.getLsbD k = true) ∧
                  ((∀ x, stored x → p.1.at? x ≠ some k) ∨ p.1.hearth ≠ s.thr.hearth ∨ p.1.slot ≠ 0 →
                    p.2.byte k = p.1.byte k ∧ p.2.dirty.getLsbD k = p.1.dirty.getLsbD k))))

/-- R67 on every kind of page: a scalar load or store completes wherever the access itself is answered (no trap, no wait), a load
with the bytes it is given, and neither changes any other register.
R68, R24: a scalar load or store whose address is no multiple of its size takes the data-misaligned trap, poisoned operands or not;
otherwise, with a bit of 63:56 set and outside the scratchpad window, the data access fault with REASON 7; TVAL is the address, and it
has no effect.
R200, R205, R383: an aligned one in the open window (which therefore cannot run past the window's end) that loads poisoned bytes of the tiles
takes the data access fault with REASON 5; otherwise one in an engine-owned tile the tile-ownership trap, code 13; TVAL is the address. -/
def Obligations.ScalarAccessesCompleteOrTrap : Prop :=
  (∀ (s : State) (d a : BitVec 6) (i : BitVec 14),
    let ea := s.rs a + i.signExtend 64
    (∀ w ∈ scalarLoads d a i, ∀ bs u, s.load [a] (Acc.row .load w.2) ea = .ok (bs, u) →
      ∃ t, exec w.1 s = .next t ∧ Completed s t (s.thr.pc + 4) ∧ Wrote s t d (loadValue w.1 (fun k => bs.getD k 0)) ∧
        t.gangs = s.gangs ∧ t.others = s.others ∧ t.thr.vrows = s.thr.vrows ∧ t.thr.status = s.thr.status) ∧
    (∀ w ∈ scalarStores d a i, ∀ u,
      s.store [a, d] (Acc.row .store w.2) ea ((List.range w.2).map (fun k => (s.rs d).extractLsb' (8 * k) 8)) = .ok u →
      ∃ t, exec w.1 s = .next t ∧ Completed s t (s.thr.pc + 4) ∧ KeptScalars s t ∧ t.mem = u.mem ∧ t.gangs = u.gangs ∧
        t.l1 = u.l1 ∧ t.others = s.others ∧ t.thr.vrows = s.thr.vrows ∧ t.thr.status = s.thr.status)) ∧
  (∀ (s : State) (d a : BitVec 6) (i : BitVec 14),
    let ea := s.rs a + i.signExtend 64
    (∀ w ∈ scalarLoads d a i,
      (ea.toNat % w.2 ≠ 0 → exec w.1 s = .next (s.takeTrap 7 ea none)) ∧
      (ea.toNat % w.2 = 0 → s.Clean [a] → 2 ^ 56 ≤ ea.toNat → s.windowOff ea = none → exec w.1 s = .next (s.takeTrap 8 ea (some 0x77)))) ∧
    (∀ w ∈ scalarStores d a i,
      (ea.toNat % w.2 ≠ 0 → exec w.1 s = .next (s.takeTrap 7 ea none)) ∧
      (ea.toNat % w.2 = 0 → s.Clean [a, d] → 2 ^ 56 ≤ ea.toNat → s.windowOff ea = none → exec w.1 s = .next (s.takeTrap 8 ea (some 0xF7)))) ∧
    ∀ g off, s.myGang = some g → s.thr.twin.getLsbD 0 = true → ea.toNat = s.thr.twin.toNat / 2 ^ 21 * 2 ^ 21 + off → off < g.tiles * 4096 →
      (∀ w ∈ scalarLoads d a i, ea.toNat % w.2 = 0 → s.Clean [a] →
        let bad := ∃ p ∈ g.tilePoison, off ≤ p ∧ p < off + w.2
        (bad → exec w.1 s = .next (s.takeTrap 8 ea (some 0x75))) ∧
        (¬ bad → off / 4096 ∈ g.owners → exec w.1 s = .next (s.takeTrap 13 ea none))) ∧
      ∀ w ∈ scalarStores d a i, ea.toNat % w.2 = 0 → s.Clean [a, d] →
        off / 4096 ∈ g.owners → exec w.1 s = .next (s.takeTrap 13 ea none))

/-! ## Control registers -/

/-- What the register of each number holds, by its map: STATUS (R18), MODE, LEN and the plain ones (R17, R37), LANES (R103), VRUN (R185),
SRCTR, CBSEL and the codebook quarters (R89), COORD, THREAD (R17), HEARTH (R131), the energy registers of the thread's hearth (R135),
SIV (R232), the array's and the walker's registers (R295, R312), NPSTATE (R369), FSTAT (R376), SPAN and DOMAIN (R400).  Fields are written
from bit 63 down. -/
def Sys2Proof.Machine.registerMap (s : State) : List (Nat × Word) :=
  let t := s.thr
  let st := t.status
  let bit := fun (b : Bool) => BitVec.ofBool b
  let stays := (t.vrun.vps.filter (fun v => decide (v.1 ≠ 0))).length
  let nseg := ((List.range 4).filter (fun k => t.attached.getLsbD k)).length
  let book := fun (k : Nat) => t.cbs[t.cbsel.toNat].extractLsb' (64 * k) 64
  [(0x000, t.cycle), (0x001, t.retired),
   (0x008, 0#57 ++ bit st.vlive ++ bit st.inh ++ bit st.pae ++ bit st.ae ++ 0#1 ++ bit st.ppriv ++ bit st.priv),
   (0x009, 0#59 ++ t.fflags), (0x00A, 0#61 ++ t.frm), (0x010, t.mode), (0x011, t.len), (0x012, t.vcap), (0x013, t.density),
   (0x014, t.xresume), (0x015, t.convoy),
   (0x016, 0#45 ++ BitVec.ofNat 3 t.width ++ BitVec.ofNat 8 t.demand ++ BitVec.ofNat 8 t.grant),
   (0x017, 0#40 ++ BitVec.ofNat 8 (min 255 stays) ++ BitVec.ofNat 8 (min 255 t.vrun.round) ++ 0#6 ++ bit t.vrun.pass ++ bit t.vrun.run),
   (0x018, t.rngkey), (0x019, t.srctr), (0x01A, 0#60 ++ t.cbsel), (0x01C, book 0), (0x01D, book 1), (0x01E, book 2), (0x01F, book 3),
   (0x020, 0#16 ++ BitVec.ofNat 16 t.coord.2.2 ++ BitVec.ofNat 16 t.coord.2.1 ++ BitVec.ofNat 16 t.coord.1),
   (0x021, 0#53 ++ BitVec.ofNat 3 t.stage ++ 0#5 ++ BitVec.ofNat 3 t.index),
   (0x022, 0#54 ++ BitVec.ofNat 2 (t.hearth / 32) ++ BitVec.ofNat 5 (t.hearth % 32) ++ BitVec.ofNat 3 t.core),
   (0x028, s.emeter.toList.getD t.hearth 0), (0x029, 0#61 ++ s.clkstep.toList.getD t.hearth 0), (0x02A, s.ewin),
   (0x030, t.twin), (0x031, t.lease), (0x032, t.racectl), (0x033, 0#35 ++ t.siv), (0x034, t.strm), (0x035, t.strmk),
   (0x040, t.knotbase), (0x041, t.knotstep), (0x042, t.knotcount), (0x043, t.knotclamp), (0x044, t.mxscale), (0x048, t.wtheta),
   (0x049, t.wkern), (0x050, 0#62 ++ bit t.npOvr ++ bit t.npOpen), (0x051, t.fstat),
   (0x058, 0#49 ++ BitVec.ofNat 3 nseg ++ t.attached ++ BitVec.ofNat 8 t.grant), (0x059, 0#54 ++ s.devnum),
   (0x100, t.tvec), (0x101, t.epc), (0x102, t.cause), (0x103, t.tval), (0x104, t.sscratch)]

/-- The fields of the thread's registers within their widths: the grant and the demand are lanes of one hearth (R100), WIDTH a code of
R103, the coordinate and the numbers those of a launch (R119), the hearth one of four stacks (R131). -/
def Sys2Proof.Machine.InFields (t : Thread) : Prop :=
  t.grant ≤ 128 ∧ t.demand ≤ 128 ∧ t.width ≤ 4 ∧ t.coord.1 < 2 ^ 16 ∧ t.coord.2.1 < 2 ^ 16 ∧ t.coord.2.2 < 2 ^ 16 ∧ t.stage < 8 ∧
    t.index < 8 ∧ t.core < 8 ∧ t.hearth < 128

/-- R17, R78: RDC gives the register's value at a level that may read it, and each register holds what its map says (that a VP which VNEXT
has given 0 counts in VRUN.VPS until its pass's VPEND is the model's choice, entry 85); a register of supervisor level alone raises the
privilege trap at user level; a number R17 and its successors leave unassigned raises the illegal-instruction trap. -/
def Obligations.RdcReadsWhatTheLevelMayRead : Prop :=
  (∀ s : State, InFields s.thr → ∀ p ∈ registerMap s, s.creg (BitVec.ofNat 12 p.1) = p.2) ∧
  ∀ (s : State) (d : BitVec 6) (c : BitVec 12),
    let secret := secretRegs
    let shown := [0x000, 0x001, 0x008, 0x009, 0x00A, 0x010, 0x011, 0x012, 0x013, 0x014, 0x015, 0x016, 0x017, 0x018, 0x019, 0x01A,
      0x01C, 0x01D, 0x01E, 0x01F, 0x020, 0x021, 0x022, 0x028, 0x029, 0x02A, 0x030, 0x031, 0x032, 0x033, 0x034, 0x035, 0x040, 0x041,
      0x042, 0x043, 0x044, 0x048, 0x049, 0x050, 0x058, 0x059]
    let word : Word := BitVec.ofNat 64 (encode (.rdc d c))
    (c.toNat ∈ shown ∨ c.toNat ∈ secret ∧ s.thr.status.priv = true → Computes (.rdc d c) s [] d (s.creg c)) ∧
    (c.toNat ∈ secret → s.thr.status.priv = false → exec (.rdc d c) s = .next (s.takeTrap 3 word none)) ∧
    (c.toNat ∉ shown → c.toNat ∉ secret → exec (.rdc d c) s = .next (s.takeTrap 1 word none))

/-- The registers whose maps reserve bits or values, with what a value must be to reserve none (R17, R18, R89, R104, R117, R199, R224, R232,
R259, R295, R312, R359, R376). -/
def Sys2Proof.Machine.mayHold (v : Word) : List (Nat × Prop) :=
  let f := fun (hi lo : Nat) => (v.extractLsb' lo (hi - lo + 1)).toNat
  [(0x008, f 63 7 = 0 ∧ f 2 2 = 0), (0x009, f 63 5 = 0), (0x00A, f 63 3 = 0 ∧ f 2 0 ≤ 5), (0x012, v ∈ [16, 32, 64, 128]),
   (0x013, v ≤ 16), (0x014, f 55 24 = 0 ∧ f 62 56 ≤ 3), (0x01A, f 63 4 = 0), (0x030, f 63 56 = 0 ∧ f 20 1 = 0),
   (0x031, f 63 16 = 0 ∧ 4 ≤ f 15 8 ∧ f 15 8 ≤ 16 ∧ 1 ≤ f 7 0), (0x032, f 63 1 = 0), (0x034, f 63 56 = 0), (0x035, f 62 24 = 0),
   (0x040, f 63 32 = 0), (0x041, f 63 32 = 0 ∧ f 31 31 = 0 ∧ f 30 23 ≠ 0 ∧ f 30 23 ≠ 255), (0x042, f 63 4 = 0 ∧ 1 ≤ f 3 0 ∧ f 3 0 ≤ 13),
   (0x043, f 63 2 = 0 ∧ f 1 0 ≠ 3), (0x044, f 63 16 = 0), (0x048, f 63 32 = 0 ∧ f 30 23 ≠ 255 ∧ (f 31 31 = 1 → f 30 0 = 0)),
   (0x049, f 63 1 = 0), (0x051, f 63 8 = 0 ∧ f 3 0 ≤ 8), (0x100, f 63 56 = 0 ∧ f 11 0 = 0), (0x102, f 63 6 = 0)]

/-- R79, R17: WRC at a level that may write the register: a legal value is written and every other control register keeps its value
but for the two counters, for the codebook quarters when CBSEL selects another codebook, and for what a write to VCAP renegotiates;
a spanning thread that holds a code 17 takes it at a write to VCAP, with its remote segments detached (R407);
a reserved bit or value raises the reserved-bits trap, and what is reserved is what the register's map says.  A read-only register or an unassigned number is illegal, a supervisor
register at user level a privilege trap, after a reserved value (R24). -/
def Obligations.WrcWritesOneRegister : Prop :=
  (∀ (c : BitVec 12) (v : Word), cregLegal c v = true ↔ ∀ p ∈ mayHold v, c.toNat = p.1 → p.2) ∧
  ∀ (s : State) (a : BitVec 6) (c : BitVec 12), s.Serial → s.Clean [a] →
    let user := userRegs
    let super := superRegs
    let secret := secretRegs
    let priv := s.thr.status.priv = true
    let word : Word := BitVec.ofNat 64 (encode (.wrc a c))
    (c.toNat ∈ user ∨ priv ∧ (c.toNat ∈ super ∨ c.toNat ∈ secret) →
      (cregLegal c (s.rs a) = true → ¬ (c.toNat = 0x012 ∧ 1 < s.thr.nseg ∧ s.ready17 = true) →
        ∃ t, exec (.wrc a c) s = .next t ∧ Completed s t (s.thr.pc + 4) ∧ KeptScalars s t ∧ t.mem = s.mem ∧ t.gangs = s.gangs ∧
          t.others = s.others ∧ (c.toNat ≠ 0x008 → t.creg c = s.rs a) ∧
          (c.toNat = 0x008 → t.thr.status = { s.thr.status with
            inh := (s.rs a).getLsbD 5, pae := (s.rs a).getLsbD 4, ae := (s.rs a).getLsbD 3, ppriv := (s.rs a).getLsbD 1 }) ∧
          ∀ e : BitVec 12, e ≠ c → e.toNat ≠ 0 → e.toNat ≠ 1 → ¬ (c.toNat = 0x01A ∧ 0x01C ≤ e.toNat ∧ e.toNat ≤ 0x01F) →
            ¬ (c.toNat = 0x012 ∧ e.toNat ∈ [0x011, 0x016, 0x017, 0x058]) → t.creg e = s.creg e) ∧
      (cregLegal c (s.rs a) = true → c.toNat = 0x012 → 1 < s.thr.nseg → s.ready17 = true → exec (.wrc a c) s = .next s.detach.take17) ∧
      (cregLegal c (s.rs a) = false → exec (.wrc a c) s = .next (s.takeTrap 2 word none))) ∧
    (¬ priv → c.toNat ∈ secret → exec (.wrc a c) s = .next (s.takeTrap (if cregLegal c (s.rs a) then 3 else 2) word none)) ∧
    (c.toNat ∉ user → c.toNat ∉ secret → (¬ priv ∨ c.toNat ∉ super) → exec (.wrc a c) s = .next (s.takeTrap 1 word none))

/-! ## Traps and the ends of threads -/

/-- R25: the entry of a trap with code `c` while INH is 0 and TVEC is nonzero: what is saved, what STATUS becomes, where PC goes; the
scalar registers, the vector state, memory and the rest of the device stay.
R26, R22: a trap that cannot be vectored records CAUSE, TVAL and EPC, ends the thread, and leaves the rest of the thread as at the
trapping word (that FSTAT is written there too, as for any trap of code 6 or 8, is log entry 47's). -/
def Obligations.TrapsAreTaken : Prop :=
  (∀ (s : State) (c : Nat) (v : Word) (f : Option Word), s.thr.status.inh = false → s.thr.tvec ≠ 0 →
    let t := s.takeTrap c v f
    t.thr.epc = (if s.thr.pfx.isSome then s.thr.pc - 4 else s.thr.pc) ∧ t.thr.cause = BitVec.ofNat 64 c ∧ t.thr.tval = v ∧
    t.thr.status = { vlive := s.thr.status.vlive, inh := true, pae := s.thr.status.ae, ae := false, ppriv := s.thr.status.priv
                     priv := true } ∧
    t.thr.pc = s.thr.tvec + BitVec.ofNat 64 c * 64 ∧
    t = { s with thr := { s.thr with
      epc := t.thr.epc, cause := t.thr.cause, tval := v, status := t.thr.status, pc := t.thr.pc, fstat := f.getD s.thr.fstat
      pfx := none, inSpan := false, phase := .running, vrun := s.thr.vrun.leave, stopAt := none } }) ∧
  (∀ (s : State) (c : Nat) (v : Word) (f : Option Word),
    let epc : Word := if s.thr.pfx.isSome then s.thr.pc - 4 else s.thr.pc
    let t := s.takeTrap c v f
    (s.thr.status.inh = true → t.thr = { s.thr with
      cause := 11, tval := BitVec.ofNat 64 c, epc := epc, fstat := f.getD s.thr.fstat, pfx := none, phase := .ended }) ∧
    (s.thr.status.inh = false → s.thr.tvec = 0 → t.thr = { s.thr with
      cause := BitVec.ofNat 64 c, tval := v, epc := epc, fstat := f.getD s.thr.fstat, pfx := none, phase := .ended }) ∧
    (s.thr.status.inh = true ∨ s.thr.tvec = 0 → t = { s with thr := t.thr, gangs := t.gangs }))

/-- The privileged words (R386, R388, R392, R396 to R398). -/
def Sys2Proof.Machine.privileged (d a b : BitVec 6) : List Instr :=
  [.tret, .tlbinv a b, .tlbinva a, .tlbinvg, .embrd d a b, .embage, .rlogctl a, .csave a b, .crestore a b]

/-- R388: TRET at supervisor level.
R42: a privileged word at user level takes the privilege trap with TVAL the word and has no other effect. -/
def Obligations.PrivilegedWords : Prop :=
  (∀ (s : State), s.Serial → s.thr.status.priv = true →
    ∃ t, exec .tret s = .next t ∧ Completed s t s.thr.epc ∧ KeptScalars s t ∧
      t.thr.status = { s.thr.status with priv := s.thr.status.ppriv, ae := s.thr.status.pae, inh := false } ∧
      t.thr.stale = [] ∧ t.thr.inSpan = s.thr.convoy.getLsbD 0 ∧
      t = { s with
        thr := ({ s.thr with
          status := t.thr.status, stale := [], inSpan := t.thr.inSpan, vrun := s.thr.vrun.resume
          barGen := resumeBar s.thr.epc s.thr.barGen }).bookOf t.thr
        free := t.free }) ∧
  (∀ (s : State) (d a b : BitVec 6), s.thr.status.priv = false → s.thr.vrun.pass = false →
    ∀ i ∈ privileged d a b, exec i s = .next (s.takeTrap 3 (BitVec.ofNat 64 (encode i)) none))

/-- R389, R22: a HALT of a thread that is not the gang's last live one, or whose gang has no engine operation left, ends the thread,
closes its region and counts itself in RETIRED; else the thread waits without completing. -/
def Obligations.HaltEndsTheThread : Prop :=
  ∀ (s : State), s.Serial →
    (s.lastLive = false ∨ s.gangOps s.thr.gang = [] →
      ∃ t, exec .halt s = .next t ∧ t.thr.phase = .ended ∧ t.thr.halted = true ∧
        t.thr.retired = s.thr.retired + (if s.thr.pfx.isSome then 2 else 1) ∧ t.thr.pc = s.thr.pc ∧ KeptScalars s t ∧
        t = { s with thr := ({ s.thr with halted := true, npOpen := false }).bookOf t.thr, free := t.free }) ∧
    (s.lastLive = true → s.gangOps s.thr.gang ≠ [] → exec .halt s = .next { s with thr := { s.thr with phase := .haltWait } })

/-- R391, R81, R82: NPBEGIN opens a region and clears OVR where none is open, NPEND closes it, YIELD renegotiates and changes nothing
else; WAITEV completes with the doubleword it reads where that differs from sb, else it waits for a write to the 128-byte block.
R80: TRAP takes trap code 10 with TVAL its extended immediate, at either level, and EPC the TRAP's own address. -/
def Obligations.ThreadControlWords : Prop :=
  (∀ (s : State) (d a b : BitVec 6), s.Serial →
    (∃ t, exec .npbegin s = .next t ∧ Completed s t (s.thr.pc + 4) ∧ KeptScalars s t ∧ t.thr.npOpen = true ∧
      t.thr.npOvr = (s.thr.npOpen && s.thr.npOvr) ∧
      t = { s with thr := ({ s.thr with npOpen := true, npOvr := t.thr.npOvr }).bookOf t.thr, free := t.free }) ∧
    (∃ t, exec .npend s = .next t ∧ Completed s t (s.thr.pc + 4) ∧ KeptScalars s t ∧
      t = { s with thr := ({ s.thr with npOpen := false }).bookOf t.thr, free := t.free }) ∧
    (¬ (1 < s.thr.nseg ∧ s.ready17 = true) →
      ∃ t, exec .yield s = .next t ∧ Completed s t (s.thr.pc + 4) ∧ KeptScalars s t ∧
        t = { s with thr := s.renegotiate.thr.bookOf t.thr, free := t.free }) ∧
    (s.Clean [a, b] → ∀ g off, WindowAt s (s.rs a) 8 g off → (∀ k < 8, off + k ∉ g.tilePoison) →
      let v : Word := loadValue (.ld d a 0) (fun k => Memory.read g.tileMem (off + k))
      (v ≠ s.rs b → ∃ t, exec (.waitev d a b) s = .next t ∧ Completed s t (s.thr.pc + 4) ∧ Wrote s t d v ∧
        t = { s with
          thr := ({ s.thr with sregs := t.thr.sregs, poisonS := t.thr.poisonS, known := t.thr.known }).bookOf t.thr
          l1 := t.l1, watches := s.watches.filter (fun w => decide (w.tid ≠ s.thr.tid)), free := t.free } ∧ ∀ l ∈ t.l1, l ∈ s.l1) ∧
      (v = s.rs b → exec (.waitev d a b) s = .next { s.waitAt (.waitev d a b) with
        watches := ⟨s.thr.tid, some s.thr.gang, off / 128, false⟩ :: s.watches.filter (fun w => decide (w.tid ≠ s.thr.tid)) }))) ∧
  (∀ (s : State) (i : BitVec 14), s.Serial → s.thr.pfx = none →
    exec (.trap i) s = .next (s.takeTrap 10 (i.signExtend 64) none) ∧
    (s.thr.status.inh = false → s.thr.tvec ≠ 0 → ∃ t, exec (.trap i) s = .next t ∧ t.thr.epc = s.thr.pc ∧
      t.thr.pc = s.thr.tvec + 640 ∧ t.thr.cause = 10 ∧ t.thr.tval = i.signExtend 64 ∧ t.thr.phase = .running))
/-! ## Lanes and convoys -/

/-- How many stacks of the wanted set `w` offer `g` lanes (R401). -/
def Sys2Proof.Machine.offered (s : State) (w : BitVec 4) (g : Nat) : Nat :=
  ((List.range 4).filter (fun k => w.getLsbD k && decide (g ≤ s.avail k))).length

/-- R101, R160, R400, R401, R404: of the grants that the own stack offers, CLAIM (over the attached set) and SPCLAIM take the one with the
most lanes in all, the larger one on a tie, on every wanted stack that offers it, and note the demand; CLAIM answers the grant, SPCLAIM answers SPAN; a SPCLAIM with a bit of
63:12 set faults; SPQRY answers what each stack offers and changes nothing. -/
def Obligations.LaneClaims : Prop :=
  ∀ (s : State) (d a : BitVec 6), s.Serial → s.Clean [a] →
    let own : BitVec 4 := 1#4 <<< (s.thr.hearth / 32)
    let claims := fun (i : Instr) (q : Nat) (want : BitVec 4) (answer : Thread → Word) =>
      let w := want ||| own
      let most := lanePower (min (max q 16) s.thr.vcap.toNat)
      ∃ t, exec i s = .next t ∧ Completed s t (s.thr.pc + 4) ∧ Wrote s t d (answer t.thr) ∧
        (let g := t.thr.grant
         g ∈ [16, 32, 64, 128] ∧ g ≤ most ∧ (16 ≤ s.avail (s.thr.hearth / 32) → g ≤ s.avail (s.thr.hearth / 32)) ∧ t.thr.demand = (if g < most then most else 0) ∧
          (∀ k < 4, t.thr.attached.getLsbD k = (w.getLsbD k && decide (g ≤ s.avail k))) ∧
          ∀ h ∈ [16, 32, 64, 128], h ≤ most → h ≤ s.avail (s.thr.hearth / 32) → offered s w h * h ≤ offered s w g * g ∧
            (offered s w h * h = offered s w g * g → h ≤ g)) ∧
        t = { s with
          thr := ({ s.thr with
            sregs := t.thr.sregs, poisonS := t.thr.poisonS, grant := t.thr.grant, attached := t.thr.attached
            demand := t.thr.demand, len := t.thr.len, vrun := t.thr.vrun, vrows := t.thr.vrows, mrows := t.thr.mrows
            poisonV := t.thr.poisonV }).bookOf t.thr
          free := t.free } ∧
        (s.thr.rowBits ≤ t.thr.rowBits → t.thr.len = s.thr.len ∧ t.thr.vrows = s.thr.vrows ∧ t.thr.mrows = s.thr.mrows ∧
          t.thr.vrun = s.thr.vrun ∧ t.thr.poisonV = s.thr.poisonV)
    let v := s.rs a
    claims (.claim d a) v.toNat s.thr.attached (fun t => BitVec.ofNat 64 t.grant) ∧
    (v.toNat < 2 ^ 12 → claims (.spclaim d a) (v.extractLsb' 0 8).toNat (v.extractLsb' 8 4)
      (fun t => BitVec.ofNat 64 (t.grant + 2 ^ 8 * t.attached.toNat + 2 ^ 12 * t.nseg))) ∧
    (2 ^ 12 ≤ v.toNat → exec (.spclaim d a) s = .next (s.takeTrap 8 v (some 0x78))) ∧
    Computes (.spqry d) s [] d (BitVec.ofNat 64 (s.avail 0 + 2 ^ 8 * s.avail 1 + 2 ^ 16 * s.avail 2 + 2 ^ 24 * s.avail 3))

/-- R21, R102, R105, R161, R407: SETL at each width renegotiates, then sets CL to the lesser of sa and the capacity, RL to the lesser
of sb and 8, LANES.WIDTH, and sd; the first one makes the vector state live with every row zero; a spanning thread takes a code 17 it
holds first.
R102, R403: a renegotiation changes the spans of no other thread; a hearth lowers where its share, 128 over its live threads, is below
the grant and a thread of it wants more; then the grant falls to the least share of those hearths, or the remote ones of them detach,
whichever leaves the larger capacity; columns past the new capacity are lost and CL falls to it. (The own hearth that alone lowers, and the
tie that detaches: log entry 20.) -/
def Obligations.SetlSetsTheLengths : Prop :=
  (∀ (s : State),
    let u := s.renegotiate
    let share := fun (h : Nat) => lanePower (128 / max 1 (s.threads.filter (fun t => s.liveOn t h)).length)
    let low := fun (k : Nat) => s.thr.attached.getLsbD k && decide (share (s.partner k) < s.thr.grant) &&
      s.others.any (fun t => s.unended t && decide (t.hearth = s.partner k) && decide (t.grant < t.demand))
    let far := (List.range 4).filter (fun k => low k && decide (k ≠ s.thr.hearth / 32))
    u = { s with thr := { s.thr with
      grant := u.thr.grant, attached := u.thr.attached, len := u.thr.len, vrun := u.thr.vrun, vrows := u.thr.vrows
      mrows := u.thr.mrows, poisonV := u.thr.poisonV } } ∧
    ((∀ k < 4, low k = false) → u = s) ∧
    ((∃ k < 4, low k = true) → ∃ g, g ≤ s.thr.grant ∧ g ≤ s.thr.vcap.toNat ∧ (∀ k < 4, low k = true → g ≤ share (s.partner k)) ∧
      (g = s.thr.grant ∨ g = s.thr.vcap.toNat ∨ ∃ k < 4, low k = true ∧ g = share (s.partner k)) ∧
      (if far = [] ∨ (s.thr.nseg - far.length) * s.thr.grant < s.thr.nseg * g then u.thr.grant = g ∧ u.thr.attached = s.thr.attached
       else u.thr.grant = s.thr.grant ∧ ∀ k < 4, u.thr.attached.getLsbD k = (s.thr.attached.getLsbD k && !far.contains k))) ∧
    (s.thr.rowBits ≤ u.thr.rowBits →
      u.thr.len = s.thr.len ∧ u.thr.vrows = s.thr.vrows ∧ u.thr.mrows = s.thr.mrows ∧ u.thr.poisonV = s.thr.poisonV) ∧
    (u.thr.rowBits < s.thr.rowBits →
      u.thr.len = BitVec.ofNat 64 (min s.thr.cl (u.thr.rowBits / (4 * 2 ^ s.thr.width)) + 2 ^ 32 * s.thr.rl) ∧
      (∀ k < 256, u.thr.row k = s.thr.row k % 2 ^ u.thr.rowBits) ∧
      ∀ p, p ∈ u.thr.poisonV ↔ p ∈ s.thr.poisonV ∧
        (p.1 = 32 ∨ 128 * p.2.2 < if p.1 < 32 then u.thr.rowBits else u.thr.rowBits / (4 * 2 ^ s.thr.width)))) ∧
  (∀ (s : State) (d a b : BitVec 6), s.Serial → s.Clean [a, b] →
    let u := s.renegotiate
    let sets := fun (i : Instr) (code w : Nat) =>
      (¬ (1 < s.thr.nseg ∧ s.ready17 = true) → ∃ t, exec i s = .next t ∧ Completed s t (s.thr.pc + 4) ∧
        t.thr.len = BitVec.ofNat 64 (min (s.rs a).toNat (u.thr.nseg * u.thr.grant * 128 / w) + 2 ^ 32 * min (s.rs b).toNat 8) ∧
        Wrote s t d t.thr.len ∧ t.thr.width = code ∧ t.thr.status = { s.thr.status with vlive := true } ∧
        t.thr.grant = u.thr.grant ∧ t.thr.attached = u.thr.attached ∧
        (s.thr.status.vlive = true → t.thr.vrows = u.thr.vrows) ∧ (s.thr.status.vlive = false → ∀ k, t.thr.row k = 0) ∧
        t = { s with
          thr := ({ u.thr with
            sregs := t.thr.sregs, poisonS := t.thr.poisonS, len := t.thr.len, width := code, status := t.thr.status
            vrows := t.thr.vrows, poisonV := t.thr.poisonV }).bookOf t.thr
          free := t.free }) ∧
      (1 < s.thr.nseg ∧ s.ready17 = true → exec i s = .next s.detach.take17)
    sets (.setl4 d a b) 0 4 ∧ sets (.setl8 d a b) 1 8 ∧ sets (.setl16 d a b) 2 16 ∧ sets (.setl32 d a b) 3 32 ∧
    sets (.setl64 d a b) 4 64)

/-- The words after a GRP at PC that opens a convoy of `n` counted words: the span ends with the `n`-th counted word and has no word
of class X and no GRP, a PFX only before a counted word, no class above its quota; then words of class S alone up to a word `next` that
is neither counted nor a PFX (R35). -/
def Sys2Proof.Machine.GoodSpan (s : State) (n : Nat) (span rest : List (BitVec 32)) (next : BitVec 32) : Prop :=
  let ws := span ++ rest ++ [next]
  let cls := fun (w : BitVec 32) => wordClass w.toNat
  ws.length ≤ 31 ∧ (∀ k, ∀ h : k < ws.length, s.fetchPeek (s.thr.pc + 4 + BitVec.ofNat 64 (4 * k)) = .ok ws[k]) ∧
  (span.filter (fun w => (cls w).counted)).length = n ∧ (∃ w, span.getLast? = some w ∧ (cls w).counted = true) ∧
  (∀ w ∈ span, cls w ≠ .X ∧ cls w ≠ .G) ∧
  (∀ k, ∀ h : k + 1 < span.length, cls span[k] = .P → (cls span[k + 1]).counted = true) ∧
  (∀ k, k.counted = true → (span.filter (fun w => decide (cls w = k))).length ≤ k.quota) ∧
  (∀ w ∈ rest, cls w = .S) ∧ cls next ≠ .S ∧ (cls next).counted = false ∧ cls next ≠ .P

/-- R33: a PFX before a counted word that accepts what it carries, in an open convoy, changes the effective mode of that word alone:
its mask (MINV then 0), rounding, policy, fourth operand and type; it retires with its word. -/
def Obligations.PfxChangesOneWord : Prop :=
  ∀ (s : State) (m : BitVec 4) (v : Bool) (r : BitVec 3) (w : Bool) (p : BitVec 2) (q : BitVec 5) (x : Bool) (t : BitVec 5) (y : Bool)
    (n : BitVec 32), s.fetchPeek (s.thr.pc + 4) = .ok n → (wordClass n.toNat).counted = true → s.thr.convoy.getLsbD 0 = true →
    (let a := accepts n.toNat
     (v = true → a.m = true) ∧ (w = true → a.d = true) ∧ (p ≠ 0 → a.p = true) ∧ (x = true → a.v = true) ∧ (y = true → a.t = true)) →
    s.thr.pfx = none →
      ∃ u, exec (.pfx m v r w p q x t y) s = .next u ∧ u.thr.pc = s.thr.pc + 4 ∧ u.thr.retired = s.thr.retired ∧
        u.thr.pfx.isSome = true ∧ u = { s with thr := { s.thr with pc := u.thr.pc, pfx := u.thr.pfx } } ∧
        u.thr.vctx = { s.thr.vctx with
          mask := if v then m.toNat else s.thr.vctx.mask, minv := if v then false else s.thr.vctx.minv
          rnd := if w then (if r = 6 then s.thr.frm.toNat else r.toNat) else s.thr.vctx.rnd
          zero := if p = 0 then s.thr.vctx.zero else decide (p = 2), v4 := if x then some q else s.thr.vctx.v4
          et := if y then t.toNat else s.thr.vctx.et }

/-- R31, R37, R38: a GRP before a good span opens its convoy: MODE takes its fields and CONVOY its word, nothing completed and OPEN;
in an open convoy that the thread stands in it is an illegal convoy, where its own span can be fetched.  R35, R24: a GRP whose next word cannot
be fetched takes that fetch's trap.
R38: what CONVOY becomes when a counted word of a class with a unit left completes. -/
def Obligations.GrpOpensTheConvoy : Prop :=
  (∀ (s : State) (m : BitVec 4) (v : Bool) (t : BitVec 5) (r : BitVec 3) (p f : Bool) (g : BitVec 2) (l : BitVec 3),
    let fields : BitVec 20 := m ++ BitVec.ofBool v ++ t ++ r ++ BitVec.ofBool p ++ BitVec.ofBool f ++ g ++ l
    let closed := ¬ (s.thr.inSpan = true ∧ s.thr.convoy.getLsbD 0 = true)
    (∀ span rest next, closed → GoodSpan s (l.toNat + 1) span rest next →
      ∃ u, exec (.grp m v t r p f g l) s = .next u ∧ Completed s u (s.thr.pc + 4) ∧
        u.thr.mode = (fields ++ 0#6).setWidth 64 ∧ u.thr.convoy = (0x3E#6 ++ fields ++ 0#6) ++ 1#32 ∧ u.thr.inSpan = true ∧
        u = { s with thr := ({ s.thr with mode := u.thr.mode, convoy := u.thr.convoy, inSpan := true }).bookOf u.thr, free := u.free }) ∧
    (¬ closed → ((∃ span rest next, GoodSpan s (l.toNat + 1) span rest next) ∨
        ∀ k < 31, ∃ w, s.fetchPeek (s.thr.pc + 4 + BitVec.ofNat 64 (4 * k)) = .ok w) →
      exec (.grp m v t r p f g l) s = .next (s.takeTrap 4 (s.thr.convoy >>> 32) none)) ∧
    (∀ c va x post, c ≠ 4 → s.fetchPeek (s.thr.pc + 4) = .error (.trap c va x post) →
      exec (.grp m v t r p f g l) s = .next ((post s).takeTrap c va x))) ∧
  (∀ (c : Word) (k : WordClass), k.counted = true → c.extractLsb' 20 4 ≠ 15 → convoyCount c k < k.quota →
    let e := convoyStep c k
    e.extractLsb' 20 44 = c.extractLsb' 20 44 + 1 ∧ e.extractLsb' 32 32 = c.extractLsb' 32 32 ∧
    convoyCount e k = convoyCount c k + 1 ∧ (∀ j : WordClass, j.counted = true → j ≠ k → convoyCount e j = convoyCount c j) ∧
    e.extractLsb' 1 9 = c.extractLsb' 1 9 ∧
    e.getLsbD 0 = (c.getLsbD 0 && decide (c.extractLsb' 20 4 ≠ (c.extractLsb' 38 3).setWidth 4)))


/-! ## Vector words -/

/-- R157, R162: the integer words, element by element, modulo 2^w; signed for In, unsigned for Nn. -/
def Obligations.VectorIntegerResults : Prop :=
  ∀ (s : State) (d a b : BitVec 5),
    let w := typeWidth s.thr.vctx.et
    let sg := isI s.thr.vctx.et
    let x := fun i j => BitVec.ofNat w (s.thr.elem s.thr.vctx a w i j)
    let y := fun i j => BitVec.ofNat w (s.thr.elem s.thr.vctx b w i j)
    let two := fun (i : Instr) (ts : List Nat) (f : BitVec w → BitVec w → BitVec w) =>
      Elementwise i s .Ar [d, a, b] [a, b] ts d (fun i j => (f (x i j) (y i j)).toNat)
    let one := fun (i : Instr) (ts : List Nat) (f : BitVec w → BitVec w) =>
      Elementwise i s .Ar [d, a] [a] ts d (fun i j => (f (x i j)).toNat)
    let less := fun (u v : BitVec w) => if sg then u.slt v else u.ult v
    let wide := fun (u : BitVec w) => if sg then u.signExtend (2 * w) else u.setWidth (2 * w)
    let val := fun (u : BitVec w) => if sg then u.toInt else (u.toNat : Int)
    let sat := fun (z : Int) => BitVec.ofInt w
      (if sg then max (-(2 ^ (w - 1))) (min (2 ^ (w - 1) - 1) z) else max 0 (min (2 ^ w - 1) z))
    two (.vadd d a b) intTypes (· + ·) ∧ two (.vsub d a b) intTypes (· - ·) ∧ two (.vmul d a b) intTypes (· * ·) ∧
    two (.vmulh d a b) intTypes (fun u v => ((wide u * wide v) >>> w).setWidth w) ∧
    two (.vmin d a b) intTypes (fun u v => if less u v then u else v) ∧
    two (.vmax d a b) intTypes (fun u v => if less u v then v else u) ∧
    two (.vminu d a b) intTypes (fun u v => if u.ult v then u else v) ∧
    two (.vmaxu d a b) intTypes (fun u v => if u.ult v then v else u) ∧
    two (.vand d a b) anyTypes (· &&& ·) ∧ two (.vor d a b) anyTypes (· ||| ·) ∧ two (.vxor d a b) anyTypes (· ^^^ ·) ∧
    two (.vsll d a b) intTypes (fun u v => u <<< (v.toNat % w)) ∧ two (.vsrl d a b) intTypes (fun u v => u >>> (v.toNat % w)) ∧
    two (.vsra d a b) intTypes (fun u v => if sg then u.sshiftRight (v.toNat % w) else u >>> (v.toNat % w)) ∧
    two (.vadds d a b) intTypes (fun u v => sat (val u + val v)) ∧ two (.vsubs d a b) intTypes (fun u v => sat (val u - val v)) ∧
    one (.vabs d a) intTypes (fun u => if sg && u.slt 0 then -u else u) ∧ one (.vneg d a) intTypes (fun u => -u) ∧
    one (.vmov d a) anyTypes (fun u => u)

/-- R163, R166: the floating words that round, on flushed operands (R97), each element under its own rounding (R92, R96); the fused
words take their third operand from the PFX or from vd (R141), with the product's or the third operand's sign changed as their names
say; what a rounding delivers is `Obligations.RoundingPicksTheNeighbour`. -/
def Obligations.VectorFloatRounding : Prop :=
  ∀ (s : State) (d a b : BitVec 5),
    let c := s.thr.vctx
    let w := typeWidth c.et
    let f := fmtOf c.et
    let rn := fun i j => (⟨c.rnd, if c.rnd = 5 then stochBits s.thr.srctr s.thr.rngkey (i * c.cl + j) else 0, c.flush⟩ : Rnd)
    let at' := fun (r : BitVec 5) i j => f.val (f.flushIn c.flush (s.thr.elem c r w i j))
    let k := c.v4.getD d
    let is := fun (i : Instr) (k : WordClass) (srcs : List (BitVec 5)) (ts : List Nat) (g : Nat → Nat → Nat × Flags) =>
      FloatElementwise i s k (d :: srcs) srcs ts [w] d w true g
    is (.vfadd d a b) .Ar [a, b] fp6Types (fun i j => f.add (rn i j) (at' a i j) (at' b i j)) ∧
    is (.vfsub d a b) .Ar [a, b] fp6Types (fun i j => f.add (rn i j) (at' a i j) (at' b i j).flip) ∧
    is (.vfmul d a b) .Ar [a, b] fp6Types (fun i j => f.mul (rn i j) (at' a i j) (at' b i j)) ∧
    is (.vfma d a b) .Ar [a, b, k] fp6Types (fun i j => f.fma (rn i j) (at' a i j) (at' b i j) (at' k i j)) ∧
    is (.vfms d a b) .Ar [a, b, k] fp6Types (fun i j => f.fma (rn i j) (at' a i j) (at' b i j) (at' k i j).flip) ∧
    is (.vfnma d a b) .Ar [a, b, k] fp6Types (fun i j => f.fma (rn i j) (at' a i j).flip (at' b i j) (at' k i j).flip) ∧
    is (.vfnms d a b) .Ar [a, b, k] fp6Types (fun i j => f.fma (rn i j) (at' a i j).flip (at' b i j) (at' k i j)) ∧
    is (.vdiv d a b) .Sp [a, b] fp4Types (fun i j => f.div (rn i j) (at' a i j) (at' b i j)) ∧
    is (.vsqrt d a) .Sp [a] fp4Types (fun i j => f.sqrt (rn i j) (at' a i j))

/-- R75: which of two flushed patterns is the lesser or the greater, -0 below +0: of one number and one NaN the number, of two NaNs the NaN
of cause 1; invalid where an operand is signalling. -/
def Sys2Proof.Machine.pickOf (f : Fmt) (greater : Bool) (u v : Nat) : Nat × Flags :=
  let x := f.val u
  let y := f.val v
  let sig := if x = .nan true ∨ y = .nan true then 1 else 0
  let first := decide (ratOf x < ratOf y) || (decide (ratOf x = ratOf y) && x.neg)
  if x.isNan ∧ y.isNan then ((f.nanOf 1).1, sig) else if x.isNan then (v, sig) else if y.isNan then (u, sig)
  else (if first != greater then u else v, 0)

/-- R75, R164, R165: the floating words that do not round: VFMIN and VFMAX give an operand's flushed pattern, or the NaN of cause 1
where both are NaNs; VFABS and VFNEG clear or change the sign bit and give the NaN of cause 1 for a NaN; the seeds give the seed
of the flushed operand, which `Obligations.RoundingPicksTheNeighbour` states; SRCTR stays. -/
def Obligations.VectorFloatExact : Prop :=
  ∀ (s : State) (d a b : BitVec 5),
    let c := s.thr.vctx
    let w := typeWidth c.et
    let f := fmtOf c.et
    let p := fun i j => f.flushIn c.flush (s.thr.elem c a w i j)
    let q := fun i j => f.flushIn c.flush (s.thr.elem c b w i j)
    let sign := fun (change : Bool → Bool) (u : Nat) =>
      if (f.val u).isNan then ((f.nanOf 1).1, if f.val u = .nan true then 1 else 0)
      else (u % 2 ^ (w - 1) + (if change (decide (2 ^ (w - 1) ≤ u)) then 2 ^ (w - 1) else 0), 0)
    let is := fun (i : Instr) (k : WordClass) (srcs : List (BitVec 5)) (ts : List Nat) (g : Nat → Nat → Nat × Flags) =>
      FloatElementwise i s k (d :: srcs) srcs ts [w] d w false g
    is (.vfmin d a b) .Ar [a, b] fp6Types (fun i j => pickOf f false (p i j) (q i j)) ∧
    is (.vfmax d a b) .Ar [a, b] fp6Types (fun i j => pickOf f true (p i j) (q i j)) ∧
    is (.vfabs d a) .Ar [a] fp6Types (fun i j => sign (fun _ => false) (p i j)) ∧
    is (.vfneg d a) .Ar [a] fp6Types (fun i j => sign (fun b => !b) (p i j)) ∧
    is (.vrcps d a) .Sp [a] fp4Types (fun i j => rcpSeed f c.flush (f.val (p i j))) ∧
    is (.vrsqs d a) .Sp [a] fp4Types (fun i j => rsqSeed f c.flush (f.val (p i j)))




/-- R96, R170, R171: VCVT and VCVTS to type `ty`: an integer to an integer wraps or saturates with no flag and no draw; any other
conversion is one rounding of the exact value, a CB4 source through CBSEL's codebook.
R170, R94: what that rounding gives: to an integer as `Obligations.RoundingPicksTheNeighbour` has it; to a format a number delivered, the
saturating form its largest magnitude on overflow; infinities and NaNs by their table. -/
def Obligations.VectorConversions : Prop :=
  (∀ (sat : Bool) (rn : Rnd) (ty : Nat) (v : FVal), ty ∈ anyTypes → ty ≠ 7 → rn.mode ≤ 5 → rn.r < 65536 →
    let f := fmtOf ty
    let r := convert sat rn ty v
    let sign := fun (neg : Bool) => if neg then 2 ^ (f.eb + f.mb) else 0
    (isInt ty = true → r = toIntSat (typeWidth ty) (isI ty) rn v) ∧
    (ty < 7 →
      (∀ neg m e, v = .num neg m e →
        (m = 0 → r = (sign neg, 0)) ∧
        (m ≠ 0 → ∃ q, Delivers f rn ((ratOf v : ℚ) : ℝ) q ∧
          r = if sat = true ∧ q.2 = 20 then (f.maxPat + sign neg, 20) else q)) ∧
      (∀ neg, v = .inf neg →
        (f ≠ f8e4 → f ≠ f4 → r = (infPat f + sign neg, 0)) ∧
        (f = f8e4 → r = (if sat then 0x7E + sign neg else 0x7F, 1)) ∧ (f = f4 → r = (7 + sign neg, 1))) ∧
      ∀ sg, v = .nan sg → r = (nanPat f 1, if sg = true ∨ f = f4 then 1 else 0))) ∧
  ∀ (s : State) (d a ty : BitVec 5), ty.toNat ∈ anyTypes → ty ≠ 7 →
    let c := s.thr.vctx
    let w := typeWidth c.et
    let n := typeWidth ty.toNat
    let x := fun i j => s.thr.elem c a w i j
    let whole := isInt c.et && isInt ty.toNat
    let val := fun (p : Nat) => if isI c.et then (BitVec.ofNat w p).toInt else (p : Int)
    let clamp := fun (z : Int) => if isI ty.toNat then max (-(2 ^ (n - 1))) (min (2 ^ (n - 1) - 1) z) else max 0 (min (2 ^ n - 1) z)
    let exact := fun (p : Nat) =>
      if c.et = 7 then bf16.val (bf16.flushIn c.flush ((s.thr.cbs[s.thr.cbsel.toNat]).toNat / 2 ^ (16 * p) % 2 ^ 16))
      else if isInt c.et then intVal (val p) else (fmtOf c.et).val ((fmtOf c.et).flushIn c.flush p)
    let is := fun (i : Instr) (sat : Bool) =>
      FloatElementwise i s .Ar [d, a] [a] anyTypes [w, n] d n (!whole) (fun i j =>
        if whole then ((BitVec.ofInt n (if sat then clamp (val (x i j)) else val (x i j))).toNat, 0)
        else convert sat (s.thr.elemRnd c i j) ty.toNat (exact (x i j)))
    is (.vcvt d a ty) false ∧ is (.vcvts d a ty) true

/-- A word of class `k` that writes mask `m` element by element under the guard and the policy (R109, R167, R169): it completes and
leaves every register row and every other mask as it was. -/
def Sys2Proof.Machine.Maskwise (i : Instr) (s : State) (k : WordClass) (m : BitVec 4) (f : Nat → Nat → Bool) (fl : Nat → Nat → Nat) :
    Prop :=
  ∃ t, exec i s = .next t ∧ VectorDone s t k { s.thr with mrows := t.thr.mrows, poisonV := t.thr.poisonV, fflags := t.thr.fflags } ∧
    MaskWritten s t m (fun i j => if s.thr.guard s.thr.vctx i j = true then f i j
      else if s.thr.vctx.zero = true ∧ s.thr.inPass j = true then false else s.thr.maskBit m.toNat i j) ∧
    (∀ b < 5, t.thr.fflags.getLsbD b = true ↔ s.thr.fflags.getLsbD b = true ∨
      ∃ i < s.thr.vctx.rl, ∃ j < s.thr.vctx.cl, s.thr.guard s.thr.vctx i j = true ∧ (fl i j).testBit b = true)

/-- R156, R158, R167: the compares, which need a group factor of 1: integers under their types, numbers by value with -0 equal to +0 and
subnormals flushed with FLUSH, the unordered answers and the invalid flag on a NaN.
R169: the mask words, guarded bit by bit; MFIRST keeps only the lowest active column of each row whose bit is 1. -/
def Obligations.ComparesAndMaskWords : Prop :=
  (∀ (s : State) (m : BitVec 4) (a b : BitVec 5), s.thr.vctx.f = 1 →
    let c := s.thr.vctx
    let w := typeWidth c.et
    let x := fun i j => s.thr.elem c a w i j
    let y := fun i j => s.thr.elem c b w i j
    let val := fun (p : Nat) => if isI c.et then (BitVec.ofNat w p).toInt else (p : Int)
    let num := fun (p : Nat) => (fmtOf c.et).val ((fmtOf c.et).flushIn c.flush p)
    let nan := fun i j => (num (x i j)).isNan || (num (y i j)).isNan
    let sig := fun i j => if num (x i j) = .nan true ∨ num (y i j) = .nan true then 1 else 0
    let compares := fun (i : Instr) (ri : Int → Int → Bool) (rf : ℚ → ℚ → Bool) (onNan invalid : Bool) =>
      s.CleanRows [a, b] w →
        (s.Ready .Ar [a, b] intTypes [w] → Maskwise i s .Ar m (fun i j => ri (val (x i j)) (val (y i j))) (fun _ _ => 0)) ∧
        (s.Ready .Ar [a, b] fp6Types [w] → Maskwise i s .Ar m
          (fun i j => if nan i j then onNan else rf (ratOf (num (x i j))) (ratOf (num (y i j))))
          (fun i j => if nan i j then (if invalid then 1 else sig i j) else 0))
    compares (.vceq m a b) (fun u v => decide (u = v)) (fun u v => decide (u = v)) false false ∧
    compares (.vcne m a b) (fun u v => decide (u ≠ v)) (fun u v => decide (u ≠ v)) true false ∧
    compares (.vclt m a b) (fun u v => decide (u < v)) (fun u v => decide (u < v)) false true ∧
    compares (.vcle m a b) (fun u v => decide (u ≤ v)) (fun u v => decide (u ≤ v)) false true ∧
    (s.CleanRows [a, b] w → s.Ready .Ar [a, b] intTypes [w] →
      Maskwise (.vcltu m a b) s .Ar m (fun i j => decide (x i j < y i j)) (fun _ _ => 0) ∧
      Maskwise (.vcleu m a b) s .Ar m (fun i j => decide (x i j ≤ y i j)) (fun _ _ => 0)) ∧
    (s.CleanRows [a, b] w → s.Ready .Ar [a, b] fp6Types [w] → Maskwise (.vcun m a b) s .Ar m nan sig)) ∧
  (∀ (s : State) (m a b : BitVec 4), s.thr.vctx.f = 1 → s.Ready .Mk [] anyTypes [] →
    (∀ n ∈ [a, b], s.CleanMask n.toNat s.thr.vctx.rl s.thr.vctx.cl) →
    let x := fun i j => s.thr.maskBit a.toNat i j
    let y := fun i j => s.thr.maskBit b.toNat i j
    let is := fun (i : Instr) (f : Nat → Nat → Bool) => Maskwise i s .Mk m f (fun _ _ => 0)
    is (.mand m a b) (fun i j => x i j && y i j) ∧ is (.mor m a b) (fun i j => x i j || y i j) ∧
    is (.mxor m a b) (fun i j => x i j ^^ y i j) ∧ is (.mandn m a b) (fun i j => x i j && !y i j) ∧
    is (.mnot m a) (fun i j => !x i j) ∧ is (.mmov m a) (fun i j => x i j) ∧
    is (.mfirst m a) (fun i j => x i j && decide (∀ k < j, ¬ (s.thr.guard s.thr.vctx i k = true ∧ x i k = true))))

/-- R174 to R177: the reductions write column 0 of each row, the scans every active column, from running sums that start at the carry
and take each active element in column order, each addition rounded; VREDT adds by the tree: entry k of a level joins entries 2k and 2k + 1
of the one before, a pair drawing at the first column of its right entry; VREDMIN and VREDMAX run the pick of R75, and of integers give one
of the carry and the active elements, none less or none greater.  R97, R86: a scan's carry is flushed before use, and a
NaN that VSCANX delivers of it is the one of cause 1. -/
def Obligations.ReductionsAndScans : Prop :=
  ∀ (s : State) (d a b : BitVec 5), s.thr.poisonV = [] →
    let c := s.thr.vctx
    let w := typeWidth c.et
    let f := fmtOf c.et
    let x := fun i j => s.thr.elem c a w i j
    let num := fun (p : Nat) => f.val (f.flushIn c.flush p)
    let rn := fun i j => (⟨c.rnd, if c.rnd = 5 then stochBits s.thr.srctr s.thr.rngkey (i * c.cl + j) else 0, c.flush⟩ : Rnd)
    let add := fun i j (u v : Nat) => if isInt c.et then ((u + v) % 2 ^ w, 0) else f.add (rn i j) (num u) (num v)
    let val := fun (p : Nat) => if isI c.et then (BitVec.ofNat w p).toInt else (p : Int)
    -- running sums: before column j
    let carry := fun i => s.thr.elem c b w i 0
    let Runs := fun (op : Nat → Nat → Nat → Nat → Nat × Flags) (start : Nat → Nat) (run : Nat → Nat → Nat) => ∀ i < c.rows,
      run i 0 = start i ∧ ∀ j < c.cl, run i (j + 1) = if s.thr.guard c i j = true then (op i j (run i j) (x i j)).1 else run i j
    let flagged := fun (op : Nat → Nat → Nat → Nat → Nat × Flags) (run : Nat → Nat → Nat) (t : State) =>
      FlagsGained s t (fun i j => (op i j (run i j) (x i j)).2)
    let first := fun (r : Nat → Nat) i j => if j = 0 then r i else if c.zero then 0 else s.thr.elem c d w i j
    let answers := fun (i : Instr) (ts : List Nat) (rounds : Bool) (P : State → (Nat → Nat → Nat) → Prop) =>
      s.Ready .Sl [d, a, b] ts [w] → ∃ t g, exec i s = .next t ∧
        VectorDone s t .Sl { s.thr with vrows := t.thr.vrows, fflags := t.thr.fflags, srctr := t.thr.srctr } ∧
        RowsWritten s t c d w g ∧ t.thr.srctr = s.thr.srctr +
          (if rounds = true ∧ isInt c.et = false ∧ c.rnd = 5 then BitVec.ofNat 64 (c.rows * c.cl) else 0) ∧ P t g ∧
        (isInt c.et = true → t.thr.fflags = s.thr.fflags)
    let folds := fun (op : Nat → Nat → Nat → Nat → Nat × Flags) (t : State) (g : Nat → Nat → Nat) =>
      ∃ run, Runs op carry run ∧ flagged op run t ∧ ∀ i < c.rows, ∀ j < c.cl, g i j = first (fun i => run i c.cl) i j
    let picks := fun (greater : Bool) (_ _ : Nat) (u v : Nat) => pickOf f greater (f.flushIn c.flush u) (f.flushIn c.flush v)
    let tree := fun (t : State) (g : Nat → Nat → Nat) => ∃ T : Nat → Nat → Nat → Option Nat,
      (∀ i k, T i 0 k = if k < c.cl ∧ s.thr.guard c i k = true then some (x i k) else none) ∧
      (∀ i n k, T i (n + 1) k = match T i n (2 * k), T i n (2 * k + 1) with
        | some u, some v => some (add i ((2 * k + 1) * 2 ^ n) u v).1
        | some u, none => some u
        | none, v => v) ∧
      (∀ i < c.rows, ∀ j < c.cl, g i j = first (fun i => match T i 14 0 with
        | some v => (add i 0 (carry i) v).1
        | none => carry i) i j) ∧
      ∀ b < 5, t.thr.fflags.getLsbD b = true ↔ s.thr.fflags.getLsbD b = true ∨ ∃ i < c.rows,
        (∃ n < 14, ∃ k u v, T i n (2 * k) = some u ∧ T i n (2 * k + 1) = some v ∧
          (add i ((2 * k + 1) * 2 ^ n) u v).2.testBit b = true) ∨
        ∃ v, T i 14 0 = some v ∧ (add i 0 (carry i) v).2.testBit b = true
    let whole := fun (_ : State) (g : Nat → Nat → Nat) => ∀ i < c.rows, ∀ j < c.cl, g i j = first (fun i =>
      (carry i + ((List.range c.cl).map (fun j => if s.thr.guard c i j then x i j else 0)).sum) % 2 ^ w) i j
    let extreme := fun (less : Int → Int → Prop) (_ : State) (g : Nat → Nat → Nat) => ∀ i < c.rows, 0 < c.cl →
      (∀ j < c.cl, g i j = first (fun i => g i 0) i j) ∧
      (g i 0 = carry i ∨ ∃ j < c.cl, s.thr.guard c i j = true ∧ g i 0 = x i j) ∧
      ¬ less (val (carry i)) (val (g i 0)) ∧
      ∀ j < c.cl, s.thr.guard c i j = true → ¬ less (val (x i j)) (val (g i 0))
    let start := fun i => if isInt c.et then carry i else f.flushIn c.flush (carry i)
    let scan := fun (after : Nat) (t : State) (g : Nat → Nat → Nat) => ∃ run, Runs add start run ∧ flagged add run t ∧
      ∀ i < c.rows, ∀ j < c.cl, g i j =
        if s.thr.guard c i j = true then
          (if after = 0 ∧ isInt c.et = false ∧ (f.val (run i j)).isNan = true ∧ ∀ k < j, s.thr.guard c i k = false then nanPat f 1
           else run i (j + after))
        else if c.zero then 0 else s.thr.elem c d w i j
    answers (.vredo d a b) (intTypes ++ fp6Types) true (folds add) ∧ answers (.vredt d a b) intTypes true whole ∧
    answers (.vredt d a b) fp6Types true tree ∧
    answers (.vredmin d a b) intTypes false (extreme (· < ·)) ∧ answers (.vredmax d a b) intTypes false (extreme (· > ·)) ∧
    answers (.vredmin d a b) fp6Types false (folds (picks false)) ∧ answers (.vredmax d a b) fp6Types false (folds (picks true)) ∧
    answers (.vscan d a b) (intTypes ++ fp6Types) true (scan 1) ∧ answers (.vscanx d a b) (intTypes ++ fp6Types) true (scan 0)

/-- R178 to R184, R402, R405, R406: the permute, compress, expand, slide, exchange, broadcast, index and random words move or make
elements without flags; VPERM, the slides and VXCHG act per segment of the claim, VCOMP and VEXPD over the whole row; VCOMP sets CL to
the most survivors of a row.
R168: VSEL writes every element within the lengths (and the pass), from va where the guard is 1 and from vb elsewhere. -/
def Obligations.DataMovement : Prop :=
  (∀ (s : State) (d a b : BitVec 5) (sb : BitVec 6), s.thr.poisonV = [] → s.Clean [sb] →
    let c := s.thr.vctx
    let w := typeWidth c.et
    let x := fun i j => s.thr.elem c a w i j
    let old := fun i j => s.thr.elem c d w i j
    let n := (s.rs sb).toNat
    let ls := s.thr.grant * 128 / w
    let lo := fun (j : Nat) => j / ls * ls
    let hi := fun (j : Nat) => min c.cl (lo j + ls)
    let rank := fun i j => ((List.range j).filter (fun k => s.thr.guard c i k)).length
    let kept := fun i j => if c.zero then 0 else old i j
    let moves := fun (i : Instr) (k : WordClass) (regs : List (BitVec 5)) (ts : List Nat) (g : Nat → Nat → Nat) =>
      s.Ready k regs ts [w] → ∃ t, exec i s = .next t ∧ VectorDone s t k { s.thr with vrows := t.thr.vrows } ∧ RowsWritten s t c d w g
    moves (.vperm d a b) .Sl [d, a, b] anyTypes (s.underGuard d w (fun i j =>
      let k := lo j + s.thr.elem c b w i j
      if k < hi j then x i k else 0)) ∧
    moves (.vexpd d a) .Sl [d, a] anyTypes (s.underGuard d w (fun i j => x i (rank i j))) ∧
    moves (.vslup d a sb) .Sl [d, a] anyTypes (fun i j =>
      if j < lo j + n then old i j else if s.thr.guard c i j = true then x i (j - n) else kept i j) ∧
    moves (.vsldn d a sb) .Sl [d, a] anyTypes (fun i j =>
      if hi j ≤ j + n then old i j else if s.thr.guard c i j = true then x i (j + n) else kept i j) ∧
    moves (.vxchg d a sb) .Sl [d, a] anyTypes (s.underGuard d w (fun i j =>
      let k := (j / ls + n % s.thr.nseg) % s.thr.nseg * ls + j % ls
      if k < c.cl then x i k else 0)) ∧
    moves (.vbcast d sb) .Ar [d] anyTypes (s.underGuard d w (fun _ _ => n % 2 ^ w)) ∧
    moves (.viota d sb) .Ar [d] intTypes (s.underGuard d w (fun _ j => (n + j) % 2 ^ w)) ∧
    moves (.vrng d sb) .Ar [d] intTypes (s.underGuard d w (fun i j =>
      (mix64 ((s.rs sb + BitVec.ofNat 64 (i * c.cl + j)) ^^^ s.thr.rngkey)).toNat / 2 ^ (64 - w))) ∧
    (s.Ready .Ar [d] fp6Types [w] → ∃ t g, exec (.vrng d sb) s = .next t ∧ VectorDone s t .Ar { s.thr with vrows := t.thr.vrows } ∧
      RowsWritten s t c d w (s.underGuard d w g) ∧
      ∀ i < c.rows, ∀ j < c.cl,
        let z := (mix64 ((s.rs sb + BitVec.ofNat 64 (i * c.cl + j)) ^^^ s.thr.rngkey)).toNat
        let drop : Nat := [11, 40, 53, 56, 60, 61].getD c.et 0
        ratOf ((fmtOf c.et).val (g i j)) = (z / 2 ^ drop : Nat) * (2 : ℚ) ^ ((drop : ℤ) - 64)) ∧
    (s.Ready .Sl [d, a] anyTypes [w] → ∃ t g, exec (.vcomp d a) s = .next t ∧
      VectorDone s t .Sl { s.thr with vrows := t.thr.vrows, len := t.thr.len } ∧ RowsWritten s t c d w g ∧
      (∀ i < c.rows, ∀ j < c.cl, (s.thr.guard c i j = true → g i (rank i j) = x i j) ∧ (rank i c.cl ≤ j → g i j = kept i j)) ∧
      (0 < c.rows → t.thr.rl = s.thr.rl ∧ (∀ i < c.rows, rank i c.cl ≤ t.thr.cl) ∧ ∃ i < c.rows, rank i c.cl = t.thr.cl))) ∧
  (∀ (s : State) (d a b : BitVec 5),
    let c := s.thr.vctx
    let w := typeWidth c.et
    s.Ready .Ar [d, a, b] anyTypes [w] → s.thr.poisonV = [] →
      ∃ t, exec (.vsel d a b) s = .next t ∧ VectorDone s t .Ar { s.thr with vrows := t.thr.vrows } ∧
        RowsWritten s t c d w (fun i j =>
          if s.thr.inPass j = false then s.thr.elem c d w i j
          else if s.thr.guard c i j = true then s.thr.elem c a w i j else s.thr.elem c b w i j))


/-! ## Vector memory words -/

/-- The active elements of the thread's next counted word (R108, R109). -/
def Sys2Proof.Machine.Active (s : State) (i j : Nat) : Prop :=
  i < s.thr.vctx.rows ∧ j < s.thr.vctx.cl ∧ s.thr.guard s.thr.vctx i j = true

/-- Every active element of an access at addresses `ea` of `n` bytes lies in the scratchpad window at offset `off`, unpoisoned (R199). -/
def Sys2Proof.Machine.WindowElems (s : State) (g : Gang) (ea : Nat → Nat → Word) (n : Nat) (off : Nat → Nat → Nat) : Prop :=
  s.myGang = some g ∧
  ∀ i j, Active s i j → WindowAt s (ea i j) n g (off i j) ∧ ∀ k < n, off i j + k ∉ g.tilePoison

/-- No word is being resumed and no event stops this one inside (R359). -/
def Sys2Proof.Machine.Whole (s : State) : Prop := s.thr.xresume.getLsbD 63 = false ∧ s.thr.stopAt = none

/-- The addresses of R193 at the word's width. -/
def Sys2Proof.Machine.rowAddress (s : State) (a b : BitVec 6) (i j : Nat) : Word :=
  s.rs a + BitVec.ofNat 64 i * s.rs b + BitVec.ofNat 64 (j * typeWidth s.thr.vctx.et / 8)
def Sys2Proof.Machine.strideAddress (s : State) (a b : BitVec 6) (i j : Nat) : Word :=
  s.rs a + BitVec.ofNat 64 j * s.rs b + BitVec.ofNat 64 (i * typeWidth s.thr.vctx.et / 8)

/-- R193, R194, R195: VLD and VLDS in the scratchpad window: each active element takes the bytes at its address, least significant
first, a 4-bit one the nibble of its column; masked-off elements follow the policy, and memory is as it was. -/
def Obligations.VectorLoadsInTheWindow : Prop :=
  ∀ (s : State) (d : BitVec 5) (a b : BitVec 6) (h : BitVec 3) (g : Gang) (off : Nat → Nat → Nat), Whole s → s.Clean [a, b] →
    let w := typeWidth s.thr.vctx.et
    let n := max 1 (w / 8)
    let loads := fun (i : Instr) (ts : List Nat) (ea : Nat → Nat → Word) =>
      s.Ready .Ld [d] ts [w] → WindowElems s g ea n off →
        ∃ t, exec i s = .next t ∧ VectorDone s t .Ld { s.thr with vrows := t.thr.vrows, poisonV := t.thr.poisonV } ∧
          RowsWritten s t s.thr.vctx d w (s.underGuard d w (fun i j =>
            if w = 4 then Memory.num g.tileMem (off i j) 1 / 16 ^ (j % 2) % 16 else Memory.num g.tileMem (off i j) n))
    loads (.vld d a b h) anyTypes (rowAddress s a b) ∧
    loads (.vlds d a b h) (anyTypes.filter (fun t => decide (typeWidth t ≠ 4))) (strideAddress s a b)

/-- What a store of elements to the tiles of a gang leaves: no byte outside the active elements' bytes differs, and each element's
bytes hold it unless a later element, in row-major order, covers them; only the tiles of the gang differ, the WAITEVs that watch them
(R82), and CONVOY. -/
def Sys2Proof.Machine.TilesWritten (s t : State) (g : Gang) (n : Nat) (off : Nat → Nat → Nat) (v : Nat → Nat → Nat) : Prop :=
  VectorDone { s with gangs := t.gangs, watches := t.watches } t .St s.thr ∧
  (∃ g', t.myGang = some g' ∧ g' = { g with tileMem := g'.tileMem, tilePoison := g'.tilePoison } ∧
    (∀ x, (∀ i j, Active s i j → ¬ (off i j ≤ x ∧ x < off i j + n)) → Memory.read g'.tileMem x = Memory.read g.tileMem x) ∧
    ∀ i j, Active s i j →
      (∀ i' j', Active s i' j' → i * s.thr.vctx.cl + j < i' * s.thr.vctx.cl + j' → off i' j' + n ≤ off i j ∨ off i j + n ≤ off i' j') →
      Memory.num g'.tileMem (off i j) n = v i j) ∧
  ∀ h, h ≠ s.thr.gang → t.gangOf h = s.gangOf h

/-- R193 to R195: VST and VSTS in the scratchpad window write each active element's bytes at its address; a 4-bit element changes its
own nibble alone. -/
def Obligations.VectorStoresInTheWindow : Prop :=
  ∀ (s : State) (d : BitVec 5) (a b : BitVec 6) (h : BitVec 3) (g : Gang) (off : Nat → Nat → Nat), s.MemoryForm → Whole s →
    s.Clean [a, b] →
    let w := typeWidth s.thr.vctx.et
    let v := fun i j => s.thr.elem s.thr.vctx d w i j
    let wide := anyTypes.filter (fun t => decide (typeWidth t ≠ 4))
    s.CleanRows [d] w →
    (s.Ready .St [d] wide [w] → WindowElems s g (rowAddress s a b) (w / 8) off →
      ∃ t, exec (.vst d a b h) s = .next t ∧ TilesWritten s t g (w / 8) off v) ∧
    (s.Ready .St [d] wide [w] → WindowElems s g (strideAddress s a b) (w / 8) off →
      ∃ t, exec (.vsts d a b h) s = .next t ∧ TilesWritten s t g (w / 8) off v) ∧
    (s.Ready .St [d] [6, 7, 12, 20] [w] → WindowElems s g (rowAddress s a b) 1 off →
      ∃ t g', exec (.vst d a b h) s = .next t ∧ VectorDone { s with gangs := t.gangs, watches := t.watches } t .St s.thr ∧
        t.myGang = some g' ∧ g' = { g with tileMem := g'.tileMem, tilePoison := g'.tilePoison } ∧
        (∀ h, h ≠ s.thr.gang → t.gangOf h = s.gangOf h) ∧
        let nibble := fun (m : List Host.Cell) (x k : Nat) => (Memory.read m x).toNat / 16 ^ k % 16
        (∀ x, ∀ k < 2, (∀ i j, Active s i j → off i j = x → j % 2 ≠ k) → nibble g'.tileMem x k = nibble g.tileMem x k) ∧
        ∀ i j, Active s i j →
          (∀ i' j', Active s i' j' → i * s.thr.vctx.cl + j < i' * s.thr.vctx.cl + j' → j' % 2 = j % 2 → off i' j' ≠ off i j) →
          nibble g'.tileMem (off i j) (j % 2) = v i j)

/-- R194, R255, R256 on every kind of page: a row, strided or column load or store completes wherever its element accesses, in row-major
order, are answered (no trap, no wait): a load with the values it is given, a store with the memory those accesses leave. -/
def Obligations.VectorAccessesCompleteWhereAnswered : Prop :=
  ∀ (s : State) (d : BitVec 5) (a b : BitVec 6) (h : BitVec 3), Whole s → 0 < s.thr.vctx.cl → 0 < s.thr.vctx.rl →
    let c := s.thr.vctx
    let w := typeWidth c.et
    let wide := anyTypes.filter (fun t => decide (typeWidth t ≠ 4))
    let acc := fun (u : Use) (col : Bool) =>
      ({ use := u, n := max 1 (w / 8), col := col, width := if col then w / 8 else 0, scope := 0, hint := h.toNat } : Acc)
    let loads := fun (i : Instr) (ts : List Nat) (col : Bool) (ea : Nat → Nat → Word) =>
      ∀ vs u, s.Ready .Ld [d] ts [w] → loadElems c [a, b] (acc .load col) w ea s.thr (List.range (c.rows * c.cl)) s = .ok (vs, u) →
        ∃ t, exec i s = .next t ∧ Completed s t (s.thr.pc + 4) ∧ t.thr.convoy = convoyStep s.thr.convoy .Ld ∧
          RowsWritten s t c d w (s.underGuard d w (fun i j => (assoc vs (i * c.cl + j)).getD 0 % 2 ^ w)) ∧
          t = { u with thr := ({ u.thr with vrows := t.thr.vrows, poisonV := t.thr.poisonV, convoy := t.thr.convoy }).bookOf t.thr
                       free := t.free }
    let stores := fun (i : Instr) (ts : List Nat) (col : Bool) (ea : Nat → Nat → Word) =>
      ∀ u, s.Ready .St [d] ts [w] →
        State.storeElems [a, b] (acc .store col) (storeList c d w ea s.thr 0 (c.rows * c.cl)) s [] = .ok u →
        ∃ t, exec i s = .next t ∧ Completed s t (s.thr.pc + 4) ∧ t.thr.convoy = convoyStep s.thr.convoy .St ∧
          t = { u with thr := ({ u.thr with convoy := t.thr.convoy }).bookOf t.thr, free := t.free }
    loads (.vld d a b h) anyTypes false (rowAddress s a b) ∧ loads (.vlds d a b h) wide false (strideAddress s a b) ∧
    loads (.vldc d a b h) anyTypes true (addrCol (s.rs a) (s.rs b) w) ∧
    stores (.vst d a b h) anyTypes false (rowAddress s a b) ∧ stores (.vsts d a b h) wide false (strideAddress s a b) ∧
    stores (.vstc d a b h) anyTypes true (addrCol (s.rs a) (s.rs b) w)

/-- R209, R210, R257 in the scratchpad window: each active element's address is the base plus its N32 index times the element size;
VGATH takes the bytes there, VSCAT writes the elements in row-major order, VSCADD adds to each address the sum of the elements sent to it,
numbers summed in row-major order, each addition rounded, under RNE where the rounding is stochastic. (A word whose unit is parked waits:
log entry 71.) -/
def Obligations.GatherAndScatterInTheWindow : Prop :=
  ∀ (s : State) (d a : BitVec 5) (sb : BitVec 6) (g : Gang) (off : Nat → Nat → Nat), s.MemoryForm → s.Clean [sb] →
    let c := s.thr.vctx
    let w := typeWidth c.et
    let n := w / 8
    let v := fun i j => s.thr.elem c d w i j
    let wide := anyTypes.filter (fun t => decide (typeWidth t ≠ 4))
    let sums := [8, 9, 10, 11, 16, 17, 18, 19]
    let f := fmtOf c.et
    let num := fun (p : Nat) => f.val (f.flushIn c.flush p)
    let add := fun (u v : Nat) => f.add ⟨if c.rnd = 5 then 0 else c.rnd, 0, c.flush⟩ (num u) (num v)
    WindowElems s g (fun i j => s.rs sb + BitVec.ofNat 64 (s.thr.elem c a 32 i j * n)) n off → s.CleanRows [a] 32 →
    (∀ o ∈ s.ops, o.kind = .indexed s.thr.tid → o.pc ≠ s.thr.pc) →
    (s.Ready .Ld [d, a] wide [w, 32] →
      ∃ t, exec (.vgath d a sb) s = .next t ∧ VectorDone s t .Ld { s.thr with vrows := t.thr.vrows, poisonV := t.thr.poisonV } ∧
        RowsWritten s t c d w (s.underGuard d w (fun i j => Memory.num g.tileMem (off i j) n))) ∧
    (s.Ready .St [d, a] wide [w, 32] → s.CleanRows [d] w → ∃ t, exec (.vscat d a sb) s = .next t ∧ TilesWritten s t g n off v) ∧
    (s.Ready .St [d, a] sums [w, 32] → s.CleanRows [d] w →
      ∃ t g', exec (.vscadd d a sb) s = .next t ∧ VectorDone { s with gangs := t.gangs, watches := t.watches } t .St s.thr ∧
        t.myGang = some g' ∧ g' = { g with tileMem := g'.tileMem, tilePoison := g'.tilePoison } ∧
        (∀ h, h ≠ s.thr.gang → t.gangOf h = s.gangOf h) ∧
        (∀ x, (∀ i j, Active s i j → ¬ (off i j ≤ x ∧ x < off i j + n)) → Memory.read g'.tileMem x = Memory.read g.tileMem x) ∧
        ∀ i j, Active s i j → Memory.num g'.tileMem (off i j) n = (Memory.num g.tileMem (off i j) n +
          ((List.range c.rows).flatMap (fun i' => (List.range c.cl).map (fun j' =>
            if s.thr.guard c i' j' = true ∧ off i' j' = off i j then v i' j' else 0))).sum) % 2 ^ w) ∧
    (s.Ready .St [d, a] fp4Types [w, 32] → s.CleanRows [d] w →
      ∃ t g', exec (.vscadd d a sb) s = .next t ∧
        VectorDone { s with gangs := t.gangs, watches := t.watches } t .St { s.thr with fflags := t.thr.fflags } ∧ t.myGang = some g' ∧
        g' = { g with tileMem := g'.tileMem, tilePoison := g'.tilePoison } ∧ (∀ h, h ≠ s.thr.gang → t.gangOf h = s.gangOf h) ∧
        (∀ x, (∀ i j, Active s i j → ¬ (off i j ≤ x ∧ x < off i j + n)) → Memory.read g'.tileMem x = Memory.read g.tileMem x) ∧
        -- the sum at offset x after the first p positions
        ∃ sum : Nat → Nat → Option Nat,
          (∀ x, sum x 0 = none) ∧
          (∀ x p, p < c.rows * c.cl → sum x (p + 1) =
            if s.thr.guard c (p / c.cl) (p % c.cl) = true ∧ off (p / c.cl) (p % c.cl) = x then
              some (match sum x p with
                | none => v (p / c.cl) (p % c.cl)
                | some u => (add u (v (p / c.cl) (p % c.cl))).1)
            else sum x p) ∧
          (∀ i j, Active s i j → ∃ u, sum (off i j) (c.rows * c.cl) = some u ∧
            Memory.num g'.tileMem (off i j) n = (add (Memory.num g.tileMem (off i j) n) u).1) ∧
          ∀ b < 5, t.thr.fflags.getLsbD b = true ↔ s.thr.fflags.getLsbD b = true ∨
            (∃ p < c.rows * c.cl, s.thr.guard c (p / c.cl) (p % c.cl) = true ∧
              ∃ u, sum (off (p / c.cl) (p % c.cl)) p = some u ∧ (add u (v (p / c.cl) (p % c.cl))).2.testBit b = true) ∨
            ∃ i j u, Active s i j ∧ sum (off i j) (c.rows * c.cl) = some u ∧
              (add (Memory.num g.tileMem (off i j) n) u).2.testBit b = true)

/-- R90: the block formats that hold elements: format byte, elements, element type. -/
def Sys2Proof.Machine.blockFormats : List (Nat × Nat × Nat) :=
  [(0x01, 124, 6), (0x02, 124, 12), (0x20, 62, 4), (0x21, 62, 5), (0x22, 62, 11), (0x30, 31, 3), (0x31, 31, 2)] ++
    (List.range 16).map (fun k => (0x10 + k, 124, 7))

/-- R90, R91: the value of element `k` of type `ty` of the block `bs`: its own value, flushed, times 2^(s - 127); none is the NaN of cause 2
that scale 0xFF gives. -/
def Sys2Proof.Machine.blockElem (s : State) (flush : Bool) (bs : List Byte) (ty k : Nat) : Option FVal :=
  let w := typeWidth ty
  let p := leNat (bs.drop 2) / 2 ^ (k * w) % 2 ^ w
  let own := if ty = 7 then bf16.val (bf16.flushIn flush (s.thr.cbEntry ((bs.getD 0 0).toNat - 0x10) p))
    else if ty ∈ intTypes then intVal (BitVec.ofNat w p).toInt else (fmtOf ty).val ((fmtOf ty).flushIn flush p)
  if (bs.getD 1 0).toNat = 255 then none else some (own.scale (((bs.getD 1 0).toNat : Int) - 127))

/-- R261: what one packed block holds of its elements `xs`, none for a position that is not active: its format byte, its scale, each active
element divided by the scale and converted as by VCVTS, zeros elsewhere.  Under AUTO the scale is the least under which every active
element is within the largest value, 254 where there is none; the scale byte is 0xFF where an active NaN has no pattern. (AUTO with a NaN:
log entry 24.) -/
def Sys2Proof.Machine.Packs (ctl : Nat) (rn : Nat → Rnd) (xs : List (Option FVal)) (r : List Byte × Flags) : Prop :=
  ∀ p ∈ blockFormats, p.1 = ctl % 256 →
    let w := typeWidth p.2.2
    let most : ℚ := if p.2.2 ∈ intTypes then 2 ^ (w - 1) - 1 else ratOf ((fmtOf p.2.2).val (fmtOf p.2.2).maxPat)
    let within := fun (k : Nat) (v : FVal) => v.special = false ∧ |ratOf v| * (2 : ℚ) ^ (127 - (k : ℤ)) ≤ most
    let nan := ∃ v, some v ∈ xs ∧ v.isNan = true
    ∃ sc : Nat, (ctl.testBit 16 = false → sc = ctl / 256 % 256) ∧
      (ctl.testBit 16 = true → ¬ nan →
        (∀ k < sc, ∃ v, some v ∈ xs ∧ ¬ within k v) ∧ (sc ≤ 254) ∧ (sc < 254 → ∀ v, some v ∈ xs → within sc v)) ∧
      r.1.length = 64 ∧ r.1.getD 0 0 = BitVec.ofNat 8 ctl ∧
      (nan → p.2.2 = 6 ∨ p.2.2 ∈ intTypes → r.1.getD 1 0 = 0xFF) ∧
      (¬ (nan ∧ (p.2.2 = 6 ∨ p.2.2 ∈ intTypes)) → r.1.getD 1 0 = BitVec.ofNat 8 sc) ∧
      (∀ k < p.2.1, leNat (r.1.drop 2) / 2 ^ (k * w) % 2 ^ w =
        match xs.getD k none with
        | none => 0
        | some v => (convert true (rn k) p.2.2 (v.scale (127 - (sc : ℤ)))).1) ∧
      ∀ b < 5, r.2.testBit b = true ↔
        ∃ k v, xs.getD k none = some v ∧ (convert true (rn k) p.2.2 (v.scale (127 - (sc : ℤ)))).2.testBit b = true

/-- Width in bits of a width code (R287). -/
def Sys2Proof.Machine.codeWidth (c : Nat) : Nat := if c ≤ 28 then c else [32, 48, 64].getD (c - 29) 64

/-- R287, R288: `bs` is a sub-stream of the elements `xs` of `w` bits under transform `x`: groups of 16, each a 5-bit width code and one residual
for each element, from bit 0 up, no more bytes than they need and the padding zero; `least`: each code is the least that holds its group. -/
def Sys2Proof.Machine.SubStream (least : Bool) (x w : Nat) (xs : List Nat) (bs : List Byte) : Prop :=
  ∃ code res : List Nat,
    let start := fun (g : Nat) => ((List.range g).map (fun h => 5 + codeWidth (code.getD h 0) * min 16 (xs.length - 16 * h))).sum
    let v := leNat bs
    code.length = (xs.length + 15) / 16 ∧ res.length = xs.length ∧ bs.length = (start code.length + 7) / 8 ∧ v < 2 ^ start code.length ∧
      (∀ g < code.length, code.getD g 0 < 32 ∧ codeWidth (code.getD g 0) ≤ w ∧ v / 2 ^ start g % 32 = code.getD g 0 ∧
        (least = true → ∀ c < code.getD g 0, ∃ k < xs.length, k / 16 = g ∧ 2 ^ codeWidth c ≤ res.getD k 0)) ∧
      ∀ k < xs.length,
        let n := codeWidth (code.getD (k / 16) 0)
        let r := res.getD k 0
        let p := if k = 0 then 0 else xs.getD (k - 1) 0
        v / 2 ^ (start (k / 16) + 5 + n * (k % 16)) % 2 ^ n = r ∧
          (x = 0 → xs.getD k 0 = r) ∧
          (x = 1 → (xs.getD k 0 : Int) = ((p : Int) + if r % 2 = 0 then ((r / 2 : Nat) : Int) else -((r / 2 : Nat) : Int) - 1) % 2 ^ w) ∧
          (x = 2 → xs.getD k 0 = p ^^^ r)

/-- R287: `bs` is a chunk of the elements `xs` with `n` sub-streams under transform `x`. -/
def Sys2Proof.Machine.ChunkLayout (least : Bool) (w n x : Nat) (xs : List Nat) (bs : List Byte) : Prop :=
  let q := (xs.length + n - 1) / n
  1 ≤ n ∧ n ≤ 8 ∧ x ≤ 2 ∧ xs.length < 2 ^ 24 ∧ ∃ subs : List (List Byte), subs.length = n ∧ (∀ b ∈ subs, b.length < 2 ^ 16) ∧
    bs = leBytes 4 (xs.length + (n - 1) * 2 ^ 24 + x * 2 ^ 27) ++ (subs.map (fun b => leBytes 2 b.length)).flatten ++ subs.flatten ∧
    ∀ j < n, SubStream least x w ((xs.drop (j * q)).take q) (subs.getD j [])

/-- R90, R91, R259 to R263: the stream words.  VLDB and VLDZ complete wherever their reads of the stream are answered, with as many
columns as they were given, and STRM and STRMK where they stopped; each column VLDB is given is one conversion as by VCVTS, with the flags
of its active columns.  In the scratchpad window VLDB delivers the elements of a block from element K0 on, and at an end block nothing and
sets STRMK.END; VLDZ delivers the elements of a chunk of the layout of R287 from element K0 on, and at a chunk with none nothing and sets
STRMK.END.  VSTB writes the packed blocks and an end block on request. (What a column of VSTB is at RL = 0, and the free draws of its scale and
rounding: log entries 23 to 25; the advance of SRCTR by F x RL x the new CL at VLDB: 48; the largest magnitudes of the integer block types: 55.) -/
def Obligations.StreamWords : Prop :=
  (∀ (ctl free : Nat) (rn : Nat → Rnd) (xs : List (Option FVal)) (f : BlkFmt), packOk ctl = true → blkFmt (ctl % 256) 1 = some f →
    xs.length ≤ f.count → Packs ctl rn xs (packBlock ctl f free rn xs)) ∧
  ∀ (s : State) (d : BitVec 5) (a b : BitVec 6) (h : BitVec 3), Whole s → s.Clean [a, b] → s.thr.poisonV = [] →
    let c := s.thr.vctx
    let w := typeWidth c.et
    let cap := s.thr.nseg * s.thr.grant * 128 / w
    let sa := (s.rs a).toNat
    let k0 := (s.rs b).toNat / 2 ^ 40
    let limit := sa + (s.rs b).toNat % 2 ^ 40
    let done := fun (t : State) (p k : Nat) (last : Bool) (n : Nat) => Completed s t (s.thr.pc + 4) ∧ t.thr.cl = n ∧ t.thr.rl = s.thr.rl ∧
      t.thr.strm = BitVec.ofNat 64 (p % 2 ^ 56) ∧ t.thr.strmk = BitVec.ofNat 64 (k + if last then 2 ^ 63 else 0)
    let draw := fun (j : Nat) => (⟨c.rnd, if c.rnd = 5 then stochBits s.thr.srctr s.thr.rngkey j else 0, c.flush⟩ : Rnd)
    let conv := fun (x : Nat → Option FVal) (j : Nat) => match x j with
      | some v => convert true (draw j) c.et v
      | none => (if c.et < 7 then nanPat (fmtOf c.et) 2 else 0, 1)
    let delivered := fun (t : State) (n : Nat) (x : Nat → Option FVal) =>
      RowsWritten s t (c.row0 n) d w (fun _ j => if s.thr.guard (c.row0 n) 0 j = true then (conv x j).1 % 2 ^ w
        else if c.zero = true ∧ s.thr.inPass j = true then 0 else s.thr.elem (c.row0 n) d w 0 j) ∧
      (∀ b < 5, t.thr.fflags.getLsbD b = true ↔ s.thr.fflags.getLsbD b = true ∨
        ∃ j < n, s.thr.guard (c.row0 n) 0 j = true ∧ (conv x j).2.testBit b = true) ∧
      t.thr.srctr = s.thr.srctr + if c.rnd = 5 then BitVec.ofNat 64 (c.f * s.thr.rl * n) else 0
    let block := fun (g : Gang) (off : Nat) => (List.range 64).map (fun k => Memory.read g.tileMem (off + k))
    (s.Ready .Ld [d] ([0, 1, 2, 3, 4, 5, 6] ++ [8, 9, 10, 11]) [] → sa % 64 = 0 →
      (∀ xs p k last u, vldbLoop c h.toNat cap limit (cap + 2) sa k0 0 s = .ok (xs, (p, k, last), u) →
        ∃ t, exec (.vldb d a b h) s = .next t ∧ done t p k last xs.length ∧ t.mem = u.mem ∧ t.gangs = u.gangs ∧
          delivered t xs.length (fun j => xs.getD j none)) ∧
      (∀ g off, WindowAt s (s.rs a) 64 g off → (∀ k < 64, off + k ∉ g.tilePoison) → 0 < cap → sa + 64 ≤ limit →
        let head := (Memory.read g.tileMem off).toNat
        let next := fun (t : State) (p k : Nat) (last : Bool) (n : Nat) (x : Nat → Option FVal) => exec (.vldb d a b h) s = .next t ∧
          done t p k last n ∧ delivered t n x ∧ VectorDone s t .Ld { s.thr with
            vrows := t.thr.vrows, fflags := t.thr.fflags, srctr := t.thr.srctr, len := t.thr.len, strm := t.thr.strm, strmk := t.thr.strmk }
        (head = 0 → ∃ t, next t sa k0 true 0 (fun _ => none) ∧ t.thr.vrows = s.thr.vrows) ∧
        (limit < sa + 128 → ∀ cnt elem,
          ((∃ p ∈ blockFormats, head = p.1 ∧ cnt = p.2.1 ∧ elem = blockElem s c.flush (block g off) p.2.2) ∨
            (head = 15 ∧ cnt = (Memory.read g.tileMem (off + 1)).toNat ∧ elem = fun _ => some (.num false 0 0))) → k0 < cnt →
          let n := min (cnt - k0) cap
          ∃ t, next t (if cnt ≤ k0 + n then sa + 64 else sa) (if cnt ≤ k0 + n then 0 else k0 + n) false n (fun j => elem (k0 + j))))) ∧
    (s.Ready .St [d] ([0, 1, 2, 3, 4, 5] ++ [8, 9, 10, 11]) [w] → sa % 64 = 0 → packOk (s.rs b).toNat = true →
      let xs := (List.range c.cl).map (fun j => if s.thr.guard (c.row0 c.cl) 0 j = true then
        some (s.thr.valueOf c.et s.thr.cbsel.toNat c.flush (s.thr.elem (c.row0 c.cl) d w 0 j)) else none)
      let blocks := packBlocks (s.rs b).toNat c.rnd c.flush s.free xs
      let last := (s.rs b).getLsbD 17
      let bytes := ((blocks.map (fun (p : List Byte × Flags) => p.1)) ++ if last then [List.replicate 64 0] else []).flatten
      let items := (List.range (bytes.length / 32)).map (fun k =>
        (⟨BitVec.ofNat 64 (sa + 32 * k), (bytes.drop (32 * k)).take 32, none, false⟩ : StoreElem))
      (∀ p ∈ blockFormats, p.1 = (s.rs b).toNat % 256 → blocks.length = (c.cl + p.2.1 - 1) / p.2.1 ∧
        ∀ k < blocks.length, ∃ rn : Nat → Rnd, (∀ j, (rn j).mode = c.rnd ∧ (rn j).flush = c.flush) ∧
          Packs (s.rs b).toNat rn ((xs.drop (k * p.2.1)).take p.2.1) (blocks.getD k ([], 0))) ∧
      ∀ u, State.storeElems [] ({ use := .store, n := 32, col := false, width := 0, scope := 0, hint := h.toNat } : Acc) items s [] = .ok u →
        ∃ t, exec (.vstb d a b h) s = .next t ∧ Completed s t (s.thr.pc + 4) ∧ t.mem = u.mem ∧ t.gangs = u.gangs ∧
          t.thr.vrows = s.thr.vrows ∧ t.thr.len = s.thr.len ∧
          (∀ b < 5, t.thr.fflags.getLsbD b = true ↔ s.thr.fflags.getLsbD b = true ∨ ∃ q ∈ blocks, q.2.testBit b = true) ∧
          t.thr.strm = BitVec.ofNat 64 ((sa + 64 * blocks.length) % 2 ^ 56) ∧
          t.thr.strmk = BitVec.ofNat 64 (if last then 2 ^ 63 else 0)) ∧
    (s.Ready .Ld [d] (anyTypes.filter (fun t => decide (typeWidth t ≠ 4))) [] →
      let z := vldzLoop w h.toNat cap limit 0 c.mask (cap + 2) sa k0 0 s
      z.stop.isNone = true → ∃ t, exec (.vldz d a b h) s = .next t ∧ done t z.addr z.k z.done z.vals.length ∧ t.thr.xresume = 0 ∧
        t.mem = z.st.mem ∧ t.gangs = z.st.gangs ∧
        ∀ j < z.vals.length, t.thr.elem (c.row0 z.vals.length) d w 0 j =
          if s.thr.guard (c.row0 z.vals.length) 0 j = true then z.vals.getD j 0 % 2 ^ w
          else if c.zero = true ∧ s.thr.inPass j = true then 0 else s.thr.elem (c.row0 z.vals.length) d w 0 j) ∧
    (s.Ready .Ld [d] (anyTypes.filter (fun t => decide (typeWidth t ≠ 4))) [] → ∀ g off n x xs bs, ChunkLayout false w n x xs bs →
      s.myGang = some g → s.thr.twin.getLsbD 0 = true → sa = s.thr.twin.toNat / 2 ^ 21 * 2 ^ 21 + off → off + bs.length ≤ g.tiles * 4096 →
      g.tiles ≤ 512 → (∀ k < bs.length, Memory.read g.tileMem (off + k) = bs.getD k 0 ∧ (off + k) / 4096 ∉ g.owners ∧ off + k ∉ g.tilePoison) →
      0 < cap → sa + bs.length ≤ limit → limit < sa + bs.length + 4 → k0 < xs.length ∨ xs = [] →
        let n := min (xs.length - k0) cap
        let whole := decide (xs.length ≤ k0 + n)
        ∃ t, exec (.vldz d a b h) s = .next t ∧ VectorDone s t .Ld { s.thr with
            vrows := t.thr.vrows, xresume := 0, len := t.thr.len, strm := t.thr.strm, strmk := t.thr.strmk } ∧
          (if xs = [] then done t sa k0 true 0 else done t (if whole then sa + bs.length else sa) (if whole then 0 else k0 + n) false n) ∧
          RowsWritten s t (c.row0 n) d w (fun _ j => if s.thr.guard (c.row0 n) 0 j = true then xs.getD (k0 + j) 0
            else if c.zero = true ∧ s.thr.inPass j = true then 0 else s.thr.elem (c.row0 n) d w 0 j))


/-! ## Vector-fetched blocks -/

/-- R114, R186: VFETCH before its VJOIN starts a run of the columns of row 0 that the guard picks, MODE, CONVOY and LEN kept for it,
and goes to the block; with no such column it goes to the VJOIN.
R148, R189, R190, R191: inside a block VNEXT gives its address to the VPs of the pass that its mask picks; VPEND moves each VP of
the pass to the address it was given, or stops it, and goes to the next pass of the round, or to the least next address of a new
round of at most eight groups, or, with every VP stopped, to the VJOIN, which restores MODE, CONVOY and LEN.  (After it the thread stands in
no convoy's span: log entry 95.) -/
def Obligations.BlockWordsMoveTheVps : Prop :=
  (∀ (s : State) (sb : BitVec 6), s.Serial → s.Clean [sb] → s.thr.status.vlive = true → s.fetchPeek (s.thr.pc + 4) = .ok 0xB8000001 →
    s.CleanMask s.thr.vctx.mask 1 s.thr.cl →
    let b := s.rs sb
    let c := s.thr.vctx
    let picked := (List.range c.cl).filter (fun j => s.thr.maskBit c.mask 0 j != c.minv)
    (b.toNat % 4 = 0 → b.toNat < 2 ^ 56 →
      ∃ t, exec (.vfetch sb) s = .next t ∧ Completed s t (if picked = [] then s.thr.pc + 4 else b) ∧ KeptScalars s t ∧
        t.thr.vrun.run = true ∧ t.thr.vrun.pass = decide (picked ≠ []) ∧ t.thr.vrun.joinPc = s.thr.pc + 4 ∧
        t.thr.vrun.mode = s.thr.mode ∧ t.thr.vrun.convoy = s.thr.convoy ∧ t.thr.vrun.len = s.thr.len ∧ t.thr.mode = s.thr.mode ∧
        (picked ≠ [] → t.thr.vrun.cur = (b, picked)) ∧
        t = { s with thr := ({ s.thr with vrun := t.thr.vrun }).bookOf t.thr, free := t.free }) ∧
    (b.toNat % 4 ≠ 0 → exec (.vfetch sb) s = .next (s.takeTrap 5 b none))) ∧
  (∀ (s : State) (m : BitVec 4) (sb : BitVec 6),
    let r := s.thr.vrun
    let inside := r.pass = true ∧ ¬ (s.thr.inSpan = true ∧ s.thr.convoy.getLsbD 0 = true) ∧ s.thr.status.vlive = true
    let b := s.rs sb
    (inside → s.Clean [sb] → s.CleanMask m.toNat 1 s.thr.cl → b.toNat % 4 = 0 → b.toNat < 2 ^ 56 →
      ∃ t, exec (.vnext m sb) s = .next t ∧ Completed s t (s.thr.pc + 4) ∧ KeptScalars s t ∧
        (∀ j, assoc t.thr.vrun.supplied j =
          if j ∈ r.cur.2 ∧ s.thr.maskBit m.toNat 0 j = true then some b else assoc r.supplied j) ∧
        t = { s with thr := ({ s.thr with vrun := { r with supplied := t.thr.vrun.supplied } }).bookOf t.thr, free := t.free }) ∧
    (inside →
      let moved := fun (j : Nat) (v : Word × Nat) => if j ∈ r.cur.2 then (assoc r.supplied j).getD 0 else v.1
      let next := fun (j : Nat) => (r.vps[j]?).map (moved j)
      let going := fun (a : Word) => a ≠ 0 ∧ ∃ j, next j = some a
      (∀ p rest, r.sets = p :: rest →
        ∃ t, exec .vpend s = .next t ∧ Completed s t p.1 ∧ t.thr.vrun.cur = p ∧ t.thr.vrun.sets = rest ∧ t.thr.vrun.pass = true ∧
          t.thr.mode = r.mode ∧ ∀ j, (t.thr.vrun.vps[j]?).map (·.1) = next j) ∧
      (r.sets = [] → (¬ ∃ a, going a) → ∃ t, exec .vpend s = .next t ∧ Completed s t r.joinPc ∧ t.thr.vrun.pass = false ∧
        t.thr.vrun.run = r.run) ∧
      (r.sets = [] → ∀ few : List Word, few.length ≤ 8 → (∀ a, going a ↔ a ∈ few) → ∀ a ∈ few, (∀ a' ∈ few, a.toNat ≤ a'.toNat) →
        ∃ t, exec .vpend s = .next t ∧ Completed s t a ∧ t.thr.vrun.cur.1 = a ∧ (∀ j, j ∈ t.thr.vrun.cur.2 ↔ next j = some a) ∧
          t.thr.vrun.pass = true ∧ t.thr.mode = r.mode)) ∧
    (s.Serial → r.run = true → r.depth = 0 → r.sets = [] → (∀ v ∈ r.vps, v.1 = 0) → s.thr.status.vlive = true →
      ∃ t, exec .vjoin s = .next t ∧ Completed s t (s.thr.pc + 4) ∧ KeptScalars s t ∧ t.thr.mode = r.mode ∧ t.thr.convoy = r.convoy ∧
        t.thr.len = r.len ∧ t.thr.vrun = VRun.idle ∧
        t = { s with
          thr := ({ s.thr with mode := r.mode, convoy := r.convoy, len := r.len, vrun := VRun.idle, inSpan := false }).bookOf t.thr
          free := t.free }))

/-! ## Atomics, ordered accesses and gang words -/

/-- R264: an atomic in the scratchpad window gives the old value sign-extended and leaves the new one, a failing compare-and-swap
leaving the old; with AR = 0 nothing else differs but the WAITEVs that watch the bytes; a column form there takes the orientation trap. -/
def Obligations.AtomicsInTheWindow : Prop :=
  ∀ (s : State) (d a b : BitVec 6) (ar : Bool) (sc : BitVec 3) (g : Gang) (off : Nat), s.MemoryForm → s.Serial →
    (ar = true → ∀ p ∈ s.lost, p.1 ≠ s.thr.tid) →
    let is := fun (i : Instr) (n : Nat) (rs : List (BitVec 6)) (f : BitVec (8 * n) → BitVec (8 * n) → BitVec (8 * n) → BitVec (8 * n)) =>
      s.Clean rs → WindowAt s (s.rs a) n g off → (∀ k < n, off + k ∉ g.tilePoison) →
        let old := BitVec.ofNat (8 * n) (Memory.num g.tileMem off n)
        let new := f old ((s.rs b).setWidth (8 * n)) ((s.rs d).setWidth (8 * n))
        ∃ t g', exec i s = .next t ∧ Completed s t (s.thr.pc + 4) ∧ Wrote s t d (old.signExtend 64) ∧ t.myGang = some g' ∧
          g' = { g with tileMem := g'.tileMem, tilePoison := g'.tilePoison } ∧
          (∀ x, Memory.read g'.tileMem x =
            if off ≤ x ∧ x < off + n then new.extractLsb' (8 * (x - off)) 8 else Memory.read g.tileMem x) ∧
          (∀ h, h ≠ s.thr.gang → t.gangOf h = s.gangOf h) ∧ t.mem = s.mem ∧ t.thr.status = s.thr.status ∧
          (ar = false → t = { s with
            thr := ({ s.thr with sregs := t.thr.sregs, poisonS := t.thr.poisonS }).bookOf t.thr, gangs := t.gangs, watches := t.watches
            free := t.free })
    let all := fun (n : Nat) (add swap and' or' xor' mn mx cas : Instr) =>
      is add n [a, b] (fun o x _ => o + x) ∧ is swap n [a, b] (fun _ x _ => x) ∧ is and' n [a, b] (fun o x _ => o &&& x) ∧
      is or' n [a, b] (fun o x _ => o ||| x) ∧ is xor' n [a, b] (fun o x _ => o ^^^ x) ∧
      is mn n [a, b] (fun o x _ => if o.sle x then o else x) ∧ is mx n [a, b] (fun o x _ => if o.slt x then x else o) ∧
      is cas n [a, b, d] (fun o x e => if o = e then x else o)
    all 4 (.amoaddW d a b false ar sc) (.amoswapW d a b false ar sc) (.amoandW d a b false ar sc) (.amoorW d a b false ar sc)
      (.amoxorW d a b false ar sc) (.amominW d a b false ar sc) (.amomaxW d a b false ar sc) (.amocasW d a b false ar sc) ∧
    all 8 (.amoaddD d a b false ar sc) (.amoswapD d a b false ar sc) (.amoandD d a b false ar sc) (.amoorD d a b false ar sc)
      (.amoxorD d a b false ar sc) (.amominD d a b false ar sc) (.amomaxD d a b false ar sc) (.amocasD d a b false ar sc) ∧
    let columns : List (Instr × Nat) :=
      [(.amoaddW d a b true ar sc, 4), (.amoswapW d a b true ar sc, 4), (.amoandW d a b true ar sc, 4), (.amoorW d a b true ar sc, 4),
       (.amoxorW d a b true ar sc, 4), (.amominW d a b true ar sc, 4), (.amomaxW d a b true ar sc, 4), (.amocasW d a b true ar sc, 4),
       (.amoaddD d a b true ar sc, 8), (.amoswapD d a b true ar sc, 8), (.amoandD d a b true ar sc, 8), (.amoorD d a b true ar sc, 8),
       (.amoxorD d a b true ar sc, 8), (.amominD d a b true ar sc, 8), (.amomaxD d a b true ar sc, 8), (.amocasD d a b true ar sc, 8)]
    ∀ p ∈ columns, s.Clean [a, b, d] → WindowAt s (s.rs a) p.2 g off → (∀ k < p.2, off + k ∉ g.tilePoison) →
      exec p.1 s = .next (s.takeTrap 12 (s.rs a) none)

/-- R200, R254, R267, R375: WBR or INVR may act on the pages of a range: each is in the open scratchpad window, or unmapped, or of another
treatment than S, or permits the use `u` under a key that is loaded; the TLBs and the walkers hold nothing else of them. -/
def Sys2Proof.Machine.RangeMay (s : State) (u : Use) (va n : Nat) : Prop :=
  ∀ v, va ≤ v → v < va + n → s.windowOff (BitVec.ofNat 64 v) = none →
    s.TablesCurrent s.thr.asid.toNat v ∧
    (match s.walk s.thr.asid.toNat v with
     | .error e => e.1 = 1
     | .ok l => l.treat = 2 → l.permits u (!s.thr.status.priv) = true ∧ (l.slot ≠ 0 → (s.keyOf l.slot).isSome = true)) ∧
    ∀ e ∈ s.tlb, e.asid = s.thr.asid → e.base ≤ v → v < e.base + e.size →
      s.walk s.thr.asid.toNat v = .ok ⟨e.base, e.size, e.level, e.w0, e.w1⟩

/-- A copy of a plaintext S line in the thread's L1. -/
def Sys2Proof.Machine.SoftCopy (s : State) (m : L1Line) : Prop := m.hearth = s.thr.hearth ∧ m.treat = 2 ∧ m.slot = 0

/-- A range of bytes of one 64 KiB page of treatment S in plaintext, outside the open scratchpad window, neither compressed nor behind a link,
whose names are `pa` on; copies of one line stand once in an L1, their dirty bytes are held, those of the thread's L1 with a byte of the range are
plaintext and stay in its page, and dirty copies of a byte agree (R201, R206). -/
def Sys2Proof.Machine.SoftRange (s : State) (va n pa : Nat) : Prop :=
  0 < n ∧ va / 65536 = (va + n - 1) / 65536 ∧ pa + n ≤ 2 ^ 70 ∧ s.sectorKeys = [] ∧ s.linksDown = [] ∧
  (∃ l, (∀ v, va ≤ v → v < va + n → s.windowOff (BitVec.ofNat 64 v) = none ∧ s.walk s.thr.asid.toNat v = .ok l) ∧ l.treat = 2 ∧ l.slot = 0 ∧
    l.cmp = false ∧ pa = s.physKey l.home (l.frame + (va - l.base))) ∧
  (∀ m ∈ s.l1, m.hearth = s.thr.hearth → m.treat = 2 → (∃ k < 128, pa ≤ m.id.byteAt k ∧ m.id.byteAt k < pa + n) → m.slot = 0) ∧
  (s.l1.map (fun m => (m.hearth, m.slot, m.id))).Nodup ∧
  (∀ m ∈ s.l1, ∀ k < 128, m.dirty.getLsbD k = true → (m.at? (m.id.byteAt k)).isSome = true) ∧
  (∀ m ∈ s.l1, SoftCopy s m → (∃ k < 128, pa ≤ m.id.byteAt k ∧ m.id.byteAt k < pa + n) →
    ∀ k < 128, m.id.byteAt k / 65536 = pa / 65536) ∧
  ∀ m ∈ s.l1, ∀ m' ∈ s.l1, SoftCopy s m → SoftCopy s m' → ∀ k < 128, ∀ k' < 128, m.dirty.getLsbD k = true →
    m'.dirty.getLsbD k' = true → m.id.byteAt k = m'.id.byteAt k' → m.byte k = m'.byte k'

/-- R235, R253: what a FENCE of scope `sc` leaves: the writes behind the values that the thread's plain loads have read, and those that its
gang's threads and engines know, happen before its next access, so its hearth keeps no L copy that has missed one, and from stack scope up none
that has missed a write; later plain stores carry what the thread knows and its own writes. (How the model keeps
account of what an agent knows, and that a FENCE drops such copies, is its own: log entry 26.) -/
def Sys2Proof.Machine.Fenced (sc : Nat) (s t : State) : Prop :=
  let now := fun (a : Nat) => Known.count t.thr.known a
  let crew := s.gangThreads s.thr.gang
  let own := fun (a : Nat) => a = 2 * s.thr.gang + 1 ∨ ∃ u ∈ crew, a = 2 * u.tid + 2
  (∀ p ∈ s.thr.seen, p.2 ≤ now p.1) ∧ (∀ a, Known.count s.thr.known a ≤ now a) ∧ (∀ a, own a → s.writes ≤ now a) ∧
  (∀ u ∈ crew, ∀ p ∈ u.known, p.1 ≠ 2 * u.tid + 2 → p.2 ≤ now p.1) ∧
  (∀ a, now a = Known.count s.thr.known a ∨ (a, now a) ∈ s.thr.seen ∨ (own a ∧ now a = s.writes) ∨ ∃ u ∈ crew, (a, now a) ∈ u.known) ∧
  (∀ l, l ∈ t.l1 ↔ l ∈ s.l1 ∧ ¬ (l.hearth = s.thr.hearth ∧ l.treat = 1 ∧
    ∃ p ∈ l.missed, p.2 ≤ now p.1 ∨ 2 ≤ sc ∧ p.2 ≤ s.writes)) ∧
  t.thr.seen = [] ∧ ∃ k, t.thr.fenced = some k ∧ ∀ a, Known.count k a = if a = 2 * s.thr.tid + 2 then s.writes else now a

/-- R230, R235, R266 to R268, R384, R410: LDA and STL access the scratchpad window as their plain forms do; FENCE and RFENCE complete
where no store of the thread was lost with a link, FENCE advancing SIV, and order the thread's accesses, a FENCE from gang scope up; LCLK
gives the thread's clock. (What a FENCE makes known, and the leased copies that the hearth drops for it, are the model's: log entry 26.)
R200, R225, R254, R267: WBR and INVR complete for every range below the limit whose pages they may act on, with no effect below stack scope or
in the open scratchpad window, and fault past the limit; WBR writes the dirty bytes of the range in S copies to their homes and makes them clean; INVR drops the S lines with a byte
in the range, whose dirty bytes outside it go home, and those inside are discarded. -/
def Obligations.OrderedAccesses : Prop :=
  ∀ (s : State) (d a b : BitVec 6) (sc : BitVec 3) (g : Gang) (off : Nat), s.MemoryForm → s.Serial →
    let kept := ∀ p ∈ s.lost, p.1 ≠ s.thr.tid
    let lda := fun (i : Instr) (n : Nat) =>
      s.Clean [a] → WindowAt s (s.rs a) n g off → (∀ k < n, off + k ∉ g.tilePoison) →
        ∃ t, exec i s = .next t ∧ Completed s t (s.thr.pc + 4) ∧
          Wrote s t d ((BitVec.ofNat (8 * n) (Memory.num g.tileMem off n)).signExtend 64) ∧ t.mem = s.mem ∧ t.gangs = s.gangs
    let stl := fun (i : Instr) (n : Nat) =>
      s.Clean [a, d] → kept → WindowAt s (s.rs a) n g off →
        ∃ t g', exec i s = .next t ∧ Completed s t (s.thr.pc + 4) ∧ KeptScalars s t ∧ t.mem = s.mem ∧ t.myGang = some g' ∧
          (∀ x, Memory.read g'.tileMem x =
            if off ≤ x ∧ x < off + n then (s.rs d).extractLsb' (8 * (x - off)) 8 else Memory.read g.tileMem x)
    let fence := fun (i : Instr) (orders : Prop) (scope : Nat) (siv : BitVec 29) => ∃ t, exec i s = .next t ∧ Completed s t (s.thr.pc + 4) ∧
      KeptScalars s t ∧ t.thr.siv = siv ∧ (orders → Fenced scope s t) ∧ (¬ orders → t.l1 = s.l1 ∧ t.thr.known = s.thr.known ∧
        t.thr.seen = s.thr.seen ∧ t.thr.fenced = s.thr.fenced) ∧
      t = { s with
        thr := ({ s.thr with siv := siv, known := t.thr.known, seen := t.thr.seen, fenced := t.thr.fenced }).bookOf t.thr
        l1 := t.l1, free := t.free }
    let va := (s.rs a).toNat
    let n := (s.rs b).toNat
    let range := fun (i : Instr) (u : Use) => s.Clean [a, b] →
      (va + n ≤ 2 ^ 56 → (2 ≤ sc.toNat → RangeMay s u va n) → ∃ t, exec i s = .next t ∧ Completed s t (s.thr.pc + 4) ∧ KeptScalars s t ∧
        t.gangs = s.gangs ∧
        (sc.toNat < 2 ∨ n = 0 ∨ (∀ v, va ≤ v → v < va + n → s.windowOff (BitVec.ofNat 64 v) ≠ none) → ScalarFrame s t)) ∧
      (2 ^ 56 < va + n → exec i s = .next (s.takeTrap 8 (s.rs a) (some 0x78)))
    let soft := fun (i : Instr) (u : Use) (P : Nat → State → Prop) => s.Clean [a, b] → 2 ≤ sc.toNat → va + n ≤ 2 ^ 56 →
      RangeMay s u va n → ∀ pa, SoftRange s va n pa → ∃ t, exec i s = .next t ∧ Completed s t (s.thr.pc + 4) ∧ KeptScalars s t ∧ P pa t
    let within := fun (pa : Nat) (m : L1Line) (k : Nat) => pa ≤ m.id.byteAt k ∧ m.id.byteAt k < pa + n
    let touched := fun (pa : Nat) (m : L1Line) => SoftCopy s m ∧ ∃ k < 128, within pa m k
    lda (.ldaW d a sc) 4 ∧ lda (.ldaD d a sc) 8 ∧ stl (.stlW d a sc) 4 ∧ stl (.stlD d a sc) 8 ∧
    (kept → fence (.fence sc) (sc ≠ 0) sc.toNat (s.thr.siv + 1)) ∧
    (s.Clean [a] → kept → (s.rs a).extractLsb' 10 53 = 0 →
      fence (.rfence a) ((s.rs a).getLsbD 63 = true ∨ (s.rs a).setWidth 10 ≠ s.devnum) 5 s.thr.siv) ∧
    (s.Clean [a] → (s.rs a).extractLsb' 10 53 ≠ 0 → exec (.rfence a) s = .next (s.takeTrap 8 (s.rs a) (some 0x78))) ∧
    Computes (.lclk d) s [] d (s.thr.pts.setWidth 64) ∧ range (.wbr a b sc) .store ∧ range (.invr a b sc) .load ∧
    soft (.wbr a b sc) .store (fun pa t =>
      (∀ m ∈ s.l1, SoftCopy s m → ∀ k < 128, m.dirty.getLsbD k = true → within pa m k → Memory.read t.mem (m.id.byteAt k) = m.byte k) ∧
      (∀ x, (∀ m ∈ s.l1, SoftCopy s m → ∀ k < 128, m.dirty.getLsbD k = true → within pa m k → m.id.byteAt k ≠ x) →
        Memory.read t.mem x = Memory.read s.mem x) ∧
      (∀ m ∈ t.l1, SoftCopy s m → ∀ x k, pa ≤ x → x < pa + n → m.at? x = some k → m.dirty.getLsbD k = false) ∧
      t.l1.length = s.l1.length ∧ ∀ p ∈ s.l1.zip t.l1, p.2 = { p.1 with data := p.2.data, dirty := p.2.dirty, owners := p.2.owners } ∧
        ∀ k < 128, ¬ within pa p.1 k → p.2.byte k = p.1.byte k ∧ p.2.dirty.getLsbD k = p.1.dirty.getLsbD k) ∧
    soft (.invr a b sc) .load (fun pa t =>
      (∀ m ∈ t.l1, ¬ touched pa m) ∧
      (∀ m ∈ s.l1, touched pa m → ∀ k < 128, m.dirty.getLsbD k = true → ¬ within pa m k →
        Memory.read t.mem (m.id.byteAt k) = m.byte k) ∧
      (∀ x, (∀ m ∈ s.l1, touched pa m → ∀ k < 128, m.dirty.getLsbD k = true → ¬ within pa m k → m.id.byteAt k ≠ x) →
        Memory.read t.mem x = Memory.read s.mem x) ∧
      ∀ m ∈ s.l1, ¬ touched pa m → ∃ m' ∈ t.l1, m' = { m with data := m'.data, dirty := m'.dirty, owners := m'.owners } ∧
        ∀ k < 128, m'.dirty.getLsbD k = true → m.dirty.getLsbD k = true ∧ m'.byte k = m.byte k)

/-- R230, R269: at BAR the last thread of its gang to arrive, of those that have not ended, opens the barrier and completes, and every thread of
the gang takes each member's SIV as acquired; any other thread waits, having arrived; a BAR to which the thread returns does not arrive again, and
completes at once if its generation has advanced.  (That a handler's BAR joins the generation in which the BAR that it interrupts has arrived:
log entry 92.) -/
def Obligations.BarrierOpensForTheLast : Prop :=
  ∀ (s : State) (g : Gang), s.Serial → s.myGang = some g → s.thr.gang = g.gid →
    let here := s.thr.barAt
    let left := s.thr.barGen.filter (fun e => !(decide (e.1 = s.thr.pc) && !e.2.2))
    let arrived := if here = none ∧ s.thr.index ∉ g.arrived then s.thr.index :: g.arrived else g.arrived
    let awaited := fun (u : Thread) => s.unended u = true ∧ u.gang = g.gid ∧ (∀ e ∈ u.barGen, e.2.1 ≠ g.barGen) ∧ u.index ∉ arrived
    let me := { s.thr with siv := if here = none then s.thr.siv + 1 else s.thr.siv }
    let crew := ({ s with thr := me } : State).gangThreads g.gid
    let takes := fun (sivs : List (Nat × BitVec 29)) (u v : Thread) => ∀ k, v.acqGang[k]? = match u.acqGang[k]?, assoc sivs k with
      | some e, some n => some (some (later29 e n true))
      | e, _ => e
    let sivs := crew.map (fun u => (u.index, u.siv))
    let arrives := here = none ∨ here = some g.barGen
    (arrives → (∀ u ∈ s.others, ¬ awaited u) →
      ∃ t g', exec .bar s = .next t ∧ Completed s t (s.thr.pc + 4) ∧ KeptScalars s t ∧ t.thr.barGen = left ∧ t.thr.siv = me.siv ∧
        t.mem = s.mem ∧ t.gangOf g.gid = some g' ∧
        g' = { g with barGen := g.barGen + 1, arrived := [], barSivs := sivs, barKnown := s.gangKnown g.gid } ∧
        (s.thr.live = true → takes sivs s.thr t.thr) ∧ t.others.length = s.others.length ∧
        ∀ k, ∀ h : k < s.others.length, ∀ h' : k < t.others.length, let u := s.others[k]
          if u.gang = g.gid ∧ u.live = true then takes sivs u t.others[k] ∧
            t.others[k] = { u with acqGang := t.others[k].acqGang, known := t.others[k].known }
          else t.others[k] = u) ∧
    (arrives → (∃ u ∈ s.others, awaited u) → ∃ t, exec .bar s = .next t ∧ t.thr.phase = .waiting .bar ∧
      t.thr.barGen = (if here = none then (s.thr.pc, g.barGen, false) :: s.thr.barGen else s.thr.barGen) ∧ t.thr.pc = s.thr.pc ∧
      t.thr.retired = s.thr.retired ∧ t.mem = s.mem ∧ t.gangOf g.gid = some { g with arrived := arrived }) ∧
    (¬ arrives → ∃ t, exec .bar s = .next t ∧ Completed s t (s.thr.pc + 4) ∧ KeptScalars s t ∧ t.thr.barGen = left ∧
      takes g.barSivs s.thr t.thr ∧ t.l1.Sublist s.l1 ∧
      t = { s with
        thr := ({ s.thr with barGen := left, acqGang := t.thr.acqGang, known := t.thr.known }).bookOf t.thr, l1 := t.l1, free := t.free })


/-! ## Array, spline and transform words -/

/-- `n` bytes from `off` lie in tiles of the thread's gang `g`, none engine-owned, none poisoned (R295, R324). -/
def Sys2Proof.Machine.TilesAt (s : State) (g : Gang) (off n : Nat) : Prop :=
  s.myGang = some g ∧ off + n ≤ g.tiles * 4096 ∧ ∀ k < n, (off + k) / 4096 ∉ g.owners ∧ off + k ∉ g.tilePoison

/-- The operand types of the matrix words (R296). -/
def Sys2Proof.Machine.operandTypes : List Nat := [2, 3, 4, 5, 6, 7, 11, 12]

/-- R97, R297, R298: the format that an operand type's elements are held in, and the pattern that an element `p` of the tiles is taken as: a CB4
element the entry of CBSEL's codebook, a number flushed. -/
def Sys2Proof.Machine.heldIn (et : Nat) : Fmt := if et = 7 then bf16 else fmtOf et
def Sys2Proof.Machine.held (s : State) (c : VCtx) (p : Nat) : Nat :=
  if isInt c.et then p
  else (heldIn c.et).flushIn c.flush (if c.et = 7 then (s.thr.cbs[s.thr.cbsel.toNat]).toNat / 2 ^ (16 * p) % 2 ^ 16 else p)

/-- R97, R297, R325: MLDB captures 4,096 / w rows of 64 elements from 32 KiB of tiles, CB4 elements as their codebook's BF16 entries,
with SB and a flag for each column that holds a NaN or an infinity, or for all where SB is 0xFF; only the array state changes. -/
def Obligations.MldbCapturesTheBlock : Prop :=
  ∀ (s : State) (sb : BitVec 6) (g : Gang), s.Clean [sb] →
    let c := s.thr.vctx
    let w := typeWidth c.et
    let off := (s.rs sb).toNat
    let scale := s.thr.mxscale.extractLsb' 8 8
    let raw := fun (e : Nat) => Memory.num g.tileMem off 32768 / 2 ^ (w * e) % 2 ^ w
    let elem := fun (e : Nat) => held s c (raw e)
    let special := fun (e : Nat) => ((heldIn c.et).val (elem e)).special
    s.Ready .Mx [] operandTypes [] → off % 4096 = 0 → TilesAt s g off 32768 →
      ∃ t b, exec (.mldb sb) s = .next t ∧ VectorDone s t .Mx { s.thr with array := .block b, poisonV := t.thr.poisonV } ∧
        b.etype.toNat = c.et ∧ b.sb = scale ∧ b.elems.length = 64 * (4096 / w) ∧
        (∀ e < 64 * (4096 / w), b.elems[e]? = some (BitVec.ofNat 16 (elem e))) ∧
        ∀ n < 64, b.flags[n]? = some (!isInt c.et && (decide (scale = 255) ||
          (List.range (4096 / w)).any (fun k => special (64 * k + n))))

/-- R302: what the drain's resolver gives for the old value `z` and the pairs of operands `ps`, with `scales` where a scale is 0xFF. -/
def Sys2Proof.Machine.Resolves (z : FVal) (ps : List (FVal × FVal)) (scales : Bool) (r : Nat × Flags) : Prop :=
  let all := z :: ps.flatMap (fun p => [p.1, p.2])
  let nan := ∃ v ∈ all, v.isNan = true
  let inf := fun (v : FVal) => v = .inf true ∨ v = .inf false
  let zeroInf := ∃ p ∈ ps, inf p.1 ∧ ratOf p.2 = 0 ∨ ratOf p.1 = 0 ∧ inf p.2
  let term := fun (neg : Bool) => z = .inf neg ∨ ∃ p ∈ ps, (inf p.1 ∨ inf p.2) ∧ (p.1.neg != p.2.neg) = neg
  (nan → r.1 = nanPat fp32 1 ∧ (r.2 = if .nan true ∈ all then 1 else 0)) ∧
  (¬ nan →
    (scales = true → r = (nanPat fp32 2, 1)) ∧
    (scales = false → zeroInf → r = (nanPat fp32 4, 1)) ∧
    (scales = false → ¬ zeroInf → term true → term false → r = (nanPat fp32 3, 1)) ∧
    ∀ neg, scales = false → ¬ zeroInf → term neg → ¬ term (!neg) → r = (infPat fp32 + (if neg then 2 ^ 31 else 0), 0))

/-- R298 to R303, R326 to R328: the matrix words on a captured block of their type complete wherever the rows of A that they read lie in
unowned tiles, and change active elements of the destination alone.  Over integers each gains the sum of the products, modulo 2^32;
over numbers an unflagged one gains chunk by chunk, each chunk the exact sum of its 64 scaled products rounded once, all-zero chunks
skipped, in increasing order or, for MMAF, in some order (log entry 9); a flagged one is what the resolver gives.  MMAS takes only the
blocks of A that its bitmap names, the others counting as +0. -/
def Obligations.MatrixWords : Prop :=
  ∀ (s : State) (d a : BitVec 5) (sb : BitVec 6) (g : Gang) (blk : BBlock), Whole s → s.Clean [sb] → s.thr.poisonV = [] →
    s.thr.array = .block blk → blk.etype.toNat = s.thr.vctx.et → s.Ready .Mx [d, a] operandTypes [32] → s.thr.vctx.cl ≤ 64 →
    0 < s.thr.vctx.cl → 0 < s.thr.vctx.rl →
    let c := s.thr.vctx
    let w := typeWidth c.et
    let v := s.rs sb
    let depth := 4096 / w
    let row := fun (base m : Nat) => base + 512 * s.thr.elem { c with rl := 1 } a 32 0 m
    let used := fun (m : Nat) => ∃ n < c.cl, s.thr.guard c m n = true
    let sgn := fun (p : Nat) => (BitVec.ofNat w p).toInt
    let elemA := fun (base m k : Nat) => Memory.num g.tileMem (row base m) 512 / 2 ^ (w * k) % 2 ^ w
    let elemB := fun (k n : Nat) => (blk.elems.map BitVec.toNat).getD (64 * k + n) 0
    let old := fun m n => s.thr.elem c d 32 m n
    let rn : Rnd := ⟨0, 0, c.flush⟩
    let num := fun (p : Nat) => fp32.val (fp32.flushIn c.flush p)
    let sa := (s.thr.mxscale.extractLsb' 0 8).toNat
    let b := fun (k n : Nat) => (heldIn c.et).val (elemB k n)
    let finite := fun (x : FVal) => if x.special then 0 else ratOf x
    let gains := fun (i : Instr) (base : Nat) (inOrder : Bool) (on : Nat → Nat → Bool) =>
      (∀ m < c.rows, used m → (∃ k < depth, on m k = true) → TilesAt s g (row base m) 512) →
        let x := fun (m k : Nat) => if on m k then (heldIn c.et).val (held s c (elemA base m k)) else .num false 0 0
        let flagged := fun (m n : Nat) => sa = 255 ∨ blk.flags.getD n false = true ∨ ∃ k < depth, (x m k).special = true
        let zero := fun (m q : Nat) => (List.range 64).all (fun k => decide (ratOf (x m (64 * q + k)) = 0))
        let exact := fun (m n q : Nat) => ((List.range 64).map (fun k =>
          finite (x m (64 * q + k)) * finite (b (64 * q + k) n))).sum * (2 : ℚ) ^ ((sa : ℤ) + blk.sb.toNat - 254)
        ∃ t r, exec i s = .next t ∧ VectorDone s t .Mx { s.thr with vrows := t.thr.vrows, fflags := t.thr.fflags } ∧
          RowsWritten s t c d 32 (s.underGuard d 32 r) ∧
          (isInt c.et = true → t.thr.fflags = s.thr.fflags ∧ ∀ m < c.rows, ∀ n < c.cl, s.thr.guard c m n = true →
            r m n = (old m n + ((List.range depth).map (fun k =>
              if on m k then sgn (elemA base m k) * sgn (elemB k n) else 0)).sum) % 2 ^ 32) ∧
          (isInt c.et = false → ∃ (S : Nat → Nat → Nat → Nat × Flags) (el : Nat → Nat → Nat × Flags) (order : Nat → Nat → List Nat),
            (∀ m n q, (exact m n q = 0 → S m n q = (0, 0)) ∧ (exact m n q ≠ 0 → Delivers fp32 rn ((exact m n q : ℚ) : ℝ) (S m n q))) ∧
            FlagsGained s t (fun m n => (el m n).2) ∧
            ∀ m < c.rows, ∀ n < c.cl, s.thr.guard c m n = true → r m n = (el m n).1 % 2 ^ 32 ∧
              (order m n).Perm (List.range (depth / 64)) ∧ (inOrder = true → order m n = List.range (depth / 64)) ∧
              (¬ flagged m n → el m n = (order m n).foldl (fun (acc : Nat × Flags) q =>
                if zero m q then acc
                else
                  let y := fp32.add rn (num acc.1) (num (S m n q).1)
                  (y.1, acc.2 ||| (S m n q).2 ||| y.2)) (old m n, 0)) ∧
              (flagged m n → Resolves (num (old m n)) (((List.range depth).filter (on m)).map (fun k => (x m k, b k n)))
                (decide (sa = 255 ∨ blk.sb.toNat = 255)) (el m n)))
    let side := if v.getLsbD 63 then 32 else 16
    let bm := (v.extractLsb' 32 21).toNat
    let blocks := depth / side
    (v.toNat % 512 = 0 → v.toNat < g.tiles * 4096 → s.myGang = some g →
      gains (.mmao d a sb) v.toNat true (fun _ _ => true) ∧ gains (.mmaf d a sb) v.toNat false (fun _ _ => true)) ∧
    (let base := (v.extractLsb' 0 21).toNat
     v.extractLsb' 21 11 = 0 → v.extractLsb' 53 10 = 0 → base % 512 = 0 → base < g.tiles * 4096 → bm % 8 = 0 →
      TilesAt s g bm (((c.rows + side - 1) / side * blocks + 7) / 8) → 0 < c.rows →
        gains (.mmas d a sb) base true (fun m k => decide (Memory.num g.tileMem bm (((c.rows + side - 1) / side * blocks + 7) / 8) /
          2 ^ (m / side * blocks + k / side) % 2 = 1)))

/-- R305: where the input pattern `x` falls on the grid: the interval and the local coordinate, or no edge, or the NaN of a cause; `u` is
its quotient by the step, rounded twice (that a position of -0 has the fraction +0 is log entry 55's). -/
def Sys2Proof.Machine.Locates (grid : Grid) (flush : Bool) (x : Nat) (r : Edge) : Prop :=
  let rn : Rnd := ⟨0, 0, flush⟩
  let num := fun (p : Nat) => fp32.val (fp32.flushIn flush p)
  let sub := fun (a b : Nat) => (fp32.add rn (num a) (num b).flip).1
  let u := (fp32.div rn (num (sub x grid.base.toNat)) (num grid.step.toNat)).1
  let whole := fun (n : Nat) => (fp32.deliver ⟨0, 0, false⟩ (.num false n 0)).1
  let below := ratOf (fp32.val u) < 0
  let nan := (num x).isNan = true
  let inf := fp32.val u = .inf true ∨ fp32.val u = .inf false
  let inside := ¬ below ∧ ¬ inf ∧ ratOf (fp32.val u) < grid.count
  (nan → r = .nan 1 (decide (num x = .nan true))) ∧
  (¬ nan → (fp32.val u).isNan = true → r = .nan 5 true) ∧
  (¬ nan → (fp32.val u).isNan = false →
    (inside → ∃ i f, r = .at i f ∧ i < grid.count ∧ (i : ℚ) ≤ ratOf (fp32.val u) ∧ ratOf (fp32.val u) < i + 1 ∧
      f = if ratOf (fp32.val u) = 0 then 0 else sub u (whole i)) ∧
    (¬ inside → grid.clamp = 0 → r = .at (if below then 0 else grid.count - 1) (if below then 0 else 0x3F800000)) ∧
    (¬ inside → grid.clamp = 1 → r = .zero) ∧
    (¬ inside → 2 ≤ grid.clamp → inf → r = .nan 5 true) ∧
    (¬ inside → 2 ≤ grid.clamp → ¬ inf →
      r = .at (if below then 0 else grid.count - 1) (if below then u else sub u (whole (grid.count - 1)))))

/-- R305: the value or derivative of an edge where the input falls at an interval: the exact sum of four coefficients times four basis
patterns, rounded once; an exact 0 is +0 (log entry 78), and what is no number comes out as in the drain's table (log entry 29). -/
def Sys2Proof.Machine.DotOf (flush : Bool) (cs : List FVal) (bs : List Nat) (r : Nat × Flags) : Prop :=
  let ps := cs.zip (bs.map (fun b => fp32.val (fp32.flushIn flush b)))
  let exact := (ps.map (fun p => ratOf p.1 * ratOf p.2)).sum
  ((∀ p ∈ ps, p.1.special = false ∧ p.2.special = false) →
    (exact = 0 → r = (0, 0)) ∧ (exact ≠ 0 → Delivers fp32 ⟨0, 0, flush⟩ ((exact : ℚ) : ℝ) r)) ∧
  ((∃ p ∈ ps, p.1.special = true ∨ p.2.special = true) → Resolves (.num false 0 0) ps false r)

/-- R304 to R308, R329 to R333: SKNOT captures the grid registers; SLDC the coefficients in its tiles; SEVAL adds the edge values to the
active elements of columns below Q, SEVALD writes the sums of gradient times derivative to those of columns below P, SGRAD adds its terms
to the gradient words of its tiles in order, and SREF leaves twice the intervals at half the step, with the refined coefficients in the
array and the tiles; none changes anything else but the flags. (That SREF gains every flag of its roundings, and the fraction +0 at a
position of -0: log entry 55.) -/
def Obligations.SplineWords : Prop :=
  (∀ (grid : Grid) (flush : Bool) (x : Nat), Locates grid flush x (grid.locate flush x)) ∧
  (∀ (k : Coeffs) (flush : Bool) (p q x i f : Nat), k.grid.locate flush x = .at i f →
    let rn : Rnd := ⟨0, 0, flush⟩
    let num := fun (p : Nat) => fp32.val (fp32.flushIn flush p)
    let mul := fun (a b : Nat) => (fp32.mul rn (num a) (num b)).1
    let fma := fun (a b c : Nat) => (fp32.fma rn (num a) (num b) (num c)).1
    let g := (fp32.add rn (num 0x3F800000) (num f).flip).1
    let k16 := 0x3E2AAAAB
    let cs := (List.range 4).map (fun j => k.at p q (i + j))
    basis flush f = [mul (mul (mul g g) g) k16, fma (mul (fma f 0x3F000000 0xBF800000) f) f 0x3F2AAAAB,
        fma (fma (fma f 0xBF000000 0x3F000000) f 0x3F000000) f k16, mul (mul (mul f f) f) k16] ∧
    DotOf flush cs (basis flush f) (k.value flush p q x) ∧
    ∃ sum, DotOf flush cs [mul (mul g g) 0xBF000000, mul (fma f 0x3FC00000 0xC0000000) f,
        fma (fma f 0xBFC00000 0x3F800000) f 0x3F000000, mul (mul f f) 0x3F000000] sum ∧
      let y := fp32.div rn (num sum.1) (num k.grid.step.toNat)
      k.slope flush p q x = (y.1, sum.2 ||| y.2)) ∧
  (∀ (k : Coeffs) (flush : Bool) (p q x : Nat),
    (k.grid.locate flush x = .zero → k.value flush p q x = (0, 0) ∧ k.slope flush p q x = (0, 0)) ∧
    ∀ cause invalid, k.grid.locate flush x = .nan cause invalid → let r := (nanPat fp32 cause, if invalid then 1 else 0)
      k.value flush p q x = r ∧ k.slope flush p q x = r) ∧
  ∀ (s : State) (d a : BitVec 5) (sb : BitVec 6) (g : Gang), s.MemoryForm → s.Clean [sb] → s.thr.poisonV = [] →
    let c := s.thr.vctx
    let v := s.rs sb
    let rn : Rnd := ⟨0, 0, c.flush⟩
    let num := fun (p : Nat) => fp32.val (fp32.flushIn c.flush p)
    let knots : Grid := ⟨s.thr.knotbase.setWidth 32, s.thr.knotstep.setWidth 32, s.thr.knotcount.toNat, s.thr.knotclamp.toNat⟩
    let tiles := fun (t : State) (off n : Nat) (word : Nat → Nat → Prop) => (∀ h, h ≠ s.thr.gang → t.gangOf h = s.gangOf h) ∧
      ∃ g', t.myGang = some g' ∧ g' = { g with tileMem := g'.tileMem, tilePoison := g'.tilePoison } ∧
        (∀ x, ¬ (off ≤ x ∧ x < off + n) → Memory.read g'.tileMem x = Memory.read g.tileMem x) ∧
        ∀ o < n, word o (Memory.num g'.tileMem (off + o) 4)
    let loose := fun (t : State) => { s with gangs := t.gangs, watches := t.watches }
    (s.Ready .Mx [] anyTypes [] →
      ∃ t, exec .sknot s = .next t ∧ VectorDone s t .Mx { s.thr with array := .grid knots }) ∧
    (∀ grid, (s.thr.array = .grid grid ∨ ∃ p q cs, s.thr.array = .coeffs grid p q cs) → s.Ready .Mx [] anyTypes [] →
      let base := (v.extractLsb' 0 21).toNat
      let p := (v.extractLsb' 32 6).toNat + 1
      let q := (v.extractLsb' 40 6).toNat + 1
      v.extractLsb' 21 11 = 0 → v.extractLsb' 38 2 = 0 → v.extractLsb' 46 18 = 0 → base % 32 = 0 → TilesAt s g base (p * q * 32) →
        ∃ t cs, exec (.sldc sb) s = .next t ∧ VectorDone s t .Mx { s.thr with array := .coeffs grid p q cs } ∧
          cs.length = 16 * p * q ∧ ∀ k < 16 * p * q, cs[k]? = some (BitVec.ofNat 16 (bf16.flushIn c.flush (Memory.num g.tileMem (base + 2 * k) 2)))) ∧
    (∀ grid p q cs, s.thr.array = .coeffs grid p q cs →
      let k : Coeffs := ⟨grid, p, q, (cs.map BitVec.toNat).toArray⟩
      let x := fun (m u : Nat) => s.thr.elem c a 32 m u
      let y := fun (m u : Nat) => s.thr.elem c d 32 m u
      (s.Ready .Mx [d, a] [1] [32] → p ≤ c.cl → q ≤ c.cl → 0 < c.rl → 0 < c.cl →
        let writes := fun (i : Instr) (n : Nat) (r : Nat → Nat → Nat × Flags) =>
          ∃ t, exec i s = .next t ∧ VectorDone s t .Mx { s.thr with vrows := t.thr.vrows, fflags := t.thr.fflags } ∧
            RowsWritten s t { c with cl := n } d 32 (s.underGuard d 32 (fun m j => (r m j).1 % 2 ^ 32)) ∧
            ∀ b < 5, t.thr.fflags.getLsbD b = true ↔ s.thr.fflags.getLsbD b = true ∨
              ∃ m < c.rows, ∃ j < n, s.thr.guard c m j = true ∧ (r m j).2.testBit b = true
        writes (.seval d a) q (fun m n => (List.range p).foldl (fun (acc : Nat × Flags) u =>
          let e := k.value c.flush u n (x m u)
          let z := fp32.add rn (num acc.1) (num e.1)
          (z.1, acc.2 ||| e.2 ||| z.2)) (y m n, 0)) ∧
        writes (.sevald d a) p (fun m n => (List.range q).foldl (fun (acc : Nat × Flags) u =>
          let e := k.slope c.flush n u (x m n)
          let w := fp32.mul rn (num (y m u)) (num e.1)
          let z := fp32.add rn (num acc.1) (num w.1)
          (z.1, acc.2 ||| e.2 ||| w.2 ||| z.2)) (0, 0)) ∧
        (v.toNat % 64 = 0 → TilesAt s g v.toNat (p * q * 64) → 0 < p * q →
          -- a gradient word gains one term; the gradient words and the flags so far
          let gain := fun (acc : (Nat → Nat) × Flags) (o e : Nat) (fl : Flags) =>
            let z := fp32.add rn (num (acc.1 o)) (num e)
            ((if o < 16 * p * q then Function.update acc.1 o z.1 else acc.1), acc.2 ||| fl ||| z.2)
          let edge := fun (m u n : Nat) (acc : (Nat → Nat) × Flags) =>
            let o := 16 * (u * q + n)
            match grid.locate c.flush (x m u) with
            | .zero => acc
            | .nan cause invalid => (List.range (grid.count + 3)).foldl (fun acc j =>
                gain acc (o + j) (nanPat fp32 cause) (if invalid then 1 else 0)) acc
            | .at i f => (basis c.flush f).zipIdx.foldl (fun acc e =>
                let w := fp32.mul rn (num (y m n)) (num e.1)
                gain acc (o + i + e.2) w.1 w.2) acc
          let all := (List.range c.rows).foldl (fun acc m => (List.range p).foldl (fun acc u =>
            if s.thr.guard c m u = true then (List.range q).foldl (fun acc n => edge m u n acc) acc else acc) acc)
              (((fun o => if o < 16 * p * q then Memory.num g.tileMem (v.toNat + 4 * o) 4 else 0), 0) : (Nat → Nat) × Flags)
          ∃ t, exec (.sgrad d a sb) s = .next t ∧ VectorDone (loose t) t .Mx { s.thr with fflags := t.thr.fflags } ∧
            t.thr.fflags = s.thr.fflags ||| BitVec.ofNat 5 all.2 ∧
            tiles t v.toNat (p * q * 64) (fun o z => o % 4 = 0 → z = all.1 (o / 4) % 2 ^ 32))) ∧
      (s.Ready .Mx [] anyTypes [] → grid.count ≤ 6 → 2 * 2 ^ 23 ≤ grid.step.toNat → v.toNat % 32 = 0 → TilesAt s g v.toNat (p * q * 32) →
        0 < p * q →
          ∃ t cs', exec (.sref sb) s = .next t ∧
            VectorDone (loose t) t .Mx { s.thr with
              fflags := t.thr.fflags, knotstep := t.thr.knotstep, knotcount := t.thr.knotcount
              array := .coeffs { grid with step := grid.step - 0x800000, count := 2 * grid.count } p q cs' } ∧
            t.thr.knotstep = (grid.step - 0x800000).setWidth 64 ∧ t.thr.knotcount = BitVec.ofNat 64 (2 * grid.count) ∧
            cs'.length = 16 * p * q ∧
            tiles t v.toNat (p * q * 32) (fun o z => o % 4 = 0 →
              z = (cs'.getD (o / 2) 0).toNat + 65536 * (cs'.getD (o / 2 + 1) 0).toNat) ∧
            let new := fun (u n j : Nat) =>
              let old := k.at u n
              let sum := fun (a b : FVal) => (fp32.add rn a b).1
              if 2 * grid.count + 2 < j then (0, 0)
              else if j % 2 = 0 then bf16.deliver rn ((fp32.val (sum (old (j / 2)) (old (j / 2 + 1)))).scale (-1))
              else bf16.deliver rn ((fp32.val (fp32.fma rn (.num false 6 0) (old ((j + 1) / 2))
                (num (sum (old ((j + 1) / 2 - 1)) (old ((j + 1) / 2 + 1))))).1).scale (-3))
            (∀ u < p, ∀ n < q, ∀ j < 16, cs'.getD (16 * (u * q + n) + j) 0 = BitVec.ofNat 16 (new u n j).1) ∧
            ∀ b < 5, t.thr.fflags.getLsbD b = true ↔ s.thr.fflags.getLsbD b = true ∨
              ∃ u < p, ∃ n < q, ∃ j < 16, (new u n j).2.testBit b = true))

/-- R287, R288: encoding elements gives a chunk of the layout with the least codes, under transform 3 the shortest of the three, a tie to the
lower code; decoding gives the elements back from every chunk of the layout and from nothing else; the head's fields.
R334, R335: XENC writes one such chunk of the CL elements of row 0, inactive ones as zeros, and XDEC reads one: CL becomes its
count and the active elements its values; both set STRM to the byte past the chunk; a chunk that is malformed or too long for the capacity
raises the format fault with TVAL sb. -/
def Obligations.TransformWords : Prop :=
  (∀ w ∈ [8, 16, 32, 64],
    (∀ (n : Nat) (xs : List Nat), 1 ≤ n → n ≤ 8 → (∀ e ∈ xs, e < 2 ^ w) → xs.length * w ≤ 65536 →
      (∀ x ≤ 2, ChunkLayout true w n x xs (chunkBest w n x xs)) ∧
      ∃ x ≤ 2, chunkBest w n 3 xs = chunkBest w n x xs ∧ ∀ y ≤ 2, (chunkBest w n x xs).length ≤ (chunkBest w n y xs).length ∧
        (y < x → (chunkBest w n x xs).length < (chunkBest w n y xs).length)) ∧
    ∀ (xs : List Nat) (bs : List Byte),
      (∃ n x, ChunkLayout false w n x xs bs) ↔ bs.length = (chunkHead bs).bytes ∧ chunkDecode w bs = (xs, true)) ∧
  (∀ (bs : List Byte),
    let v := leNat (bs.take 4)
    let n := v / 2 ^ 24 % 8 + 1
    (chunkHead bs).count = v % 2 ^ 24 ∧ (chunkHead bs).ok = (decide (v / 2 ^ 27 % 4 ≠ 3) && decide (v / 2 ^ 29 = 0)) ∧
    (chunkHead bs).bytes = 4 + 2 * n + ((List.range n).map (fun j => leNat ((bs.drop (4 + 2 * j)).take 2))).sum) ∧
  ∀ (s : State) (d : BitVec 5) (x : BitVec 2) (n : BitVec 3) (sb : BitVec 6) (g : Gang), s.Clean [sb] → s.thr.poisonV = [] →
    s.MemoryForm →
    let c := s.thr.vctx
    let w := typeWidth c.et
    let off := (s.rs sb).toNat
    let wide := anyTypes.filter (fun t => decide (typeWidth t ≠ 4))
    let one := c.row0 c.cl
    let xs := (List.range c.cl).map (fun j => if s.thr.guard one 0 j = true then s.thr.elem one d w 0 j else 0)
    let chunk := chunkBest w (n.toNat + 1) x.toNat xs
    (s.Ready .Tf [d] wide [w] → off % 4 = 0 → TilesAt s g off chunk.length →
      ∃ t g', exec (.xenc d x n sb) s = .next t ∧
        VectorDone { s with gangs := t.gangs, watches := t.watches } t .Tf { s.thr with strm := t.thr.strm, strmk := 0 } ∧
        t.thr.strm = BitVec.ofNat 64 ((off + chunk.length) % 2 ^ 56) ∧ t.myGang = some g' ∧
        g' = { g with tileMem := g'.tileMem, tilePoison := g'.tilePoison } ∧ (∀ h, h ≠ s.thr.gang → t.gangOf h = s.gangOf h) ∧
        Memory.readN g'.tileMem off chunk.length = chunk ∧
        ∀ y, ¬ (off ≤ y ∧ y < off + chunk.length) → Memory.read g'.tileMem y = Memory.read g.tileMem y) ∧
    (s.Ready .Tf [d] wide [] → off % 4 = 0 →
      let h := chunkHead (Memory.readN g.tileMem off 20)
      TilesAt s g off h.bytes → h.ok = true → h.count ≤ s.thr.cap w → (chunkDecode w (Memory.readN g.tileMem off h.bytes)).2 = true →
        ∃ t, exec (.xdec d sb) s = .next t ∧ Completed s t (s.thr.pc + 4) ∧ t.thr.cl = h.count ∧ t.thr.rl = s.thr.rl ∧
          t.thr.strm = BitVec.ofNat 64 ((off + h.bytes) % 2 ^ 56) ∧
          t.thr.strmk = BitVec.ofNat 64 (if h.count = 0 then 2 ^ 63 else 0) ∧ t.gangs = s.gangs ∧ t.mem = s.mem ∧
          ∀ j < h.count, t.thr.elem (c.row0 h.count) d w 0 j =
            if s.thr.guard (c.row0 h.count) 0 j = true then
              (chunkDecode w (Memory.readN g.tileMem off h.bytes)).1.getD j 0 % 2 ^ w
            else if c.zero = true then 0 else s.thr.elem (c.row0 h.count) d w 0 j) ∧
    (s.Ready .Tf [d] wide [] → off % 4 = 0 →
      let h := chunkHead (Memory.readN g.tileMem off 20)
      TilesAt s g off h.bytes → h.ok = false ∨ s.thr.cap w < h.count ∨ (chunkDecode w (Memory.readN g.tileMem off h.bytes)).2 = false →
        exec (.xdec d sb) s = .next (s.takeTrap 14 (s.rs sb) none))


/-! ## Engine words -/

/-- Word `i`, whose operands `rs` are clean and `ok`, only makes the staging descriptor `f` (R336 to R339). -/
def Sys2Proof.Machine.Stages (i : Instr) (s : State) (rs : List (BitVec 6)) (ok : Prop) (f : FlueDesc) : Prop :=
  s.Clean rs → ok → ∃ t, exec i s = .next t ∧ Completed s t (s.thr.pc + 4) ∧
    t = { s with thr := ({ s.thr with staging := f }).bookOf t.thr, free := t.free }

/-- The checks of R340 in their order, each with the operand word that a failure names; none fails on what no FLCFG has set. -/
def Sys2Proof.Machine.flueChecks (d : FlueDesc) (g : Gang) : List (Prop × Word) :=
  let f := fun (v : Word) (hi lo : Nat) => (v.extractLsb' lo (hi - lo + 1)).toNat
  let len := f d.cfgB 11 0 + 1
  let xf := f d.xfA 2 0
  let level := fun (k : Nat) => (d.lvl.getD k (1, 0, 0)).1
  let side := fun (v : Word) (engine : Buffer → Bool) =>
    ∃ q, assoc g.buffers (f v 60 56) = some q ∧ engine q = true ∧ f v 55 0 + len ≤ q.tps * 4096
  let unused := fun (t : Nat) => ∀ q ∈ g.buffers, ¬ (q.2.tile0 ≤ t ∧ t < q.2.tile0 + q.2.slots * q.2.tps)
  let list := fun (p : Nat → Prop) => ∀ q, d.blk = some q → p q.1.toNat
  let listWord := (d.blk.getD (0, 0)).1
  let permutes := xf = 1 ∧ f d.xfA 10 10 = 1
  [(f d.cfgB 13 12 = 2 → side d.cfgD (·.cside), d.cfgD), (f d.cfgB 15 14 = 2 → side d.cfgA (·.pside), d.cfgA),
   (list (fun _ => f (level 1) 24 0 = 1), level 1), (list (fun _ => f (level 0) 24 0 ≤ 1024), level 0), (list (fun t => t < g.tiles), listWord),
   (xf = 1 → d.cfg = true → len % (f d.xfA 7 4 * 2 ^ f d.xfA 9 8) = 0 ∧ f d.cfgB 15 14 = 1, d.cfgB),
   (permutes → f d.xfA 24 16 < g.tiles, d.xfA), (xf = 2 → d.cfg = true → len % 64 = 0, d.cfgB),
   (xf = 4 ∨ xf = 5 → d.cfg = true → len % (typeWidth (f d.xfA 29 25) / 8) = 0, d.cfgB),
   (permutes → unused (f d.xfA 24 16), d.xfA), (list unused, listWord)]

/-- R336 to R339: FLCFG resets the staging descriptor and takes the two addresses and the control operand, FLLVL sets one level, FLXF the
transform, FLBLK the block list; an operand past its limits raises the data access fault with REASON 8 and TVAL the operand (FLCFG's control
operand before its addresses, and the order of two bad operands of FLBLK: log entry 33).
R338, R428, R261: which transform word and which packing control FLXF accepts; the fault names sa where sa is at fault, else sb.
R280, R323, R340: FLSTART with a counter operand in its limits, a sequencer number up to 3 and a descriptor that stands for its gang
queues one operation with the staging descriptor, the counter and the value, behind fewer than four on that sequencer; behind four it
waits; a counter that is not a multiple of 8 takes the misaligned trap, one past its limits, then a sequencer number past 3, then the first
row of R340 that fails the data access fault with REASON 8 and TVAL its word (the counter before the sequencer: log entry 56). -/
def Obligations.FlueWords : Prop :=
  (∀ (v : Word),
    let f := fun (hi lo : Nat) => (v.extractLsb' lo (hi - lo + 1)).toNat
    let xf := f 2 0
    let pack : List Nat := fp6Types ++ [8, 9, 10, 11]
    (transformOk v.toNat = true ↔ f 63 35 = 0 ∧ f 15 11 = 0 ∧ f 3 3 = 0 ∧ xf ≤ 5 ∧ (xf ≠ 4 → f 34 30 = 0) ∧ (xf < 2 → f 29 25 = 0) ∧
      (xf ≠ 1 → f 24 16 = 0 ∧ f 10 4 = 0) ∧ (xf = 1 → 2 ≤ f 7 4 ∧ f 7 4 ≤ 8) ∧ (xf = 2 → f 29 25 ∈ 6 :: pack) ∧
      (xf = 3 ∨ xf = 4 → f 29 25 ∈ anyTypes ∧ typeWidth (f 29 25) ≠ 4) ∧ (xf = 5 → f 29 25 ∈ pack)) ∧
    (packOk v.toNat = true ↔ f 63 18 = 0 ∧ f 7 0 ∈ [0x01, 0x02, 0x20, 0x21, 0x22, 0x30, 0x31] ∧ (f 15 8 = 0xFF → f 16 16 = 1))) ∧
  (∀ (s : State) (d a b : BitVec 6), s.Serial →
    let x := s.rs d
    let y := s.rs a
    let z := s.rs b
    let form := fun (v : Word) (space : BitVec 2) =>
      if space = 2 then v.toNat < 2 ^ 61 else v.toNat < 2 ^ 56 ∧ (space = 0 ∨ v.toNat < 2 ^ 21)
    let stride := fun (v : Word) => -(2 ^ 39) ≤ v.toInt ∧ v.toInt < 2 ^ 39
    let one : Word × Int × Int := (1, 0, 0)
    let level := (x.extractLsb' 32 3).toNat
    let sd := s.thr.staging
    Stages (.flcfg d a b) s [d, a, b]
      (z.toNat < 2 ^ 16 ∧ z.extractLsb' 14 2 ≠ 3 ∧ z.extractLsb' 12 2 ≠ 3 ∧ form x (z.extractLsb' 12 2) ∧ form y (z.extractLsb' 14 2))
      { cfg := true, cfgD := x, cfgA := y, cfgB := z, lvl := [one, one, one, one, one, one], xfA := 0, xfB := 0, blk := none } ∧
    Stages (.fllvl d a b) s [d, a, b]
      (x.toNat < 2 ^ 35 ∧ x.extractLsb' 25 7 = 0 ∧ level ≤ 5 ∧ 1 ≤ (x.extractLsb' 0 25).toNat ∧ (x.extractLsb' 0 25).toNat ≤ 2 ^ 24 ∧
        stride y ∧ stride z)
      { sd with lvl := sd.lvl.set level (x, y.toInt, z.toInt) } ∧
    Stages (.flxf a b) s [a, b]
      (transformOk y.toNat = true ∧ if y.extractLsb' 0 3 = 5 then packOk z.toNat = true else z = 0) { sd with xfA := y, xfB := z } ∧
    Stages (.flblk a b) s [a, b] (y.toNat ≤ 511 ∧ z.toNat ≤ 1) { sd with blk := some (y, z) } ∧
    (s.Clean [a, b] → transformOk y.toNat = false → exec (.flxf a b) s = .next (s.takeTrap 8 y (some 0x78))) ∧
    (s.Clean [a, b] → transformOk y.toNat = true → ¬ (if y.extractLsb' 0 3 = 5 then packOk z.toNat = true else z = 0) →
      exec (.flxf a b) s = .next (s.takeTrap 8 z (some 0x78))) ∧
    (s.Clean [a, b] → 511 < y.toNat → exec (.flblk a b) s = .next (s.takeTrap 8 y (some 0x78))) ∧
    (s.Clean [a, b] → y.toNat ≤ 511 → 1 < z.toNat → exec (.flblk a b) s = .next (s.takeTrap 8 z (some 0x78))) ∧
    (s.Clean [d, a, b] → ¬ (z.toNat < 2 ^ 16 ∧ z.extractLsb' 14 2 ≠ 3 ∧ z.extractLsb' 12 2 ≠ 3) →
      exec (.flcfg d a b) s = .next (s.takeTrap 8 z (some 0x78)))) ∧
  (∀ (s : State) (d a b : BitVec 6) (g : Gang), s.Serial → s.Clean [d, a, b] → s.myGang = some g →
    let c := s.rs d
    let seq := (s.rs b).toNat
    let busy := (s.ops.filter (fun o => o.onSeq s.thr.hearth seq)).length
    let counter := c.toNat < 2 ^ 59 ∧ (c.extractLsb' 56 3).toNat ≤ 5
    let checks := flueChecks s.thr.staging g
    let good := c.toNat % 8 = 0 ∧ counter ∧ seq ≤ 3 ∧ ∀ r ∈ checks, r.1
    (good → busy < 4 → ∃ t o, exec (.flstart d a b) s = .next t ∧ Completed s t (s.thr.pc + 4) ∧ KeptScalars s t ∧
      t = { s with thr := s.thr.bookOf t.thr, ops := s.ops ++ [o], nextId := s.nextId + 1, free := t.free } ∧
      o.id = s.nextId ∧ o.kind = .flue seq s.thr.staging c (s.rs a) ∧ o.status = .queued ∧ o.gang = s.thr.gang ∧
      o.hearth = s.thr.hearth ∧ o.asid = s.thr.asid ∧ o.clock = s.thr.pts ∧ o.copy = 0 ∧ o.piece = 0) ∧
    (good → 4 ≤ busy → exec (.flstart d a b) s = .next (s.waitAt (.flstart d a b))) ∧
    (c.toNat % 8 ≠ 0 → exec (.flstart d a b) s = .next (s.takeTrap 7 c none)) ∧
    (c.toNat % 8 = 0 → ¬ counter → exec (.flstart d a b) s = .next (s.takeTrap 8 c (some 0x78))) ∧
    (c.toNat % 8 = 0 → counter → 3 < seq → exec (.flstart d a b) s = .next (s.takeTrap 8 (s.rs b) (some 0x78))) ∧
    (c.toNat % 8 = 0 → counter → seq ≤ 3 → ∀ k, ∀ h : k < checks.length, (∀ j, ∀ h' : j < k, checks[j].1) → ¬ checks[k].1 →
      exec (.flstart d a b) s = .next (s.takeTrap 8 checks[k].2 (some 0x78))))

/-- A completed word that changes of the device its gang, `g'` after it, its scalar registers, SIV, and what it has acquired: of the copies
in the L1s only leased ones of its hearth may go. -/
def Sys2Proof.Machine.GangWord (s t : State) (g' : Gang) (siv : BitVec 29) : Prop :=
  Completed s t (s.thr.pc + 4) ∧ t.myGang = some g' ∧ (∀ h, h ≠ s.thr.gang → t.gangOf h = s.gangOf h) ∧ t.l1.Sublist s.l1 ∧
  (∀ m ∈ s.l1, m ∉ t.l1 → m.hearth = s.thr.hearth ∧ m.treat = 1) ∧
  t = { s with
    thr := ({ s.thr with sregs := t.thr.sregs, poisonS := t.thr.poisonS, siv := siv, known := t.thr.known }).bookOf t.thr
    gangs := t.gangs, l1 := t.l1, free := t.free }

/-- R277: tile `x` is one of slot `k` of a ring. -/
def Sys2Proof.Machine.InSlot (q : Buffer) (k x : Nat) : Prop := q.tile0 + k * q.tps ≤ x ∧ x < q.tile0 + (k + 1) * q.tps

/-- R277, R278, R341 to R344: BDEF defines an empty ring whose tiles go to the side that produces first, in place of the buffer of its
number, or removes that buffer; the tiles of the old ring outside the new go to the thread side; it waits while a slot is held, an
operation names the buffer, or one names a tile that goes to the thread side.  BGET takes c slots in ring order and answers
their first tile, their tiles going to the thread side, or waits for them in order; BPUT gives its role's oldest c slots on, their tiles
to the engine side where that side holds them next.  Each leaves the tiles' bytes, every other buffer and every other gang as they were.
R270: OWN gives one tile, of no buffer, to the side it names; toward the thread side it waits while an operation of the gang names
the tile; a tile of a buffer or past the gang's raises the data access fault. (That a redefinition keeps the waiters, and that a BGET
which traps leaves them: log entry 58.) -/
def Obligations.BufferAndTileWords : Prop :=
  (∀ (s : State) (d a b : BitVec 6) (g : Gang), s.Serial → s.Clean [d, a, b] → s.myGang = some g →
    let k := (s.rs d).toNat
    let sh := s.rs a
    let v := s.rs b
    let undef := v.getLsbD 8
    let tile0 := (sh.extractLsb' 0 9).toNat
    let tps := (sh.extractLsb' 24 3).toNat + 1
    let slots := (sh.extractLsb' 16 6).toNat + 1
    let tail := match g.buf k with | some q => q.waiters | none => []
    let ring : Buffer := { tile0 := tile0, tps := tps, slots := slots, pside := v.getLsbD 0, cside := v.getLsbD 1, filled := 0,
                           free := slots, pidx := 0, cidx := 0, held := [], waiters := tail }
    let new := fun (x : Nat) => undef = false ∧ tile0 ≤ x ∧ x < tile0 + slots * tps
    let old := fun (x : Nat) => ∃ q, g.buf k = some q ∧ q.tile0 ≤ x ∧ x < q.tile0 + q.slots * q.tps
    let shape := sh.toNat < 2 ^ 27 ∧ sh.extractLsb' 22 2 = 0 ∧ sh.extractLsb' 9 7 = 0 ∧ tile0 + slots * tps ≤ g.tiles ∧
      (∀ p ∈ g.buffers, p.1 ≠ k → ∀ x, new x → ¬ (p.2.tile0 ≤ x ∧ x < p.2.tile0 + p.2.slots * p.2.tps)) ∧
      ∀ o ∈ s.ops, o.gang = s.thr.gang → ∀ x, new x → o.listTile x = false
    let good := k ≤ 31 ∧ v.toNat < 2 ^ 9 ∧ v.extractLsb' 2 6 = 0 ∧ (undef = true → sh = 0) ∧ (undef = false → shape)
    let busy := (∃ q, g.buf k = some q ∧ (q.held ≠ [] ∨ ∃ o ∈ s.ops, o.gang = s.thr.gang ∧ ∃ p ∈ o.kind.bufs, p.1 = k)) ∨
      ∃ x, (old x ∧ ¬ new x ∨ new x ∧ v.getLsbD 0 = false) ∧ ∃ o ∈ s.ops, o.gang = s.thr.gang ∧ o.names x = true
    (good → ¬ busy → ∃ t g', exec (.bdef d a b) s = .next t ∧ GangWord s t g' s.thr.siv ∧ KeptScalars s t ∧
      g' = { g with buffers := g'.buffers, owners := g'.owners } ∧
      (∀ j, g'.buf j = if j = k then (if undef then none else some ring) else g.buf j) ∧
      ∀ x, x ∈ g'.owners ↔ (new x ∧ v.getLsbD 0 = true) ∨ (¬ new x ∧ ¬ old x ∧ x ∈ g.owners)) ∧
    (good → busy → exec (.bdef d a b) s = .next (s.waitAt (.bdef d a b)))) ∧
  (∀ (s : State) (d a b : BitVec 6) (g : Gang), s.Serial → s.Clean [a, b] → s.myGang = some g →
    let n := (s.rs a).toNat
    let c := ((s.rs b).extractLsb' 0 7).toNat
    let produce := (s.rs b).getLsbD 8
    let form := (s.rs b).toNat < 2 ^ 9 ∧ (s.rs b).getLsbD 7 = false ∧ 1 ≤ c
    let leave := fun (l : List BufWaiter) => l.filter (fun w => decide (w.tid ≠ s.thr.tid))
    (∀ q, g.buf n = some q → form → c ≤ q.slots → (if produce then q.pside else q.cside) = false →
      let has := if produce then q.free else q.filled
      let first := if produce then q.pidx else q.cidx
      let turn := ∀ w, q.waiters.find? (fun w => w.produce == produce) = some w → w.tid = s.thr.tid
      let taken := (List.range c).map (fun j => (⟨(first + j) % q.slots, produce, none, false⟩ : HeldSlot))
      let q' := { q with
        held := q.held ++ taken, waiters := leave q.waiters
        free := if produce then q.free - c else q.free, pidx := if produce then (q.pidx + c) % q.slots else q.pidx
        filled := if produce then q.filled else q.filled - c, cidx := if produce then q.cidx else (q.cidx + c) % q.slots }
      (c ≤ has → turn →
        ∃ t g', exec (.bget d a b) s = .next t ∧ GangWord s t g' (s.thr.siv + 1) ∧
          Wrote s t d (BitVec.ofNat 64 (q.tile0 + q.tps * first)) ∧ g' = { g with buffers := g'.buffers, owners := g'.owners } ∧
          (∀ j, g'.buf j = if j = n then some q' else g.buf j) ∧
          ∀ x, x ∈ g'.owners ↔ x ∈ g.owners ∧ ∀ h ∈ taken, ¬ InSlot q h.slot x) ∧
      (has < c ∨ ¬ turn → ∃ (t : State) (g' : Gang), exec (.bget d a b) s = .next (t.waitAt (.bget d a b)) ∧
        t = { s with gangs := t.gangs } ∧ t.myGang = some g' ∧ g' = { g with buffers := g'.buffers } ∧
        (∀ h, h ≠ s.thr.gang → t.gangOf h = s.gangOf h) ∧
        ∀ j, g'.buf j = if j = n then some { q with waiters :=
          if ∃ w ∈ q.waiters, w.tid = s.thr.tid ∧ w.produce = produce then q.waiters else q.waiters ++ [⟨s.thr.tid, produce, c⟩] }
          else g.buf j)) ∧
    (∀ q, g.buf n = some q → form → c ≤ q.slots →
      let mine := q.held.filter (fun h => h.produce == produce)
      let given := mine.take c
      let q' := { q with
        held := q.held.filter (fun h => !given.contains h)
        filled := if produce then q.filled + c else q.filled, free := if produce then q.free else q.free + c }
      (∀ h ∈ mine, h.engine = none ∧ h.fin = false) → (mine.map (·.slot)).Nodup → c ≤ mine.length →
        ∃ t g', exec (.bput a b) s = .next t ∧ GangWord s t g' (s.thr.siv + 1) ∧ KeptScalars s t ∧
          g' = { g with buffers := g'.buffers, owners := g'.owners } ∧ (∀ j, g'.buf j = if j = n then some q' else g.buf j) ∧
          ∀ x, x ∈ g'.owners ↔ x ∈ g.owners ∨ ((if produce then q.cside else q.pside) = true ∧ ∃ h ∈ given, InSlot q h.slot x)) ∧
    (g.buf n = none → exec (.bget d a b) s = .next ((s.leaveWaits).takeTrap 8 (s.rs a) (some 0x78)) ∧
      exec (.bput a b) s = .next (s.takeTrap 8 (s.rs a) (some 0x78)))) ∧
  (∀ (s : State) (a b : BitVec 6) (g : Gang), s.Serial → s.Clean [a, b] → s.myGang = some g →
    let tile := (s.rs a).toNat
    let side := (s.rs b).toNat
    let within := tile < g.tiles ∧ side ≤ 1 ∧ ∀ p ∈ g.buffers, ¬ (p.2.tile0 ≤ tile ∧ tile < p.2.tile0 + p.2.slots * p.2.tps)
    let named := ∃ o ∈ s.ops, o.gang = s.thr.gang ∧ o.names tile = true
    (within → (side = 1 ∨ ¬ named) →
      ∃ t g', exec (.own a b) s = .next t ∧ GangWord s t g' (s.thr.siv + 1) ∧ KeptScalars s t ∧ g' = { g with owners := g'.owners } ∧
        ∀ x, x ∈ g'.owners ↔ if x = tile then side = 1 else x ∈ g.owners) ∧
    (within → side = 0 → named → exec (.own a b) s = .next (s.waitAt (.own a b))) ∧
    (¬ within → exec (.own a b) s = .next (s.takeTrap 8 (s.rs a) (some 0x78))))

/-- R230, R323, R345, R346: in the scratchpad window CADD adds sb to the counter and answers what it held, a release that prompts the waits
on the counter's block; CWAIT completes with the counter once it is at least sb, both unsigned, an acquire, and below it waits, watching
that block. -/
def Obligations.CounterWords : Prop :=
  ∀ (s : State) (d a b : BitVec 6) (g : Gang) (off : Nat), s.MemoryForm → s.Serial → s.Clean [a, b] → (∀ p ∈ s.lost, p.1 ≠ s.thr.tid) →
    let va : Word := (s.rs a).setWidth 56 |>.setWidth 64
    (s.rs a).toNat < 2 ^ 59 → ((s.rs a).extractLsb' 56 3).toNat ≤ 5 → va ≠ 0 → WindowAt s va 8 g off →
    (∀ k < 8, off + k ∉ g.tilePoison) →
      let v := BitVec.ofNat 64 (Memory.num g.tileMem off 8)
      (∃ t g', exec (.cadd d a b) s = .next t ∧ Completed s t (s.thr.pc + 4) ∧ Wrote s t d v ∧ t.myGang = some g' ∧
        g' = { g with tileMem := g'.tileMem, tilePoison := g'.tilePoison } ∧ (∀ h, h ≠ s.thr.gang → t.gangOf h = s.gangOf h) ∧
        (∀ x, Memory.read g'.tileMem x =
          if off ≤ x ∧ x < off + 8 then (v + s.rs b).extractLsb' (8 * (x - off)) 8 else Memory.read g.tileMem x) ∧
        t = { s with
          thr := ({ s.thr with sregs := t.thr.sregs, poisonS := t.thr.poisonS, siv := s.thr.siv + 1 }).bookOf t.thr
          gangs := t.gangs, free := t.free
          watches := s.watches.map (fun w =>
            if w.gang = some s.thr.gang ∧ w.block = off / 128 then { w with prompted := true } else w) }) ∧
      ((s.rs b).toNat ≤ v.toNat → ∃ t, exec (.cwait d a b) s = .next t ∧ Completed s t (s.thr.pc + 4) ∧ Wrote s t d v ∧
        t.l1.Sublist s.l1 ∧ (∀ m ∈ s.l1, m ∉ t.l1 → m.hearth = s.thr.hearth ∧ m.treat = 1) ∧
        t = { s with
          thr := ({ s.thr with sregs := t.thr.sregs, poisonS := t.thr.poisonS, known := t.thr.known }).bookOf t.thr
          l1 := t.l1, free := t.free, watches := s.watches.filter (fun w => decide (w.tid ≠ s.thr.tid)) }) ∧
      (v.toNat < (s.rs b).toNat → 
        let watching := (⟨s.thr.tid, some s.thr.gang, off / 128, false⟩ : Watch) :: s.watches.filter (fun w => decide (w.tid ≠ s.thr.tid))
        exec (.cwait d a b) s = .next (State.waitAt { s with watches := watching } (.cwait d a b)))


/-- The 64 bytes at `va` are `bs`, and a load reads them: they lie in the scratchpad window, unpoisoned, or in an uncached page. -/
def Sys2Proof.Machine.RecordAt (s : State) (va : Word) (bs : List Byte) : Prop :=
  (∃ g off, WindowAt s va 64 g off ∧ (∀ k < 64, off + k ∉ g.tilePoison) ∧ bs = (List.range 64).map (fun k => Memory.read g.tileMem (off + k))) ∨
  ∃ l pa, UncachedAt s .load va 64 l pa ∧ bs = (List.range 64).map (fun k => Memory.read s.mem (pa + k))

/-- What a completed word that reads such records may change besides `u` makes of the thread: the TLBs, the tables the walkers keep, the page
heat, and what a FENCE makes of the marks of what it read. -/
def Sys2Proof.Machine.ReadFrame (s t u : State) : Prop :=
  Completed s t (s.thr.pc + 4) ∧
  t = { u with
    thr := ({ u.thr with seen := t.thr.seen }).bookOf t.thr
    tlb := t.tlb, tables := t.tables, heat := t.heat, samples := t.samples, free := t.free }

/-- A word that stops has made requests for what it read: the page heat may differ (R381). -/
def Sys2Proof.Machine.Requested (s t : State) : Prop := t = { s with heat := t.heat, samples := t.samples }

/-- A word that queues one operation of kind `k` for its gang: it completes, the operation stands last, and but for the groups, `gr` after it, nothing else
differs (R280). -/
def Sys2Proof.Machine.Queues (i : Instr) (s : State) (k : OpKind) (gr : List (Nat × Nat × Nat)) : Prop :=
  ∃ t o, exec i s = .next t ∧ ReadFrame s t { s with ops := s.ops ++ [o], nextId := s.nextId + 1, groups := gr } ∧
    o.id = s.nextId ∧ o.kind = k ∧ o.status = .queued ∧ o.gang = s.thr.gang ∧ o.hearth = s.thr.hearth ∧ o.tid = s.thr.tid ∧
    o.asid = s.thr.asid ∧ o.user = !s.thr.status.priv

/-- R309, R347 to R352, R411: TOPEN closes its slot, once no operation of the gang names it, and opens it on a well-formed descriptor, or on
none for 0; it waits while a slot of the ASID is open on the descriptor; TWALK, TAPPEND,
TREFIT and CLSTART queue their operation behind fewer than 16, TWALK with the query its tiles hold and the kernel registers, CLSTART with its
group's members, counting it, and wait behind 16; TSUMR copies a node's envelope to its tiles; a malformed descriptor, or a group
of which the stack is not one member, raises the format fault (that a COUNTER of 0 is malformed: log entry 57). -/
def Obligations.TreeAndCollectiveWords : Prop :=
  ∀ (s : State) (d a b : BitVec 6) (g : Gang), s.Serial → s.Clean [d, a, b] → s.myGang = some g →
    let x := s.rs d
    let y := s.rs a
    let z := s.rs b
    let counter := fun (v : Word) => v.toNat % 8 = 0 ∧ v.toNat < 2 ^ 59 ∧ (v.extractLsb' 56 3).toNat ≤ 5
    let walker := (s.ops.filter (fun o => decide (o.hearth = s.thr.hearth) && o.kind.tree.isSome)).length
    let slots := fun (u : State) (f : Nat → Option Nat) => u = { s with gangs := u.gangs } ∧
      (∀ h, h ≠ s.thr.gang → u.gangOf h = s.gangOf h) ∧
      ∃ g', u.myGang = some g' ∧ g' = { g with treeSlots := g'.treeSlots } ∧ ∀ k, assoc g'.treeSlots k = f k
    let closed := fun (k : Nat) => if k = y.toNat then none else assoc g.treeSlots k
    (y.toNat < 8 → z.toNat % 64 = 0 →
      let named := ∃ o ∈ s.ops, o.gang = s.thr.gang ∧ o.kind.tree.map (·.1) = some y.toNat
      let elsewhere := ∃ h ∈ s.gangs, h.asid = s.thr.asid ∧ ∃ p ∈ h.treeSlots, p.2 = z.toNat ∧ ¬ (h.gid = s.thr.gang ∧ p.1 = y.toNat)
      (named → exec (.topen a b) s = .next (s.waitAt (.topen a b))) ∧
      (¬ named → z = 0 → ∃ t u, exec (.topen a b) s = .next t ∧ ReadFrame s t u ∧ slots u closed) ∧
      (¬ named → z ≠ 0 → elsewhere → ∃ u, exec (.topen a b) s = .next (u.waitAt (.topen a b)) ∧ slots u closed) ∧
      (∀ bs, ¬ named → z ≠ 0 → ¬ elsewhere → RecordAt s z bs → (treeOf bs).ok = true →
        ∃ t u, exec (.topen a b) s = .next t ∧ ReadFrame s t u ∧
          slots u (fun k => if k = y.toNat then some z.toNat else assoc g.treeSlots k)) ∧
      (∀ bs, ¬ named → z ≠ 0 → ¬ elsewhere → RecordAt s z bs → (treeOf bs).ok = false →
        ∃ u v, exec (.topen a b) s = .next (v.takeTrap 14 z none) ∧ Requested u v ∧ slots u closed)) ∧
    (∀ de bs q, assoc g.treeSlots x.toNat = some de → g.buf z.toNat = some q → q.pside = true → y.toNat % 4 = 0 →
      y.toNat < g.tiles * 4096 →
      (walker < 16 → RecordAt s (BitVec.ofNat 64 de) bs → TilesAt s g y.toNat (4 * (treeOf bs).d) →
        Queues (.twalk d a b) s (.walk x.toNat z.toNat de
          ((List.range (treeOf bs).d).map (fun k => BitVec.ofNat 32 (Memory.num g.tileMem (y.toNat + 4 * k) 4)))
          (s.thr.wtheta.setWidth 32) (s.thr.wkern.getLsbD 0)) s.groups) ∧
      (16 ≤ walker → exec (.twalk d a b) s = .next (s.waitAt (.twalk d a b)))) ∧
    (∀ de, assoc g.treeSlots x.toNat = some de → counter z → y.toNat < 2 ^ 32 - 1 →
      (walker < 16 → Queues (.tappend d a b) s (.append x.toNat de y.toNat z) s.groups) ∧
      (16 ≤ walker → exec (.tappend d a b) s = .next (s.waitAt (.tappend d a b)))) ∧
    (∀ de, assoc g.treeSlots y.toNat = some de → counter z → z.setWidth 56 ≠ 0#56 →
      (walker < 16 → Queues (.trefit a b) s (.refit y.toNat de z) s.groups) ∧
      (16 ≤ walker → exec (.trefit a b) s = .next (s.waitAt (.trefit a b)))) ∧
    (∀ de bs, assoc g.treeSlots x.toNat = some de → RecordAt s (BitVec.ofNat 64 de) bs →
      let t := treeOf bs
      let size := 64 * ((16 + 4 * t.d + 4 * t.dv + 63) / 64)
      let env := t.envBase + y.toNat * size
      let locked := ∃ o ∈ s.ops, o.kind.isAppend = true ∧ o.asid = s.thr.asid ∧ o.kind.tree.map (·.2) = some de ∧
        o.stack.head?.map (·.1) = some y.toNat
      y.toNat < t.nodes → z.toNat % 64 = 0 → TilesAt s g z.toNat size →
      (locked → exec (.tsumr d a b) s = .next (s.waitAt (.tsumr d a b))) ∧
      ∀ xs : Nat → List Byte, ¬ locked → (∀ k < size / 64, RecordAt s (BitVec.ofNat 64 (env + 64 * k)) (xs k)) →
        ∃ v u g', exec (.tsumr d a b) s = .next v ∧ ReadFrame s v u ∧ u = { s with gangs := u.gangs, watches := u.watches } ∧
          (∀ h, h ≠ s.thr.gang → u.gangOf h = s.gangOf h) ∧ u.myGang = some g' ∧
          g' = { g with tileMem := g'.tileMem, tilePoison := g'.tilePoison } ∧ ∀ p, Memory.read g'.tileMem p =
            if z.toNat ≤ p ∧ p < z.toNat + size then (xs ((p - z.toNat) / 64)).getD ((p - z.toNat) % 64) 0
            else Memory.read g.tileMem p) ∧
    (∀ bs, RecordAt s y bs →
      let c := collOf bs
      let stack := s.thr.hearth / 32
      let busy := (s.ops.filter (fun o => match o.kind with | .collective k _ _ => decide (k = stack) | _ => false)).length
      let entry := s.bar0.cgbase.toNat + 16 * c.group
      let list := Memory.num s.view entry 8
      let n := Memory.num s.view (entry + 8) 2
      let member := fun (k : Nat) => Memory.num s.view (list + 2 * k) 2
      let good := c.ok (bs.drop 0x20) = true ∧ list % 8 = 0 ∧ 2 ≤ n ∧ n ≤ 4096 ∧ Memory.num s.view (entry + 10) 6 = 0 ∧
        (∀ k < n, member k < 4096) ∧ ∃ k < n, member k = 4 * s.devnum.toNat + stack ∧ ∀ j < n, member j = member k → j = k
      (good → busy < 16 → Queues (.clstart a) s (.collective stack (bs ++ Memory.readN s.view list (2 * n)) (s.startedOn stack c.group))
        (s.countOn stack c.group).groups) ∧
      (good → 16 ≤ busy → exec (.clstart a) s = .next (s.waitAt (.clstart a))) ∧
      (¬ good → ∃ u, exec (.clstart a) s = .next (u.takeTrap 14 y none) ∧ Requested s u))

/-- R390, R396 to R398: LAUNCH reads its 64 bytes at supervisor level and appends them to its ASID's child queue behind fewer than 256, and
waits behind 256; TLBINV, TLBINVA and TLBINVG forget exactly the translations, and the table entries of the walkers, that they name; EMBRD answers a frame's HEAT and ACC and clears ACC
where it is told to; EMBAGE halves every HEAT; RLOGCTL sets or removes its ASID's race log, a malformed record raising the format fault; none
but LAUNCH changes anything else. -/
def Obligations.SystemWords : Prop :=
  ∀ (s : State) (d a b : BitVec 6), s.Serial → s.Clean [a, b] →
    let x := s.rs a
    let y := s.rs b
    let q := childBase + s.thr.asid.toNat
    let asSuper : State := { s with thr := { s.thr with status := { s.thr.status with priv := true } } }
    (∀ bs, RecordAt asSuper x bs →
      ((s.queueOf q).children.length < 256 → (∀ p ∈ s.lost, p.1 ≠ s.thr.tid) →
        ∃ t, exec (.launch a) s = .next t ∧ Completed s t (s.thr.pc + 4) ∧ KeptScalars s t ∧
          ((s.queueOf q).launch.isSome = true → ∃ known, ReadFrame s t { s with queues := t.queues } ∧
            t.queueOf q = { s.queueOf q with children := (s.queueOf q).children ++ [(bs, known)] } ∧
            ∀ k, k ≠ q → t.queueOf k = s.queueOf k)) ∧
      (256 ≤ (s.queueOf q).children.length → exec (.launch a) s = .next (s.waitAt (.launch a)))) ∧
    (s.thr.status.priv = true → x.toNat < 2 ^ 56 → y.toNat < 1024 →
      ∃ t, exec (.tlbinv a b) s = .next t ∧ Completed s t (s.thr.pc + 4) ∧
        t = { s with thr := s.thr.bookOf t.thr, tlb := t.tlb, tables := t.tables, free := t.free } ∧
        (∀ e, e ∈ t.tlb ↔ e ∈ s.tlb ∧ ¬ (e.asid.toNat = y.toNat ∧ e.base ≤ x.toNat ∧ x.toNat < e.base + e.size)) ∧
        ∀ e, e ∈ t.tables ↔ e ∈ s.tables ∧ ¬ (e.asid.toNat = y.toNat ∧ e.base ≤ x.toNat ∧ x.toNat < e.base + levelSpan e.level)) ∧
    (s.thr.status.priv = true → x.toNat < 1024 →
      ∃ t, exec (.tlbinva a) s = .next t ∧ Completed s t (s.thr.pc + 4) ∧
        t = { s with thr := s.thr.bookOf t.thr, tlb := t.tlb, tables := t.tables, free := t.free } ∧
        (∀ e, e ∈ t.tlb ↔ e ∈ s.tlb ∧ e.asid.toNat ≠ x.toNat) ∧ ∀ e, e ∈ t.tables ↔ e ∈ s.tables ∧ e.asid.toNat ≠ x.toNat) ∧
    (s.thr.status.priv = true → ∃ t, exec .tlbinvg s = .next t ∧ Completed s t (s.thr.pc + 4) ∧
      t = { s with thr := s.thr.bookOf t.thr, tlb := [], tables := [], free := t.free }) ∧
    (s.thr.status.priv = true → x.toNat % 65536 = 0 → backed x.toNat 65536 = true → y.toNat < 2 →
      ∃ t, exec (.embrd d a b) s = .next t ∧ Completed s t (s.thr.pc + 4) ∧
        Wrote s t d (BitVec.ofNat 64 ((s.heatOf (x.toNat / 65536)).1.toNat + (if (s.heatOf (x.toNat / 65536)).2 then 256 else 0))) ∧
        (∀ f, t.heatOf f = if f = x.toNat / 65536 ∧ y = 1 then ((s.heatOf f).1, false) else s.heatOf f) ∧
        t = { s with thr := ({ s.thr with sregs := t.thr.sregs, poisonS := t.thr.poisonS }).bookOf t.thr, heat := t.heat, free := t.free }) ∧
    (s.thr.status.priv = true → ∃ t, exec .embage s = .next t ∧ Completed s t (s.thr.pc + 4) ∧
      t = { s with thr := s.thr.bookOf t.thr, heat := t.heat, free := t.free } ∧
      ∀ f, t.heatOf f = (BitVec.ofNat 8 ((s.heatOf f).1.toNat / 2), (s.heatOf f).2)) ∧
    (s.thr.status.priv = true → x = 0 → ∃ t, exec (.rlogctl a) s = .next t ∧ Completed s t (s.thr.pc + 4) ∧
      t = { s with thr := s.thr.bookOf t.thr, raceLogs := t.raceLogs, free := t.free } ∧
      ∀ k, assoc t.raceLogs k = if k = s.thr.asid.toNat then none else assoc s.raceLogs k) ∧
    (∀ bs, s.thr.status.priv = true → x ≠ 0 → RecordAt s x bs →
      let good := fieldAt bs 0 8 % 4096 = 0 ∧ 1 ≤ fieldAt bs 8 4 ∧ fieldAt bs 8 4 ≤ 2 ^ 20 ∧ fieldAt bs 0xC 4 = 0 ∧
        ∀ c ∈ bs.drop 0x28, c = 0
      (good → ∃ t, exec (.rlogctl a) s = .next t ∧ ReadFrame s t { s with raceLogs := t.raceLogs } ∧
        ∀ k, assoc t.raceLogs k = if k = s.thr.asid.toNat then some x else assoc s.raceLogs k) ∧
      (¬ good → ∃ u, exec (.rlogctl a) s = .next (u.takeTrap 14 x none) ∧ Requested s u))

/-- The first `n` pieces of 64 bytes at the addresses `va` lie in uncached pages that the thread may write, at `pa` in memory, apart from one
another and from the tables that translate them. -/
def Sys2Proof.Machine.AreaAt (s : State) (n : Nat) (va : Nat → Word) (pa : Nat → Nat) : Prop :=
  (∀ j < n, ∀ k < n, j ≠ k → pa j + 64 ≤ pa k ∨ pa k + 64 ≤ pa j) ∧
  ∀ k < n, (∃ l, UncachedAt s .store (va k) 64 l (pa k)) ∧
    s.TablesApart s.thr.asid.toNat (va k).toNat (fun x => ∃ j < n, pa j ≤ x ∧ x < pa j + 64)

/-- R365, R366, R368, R392, R393, R395: CSAVE of one stack's thread completes where its area is writable uncached memory, and, for the last
live thread, its gang's area too, once no operation of the gang runs: the areas hold FORMAT, LANES, the resume PC, s1 to s63 and the control
registers, and the gang's header and tiles, at their places, and no other byte of memory differs; the thread is saved whole, the gang
with its operations.  On other pages it completes wherever its stores are answered.
CRESTORE in a gang already restored, of an area whose handle this device knows, brings the scalar registers and the vector state back and
keeps the thread's grant and VCAP; a FORMAT that differs is a format fault, a grant below VCAP a vector-state trap.  (That the handle stands
in the area is the model's, log entry 6; which lanes SHAPE names, and the control registers as before the CSAVE completes: entry 59.) -/
def Obligations.ContextWords : Prop :=
  ∀ (s : State) (a b : BitVec 6), s.Serial → s.Clean [a, b] → s.thr.status.priv = true → (s.rs a).toNat % 65536 = 0 →
    (s.rs b).toNat % 65536 = 0 →
    let x := s.rs a
    let y := s.rs b
    let area := s.threadArea (s.thr.pc + 4)
    let n := 0xC0000 / 64
    let alone := ∀ u ∈ s.others, u.gang = s.thr.gang → u.live = false
    let piece := fun (k : Nat) => if k < n then x + BitVec.ofNat 64 (64 * k) else y + BitVec.ofNat 64 (64 * (k - n))
    let byteAt := fun (t : State) (pa : Nat → Nat) (o : Nat) => Memory.read t.mem (pa (o / 64) + o % 64)
    let saved := fun (t : State) => t.thr.phase = .saved ∧ t.thr.pc = s.thr.pc + 4 ∧ t.thr.retired = s.thr.retired + 1 ∧
      t.images = (s.nextId, s.thr) :: s.images
    let written := fun (t : State) (pa : Nat → Nat) (m : Nat) =>
      (∀ o < 0x1400, byteAt t pa o = area.getD o 0) ∧ SameLines s t (fun x => ∃ k < m, pa k ≤ x ∧ x < pa k + 64) ∧
      ∀ z, (∀ k < m, ¬ (pa k ≤ z ∧ z < pa k + 64)) → Memory.read t.mem z = Memory.read s.mem z
    let loose := fun (t : State) => { s with
      thr := ({ s.thr with stale := t.thr.stale }).bookOf t.thr
      mem := t.mem, poison := t.poison, releases := t.releases, l1 := t.l1, l1bad := t.l1bad, watches := t.watches, tlb := t.tlb
      tables := t.tables, heat := t.heat, samples := t.samples, images := t.images, gangs := t.gangs, nextId := t.nextId, free := t.free }
    (area.length = 0x1400 ∧ fieldAt area 0 8 = 0x09500001 ∧ fieldAt area 0x10 8 = (s.thr.pc + 4).toNat ∧
      (∀ k : BitVec 6, k ≠ 0 → fieldAt area (0x10 + 8 * k.toNat) 8 = (s.rs k).toNat) ∧
      ∀ c : BitVec 12, c.toNat < 512 → (cregAccess c).isSome = true → fieldAt area (0x400 + 8 * c.toNat) 8 = (s.creg c).toNat) ∧
    (s.MemoryForm → s.thr.pfx = none → s.thr.nseg ≤ 1 →
      (¬ alone → ∀ pa, AreaAt s n piece pa →
        ∃ t, exec (.csave a b) s = .next t ∧ saved t ∧ written t pa n ∧ t = loose t ∧ t.nextId = s.nextId + 1 ∧
          (∀ h, h ≠ s.thr.gang → t.gangOf h = s.gangOf h) ∧
          ∀ g, s.myGang = some g → ∃ g', t.myGang = some g' ∧ g' = { g with tareas := g'.tareas, saving := true } ∧
            ∀ k, assoc g'.tareas k = if k = s.thr.index then some x else assoc g.tareas k) ∧
      (∀ g l, alone → s.myGang = some g → s.launchOf g.launch = some l →
        ((∃ o ∈ s.ops, o.gang = s.thr.gang ∧ o.status = .running) →
          ∃ (u : State) (g' : Gang), exec (.csave a b) s = .next (u.waitAt (.csave a b)) ∧ u = { s with gangs := u.gangs } ∧ u.myGang = some g' ∧
            g' = { g with saving := true }) ∧
        ((∀ o ∈ s.ops, o.gang = s.thr.gang → o.status ≠ .running) → ∀ pa, AreaAt s (n + 1024 + g.tiles * 64) piece pa →
          ∃ t hdr img, exec (.csave a b) s = .next t ∧ saved t ∧ written t pa (n + 1024 + g.tiles * 64) ∧
            t = { loose t with ops := t.ops, gangImages := t.gangImages } ∧
            (∀ o < 0x80, byteAt t pa (0xC0000 + o) = hdr.getD o 0) ∧
            (∀ o < g.tiles * 4096, byteAt t pa (0xC0000 + 0x10000 + o) = Memory.read g.tileMem o) ∧
            hdr.length = 0x80 ∧ fieldAt hdr 0 8 = 0x09500001 ∧ fieldAt hdr 0x10 8 = l.id % 2 ^ 64 ∧ fieldAt hdr 0x18 8 = l.linfo ∧
            fieldAt hdr 8 8 = (g.tiles + (g.threads - 1) * 2 ^ 16 + g.lanes * 2 ^ 32) % 2 ^ 64 ∧
            fieldAt hdr 0x20 8 = g.gindex % 2 ^ 64 ∧
            (∀ k < 8, fieldAt hdr (0x40 + 8 * k) 8 = if k = s.thr.index then x.toNat
              else if ∃ u ∈ s.others, u.gang = s.thr.gang ∧ u.index = k ∧ u.phase ≠ .ended then ((assoc g.tareas k).getD 0).toNat else 0) ∧
            t.ops = s.ops.filter (fun o => decide (o.gang ≠ s.thr.gang)) ∧
            t.gangImages = (s.nextId + 1, img, s.ops.filter (fun o => decide (o.gang = s.thr.gang))) :: s.gangImages ∧
            img = { g with tareas := img.tareas, saving := img.saving } ∧
            (∀ h, h ≠ s.thr.gang → t.gangOf h = s.gangOf h) ∧
            ∃ g', t.myGang = some g' ∧ g'.phase = (if g.migrate.isSome then .readmit else .saved) ∧ g'.tileMem = [] ∧ g'.owners = [] ∧
              g'.buffers = [] ∧ g'.treeSlots = g.treeSlots ∧ g'.area = some y)) ∧
      ∀ u, s.saveThread x = .ok u →
        (¬ alone → ∃ t, exec (.csave a b) s = .next t ∧ saved t ∧ t.mem = u.mem ∧ t.l1 = u.l1) ∧
        (alone → (∀ o ∈ s.ops, o.gang = s.thr.gang → o.status ≠ .running) → ∀ v, u.saveGang y = .ok v →
          ∃ t, exec (.csave a b) s = .next t ∧ saved t ∧ t.mem = v.mem ∧ t.l1 = v.l1)) ∧
    (1 < s.thr.nseg → exec (.csave a b) s = .next (s.takeTrap 9 (BitVec.ofNat 64 (encode (.csave a b))) none)) ∧
    (∀ (part : Nat → List Byte) (fb hb : List Byte), (∀ k < 80, RecordAt s (x + BitVec.ofNat 64 (64 * k)) (part k)) → RecordAt s y fb →
      let word := fun (o : Nat) => BitVec.ofNat 64 (fieldAt (part (o / 64)) (o % 64) 8)
      let traps := fun (c : Nat) (v : Word) => ∃ u, exec (.crestore a b) s = .next (u.takeTrap c v none) ∧ Requested s u
      (word 0 ≠ 0x09500001 → traps 14 x) ∧ (word 0 = 0x09500001 → fieldAt fb 0 8 ≠ 0x09500001 → traps 14 y) ∧
      (word 0 = 0x09500001 → fieldAt fb 0 8 = 0x09500001 → s.thr.grant < s.thr.vcap.toNat →
        traps 9 (BitVec.ofNat 64 (encode (.crestore a b)))) ∧
      ∀ img g, word 0 = 0x09500001 → fieldAt fb 0 8 = 0x09500001 → s.thr.vcap.toNat ≤ s.thr.grant →
        RecordAt s (x + BitVec.ofNat 64 threadHandleAt) hb → assoc s.images (fieldAt hb 0 8) = some img →
        s.myGang = some g → g.restored = true → (∀ o ∈ s.ops, o.gang = s.thr.gang → o.status ≠ .aborted) →
          ∃ t, exec (.crestore a b) s = .next t ∧ t.thr.phase = .running ∧ t.thr.pc = s.thr.pc + 4 ∧ t.thr.grant = s.thr.grant ∧
            t.thr.vcap = s.thr.vcap ∧ t.thr.attached = s.thr.attached ∧ t.thr.tid = s.thr.tid ∧ t.mem = s.mem ∧ t.others = s.others ∧
            (∀ k : BitVec 6, k ≠ 0 → t.rs k = word (0x10 + 8 * k.toNat)) ∧ t.thr.mode = word (0x400 + 8 * 0x010) ∧
            t.thr.epc = word (0x400 + 8 * 0x101) ∧ t.thr.sscratch = word (0x400 + 8 * 0x104) ∧ t.thr.status.priv = true ∧
            t.thr.status.ae = (word (0x400 + 8 * 0x008)).getLsbD 3 ∧
            t.thr.inSpan = false ∧ t.thr.pend18 = s.thr.pend18.or img.pend18 ∧
            (img.rowBits ≤ t.thr.rowBits → t.thr.vrows = img.vrows ∧ t.thr.mrows = img.mrows))

/-! ## Events -/

/-- `t` is `s` with the threads that `p` picks changed by `f`, and nothing else. -/
def Sys2Proof.Machine.OnThreads (s t : State) (p : Thread → Prop) (f : Thread → Thread) : Prop :=
  t = { s with thr := t.thr, others := t.others } ∧ (p s.thr → t.thr = f s.thr) ∧ (¬ p s.thr → t.thr = s.thr) ∧
    t.others.length = s.others.length ∧
    ∀ k, ∀ h : k < s.others.length, ∀ h' : k < t.others.length,
      (p s.others[k] → t.others[k] = f s.others[k]) ∧ (¬ p s.others[k] → t.others[k] = s.others[k])

/-- R219, R222: the clock of the thread, or of the home stack, that the event names gains one; the thread's hearth drops the leased copies
that it leaves 2^14 behind since their fill, and a home clock that comes to a multiple of 2^13 expires every stamp of that home more than
2^14 behind (which multiples is the model's, log entry 68).  R356 to R361: a pending event is taken at a boundary with AE 1, code 18
before code 17, and a wait that it ends is forgotten.  R364: a pre-emption request makes code 17 with TVAL 1 pending for every live thread
of the gang it names, or is refused and reported where the gang may not be asked.  R369: an overrun closes the region, sets OVR and makes
code 18 pending.  R110, R139: a starved thread past four entries of its own has one more.  R24: an unassigned word raises code 1, but code 2
where only reserved bits are at fault; a fetch at an address that is no multiple of 4 raises code 5, above 2^56 code 6 with REASON 7.
R82, R83, R270, R343, R345: the event of a waiting thread looks again at what it waits for, WAITEV and CWAIT only once a write has
prompted them, and the waiting word then completes as it would have at once: WAITEV where the doubleword differs, CWAIT where the counter has
reached, OWN where no operation names the tile, BGET where the slots are there and the thread is the first to wait for them. (How an event's
argument names its thread or gang is the model's: log entry 14; what a starved thread counts: entry 39.) -/
def Obligations.ThreadEvents : Prop :=
  (∀ s : State,
    let a := s.arg
    let hit := fun (u : Thread) => u.tid = a.who ∧ u.live = true
    let begun := fun (u : Thread) =>
      if 0 < a.num ∧ u.phase = .running ∧ u.pend17 = none ∧ u.pend18 = none then some a.num else u.stopAt
    (∃ t, exec .ptsTick s = .next t ∧ OnThreads { s with l1 := t.l1 } t hit (fun u => { u with pts := u.pts + 1 }) ∧
      ∀ l, l ∈ t.l1 ↔ l ∈ s.l1 ∧ ¬ (l.treat = 1 ∧ ∃ u ∈ s.threads, hit u ∧ l.hearth = u.hearth ∧
        ∃ c, (u.tid, c) ∈ l.born ∧ 2 ^ 14 ≤ (u.pts + 1 - c).toNat)) ∧
    (a.who < 4 → ∃ t, exec .htsTick s = .next t ∧ t = { s with hts := t.hts, stamps := t.stamps } ∧
      (∀ k < 4, t.htsOf k = if k = a.who then s.htsOf k + 1 else s.htsOf k) ∧ t.stamps.length = s.stamps.length ∧
      ∀ k, ∀ h : k < s.stamps.length, t.stamps[k]? =
        let l := s.stamps[k]
        let c := s.htsOf a.who + 1
        some (if c.toNat % 2 ^ 13 = 0 ∧ homeId l.pa = a.who ∧ 2 ^ 14 < (c - l.rts).toNat then { l with wts := c, rts := c } else l)) ∧
    (s.thr.pfx = none → s.thr.status.ae = true → (s.thr.phase = .running ∨ ∃ i, s.thr.phase = .waiting i ∧ isBlockedWait i = true) →
        (∀ v, s.thr.pend18 = some v → exec .asyncEventEntry s =
          .next ({ s.leaveWaits with thr := { s.leaveWaits.thr with pend18 := none } }.takeTrap 18 v none)) ∧
        (∀ v, s.thr.pend18 = none → s.thr.pend17 = some v → s.thr.nseg ≤ 1 → (∀ u ∈ s.gangThreads s.thr.gang, u.npOpen = false) →
          exec .asyncEventEntry s = .next ({ s.leaveWaits with thr := { s.leaveWaits.thr with pend17 := none } }.takeTrap 17 v none))) ∧
    (∀ k g, a.nums = [k] → s.gangOf k = some g → g.gid = k → (∀ l, s.launchOf g.launch = some l → l.cohort = false) →
      let may := g.phase = .resident ∧ (∃ u ∈ s.gangThreads k, u.preemptible = true) ∧
        ∀ u ∈ s.gangThreads k, u.preemptible = true → u.tvec ≠ 0
      (may → ∃ t, exec .preemptionRequest s = .next t ∧
        OnThreads s t (fun u => u.gang = k ∧ u.preemptible = true) (fun u => { u with pend17 := some 1, stopAt := begun u })) ∧
      (¬ may → exec .preemptionRequest s = .next { s with reports := s.reports + 1 })) ∧
    (let open' := fun (u : Thread) => u.tid = a.who ∧ s.unended u = true ∧ u.npOpen = true
     (∃ u ∈ s.threads, open' u) →
      ∃ t n, exec .npRegionOverrun s = .next t ∧ t.free = s.free + 1 ∧
        OnThreads { s with free := s.free + 1 } t open'
          (fun u => { u with npOpen := false, npOvr := true, pend18 := some n, stopAt := begun u })) ∧
    (∀ u, s.threads.find? (fun t => decide (t.tid = a.who) && t.live) = some u → 256 ≤ a.num → 4 ≤ a.nums.count u.tid →
      a.nums.length < 96 → ∃ t, exec .windowEntryStarvation s = .next t ∧ t = { s with window := t.window } ∧
        ∀ p : Nat × Nat, t.window.count p =
          if p.1 = u.hearth then a.nums.count p.2 + (if p.2 = u.tid then 1 else 0) else s.window.count p) ∧
    (let w : BitVec 32 := a.value.setWidth 32
     let traps := fun (n : Nat) => exec .unassignedInstructionWord s = .next (s.takeTrap n (w.setWidth 64) none)
     (∀ i, decode w.toNat = .error (.reserved i) → (a.flags.head? ≠ some true → traps 2) ∧ (a.flags.head? = some true → traps 1)) ∧
     ((∀ i, decode w.toNat ≠ .error (.reserved i)) → traps 1)) ∧
    (s.thr.pc.toNat % 4 ≠ 0 → exec .instructionFetchFault s = .next (s.takeTrap 5 s.thr.pc none)) ∧
    (s.thr.pc.toNat % 4 = 0 → 2 ^ 56 ≤ s.thr.pc.toNat →
      exec .instructionFetchFault s = .next (s.takeTrap 6 s.thr.pc (some (fstatWord 7 7 false))))) ∧
  (∀ (s : State) (d a b : BitVec 6) (g : Gang), s.MemoryForm → s.Serial → s.Clean [d, a, b] → s.myGang = some g →
    let x := s.rs a
    let y := s.rs b
    let prompted := ∀ w ∈ s.watches, w.tid = s.thr.tid → w.prompted = true
    let asleep := ∃ w, s.watches.find? (fun w => decide (w.tid = s.thr.tid)) = some w ∧ w.prompted = false
    let acquires := fun (t : State) (v : Word) => Completed s t (s.thr.pc + 4) ∧ Wrote s t d v ∧ t.l1.Sublist s.l1 ∧
      (∀ m ∈ s.l1, m ∉ t.l1 → m.hearth = s.thr.hearth ∧ m.treat = 1) ∧
      t = { s with
        thr := ({ s.thr with sregs := t.thr.sregs, poisonS := t.thr.poisonS, known := t.thr.known }).bookOf t.thr
        l1 := t.l1, free := t.free, watches := s.watches.filter (fun w => decide (w.tid ≠ s.thr.tid)) }
    (s.thr.phase = .waiting (.waitev d a b) → asleep → exec .waitevReread s = .next s) ∧
    (s.thr.phase = .waiting (.cwait d a b) → asleep → exec .cwaitReread s = .next s) ∧
    (s.thr.phase = .waiting (.waitev d a b) → prompted → ∀ off, WindowAt s x 8 g off → (∀ k < 8, off + k ∉ g.tilePoison) →
      let v : Word := BitVec.ofNat 64 (Memory.num g.tileMem off 8)
      v ≠ y → ∃ t, exec .waitevReread s = .next t ∧ acquires t v) ∧
    (s.thr.phase = .waiting (.cwait d a b) → prompted → ∀ off, x.toNat < 2 ^ 59 → (x.extractLsb' 56 3).toNat ≤ 5 → x.setWidth 56 ≠ 0#56 →
      WindowAt s ((x.setWidth 56).setWidth 64) 8 g off → (∀ k < 8, off + k ∉ g.tilePoison) →
      let v : Word := BitVec.ofNat 64 (Memory.num g.tileMem off 8)
      y.toNat ≤ v.toNat → ∃ t, exec .cwaitReread s = .next t ∧ acquires t v) ∧
    (s.thr.phase = .waiting (.own a b) → x.toNat < g.tiles → y = 0 → g.inBuffer x.toNat = false → s.tileNamed g.gid x.toNat = false →
      ∃ t g', exec .ownFlipComplete s = .next t ∧ GangWord s t g' (s.thr.siv + 1) ∧ KeptScalars s t ∧
        g' = { g with owners := g'.owners } ∧ ∀ n, n ∈ g'.owners ↔ n ≠ x.toNat ∧ n ∈ g.owners) ∧
    (s.thr.phase = .waiting (.bget d a b) → ∀ q, g.buf x.toNat = some q → y.toNat < 2 ^ 7 → 1 ≤ y.toNat → y.toNat ≤ q.filled →
      y.toNat ≤ q.slots → q.cside = false → (∀ w ∈ q.waiters, w.produce = false → w.tid = s.thr.tid) →
      ∃ t g' q', exec .bgetServe s = .next t ∧ GangWord s t g' (s.thr.siv + 1) ∧
        Wrote s t d (BitVec.ofNat 64 (q.tile0 + q.tps * q.cidx)) ∧ g' = { g with buffers := g'.buffers, owners := g'.owners } ∧
        (∀ j, g'.buf j = if j = x.toNat then some q' else g.buf j) ∧
        q' = { q with
          filled := q.filled - y.toNat, cidx := (q.cidx + y.toNat) % q.slots
          held := q.held ++ (List.range y.toNat).map (fun j => (⟨(q.cidx + j) % q.slots, false, none, false⟩ : HeldSlot))
          waiters := q.waiters.filter (fun w => decide (w.tid ≠ s.thr.tid)) } ∧
        ∀ n, n ∈ g'.owners ↔ n ∈ g.owners ∧ ∀ j < y.toNat, ¬ InSlot q ((q.cidx + j) % q.slots) n))

/-- `n` bytes at `va` of a unit that passes the L1s by lie in one unit of 64 in the page `l`, whose tables let ASID `asid` use it so:
treatment U, plaintext, neither compressed nor race-checked, behind no link that is down, not poisoned for a use that reads; no TLB or L1 of
the device holds anything, and the walkers nothing else of the tables.  `pa` is where they stand in memory. -/
def Sys2Proof.Machine.UncachedUnit (s : State) (asid : Nat) (user : Bool) (u : Use) (va n : Nat) (l : Leaf) (pa : Nat) : Prop :=
  0 < n ∧ va % 64 + n ≤ 64 ∧ va + n ≤ 2 ^ 56 ∧ s.tlb = [] ∧ s.l1 = [] ∧ s.TablesCurrent asid va ∧ s.walk asid va = .ok l ∧
    l.permits u user = true ∧ l.treat = 3 ∧ l.slot = 0 ∧ l.cmp = false ∧ l.race = false ∧ pa = s.physKey l.home (l.frame + (va - l.base)) ∧ pa + n ≤ 2 ^ 70 ∧
    s.linkLost pa = false ∧ (u.reads = true → s.poisoned ⟨pa, 0, l.alloc⟩ n = false)

/-- Plaintext throughout: no sector of memory is under a key (R380). -/
def Sys2Proof.Machine.State.Plain (s : State) : Prop := s.sectorKeys = []

/-- R121 to R123, R125, R127 to R130, R134: a DOORBELL of a queue that is enabled, without an error and well formed takes TAIL, the first one
HEAD too, and a later one whose TAIL is HEAD adds nothing (a TAIL behind the one before it is log entry 88's); a nonzero byte above TAIL or a TAIL past the ring sets ERR to 1.  DEPENDENCE_MET makes a head eligible once its counter, in an
uncached page, reads at least its target, and else changes nothing of it; only a stamp of that value moves the clock of the threads to come (R273).  PRIORITY_AGING adds one to its age, up to 7.  SERVE_QUEUE admits the
chosen unit: its gangs, one on each hearth chosen, at their coordinates, and their threads, at the launch's entry with the argument in s1.
GANG_END forgets a gang whose threads have all ended and whose engines have nothing left, and counts it for its launch. (How an event's
argument names its queue is the model's: log entry 14; which queue an agent's writes are seen through, entry 26; that a started gang's
tiles are empty, entry 3.) -/
def Obligations.FrontEndEvents : Prop :=
  ∀ s : State, s.Plain →
    let a := s.arg
    let x := s.queueOf a.who
    let e := s.bar0.qtbase.toNat + 32 * a.who
    let tail := fieldAt a.bytes 0 4
    let size := 2 ^ s.physNum (e + 8) 1
    let only := fun (t : State) => ∀ k, k ≠ a.who → t.queueOf k = s.queueOf k
    (a.who < 16384 → s.bar0.ready = true → backed e 32 = true → a.bytes.length = 64 → s.physNum (e + 9) 1 % 2 = 1 →
      s.physNum (e + 10) 1 = 0 →
        let sound := (∀ c ∈ a.bytes.drop 4, c = 0) ∧ tail < size ∧ s.entryOk a.who = true ∧ backed (s.physNum e 8) (64 * size) = true
        let rung := fun (head : Nat) => ∃ t, exec .doorbell s = .next t ∧ only t ∧
          t.queueOf a.who = { x with
            head := head, tail := if x.primed = true ∧ tail = head then x.tail else tail, primed := true, known := [(0, s.writes)] } ∧
          t = { s with queues := t.queues, heat := t.heat, samples := t.samples, free := t.free }
        (sound → x.primed = true → x.launch.isSome = true → x.head < size → rung x.head) ∧
        (sound → x.primed = false → x.launch = none → s.physNum (e + 12) 4 = tail → rung tail) ∧
        (¬ ((∀ c ∈ a.bytes.drop 4, c = 0) ∧ tail < size) → e + 32 ≤ bondedEnd → (∀ l ∈ s.l1, l.treat = 1) →
          ∃ t, exec .doorbell s = .next t ∧ t.physNum (e + 10) 1 = 1 ∧ t.queueOf a.who = { x with primed := false } ∧ only t)) ∧
    (∀ k l f pa, x.launch = some k → s.launchOf k = some l → x.eligible = false → s.depParked a.who = false →
      UncachedUnit s l.asid.toNat false .load l.depAddr 8 f pa →
        let n := Memory.num s.mem pa 8
        let looks := fun (t : State) => exec .dependenceMet s = .next t ∧ t = { s with
          queues := t.queues, launches := t.launches, tlb := t.tlb, tables := t.tables, heat := t.heat, samples := t.samples
          free := t.free }
        (n < l.depTgt → ∃ t, looks t ∧ t.queues = s.queues ∧ t.launches = s.launches) ∧
        (l.depTgt ≤ n → ∃ t c known, looks t ∧ t.queueOf a.who = { x with eligible := true, age := 0 } ∧ only t ∧
          (∀ j, t.launchOf j = if j = k then some { l with dep := c, known := known } else s.launchOf j) ∧
          (s.releases = [] → c = none ∧ known = l.known) ∧
          ∀ st kn past, s.releases = [⟨pa, 8, some st, kn, past⟩] → known = l.known.join (Known.join [] kn) ∧
            let h := s.htsOf (homeId pa)
            c = some (if 2 ^ 14 < (h - st).toNat ∧ (h - st).toNat < 2 ^ 15 then h else st))) ∧
    ((∃ h ∈ s.heads, h.q = a.who) →
      ∃ t, exec .priorityAging s = .next t ∧ t = { s with queues := t.queues } ∧
        t.queueOf a.who = { x with age := min 7 (x.age + 1) } ∧ only t) ∧
    (∀ h w k l, s.choose = some (h, w) → (s.queueOf h.q).launch = some k → s.launchOf k = some l →
      ∃ t gs, exec .serveQueue s = .next t ∧ t.gangs = s.gangs ++ gs ∧ gs.length = w.length ∧
        (∀ i < w.length, ∃ g, gs[i]? = some g ∧ some g.hearth = w[i]? ∧ g.gindex = l.admitted + i ∧ g.launch = k ∧ g.asid = l.asid ∧
          g.phase = .resident ∧ g.threads = l.threads ∧ g.lanes = l.lanes ∧ g.tiles = l.tiles ∧ g.tileMem = [] ∧ g.owners = [] ∧
          g.buffers = [] ∧ g.stage = g.gindex % l.stages ∧
          let c := g.gindex / l.stages
          g.coord = (c % l.gx, c / l.gx % l.gy, c / (l.gx * l.gy))) ∧
        (∀ u ∈ t.threads, u ∈ s.threads ∨ u.phase = .running ∧ u.pc = BitVec.ofNat 64 l.entry ∧ u.asid = l.asid ∧ u.grant = l.lanes ∧
          u.sregs = Thread.blank.sregs.set 1 (BitVec.ofNat 64 l.args) ∧ u.status = Thread.blank.status ∧
          ∃ g ∈ gs, g.gid = u.gang ∧ g.hearth = u.hearth ∧ g.coord = u.coord ∧ g.stage = u.stage ∧ u.attached = 1#4 <<< stackOf u.hearth) ∧
        (l.admitted + w.length < l.total → t.launchOf k = some { l with admitted := l.admitted + w.length } ∧
          t.queueOf h.q = { s.queueOf h.q with age := 0 } ∧ assoc t.served h.prio = some h.q)) ∧
    (∀ g, s.gangOf a.who = some g → g.phase = .resident → (∀ u ∈ s.gangThreads g.gid, u.phase = .ended) →
      s.gangOps g.gid = [] →
        ∃ t, exec .gangEnd s = .next t ∧ t.gangOf g.gid = none ∧ (∀ k, k ≠ g.gid → t.gangOf k = s.gangOf k) ∧
          t.gangThreads g.gid = [] ∧ ∀ l, s.launchOf g.launch = some l → l.ended + 1 < l.total → g.fault = none →
            t.launchOf g.launch = some { l with
              ended := l.ended + 1, halted := l.halted + (if ∀ u ∈ s.gangThreads g.gid, u.halted = true then 1 else 0)
              done := l.done.join (s.gangKnown g.gid) })

/-- R135, R137, R138, R394, R422: DAMPER_WINDOW_END counts the window, adds each hearth's energy to its EMETER, steps each hearth's
clock down where the package is above the budget in force and the hearth above its share, up by one where the package is below nine
tenths of it, and takes DBUDGET as the budget of the next window.  MIGRATION_LAPSE withdraws a request that has stood 8 windows.
GANG_RESUME queues a saved gang whose header matches, and refuses any other.  GANG_READMISSION puts the chosen gang on its new hearth,
each saved thread at its RPC at supervisor level with INH set, its area in s1 and the gang's in s2. (How an event's argument carries the window's energy
is the model's: log entry 14; EMETER at the window's end: 81; the code 17 that a lapse withdraws: 61; the refused header: 43.) -/
def Obligations.DamperAndReadmission : Prop :=
  ∀ s : State, s.Plain →
    let a := s.arg
    let v := a.value.toNat
    let area := v / 65536 * 65536
    (a.flags = [] → ∃ t, exec .damperWindowEnd s = .next t ∧ t.ewin = s.ewin + 1 ∧ t.budget = s.bar0.dbudget.toNat ∧
      (∀ k : Fin 128, t.emeter[k] = s.emeter[k] + BitVec.ofNat 64 (a.nat k)) ∧
      (∀ k : Fin 128,
        let c := s.clkstep[k]
        t.clkstep[k] =
          if s.budgetBelow 1 1 a.num = true then (if s.budgetBelow 1 128 (a.nat k) = true ∧ c.toNat < 5 then c + 1 else c)
          else if s.budgetAbove 9 10 a.num = true ∧ c ≠ 0 then c - 1 else c) ∧
      t = { s with
        ewin := t.ewin, budget := t.budget, emeter := t.emeter, clkstep := t.clkstep, lastMeters := t.lastMeters
        hotWindows := t.hotWindows }) ∧
    (∀ g w, s.gangOf a.who = some g → g.migrate = some w → g.phase = .resident → w + 8 ≤ s.ewin.toNat →
      ∃ t, exec .migrationLapse s = .next t ∧ t.gangOf a.who = some { g with migrate := none } ∧
        OnThreads { s with gangs := t.gangs } t (fun u => u.gang = a.who ∧ u.pend17 = some 2) (fun u => { u with pend17 := none })) ∧
    (s.bar0.ready = true → v < 2 ^ 56 → v / 1024 % 64 = 0 →
      let refused := ∃ t, exec .gangResume s = .next t ∧ t.reports = s.reports + 1 ∧ t.gangs = s.gangs
      (s.tlb = [] → s.TablesCurrent (v % 1024) area → (∃ e, s.walk (v % 1024) area = .error e) → refused) ∧
      ∀ f pa, UncachedUnit s (v % 1024) false .load area 64 f pa → UncachedUnit s (v % 1024) false .load (area + 64) 64 f (pa + 64) →
        let field := fun (o n : Nat) => Memory.num s.mem (pa + o) n
        let find := s.gangs.find? (fun g =>
          decide (g.phase = .saved) && decide (g.launch = field 0x10 8) && decide (g.gindex = field 0x20 8))
        let lanes := field 0xC 1
        let matches' := fun (l : Launch) => field 0 8 = 0x09500001 ∧ field 0x18 8 = l.linfo ∧ lanes ∈ [16, 32, 64, 128]
        (∀ g l, find = some g → s.launchOf g.launch = some l → matches' l → s.gangOf g.gid = some g →
          ∃ t, exec .gangResume s = .next t ∧ t.reports = s.reports ∧ (∀ k, k ≠ g.gid → t.gangOf k = s.gangOf k) ∧
            t.gangOf g.gid = some { g with
              phase := .readmit, lanes := lanes, area := some (BitVec.ofNat 64 area)
              tareas := (List.range 8).map (fun k => (k, BitVec.ofNat 64 (field (0x40 + 8 * k) 8))) }) ∧
        ((∀ g l, find = some g → s.launchOf g.launch = some l → ¬ matches' l) → refused)) ∧
    (∀ h w g l (pa : Nat → Nat), s.choose = some (h, [w]) → resumeBase ≤ h.q → s.gangOf (h.q - resumeBase) = some g →
      s.launchOf g.launch = some l → l.cohort = false →
      (∀ u ∈ s.gangThreads g.gid, u.phase = .saved →
        ∃ f, UncachedUnit s g.asid.toNat false .load (((assoc g.tareas u.index).getD 0).toNat + 0x10) 8 f (pa u.index)) →
        ∃ t, exec .gangReadmission s = .next t ∧ t.mem = s.mem ∧
          (∃ g', t.gangOf g.gid = some g' ∧ g' = { g with
            hearth := w, phase := .resident, since := g'.since, reserve := s.energy l.eclass, restored := false, saving := false
            migrate := none }) ∧
          (∀ k, k ≠ g.gid → t.gangOf k = s.gangOf k) ∧ t.threads.length = s.threads.length ∧
          (∀ u ∈ s.threads, u.gang ≠ g.gid → u ∈ t.threads) ∧
          ∀ u ∈ s.threads, u.gang = g.gid → u.phase = .saved →
            ∃ u' ∈ t.threads, u'.tid = u.tid ∧ u'.index = u.index ∧ u'.hearth = w ∧ u'.phase = .running ∧ u'.grant = g.lanes ∧
              u'.attached = 1#4 <<< stackOf w ∧ u'.pc = BitVec.ofNat 64 (Memory.num s.mem (pa u.index) 8) ∧
              u'.sregs[1] = (assoc g.tareas u.index).getD 0 ∧ u'.sregs[2] = g.area.getD 0 ∧
              u'.status = { Thread.blank.status with priv := true, ae := false, inh := true })

/-- The bytes of `bs` stand in memory of `t` from `a` on, and every other byte reads as in `s`. -/
def Sys2Proof.Machine.Put (s t : State) (a : Nat) (bs : List Byte) : Prop :=
  ∀ x, Memory.read t.mem x = if a ≤ x ∧ x < a + bs.length then bs.getD (x - a) 0 else Memory.read s.mem x

/-- R217, R218, R222, R225, R228, R290, R382, R409, R412: what the directory, the leases, the host and other devices do to the copies and to
memory.  A sweep expires the stamps of its home more than 2^14 behind; a drop forgets a leased copy; an eviction writes a copy's dirty
bytes home and forgets it, a retained one only where its hearth holds no other (R29); a half that the host takes is written home and leaves the D or S copy; a host store, or another device's store or
atomic add, writes its bytes and no other; a retry gives its thread the next turn; a served reservation is granted, and no conflicting range
of another hearth is left, but not while one cannot be recalled (log entry 15); a page's bias becomes the host's or the device's in its leaf,
the host's not while a dirty byte of the page cannot be written back. (How an event's argument names what it does is the model's:
log entry 14; the half that a host takes, and the translations that a flip forgets: entry 63.) -/
def Obligations.CopiesAndTheHost : Prop :=
  ∀ s : State, s.MemoryForm → s.Plain →
    let a := s.arg
    let leased := ∀ l ∈ s.l1, l.treat = 1
    (∃ t, exec .homeExpireSweep s = .next t ∧ t = { s with stamps := t.stamps } ∧ t.stamps.length = s.stamps.length ∧
      ∀ k, ∀ h : k < s.stamps.length, t.stamps[k]? =
        let l := s.stamps[k]
        let h := s.htsOf a.who
        some (if homeId l.pa = a.who ∧ 2 ^ 14 < (h - l.rts).toNat then { l with wts := h, rts := h } else l)) ∧
    (∃ t, exec .l1LeaseDrop s = .next t ∧ t = { s with l1 := t.l1 } ∧
      ∀ l, l ∈ t.l1 ↔ l ∈ s.l1 ∧ ¬ (l.hearth = a.who ∧ l.treat = 1 ∧ l.id = a.line)) ∧
    exec .rangeRequestRetry s = .next { s with moving := rangesOf a.nums.length a.nums, turns := a.who :: s.turns } ∧
    exec .compressedBlockRetry s = .next { s with czPending := pairsOf a.nums.length a.nums, turns := a.who :: s.turns } ∧
    (∀ q, s.requests.find? (fun q => decide (q.thread = a.who) && q.reserved) = some q →
      (∀ m ∈ s.moving, m.2.overlaps q.range = false) →
        (s.recallStuck q.range.norm q.hearth q.excl = true →
          exec .reservationServe s = .next (s.recall q.range.norm q.hearth q.excl) ∧
          ∃ e ∈ (s.recall q.range.norm q.hearth q.excl).dir, e.hearth ≠ q.hearth ∧ e.range.overlaps q.range = true ∧
            (q.excl = true ∨ e.excl = true)) ∧
        (s.recallStuck q.range.norm q.hearth q.excl = false → ∃ t, exec .reservationServe s = .next t ∧ t.turns = a.who :: s.turns ∧
          (∀ r, r ∈ t.requests ↔ r ∈ s.requests ∧ r.thread ≠ a.who) ∧
          (∃ e ∈ t.dir, e.home = q.home ∧ e.hearth = q.hearth ∧ e.range = q.range.norm ∧ (q.excl = true → e.excl = true)) ∧
          (∀ e ∈ t.dir, e.hearth ≠ q.hearth → e.range.overlaps q.range = true → q.excl = false ∧ e.excl = false) ∧
          ((∀ l ∈ s.l1, l.treat ≠ 0) → t = { s with dir := t.dir, requests := t.requests, turns := a.who :: s.turns, l2 := t.l2 }))) ∧
    (let last := ∀ l ∈ s.l1, l.hearth = a.who → l.retain = true
     (∀ l ∈ s.l1, l.hearth = a.who → l.id = a.line → l.dirty = 0) →
      ∃ t, exec .l1Eviction s = .next t ∧ t = { s with l1 := t.l1, dir := t.dir, l1bad := t.l1bad } ∧
        ((∀ l ∈ s.l1, l.hearth = a.who → l.id = a.line → l.retain = false ∨ last) →
          ∀ l, l ∈ t.l1 ↔ l ∈ s.l1 ∧ ¬ (l.hearth = a.who ∧ l.id = a.line)) ∧
        ((∀ l ∈ s.l1, l.hearth = a.who → l.id = a.line → l.retain = true) → ¬ last → t = s)) ∧
    (∀ l, s.l1 = [l] → l.slot = 0 → l.col = false → l.gone = 0 → l.pa + 128 ≤ bondedEnd →
      (l.hearth = a.who → l.id = a.line → ∃ t, exec .l1Eviction s = .next t ∧ t.l1 = [] ∧
        ∀ x, Memory.read t.mem x =
          if l.pa ≤ x ∧ x < l.pa + 128 ∧ l.dirty.getLsbD (x - l.pa) = true then l.byte (x - l.pa) else Memory.read s.mem x) ∧
      (l.treat ≠ 1 → ∀ h < 2, l.pa % 128 = 0 → a.addr / 64 * 64 = l.pa + 64 * h →
        ∃ t l', exec .hostOwnershipTake s = .next t ∧ t.l1 = [l'] ∧ l'.id = l.id ∧ l'.gone = (1#2 <<< h) ∧
          (∀ i < 128, l'.dirty.getLsbD i = (l.dirty.getLsbD i && decide (i / 64 ≠ h))) ∧
          (∀ e ∈ t.dir, e.range.overlaps ⟨l.pa + 64 * h, 1, 1, 64⟩ = false) ∧
          ∀ x, Memory.read t.mem x = if l.pa + 64 * h ≤ x ∧ x < l.pa + 64 * h + 64 ∧ l.dirty.getLsbD (x - l.pa) = true
            then l.byte (x - l.pa) else Memory.read s.mem x)) ∧
    (leased → a.bytes ≠ [] → a.addr + a.bytes.length ≤ bondedEnd →
      ∃ t, exec .hostStore s = .next t ∧ Put s t a.addr a.bytes ∧ t.thr = s.thr ∧ t.others = s.others ∧ t.gangs = s.gangs ∧
        t.l1.map (fun l => { l with missed := [] }) = s.l1.map (fun l => { l with missed := [] })) ∧
    (∀ n, a.nums = [3, 0, 0, n] → 0 < n → a.addr + n ≤ bondedEnd →
      (a.num = 0 → ∃ t, exec .remoteRequest s = .next t ∧ t = { s with heat := t.heat, samples := t.samples, free := t.free }) ∧
      (a.num = 1 → a.bytes.length = n → ∃ t, exec .remoteRequest s = .next t ∧ Put s t a.addr a.bytes ∧ t.thr = s.thr ∧ t.gangs = s.gangs) ∧
      (a.num = 2 → a.bytes.length = n → ∃ t, exec .remoteRequest s = .next t ∧
        Put s t a.addr (leBytes n ((Memory.num s.mem a.addr n + leNat a.bytes) % 2 ^ (8 * n))) ∧ t.thr = s.thr ∧ t.gangs = s.gangs)) ∧
    (∀ root v l p, s.asidEntry a.who = some (root, v) → s.walk a.who a.addr = .ok l → leafAddr s.view a.addr 5 0 root = some p →
      p + 16 ≤ bondedEnd →
      (l.bias = false → l.frame < bondedEnd → l.cmp = false → (∀ k ∈ s.l1, k.gone = 0) →
        (s.l1.map (fun k => (k.hearth, k.slot, k.id))).Nodup →
        ∃ t, exec .biasFlipToHost s = .next t ∧ t.physNum (p + 8) 8 = (l.w1 ||| 4).toNat ∧ t.tables = s.tables ∧
          ∀ e, e ∈ t.tlb ↔ e ∈ s.tlb ∧ (⟨e.base, e.size, e.level, e.w0, e.w1⟩ : Leaf).frame ≠ l.frame) ∧
      (let u := s.cleanPage l
       l.bias = false → l.frame < bondedEnd → (∃ k ∈ u.l1, k.dirtyNames (u.inPage l) ≠ []) →
        exec .biasFlipToHost s = .next { u with agenda := u.agenda ++ [(.biasFlipToHost, a)] }) ∧
      (l.bias = true → leased → ∃ t, exec .biasFlipToDevice s = .next t ∧ Put s t (p + 8) (leBytes 8 (l.w1 &&& ~~~4).toNat) ∧
        t.thr = s.thr ∧ t.others = s.others ∧ t.gangs = s.gangs ∧ t.tables = s.tables ∧
        ∀ e, e ∈ t.tlb ↔ e ∈ s.tlb ∧ (⟨e.base, e.size, e.level, e.w0, e.w1⟩ : Leaf).frame ≠ l.frame))

/-! ## Engine events -/

/-- R276 to R286, R362, R363, R366, R383, R421: what the events of engine operations do.  A copy of bytes from memory to memory writes its
element; a fired operation that names no buffer runs, and one that draws from a buffer takes its next full slot, or waits for one; a finished
operation adds its value to its counter; a parked one has a record in the fault ring, runs again by a replay, and by an abort leaves and
ends its gang's threads with CAUSE 19, while a parked indexed access is forgotten by its replay, so that its word makes it again; a running
one of a gang that saves is suspended. (That each event is one step, and what its argument names, is the model's: log entries 14 and 38; the translation that
a replay forgets: 60; the indexed access that it forgets: 71.) -/
def Obligations.EngineEvents : Prop :=
  ∀ (s : State) (o : EngineOp), s.MemoryForm → s.Plain →
    let a := s.arg
    let v := a.value.toNat
    let front := (∃ q, o.kind = .depRead q) ∨ (∃ l, o.kind = .statWrite l) ∨ (∃ l, o.kind = .doneAdd l)
    let indexed := ∃ k, o.kind = .indexed k
    (s.opOf a.who = some o →
      (∀ seq d c x, o.kind = .flue seq d c x → s.mayAct o (s.oldestFlue o seq) = true →
        (d.ssp ≠ 2 → d.dsp ≠ 2 →
          ∃ t, exec .engineOpFire s = .next t ∧ t = { s with ops := t.ops } ∧ t.opOf a.who = some { o with status := .running }) ∧
        (∀ g b, d.ssp = 2 → d.dsp ≠ 2 → o.passes = [] → o.copy < d.copies → (∀ p ∈ s.ops, p.gang = o.gang → o.id ≤ p.id) →
          s.gangOf o.gang = some g → g.buf (d.bufNo false) = some b →
          ∃ t, exec .engineOpFire s = .next t ∧ t = { s with ops := t.ops, gangs := t.gangs } ∧
            (∀ k, k ≠ o.gang → t.gangOf k = s.gangOf k) ∧
            (b.filled = 0 → t.gangs = s.gangs ∧ t.opOf a.who = some { o with status := .running }) ∧
            (0 < b.filled → t.opOf a.who = some { o with status := .running, passes := [(o.copy / d.count 0, some b.cidx, none)] } ∧
              ∃ g', t.gangOf o.gang = some g' ∧ g' = { g with buffers := g'.buffers } ∧ ∀ j, g'.buf j = if j = d.bufNo false
                then some { b with
                  filled := b.filled - 1, cidx := (b.cidx + 1) % b.slots
                  held := b.held ++ [⟨b.cidx % b.slots, false, some o.id, false⟩] }
                else g.buf j)) ∧
        (d.ssp = 0 → d.dsp = 0 → d.xf = 0 → d.blk = none → d.copies = 1 → o.copy = 0 → o.piece = 0 → a.num = 0 → o.passes = [] →
          o.ahead = [] → o.olds = [] → ∀ f pa g qa, UncachedUnit s o.asid.toNat o.user .load (d.base false) d.size f pa →
            UncachedUnit s o.asid.toNat o.user .store (d.base true) d.size g qa →
              ∃ t p, exec .flueCopy s = .next t ∧ Put s t qa (Memory.readN s.mem pa d.size) ∧ t.opOf a.who = some p ∧
                p.copy = 1 ∧ p.workDone = true ∧ t.thr = s.thr ∧ t.others = s.others ∧ t.gangs = s.gangs)) ∧
      (∀ cause addr write tile, o.status = .parked cause addr write tile false →
        (∀ p ∈ s.ops, p.source = o.source → o.parkSeq ≤ p.parkSeq) →
        let b := s.bar0
        let at' := b.frbase.toNat + 32 * (b.frtail.toNat % b.frsize.toNat)
        64 ≤ b.frsize.toNat → b.frsize.toNat ≤ 2 ^ 20 → (b.frtail - b.frhead).toNat ≠ b.frsize.toNat → at' + 32 ≤ bondedEnd →
          ∃ t, exec .faultRecordWrite s = .next t ∧ t.bar0 = { b with frtail := b.frtail + 1 } ∧
            t.opOf a.who = some { o with status := .parked cause addr write tile true } ∧
            Memory.num t.mem at' 8 = addr.toNat ∧ Memory.num t.mem (at' + 8) 2 = o.asid.toNat ∧
            Memory.num t.mem (at' + 10) 1 = cause % 256 ∧
            Memory.num t.mem (at' + 11) 1 = (if write then 1 else 0) + (if tile then 2 else 0) ∧
            Memory.num t.mem (at' + 12) 2 = o.source % 2 ^ 16 ∧ Memory.num t.mem (at' + 14) 2 = 0 ∧
            Memory.num t.mem (at' + 16) 8 = o.id % 2 ^ 64 ∧ Memory.num t.mem (at' + 24) 8 = o.pc.toNat) ∧
      (o.workDone = true → o.status = .running → o.passes = [] → ¬ front → ¬ indexed → counterAddr o.kind.completion.1 = 0 →
        exec .engineCompletionAdd s = .next (s.dropOp a.who)) ∧
      (o.workDone = true → o.status = .running → o.passes = [] → ¬ front → ¬ indexed → counterAddr o.kind.completion.1 ≠ 0 →
        ∀ f pa, UncachedUnit s o.asid.toNat o.user .atomic (counterAddr o.kind.completion.1) 8 f pa →
          ∃ t, exec .engineCompletionAdd s = .next t ∧ t.opOf a.who = none ∧ t.thr = s.thr ∧ t.others = s.others ∧ t.gangs = s.gangs ∧
            Put s t pa (leBytes 8 ((Memory.num s.mem pa 8 + o.kind.completion.2.toNat) % 2 ^ 64))) ∧
      (∀ g, s.gangOf o.gang = some g → g.saving = true → o.status = .running →
        ∃ t, exec .engineSuspend s = .next t ∧ t = { s with ops := t.ops } ∧ t.opOf a.who = some { o with status := .suspended })) ∧
    (s.bar0.ready = true → ∀ cause addr write tile r, o.status = .parked cause addr write tile r → ¬ front →
      (v < 2 ^ 63 → s.opOf v = some o → ∃ t, exec .engineReplay s = .next t ∧
        t = { s with ops := t.ops, tlb := t.tlb, tables := t.tables } ∧
        (∀ e, e ∈ t.tlb ↔ e ∈ s.tlb ∧ ¬ (e.asid = o.asid ∧ e.base ≤ addr.toNat ∧ addr.toNat < e.base + e.size)) ∧
        (∀ e, e ∈ t.tables ↔ e ∈ s.tables ∧ ¬ (e.asid = o.asid ∧ e.base ≤ addr.toNat ∧ addr.toNat < e.base + levelSpan e.level)) ∧
        (¬ indexed → t.opOf v = some { o with status := .running }) ∧ (indexed → t.opOf v = none)) ∧
      (2 ^ 63 ≤ v → s.opOf (v - 2 ^ 63) = some o → ∃ t, exec .engineAbort s = .next t ∧ t.opOf (v - 2 ^ 63) = none ∧ t.mem = s.mem ∧
        OnThreads { s with ops := t.ops, gangs := t.gangs } t
          (fun u => u.gang = o.gang ∧ (u.live = true ∨ u.phase = .saved))
          (fun u => { u with cause := 19, tval := BitVec.ofNat 64 (v - 2 ^ 63), phase := .ended, pfx := none })))

/-- The `n` bytes at `va` stand at `pa` of memory, and an engine of ASID `asid` that passes the L1s by may use each of them so. -/
def Sys2Proof.Machine.UnitBytes (s : State) (o : EngineOp) (u : Use) (va n pa : Nat) : Prop :=
  ∀ k < n, ∃ f, UncachedUnit s o.asid.toNat o.user u (va + k) 1 f (pa + k)

/-- The bytes at the addresses `xs` stand apart in memory, at `pa`, and apart from the tables that translate them, and an operation may write
them. -/
def Sys2Proof.Machine.UnitArea (s : State) (o : EngineOp) (xs : List Nat) (pa : Nat → Nat) : Prop :=
  (xs.map pa).Nodup ∧ ∀ x ∈ xs, (∃ f, UncachedUnit s o.asid.toNat o.user .store x 1 f (pa x)) ∧
    s.TablesApart o.asid.toNat x (fun z => z ∈ xs.map pa)

/-- Memory of `t` holds the bytes `cs` where `pa` says, and every other byte of `s`. -/
def Sys2Proof.Machine.Laid (s t : State) (pa : Nat → Nat) (cs : List (Nat × Byte)) : Prop :=
  (∀ c ∈ cs, Memory.read t.mem (pa c.1) = c.2) ∧
  ∀ z, (∀ c ∈ cs, z ≠ pa c.1) → Memory.read t.mem z = Memory.read s.mem z

/-- Of tree `t`, node `n` with its envelope lies in uncached memory at `np` and `ep`, as the operation reads it. -/
def Sys2Proof.Machine.NodeBytes (s : State) (o : EngineOp) (t : Tree) (n : Nat) (np ep : Nat) : Prop :=
  UnitBytes s o .load (t.nodeAt n) 64 np ∧
  UnitBytes s o .load (t.nodeAt n + 0x40) (4 * min 240 (Memory.num s.mem (np + 4) 4)) (np + 0x40) ∧
  UnitBytes s o .load (t.envAt n) (16 + 4 * t.d + 4 * t.dv) ep

/-- The slots of the node at `np`, and the envelope at `ep` of a tree of dimensions `d` and `dv`. -/
def Sys2Proof.Machine.slotsAt (s : State) (np : Nat) : List Nat :=
  (List.range (min 240 (Memory.num s.mem (np + 4) 4))).map (fun k => Memory.num s.mem (np + 0x40 + 4 * k) 4)
def Sys2Proof.Machine.wordsAt (s : State) (n p : Nat) : List Nat := (List.range n).map (fun k => Memory.num s.mem (p + 4 * k) 4)
def Sys2Proof.Machine.envAt (s : State) (t : Tree) (ep : Nat) : Env :=
  { cnt := Memory.num s.mem ep 8, rad := Memory.num s.mem (ep + 8) 4, c := wordsAt s t.d (ep + 16)
    v := wordsAt s t.dv (ep + 16 + 4 * t.d) }

/-- R293, R309 to R319, R411: the walker and the collective engine on uncached memory.  A walk writes nothing for an empty envelope, a type 1
entry for a node whose envelope it opens to, a type 2 entry for a leaf it does not, and goes into an interior node's children in order;
without a node left it writes the END entry and leaves.  An append plans one update of a root that is a leaf with room, its grown envelope
and its key last, and none where the tree is FULL; an update is then written whole.  A refit of a tree of one leaf rewrites it as node 0
with the envelope of its keys, and the descriptor.  A collective operation whose two local participants have started gives each the same
result: their bytes in member order for an all-gather, the elements' sums, or the lesser or greater integers, for a reduction; each then writes
it at its destination.  (How an append and a refit lay out what they write, the mean of no keys and the radius with a NaN are log entries 35 and 37; a node retired meanwhile
is interior: 56.) -/
def Obligations.TreeAndCollectiveEvents : Prop :=
  ∀ (s : State) (o : EngineOp), s.MemoryForm → s.Plain → s.opOf s.arg.who = some o →
    let ran := fun (t : State) => t = { s with
      ops := t.ops, gangs := t.gangs, watches := t.watches, tlb := t.tlb, tables := t.tables, heat := t.heat, samples := t.samples, free := t.free }
    (∀ slot buf desc q theta dot g b m c k tp, o.kind = .walk slot buf desc q theta dot → s.walkerTurn o = true →
      s.gangOf o.gang = some g → g.buf buf = some b → o.passes = [(m, c, some k)] → UnitBytes s o .load desc 64 tp →
      let tr := treeOf (Memory.readN s.mem tp 64)
      let off := (b.tile0 + k * b.tps) * 4096 + 16 * o.fill
      let written := fun (g' : Gang) (bs : List Byte) => ∀ x, Memory.read g'.tileMem x =
        if off ≤ x ∧ x < off + bs.length then bs.getD (x - off) 0 else Memory.read g.tileMem x
      let gives := fun (bs : List Byte) (kids : List (Nat × Nat)) => ∃ t p g', exec .walk s = .next t ∧ ran t ∧
        t.opOf s.arg.who = some p ∧ p.stack = kids ∧ p.entries = o.entries + bs.length / 16 ∧ t.gangOf o.gang = some g' ∧
        (∀ h, h ≠ o.gang → t.gangOf h = s.gangOf h) ∧ written g' bs
      off + 16 ≤ g.tiles * 4096 → off / 4096 ∈ g.owners →
        (o.piece = 0 → o.stack = [] → gives [] [(tr.root, 0)]) ∧
        (o.piece ≠ 0 → o.stack = [] → ∃ u g', exec .walk s = .next u ∧ ran u ∧ u.opOf s.arg.who = none ∧ u.gangOf o.gang = some g' ∧
          (∀ h, h ≠ o.gang → u.gangOf h = s.gangOf h) ∧ written g' (entryBytes 0 o.entries 0 0)) ∧
        (∀ n z rest, o.piece ≠ 0 → o.stack = (n, z) :: rest → s.nodeLocked o.asid desc n = true → exec .walk s = .next s) ∧
        (∀ n z rest np ep, o.piece ≠ 0 → o.stack = (n, z) :: rest → s.nodeLocked o.asid desc n = false → NodeBytes s o tr n np ep →
            let e := envAt s tr ep
            let kind := Memory.num s.mem np 4
            let count := Memory.num s.mem (np + 4) 4
            let hit := opens dot theta.toNat (q.map BitVec.toNat) e
            (e.cnt = 0 → gives [] rest) ∧
            (e.cnt ≠ 0 → hit = true → gives (entryBytes 1 n 0 e.cnt) rest) ∧
            (e.cnt ≠ 0 → hit = false → kind = 1 ∨ (kind = 3 ∧ n ∈ o.ahead) → gives [] ((slotsAt s np).map (fun k => (k, 0)) ++ rest)) ∧
            (e.cnt ≠ 0 → hit = false → kind = 2 → gives (if 0 < count then entryBytes 2 n 0 count else []) rest))) ∧
    (∀ slot desc k c, o.kind = .append slot desc k c → s.walkerTurn o = true →
      (∀ tp, o.piece = 0 → UnitBytes s o .load desc 64 tp →
        let tr := treeOf (Memory.readN s.mem tp 64)
        let plans := fun (st : List (Nat × Nat)) (cells : List (Nat × Byte)) => ∃ u p, exec .append s = .next u ∧ ran u ∧ u.gangs = s.gangs ∧
          u.opOf s.arg.who = some p ∧ p.piece = 1 ∧ p.stack = st ∧ p.olds = cells ∧ p.ahead = []
        (tr.flags % 2 = 1 → plans [] []) ∧
        (∀ np ep kp vp, tr.flags % 2 = 0 → 0 < tr.nodes → NodeBytes s o tr tr.root np ep →
          UnitBytes s o .load (tr.keyBase + 4 * tr.d * k) (4 * tr.d) kp → UnitBytes s o .load (tr.valBase + 4 * tr.dv * k) (4 * tr.dv) vp →
          Memory.num s.mem np 4 ≠ 1 → Memory.num s.mem (np + 4) 4 < tr.leafCap →
            let up : Update := ⟨tr.root, envWrites tr tr.root
              ((envAt s tr ep).add (wordsAt s tr.d kp) (wordsAt s tr.dv vp)) (some (slotsAt s np ++ [k]))⟩
            plans [(tr.root, up.cells.length)] up.cells)) ∧
      (∀ n z rest pa, o.piece ≠ 0 → o.stack = (n, z) :: rest → o.ahead = [] → UnitArea s o ((o.olds.take z).map (·.1)) pa →
        ∃ t, exec .append s = .next t ∧ Laid s t pa (o.olds.take z) ∧ t.thr = s.thr ∧ t.others = s.others ∧ t.gangs = s.gangs ∧
          t.opOf s.arg.who = some { o with status := .running, stack := rest, olds := o.olds.drop z })) ∧
    (∀ slot desc c tp, o.kind = .refit slot desc c → s.walkerTurn o = true → o.piece ≠ 1 → UnitBytes s o .load desc 64 tp →
      let tr := treeOf (Memory.readN s.mem tp 64)
      ∀ np ep (kp vp pa : Nat → Nat), 0 < tr.nodes → NodeBytes s o tr tr.root np ep → Memory.num s.mem np 4 ≠ 1 →
        (∀ k ∈ slotsAt s np, UnitBytes s o .load (tr.keyBase + 4 * tr.d * k) (4 * tr.d) (kp k) ∧
          UnitBytes s o .load (tr.valBase + 4 * tr.dv * k) (4 * tr.dv) (vp k)) →
        let slots := slotsAt s np
        let keys := slots.map (fun k => (⟨wordsAt s tr.d (kp k), wordsAt s tr.dv (vp k)⟩ : KeyVal))
        let cells := fun (draw : Nat) => names (tr.nodeAt 0) (⟨2, slots.length, 0xFFFFFFFF, slots⟩ : Node).bytes ++
          names (tr.envAt 0) (envOf tr.d tr.dv keys draw).bytes ++ names (desc + 0xC) (leBytes 4 0) ++
          names (desc + 0x30) (leBytes 4 1 ++ leBytes 4 0) ++ names (desc + 0x38) (leBytes 8 0)
        UnitArea s o ((cells 0).map (·.1)) pa →
          ∃ t draw, exec .treeRefit s = .next t ∧ Laid s t pa (cells draw) ∧ t.thr = s.thr ∧ t.others = s.others ∧ t.gangs = s.gangs ∧
            t.opOf s.arg.who = some { o with status := .running, piece := 1 }) ∧
    (∀ stack d n, o.kind = .collective stack d n → s.collTurn o = true →
      let c := collOf d
      (o.piece = 1 → o.olds = [] → ∃ t, exec .collectiveOperation s = .next t ∧ t = { s with ops := t.ops } ∧
        t.opOf s.arg.who = some { o with piece := 2 }) ∧
      (∀ f pa, o.piece = 1 → UncachedUnit s o.asid.toNat o.user .store c.dst o.olds.length f pa →
        ∃ t, exec .collectiveOperation s = .next t ∧ Put s t pa (o.olds.map (·.2)) ∧ t.thr = s.thr ∧ t.others = s.others ∧
          t.gangs = s.gangs ∧ t.opOf s.arg.who = some { o with olds := [], piece := 2 }) ∧
      (∀ k1 k2 o2 st2 d2 p1 p2, o.piece = 0 → s.arg.flags = [] → k1 < 4 → k2 < 4 → k1 ≠ k2 →
        c.members = [4 * s.devnum.toNat + k1, 4 * s.devnum.toNat + k2] → s.matched k1 c.group n = some o → s.matched k2 c.group n = some o2 →
        o2.kind = .collective st2 d2 n → c.agrees (collOf d2) = true → s.collTurn o2 = true → s.opOf o2.id = some o2 → o2.id ≠ o.id →
        UnitBytes s o .load c.src c.bytes p1 → UnitBytes s o2 .load (collOf d2).src c.bytes p2 →
          let z := typeWidth c.ty / 8
          let x := fun (k : Nat) => Memory.num s.mem (p1 + z * k) z
          let y := fun (k : Nat) => Memory.num s.mem (p2 + z * k) z
          ∃ t p, exec .collectiveOperation s = .next t ∧ ran t ∧ t.gangs = s.gangs ∧
            t.opOf s.arg.who = some { o with piece := 1, status := .running, olds := p } ∧
            t.opOf o2.id = some { o2 with piece := 1, status := .running, olds := p } ∧
            (c.op = 3 → p.map (·.2) = Memory.readN s.mem p1 c.bytes ++ Memory.readN s.mem p2 c.bytes) ∧ (c.op = 4 → p = []) ∧
            (c.op ≤ 2 → 0 < z → c.bytes % z = 0 → p.length = c.bytes ∧ ∀ k < c.bytes / z,
              let r := fieldAt (p.map (·.2)) (z * k) z
              (c.op = 0 → isFp c.ty = false → r = (x k + y k) % 2 ^ (8 * z)) ∧
              (c.op = 0 → isFp c.ty = true →
                r = ((fmtOf c.ty).add (rne false) ((fmtOf c.ty).val (x k)) ((fmtOf c.ty).val (y k))).1 % 2 ^ (8 * z)) ∧
              (c.op = 1 → isFp c.ty = false → r = if intOf c.ty (y k) < intOf c.ty (x k) then y k else x k) ∧
              (c.op = 2 → isFp c.ty = false → r = if intOf c.ty (x k) < intOf c.ty (y k) then y k else x k))))

/-! ## The device -/

/-- R383 to R385, R413, R418 to R426: a link's first failure begins a count, each failed replay in a row adds to it, and each is logged; its
retraining takes the count back, and where it fails the stores lost with it are logged too; a write of BAR0
takes the register where its limits allow the value and else sets WERR; DEVSTAT and the capability list read as laid out, alone while READY is
0; a reset leaves memory and, where no step fails, the device READY with its registers at their reset values; a request of attestation is
answered with the digest and the rollback index of the firmware that runs, the device's identity and its nonce; power states, temperature
and flow follow their requests, and a temperature above 45 degrees or a lasting low flow resets; a soft error is logged, and poisons what it
hits where it cannot be corrected; extents and keys are taken.  The error ring is at its reset size here. (What an event's argument holds is the
model's: log entry 14; so are the places of the fields of a report, entry 12, of the capability records, entry 79, what a reset
keeps, entry 46, the records of a failed retraining and its lost stores, entry 52, and WERR, THERM and DEVSTAT's write, entry 65.) -/
def Obligations.DeviceEvents : Prop :=
  (∀ s : State,
    let bit := fun (c : Bool) (n : Nat) => if c then n else 0
    let b := s.bar0
    s.barRead 0 = some (bit b.ready 1 + bit (s.gangs.all (fun g => decide (g.phase ≠ .resident))) 2 + bit b.therm 4 + bit b.werr 8 +
      16 * (b.fwerr % 16)) ∧
    (∀ p ∈ ([(0, 1, 0x00802004), (1, 2, 384), (2, 3, 16), (3, 4, 8), (4, 5, 63)] : List (Nat × Nat × Nat)),
      s.barRead (0x1000 + 16 * p.1) = some (p.2.1 + 2 ^ 16 + (if p.1 = 4 then 0 else 2 ^ 32 * (0x1010 + 16 * p.1))) ∧
      s.barRead (0x1008 + 16 * p.1) = some p.2.2) ∧
    (b.ready = false → ∀ o, o ≠ 0 → ¬ (0x1000 ≤ o ∧ o < 0x1050) → s.barRead o = none) ∧
    (b.ready = true → ∀ o ∈ [0x20, 0x28, 0x200], s.barRead o = some 0)) ∧
  ∀ s : State, s.bar0.ready = true → s.bar0.ersize = 0 → s.MemoryForm → s.Plain →
    let a := s.arg
    let v := a.value.toNat
    let b := s.bar0
    let logged := fun (n : Word) => { b with erdrop := b.erdrop + n }
    let bad := fun (i : Instr) => exec i s = .next { s with bar0 := { b with werr := true } }
    let fails := (assoc s.linkFails a.who).getD 0
    (∃ t, exec .linkCrcFail s = .next t ∧
      assoc t.linkFails a.who = some (if (assoc s.linkFails a.who).isSome = true ∧ a.flag 0 = true then fails + 1 else 0) ∧
      t.bar0 = logged 1 ∧ t.thr = s.thr) ∧
    (8 ≤ fails → a.flags = [true] → ∃ t, exec .linkRetrain s = .next t ∧ assoc t.linkFails a.who = none ∧ t.bar0 = logged 1 ∧
      t.linksDown = s.linksDown) ∧
    (8 ≤ fails → a.flags = [] → ∃ t, exec .linkRetrain s = .next t ∧ t.bar0 = logged (2 + BitVec.ofNat 64 a.parts.length) ∧
      t.linksDown = s.linksDown ++ a.nums ∧ (∀ l, l ∈ t.l2 ↔ l ∈ s.l2 ∧ t.linkLost l.pa = false) ∧
      ∀ p, p ∈ t.lost ↔ p ∈ s.lost ∨ p.2 ∈ a.nums ∧ ∃ q ∈ a.parts, q.1 = p.1) ∧
    exec .devstatWrite s = .next { s with bar0 := { b with werr := b.werr && !a.value.getLsbD 3 } } ∧
    (a.who < 72 → v < 64 → v % 32 ≤ 20 → ∃ t, exec .embctlWrite s = .next t ∧ t.embctlOf a.who = a.value ∧
      assoc t.samples a.who = some 0 ∧ (∀ k, k ≠ a.who → t.embctlOf k = s.embctlOf k) ∧
      t = { s with embctl := t.embctl, samples := t.samples }) ∧
    (a.who < 72 → ¬ (v < 64 ∧ v % 32 ≤ 20) → bad .embctlWrite) ∧
    (let sets := fun (o : Nat) (ok : Prop) (c : Bar0) =>
       a.addr = o → (ok → exec .registerWrite s = .next { s with bar0 := c }) ∧ (¬ ok → bad .registerWrite)
     let ring := ∃ k, 6 ≤ k ∧ k ≤ 20 ∧ v = 2 ^ k
     let rate := 1 ≤ v ∧ v ≤ 240000
     sets 0x08 (v % 4096 = 0) { b with qtbase := a.value } ∧ sets 0x10 (v % 4096 = 0) { b with asidbase := a.value } ∧
     sets 0x18 (v % 16 = 0) { b with cgbase := a.value } ∧ sets 0x40 (v % 4096 = 0) { b with frbase := a.value } ∧
     sets 0x48 ring { b with frsize := a.value } ∧ sets 0x50 True { b with frhead := a.value } ∧
     sets 0x60 (v % 4096 = 0) { b with erbase := a.value } ∧ sets 0x68 ring { b with ersize := a.value } ∧
     sets 0x70 True { b with erhead := a.value } ∧ sets 0x90 (v % 2 ^ 21 = 0) { b with sootbase := a.value } ∧
     sets 0x98 (v % 2 ^ 21 = 0) { b with sootlo := a.value } ∧ sets 0xA0 (v % 2 ^ 21 = 0) { b with sootlen := a.value } ∧
     sets 0x100 (1000 ≤ v ∧ v ≤ 240000) { b with dbudget := a.value } ∧ sets 0x108 (v < 2 ^ 32) { b with dadmit := a.value } ∧
     (a.addr ∈ [0x58, 0x78, 0x80, 0x1000] ∨ a.addr % 8 ≠ 0 → bad .registerWrite) ∧
     sets 0x110 rate { b with dec := b.dec.set 0 a.value } ∧ sets 0x118 rate { b with dec := b.dec.set 1 a.value } ∧
     sets 0x120 rate { b with dec := b.dec.set 2 a.value } ∧ sets 0x128 rate { b with dec := b.dec.set 3 a.value }) ∧
    (a.flags = [] → s.fused ≤ a.num → ∃ t, exec .deviceReset s = .next t ∧ t.mem = s.mem ∧ t.keySlots = [] ∧
      t.devnum = a.value.setWidth 10 ∧ t.image = s.nextId ∧ t.rollback = a.num ∧ t.gangs = [] ∧ t.ops = [] ∧ t.thr = State.reset.thr ∧ t.others = [] ∧
      t.bar0 = { State.reset.bar0 with ready := true, fwerr := 0, therm := decide (350 < s.inlet) || decide (s.flow < 200) }) ∧
    (∀ k < 5, a.flags = List.replicate k false ++ [true] → s.fused ≤ a.num → ∃ t, exec .deviceReset s = .next t ∧ t.bar0.ready = false ∧
      t.bar0.fwerr = [1, 2, 2, 3, 4].getD k 0 ∧ t.devnum = (if k = 4 then a.value.setWidth 10 else s.devnum) ∧ t.rollback = s.rollback) ∧
    (a.flags = [] → a.num < s.fused → ∃ t, exec .deviceReset s = .next t ∧ t.bar0.ready = false ∧ t.bar0.fwerr = 2) ∧
    (v % 64 = 0 → exec .attestationRequest s = .next { s with attests := s.attests ++ [a.value] }) ∧
    (v % 64 ≠ 0 → bad .attestationRequest) ∧
    (∀ r rest, s.attests = r :: rest → (∀ l ∈ s.l1, l.treat = 1) → let d := Memory.num s.mem (r.toNat + 32) 8
      r.toNat + 40 ≤ bondedEnd → d + 3493 ≤ bondedEnd → ∃ t, exec .attestationReport s = .next t ∧ t.attests = rest ∧
        (∀ k < 48, Memory.read t.mem (d + k) = Config.digestByte s.image k) ∧ Memory.num t.mem (d + 48) 8 = s.rollback % 2 ^ 64 ∧
        (∀ k < 32, Memory.read t.mem (d + 56 + k) = Config.identityByte k) ∧
        (∀ k < 32, Memory.read t.mem (d + 88 + k) = Memory.read s.mem (r.toNat + k)) ∧
        ∀ x, (x < d ∨ d + 3493 ≤ x) → Memory.read t.mem x = Memory.read s.mem x) ∧
    (s.dstate = 0 → exec .d3hotRequest s = .next { s with d3req := true }) ∧
    (s.d3req = true → (∀ g ∈ s.gangs, g.phase ≠ .resident) → exec .d3hotEntry s = .next { s with d3req := false, dstate := 1 }) ∧
    (∃ t, exec .d3coldEntry s = .next t ∧ t.dstate = 2 ∧ t.bar0 = { State.reset.bar0 with ready := false } ∧ t.gangs = [] ∧ t.mem = []) ∧
    (let therm := fun (u : Int) (f : Nat) => decide (350 < u) || decide (f < 200)
     (a.temp ≤ 450 → ∃ t, exec .inletTemperatureChange s = .next t ∧ t.inlet = a.temp ∧
       t.bar0 = { logged (if (s.inlet < 150 ↔ a.temp < 150) then 0 else 1) with therm := therm a.temp s.flow }) ∧
     (450 < a.temp → ∃ t, exec .inletTemperatureChange s = .next t ∧ t.inlet = a.temp ∧ t.gangs = [] ∧ t.mem = s.mem) ∧
     (∃ t, exec .coolantFlowChange s = .next t ∧ t.flow = a.num ∧
       t.bar0 = { logged (if (s.flow < 200 ↔ a.num < 200) then 0 else 1) with therm := therm s.inlet a.num }) ∧
     (s.flow < 100 → ∃ t, exec .lowFlowTimeout s = .next t ∧ t.gangs = [] ∧ t.thr = State.reset.thr ∧ t.mem = s.mem)) ∧
    (let stored := ∃ l ∈ s.l2, l.stack = a.who ∧ (l.id.index a.addr).isSome = true ∧ l.dirty = true
     (a.num = 1 → ¬ stored → ∃ t, exec .softError s = .next t ∧ t.bar0 = logged 1 ∧ t.mem = s.mem ∧ t.poison = s.poison) ∧
     (a.num = 0 ∨ a.num = 1 ∧ stored → a.addr < bondedEnd → ∃ t, exec .softError s = .next t ∧ t.bar0 = logged 1 ∧ t.mem = s.mem ∧
      ∀ p, p ∈ t.poison ↔ p ∈ s.poison ∨ a.flag 0 = true ∧ p = a.addr / 64)) ∧
    (a.num = 4 → ∀ u, s.threads.find? (fun t => decide (t.tid = a.who) && decide (t.phase ≠ .absent)) = some u →
      let hits := fun (f : Thread → Thread) => ∃ t, exec .softError s = .next t ∧ t.bar0 = logged 1 ∧
        OnThreads { s with bar0 := logged 1 } t (fun u => u.tid = a.who) f
      (a.flags = [true] → 0 < a.addr → a.addr < 64 → hits (fun u => { u with poisonS := a.addr :: u.poisonS })) ∧
      ∀ r c, a.nums = [r, c] → r < 8 →
        (a.flags = [true, true] → a.addr < 32 → hits (fun u => { u with poisonV := (a.addr, r, c) :: u.poisonV })) ∧
        (a.flags = [true, false, true] → 0 < a.addr → a.addr < 16 →
          hits (fun u => { u with poisonV := (40 + a.addr, r, c) :: u.poisonV }))) ∧
    (∀ l k, a.num = 2 → a.flags = [true] → s.l1 = [l] → l.hearth = a.who → l.at? a.addr = some k → l.dirty.getLsbD k = true →
      ∃ t, exec .softError s = .next t ∧ t.bar0 = logged 1 ∧ t.l1 = s.l1 ∧ t.mem = s.mem ∧
        ∀ x, t.badByte l.hearth l.slot x = true ↔ x = a.addr ∨ s.badByte l.hearth l.slot x = true) ∧
    (∀ g, a.num = 3 → a.flags = [true] → s.gangOf a.who = some g → ∃ t, exec .softError s = .next t ∧ t.bar0 = logged 1 ∧
      t.gangOf a.who = some { g with tilePoison := a.nums ++ g.tilePoison } ∧ ∀ k, k ≠ a.who → t.gangOf k = s.gangOf k) ∧
    (0 < a.who → a.who < 64 → ∃ t, exec .keySlotLoad s = .next t ∧ t = { s with keySlots := t.keySlots } ∧
      ∀ k, assoc t.keySlots k = if k = a.who then some a.wide else assoc s.keySlots k) ∧
    (a.flags = [true] → a.who < 8 → 0 < a.num → a.addr + a.num ≤ 2 ^ 48 → (s.extents.filter (fun x => decide (x.1 = a.who))).length < 256 →
      exec .dynamicCapacityExtentChange s = .next { s with extents := s.extents ++ [(a.who, a.addr, a.num)] }) ∧
    (a.flags = [] → exec .dynamicCapacityExtentChange s =
      .next { s with extents := s.extents.filter (fun x => decide (x ≠ (a.who, a.addr, a.num))) })

/-! ## Steps, encodings and invariants -/

/-- R27, R33, R34: one step of a running thread with nothing before it fetches the word at PC, decodes it and runs what it decodes to; a
word that a PFX has fetched runs without another fetch; a word that is no instruction, or whose fetch faults, is its own event, and one whose
fetch waits for a locked block gives other threads their turn (R290).  From
a plain uncached page the word is the four bytes at PC, least significant first.  An event of the agenda, then a turn, comes first,
but not between a PFX and its word (the agenda and the turns are the model's, log entry 14). -/
def Obligations.StepRunsDecodedWord : Prop :=
  ∀ s : State,
    let idle := s.thr.phase = .running ∧ s.takesEvent = false ∧ (s.midWord = true ∨ s.agenda = [] ∧ s.turns = [])
    (idle → s.thr.pfx = none → ∀ w u, s.fetch s.thr.pc = .ok (w, u) →
      let unassigned := fun (f : Bool) => step s = exec .unassignedInstructionWord { u with arg := { value := w.setWidth 64, flags := [f] } }
      (∀ i, decode w.toNat = .ok i → u.blockOverrun w = false → step s = exec i u) ∧
      (∀ i, decode w.toNat = .ok i → u.blockOverrun w = true → unassigned false) ∧
      (decode w.toNat = .error .illegal → unassigned false) ∧
      (∀ i, decode w.toNat = .error (.reserved i) → unassigned (u.blockOverrun w || u.alsoIllegal i) ∧
        (u.alsoIllegal i = true ↔ if 0x36 ≤ encode i / 2 ^ 26 ∧ encode i / 2 ^ 26 ≤ 0x38 then u.inBlock = true
          else exec i u = .next (u.takeTrap 1 (BitVec.ofNat 64 (encode i)) none)))) ∧
    (s.thr.phase = .running → s.takesEvent = true → s.agenda = [] → s.turns = [] →
      step s = exec .asyncEventEntry { s with arg := { value := 0, flags := [false] } }) ∧
    (idle → s.thr.pfx = none → ∀ e, s.fetch s.thr.pc = .error e → (∀ post, e ≠ .hold post) → step s = exec .instructionFetchFault s) ∧
    (idle → s.thr.pfx = none → ∀ post, s.fetch s.thr.pc = .error (.hold post) → step s = .next (post s).rotate) ∧
    (idle → ∀ p i, s.thr.pfx = some p → decode p.next.toNat = .ok i → s.blockOverrun p.next = false → step s = exec i s) ∧
    (idle → s.thr.pfx = none → s.thr.stale = [] → s.l1 = [] → s.thr.vrun = VRun.idle → ∀ l pa, UncachedAt s .fetch s.thr.pc 4 l pa →
      s.homeBad s.thr.hearth ⟨pa, 0, l.alloc⟩ 4 = false →
      ∀ i, decode (Memory.num s.mem pa 4) = .ok i →
        ∃ u, step s = exec i u ∧ u = { s with tlb := u.tlb, tables := u.tables, heat := u.heat, samples := u.samples, free := u.free }) ∧
    (s.midWord = false → ∀ i a rest, s.agenda = (i, a) :: rest →
      (i.isEvent = true → step s = exec i { s with agenda := rest, arg := a }) ∧
      (i.isEvent = false → step s = .refused .notAnEvent)) ∧
    (s.midWord = false → s.agenda = [] → ∀ k rest, s.turns = k :: rest → step s = .next ({ s with turns := rest }.activate k))

/-- R28 to R33, R41, R42: words written out from the formats and the encoding tables of the spec, one or more of each kind of word,
decode to the instruction they stand for; an unassigned major is illegal, a set bit of an unused field is reserved. -/
def Obligations.DecodingSanity : Prop :=
  let words : List (Nat × Instr) :=
    [(0x04304200, .add 3 1 2), (0x0830FFFF, .addi 3 3 0x3FFF), (0x30108003, .beq 1 2 3), (0x48100005, .jlk 1 5), (0x68508010, .ld 5 2 0x10),
     (0x7C304207, .ffmaS 3 1 2), (0x80300051, .rdc 3 0x051), (0x84008012, .wrc 2 0x012), (0x8800000C, .trap 12), (0x9020C001, .spclaim 2 3),
     (0x90400002, .spqry 4), (0x90918713, .setl32 9 6 7), (0x94811010, .vadds 4 1 2), (0x9C410002, .vrcps 2 1), (0xA0453002, .vclt 2 5 6),
     (0xA8E10024, .vcvts 7 1 4), (0xB4611802, .vxchg 3 1 6), (0xF8C10080, .grp 3 false 1 0 false false 0 2)]
  (∀ p ∈ words, decode p.1 = .ok p.2) ∧ decode 0xF4000000 = .error .illegal ∧ decode 0x04304120 = .error (.reserved (.clz 3 1))

/-- R28 to R33: decoding the encoding of a well-formed word gives the word back, with every operand at every value it may have. -/
def Obligations.DecodeOfEncode : Prop :=
  ∀ i : Instr, i.wf = true → i.isEvent = false → encode i < 2 ^ 32 ∧ decode (encode i) = .ok i

/-- Every step keeps memory, every gang's tiles and every saved gang's in canonical form: addresses strictly rising, no entry equal to
what an unlisted address reads as (the form is the model's, and so is what an unlisted address reads as, log entry 4). -/
def Obligations.StepKeepsTheMemoryForm : Prop :=
  ∀ s t : State, s.MemoryForm → step s = .next t → t.MemoryForm

/-- Every thread's grant and VCAP are 16, 32, 64 or 128 lanes, RL at most 8 and CL at most 16,384, as are the RL and CL that its VJOIN brings
back, and every gang's lanes are one of the four (R99 to R105, R402): the lengths that R104 to R106 let a row have. -/
def Sys2Proof.Machine.State.LegalLanes (s : State) : Prop :=
  (∀ u ∈ s.threads, u.grant ∈ [16, 32, 64, 128] ∧ u.vcap.toNat ∈ [16, 32, 64, 128] ∧ u.rl ≤ 8 ∧ u.cl ≤ 16384 ∧
    u.vrun.len.toNat / 2 ^ 32 ≤ 8 ∧ u.vrun.len.toNat % 2 ^ 32 ≤ 16384) ∧
  ∀ g ∈ s.gangs, g.lanes ∈ [16, 32, 64, 128]

/-- Every step keeps the lanes and the lengths legal, and legal lanes make the lengths and the row those that R104, R105 and R402 allow. -/
def Obligations.StepKeepsTheLengths : Prop :=
  (∀ s t : State, s.LegalLanes → step s = .next t → t.LegalLanes) ∧
  ∀ s : State, s.LegalLanes → ∀ u ∈ s.threads, u.LegalLengths

/-- R17 to R20, R418, R420: the state after reset keeps both invariants; no gang is resident and nothing is queued; BAR0 is READY with
its registers at their reset values; a thread's registers are at the values R17 gives them (those of a
core that no thread has run on are the model's: log entry 1). -/
def Obligations.ResetState : Prop :=
  let s := State.reset
  let t := s.thr
  let b := s.bar0
  s.MemoryForm ∧ s.LegalLanes ∧ s.gangs = [] ∧ s.ops = [] ∧ s.queues = [] ∧ s.launches = [] ∧ s.keySlots = [] ∧ s.others = [] ∧
  b.ready = true ∧ b.werr = false ∧ b.fwerr = 0 ∧ b.dbudget = 240000 ∧ b.dadmit = 200000 ∧ b.dec.toList = [250, 700, 1400, 2200] ∧
  b.qtbase = 0 ∧ b.asidbase = 0 ∧ b.cgbase = 0 ∧ b.frsize = 0 ∧ b.ersize = 0 ∧ b.erdrop = 0 ∧ b.sootlen = 0 ∧
  t.status.vlive = false ∧ t.status.inh = false ∧ t.status.ae = true ∧ t.status.priv = false ∧ t.fflags = 0 ∧ t.frm = 0 ∧
  t.mode = 0x1F0000 ∧ t.convoy = 0 ∧ t.len = 0 ∧ t.vcap = 128 ∧ t.cycle = 0 ∧ t.retired = 0 ∧ t.rngkey = 0 ∧ t.srctr = 0 ∧
  t.knotstep = 0x3F800000 ∧ t.knotcount = 1 ∧ t.mxscale = 0x7F7F ∧ t.wtheta = 0x3F000000 ∧ ∀ r : BitVec 6, s.rs r = 0

 
end

