-- ==== Sys2Proof/Laws/PerInstr.lean ====
section
/-! SUPPORT. Decoding what the encoder writes, per instruction. -/

set_option Elab.async false

namespace Sys2Proof

/-! ## Fields of a word -/

theorem Decode.field_eq {w lo n : Nat} {x : BitVec n} (h : w / 2 ^ lo % 2 ^ n = x.toNat) : Decode.field w lo n = x := by
  apply BitVec.eq_of_toNat_eq
  simpa only [Decode.field, BitVec.toNat_ofNat] using h

theorem Decode.flag_eq {w lo : Nat} {x : Bool} (h : w / 2 ^ lo % 2 = x.toNat) : Decode.flag w lo = x := by
  cases x <;> simp_all [Decode.flag]

theorem Decode.raw_eq {w lo n k : Nat} (h : w / 2 ^ lo % 2 ^ n = k) : Decode.raw w lo n = k := h

/-! ## The arm of each major -/

theorem Decode.at01 {w : Nat} (h : Decode.raw w 26 6 = 0x1) : decode w = Decode.major01 w := by rw [decode, h]; rfl
theorem Decode.at02 {w : Nat} (h : Decode.raw w 26 6 = 0x2) : decode w = .ok (.addi (Decode.field w 20 6) (Decode.field w 14 6) (Decode.field w 0 14)) := by rw [decode, h]; rfl
theorem Decode.at03 {w : Nat} (h : Decode.raw w 26 6 = 0x3) : decode w = .ok (.andi (Decode.field w 20 6) (Decode.field w 14 6) (Decode.field w 0 14)) := by rw [decode, h]; rfl
theorem Decode.at04 {w : Nat} (h : Decode.raw w 26 6 = 0x4) : decode w = .ok (.ori (Decode.field w 20 6) (Decode.field w 14 6) (Decode.field w 0 14)) := by rw [decode, h]; rfl
theorem Decode.at05 {w : Nat} (h : Decode.raw w 26 6 = 0x5) : decode w = .ok (.xori (Decode.field w 20 6) (Decode.field w 14 6) (Decode.field w 0 14)) := by rw [decode, h]; rfl
theorem Decode.at06 {w : Nat} (h : Decode.raw w 26 6 = 0x6) : decode w = .ok (.slti (Decode.field w 20 6) (Decode.field w 14 6) (Decode.field w 0 14)) := by rw [decode, h]; rfl
theorem Decode.at07 {w : Nat} (h : Decode.raw w 26 6 = 0x7) : decode w = .ok (.sltiu (Decode.field w 20 6) (Decode.field w 14 6) (Decode.field w 0 14)) := by rw [decode, h]; rfl
theorem Decode.at08 {w : Nat} (h : Decode.raw w 26 6 = 0x8) : decode w = Decode.major08 w := by rw [decode, h]; rfl
theorem Decode.at09 {w : Nat} (h : Decode.raw w 26 6 = 0x9) : decode w = .ok (.immh (Decode.field w 20 6) (Decode.field w 0 20)) := by rw [decode, h]; rfl
theorem Decode.at0A {w : Nat} (h : Decode.raw w 26 6 = 0xa) : decode w = .ok (.pcrel (Decode.field w 20 6) (Decode.field w 0 20)) := by rw [decode, h]; rfl
theorem Decode.at0C {w : Nat} (h : Decode.raw w 26 6 = 0xc) : decode w = .ok (.beq (Decode.field w 20 6) (Decode.field w 14 6) (Decode.field w 0 14)) := by rw [decode, h]; rfl
theorem Decode.at0D {w : Nat} (h : Decode.raw w 26 6 = 0xd) : decode w = .ok (.bne (Decode.field w 20 6) (Decode.field w 14 6) (Decode.field w 0 14)) := by rw [decode, h]; rfl
theorem Decode.at0E {w : Nat} (h : Decode.raw w 26 6 = 0xe) : decode w = .ok (.blt (Decode.field w 20 6) (Decode.field w 14 6) (Decode.field w 0 14)) := by rw [decode, h]; rfl
theorem Decode.at0F {w : Nat} (h : Decode.raw w 26 6 = 0xf) : decode w = .ok (.bge (Decode.field w 20 6) (Decode.field w 14 6) (Decode.field w 0 14)) := by rw [decode, h]; rfl
theorem Decode.at10 {w : Nat} (h : Decode.raw w 26 6 = 0x10) : decode w = .ok (.bltu (Decode.field w 20 6) (Decode.field w 14 6) (Decode.field w 0 14)) := by rw [decode, h]; rfl
theorem Decode.at11 {w : Nat} (h : Decode.raw w 26 6 = 0x11) : decode w = .ok (.bgeu (Decode.field w 20 6) (Decode.field w 14 6) (Decode.field w 0 14)) := by rw [decode, h]; rfl
theorem Decode.at12 {w : Nat} (h : Decode.raw w 26 6 = 0x12) : decode w = .ok (.jlk (Decode.field w 20 6) (Decode.field w 0 20)) := by rw [decode, h]; rfl
theorem Decode.at13 {w : Nat} (h : Decode.raw w 26 6 = 0x13) : decode w = .ok (.jlkr (Decode.field w 20 6) (Decode.field w 14 6) (Decode.field w 0 14)) := by rw [decode, h]; rfl
theorem Decode.at14 {w : Nat} (h : Decode.raw w 26 6 = 0x14) : decode w = .ok (.lb (Decode.field w 20 6) (Decode.field w 14 6) (Decode.field w 0 14)) := by rw [decode, h]; rfl
theorem Decode.at15 {w : Nat} (h : Decode.raw w 26 6 = 0x15) : decode w = .ok (.lbu (Decode.field w 20 6) (Decode.field w 14 6) (Decode.field w 0 14)) := by rw [decode, h]; rfl
theorem Decode.at16 {w : Nat} (h : Decode.raw w 26 6 = 0x16) : decode w = .ok (.lh (Decode.field w 20 6) (Decode.field w 14 6) (Decode.field w 0 14)) := by rw [decode, h]; rfl
theorem Decode.at17 {w : Nat} (h : Decode.raw w 26 6 = 0x17) : decode w = .ok (.lhu (Decode.field w 20 6) (Decode.field w 14 6) (Decode.field w 0 14)) := by rw [decode, h]; rfl
theorem Decode.at18 {w : Nat} (h : Decode.raw w 26 6 = 0x18) : decode w = .ok (.lw (Decode.field w 20 6) (Decode.field w 14 6) (Decode.field w 0 14)) := by rw [decode, h]; rfl
theorem Decode.at19 {w : Nat} (h : Decode.raw w 26 6 = 0x19) : decode w = .ok (.lwu (Decode.field w 20 6) (Decode.field w 14 6) (Decode.field w 0 14)) := by rw [decode, h]; rfl
theorem Decode.at1A {w : Nat} (h : Decode.raw w 26 6 = 0x1a) : decode w = .ok (.ld (Decode.field w 20 6) (Decode.field w 14 6) (Decode.field w 0 14)) := by rw [decode, h]; rfl
theorem Decode.at1B {w : Nat} (h : Decode.raw w 26 6 = 0x1b) : decode w = .ok (.sb (Decode.field w 20 6) (Decode.field w 14 6) (Decode.field w 0 14)) := by rw [decode, h]; rfl
theorem Decode.at1C {w : Nat} (h : Decode.raw w 26 6 = 0x1c) : decode w = .ok (.sh (Decode.field w 20 6) (Decode.field w 14 6) (Decode.field w 0 14)) := by rw [decode, h]; rfl
theorem Decode.at1D {w : Nat} (h : Decode.raw w 26 6 = 0x1d) : decode w = .ok (.sw (Decode.field w 20 6) (Decode.field w 14 6) (Decode.field w 0 14)) := by rw [decode, h]; rfl
theorem Decode.at1E {w : Nat} (h : Decode.raw w 26 6 = 0x1e) : decode w = .ok (.sd (Decode.field w 20 6) (Decode.field w 14 6) (Decode.field w 0 14)) := by rw [decode, h]; rfl
theorem Decode.at1F {w : Nat} (h : Decode.raw w 26 6 = 0x1f) : decode w = Decode.major1F w := by rw [decode, h]; rfl
theorem Decode.at20 {w : Nat} (h : Decode.raw w 26 6 = 0x20) : decode w = Decode.clean (Decode.raw w 12 8) (.rdc (Decode.field w 20 6) (Decode.field w 0 12)) := by rw [decode, h]; rfl
theorem Decode.at21 {w : Nat} (h : Decode.raw w 26 6 = 0x21) : decode w = Decode.clean (Decode.raw w 12 2 + Decode.raw w 20 6) (.wrc (Decode.field w 14 6) (Decode.field w 0 12)) := by rw [decode, h]; rfl
theorem Decode.at22 {w : Nat} (h : Decode.raw w 26 6 = 0x22) : decode w = Decode.clean (Decode.raw w 14 12) (.trap (Decode.field w 0 14)) := by rw [decode, h]; rfl
theorem Decode.at23 {w : Nat} (h : Decode.raw w 26 6 = 0x23) : decode w = Decode.major23 w := by rw [decode, h]; rfl
theorem Decode.at24 {w : Nat} (h : Decode.raw w 26 6 = 0x24) : decode w = Decode.major24 w := by rw [decode, h]; rfl
theorem Decode.at25 {w : Nat} (h : Decode.raw w 26 6 = 0x25) : decode w = Decode.major25 w := by rw [decode, h]; rfl
theorem Decode.at26 {w : Nat} (h : Decode.raw w 26 6 = 0x26) : decode w = Decode.major26 w := by rw [decode, h]; rfl
theorem Decode.at27 {w : Nat} (h : Decode.raw w 26 6 = 0x27) : decode w = Decode.major27 w := by rw [decode, h]; rfl
theorem Decode.at28 {w : Nat} (h : Decode.raw w 26 6 = 0x28) : decode w = Decode.major28 w := by rw [decode, h]; rfl
theorem Decode.at29 {w : Nat} (h : Decode.raw w 26 6 = 0x29) : decode w = Decode.major29 w := by rw [decode, h]; rfl
theorem Decode.at2A {w : Nat} (h : Decode.raw w 26 6 = 0x2a) : decode w = Decode.major2A w := by rw [decode, h]; rfl
theorem Decode.at2B {w : Nat} (h : Decode.raw w 26 6 = 0x2b) : decode w = Decode.major2B w := by rw [decode, h]; rfl
theorem Decode.at2C {w : Nat} (h : Decode.raw w 26 6 = 0x2c) : decode w = Decode.major2C w := by rw [decode, h]; rfl
theorem Decode.at2D {w : Nat} (h : Decode.raw w 26 6 = 0x2d) : decode w = Decode.major2D w := by rw [decode, h]; rfl
theorem Decode.at2E {w : Nat} (h : Decode.raw w 26 6 = 0x2e) : decode w = Decode.major2E w := by rw [decode, h]; rfl
theorem Decode.at2F {w : Nat} (h : Decode.raw w 26 6 = 0x2f) : decode w = Decode.major2F w := by rw [decode, h]; rfl
theorem Decode.at30 {w : Nat} (h : Decode.raw w 26 6 = 0x30) : decode w = Decode.major30 w := by rw [decode, h]; rfl
theorem Decode.at31 {w : Nat} (h : Decode.raw w 26 6 = 0x31) : decode w = Decode.major31 w := by rw [decode, h]; rfl
theorem Decode.at32 {w : Nat} (h : Decode.raw w 26 6 = 0x32) : decode w = Decode.major32 w := by rw [decode, h]; rfl
theorem Decode.at33 {w : Nat} (h : Decode.raw w 26 6 = 0x33) : decode w = Decode.major33 w := by rw [decode, h]; rfl
theorem Decode.at34 {w : Nat} (h : Decode.raw w 26 6 = 0x34) : decode w = Decode.major34 w := by rw [decode, h]; rfl
theorem Decode.at35 {w : Nat} (h : Decode.raw w 26 6 = 0x35) : decode w = Decode.major35 w := by rw [decode, h]; rfl
theorem Decode.at36 {w : Nat} (h : Decode.raw w 26 6 = 0x36) : decode w = Decode.major36 w := by rw [decode, h]; rfl
theorem Decode.at37 {w : Nat} (h : Decode.raw w 26 6 = 0x37) : decode w = Decode.major37 w := by rw [decode, h]; rfl
theorem Decode.at38 {w : Nat} (h : Decode.raw w 26 6 = 0x38) : decode w = Decode.major38 w := by rw [decode, h]; rfl
theorem Decode.at39 {w : Nat} (h : Decode.raw w 26 6 = 0x39) : decode w = Decode.major39 w := by rw [decode, h]; rfl
theorem Decode.at3A {w : Nat} (h : Decode.raw w 26 6 = 0x3a) : decode w = Decode.major3A w := by rw [decode, h]; rfl
theorem Decode.at3B {w : Nat} (h : Decode.raw w 26 6 = 0x3b) : decode w = Decode.major3B w := by rw [decode, h]; rfl
theorem Decode.at3C {w : Nat} (h : Decode.raw w 26 6 = 0x3c) : decode w = Decode.major3C w := by rw [decode, h]; rfl
theorem Decode.at3E {w : Nat} (h : Decode.raw w 26 6 = 0x3e) : decode w = Decode.legal (WellFormed.etypeAssigned (Decode.field w 16 5) && WellFormed.rndAssigned (Decode.field w 13 3)) (Decode.clean (Decode.raw w 0 6) (.grp (Decode.field w 22 4) (Decode.flag w 21) (Decode.field w 16 5) (Decode.field w 13 3) (Decode.flag w 12) (Decode.flag w 11) (Decode.field w 9 2) (Decode.field w 6 3))) := by rw [decode, h]; rfl
theorem Decode.at3F {w : Nat} (h : Decode.raw w 26 6 = 0x3f) : decode w = Decode.legal (WellFormed.pfxLegal (Decode.field w 22 4) (Decode.flag w 21) (Decode.field w 18 3) (Decode.flag w 17) (Decode.field w 15 2) (Decode.field w 10 5) (Decode.flag w 9) (Decode.field w 4 5) (Decode.flag w 3)) (if WellFormed.pfxClean (Decode.field w 22 4) (Decode.flag w 21) (Decode.field w 18 3) (Decode.flag w 17) (Decode.field w 10 5) (Decode.flag w 9) (Decode.field w 4 5) (Decode.flag w 3) then Decode.clean (Decode.raw w 0 3) (.pfx (Decode.field w 22 4) (Decode.flag w 21) (Decode.field w 18 3) (Decode.flag w 17) (Decode.field w 15 2) (Decode.field w 10 5) (Decode.flag w 9) (Decode.field w 4 5) (Decode.flag w 3)) else .error (.reserved (.pfx (Decode.field w 22 4) (Decode.flag w 21) (Decode.field w 18 3) (Decode.flag w 17) (Decode.field w 15 2) (Decode.field w 10 5) (Decode.flag w 9) (Decode.field w 4 5) (Decode.flag w 3)))) := by rw [decode, h]; rfl

/-! ## Words of one shape: what their fields read -/

theorem Decode.shape0 (M F w : Nat) (x0 : BitVec 6) (x1 : BitVec 6) (x2 : BitVec 6) (hM : M < 64) (hF : F < 256)
    (hw : w = M * 0x4000000 + F * 0x1 + x0.toNat * 0x100000 + x1.toNat * 0x4000 + x2.toNat * 0x100) :
    Decode.raw w 26 6 = M ∧ Decode.raw w 0 8 = F ∧ Decode.field w 20 6 = x0 ∧ Decode.field w 14 6 = x1 ∧ Decode.field w 8 6 = x2 := by
  have hx0 := x0.isLt
  have hx1 := x1.isLt
  have hx2 := x2.isLt
  exact ⟨Decode.raw_eq (by omega), Decode.raw_eq (by omega), Decode.field_eq (by omega), Decode.field_eq (by omega), Decode.field_eq (by omega)⟩

theorem Decode.shape1 (M F w : Nat) (x0 : BitVec 6) (x1 : BitVec 6) (hM : M < 64) (hF : F < 256)
    (hw : w = M * 0x4000000 + F * 0x1 + x0.toNat * 0x100000 + x1.toNat * 0x4000) :
    Decode.raw w 26 6 = M ∧ Decode.raw w 0 8 = F ∧ Decode.field w 20 6 = x0 ∧ Decode.field w 14 6 = x1 ∧ Decode.raw w 8 6 = 0 := by
  have hx0 := x0.isLt
  have hx1 := x1.isLt
  exact ⟨Decode.raw_eq (by omega), Decode.raw_eq (by omega), Decode.field_eq (by omega), Decode.field_eq (by omega), Decode.raw_eq (by omega)⟩

theorem Decode.shape2 (M w : Nat) (x0 : BitVec 6) (x1 : BitVec 6) (x2 : BitVec 14) (hM : M < 64)
    (hw : w = M * 0x4000000 + x0.toNat * 0x100000 + x1.toNat * 0x4000 + x2.toNat) :
    Decode.raw w 26 6 = M ∧ Decode.field w 20 6 = x0 ∧ Decode.field w 14 6 = x1 ∧ Decode.field w 0 14 = x2 := by
  have hx0 := x0.isLt
  have hx1 := x1.isLt
  have hx2 := x2.isLt
  exact ⟨Decode.raw_eq (by omega), Decode.field_eq (by omega), Decode.field_eq (by omega), Decode.field_eq (by omega)⟩

theorem Decode.shape3 (M w : Nat) (x0 : BitVec 6) (x1 : BitVec 20) (hM : M < 64)
    (hw : w = M * 0x4000000 + x0.toNat * 0x100000 + x1.toNat) :
    Decode.raw w 26 6 = M ∧ Decode.field w 20 6 = x0 ∧ Decode.field w 0 20 = x1 := by
  have hx0 := x0.isLt
  have hx1 := x1.isLt
  exact ⟨Decode.raw_eq (by omega), Decode.field_eq (by omega), Decode.field_eq (by omega)⟩

theorem Decode.shape4 (M w : Nat) (x0 : BitVec 6) (x1 : BitVec 12) (hM : M < 64)
    (hw : w = M * 0x4000000 + x0.toNat * 0x100000 + x1.toNat) :
    Decode.raw w 26 6 = M ∧ Decode.field w 20 6 = x0 ∧ Decode.field w 0 12 = x1 ∧ Decode.raw w 12 8 = 0 := by
  have hx0 := x0.isLt
  have hx1 := x1.isLt
  exact ⟨Decode.raw_eq (by omega), Decode.field_eq (by omega), Decode.field_eq (by omega), Decode.raw_eq (by omega)⟩

theorem Decode.shape5 (M w : Nat) (x0 : BitVec 6) (x1 : BitVec 12) (hM : M < 64)
    (hw : w = M * 0x4000000 + x0.toNat * 0x4000 + x1.toNat) :
    Decode.raw w 26 6 = M ∧ Decode.field w 14 6 = x0 ∧ Decode.field w 0 12 = x1 ∧ Decode.raw w 12 2 = 0 ∧ Decode.raw w 20 6 = 0 := by
  have hx0 := x0.isLt
  have hx1 := x1.isLt
  exact ⟨Decode.raw_eq (by omega), Decode.field_eq (by omega), Decode.field_eq (by omega), Decode.raw_eq (by omega), Decode.raw_eq (by omega)⟩

theorem Decode.shape6 (M w : Nat) (x0 : BitVec 14) (hM : M < 64)
    (hw : w = M * 0x4000000 + x0.toNat) :
    Decode.raw w 26 6 = M ∧ Decode.field w 0 14 = x0 ∧ Decode.raw w 14 12 = 0 := by
  have hx0 := x0.isLt
  exact ⟨Decode.raw_eq (by omega), Decode.field_eq (by omega), Decode.raw_eq (by omega)⟩

theorem Decode.shape7 (M F w : Nat) (x0 : BitVec 6) (hM : M < 64) (hF : F < 256)
    (hw : w = M * 0x4000000 + F * 0x1 + x0.toNat * 0x4000) :
    Decode.raw w 26 6 = M ∧ Decode.raw w 0 8 = F ∧ Decode.field w 14 6 = x0 ∧ Decode.raw w 8 6 = 0 ∧ Decode.raw w 20 6 = 0 := by
  have hx0 := x0.isLt
  exact ⟨Decode.raw_eq (by omega), Decode.raw_eq (by omega), Decode.field_eq (by omega), Decode.raw_eq (by omega), Decode.raw_eq (by omega)⟩

theorem Decode.shape8 (M F w : Nat) (x0 : BitVec 6) (x1 : BitVec 6) (hM : M < 64) (hF : F < 256)
    (hw : w = M * 0x4000000 + F * 0x1 + x0.toNat * 0x4000 + x1.toNat * 0x100) :
    Decode.raw w 26 6 = M ∧ Decode.raw w 0 8 = F ∧ Decode.field w 14 6 = x0 ∧ Decode.field w 8 6 = x1 ∧ Decode.raw w 20 6 = 0 := by
  have hx0 := x0.isLt
  have hx1 := x1.isLt
  exact ⟨Decode.raw_eq (by omega), Decode.raw_eq (by omega), Decode.field_eq (by omega), Decode.field_eq (by omega), Decode.raw_eq (by omega)⟩

theorem Decode.shape9 (M F w : Nat) (x0 : BitVec 6) (hM : M < 64) (hF : F < 256)
    (hw : w = M * 0x4000000 + F * 0x1 + x0.toNat * 0x100000) :
    Decode.raw w 26 6 = M ∧ Decode.raw w 0 8 = F ∧ Decode.field w 20 6 = x0 ∧ Decode.raw w 8 12 = 0 := by
  have hx0 := x0.isLt
  exact ⟨Decode.raw_eq (by omega), Decode.raw_eq (by omega), Decode.field_eq (by omega), Decode.raw_eq (by omega)⟩

theorem Decode.shape10 (M F w : Nat) (x0 : BitVec 5) (x1 : BitVec 5) (x2 : BitVec 5) (hM : M < 64) (hF : F < 2048)
    (hw : w = M * 0x4000000 + F * 0x1 + x0.toNat * 0x200000 + x1.toNat * 0x10000 + x2.toNat * 0x800) :
    Decode.raw w 26 6 = M ∧ Decode.raw w 0 11 = F ∧ Decode.field w 21 5 = x0 ∧ Decode.field w 16 5 = x1 ∧ Decode.field w 11 5 = x2 := by
  have hx0 := x0.isLt
  have hx1 := x1.isLt
  have hx2 := x2.isLt
  exact ⟨Decode.raw_eq (by omega), Decode.raw_eq (by omega), Decode.field_eq (by omega), Decode.field_eq (by omega), Decode.field_eq (by omega)⟩

theorem Decode.shape11 (M F w : Nat) (x0 : BitVec 5) (x1 : BitVec 5) (hM : M < 64) (hF : F < 2048)
    (hw : w = M * 0x4000000 + F * 0x1 + x0.toNat * 0x200000 + x1.toNat * 0x10000) :
    Decode.raw w 26 6 = M ∧ Decode.raw w 0 11 = F ∧ Decode.field w 21 5 = x0 ∧ Decode.field w 16 5 = x1 ∧ Decode.raw w 11 5 = 0 := by
  have hx0 := x0.isLt
  have hx1 := x1.isLt
  exact ⟨Decode.raw_eq (by omega), Decode.raw_eq (by omega), Decode.field_eq (by omega), Decode.field_eq (by omega), Decode.raw_eq (by omega)⟩

theorem Decode.shape12 (M F w : Nat) (x0 : BitVec 4) (x1 : BitVec 5) (x2 : BitVec 5) (hM : M < 64) (hF : F < 2048)
    (hw : w = M * 0x4000000 + F * 0x1 + x0.toNat * 0x200000 + x1.toNat * 0x10000 + x2.toNat * 0x800) :
    Decode.raw w 26 6 = M ∧ Decode.raw w 0 11 = F ∧ Decode.field w 21 4 = x0 ∧ Decode.field w 16 5 = x1 ∧ Decode.field w 11 5 = x2 ∧ Decode.raw w 25 1 = 0 := by
  have hx0 := x0.isLt
  have hx1 := x1.isLt
  have hx2 := x2.isLt
  exact ⟨Decode.raw_eq (by omega), Decode.raw_eq (by omega), Decode.field_eq (by omega), Decode.field_eq (by omega), Decode.field_eq (by omega), Decode.raw_eq (by omega)⟩

theorem Decode.shape13 (M F w : Nat) (x0 : BitVec 4) (x1 : BitVec 4) (x2 : BitVec 4) (hM : M < 64) (hF : F < 2048)
    (hw : w = M * 0x4000000 + F * 0x1 + x0.toNat * 0x200000 + x1.toNat * 0x10000 + x2.toNat * 0x800) :
    Decode.raw w 26 6 = M ∧ Decode.raw w 0 11 = F ∧ Decode.field w 21 4 = x0 ∧ Decode.field w 16 4 = x1 ∧ Decode.field w 11 4 = x2 ∧ Decode.raw w 15 1 = 0 ∧ Decode.raw w 20 1 = 0 ∧ Decode.raw w 25 1 = 0 := by
  have hx0 := x0.isLt
  have hx1 := x1.isLt
  have hx2 := x2.isLt
  exact ⟨Decode.raw_eq (by omega), Decode.raw_eq (by omega), Decode.field_eq (by omega), Decode.field_eq (by omega), Decode.field_eq (by omega), Decode.raw_eq (by omega), Decode.raw_eq (by omega), Decode.raw_eq (by omega)⟩

theorem Decode.shape14 (M F w : Nat) (x0 : BitVec 4) (x1 : BitVec 4) (hM : M < 64) (hF : F < 2048)
    (hw : w = M * 0x4000000 + F * 0x1 + x0.toNat * 0x200000 + x1.toNat * 0x10000) :
    Decode.raw w 26 6 = M ∧ Decode.raw w 0 11 = F ∧ Decode.field w 21 4 = x0 ∧ Decode.field w 16 4 = x1 ∧ Decode.raw w 11 5 = 0 ∧ Decode.raw w 20 1 = 0 ∧ Decode.raw w 25 1 = 0 := by
  have hx0 := x0.isLt
  have hx1 := x1.isLt
  exact ⟨Decode.raw_eq (by omega), Decode.raw_eq (by omega), Decode.field_eq (by omega), Decode.field_eq (by omega), Decode.raw_eq (by omega), Decode.raw_eq (by omega), Decode.raw_eq (by omega)⟩

theorem Decode.shape15 (M F w : Nat) (x0 : BitVec 5) (x1 : BitVec 5) (x2 : BitVec 5) (hM : M < 64) (hF : F < 2)
    (hw : w = M * 0x4000000 + F * 0x20 + x0.toNat * 0x200000 + x1.toNat * 0x10000 + x2.toNat) :
    Decode.raw w 26 6 = M ∧ Decode.raw w 5 1 = F ∧ Decode.field w 0 5 = x2 ∧ Decode.field w 21 5 = x0 ∧ Decode.field w 16 5 = x1 ∧ Decode.raw w 6 10 = 0 := by
  have hx0 := x0.isLt
  have hx1 := x1.isLt
  have hx2 := x2.isLt
  exact ⟨Decode.raw_eq (by omega), Decode.raw_eq (by omega), Decode.field_eq (by omega), Decode.field_eq (by omega), Decode.field_eq (by omega), Decode.raw_eq (by omega)⟩

theorem Decode.shape16 (M F w : Nat) (x0 : BitVec 5) (x1 : BitVec 5) (x2 : BitVec 6) (hM : M < 64) (hF : F < 1024)
    (hw : w = M * 0x4000000 + F * 0x1 + x0.toNat * 0x200000 + x1.toNat * 0x10000 + x2.toNat * 0x400) :
    Decode.raw w 26 6 = M ∧ Decode.raw w 0 10 = F ∧ Decode.field w 21 5 = x0 ∧ Decode.field w 16 5 = x1 ∧ Decode.field w 10 6 = x2 := by
  have hx0 := x0.isLt
  have hx1 := x1.isLt
  have hx2 := x2.isLt
  exact ⟨Decode.raw_eq (by omega), Decode.raw_eq (by omega), Decode.field_eq (by omega), Decode.field_eq (by omega), Decode.field_eq (by omega)⟩

theorem Decode.shape17 (M F w : Nat) (x0 : BitVec 5) (x1 : BitVec 6) (hM : M < 64) (hF : F < 1024)
    (hw : w = M * 0x4000000 + F * 0x1 + x0.toNat * 0x200000 + x1.toNat * 0x400) :
    Decode.raw w 26 6 = M ∧ Decode.raw w 0 10 = F ∧ Decode.field w 21 5 = x0 ∧ Decode.field w 10 6 = x1 ∧ Decode.raw w 16 5 = 0 := by
  have hx0 := x0.isLt
  have hx1 := x1.isLt
  exact ⟨Decode.raw_eq (by omega), Decode.raw_eq (by omega), Decode.field_eq (by omega), Decode.field_eq (by omega), Decode.raw_eq (by omega)⟩

theorem Decode.shape18 (M F w : Nat) (x0 : BitVec 6) (hM : M < 64) (hF : F < 1024)
    (hw : w = M * 0x4000000 + F * 0x1 + x0.toNat * 0x400) :
    Decode.raw w 26 6 = M ∧ Decode.raw w 0 10 = F ∧ Decode.field w 10 6 = x0 ∧ Decode.raw w 16 10 = 0 := by
  have hx0 := x0.isLt
  exact ⟨Decode.raw_eq (by omega), Decode.raw_eq (by omega), Decode.field_eq (by omega), Decode.raw_eq (by omega)⟩

theorem Decode.shape19 (M F w : Nat) (x0 : BitVec 4) (x1 : BitVec 6) (hM : M < 64) (hF : F < 1024)
    (hw : w = M * 0x4000000 + F * 0x1 + x0.toNat * 0x200000 + x1.toNat * 0x400) :
    Decode.raw w 26 6 = M ∧ Decode.raw w 0 10 = F ∧ Decode.field w 21 4 = x0 ∧ Decode.field w 10 6 = x1 ∧ Decode.raw w 16 5 = 0 ∧ Decode.raw w 25 1 = 0 := by
  have hx0 := x0.isLt
  have hx1 := x1.isLt
  exact ⟨Decode.raw_eq (by omega), Decode.raw_eq (by omega), Decode.field_eq (by omega), Decode.field_eq (by omega), Decode.raw_eq (by omega), Decode.raw_eq (by omega)⟩

theorem Decode.shape20 (M F w : Nat) (x0 : BitVec 5) (x1 : BitVec 6) (x2 : BitVec 6) (x3 : BitVec 3) (hM : M < 64) (hF : F < 64)
    (hw : w = M * 0x4000000 + F * 0x1 + x0.toNat * 0x200000 + x1.toNat * 0x8000 + x2.toNat * 0x200 + x3.toNat * 0x40) :
    Decode.raw w 26 6 = M ∧ Decode.raw w 0 6 = F ∧ Decode.field w 6 3 = x3 ∧ Decode.field w 21 5 = x0 ∧ Decode.field w 15 6 = x1 ∧ Decode.field w 9 6 = x2 := by
  have hx0 := x0.isLt
  have hx1 := x1.isLt
  have hx2 := x2.isLt
  have hx3 := x3.isLt
  exact ⟨Decode.raw_eq (by omega), Decode.raw_eq (by omega), Decode.field_eq (by omega), Decode.field_eq (by omega), Decode.field_eq (by omega), Decode.field_eq (by omega)⟩

theorem Decode.shape21 (M F w : Nat) (x0 : BitVec 6) (x1 : BitVec 6) (x2 : BitVec 6) (x3 : Bool) (x4 : Bool) (x5 : BitVec 3) (hM : M < 64) (hF : F < 8)
    (hw : w = M * 0x4000000 + F * 0x20 + x0.toNat * 0x100000 + x1.toNat * 0x4000 + x2.toNat * 0x100 + x3.toNat * 0x10 + x4.toNat * 0x8 + x5.toNat) :
    Decode.raw w 26 6 = M ∧ Decode.raw w 5 3 = F ∧ Decode.field w 0 3 = x5 ∧ Decode.field w 20 6 = x0 ∧ Decode.field w 14 6 = x1 ∧ Decode.field w 8 6 = x2 ∧ Decode.flag w 4 = x3 ∧ Decode.flag w 3 = x4 := by
  have hx0 := x0.isLt
  have hx1 := x1.isLt
  have hx2 := x2.isLt
  have hx3 := Bool.toNat_le x3
  have hx4 := Bool.toNat_le x4
  have hx5 := x5.isLt
  exact ⟨Decode.raw_eq (by omega), Decode.raw_eq (by omega), Decode.field_eq (by omega), Decode.field_eq (by omega), Decode.field_eq (by omega), Decode.field_eq (by omega), Decode.flag_eq (by omega), Decode.flag_eq (by omega)⟩

theorem Decode.shape22 (M F w : Nat) (x0 : BitVec 6) (x1 : BitVec 6) (x2 : BitVec 3) (hM : M < 64) (hF : F < 32)
    (hw : w = M * 0x4000000 + F * 0x8 + x0.toNat * 0x100000 + x1.toNat * 0x4000 + x2.toNat) :
    Decode.raw w 26 6 = M ∧ Decode.raw w 3 5 = F ∧ Decode.field w 0 3 = x2 ∧ Decode.field w 20 6 = x0 ∧ Decode.field w 14 6 = x1 ∧ Decode.raw w 8 6 = 0 := by
  have hx0 := x0.isLt
  have hx1 := x1.isLt
  have hx2 := x2.isLt
  exact ⟨Decode.raw_eq (by omega), Decode.raw_eq (by omega), Decode.field_eq (by omega), Decode.field_eq (by omega), Decode.field_eq (by omega), Decode.raw_eq (by omega)⟩

theorem Decode.shape23 (M F w : Nat) (x0 : BitVec 3) (hM : M < 64) (hF : F < 32)
    (hw : w = M * 0x4000000 + F * 0x8 + x0.toNat) :
    Decode.raw w 26 6 = M ∧ Decode.raw w 3 5 = F ∧ Decode.field w 0 3 = x0 ∧ Decode.raw w 8 18 = 0 := by
  have hx0 := x0.isLt
  exact ⟨Decode.raw_eq (by omega), Decode.raw_eq (by omega), Decode.field_eq (by omega), Decode.raw_eq (by omega)⟩

theorem Decode.shape24 (M F w : Nat) (x0 : BitVec 6) (x1 : BitVec 6) (x2 : BitVec 3) (hM : M < 64) (hF : F < 32)
    (hw : w = M * 0x4000000 + F * 0x8 + x0.toNat * 0x4000 + x1.toNat * 0x100 + x2.toNat) :
    Decode.raw w 26 6 = M ∧ Decode.raw w 3 5 = F ∧ Decode.field w 0 3 = x2 ∧ Decode.field w 14 6 = x0 ∧ Decode.field w 8 6 = x1 ∧ Decode.raw w 20 6 = 0 := by
  have hx0 := x0.isLt
  have hx1 := x1.isLt
  have hx2 := x2.isLt
  exact ⟨Decode.raw_eq (by omega), Decode.raw_eq (by omega), Decode.field_eq (by omega), Decode.field_eq (by omega), Decode.field_eq (by omega), Decode.raw_eq (by omega)⟩

theorem Decode.shape25 (M F w : Nat) (x0 : BitVec 6) (hM : M < 64) (hF : F < 32)
    (hw : w = M * 0x4000000 + F * 0x8 + x0.toNat * 0x100000) :
    Decode.raw w 26 6 = M ∧ Decode.raw w 3 5 = F ∧ Decode.field w 20 6 = x0 ∧ Decode.raw w 0 3 = 0 ∧ Decode.raw w 8 12 = 0 := by
  have hx0 := x0.isLt
  exact ⟨Decode.raw_eq (by omega), Decode.raw_eq (by omega), Decode.field_eq (by omega), Decode.raw_eq (by omega), Decode.raw_eq (by omega)⟩

theorem Decode.shape26 (M F w : Nat) (x0 : BitVec 6) (x1 : BitVec 6) (hM : M < 64) (hF : F < 32)
    (hw : w = M * 0x4000000 + F * 0x8 + x0.toNat * 0x4000 + x1.toNat * 0x100) :
    Decode.raw w 26 6 = M ∧ Decode.raw w 3 5 = F ∧ Decode.field w 14 6 = x0 ∧ Decode.field w 8 6 = x1 ∧ Decode.raw w 0 3 = 0 ∧ Decode.raw w 20 6 = 0 := by
  have hx0 := x0.isLt
  have hx1 := x1.isLt
  exact ⟨Decode.raw_eq (by omega), Decode.raw_eq (by omega), Decode.field_eq (by omega), Decode.field_eq (by omega), Decode.raw_eq (by omega), Decode.raw_eq (by omega)⟩

theorem Decode.shape27 (M F w : Nat) (x0 : BitVec 5) (x1 : BitVec 5) (hM : M < 64) (hF : F < 1024)
    (hw : w = M * 0x4000000 + F * 0x1 + x0.toNat * 0x200000 + x1.toNat * 0x10000) :
    Decode.raw w 26 6 = M ∧ Decode.raw w 0 10 = F ∧ Decode.field w 21 5 = x0 ∧ Decode.field w 16 5 = x1 ∧ Decode.raw w 10 6 = 0 := by
  have hx0 := x0.isLt
  have hx1 := x1.isLt
  exact ⟨Decode.raw_eq (by omega), Decode.raw_eq (by omega), Decode.field_eq (by omega), Decode.field_eq (by omega), Decode.raw_eq (by omega)⟩

theorem Decode.shape28 (M F w : Nat) (x0 : BitVec 5) (x1 : BitVec 2) (x2 : BitVec 3) (x3 : BitVec 6) (hM : M < 64) (hF : F < 1024)
    (hw : w = M * 0x4000000 + F * 0x1 + x0.toNat * 0x200000 + x1.toNat * 0x80000 + x2.toNat * 0x10000 + x3.toNat * 0x400) :
    Decode.raw w 26 6 = M ∧ Decode.raw w 0 10 = F ∧ Decode.field w 21 5 = x0 ∧ Decode.field w 19 2 = x1 ∧ Decode.field w 16 3 = x2 ∧ Decode.field w 10 6 = x3 := by
  have hx0 := x0.isLt
  have hx1 := x1.isLt
  have hx2 := x2.isLt
  have hx3 := x3.isLt
  exact ⟨Decode.raw_eq (by omega), Decode.raw_eq (by omega), Decode.field_eq (by omega), Decode.field_eq (by omega), Decode.field_eq (by omega), Decode.field_eq (by omega)⟩

theorem Decode.shape29 (M w : Nat) (x0 : BitVec 4) (x1 : Bool) (x2 : BitVec 5) (x3 : BitVec 3) (x4 : Bool) (x5 : Bool) (x6 : BitVec 2) (x7 : BitVec 3) (hM : M < 64)
    (hw : w = M * 0x4000000 + x0.toNat * 0x400000 + x1.toNat * 0x200000 + x2.toNat * 0x10000 + x3.toNat * 0x2000 + x4.toNat * 0x1000 + x5.toNat * 0x800 + x6.toNat * 0x200 + x7.toNat * 0x40) :
    Decode.raw w 26 6 = M ∧ Decode.field w 16 5 = x2 ∧ Decode.field w 13 3 = x3 ∧ Decode.field w 22 4 = x0 ∧ Decode.field w 9 2 = x6 ∧ Decode.field w 6 3 = x7 ∧ Decode.flag w 21 = x1 ∧ Decode.flag w 12 = x4 ∧ Decode.flag w 11 = x5 ∧ Decode.raw w 0 6 = 0 := by
  have hx0 := x0.isLt
  have hx1 := Bool.toNat_le x1
  have hx2 := x2.isLt
  have hx3 := x3.isLt
  have hx4 := Bool.toNat_le x4
  have hx5 := Bool.toNat_le x5
  have hx6 := x6.isLt
  have hx7 := x7.isLt
  exact ⟨Decode.raw_eq (by omega), Decode.field_eq (by omega), Decode.field_eq (by omega), Decode.field_eq (by omega), Decode.field_eq (by omega), Decode.field_eq (by omega), Decode.flag_eq (by omega), Decode.flag_eq (by omega), Decode.flag_eq (by omega), Decode.raw_eq (by omega)⟩

theorem Decode.shape30 (M w : Nat) (x0 : BitVec 4) (x1 : Bool) (x2 : BitVec 3) (x3 : Bool) (x4 : BitVec 2) (x5 : BitVec 5) (x6 : Bool) (x7 : BitVec 5) (x8 : Bool) (hM : M < 64)
    (hw : w = M * 0x4000000 + x0.toNat * 0x400000 + x1.toNat * 0x200000 + x2.toNat * 0x40000 + x3.toNat * 0x20000 + x4.toNat * 0x8000 + x5.toNat * 0x400 + x6.toNat * 0x200 + x7.toNat * 0x10 + x8.toNat * 0x8) :
    Decode.raw w 26 6 = M ∧ Decode.field w 22 4 = x0 ∧ Decode.field w 18 3 = x2 ∧ Decode.field w 15 2 = x4 ∧ Decode.field w 10 5 = x5 ∧ Decode.field w 4 5 = x7 ∧ Decode.flag w 21 = x1 ∧ Decode.flag w 17 = x3 ∧ Decode.flag w 9 = x6 ∧ Decode.flag w 3 = x8 ∧ Decode.raw w 0 3 = 0 := by
  have hx0 := x0.isLt
  have hx1 := Bool.toNat_le x1
  have hx2 := x2.isLt
  have hx3 := Bool.toNat_le x3
  have hx4 := x4.isLt
  have hx5 := x5.isLt
  have hx6 := Bool.toNat_le x6
  have hx7 := x7.isLt
  have hx8 := Bool.toNat_le x8
  exact ⟨Decode.raw_eq (by omega), Decode.field_eq (by omega), Decode.field_eq (by omega), Decode.field_eq (by omega), Decode.field_eq (by omega), Decode.field_eq (by omega), Decode.flag_eq (by omega), Decode.flag_eq (by omega), Decode.flag_eq (by omega), Decode.flag_eq (by omega), Decode.raw_eq (by omega)⟩

theorem Decode.shape31 (M F w : Nat) (hM : M < 64) (hF : F < 256)
    (hw : w = M * 0x4000000 + F * 0x1) :
    Decode.raw w 26 6 = M ∧ Decode.raw w 0 8 = F ∧ Decode.raw w 8 18 = 0 := by
  exact ⟨Decode.raw_eq (by omega), Decode.raw_eq (by omega), Decode.raw_eq (by omega)⟩

theorem Decode.shape32 (M F w : Nat) (hM : M < 64) (hF : F < 1024)
    (hw : w = M * 0x4000000 + F * 0x1) :
    Decode.raw w 26 6 = M ∧ Decode.raw w 0 10 = F ∧ Decode.raw w 10 16 = 0 := by
  exact ⟨Decode.raw_eq (by omega), Decode.raw_eq (by omega), Decode.raw_eq (by omega)⟩

theorem Decode.shape33 (M F w : Nat) (hM : M < 64) (hF : F < 32)
    (hw : w = M * 0x4000000 + F * 0x8) :
    Decode.raw w 26 6 = M ∧ Decode.raw w 3 5 = F ∧ Decode.raw w 0 3 = 0 ∧ Decode.raw w 8 18 = 0 := by
  exact ⟨Decode.raw_eq (by omega), Decode.raw_eq (by omega), Decode.raw_eq (by omega), Decode.raw_eq (by omega)⟩

end Sys2Proof

namespace Sys2Proof.Laws

open Sys2Proof

/-- A well-formed instruction that is no event is decoded from the word the encoder writes for it. -/
def RoundTrip.Statement (i : Instr) : Prop := i.wf = true → i.isEvent = false → decode (encode i) = .ok i

theorem RoundTrip.add (d : BitVec 6) (a : BitVec 6) (b : BitVec 6) : RoundTrip.Statement (.add d a b) := by
  intro _ _
  obtain ⟨w, hw⟩ : ∃ w, w = encode (.add d a b) := ⟨_, rfl⟩
  rw [← hw]
  obtain ⟨h1, h2, f0, f1, f2⟩ := Decode.shape0 0x1 0x0 w d a b (by decide) (by decide) hw
  rw [Decode.at01 h1]
  simp only [Decode.major01, h2, f0, f1, f2]

theorem RoundTrip.sub (d : BitVec 6) (a : BitVec 6) (b : BitVec 6) : RoundTrip.Statement (.sub d a b) := by
  intro _ _
  obtain ⟨w, hw⟩ : ∃ w, w = encode (.sub d a b) := ⟨_, rfl⟩
  rw [← hw]
  obtain ⟨h1, h2, f0, f1, f2⟩ := Decode.shape0 0x1 0x1 w d a b (by decide) (by decide) hw
  rw [Decode.at01 h1]
  simp only [Decode.major01, h2, f0, f1, f2]

theorem RoundTrip.and (d : BitVec 6) (a : BitVec 6) (b : BitVec 6) : RoundTrip.Statement (.and d a b) := by
  intro _ _
  obtain ⟨w, hw⟩ : ∃ w, w = encode (.and d a b) := ⟨_, rfl⟩
  rw [← hw]
  obtain ⟨h1, h2, f0, f1, f2⟩ := Decode.shape0 0x1 0x2 w d a b (by decide) (by decide) hw
  rw [Decode.at01 h1]
  simp only [Decode.major01, h2, f0, f1, f2]

theorem RoundTrip.or (d : BitVec 6) (a : BitVec 6) (b : BitVec 6) : RoundTrip.Statement (.or d a b) := by
  intro _ _
  obtain ⟨w, hw⟩ : ∃ w, w = encode (.or d a b) := ⟨_, rfl⟩
  rw [← hw]
  obtain ⟨h1, h2, f0, f1, f2⟩ := Decode.shape0 0x1 0x3 w d a b (by decide) (by decide) hw
  rw [Decode.at01 h1]
  simp only [Decode.major01, h2, f0, f1, f2]

theorem RoundTrip.xor (d : BitVec 6) (a : BitVec 6) (b : BitVec 6) : RoundTrip.Statement (.xor d a b) := by
  intro _ _
  obtain ⟨w, hw⟩ : ∃ w, w = encode (.xor d a b) := ⟨_, rfl⟩
  rw [← hw]
  obtain ⟨h1, h2, f0, f1, f2⟩ := Decode.shape0 0x1 0x4 w d a b (by decide) (by decide) hw
  rw [Decode.at01 h1]
  simp only [Decode.major01, h2, f0, f1, f2]

theorem RoundTrip.andn (d : BitVec 6) (a : BitVec 6) (b : BitVec 6) : RoundTrip.Statement (.andn d a b) := by
  intro _ _
  obtain ⟨w, hw⟩ : ∃ w, w = encode (.andn d a b) := ⟨_, rfl⟩
  rw [← hw]
  obtain ⟨h1, h2, f0, f1, f2⟩ := Decode.shape0 0x1 0x5 w d a b (by decide) (by decide) hw
  rw [Decode.at01 h1]
  simp only [Decode.major01, h2, f0, f1, f2]

theorem RoundTrip.sll (d : BitVec 6) (a : BitVec 6) (b : BitVec 6) : RoundTrip.Statement (.sll d a b) := by
  intro _ _
  obtain ⟨w, hw⟩ : ∃ w, w = encode (.sll d a b) := ⟨_, rfl⟩
  rw [← hw]
  obtain ⟨h1, h2, f0, f1, f2⟩ := Decode.shape0 0x1 0x6 w d a b (by decide) (by decide) hw
  rw [Decode.at01 h1]
  simp only [Decode.major01, h2, f0, f1, f2]

theorem RoundTrip.srl (d : BitVec 6) (a : BitVec 6) (b : BitVec 6) : RoundTrip.Statement (.srl d a b) := by
  intro _ _
  obtain ⟨w, hw⟩ : ∃ w, w = encode (.srl d a b) := ⟨_, rfl⟩
  rw [← hw]
  obtain ⟨h1, h2, f0, f1, f2⟩ := Decode.shape0 0x1 0x7 w d a b (by decide) (by decide) hw
  rw [Decode.at01 h1]
  simp only [Decode.major01, h2, f0, f1, f2]

theorem RoundTrip.sra (d : BitVec 6) (a : BitVec 6) (b : BitVec 6) : RoundTrip.Statement (.sra d a b) := by
  intro _ _
  obtain ⟨w, hw⟩ : ∃ w, w = encode (.sra d a b) := ⟨_, rfl⟩
  rw [← hw]
  obtain ⟨h1, h2, f0, f1, f2⟩ := Decode.shape0 0x1 0x8 w d a b (by decide) (by decide) hw
  rw [Decode.at01 h1]
  simp only [Decode.major01, h2, f0, f1, f2]

theorem RoundTrip.mul (d : BitVec 6) (a : BitVec 6) (b : BitVec 6) : RoundTrip.Statement (.mul d a b) := by
  intro _ _
  obtain ⟨w, hw⟩ : ∃ w, w = encode (.mul d a b) := ⟨_, rfl⟩
  rw [← hw]
  obtain ⟨h1, h2, f0, f1, f2⟩ := Decode.shape0 0x1 0x10 w d a b (by decide) (by decide) hw
  rw [Decode.at01 h1]
  simp only [Decode.major01, h2, f0, f1, f2]

theorem RoundTrip.mulh (d : BitVec 6) (a : BitVec 6) (b : BitVec 6) : RoundTrip.Statement (.mulh d a b) := by
  intro _ _
  obtain ⟨w, hw⟩ : ∃ w, w = encode (.mulh d a b) := ⟨_, rfl⟩
  rw [← hw]
  obtain ⟨h1, h2, f0, f1, f2⟩ := Decode.shape0 0x1 0x11 w d a b (by decide) (by decide) hw
  rw [Decode.at01 h1]
  simp only [Decode.major01, h2, f0, f1, f2]

theorem RoundTrip.mulhu (d : BitVec 6) (a : BitVec 6) (b : BitVec 6) : RoundTrip.Statement (.mulhu d a b) := by
  intro _ _
  obtain ⟨w, hw⟩ : ∃ w, w = encode (.mulhu d a b) := ⟨_, rfl⟩
  rw [← hw]
  obtain ⟨h1, h2, f0, f1, f2⟩ := Decode.shape0 0x1 0x12 w d a b (by decide) (by decide) hw
  rw [Decode.at01 h1]
  simp only [Decode.major01, h2, f0, f1, f2]

theorem RoundTrip.div (d : BitVec 6) (a : BitVec 6) (b : BitVec 6) : RoundTrip.Statement (.div d a b) := by
  intro _ _
  obtain ⟨w, hw⟩ : ∃ w, w = encode (.div d a b) := ⟨_, rfl⟩
  rw [← hw]
  obtain ⟨h1, h2, f0, f1, f2⟩ := Decode.shape0 0x1 0x13 w d a b (by decide) (by decide) hw
  rw [Decode.at01 h1]
  simp only [Decode.major01, h2, f0, f1, f2]

theorem RoundTrip.divu (d : BitVec 6) (a : BitVec 6) (b : BitVec 6) : RoundTrip.Statement (.divu d a b) := by
  intro _ _
  obtain ⟨w, hw⟩ : ∃ w, w = encode (.divu d a b) := ⟨_, rfl⟩
  rw [← hw]
  obtain ⟨h1, h2, f0, f1, f2⟩ := Decode.shape0 0x1 0x14 w d a b (by decide) (by decide) hw
  rw [Decode.at01 h1]
  simp only [Decode.major01, h2, f0, f1, f2]

theorem RoundTrip.rem (d : BitVec 6) (a : BitVec 6) (b : BitVec 6) : RoundTrip.Statement (.rem d a b) := by
  intro _ _
  obtain ⟨w, hw⟩ : ∃ w, w = encode (.rem d a b) := ⟨_, rfl⟩
  rw [← hw]
  obtain ⟨h1, h2, f0, f1, f2⟩ := Decode.shape0 0x1 0x15 w d a b (by decide) (by decide) hw
  rw [Decode.at01 h1]
  simp only [Decode.major01, h2, f0, f1, f2]

theorem RoundTrip.remu (d : BitVec 6) (a : BitVec 6) (b : BitVec 6) : RoundTrip.Statement (.remu d a b) := by
  intro _ _
  obtain ⟨w, hw⟩ : ∃ w, w = encode (.remu d a b) := ⟨_, rfl⟩
  rw [← hw]
  obtain ⟨h1, h2, f0, f1, f2⟩ := Decode.shape0 0x1 0x16 w d a b (by decide) (by decide) hw
  rw [Decode.at01 h1]
  simp only [Decode.major01, h2, f0, f1, f2]

theorem RoundTrip.min (d : BitVec 6) (a : BitVec 6) (b : BitVec 6) : RoundTrip.Statement (.min d a b) := by
  intro _ _
  obtain ⟨w, hw⟩ : ∃ w, w = encode (.min d a b) := ⟨_, rfl⟩
  rw [← hw]
  obtain ⟨h1, h2, f0, f1, f2⟩ := Decode.shape0 0x1 0x18 w d a b (by decide) (by decide) hw
  rw [Decode.at01 h1]
  simp only [Decode.major01, h2, f0, f1, f2]

theorem RoundTrip.max (d : BitVec 6) (a : BitVec 6) (b : BitVec 6) : RoundTrip.Statement (.max d a b) := by
  intro _ _
  obtain ⟨w, hw⟩ : ∃ w, w = encode (.max d a b) := ⟨_, rfl⟩
  rw [← hw]
  obtain ⟨h1, h2, f0, f1, f2⟩ := Decode.shape0 0x1 0x19 w d a b (by decide) (by decide) hw
  rw [Decode.at01 h1]
  simp only [Decode.major01, h2, f0, f1, f2]

theorem RoundTrip.minu (d : BitVec 6) (a : BitVec 6) (b : BitVec 6) : RoundTrip.Statement (.minu d a b) := by
  intro _ _
  obtain ⟨w, hw⟩ : ∃ w, w = encode (.minu d a b) := ⟨_, rfl⟩
  rw [← hw]
  obtain ⟨h1, h2, f0, f1, f2⟩ := Decode.shape0 0x1 0x1a w d a b (by decide) (by decide) hw
  rw [Decode.at01 h1]
  simp only [Decode.major01, h2, f0, f1, f2]

theorem RoundTrip.maxu (d : BitVec 6) (a : BitVec 6) (b : BitVec 6) : RoundTrip.Statement (.maxu d a b) := by
  intro _ _
  obtain ⟨w, hw⟩ : ∃ w, w = encode (.maxu d a b) := ⟨_, rfl⟩
  rw [← hw]
  obtain ⟨h1, h2, f0, f1, f2⟩ := Decode.shape0 0x1 0x1b w d a b (by decide) (by decide) hw
  rw [Decode.at01 h1]
  simp only [Decode.major01, h2, f0, f1, f2]

theorem RoundTrip.clz (d : BitVec 6) (a : BitVec 6) : RoundTrip.Statement (.clz d a) := by
  intro _ _
  obtain ⟨w, hw⟩ : ∃ w, w = encode (.clz d a) := ⟨_, rfl⟩
  rw [← hw]
  obtain ⟨h1, h2, f0, f1, z0⟩ := Decode.shape1 0x1 0x20 w d a (by decide) (by decide) hw
  rw [Decode.at01 h1]
  simp only [Decode.major01, h2, f0, f1, z0, Decode.clean, if_true]

theorem RoundTrip.ctz (d : BitVec 6) (a : BitVec 6) : RoundTrip.Statement (.ctz d a) := by
  intro _ _
  obtain ⟨w, hw⟩ : ∃ w, w = encode (.ctz d a) := ⟨_, rfl⟩
  rw [← hw]
  obtain ⟨h1, h2, f0, f1, z0⟩ := Decode.shape1 0x1 0x21 w d a (by decide) (by decide) hw
  rw [Decode.at01 h1]
  simp only [Decode.major01, h2, f0, f1, z0, Decode.clean, if_true]

theorem RoundTrip.popc (d : BitVec 6) (a : BitVec 6) : RoundTrip.Statement (.popc d a) := by
  intro _ _
  obtain ⟨w, hw⟩ : ∃ w, w = encode (.popc d a) := ⟨_, rfl⟩
  rw [← hw]
  obtain ⟨h1, h2, f0, f1, z0⟩ := Decode.shape1 0x1 0x22 w d a (by decide) (by decide) hw
  rw [Decode.at01 h1]
  simp only [Decode.major01, h2, f0, f1, z0, Decode.clean, if_true]

theorem RoundTrip.seq (d : BitVec 6) (a : BitVec 6) (b : BitVec 6) : RoundTrip.Statement (.seq d a b) := by
  intro _ _
  obtain ⟨w, hw⟩ : ∃ w, w = encode (.seq d a b) := ⟨_, rfl⟩
  rw [← hw]
  obtain ⟨h1, h2, f0, f1, f2⟩ := Decode.shape0 0x1 0x28 w d a b (by decide) (by decide) hw
  rw [Decode.at01 h1]
  simp only [Decode.major01, h2, f0, f1, f2]

theorem RoundTrip.slt (d : BitVec 6) (a : BitVec 6) (b : BitVec 6) : RoundTrip.Statement (.slt d a b) := by
  intro _ _
  obtain ⟨w, hw⟩ : ∃ w, w = encode (.slt d a b) := ⟨_, rfl⟩
  rw [← hw]
  obtain ⟨h1, h2, f0, f1, f2⟩ := Decode.shape0 0x1 0x29 w d a b (by decide) (by decide) hw
  rw [Decode.at01 h1]
  simp only [Decode.major01, h2, f0, f1, f2]

theorem RoundTrip.sltu (d : BitVec 6) (a : BitVec 6) (b : BitVec 6) : RoundTrip.Statement (.sltu d a b) := by
  intro _ _
  obtain ⟨w, hw⟩ : ∃ w, w = encode (.sltu d a b) := ⟨_, rfl⟩
  rw [← hw]
  obtain ⟨h1, h2, f0, f1, f2⟩ := Decode.shape0 0x1 0x2a w d a b (by decide) (by decide) hw
  rw [Decode.at01 h1]
  simp only [Decode.major01, h2, f0, f1, f2]

theorem RoundTrip.addi (d : BitVec 6) (a : BitVec 6) (i : BitVec 14) : RoundTrip.Statement (.addi d a i) := by
  intro _ _
  obtain ⟨w, hw⟩ : ∃ w, w = encode (.addi d a i) := ⟨_, rfl⟩
  rw [← hw]
  obtain ⟨h1, f0, f1, f2⟩ := Decode.shape2 0x2 w d a i (by decide) hw
  rw [Decode.at02 h1]
  simp only [f0, f1, f2]

theorem RoundTrip.andi (d : BitVec 6) (a : BitVec 6) (i : BitVec 14) : RoundTrip.Statement (.andi d a i) := by
  intro _ _
  obtain ⟨w, hw⟩ : ∃ w, w = encode (.andi d a i) := ⟨_, rfl⟩
  rw [← hw]
  obtain ⟨h1, f0, f1, f2⟩ := Decode.shape2 0x3 w d a i (by decide) hw
  rw [Decode.at03 h1]
  simp only [f0, f1, f2]

theorem RoundTrip.ori (d : BitVec 6) (a : BitVec 6) (i : BitVec 14) : RoundTrip.Statement (.ori d a i) := by
  intro _ _
  obtain ⟨w, hw⟩ : ∃ w, w = encode (.ori d a i) := ⟨_, rfl⟩
  rw [← hw]
  obtain ⟨h1, f0, f1, f2⟩ := Decode.shape2 0x4 w d a i (by decide) hw
  rw [Decode.at04 h1]
  simp only [f0, f1, f2]

theorem RoundTrip.xori (d : BitVec 6) (a : BitVec 6) (i : BitVec 14) : RoundTrip.Statement (.xori d a i) := by
  intro _ _
  obtain ⟨w, hw⟩ : ∃ w, w = encode (.xori d a i) := ⟨_, rfl⟩
  rw [← hw]
  obtain ⟨h1, f0, f1, f2⟩ := Decode.shape2 0x5 w d a i (by decide) hw
  rw [Decode.at05 h1]
  simp only [f0, f1, f2]

theorem RoundTrip.slti (d : BitVec 6) (a : BitVec 6) (i : BitVec 14) : RoundTrip.Statement (.slti d a i) := by
  intro _ _
  obtain ⟨w, hw⟩ : ∃ w, w = encode (.slti d a i) := ⟨_, rfl⟩
  rw [← hw]
  obtain ⟨h1, f0, f1, f2⟩ := Decode.shape2 0x6 w d a i (by decide) hw
  rw [Decode.at06 h1]
  simp only [f0, f1, f2]

theorem RoundTrip.sltiu (d : BitVec 6) (a : BitVec 6) (i : BitVec 14) : RoundTrip.Statement (.sltiu d a i) := by
  intro _ _
  obtain ⟨w, hw⟩ : ∃ w, w = encode (.sltiu d a i) := ⟨_, rfl⟩
  rw [← hw]
  obtain ⟨h1, f0, f1, f2⟩ := Decode.shape2 0x7 w d a i (by decide) hw
  rw [Decode.at07 h1]
  simp only [f0, f1, f2]

theorem RoundTrip.slli (d : BitVec 6) (a : BitVec 6) (n : BitVec 6) : RoundTrip.Statement (.slli d a n) := by
  intro _ _
  obtain ⟨w, hw⟩ : ∃ w, w = encode (.slli d a n) := ⟨_, rfl⟩
  rw [← hw]
  obtain ⟨h1, h2, f0, f1, f2⟩ := Decode.shape0 0x8 0x0 w d a n (by decide) (by decide) hw
  rw [Decode.at08 h1]
  simp only [Decode.major08, h2, f0, f1, f2]

theorem RoundTrip.srli (d : BitVec 6) (a : BitVec 6) (n : BitVec 6) : RoundTrip.Statement (.srli d a n) := by
  intro _ _
  obtain ⟨w, hw⟩ : ∃ w, w = encode (.srli d a n) := ⟨_, rfl⟩
  rw [← hw]
  obtain ⟨h1, h2, f0, f1, f2⟩ := Decode.shape0 0x8 0x1 w d a n (by decide) (by decide) hw
  rw [Decode.at08 h1]
  simp only [Decode.major08, h2, f0, f1, f2]

theorem RoundTrip.srai (d : BitVec 6) (a : BitVec 6) (n : BitVec 6) : RoundTrip.Statement (.srai d a n) := by
  intro _ _
  obtain ⟨w, hw⟩ : ∃ w, w = encode (.srai d a n) := ⟨_, rfl⟩
  rw [← hw]
  obtain ⟨h1, h2, f0, f1, f2⟩ := Decode.shape0 0x8 0x2 w d a n (by decide) (by decide) hw
  rw [Decode.at08 h1]
  simp only [Decode.major08, h2, f0, f1, f2]

theorem RoundTrip.immh (d : BitVec 6) (i : BitVec 20) : RoundTrip.Statement (.immh d i) := by
  intro _ _
  obtain ⟨w, hw⟩ : ∃ w, w = encode (.immh d i) := ⟨_, rfl⟩
  rw [← hw]
  obtain ⟨h1, f0, f1⟩ := Decode.shape3 0x9 w d i (by decide) hw
  rw [Decode.at09 h1]
  simp only [f0, f1]

theorem RoundTrip.pcrel (d : BitVec 6) (i : BitVec 20) : RoundTrip.Statement (.pcrel d i) := by
  intro _ _
  obtain ⟨w, hw⟩ : ∃ w, w = encode (.pcrel d i) := ⟨_, rfl⟩
  rw [← hw]
  obtain ⟨h1, f0, f1⟩ := Decode.shape3 0xa w d i (by decide) hw
  rw [Decode.at0A h1]
  simp only [f0, f1]

theorem RoundTrip.beq (a : BitVec 6) (b : BitVec 6) (o : BitVec 14) : RoundTrip.Statement (.beq a b o) := by
  intro _ _
  obtain ⟨w, hw⟩ : ∃ w, w = encode (.beq a b o) := ⟨_, rfl⟩
  rw [← hw]
  obtain ⟨h1, f0, f1, f2⟩ := Decode.shape2 0xc w a b o (by decide) hw
  rw [Decode.at0C h1]
  simp only [f0, f1, f2]

theorem RoundTrip.bne (a : BitVec 6) (b : BitVec 6) (o : BitVec 14) : RoundTrip.Statement (.bne a b o) := by
  intro _ _
  obtain ⟨w, hw⟩ : ∃ w, w = encode (.bne a b o) := ⟨_, rfl⟩
  rw [← hw]
  obtain ⟨h1, f0, f1, f2⟩ := Decode.shape2 0xd w a b o (by decide) hw
  rw [Decode.at0D h1]
  simp only [f0, f1, f2]

theorem RoundTrip.blt (a : BitVec 6) (b : BitVec 6) (o : BitVec 14) : RoundTrip.Statement (.blt a b o) := by
  intro _ _
  obtain ⟨w, hw⟩ : ∃ w, w = encode (.blt a b o) := ⟨_, rfl⟩
  rw [← hw]
  obtain ⟨h1, f0, f1, f2⟩ := Decode.shape2 0xe w a b o (by decide) hw
  rw [Decode.at0E h1]
  simp only [f0, f1, f2]

theorem RoundTrip.bge (a : BitVec 6) (b : BitVec 6) (o : BitVec 14) : RoundTrip.Statement (.bge a b o) := by
  intro _ _
  obtain ⟨w, hw⟩ : ∃ w, w = encode (.bge a b o) := ⟨_, rfl⟩
  rw [← hw]
  obtain ⟨h1, f0, f1, f2⟩ := Decode.shape2 0xf w a b o (by decide) hw
  rw [Decode.at0F h1]
  simp only [f0, f1, f2]

theorem RoundTrip.bltu (a : BitVec 6) (b : BitVec 6) (o : BitVec 14) : RoundTrip.Statement (.bltu a b o) := by
  intro _ _
  obtain ⟨w, hw⟩ : ∃ w, w = encode (.bltu a b o) := ⟨_, rfl⟩
  rw [← hw]
  obtain ⟨h1, f0, f1, f2⟩ := Decode.shape2 0x10 w a b o (by decide) hw
  rw [Decode.at10 h1]
  simp only [f0, f1, f2]

theorem RoundTrip.bgeu (a : BitVec 6) (b : BitVec 6) (o : BitVec 14) : RoundTrip.Statement (.bgeu a b o) := by
  intro _ _
  obtain ⟨w, hw⟩ : ∃ w, w = encode (.bgeu a b o) := ⟨_, rfl⟩
  rw [← hw]
  obtain ⟨h1, f0, f1, f2⟩ := Decode.shape2 0x11 w a b o (by decide) hw
  rw [Decode.at11 h1]
  simp only [f0, f1, f2]

theorem RoundTrip.jlk (d : BitVec 6) (o : BitVec 20) : RoundTrip.Statement (.jlk d o) := by
  intro _ _
  obtain ⟨w, hw⟩ : ∃ w, w = encode (.jlk d o) := ⟨_, rfl⟩
  rw [← hw]
  obtain ⟨h1, f0, f1⟩ := Decode.shape3 0x12 w d o (by decide) hw
  rw [Decode.at12 h1]
  simp only [f0, f1]

theorem RoundTrip.jlkr (d : BitVec 6) (a : BitVec 6) (i : BitVec 14) : RoundTrip.Statement (.jlkr d a i) := by
  intro _ _
  obtain ⟨w, hw⟩ : ∃ w, w = encode (.jlkr d a i) := ⟨_, rfl⟩
  rw [← hw]
  obtain ⟨h1, f0, f1, f2⟩ := Decode.shape2 0x13 w d a i (by decide) hw
  rw [Decode.at13 h1]
  simp only [f0, f1, f2]

theorem RoundTrip.lb (d : BitVec 6) (a : BitVec 6) (i : BitVec 14) : RoundTrip.Statement (.lb d a i) := by
  intro _ _
  obtain ⟨w, hw⟩ : ∃ w, w = encode (.lb d a i) := ⟨_, rfl⟩
  rw [← hw]
  obtain ⟨h1, f0, f1, f2⟩ := Decode.shape2 0x14 w d a i (by decide) hw
  rw [Decode.at14 h1]
  simp only [f0, f1, f2]

theorem RoundTrip.lbu (d : BitVec 6) (a : BitVec 6) (i : BitVec 14) : RoundTrip.Statement (.lbu d a i) := by
  intro _ _
  obtain ⟨w, hw⟩ : ∃ w, w = encode (.lbu d a i) := ⟨_, rfl⟩
  rw [← hw]
  obtain ⟨h1, f0, f1, f2⟩ := Decode.shape2 0x15 w d a i (by decide) hw
  rw [Decode.at15 h1]
  simp only [f0, f1, f2]

theorem RoundTrip.lh (d : BitVec 6) (a : BitVec 6) (i : BitVec 14) : RoundTrip.Statement (.lh d a i) := by
  intro _ _
  obtain ⟨w, hw⟩ : ∃ w, w = encode (.lh d a i) := ⟨_, rfl⟩
  rw [← hw]
  obtain ⟨h1, f0, f1, f2⟩ := Decode.shape2 0x16 w d a i (by decide) hw
  rw [Decode.at16 h1]
  simp only [f0, f1, f2]

theorem RoundTrip.lhu (d : BitVec 6) (a : BitVec 6) (i : BitVec 14) : RoundTrip.Statement (.lhu d a i) := by
  intro _ _
  obtain ⟨w, hw⟩ : ∃ w, w = encode (.lhu d a i) := ⟨_, rfl⟩
  rw [← hw]
  obtain ⟨h1, f0, f1, f2⟩ := Decode.shape2 0x17 w d a i (by decide) hw
  rw [Decode.at17 h1]
  simp only [f0, f1, f2]

theorem RoundTrip.lw (d : BitVec 6) (a : BitVec 6) (i : BitVec 14) : RoundTrip.Statement (.lw d a i) := by
  intro _ _
  obtain ⟨w, hw⟩ : ∃ w, w = encode (.lw d a i) := ⟨_, rfl⟩
  rw [← hw]
  obtain ⟨h1, f0, f1, f2⟩ := Decode.shape2 0x18 w d a i (by decide) hw
  rw [Decode.at18 h1]
  simp only [f0, f1, f2]

theorem RoundTrip.lwu (d : BitVec 6) (a : BitVec 6) (i : BitVec 14) : RoundTrip.Statement (.lwu d a i) := by
  intro _ _
  obtain ⟨w, hw⟩ : ∃ w, w = encode (.lwu d a i) := ⟨_, rfl⟩
  rw [← hw]
  obtain ⟨h1, f0, f1, f2⟩ := Decode.shape2 0x19 w d a i (by decide) hw
  rw [Decode.at19 h1]
  simp only [f0, f1, f2]

theorem RoundTrip.ld (d : BitVec 6) (a : BitVec 6) (i : BitVec 14) : RoundTrip.Statement (.ld d a i) := by
  intro _ _
  obtain ⟨w, hw⟩ : ∃ w, w = encode (.ld d a i) := ⟨_, rfl⟩
  rw [← hw]
  obtain ⟨h1, f0, f1, f2⟩ := Decode.shape2 0x1a w d a i (by decide) hw
  rw [Decode.at1A h1]
  simp only [f0, f1, f2]

theorem RoundTrip.sb (d : BitVec 6) (a : BitVec 6) (i : BitVec 14) : RoundTrip.Statement (.sb d a i) := by
  intro _ _
  obtain ⟨w, hw⟩ : ∃ w, w = encode (.sb d a i) := ⟨_, rfl⟩
  rw [← hw]
  obtain ⟨h1, f0, f1, f2⟩ := Decode.shape2 0x1b w d a i (by decide) hw
  rw [Decode.at1B h1]
  simp only [f0, f1, f2]

theorem RoundTrip.sh (d : BitVec 6) (a : BitVec 6) (i : BitVec 14) : RoundTrip.Statement (.sh d a i) := by
  intro _ _
  obtain ⟨w, hw⟩ : ∃ w, w = encode (.sh d a i) := ⟨_, rfl⟩
  rw [← hw]
  obtain ⟨h1, f0, f1, f2⟩ := Decode.shape2 0x1c w d a i (by decide) hw
  rw [Decode.at1C h1]
  simp only [f0, f1, f2]

theorem RoundTrip.sw (d : BitVec 6) (a : BitVec 6) (i : BitVec 14) : RoundTrip.Statement (.sw d a i) := by
  intro _ _
  obtain ⟨w, hw⟩ : ∃ w, w = encode (.sw d a i) := ⟨_, rfl⟩
  rw [← hw]
  obtain ⟨h1, f0, f1, f2⟩ := Decode.shape2 0x1d w d a i (by decide) hw
  rw [Decode.at1D h1]
  simp only [f0, f1, f2]

theorem RoundTrip.sd (d : BitVec 6) (a : BitVec 6) (i : BitVec 14) : RoundTrip.Statement (.sd d a i) := by
  intro _ _
  obtain ⟨w, hw⟩ : ∃ w, w = encode (.sd d a i) := ⟨_, rfl⟩
  rw [← hw]
  obtain ⟨h1, f0, f1, f2⟩ := Decode.shape2 0x1e w d a i (by decide) hw
  rw [Decode.at1E h1]
  simp only [f0, f1, f2]

theorem RoundTrip.faddS (d : BitVec 6) (a : BitVec 6) (b : BitVec 6) : RoundTrip.Statement (.faddS d a b) := by
  intro _ _
  obtain ⟨w, hw⟩ : ∃ w, w = encode (.faddS d a b) := ⟨_, rfl⟩
  rw [← hw]
  obtain ⟨h1, h2, f0, f1, f2⟩ := Decode.shape0 0x1f 0x0 w d a b (by decide) (by decide) hw
  rw [Decode.at1F h1]
  simp only [Decode.major1F, h2, f0, f1, f2]

theorem RoundTrip.fsubS (d : BitVec 6) (a : BitVec 6) (b : BitVec 6) : RoundTrip.Statement (.fsubS d a b) := by
  intro _ _
  obtain ⟨w, hw⟩ : ∃ w, w = encode (.fsubS d a b) := ⟨_, rfl⟩
  rw [← hw]
  obtain ⟨h1, h2, f0, f1, f2⟩ := Decode.shape0 0x1f 0x1 w d a b (by decide) (by decide) hw
  rw [Decode.at1F h1]
  simp only [Decode.major1F, h2, f0, f1, f2]

theorem RoundTrip.fmulS (d : BitVec 6) (a : BitVec 6) (b : BitVec 6) : RoundTrip.Statement (.fmulS d a b) := by
  intro _ _
  obtain ⟨w, hw⟩ : ∃ w, w = encode (.fmulS d a b) := ⟨_, rfl⟩
  rw [← hw]
  obtain ⟨h1, h2, f0, f1, f2⟩ := Decode.shape0 0x1f 0x2 w d a b (by decide) (by decide) hw
  rw [Decode.at1F h1]
  simp only [Decode.major1F, h2, f0, f1, f2]

theorem RoundTrip.fdivS (d : BitVec 6) (a : BitVec 6) (b : BitVec 6) : RoundTrip.Statement (.fdivS d a b) := by
  intro _ _
  obtain ⟨w, hw⟩ : ∃ w, w = encode (.fdivS d a b) := ⟨_, rfl⟩
  rw [← hw]
  obtain ⟨h1, h2, f0, f1, f2⟩ := Decode.shape0 0x1f 0x3 w d a b (by decide) (by decide) hw
  rw [Decode.at1F h1]
  simp only [Decode.major1F, h2, f0, f1, f2]

theorem RoundTrip.fsqrtS (d : BitVec 6) (a : BitVec 6) : RoundTrip.Statement (.fsqrtS d a) := by
  intro _ _
  obtain ⟨w, hw⟩ : ∃ w, w = encode (.fsqrtS d a) := ⟨_, rfl⟩
  rw [← hw]
  obtain ⟨h1, h2, f0, f1, z0⟩ := Decode.shape1 0x1f 0x4 w d a (by decide) (by decide) hw
  rw [Decode.at1F h1]
  simp only [Decode.major1F, h2, f0, f1, z0, Decode.clean, if_true]

theorem RoundTrip.fminS (d : BitVec 6) (a : BitVec 6) (b : BitVec 6) : RoundTrip.Statement (.fminS d a b) := by
  intro _ _
  obtain ⟨w, hw⟩ : ∃ w, w = encode (.fminS d a b) := ⟨_, rfl⟩
  rw [← hw]
  obtain ⟨h1, h2, f0, f1, f2⟩ := Decode.shape0 0x1f 0x5 w d a b (by decide) (by decide) hw
  rw [Decode.at1F h1]
  simp only [Decode.major1F, h2, f0, f1, f2]

theorem RoundTrip.fmaxS (d : BitVec 6) (a : BitVec 6) (b : BitVec 6) : RoundTrip.Statement (.fmaxS d a b) := by
  intro _ _
  obtain ⟨w, hw⟩ : ∃ w, w = encode (.fmaxS d a b) := ⟨_, rfl⟩
  rw [← hw]
  obtain ⟨h1, h2, f0, f1, f2⟩ := Decode.shape0 0x1f 0x6 w d a b (by decide) (by decide) hw
  rw [Decode.at1F h1]
  simp only [Decode.major1F, h2, f0, f1, f2]

theorem RoundTrip.ffmaS (d : BitVec 6) (a : BitVec 6) (b : BitVec 6) : RoundTrip.Statement (.ffmaS d a b) := by
  intro _ _
  obtain ⟨w, hw⟩ : ∃ w, w = encode (.ffmaS d a b) := ⟨_, rfl⟩
  rw [← hw]
  obtain ⟨h1, h2, f0, f1, f2⟩ := Decode.shape0 0x1f 0x7 w d a b (by decide) (by decide) hw
  rw [Decode.at1F h1]
  simp only [Decode.major1F, h2, f0, f1, f2]

theorem RoundTrip.fceqS (d : BitVec 6) (a : BitVec 6) (b : BitVec 6) : RoundTrip.Statement (.fceqS d a b) := by
  intro _ _
  obtain ⟨w, hw⟩ : ∃ w, w = encode (.fceqS d a b) := ⟨_, rfl⟩
  rw [← hw]
  obtain ⟨h1, h2, f0, f1, f2⟩ := Decode.shape0 0x1f 0x8 w d a b (by decide) (by decide) hw
  rw [Decode.at1F h1]
  simp only [Decode.major1F, h2, f0, f1, f2]

theorem RoundTrip.fcltS (d : BitVec 6) (a : BitVec 6) (b : BitVec 6) : RoundTrip.Statement (.fcltS d a b) := by
  intro _ _
  obtain ⟨w, hw⟩ : ∃ w, w = encode (.fcltS d a b) := ⟨_, rfl⟩
  rw [← hw]
  obtain ⟨h1, h2, f0, f1, f2⟩ := Decode.shape0 0x1f 0x9 w d a b (by decide) (by decide) hw
  rw [Decode.at1F h1]
  simp only [Decode.major1F, h2, f0, f1, f2]

theorem RoundTrip.fcleS (d : BitVec 6) (a : BitVec 6) (b : BitVec 6) : RoundTrip.Statement (.fcleS d a b) := by
  intro _ _
  obtain ⟨w, hw⟩ : ∃ w, w = encode (.fcleS d a b) := ⟨_, rfl⟩
  rw [← hw]
  obtain ⟨h1, h2, f0, f1, f2⟩ := Decode.shape0 0x1f 0xa w d a b (by decide) (by decide) hw
  rw [Decode.at1F h1]
  simp only [Decode.major1F, h2, f0, f1, f2]

theorem RoundTrip.ftoiS (d : BitVec 6) (a : BitVec 6) : RoundTrip.Statement (.ftoiS d a) := by
  intro _ _
  obtain ⟨w, hw⟩ : ∃ w, w = encode (.ftoiS d a) := ⟨_, rfl⟩
  rw [← hw]
  obtain ⟨h1, h2, f0, f1, z0⟩ := Decode.shape1 0x1f 0xc w d a (by decide) (by decide) hw
  rw [Decode.at1F h1]
  simp only [Decode.major1F, h2, f0, f1, z0, Decode.clean, if_true]

theorem RoundTrip.itofS (d : BitVec 6) (a : BitVec 6) : RoundTrip.Statement (.itofS d a) := by
  intro _ _
  obtain ⟨w, hw⟩ : ∃ w, w = encode (.itofS d a) := ⟨_, rfl⟩
  rw [← hw]
  obtain ⟨h1, h2, f0, f1, z0⟩ := Decode.shape1 0x1f 0xe w d a (by decide) (by decide) hw
  rw [Decode.at1F h1]
  simp only [Decode.major1F, h2, f0, f1, z0, Decode.clean, if_true]

theorem RoundTrip.faddD (d : BitVec 6) (a : BitVec 6) (b : BitVec 6) : RoundTrip.Statement (.faddD d a b) := by
  intro _ _
  obtain ⟨w, hw⟩ : ∃ w, w = encode (.faddD d a b) := ⟨_, rfl⟩
  rw [← hw]
  obtain ⟨h1, h2, f0, f1, f2⟩ := Decode.shape0 0x1f 0x10 w d a b (by decide) (by decide) hw
  rw [Decode.at1F h1]
  simp only [Decode.major1F, h2, f0, f1, f2]

theorem RoundTrip.fsubD (d : BitVec 6) (a : BitVec 6) (b : BitVec 6) : RoundTrip.Statement (.fsubD d a b) := by
  intro _ _
  obtain ⟨w, hw⟩ : ∃ w, w = encode (.fsubD d a b) := ⟨_, rfl⟩
  rw [← hw]
  obtain ⟨h1, h2, f0, f1, f2⟩ := Decode.shape0 0x1f 0x11 w d a b (by decide) (by decide) hw
  rw [Decode.at1F h1]
  simp only [Decode.major1F, h2, f0, f1, f2]

theorem RoundTrip.fmulD (d : BitVec 6) (a : BitVec 6) (b : BitVec 6) : RoundTrip.Statement (.fmulD d a b) := by
  intro _ _
  obtain ⟨w, hw⟩ : ∃ w, w = encode (.fmulD d a b) := ⟨_, rfl⟩
  rw [← hw]
  obtain ⟨h1, h2, f0, f1, f2⟩ := Decode.shape0 0x1f 0x12 w d a b (by decide) (by decide) hw
  rw [Decode.at1F h1]
  simp only [Decode.major1F, h2, f0, f1, f2]

theorem RoundTrip.fdivD (d : BitVec 6) (a : BitVec 6) (b : BitVec 6) : RoundTrip.Statement (.fdivD d a b) := by
  intro _ _
  obtain ⟨w, hw⟩ : ∃ w, w = encode (.fdivD d a b) := ⟨_, rfl⟩
  rw [← hw]
  obtain ⟨h1, h2, f0, f1, f2⟩ := Decode.shape0 0x1f 0x13 w d a b (by decide) (by decide) hw
  rw [Decode.at1F h1]
  simp only [Decode.major1F, h2, f0, f1, f2]

theorem RoundTrip.fsqrtD (d : BitVec 6) (a : BitVec 6) : RoundTrip.Statement (.fsqrtD d a) := by
  intro _ _
  obtain ⟨w, hw⟩ : ∃ w, w = encode (.fsqrtD d a) := ⟨_, rfl⟩
  rw [← hw]
  obtain ⟨h1, h2, f0, f1, z0⟩ := Decode.shape1 0x1f 0x14 w d a (by decide) (by decide) hw
  rw [Decode.at1F h1]
  simp only [Decode.major1F, h2, f0, f1, z0, Decode.clean, if_true]

theorem RoundTrip.fminD (d : BitVec 6) (a : BitVec 6) (b : BitVec 6) : RoundTrip.Statement (.fminD d a b) := by
  intro _ _
  obtain ⟨w, hw⟩ : ∃ w, w = encode (.fminD d a b) := ⟨_, rfl⟩
  rw [← hw]
  obtain ⟨h1, h2, f0, f1, f2⟩ := Decode.shape0 0x1f 0x15 w d a b (by decide) (by decide) hw
  rw [Decode.at1F h1]
  simp only [Decode.major1F, h2, f0, f1, f2]

theorem RoundTrip.fmaxD (d : BitVec 6) (a : BitVec 6) (b : BitVec 6) : RoundTrip.Statement (.fmaxD d a b) := by
  intro _ _
  obtain ⟨w, hw⟩ : ∃ w, w = encode (.fmaxD d a b) := ⟨_, rfl⟩
  rw [← hw]
  obtain ⟨h1, h2, f0, f1, f2⟩ := Decode.shape0 0x1f 0x16 w d a b (by decide) (by decide) hw
  rw [Decode.at1F h1]
  simp only [Decode.major1F, h2, f0, f1, f2]

theorem RoundTrip.ffmaD (d : BitVec 6) (a : BitVec 6) (b : BitVec 6) : RoundTrip.Statement (.ffmaD d a b) := by
  intro _ _
  obtain ⟨w, hw⟩ : ∃ w, w = encode (.ffmaD d a b) := ⟨_, rfl⟩
  rw [← hw]
  obtain ⟨h1, h2, f0, f1, f2⟩ := Decode.shape0 0x1f 0x17 w d a b (by decide) (by decide) hw
  rw [Decode.at1F h1]
  simp only [Decode.major1F, h2, f0, f1, f2]

theorem RoundTrip.fceqD (d : BitVec 6) (a : BitVec 6) (b : BitVec 6) : RoundTrip.Statement (.fceqD d a b) := by
  intro _ _
  obtain ⟨w, hw⟩ : ∃ w, w = encode (.fceqD d a b) := ⟨_, rfl⟩
  rw [← hw]
  obtain ⟨h1, h2, f0, f1, f2⟩ := Decode.shape0 0x1f 0x18 w d a b (by decide) (by decide) hw
  rw [Decode.at1F h1]
  simp only [Decode.major1F, h2, f0, f1, f2]

theorem RoundTrip.fcltD (d : BitVec 6) (a : BitVec 6) (b : BitVec 6) : RoundTrip.Statement (.fcltD d a b) := by
  intro _ _
  obtain ⟨w, hw⟩ : ∃ w, w = encode (.fcltD d a b) := ⟨_, rfl⟩
  rw [← hw]
  obtain ⟨h1, h2, f0, f1, f2⟩ := Decode.shape0 0x1f 0x19 w d a b (by decide) (by decide) hw
  rw [Decode.at1F h1]
  simp only [Decode.major1F, h2, f0, f1, f2]

theorem RoundTrip.fcleD (d : BitVec 6) (a : BitVec 6) (b : BitVec 6) : RoundTrip.Statement (.fcleD d a b) := by
  intro _ _
  obtain ⟨w, hw⟩ : ∃ w, w = encode (.fcleD d a b) := ⟨_, rfl⟩
  rw [← hw]
  obtain ⟨h1, h2, f0, f1, f2⟩ := Decode.shape0 0x1f 0x1a w d a b (by decide) (by decide) hw
  rw [Decode.at1F h1]
  simp only [Decode.major1F, h2, f0, f1, f2]

theorem RoundTrip.ftoiD (d : BitVec 6) (a : BitVec 6) : RoundTrip.Statement (.ftoiD d a) := by
  intro _ _
  obtain ⟨w, hw⟩ : ∃ w, w = encode (.ftoiD d a) := ⟨_, rfl⟩
  rw [← hw]
  obtain ⟨h1, h2, f0, f1, z0⟩ := Decode.shape1 0x1f 0x1c w d a (by decide) (by decide) hw
  rw [Decode.at1F h1]
  simp only [Decode.major1F, h2, f0, f1, z0, Decode.clean, if_true]

theorem RoundTrip.itofD (d : BitVec 6) (a : BitVec 6) : RoundTrip.Statement (.itofD d a) := by
  intro _ _
  obtain ⟨w, hw⟩ : ∃ w, w = encode (.itofD d a) := ⟨_, rfl⟩
  rw [← hw]
  obtain ⟨h1, h2, f0, f1, z0⟩ := Decode.shape1 0x1f 0x1e w d a (by decide) (by decide) hw
  rw [Decode.at1F h1]
  simp only [Decode.major1F, h2, f0, f1, z0, Decode.clean, if_true]

theorem RoundTrip.fnrw (d : BitVec 6) (a : BitVec 6) : RoundTrip.Statement (.fnrw d a) := by
  intro _ _
  obtain ⟨w, hw⟩ : ∃ w, w = encode (.fnrw d a) := ⟨_, rfl⟩
  rw [← hw]
  obtain ⟨h1, h2, f0, f1, z0⟩ := Decode.shape1 0x1f 0x20 w d a (by decide) (by decide) hw
  rw [Decode.at1F h1]
  simp only [Decode.major1F, h2, f0, f1, z0, Decode.clean, if_true]

theorem RoundTrip.fwdn (d : BitVec 6) (a : BitVec 6) : RoundTrip.Statement (.fwdn d a) := by
  intro _ _
  obtain ⟨w, hw⟩ : ∃ w, w = encode (.fwdn d a) := ⟨_, rfl⟩
  rw [← hw]
  obtain ⟨h1, h2, f0, f1, z0⟩ := Decode.shape1 0x1f 0x21 w d a (by decide) (by decide) hw
  rw [Decode.at1F h1]
  simp only [Decode.major1F, h2, f0, f1, z0, Decode.clean, if_true]

theorem RoundTrip.rdc (d : BitVec 6) (c : BitVec 12) : RoundTrip.Statement (.rdc d c) := by
  intro _ _
  obtain ⟨w, hw⟩ : ∃ w, w = encode (.rdc d c) := ⟨_, rfl⟩
  rw [← hw]
  obtain ⟨h1, f0, f1, z0⟩ := Decode.shape4 0x20 w d c (by decide) hw
  rw [Decode.at20 h1]
  simp only [f0, f1, z0, Decode.clean, if_true]

theorem RoundTrip.wrc (a : BitVec 6) (c : BitVec 12) : RoundTrip.Statement (.wrc a c) := by
  intro _ _
  obtain ⟨w, hw⟩ : ∃ w, w = encode (.wrc a c) := ⟨_, rfl⟩
  rw [← hw]
  obtain ⟨h1, f0, f1, z0, z1⟩ := Decode.shape5 0x21 w a c (by decide) hw
  rw [Decode.at21 h1]
  simp only [f0, f1, z0, z1, Decode.clean, if_true, Nat.add_zero]

theorem RoundTrip.trap (i : BitVec 14) : RoundTrip.Statement (.trap i) := by
  intro _ _
  obtain ⟨w, hw⟩ : ∃ w, w = encode (.trap i) := ⟨_, rfl⟩
  rw [← hw]
  obtain ⟨h1, f0, z0⟩ := Decode.shape6 0x22 w i (by decide) hw
  rw [Decode.at22 h1]
  simp only [f0, z0, Decode.clean, if_true]

theorem RoundTrip.waitev (d : BitVec 6) (a : BitVec 6) (b : BitVec 6) : RoundTrip.Statement (.waitev d a b) := by
  intro _ _
  obtain ⟨w, hw⟩ : ∃ w, w = encode (.waitev d a b) := ⟨_, rfl⟩
  rw [← hw]
  obtain ⟨h1, h2, f0, f1, f2⟩ := Decode.shape0 0x23 0x1 w d a b (by decide) (by decide) hw
  rw [Decode.at23 h1]
  simp only [Decode.major23, h2, f0, f1, f2]

theorem RoundTrip.launch (a : BitVec 6) : RoundTrip.Statement (.launch a) := by
  intro _ _
  obtain ⟨w, hw⟩ : ∃ w, w = encode (.launch a) := ⟨_, rfl⟩
  rw [← hw]
  obtain ⟨h1, h2, f0, z0, z1⟩ := Decode.shape7 0x23 0x3 w a (by decide) (by decide) hw
  rw [Decode.at23 h1]
  simp only [Decode.major23, h2, f0, z0, z1, Decode.clean, if_true, Nat.add_zero]

theorem RoundTrip.csave (a : BitVec 6) (b : BitVec 6) : RoundTrip.Statement (.csave a b) := by
  intro _ _
  obtain ⟨w, hw⟩ : ∃ w, w = encode (.csave a b) := ⟨_, rfl⟩
  rw [← hw]
  obtain ⟨h1, h2, f0, f1, z0⟩ := Decode.shape8 0x23 0x11 w a b (by decide) (by decide) hw
  rw [Decode.at23 h1]
  simp only [Decode.major23, h2, f0, f1, z0, Decode.clean, if_true]

theorem RoundTrip.crestore (a : BitVec 6) (b : BitVec 6) : RoundTrip.Statement (.crestore a b) := by
  intro _ _
  obtain ⟨w, hw⟩ : ∃ w, w = encode (.crestore a b) := ⟨_, rfl⟩
  rw [← hw]
  obtain ⟨h1, h2, f0, f1, z0⟩ := Decode.shape8 0x23 0x12 w a b (by decide) (by decide) hw
  rw [Decode.at23 h1]
  simp only [Decode.major23, h2, f0, f1, z0, Decode.clean, if_true]

theorem RoundTrip.tlbinv (a : BitVec 6) (b : BitVec 6) : RoundTrip.Statement (.tlbinv a b) := by
  intro _ _
  obtain ⟨w, hw⟩ : ∃ w, w = encode (.tlbinv a b) := ⟨_, rfl⟩
  rw [← hw]
  obtain ⟨h1, h2, f0, f1, z0⟩ := Decode.shape8 0x23 0x13 w a b (by decide) (by decide) hw
  rw [Decode.at23 h1]
  simp only [Decode.major23, h2, f0, f1, z0, Decode.clean, if_true]

theorem RoundTrip.tlbinva (a : BitVec 6) : RoundTrip.Statement (.tlbinva a) := by
  intro _ _
  obtain ⟨w, hw⟩ : ∃ w, w = encode (.tlbinva a) := ⟨_, rfl⟩
  rw [← hw]
  obtain ⟨h1, h2, f0, z0, z1⟩ := Decode.shape7 0x23 0x14 w a (by decide) (by decide) hw
  rw [Decode.at23 h1]
  simp only [Decode.major23, h2, f0, z0, z1, Decode.clean, if_true, Nat.add_zero]

theorem RoundTrip.embrd (d : BitVec 6) (a : BitVec 6) (b : BitVec 6) : RoundTrip.Statement (.embrd d a b) := by
  intro _ _
  obtain ⟨w, hw⟩ : ∃ w, w = encode (.embrd d a b) := ⟨_, rfl⟩
  rw [← hw]
  obtain ⟨h1, h2, f0, f1, f2⟩ := Decode.shape0 0x23 0x16 w d a b (by decide) (by decide) hw
  rw [Decode.at23 h1]
  simp only [Decode.major23, h2, f0, f1, f2]

theorem RoundTrip.rlogctl (a : BitVec 6) : RoundTrip.Statement (.rlogctl a) := by
  intro _ _
  obtain ⟨w, hw⟩ : ∃ w, w = encode (.rlogctl a) := ⟨_, rfl⟩
  rw [← hw]
  obtain ⟨h1, h2, f0, z0, z1⟩ := Decode.shape7 0x23 0x18 w a (by decide) (by decide) hw
  rw [Decode.at23 h1]
  simp only [Decode.major23, h2, f0, z0, z1, Decode.clean, if_true, Nat.add_zero]

theorem RoundTrip.claim (d : BitVec 6) (a : BitVec 6) : RoundTrip.Statement (.claim d a) := by
  intro _ _
  obtain ⟨w, hw⟩ : ∃ w, w = encode (.claim d a) := ⟨_, rfl⟩
  rw [← hw]
  obtain ⟨h1, h2, f0, f1, z0⟩ := Decode.shape1 0x24 0x0 w d a (by decide) (by decide) hw
  rw [Decode.at24 h1]
  simp only [Decode.major24, h2, f0, f1, z0, Decode.clean, if_true]

theorem RoundTrip.spclaim (d : BitVec 6) (a : BitVec 6) : RoundTrip.Statement (.spclaim d a) := by
  intro _ _
  obtain ⟨w, hw⟩ : ∃ w, w = encode (.spclaim d a) := ⟨_, rfl⟩
  rw [← hw]
  obtain ⟨h1, h2, f0, f1, z0⟩ := Decode.shape1 0x24 0x1 w d a (by decide) (by decide) hw
  rw [Decode.at24 h1]
  simp only [Decode.major24, h2, f0, f1, z0, Decode.clean, if_true]

theorem RoundTrip.spqry (d : BitVec 6) : RoundTrip.Statement (.spqry d) := by
  intro _ _
  obtain ⟨w, hw⟩ : ∃ w, w = encode (.spqry d) := ⟨_, rfl⟩
  rw [← hw]
  obtain ⟨h1, h2, f0, z0⟩ := Decode.shape9 0x24 0x2 w d (by decide) (by decide) hw
  rw [Decode.at24 h1]
  simp only [Decode.major24, h2, f0, z0, Decode.clean, if_true]

theorem RoundTrip.setl4 (d : BitVec 6) (a : BitVec 6) (b : BitVec 6) : RoundTrip.Statement (.setl4 d a b) := by
  intro _ _
  obtain ⟨w, hw⟩ : ∃ w, w = encode (.setl4 d a b) := ⟨_, rfl⟩
  rw [← hw]
  obtain ⟨h1, h2, f0, f1, f2⟩ := Decode.shape0 0x24 0x10 w d a b (by decide) (by decide) hw
  rw [Decode.at24 h1]
  simp only [Decode.major24, h2, f0, f1, f2]

theorem RoundTrip.setl8 (d : BitVec 6) (a : BitVec 6) (b : BitVec 6) : RoundTrip.Statement (.setl8 d a b) := by
  intro _ _
  obtain ⟨w, hw⟩ : ∃ w, w = encode (.setl8 d a b) := ⟨_, rfl⟩
  rw [← hw]
  obtain ⟨h1, h2, f0, f1, f2⟩ := Decode.shape0 0x24 0x11 w d a b (by decide) (by decide) hw
  rw [Decode.at24 h1]
  simp only [Decode.major24, h2, f0, f1, f2]

theorem RoundTrip.setl16 (d : BitVec 6) (a : BitVec 6) (b : BitVec 6) : RoundTrip.Statement (.setl16 d a b) := by
  intro _ _
  obtain ⟨w, hw⟩ : ∃ w, w = encode (.setl16 d a b) := ⟨_, rfl⟩
  rw [← hw]
  obtain ⟨h1, h2, f0, f1, f2⟩ := Decode.shape0 0x24 0x12 w d a b (by decide) (by decide) hw
  rw [Decode.at24 h1]
  simp only [Decode.major24, h2, f0, f1, f2]

theorem RoundTrip.setl32 (d : BitVec 6) (a : BitVec 6) (b : BitVec 6) : RoundTrip.Statement (.setl32 d a b) := by
  intro _ _
  obtain ⟨w, hw⟩ : ∃ w, w = encode (.setl32 d a b) := ⟨_, rfl⟩
  rw [← hw]
  obtain ⟨h1, h2, f0, f1, f2⟩ := Decode.shape0 0x24 0x13 w d a b (by decide) (by decide) hw
  rw [Decode.at24 h1]
  simp only [Decode.major24, h2, f0, f1, f2]

theorem RoundTrip.setl64 (d : BitVec 6) (a : BitVec 6) (b : BitVec 6) : RoundTrip.Statement (.setl64 d a b) := by
  intro _ _
  obtain ⟨w, hw⟩ : ∃ w, w = encode (.setl64 d a b) := ⟨_, rfl⟩
  rw [← hw]
  obtain ⟨h1, h2, f0, f1, f2⟩ := Decode.shape0 0x24 0x14 w d a b (by decide) (by decide) hw
  rw [Decode.at24 h1]
  simp only [Decode.major24, h2, f0, f1, f2]

theorem RoundTrip.vadd (d : BitVec 5) (a : BitVec 5) (b : BitVec 5) : RoundTrip.Statement (.vadd d a b) := by
  intro _ _
  obtain ⟨w, hw⟩ : ∃ w, w = encode (.vadd d a b) := ⟨_, rfl⟩
  rw [← hw]
  obtain ⟨h1, h2, f0, f1, f2⟩ := Decode.shape10 0x25 0x0 w d a b (by decide) (by decide) hw
  rw [Decode.at25 h1]
  simp only [Decode.major25, h2, f0, f1, f2]

theorem RoundTrip.vsub (d : BitVec 5) (a : BitVec 5) (b : BitVec 5) : RoundTrip.Statement (.vsub d a b) := by
  intro _ _
  obtain ⟨w, hw⟩ : ∃ w, w = encode (.vsub d a b) := ⟨_, rfl⟩
  rw [← hw]
  obtain ⟨h1, h2, f0, f1, f2⟩ := Decode.shape10 0x25 0x1 w d a b (by decide) (by decide) hw
  rw [Decode.at25 h1]
  simp only [Decode.major25, h2, f0, f1, f2]

theorem RoundTrip.vmul (d : BitVec 5) (a : BitVec 5) (b : BitVec 5) : RoundTrip.Statement (.vmul d a b) := by
  intro _ _
  obtain ⟨w, hw⟩ : ∃ w, w = encode (.vmul d a b) := ⟨_, rfl⟩
  rw [← hw]
  obtain ⟨h1, h2, f0, f1, f2⟩ := Decode.shape10 0x25 0x2 w d a b (by decide) (by decide) hw
  rw [Decode.at25 h1]
  simp only [Decode.major25, h2, f0, f1, f2]

theorem RoundTrip.vmulh (d : BitVec 5) (a : BitVec 5) (b : BitVec 5) : RoundTrip.Statement (.vmulh d a b) := by
  intro _ _
  obtain ⟨w, hw⟩ : ∃ w, w = encode (.vmulh d a b) := ⟨_, rfl⟩
  rw [← hw]
  obtain ⟨h1, h2, f0, f1, f2⟩ := Decode.shape10 0x25 0x3 w d a b (by decide) (by decide) hw
  rw [Decode.at25 h1]
  simp only [Decode.major25, h2, f0, f1, f2]

theorem RoundTrip.vmin (d : BitVec 5) (a : BitVec 5) (b : BitVec 5) : RoundTrip.Statement (.vmin d a b) := by
  intro _ _
  obtain ⟨w, hw⟩ : ∃ w, w = encode (.vmin d a b) := ⟨_, rfl⟩
  rw [← hw]
  obtain ⟨h1, h2, f0, f1, f2⟩ := Decode.shape10 0x25 0x4 w d a b (by decide) (by decide) hw
  rw [Decode.at25 h1]
  simp only [Decode.major25, h2, f0, f1, f2]

theorem RoundTrip.vmax (d : BitVec 5) (a : BitVec 5) (b : BitVec 5) : RoundTrip.Statement (.vmax d a b) := by
  intro _ _
  obtain ⟨w, hw⟩ : ∃ w, w = encode (.vmax d a b) := ⟨_, rfl⟩
  rw [← hw]
  obtain ⟨h1, h2, f0, f1, f2⟩ := Decode.shape10 0x25 0x5 w d a b (by decide) (by decide) hw
  rw [Decode.at25 h1]
  simp only [Decode.major25, h2, f0, f1, f2]

theorem RoundTrip.vminu (d : BitVec 5) (a : BitVec 5) (b : BitVec 5) : RoundTrip.Statement (.vminu d a b) := by
  intro _ _
  obtain ⟨w, hw⟩ : ∃ w, w = encode (.vminu d a b) := ⟨_, rfl⟩
  rw [← hw]
  obtain ⟨h1, h2, f0, f1, f2⟩ := Decode.shape10 0x25 0x6 w d a b (by decide) (by decide) hw
  rw [Decode.at25 h1]
  simp only [Decode.major25, h2, f0, f1, f2]

theorem RoundTrip.vmaxu (d : BitVec 5) (a : BitVec 5) (b : BitVec 5) : RoundTrip.Statement (.vmaxu d a b) := by
  intro _ _
  obtain ⟨w, hw⟩ : ∃ w, w = encode (.vmaxu d a b) := ⟨_, rfl⟩
  rw [← hw]
  obtain ⟨h1, h2, f0, f1, f2⟩ := Decode.shape10 0x25 0x7 w d a b (by decide) (by decide) hw
  rw [Decode.at25 h1]
  simp only [Decode.major25, h2, f0, f1, f2]

theorem RoundTrip.vand (d : BitVec 5) (a : BitVec 5) (b : BitVec 5) : RoundTrip.Statement (.vand d a b) := by
  intro _ _
  obtain ⟨w, hw⟩ : ∃ w, w = encode (.vand d a b) := ⟨_, rfl⟩
  rw [← hw]
  obtain ⟨h1, h2, f0, f1, f2⟩ := Decode.shape10 0x25 0x8 w d a b (by decide) (by decide) hw
  rw [Decode.at25 h1]
  simp only [Decode.major25, h2, f0, f1, f2]

theorem RoundTrip.vor (d : BitVec 5) (a : BitVec 5) (b : BitVec 5) : RoundTrip.Statement (.vor d a b) := by
  intro _ _
  obtain ⟨w, hw⟩ : ∃ w, w = encode (.vor d a b) := ⟨_, rfl⟩
  rw [← hw]
  obtain ⟨h1, h2, f0, f1, f2⟩ := Decode.shape10 0x25 0x9 w d a b (by decide) (by decide) hw
  rw [Decode.at25 h1]
  simp only [Decode.major25, h2, f0, f1, f2]

theorem RoundTrip.vxor (d : BitVec 5) (a : BitVec 5) (b : BitVec 5) : RoundTrip.Statement (.vxor d a b) := by
  intro _ _
  obtain ⟨w, hw⟩ : ∃ w, w = encode (.vxor d a b) := ⟨_, rfl⟩
  rw [← hw]
  obtain ⟨h1, h2, f0, f1, f2⟩ := Decode.shape10 0x25 0xa w d a b (by decide) (by decide) hw
  rw [Decode.at25 h1]
  simp only [Decode.major25, h2, f0, f1, f2]

theorem RoundTrip.vsll (d : BitVec 5) (a : BitVec 5) (b : BitVec 5) : RoundTrip.Statement (.vsll d a b) := by
  intro _ _
  obtain ⟨w, hw⟩ : ∃ w, w = encode (.vsll d a b) := ⟨_, rfl⟩
  rw [← hw]
  obtain ⟨h1, h2, f0, f1, f2⟩ := Decode.shape10 0x25 0xb w d a b (by decide) (by decide) hw
  rw [Decode.at25 h1]
  simp only [Decode.major25, h2, f0, f1, f2]

theorem RoundTrip.vsrl (d : BitVec 5) (a : BitVec 5) (b : BitVec 5) : RoundTrip.Statement (.vsrl d a b) := by
  intro _ _
  obtain ⟨w, hw⟩ : ∃ w, w = encode (.vsrl d a b) := ⟨_, rfl⟩
  rw [← hw]
  obtain ⟨h1, h2, f0, f1, f2⟩ := Decode.shape10 0x25 0xc w d a b (by decide) (by decide) hw
  rw [Decode.at25 h1]
  simp only [Decode.major25, h2, f0, f1, f2]

theorem RoundTrip.vsra (d : BitVec 5) (a : BitVec 5) (b : BitVec 5) : RoundTrip.Statement (.vsra d a b) := by
  intro _ _
  obtain ⟨w, hw⟩ : ∃ w, w = encode (.vsra d a b) := ⟨_, rfl⟩
  rw [← hw]
  obtain ⟨h1, h2, f0, f1, f2⟩ := Decode.shape10 0x25 0xd w d a b (by decide) (by decide) hw
  rw [Decode.at25 h1]
  simp only [Decode.major25, h2, f0, f1, f2]

theorem RoundTrip.vabs (d : BitVec 5) (a : BitVec 5) : RoundTrip.Statement (.vabs d a) := by
  intro _ _
  obtain ⟨w, hw⟩ : ∃ w, w = encode (.vabs d a) := ⟨_, rfl⟩
  rw [← hw]
  obtain ⟨h1, h2, f0, f1, z0⟩ := Decode.shape11 0x25 0xe w d a (by decide) (by decide) hw
  rw [Decode.at25 h1]
  simp only [Decode.major25, h2, f0, f1, z0, Decode.clean, if_true]

theorem RoundTrip.vneg (d : BitVec 5) (a : BitVec 5) : RoundTrip.Statement (.vneg d a) := by
  intro _ _
  obtain ⟨w, hw⟩ : ∃ w, w = encode (.vneg d a) := ⟨_, rfl⟩
  rw [← hw]
  obtain ⟨h1, h2, f0, f1, z0⟩ := Decode.shape11 0x25 0xf w d a (by decide) (by decide) hw
  rw [Decode.at25 h1]
  simp only [Decode.major25, h2, f0, f1, z0, Decode.clean, if_true]

theorem RoundTrip.vadds (d : BitVec 5) (a : BitVec 5) (b : BitVec 5) : RoundTrip.Statement (.vadds d a b) := by
  intro _ _
  obtain ⟨w, hw⟩ : ∃ w, w = encode (.vadds d a b) := ⟨_, rfl⟩
  rw [← hw]
  obtain ⟨h1, h2, f0, f1, f2⟩ := Decode.shape10 0x25 0x10 w d a b (by decide) (by decide) hw
  rw [Decode.at25 h1]
  simp only [Decode.major25, h2, f0, f1, f2]

theorem RoundTrip.vsubs (d : BitVec 5) (a : BitVec 5) (b : BitVec 5) : RoundTrip.Statement (.vsubs d a b) := by
  intro _ _
  obtain ⟨w, hw⟩ : ∃ w, w = encode (.vsubs d a b) := ⟨_, rfl⟩
  rw [← hw]
  obtain ⟨h1, h2, f0, f1, f2⟩ := Decode.shape10 0x25 0x11 w d a b (by decide) (by decide) hw
  rw [Decode.at25 h1]
  simp only [Decode.major25, h2, f0, f1, f2]

theorem RoundTrip.vsel (d : BitVec 5) (a : BitVec 5) (b : BitVec 5) : RoundTrip.Statement (.vsel d a b) := by
  intro _ _
  obtain ⟨w, hw⟩ : ∃ w, w = encode (.vsel d a b) := ⟨_, rfl⟩
  rw [← hw]
  obtain ⟨h1, h2, f0, f1, f2⟩ := Decode.shape10 0x25 0x12 w d a b (by decide) (by decide) hw
  rw [Decode.at25 h1]
  simp only [Decode.major25, h2, f0, f1, f2]

theorem RoundTrip.vmov (d : BitVec 5) (a : BitVec 5) : RoundTrip.Statement (.vmov d a) := by
  intro _ _
  obtain ⟨w, hw⟩ : ∃ w, w = encode (.vmov d a) := ⟨_, rfl⟩
  rw [← hw]
  obtain ⟨h1, h2, f0, f1, z0⟩ := Decode.shape11 0x25 0x13 w d a (by decide) (by decide) hw
  rw [Decode.at25 h1]
  simp only [Decode.major25, h2, f0, f1, z0, Decode.clean, if_true]

theorem RoundTrip.vfadd (d : BitVec 5) (a : BitVec 5) (b : BitVec 5) : RoundTrip.Statement (.vfadd d a b) := by
  intro _ _
  obtain ⟨w, hw⟩ : ∃ w, w = encode (.vfadd d a b) := ⟨_, rfl⟩
  rw [← hw]
  obtain ⟨h1, h2, f0, f1, f2⟩ := Decode.shape10 0x26 0x0 w d a b (by decide) (by decide) hw
  rw [Decode.at26 h1]
  simp only [Decode.major26, h2, f0, f1, f2]

theorem RoundTrip.vfsub (d : BitVec 5) (a : BitVec 5) (b : BitVec 5) : RoundTrip.Statement (.vfsub d a b) := by
  intro _ _
  obtain ⟨w, hw⟩ : ∃ w, w = encode (.vfsub d a b) := ⟨_, rfl⟩
  rw [← hw]
  obtain ⟨h1, h2, f0, f1, f2⟩ := Decode.shape10 0x26 0x1 w d a b (by decide) (by decide) hw
  rw [Decode.at26 h1]
  simp only [Decode.major26, h2, f0, f1, f2]

theorem RoundTrip.vfmul (d : BitVec 5) (a : BitVec 5) (b : BitVec 5) : RoundTrip.Statement (.vfmul d a b) := by
  intro _ _
  obtain ⟨w, hw⟩ : ∃ w, w = encode (.vfmul d a b) := ⟨_, rfl⟩
  rw [← hw]
  obtain ⟨h1, h2, f0, f1, f2⟩ := Decode.shape10 0x26 0x2 w d a b (by decide) (by decide) hw
  rw [Decode.at26 h1]
  simp only [Decode.major26, h2, f0, f1, f2]

theorem RoundTrip.vfmin (d : BitVec 5) (a : BitVec 5) (b : BitVec 5) : RoundTrip.Statement (.vfmin d a b) := by
  intro _ _
  obtain ⟨w, hw⟩ : ∃ w, w = encode (.vfmin d a b) := ⟨_, rfl⟩
  rw [← hw]
  obtain ⟨h1, h2, f0, f1, f2⟩ := Decode.shape10 0x26 0x3 w d a b (by decide) (by decide) hw
  rw [Decode.at26 h1]
  simp only [Decode.major26, h2, f0, f1, f2]

theorem RoundTrip.vfmax (d : BitVec 5) (a : BitVec 5) (b : BitVec 5) : RoundTrip.Statement (.vfmax d a b) := by
  intro _ _
  obtain ⟨w, hw⟩ : ∃ w, w = encode (.vfmax d a b) := ⟨_, rfl⟩
  rw [← hw]
  obtain ⟨h1, h2, f0, f1, f2⟩ := Decode.shape10 0x26 0x4 w d a b (by decide) (by decide) hw
  rw [Decode.at26 h1]
  simp only [Decode.major26, h2, f0, f1, f2]

theorem RoundTrip.vfabs (d : BitVec 5) (a : BitVec 5) : RoundTrip.Statement (.vfabs d a) := by
  intro _ _
  obtain ⟨w, hw⟩ : ∃ w, w = encode (.vfabs d a) := ⟨_, rfl⟩
  rw [← hw]
  obtain ⟨h1, h2, f0, f1, z0⟩ := Decode.shape11 0x26 0x5 w d a (by decide) (by decide) hw
  rw [Decode.at26 h1]
  simp only [Decode.major26, h2, f0, f1, z0, Decode.clean, if_true]

theorem RoundTrip.vfneg (d : BitVec 5) (a : BitVec 5) : RoundTrip.Statement (.vfneg d a) := by
  intro _ _
  obtain ⟨w, hw⟩ : ∃ w, w = encode (.vfneg d a) := ⟨_, rfl⟩
  rw [← hw]
  obtain ⟨h1, h2, f0, f1, z0⟩ := Decode.shape11 0x26 0x6 w d a (by decide) (by decide) hw
  rw [Decode.at26 h1]
  simp only [Decode.major26, h2, f0, f1, z0, Decode.clean, if_true]

theorem RoundTrip.vfma (d : BitVec 5) (a : BitVec 5) (b : BitVec 5) : RoundTrip.Statement (.vfma d a b) := by
  intro _ _
  obtain ⟨w, hw⟩ : ∃ w, w = encode (.vfma d a b) := ⟨_, rfl⟩
  rw [← hw]
  obtain ⟨h1, h2, f0, f1, f2⟩ := Decode.shape10 0x26 0x7 w d a b (by decide) (by decide) hw
  rw [Decode.at26 h1]
  simp only [Decode.major26, h2, f0, f1, f2]

theorem RoundTrip.vfms (d : BitVec 5) (a : BitVec 5) (b : BitVec 5) : RoundTrip.Statement (.vfms d a b) := by
  intro _ _
  obtain ⟨w, hw⟩ : ∃ w, w = encode (.vfms d a b) := ⟨_, rfl⟩
  rw [← hw]
  obtain ⟨h1, h2, f0, f1, f2⟩ := Decode.shape10 0x26 0x8 w d a b (by decide) (by decide) hw
  rw [Decode.at26 h1]
  simp only [Decode.major26, h2, f0, f1, f2]

theorem RoundTrip.vfnma (d : BitVec 5) (a : BitVec 5) (b : BitVec 5) : RoundTrip.Statement (.vfnma d a b) := by
  intro _ _
  obtain ⟨w, hw⟩ : ∃ w, w = encode (.vfnma d a b) := ⟨_, rfl⟩
  rw [← hw]
  obtain ⟨h1, h2, f0, f1, f2⟩ := Decode.shape10 0x26 0x9 w d a b (by decide) (by decide) hw
  rw [Decode.at26 h1]
  simp only [Decode.major26, h2, f0, f1, f2]

theorem RoundTrip.vfnms (d : BitVec 5) (a : BitVec 5) (b : BitVec 5) : RoundTrip.Statement (.vfnms d a b) := by
  intro _ _
  obtain ⟨w, hw⟩ : ∃ w, w = encode (.vfnms d a b) := ⟨_, rfl⟩
  rw [← hw]
  obtain ⟨h1, h2, f0, f1, f2⟩ := Decode.shape10 0x26 0xa w d a b (by decide) (by decide) hw
  rw [Decode.at26 h1]
  simp only [Decode.major26, h2, f0, f1, f2]

theorem RoundTrip.vdiv (d : BitVec 5) (a : BitVec 5) (b : BitVec 5) : RoundTrip.Statement (.vdiv d a b) := by
  intro _ _
  obtain ⟨w, hw⟩ : ∃ w, w = encode (.vdiv d a b) := ⟨_, rfl⟩
  rw [← hw]
  obtain ⟨h1, h2, f0, f1, f2⟩ := Decode.shape10 0x27 0x0 w d a b (by decide) (by decide) hw
  rw [Decode.at27 h1]
  simp only [Decode.major27, h2, f0, f1, f2]

theorem RoundTrip.vsqrt (d : BitVec 5) (a : BitVec 5) : RoundTrip.Statement (.vsqrt d a) := by
  intro _ _
  obtain ⟨w, hw⟩ : ∃ w, w = encode (.vsqrt d a) := ⟨_, rfl⟩
  rw [← hw]
  obtain ⟨h1, h2, f0, f1, z0⟩ := Decode.shape11 0x27 0x1 w d a (by decide) (by decide) hw
  rw [Decode.at27 h1]
  simp only [Decode.major27, h2, f0, f1, z0, Decode.clean, if_true]

theorem RoundTrip.vrcps (d : BitVec 5) (a : BitVec 5) : RoundTrip.Statement (.vrcps d a) := by
  intro _ _
  obtain ⟨w, hw⟩ : ∃ w, w = encode (.vrcps d a) := ⟨_, rfl⟩
  rw [← hw]
  obtain ⟨h1, h2, f0, f1, z0⟩ := Decode.shape11 0x27 0x2 w d a (by decide) (by decide) hw
  rw [Decode.at27 h1]
  simp only [Decode.major27, h2, f0, f1, z0, Decode.clean, if_true]

theorem RoundTrip.vrsqs (d : BitVec 5) (a : BitVec 5) : RoundTrip.Statement (.vrsqs d a) := by
  intro _ _
  obtain ⟨w, hw⟩ : ∃ w, w = encode (.vrsqs d a) := ⟨_, rfl⟩
  rw [← hw]
  obtain ⟨h1, h2, f0, f1, z0⟩ := Decode.shape11 0x27 0x3 w d a (by decide) (by decide) hw
  rw [Decode.at27 h1]
  simp only [Decode.major27, h2, f0, f1, z0, Decode.clean, if_true]

theorem RoundTrip.vceq (m : BitVec 4) (a : BitVec 5) (b : BitVec 5) : RoundTrip.Statement (.vceq m a b) := by
  intro hwf _
  obtain ⟨w, hw⟩ : ∃ w, w = encode (.vceq m a b) := ⟨_, rfl⟩
  rw [← hw]
  obtain ⟨h1, h2, f0, f1, f2, z0⟩ := Decode.shape12 0x28 0x0 w m a b (by decide) (by decide) hw
  rw [Decode.at28 h1]
  simp only [Instr.wf] at hwf
  simp only [Decode.major28, h2, f0, f1, f2, z0, Decode.clean, if_true, hwf, Decode.legal]

theorem RoundTrip.vcne (m : BitVec 4) (a : BitVec 5) (b : BitVec 5) : RoundTrip.Statement (.vcne m a b) := by
  intro hwf _
  obtain ⟨w, hw⟩ : ∃ w, w = encode (.vcne m a b) := ⟨_, rfl⟩
  rw [← hw]
  obtain ⟨h1, h2, f0, f1, f2, z0⟩ := Decode.shape12 0x28 0x1 w m a b (by decide) (by decide) hw
  rw [Decode.at28 h1]
  simp only [Instr.wf] at hwf
  simp only [Decode.major28, h2, f0, f1, f2, z0, Decode.clean, if_true, hwf, Decode.legal]

theorem RoundTrip.vclt (m : BitVec 4) (a : BitVec 5) (b : BitVec 5) : RoundTrip.Statement (.vclt m a b) := by
  intro hwf _
  obtain ⟨w, hw⟩ : ∃ w, w = encode (.vclt m a b) := ⟨_, rfl⟩
  rw [← hw]
  obtain ⟨h1, h2, f0, f1, f2, z0⟩ := Decode.shape12 0x28 0x2 w m a b (by decide) (by decide) hw
  rw [Decode.at28 h1]
  simp only [Instr.wf] at hwf
  simp only [Decode.major28, h2, f0, f1, f2, z0, Decode.clean, if_true, hwf, Decode.legal]

theorem RoundTrip.vcle (m : BitVec 4) (a : BitVec 5) (b : BitVec 5) : RoundTrip.Statement (.vcle m a b) := by
  intro hwf _
  obtain ⟨w, hw⟩ : ∃ w, w = encode (.vcle m a b) := ⟨_, rfl⟩
  rw [← hw]
  obtain ⟨h1, h2, f0, f1, f2, z0⟩ := Decode.shape12 0x28 0x3 w m a b (by decide) (by decide) hw
  rw [Decode.at28 h1]
  simp only [Instr.wf] at hwf
  simp only [Decode.major28, h2, f0, f1, f2, z0, Decode.clean, if_true, hwf, Decode.legal]

theorem RoundTrip.vcltu (m : BitVec 4) (a : BitVec 5) (b : BitVec 5) : RoundTrip.Statement (.vcltu m a b) := by
  intro hwf _
  obtain ⟨w, hw⟩ : ∃ w, w = encode (.vcltu m a b) := ⟨_, rfl⟩
  rw [← hw]
  obtain ⟨h1, h2, f0, f1, f2, z0⟩ := Decode.shape12 0x28 0x4 w m a b (by decide) (by decide) hw
  rw [Decode.at28 h1]
  simp only [Instr.wf] at hwf
  simp only [Decode.major28, h2, f0, f1, f2, z0, Decode.clean, if_true, hwf, Decode.legal]

theorem RoundTrip.vcleu (m : BitVec 4) (a : BitVec 5) (b : BitVec 5) : RoundTrip.Statement (.vcleu m a b) := by
  intro hwf _
  obtain ⟨w, hw⟩ : ∃ w, w = encode (.vcleu m a b) := ⟨_, rfl⟩
  rw [← hw]
  obtain ⟨h1, h2, f0, f1, f2, z0⟩ := Decode.shape12 0x28 0x5 w m a b (by decide) (by decide) hw
  rw [Decode.at28 h1]
  simp only [Instr.wf] at hwf
  simp only [Decode.major28, h2, f0, f1, f2, z0, Decode.clean, if_true, hwf, Decode.legal]

theorem RoundTrip.vcun (m : BitVec 4) (a : BitVec 5) (b : BitVec 5) : RoundTrip.Statement (.vcun m a b) := by
  intro hwf _
  obtain ⟨w, hw⟩ : ∃ w, w = encode (.vcun m a b) := ⟨_, rfl⟩
  rw [← hw]
  obtain ⟨h1, h2, f0, f1, f2, z0⟩ := Decode.shape12 0x28 0x6 w m a b (by decide) (by decide) hw
  rw [Decode.at28 h1]
  simp only [Instr.wf] at hwf
  simp only [Decode.major28, h2, f0, f1, f2, z0, Decode.clean, if_true, hwf, Decode.legal]

theorem RoundTrip.mand (d : BitVec 4) (a : BitVec 4) (b : BitVec 4) : RoundTrip.Statement (.mand d a b) := by
  intro hwf _
  obtain ⟨w, hw⟩ : ∃ w, w = encode (.mand d a b) := ⟨_, rfl⟩
  rw [← hw]
  obtain ⟨h1, h2, f0, f1, f2, z0, z1, z2⟩ := Decode.shape13 0x29 0x0 w d a b (by decide) (by decide) hw
  rw [Decode.at29 h1]
  simp only [Instr.wf] at hwf
  simp only [Decode.major29, h2, f0, f1, f2, z0, z1, z2, Decode.clean, if_true, Nat.add_zero, hwf, Decode.legal]

theorem RoundTrip.mor (d : BitVec 4) (a : BitVec 4) (b : BitVec 4) : RoundTrip.Statement (.mor d a b) := by
  intro hwf _
  obtain ⟨w, hw⟩ : ∃ w, w = encode (.mor d a b) := ⟨_, rfl⟩
  rw [← hw]
  obtain ⟨h1, h2, f0, f1, f2, z0, z1, z2⟩ := Decode.shape13 0x29 0x1 w d a b (by decide) (by decide) hw
  rw [Decode.at29 h1]
  simp only [Instr.wf] at hwf
  simp only [Decode.major29, h2, f0, f1, f2, z0, z1, z2, Decode.clean, if_true, Nat.add_zero, hwf, Decode.legal]

theorem RoundTrip.mxor (d : BitVec 4) (a : BitVec 4) (b : BitVec 4) : RoundTrip.Statement (.mxor d a b) := by
  intro hwf _
  obtain ⟨w, hw⟩ : ∃ w, w = encode (.mxor d a b) := ⟨_, rfl⟩
  rw [← hw]
  obtain ⟨h1, h2, f0, f1, f2, z0, z1, z2⟩ := Decode.shape13 0x29 0x2 w d a b (by decide) (by decide) hw
  rw [Decode.at29 h1]
  simp only [Instr.wf] at hwf
  simp only [Decode.major29, h2, f0, f1, f2, z0, z1, z2, Decode.clean, if_true, Nat.add_zero, hwf, Decode.legal]

theorem RoundTrip.mandn (d : BitVec 4) (a : BitVec 4) (b : BitVec 4) : RoundTrip.Statement (.mandn d a b) := by
  intro hwf _
  obtain ⟨w, hw⟩ : ∃ w, w = encode (.mandn d a b) := ⟨_, rfl⟩
  rw [← hw]
  obtain ⟨h1, h2, f0, f1, f2, z0, z1, z2⟩ := Decode.shape13 0x29 0x3 w d a b (by decide) (by decide) hw
  rw [Decode.at29 h1]
  simp only [Instr.wf] at hwf
  simp only [Decode.major29, h2, f0, f1, f2, z0, z1, z2, Decode.clean, if_true, Nat.add_zero, hwf, Decode.legal]

theorem RoundTrip.mnot (d : BitVec 4) (a : BitVec 4) : RoundTrip.Statement (.mnot d a) := by
  intro hwf _
  obtain ⟨w, hw⟩ : ∃ w, w = encode (.mnot d a) := ⟨_, rfl⟩
  rw [← hw]
  obtain ⟨h1, h2, f0, f1, z0, z1, z2⟩ := Decode.shape14 0x29 0x4 w d a (by decide) (by decide) hw
  rw [Decode.at29 h1]
  simp only [Instr.wf] at hwf
  simp only [Decode.major29, h2, f0, f1, z0, z1, z2, Decode.clean, if_true, Nat.add_zero, hwf, Decode.legal]

theorem RoundTrip.mmov (d : BitVec 4) (a : BitVec 4) : RoundTrip.Statement (.mmov d a) := by
  intro hwf _
  obtain ⟨w, hw⟩ : ∃ w, w = encode (.mmov d a) := ⟨_, rfl⟩
  rw [← hw]
  obtain ⟨h1, h2, f0, f1, z0, z1, z2⟩ := Decode.shape14 0x29 0x5 w d a (by decide) (by decide) hw
  rw [Decode.at29 h1]
  simp only [Instr.wf] at hwf
  simp only [Decode.major29, h2, f0, f1, z0, z1, z2, Decode.clean, if_true, Nat.add_zero, hwf, Decode.legal]

theorem RoundTrip.mfirst (d : BitVec 4) (a : BitVec 4) : RoundTrip.Statement (.mfirst d a) := by
  intro hwf _
  obtain ⟨w, hw⟩ : ∃ w, w = encode (.mfirst d a) := ⟨_, rfl⟩
  rw [← hw]
  obtain ⟨h1, h2, f0, f1, z0, z1, z2⟩ := Decode.shape14 0x29 0x6 w d a (by decide) (by decide) hw
  rw [Decode.at29 h1]
  simp only [Instr.wf] at hwf
  simp only [Decode.major29, h2, f0, f1, z0, z1, z2, Decode.clean, if_true, Nat.add_zero, hwf, Decode.legal]

theorem RoundTrip.vcvt (d : BitVec 5) (a : BitVec 5) (t : BitVec 5) : RoundTrip.Statement (.vcvt d a t) := by
  intro hwf _
  obtain ⟨w, hw⟩ : ∃ w, w = encode (.vcvt d a t) := ⟨_, rfl⟩
  rw [← hw]
  obtain ⟨h1, h2, f0, f1, f2, z0⟩ := Decode.shape15 0x2a 0x0 w d a t (by decide) (by decide) hw
  rw [Decode.at2A h1]
  simp only [Instr.wf] at hwf
  simp only [Decode.major2A, h2, f0, f1, f2, z0, Decode.clean, if_true, hwf, Decode.legal]

theorem RoundTrip.vcvts (d : BitVec 5) (a : BitVec 5) (t : BitVec 5) : RoundTrip.Statement (.vcvts d a t) := by
  intro hwf _
  obtain ⟨w, hw⟩ : ∃ w, w = encode (.vcvts d a t) := ⟨_, rfl⟩
  rw [← hw]
  obtain ⟨h1, h2, f0, f1, f2, z0⟩ := Decode.shape15 0x2a 0x1 w d a t (by decide) (by decide) hw
  rw [Decode.at2A h1]
  simp only [Instr.wf] at hwf
  simp only [Decode.major2A, h2, f0, f1, f2, z0, Decode.clean, if_true, hwf, Decode.legal]

theorem RoundTrip.vredo (d : BitVec 5) (a : BitVec 5) (b : BitVec 5) : RoundTrip.Statement (.vredo d a b) := by
  intro _ _
  obtain ⟨w, hw⟩ : ∃ w, w = encode (.vredo d a b) := ⟨_, rfl⟩
  rw [← hw]
  obtain ⟨h1, h2, f0, f1, f2⟩ := Decode.shape10 0x2b 0x0 w d a b (by decide) (by decide) hw
  rw [Decode.at2B h1]
  simp only [Decode.major2B, h2, f0, f1, f2]

theorem RoundTrip.vredt (d : BitVec 5) (a : BitVec 5) (b : BitVec 5) : RoundTrip.Statement (.vredt d a b) := by
  intro _ _
  obtain ⟨w, hw⟩ : ∃ w, w = encode (.vredt d a b) := ⟨_, rfl⟩
  rw [← hw]
  obtain ⟨h1, h2, f0, f1, f2⟩ := Decode.shape10 0x2b 0x1 w d a b (by decide) (by decide) hw
  rw [Decode.at2B h1]
  simp only [Decode.major2B, h2, f0, f1, f2]

theorem RoundTrip.vredmin (d : BitVec 5) (a : BitVec 5) (b : BitVec 5) : RoundTrip.Statement (.vredmin d a b) := by
  intro _ _
  obtain ⟨w, hw⟩ : ∃ w, w = encode (.vredmin d a b) := ⟨_, rfl⟩
  rw [← hw]
  obtain ⟨h1, h2, f0, f1, f2⟩ := Decode.shape10 0x2b 0x2 w d a b (by decide) (by decide) hw
  rw [Decode.at2B h1]
  simp only [Decode.major2B, h2, f0, f1, f2]

theorem RoundTrip.vredmax (d : BitVec 5) (a : BitVec 5) (b : BitVec 5) : RoundTrip.Statement (.vredmax d a b) := by
  intro _ _
  obtain ⟨w, hw⟩ : ∃ w, w = encode (.vredmax d a b) := ⟨_, rfl⟩
  rw [← hw]
  obtain ⟨h1, h2, f0, f1, f2⟩ := Decode.shape10 0x2b 0x3 w d a b (by decide) (by decide) hw
  rw [Decode.at2B h1]
  simp only [Decode.major2B, h2, f0, f1, f2]

theorem RoundTrip.vscan (d : BitVec 5) (a : BitVec 5) (b : BitVec 5) : RoundTrip.Statement (.vscan d a b) := by
  intro _ _
  obtain ⟨w, hw⟩ : ∃ w, w = encode (.vscan d a b) := ⟨_, rfl⟩
  rw [← hw]
  obtain ⟨h1, h2, f0, f1, f2⟩ := Decode.shape10 0x2b 0x4 w d a b (by decide) (by decide) hw
  rw [Decode.at2B h1]
  simp only [Decode.major2B, h2, f0, f1, f2]

theorem RoundTrip.vscanx (d : BitVec 5) (a : BitVec 5) (b : BitVec 5) : RoundTrip.Statement (.vscanx d a b) := by
  intro _ _
  obtain ⟨w, hw⟩ : ∃ w, w = encode (.vscanx d a b) := ⟨_, rfl⟩
  rw [← hw]
  obtain ⟨h1, h2, f0, f1, f2⟩ := Decode.shape10 0x2b 0x5 w d a b (by decide) (by decide) hw
  rw [Decode.at2B h1]
  simp only [Decode.major2B, h2, f0, f1, f2]

theorem RoundTrip.vperm (d : BitVec 5) (a : BitVec 5) (b : BitVec 5) : RoundTrip.Statement (.vperm d a b) := by
  intro _ _
  obtain ⟨w, hw⟩ : ∃ w, w = encode (.vperm d a b) := ⟨_, rfl⟩
  rw [← hw]
  obtain ⟨h1, h2, f0, f1, f2⟩ := Decode.shape10 0x2c 0x0 w d a b (by decide) (by decide) hw
  rw [Decode.at2C h1]
  simp only [Decode.major2C, h2, f0, f1, f2]

theorem RoundTrip.vcomp (d : BitVec 5) (a : BitVec 5) : RoundTrip.Statement (.vcomp d a) := by
  intro _ _
  obtain ⟨w, hw⟩ : ∃ w, w = encode (.vcomp d a) := ⟨_, rfl⟩
  rw [← hw]
  obtain ⟨h1, h2, f0, f1, z0⟩ := Decode.shape11 0x2c 0x1 w d a (by decide) (by decide) hw
  rw [Decode.at2C h1]
  simp only [Decode.major2C, h2, f0, f1, z0, Decode.clean, if_true]

theorem RoundTrip.vexpd (d : BitVec 5) (a : BitVec 5) : RoundTrip.Statement (.vexpd d a) := by
  intro _ _
  obtain ⟨w, hw⟩ : ∃ w, w = encode (.vexpd d a) := ⟨_, rfl⟩
  rw [← hw]
  obtain ⟨h1, h2, f0, f1, z0⟩ := Decode.shape11 0x2c 0x2 w d a (by decide) (by decide) hw
  rw [Decode.at2C h1]
  simp only [Decode.major2C, h2, f0, f1, z0, Decode.clean, if_true]

theorem RoundTrip.vslup (d : BitVec 5) (a : BitVec 5) (sb : BitVec 6) : RoundTrip.Statement (.vslup d a sb) := by
  intro _ _
  obtain ⟨w, hw⟩ : ∃ w, w = encode (.vslup d a sb) := ⟨_, rfl⟩
  rw [← hw]
  obtain ⟨h1, h2, f0, f1, f2⟩ := Decode.shape16 0x2d 0x0 w d a sb (by decide) (by decide) hw
  rw [Decode.at2D h1]
  simp only [Decode.major2D, h2, f0, f1, f2]

theorem RoundTrip.vsldn (d : BitVec 5) (a : BitVec 5) (sb : BitVec 6) : RoundTrip.Statement (.vsldn d a sb) := by
  intro _ _
  obtain ⟨w, hw⟩ : ∃ w, w = encode (.vsldn d a sb) := ⟨_, rfl⟩
  rw [← hw]
  obtain ⟨h1, h2, f0, f1, f2⟩ := Decode.shape16 0x2d 0x1 w d a sb (by decide) (by decide) hw
  rw [Decode.at2D h1]
  simp only [Decode.major2D, h2, f0, f1, f2]

theorem RoundTrip.vxchg (d : BitVec 5) (a : BitVec 5) (sb : BitVec 6) : RoundTrip.Statement (.vxchg d a sb) := by
  intro _ _
  obtain ⟨w, hw⟩ : ∃ w, w = encode (.vxchg d a sb) := ⟨_, rfl⟩
  rw [← hw]
  obtain ⟨h1, h2, f0, f1, f2⟩ := Decode.shape16 0x2d 0x2 w d a sb (by decide) (by decide) hw
  rw [Decode.at2D h1]
  simp only [Decode.major2D, h2, f0, f1, f2]

theorem RoundTrip.vbcast (d : BitVec 5) (sb : BitVec 6) : RoundTrip.Statement (.vbcast d sb) := by
  intro _ _
  obtain ⟨w, hw⟩ : ∃ w, w = encode (.vbcast d sb) := ⟨_, rfl⟩
  rw [← hw]
  obtain ⟨h1, h2, f0, f1, z0⟩ := Decode.shape17 0x2d 0x10 w d sb (by decide) (by decide) hw
  rw [Decode.at2D h1]
  simp only [Decode.major2D, h2, f0, f1, z0, Decode.clean, if_true]

theorem RoundTrip.viota (d : BitVec 5) (sb : BitVec 6) : RoundTrip.Statement (.viota d sb) := by
  intro _ _
  obtain ⟨w, hw⟩ : ∃ w, w = encode (.viota d sb) := ⟨_, rfl⟩
  rw [← hw]
  obtain ⟨h1, h2, f0, f1, z0⟩ := Decode.shape17 0x2d 0x11 w d sb (by decide) (by decide) hw
  rw [Decode.at2D h1]
  simp only [Decode.major2D, h2, f0, f1, z0, Decode.clean, if_true]

theorem RoundTrip.vrng (d : BitVec 5) (sb : BitVec 6) : RoundTrip.Statement (.vrng d sb) := by
  intro _ _
  obtain ⟨w, hw⟩ : ∃ w, w = encode (.vrng d sb) := ⟨_, rfl⟩
  rw [← hw]
  obtain ⟨h1, h2, f0, f1, z0⟩ := Decode.shape17 0x2d 0x12 w d sb (by decide) (by decide) hw
  rw [Decode.at2D h1]
  simp only [Decode.major2D, h2, f0, f1, z0, Decode.clean, if_true]

theorem RoundTrip.vfetch (sb : BitVec 6) : RoundTrip.Statement (.vfetch sb) := by
  intro _ _
  obtain ⟨w, hw⟩ : ∃ w, w = encode (.vfetch sb) := ⟨_, rfl⟩
  rw [← hw]
  obtain ⟨h1, h2, f0, z0⟩ := Decode.shape18 0x2e 0x0 w sb (by decide) (by decide) hw
  rw [Decode.at2E h1]
  simp only [Decode.major2E, h2, f0, z0, Decode.clean, if_true]

theorem RoundTrip.vnext (m : BitVec 4) (sb : BitVec 6) : RoundTrip.Statement (.vnext m sb) := by
  intro _ _
  obtain ⟨w, hw⟩ : ∃ w, w = encode (.vnext m sb) := ⟨_, rfl⟩
  rw [← hw]
  obtain ⟨h1, h2, f0, f1, z0, z1⟩ := Decode.shape19 0x2e 0x2 w m sb (by decide) (by decide) hw
  rw [Decode.at2E h1]
  simp only [Decode.major2E, h2, f0, f1, z0, z1, Decode.clean, if_true, Nat.add_zero]

theorem RoundTrip.vld (d : BitVec 5) (a : BitVec 6) (b : BitVec 6) (h : BitVec 3) : RoundTrip.Statement (.vld d a b h) := by
  intro hwf _
  obtain ⟨w, hw⟩ : ∃ w, w = encode (.vld d a b h) := ⟨_, rfl⟩
  rw [← hw]
  obtain ⟨h1, h2, f0, f1, f2, f3⟩ := Decode.shape20 0x2f 0x0 w d a b h (by decide) (by decide) hw
  rw [Decode.at2F h1]
  simp only [Instr.wf] at hwf
  simp only [Decode.major2F, h2, f0, f1, f2, f3, hwf, Decode.legal, if_true]

theorem RoundTrip.vlds (d : BitVec 5) (a : BitVec 6) (b : BitVec 6) (h : BitVec 3) : RoundTrip.Statement (.vlds d a b h) := by
  intro hwf _
  obtain ⟨w, hw⟩ : ∃ w, w = encode (.vlds d a b h) := ⟨_, rfl⟩
  rw [← hw]
  obtain ⟨h1, h2, f0, f1, f2, f3⟩ := Decode.shape20 0x2f 0x1 w d a b h (by decide) (by decide) hw
  rw [Decode.at2F h1]
  simp only [Instr.wf] at hwf
  simp only [Decode.major2F, h2, f0, f1, f2, f3, hwf, Decode.legal, if_true]

theorem RoundTrip.vst (d : BitVec 5) (a : BitVec 6) (b : BitVec 6) (h : BitVec 3) : RoundTrip.Statement (.vst d a b h) := by
  intro hwf _
  obtain ⟨w, hw⟩ : ∃ w, w = encode (.vst d a b h) := ⟨_, rfl⟩
  rw [← hw]
  obtain ⟨h1, h2, f0, f1, f2, f3⟩ := Decode.shape20 0x2f 0x2 w d a b h (by decide) (by decide) hw
  rw [Decode.at2F h1]
  simp only [Instr.wf] at hwf
  simp only [Decode.major2F, h2, f0, f1, f2, f3, hwf, Decode.legal, if_true]

theorem RoundTrip.vsts (d : BitVec 5) (a : BitVec 6) (b : BitVec 6) (h : BitVec 3) : RoundTrip.Statement (.vsts d a b h) := by
  intro hwf _
  obtain ⟨w, hw⟩ : ∃ w, w = encode (.vsts d a b h) := ⟨_, rfl⟩
  rw [← hw]
  obtain ⟨h1, h2, f0, f1, f2, f3⟩ := Decode.shape20 0x2f 0x3 w d a b h (by decide) (by decide) hw
  rw [Decode.at2F h1]
  simp only [Instr.wf] at hwf
  simp only [Decode.major2F, h2, f0, f1, f2, f3, hwf, Decode.legal, if_true]

theorem RoundTrip.vldc (d : BitVec 5) (a : BitVec 6) (b : BitVec 6) (h : BitVec 3) : RoundTrip.Statement (.vldc d a b h) := by
  intro hwf _
  obtain ⟨w, hw⟩ : ∃ w, w = encode (.vldc d a b h) := ⟨_, rfl⟩
  rw [← hw]
  obtain ⟨h1, h2, f0, f1, f2, f3⟩ := Decode.shape20 0x30 0x0 w d a b h (by decide) (by decide) hw
  rw [Decode.at30 h1]
  simp only [Instr.wf] at hwf
  simp only [Decode.major30, h2, f0, f1, f2, f3, hwf, Decode.legal, if_true]

theorem RoundTrip.vstc (d : BitVec 5) (a : BitVec 6) (b : BitVec 6) (h : BitVec 3) : RoundTrip.Statement (.vstc d a b h) := by
  intro hwf _
  obtain ⟨w, hw⟩ : ∃ w, w = encode (.vstc d a b h) := ⟨_, rfl⟩
  rw [← hw]
  obtain ⟨h1, h2, f0, f1, f2, f3⟩ := Decode.shape20 0x30 0x1 w d a b h (by decide) (by decide) hw
  rw [Decode.at30 h1]
  simp only [Instr.wf] at hwf
  simp only [Decode.major30, h2, f0, f1, f2, f3, hwf, Decode.legal, if_true]

theorem RoundTrip.vgath (d : BitVec 5) (a : BitVec 5) (sb : BitVec 6) : RoundTrip.Statement (.vgath d a sb) := by
  intro _ _
  obtain ⟨w, hw⟩ : ∃ w, w = encode (.vgath d a sb) := ⟨_, rfl⟩
  rw [← hw]
  obtain ⟨h1, h2, f0, f1, f2⟩ := Decode.shape16 0x31 0x0 w d a sb (by decide) (by decide) hw
  rw [Decode.at31 h1]
  simp only [Decode.major31, h2, f0, f1, f2]

theorem RoundTrip.vscat (d : BitVec 5) (a : BitVec 5) (sb : BitVec 6) : RoundTrip.Statement (.vscat d a sb) := by
  intro _ _
  obtain ⟨w, hw⟩ : ∃ w, w = encode (.vscat d a sb) := ⟨_, rfl⟩
  rw [← hw]
  obtain ⟨h1, h2, f0, f1, f2⟩ := Decode.shape16 0x31 0x1 w d a sb (by decide) (by decide) hw
  rw [Decode.at31 h1]
  simp only [Decode.major31, h2, f0, f1, f2]

theorem RoundTrip.vscadd (d : BitVec 5) (a : BitVec 5) (sb : BitVec 6) : RoundTrip.Statement (.vscadd d a sb) := by
  intro _ _
  obtain ⟨w, hw⟩ : ∃ w, w = encode (.vscadd d a sb) := ⟨_, rfl⟩
  rw [← hw]
  obtain ⟨h1, h2, f0, f1, f2⟩ := Decode.shape16 0x31 0x2 w d a sb (by decide) (by decide) hw
  rw [Decode.at31 h1]
  simp only [Decode.major31, h2, f0, f1, f2]

theorem RoundTrip.vldb (d : BitVec 5) (a : BitVec 6) (b : BitVec 6) (h : BitVec 3) : RoundTrip.Statement (.vldb d a b h) := by
  intro hwf _
  obtain ⟨w, hw⟩ : ∃ w, w = encode (.vldb d a b h) := ⟨_, rfl⟩
  rw [← hw]
  obtain ⟨h1, h2, f0, f1, f2, f3⟩ := Decode.shape20 0x32 0x0 w d a b h (by decide) (by decide) hw
  rw [Decode.at32 h1]
  simp only [Instr.wf] at hwf
  simp only [Decode.major32, h2, f0, f1, f2, f3, hwf, Decode.legal, if_true]

theorem RoundTrip.vstb (d : BitVec 5) (a : BitVec 6) (b : BitVec 6) (h : BitVec 3) : RoundTrip.Statement (.vstb d a b h) := by
  intro hwf _
  obtain ⟨w, hw⟩ : ∃ w, w = encode (.vstb d a b h) := ⟨_, rfl⟩
  rw [← hw]
  obtain ⟨h1, h2, f0, f1, f2, f3⟩ := Decode.shape20 0x32 0x1 w d a b h (by decide) (by decide) hw
  rw [Decode.at32 h1]
  simp only [Instr.wf] at hwf
  simp only [Decode.major32, h2, f0, f1, f2, f3, hwf, Decode.legal, if_true]

theorem RoundTrip.vldz (d : BitVec 5) (a : BitVec 6) (b : BitVec 6) (h : BitVec 3) : RoundTrip.Statement (.vldz d a b h) := by
  intro hwf _
  obtain ⟨w, hw⟩ : ∃ w, w = encode (.vldz d a b h) := ⟨_, rfl⟩
  rw [← hw]
  obtain ⟨h1, h2, f0, f1, f2, f3⟩ := Decode.shape20 0x32 0x2 w d a b h (by decide) (by decide) hw
  rw [Decode.at32 h1]
  simp only [Instr.wf] at hwf
  simp only [Decode.major32, h2, f0, f1, f2, f3, hwf, Decode.legal, if_true]

theorem RoundTrip.amoaddW (d : BitVec 6) (a : BitVec 6) (b : BitVec 6) (c : Bool) (r : Bool) (sc : BitVec 3) : RoundTrip.Statement (.amoaddW d a b c r sc) := by
  intro hwf _
  obtain ⟨w, hw⟩ : ∃ w, w = encode (.amoaddW d a b c r sc) := ⟨_, rfl⟩
  rw [← hw]
  obtain ⟨h1, h2, f0, f1, f2, f3, g0, g1⟩ := Decode.shape21 0x33 0x0 w d a b c r sc (by decide) (by decide) hw
  rw [Decode.at33 h1]
  simp only [Instr.wf] at hwf
  simp only [Decode.major33, h2, f0, f1, f2, f3, g0, g1, hwf, Decode.legal, if_true]

theorem RoundTrip.amoswapW (d : BitVec 6) (a : BitVec 6) (b : BitVec 6) (c : Bool) (r : Bool) (sc : BitVec 3) : RoundTrip.Statement (.amoswapW d a b c r sc) := by
  intro hwf _
  obtain ⟨w, hw⟩ : ∃ w, w = encode (.amoswapW d a b c r sc) := ⟨_, rfl⟩
  rw [← hw]
  obtain ⟨h1, h2, f0, f1, f2, f3, g0, g1⟩ := Decode.shape21 0x33 0x1 w d a b c r sc (by decide) (by decide) hw
  rw [Decode.at33 h1]
  simp only [Instr.wf] at hwf
  simp only [Decode.major33, h2, f0, f1, f2, f3, g0, g1, hwf, Decode.legal, if_true]

theorem RoundTrip.amoandW (d : BitVec 6) (a : BitVec 6) (b : BitVec 6) (c : Bool) (r : Bool) (sc : BitVec 3) : RoundTrip.Statement (.amoandW d a b c r sc) := by
  intro hwf _
  obtain ⟨w, hw⟩ : ∃ w, w = encode (.amoandW d a b c r sc) := ⟨_, rfl⟩
  rw [← hw]
  obtain ⟨h1, h2, f0, f1, f2, f3, g0, g1⟩ := Decode.shape21 0x33 0x2 w d a b c r sc (by decide) (by decide) hw
  rw [Decode.at33 h1]
  simp only [Instr.wf] at hwf
  simp only [Decode.major33, h2, f0, f1, f2, f3, g0, g1, hwf, Decode.legal, if_true]

theorem RoundTrip.amoorW (d : BitVec 6) (a : BitVec 6) (b : BitVec 6) (c : Bool) (r : Bool) (sc : BitVec 3) : RoundTrip.Statement (.amoorW d a b c r sc) := by
  intro hwf _
  obtain ⟨w, hw⟩ : ∃ w, w = encode (.amoorW d a b c r sc) := ⟨_, rfl⟩
  rw [← hw]
  obtain ⟨h1, h2, f0, f1, f2, f3, g0, g1⟩ := Decode.shape21 0x33 0x3 w d a b c r sc (by decide) (by decide) hw
  rw [Decode.at33 h1]
  simp only [Instr.wf] at hwf
  simp only [Decode.major33, h2, f0, f1, f2, f3, g0, g1, hwf, Decode.legal, if_true]

theorem RoundTrip.amoxorW (d : BitVec 6) (a : BitVec 6) (b : BitVec 6) (c : Bool) (r : Bool) (sc : BitVec 3) : RoundTrip.Statement (.amoxorW d a b c r sc) := by
  intro hwf _
  obtain ⟨w, hw⟩ : ∃ w, w = encode (.amoxorW d a b c r sc) := ⟨_, rfl⟩
  rw [← hw]
  obtain ⟨h1, h2, f0, f1, f2, f3, g0, g1⟩ := Decode.shape21 0x33 0x4 w d a b c r sc (by decide) (by decide) hw
  rw [Decode.at33 h1]
  simp only [Instr.wf] at hwf
  simp only [Decode.major33, h2, f0, f1, f2, f3, g0, g1, hwf, Decode.legal, if_true]

theorem RoundTrip.amominW (d : BitVec 6) (a : BitVec 6) (b : BitVec 6) (c : Bool) (r : Bool) (sc : BitVec 3) : RoundTrip.Statement (.amominW d a b c r sc) := by
  intro hwf _
  obtain ⟨w, hw⟩ : ∃ w, w = encode (.amominW d a b c r sc) := ⟨_, rfl⟩
  rw [← hw]
  obtain ⟨h1, h2, f0, f1, f2, f3, g0, g1⟩ := Decode.shape21 0x33 0x5 w d a b c r sc (by decide) (by decide) hw
  rw [Decode.at33 h1]
  simp only [Instr.wf] at hwf
  simp only [Decode.major33, h2, f0, f1, f2, f3, g0, g1, hwf, Decode.legal, if_true]

theorem RoundTrip.amomaxW (d : BitVec 6) (a : BitVec 6) (b : BitVec 6) (c : Bool) (r : Bool) (sc : BitVec 3) : RoundTrip.Statement (.amomaxW d a b c r sc) := by
  intro hwf _
  obtain ⟨w, hw⟩ : ∃ w, w = encode (.amomaxW d a b c r sc) := ⟨_, rfl⟩
  rw [← hw]
  obtain ⟨h1, h2, f0, f1, f2, f3, g0, g1⟩ := Decode.shape21 0x33 0x6 w d a b c r sc (by decide) (by decide) hw
  rw [Decode.at33 h1]
  simp only [Instr.wf] at hwf
  simp only [Decode.major33, h2, f0, f1, f2, f3, g0, g1, hwf, Decode.legal, if_true]

theorem RoundTrip.amocasW (d : BitVec 6) (a : BitVec 6) (b : BitVec 6) (c : Bool) (r : Bool) (sc : BitVec 3) : RoundTrip.Statement (.amocasW d a b c r sc) := by
  intro hwf _
  obtain ⟨w, hw⟩ : ∃ w, w = encode (.amocasW d a b c r sc) := ⟨_, rfl⟩
  rw [← hw]
  obtain ⟨h1, h2, f0, f1, f2, f3, g0, g1⟩ := Decode.shape21 0x33 0x7 w d a b c r sc (by decide) (by decide) hw
  rw [Decode.at33 h1]
  simp only [Instr.wf] at hwf
  simp only [Decode.major33, h2, f0, f1, f2, f3, g0, g1, hwf, Decode.legal, if_true]

theorem RoundTrip.amoaddD (d : BitVec 6) (a : BitVec 6) (b : BitVec 6) (c : Bool) (r : Bool) (sc : BitVec 3) : RoundTrip.Statement (.amoaddD d a b c r sc) := by
  intro hwf _
  obtain ⟨w, hw⟩ : ∃ w, w = encode (.amoaddD d a b c r sc) := ⟨_, rfl⟩
  rw [← hw]
  obtain ⟨h1, h2, f0, f1, f2, f3, g0, g1⟩ := Decode.shape21 0x34 0x0 w d a b c r sc (by decide) (by decide) hw
  rw [Decode.at34 h1]
  simp only [Instr.wf] at hwf
  simp only [Decode.major34, h2, f0, f1, f2, f3, g0, g1, hwf, Decode.legal, if_true]

theorem RoundTrip.amoswapD (d : BitVec 6) (a : BitVec 6) (b : BitVec 6) (c : Bool) (r : Bool) (sc : BitVec 3) : RoundTrip.Statement (.amoswapD d a b c r sc) := by
  intro hwf _
  obtain ⟨w, hw⟩ : ∃ w, w = encode (.amoswapD d a b c r sc) := ⟨_, rfl⟩
  rw [← hw]
  obtain ⟨h1, h2, f0, f1, f2, f3, g0, g1⟩ := Decode.shape21 0x34 0x1 w d a b c r sc (by decide) (by decide) hw
  rw [Decode.at34 h1]
  simp only [Instr.wf] at hwf
  simp only [Decode.major34, h2, f0, f1, f2, f3, g0, g1, hwf, Decode.legal, if_true]

theorem RoundTrip.amoandD (d : BitVec 6) (a : BitVec 6) (b : BitVec 6) (c : Bool) (r : Bool) (sc : BitVec 3) : RoundTrip.Statement (.amoandD d a b c r sc) := by
  intro hwf _
  obtain ⟨w, hw⟩ : ∃ w, w = encode (.amoandD d a b c r sc) := ⟨_, rfl⟩
  rw [← hw]
  obtain ⟨h1, h2, f0, f1, f2, f3, g0, g1⟩ := Decode.shape21 0x34 0x2 w d a b c r sc (by decide) (by decide) hw
  rw [Decode.at34 h1]
  simp only [Instr.wf] at hwf
  simp only [Decode.major34, h2, f0, f1, f2, f3, g0, g1, hwf, Decode.legal, if_true]

theorem RoundTrip.amoorD (d : BitVec 6) (a : BitVec 6) (b : BitVec 6) (c : Bool) (r : Bool) (sc : BitVec 3) : RoundTrip.Statement (.amoorD d a b c r sc) := by
  intro hwf _
  obtain ⟨w, hw⟩ : ∃ w, w = encode (.amoorD d a b c r sc) := ⟨_, rfl⟩
  rw [← hw]
  obtain ⟨h1, h2, f0, f1, f2, f3, g0, g1⟩ := Decode.shape21 0x34 0x3 w d a b c r sc (by decide) (by decide) hw
  rw [Decode.at34 h1]
  simp only [Instr.wf] at hwf
  simp only [Decode.major34, h2, f0, f1, f2, f3, g0, g1, hwf, Decode.legal, if_true]

theorem RoundTrip.amoxorD (d : BitVec 6) (a : BitVec 6) (b : BitVec 6) (c : Bool) (r : Bool) (sc : BitVec 3) : RoundTrip.Statement (.amoxorD d a b c r sc) := by
  intro hwf _
  obtain ⟨w, hw⟩ : ∃ w, w = encode (.amoxorD d a b c r sc) := ⟨_, rfl⟩
  rw [← hw]
  obtain ⟨h1, h2, f0, f1, f2, f3, g0, g1⟩ := Decode.shape21 0x34 0x4 w d a b c r sc (by decide) (by decide) hw
  rw [Decode.at34 h1]
  simp only [Instr.wf] at hwf
  simp only [Decode.major34, h2, f0, f1, f2, f3, g0, g1, hwf, Decode.legal, if_true]

theorem RoundTrip.amominD (d : BitVec 6) (a : BitVec 6) (b : BitVec 6) (c : Bool) (r : Bool) (sc : BitVec 3) : RoundTrip.Statement (.amominD d a b c r sc) := by
  intro hwf _
  obtain ⟨w, hw⟩ : ∃ w, w = encode (.amominD d a b c r sc) := ⟨_, rfl⟩
  rw [← hw]
  obtain ⟨h1, h2, f0, f1, f2, f3, g0, g1⟩ := Decode.shape21 0x34 0x5 w d a b c r sc (by decide) (by decide) hw
  rw [Decode.at34 h1]
  simp only [Instr.wf] at hwf
  simp only [Decode.major34, h2, f0, f1, f2, f3, g0, g1, hwf, Decode.legal, if_true]

theorem RoundTrip.amomaxD (d : BitVec 6) (a : BitVec 6) (b : BitVec 6) (c : Bool) (r : Bool) (sc : BitVec 3) : RoundTrip.Statement (.amomaxD d a b c r sc) := by
  intro hwf _
  obtain ⟨w, hw⟩ : ∃ w, w = encode (.amomaxD d a b c r sc) := ⟨_, rfl⟩
  rw [← hw]
  obtain ⟨h1, h2, f0, f1, f2, f3, g0, g1⟩ := Decode.shape21 0x34 0x6 w d a b c r sc (by decide) (by decide) hw
  rw [Decode.at34 h1]
  simp only [Instr.wf] at hwf
  simp only [Decode.major34, h2, f0, f1, f2, f3, g0, g1, hwf, Decode.legal, if_true]

theorem RoundTrip.amocasD (d : BitVec 6) (a : BitVec 6) (b : BitVec 6) (c : Bool) (r : Bool) (sc : BitVec 3) : RoundTrip.Statement (.amocasD d a b c r sc) := by
  intro hwf _
  obtain ⟨w, hw⟩ : ∃ w, w = encode (.amocasD d a b c r sc) := ⟨_, rfl⟩
  rw [← hw]
  obtain ⟨h1, h2, f0, f1, f2, f3, g0, g1⟩ := Decode.shape21 0x34 0x7 w d a b c r sc (by decide) (by decide) hw
  rw [Decode.at34 h1]
  simp only [Instr.wf] at hwf
  simp only [Decode.major34, h2, f0, f1, f2, f3, g0, g1, hwf, Decode.legal, if_true]

theorem RoundTrip.ldaW (d : BitVec 6) (a : BitVec 6) (sc : BitVec 3) : RoundTrip.Statement (.ldaW d a sc) := by
  intro hwf _
  obtain ⟨w, hw⟩ : ∃ w, w = encode (.ldaW d a sc) := ⟨_, rfl⟩
  rw [← hw]
  obtain ⟨h1, h2, f0, f1, f2, z0⟩ := Decode.shape22 0x35 0x0 w d a sc (by decide) (by decide) hw
  rw [Decode.at35 h1]
  simp only [Instr.wf] at hwf
  simp only [Decode.major35, h2, f0, f1, f2, z0, Decode.clean, if_true, hwf, Decode.legal]

theorem RoundTrip.ldaD (d : BitVec 6) (a : BitVec 6) (sc : BitVec 3) : RoundTrip.Statement (.ldaD d a sc) := by
  intro hwf _
  obtain ⟨w, hw⟩ : ∃ w, w = encode (.ldaD d a sc) := ⟨_, rfl⟩
  rw [← hw]
  obtain ⟨h1, h2, f0, f1, f2, z0⟩ := Decode.shape22 0x35 0x1 w d a sc (by decide) (by decide) hw
  rw [Decode.at35 h1]
  simp only [Instr.wf] at hwf
  simp only [Decode.major35, h2, f0, f1, f2, z0, Decode.clean, if_true, hwf, Decode.legal]

theorem RoundTrip.stlW (d : BitVec 6) (a : BitVec 6) (sc : BitVec 3) : RoundTrip.Statement (.stlW d a sc) := by
  intro hwf _
  obtain ⟨w, hw⟩ : ∃ w, w = encode (.stlW d a sc) := ⟨_, rfl⟩
  rw [← hw]
  obtain ⟨h1, h2, f0, f1, f2, z0⟩ := Decode.shape22 0x35 0x2 w d a sc (by decide) (by decide) hw
  rw [Decode.at35 h1]
  simp only [Instr.wf] at hwf
  simp only [Decode.major35, h2, f0, f1, f2, z0, Decode.clean, if_true, hwf, Decode.legal]

theorem RoundTrip.stlD (d : BitVec 6) (a : BitVec 6) (sc : BitVec 3) : RoundTrip.Statement (.stlD d a sc) := by
  intro hwf _
  obtain ⟨w, hw⟩ : ∃ w, w = encode (.stlD d a sc) := ⟨_, rfl⟩
  rw [← hw]
  obtain ⟨h1, h2, f0, f1, f2, z0⟩ := Decode.shape22 0x35 0x3 w d a sc (by decide) (by decide) hw
  rw [Decode.at35 h1]
  simp only [Instr.wf] at hwf
  simp only [Decode.major35, h2, f0, f1, f2, z0, Decode.clean, if_true, hwf, Decode.legal]

theorem RoundTrip.fence (sc : BitVec 3) : RoundTrip.Statement (.fence sc) := by
  intro hwf _
  obtain ⟨w, hw⟩ : ∃ w, w = encode (.fence sc) := ⟨_, rfl⟩
  rw [← hw]
  obtain ⟨h1, h2, f0, z0⟩ := Decode.shape23 0x35 0x4 w sc (by decide) (by decide) hw
  rw [Decode.at35 h1]
  simp only [Instr.wf] at hwf
  simp only [Decode.major35, h2, f0, z0, Decode.clean, if_true, hwf, Decode.legal]

theorem RoundTrip.wbr (a : BitVec 6) (b : BitVec 6) (sc : BitVec 3) : RoundTrip.Statement (.wbr a b sc) := by
  intro hwf _
  obtain ⟨w, hw⟩ : ∃ w, w = encode (.wbr a b sc) := ⟨_, rfl⟩
  rw [← hw]
  obtain ⟨h1, h2, f0, f1, f2, z0⟩ := Decode.shape24 0x35 0x5 w a b sc (by decide) (by decide) hw
  rw [Decode.at35 h1]
  simp only [Instr.wf] at hwf
  simp only [Decode.major35, h2, f0, f1, f2, z0, Decode.clean, if_true, hwf, Decode.legal]

theorem RoundTrip.invr (a : BitVec 6) (b : BitVec 6) (sc : BitVec 3) : RoundTrip.Statement (.invr a b sc) := by
  intro hwf _
  obtain ⟨w, hw⟩ : ∃ w, w = encode (.invr a b sc) := ⟨_, rfl⟩
  rw [← hw]
  obtain ⟨h1, h2, f0, f1, f2, z0⟩ := Decode.shape24 0x35 0x6 w a b sc (by decide) (by decide) hw
  rw [Decode.at35 h1]
  simp only [Instr.wf] at hwf
  simp only [Decode.major35, h2, f0, f1, f2, z0, Decode.clean, if_true, hwf, Decode.legal]

theorem RoundTrip.lclk (d : BitVec 6) : RoundTrip.Statement (.lclk d) := by
  intro _ _
  obtain ⟨w, hw⟩ : ∃ w, w = encode (.lclk d) := ⟨_, rfl⟩
  rw [← hw]
  obtain ⟨h1, h2, f0, z0, z1⟩ := Decode.shape25 0x35 0x7 w d (by decide) (by decide) hw
  rw [Decode.at35 h1]
  simp only [Decode.major35, h2, f0, z0, z1, Decode.clean, if_true, Nat.add_zero]

theorem RoundTrip.own (a : BitVec 6) (b : BitVec 6) : RoundTrip.Statement (.own a b) := by
  intro _ _
  obtain ⟨w, hw⟩ : ∃ w, w = encode (.own a b) := ⟨_, rfl⟩
  rw [← hw]
  obtain ⟨h1, h2, f0, f1, z0, z1⟩ := Decode.shape26 0x35 0x9 w a b (by decide) (by decide) hw
  rw [Decode.at35 h1]
  simp only [Decode.major35, h2, f0, f1, z0, z1, Decode.clean, if_true, Nat.add_zero]

theorem RoundTrip.mldb (sb : BitVec 6) : RoundTrip.Statement (.mldb sb) := by
  intro _ _
  obtain ⟨w, hw⟩ : ∃ w, w = encode (.mldb sb) := ⟨_, rfl⟩
  rw [← hw]
  obtain ⟨h1, h2, f0, z0⟩ := Decode.shape18 0x36 0x0 w sb (by decide) (by decide) hw
  rw [Decode.at36 h1]
  simp only [Decode.major36, h2, f0, z0, Decode.clean, if_true]

theorem RoundTrip.mmao (d : BitVec 5) (a : BitVec 5) (sb : BitVec 6) : RoundTrip.Statement (.mmao d a sb) := by
  intro _ _
  obtain ⟨w, hw⟩ : ∃ w, w = encode (.mmao d a sb) := ⟨_, rfl⟩
  rw [← hw]
  obtain ⟨h1, h2, f0, f1, f2⟩ := Decode.shape16 0x36 0x1 w d a sb (by decide) (by decide) hw
  rw [Decode.at36 h1]
  simp only [Decode.major36, h2, f0, f1, f2]

theorem RoundTrip.mmaf (d : BitVec 5) (a : BitVec 5) (sb : BitVec 6) : RoundTrip.Statement (.mmaf d a sb) := by
  intro _ _
  obtain ⟨w, hw⟩ : ∃ w, w = encode (.mmaf d a sb) := ⟨_, rfl⟩
  rw [← hw]
  obtain ⟨h1, h2, f0, f1, f2⟩ := Decode.shape16 0x36 0x2 w d a sb (by decide) (by decide) hw
  rw [Decode.at36 h1]
  simp only [Decode.major36, h2, f0, f1, f2]

theorem RoundTrip.mmas (d : BitVec 5) (a : BitVec 5) (sb : BitVec 6) : RoundTrip.Statement (.mmas d a sb) := by
  intro _ _
  obtain ⟨w, hw⟩ : ∃ w, w = encode (.mmas d a sb) := ⟨_, rfl⟩
  rw [← hw]
  obtain ⟨h1, h2, f0, f1, f2⟩ := Decode.shape16 0x36 0x3 w d a sb (by decide) (by decide) hw
  rw [Decode.at36 h1]
  simp only [Decode.major36, h2, f0, f1, f2]

theorem RoundTrip.sldc (sb : BitVec 6) : RoundTrip.Statement (.sldc sb) := by
  intro _ _
  obtain ⟨w, hw⟩ : ∃ w, w = encode (.sldc sb) := ⟨_, rfl⟩
  rw [← hw]
  obtain ⟨h1, h2, f0, z0⟩ := Decode.shape18 0x37 0x1 w sb (by decide) (by decide) hw
  rw [Decode.at37 h1]
  simp only [Decode.major37, h2, f0, z0, Decode.clean, if_true]

theorem RoundTrip.seval (d : BitVec 5) (a : BitVec 5) : RoundTrip.Statement (.seval d a) := by
  intro _ _
  obtain ⟨w, hw⟩ : ∃ w, w = encode (.seval d a) := ⟨_, rfl⟩
  rw [← hw]
  obtain ⟨h1, h2, f0, f1, z0⟩ := Decode.shape27 0x37 0x2 w d a (by decide) (by decide) hw
  rw [Decode.at37 h1]
  simp only [Decode.major37, h2, f0, f1, z0, Decode.clean, if_true]

theorem RoundTrip.sevald (d : BitVec 5) (a : BitVec 5) : RoundTrip.Statement (.sevald d a) := by
  intro _ _
  obtain ⟨w, hw⟩ : ∃ w, w = encode (.sevald d a) := ⟨_, rfl⟩
  rw [← hw]
  obtain ⟨h1, h2, f0, f1, z0⟩ := Decode.shape27 0x37 0x3 w d a (by decide) (by decide) hw
  rw [Decode.at37 h1]
  simp only [Decode.major37, h2, f0, f1, z0, Decode.clean, if_true]

theorem RoundTrip.sgrad (d : BitVec 5) (a : BitVec 5) (sb : BitVec 6) : RoundTrip.Statement (.sgrad d a sb) := by
  intro _ _
  obtain ⟨w, hw⟩ : ∃ w, w = encode (.sgrad d a sb) := ⟨_, rfl⟩
  rw [← hw]
  obtain ⟨h1, h2, f0, f1, f2⟩ := Decode.shape16 0x37 0x4 w d a sb (by decide) (by decide) hw
  rw [Decode.at37 h1]
  simp only [Decode.major37, h2, f0, f1, f2]

theorem RoundTrip.sref (sb : BitVec 6) : RoundTrip.Statement (.sref sb) := by
  intro _ _
  obtain ⟨w, hw⟩ : ∃ w, w = encode (.sref sb) := ⟨_, rfl⟩
  rw [← hw]
  obtain ⟨h1, h2, f0, z0⟩ := Decode.shape18 0x37 0x5 w sb (by decide) (by decide) hw
  rw [Decode.at37 h1]
  simp only [Decode.major37, h2, f0, z0, Decode.clean, if_true]

theorem RoundTrip.xdec (d : BitVec 5) (sb : BitVec 6) : RoundTrip.Statement (.xdec d sb) := by
  intro _ _
  obtain ⟨w, hw⟩ : ∃ w, w = encode (.xdec d sb) := ⟨_, rfl⟩
  rw [← hw]
  obtain ⟨h1, h2, f0, f1, z0⟩ := Decode.shape17 0x38 0x0 w d sb (by decide) (by decide) hw
  rw [Decode.at38 h1]
  simp only [Decode.major38, h2, f0, f1, z0, Decode.clean, if_true]

theorem RoundTrip.xenc (d : BitVec 5) (x : BitVec 2) (n : BitVec 3) (sb : BitVec 6) : RoundTrip.Statement (.xenc d x n sb) := by
  intro _ _
  obtain ⟨w, hw⟩ : ∃ w, w = encode (.xenc d x n sb) := ⟨_, rfl⟩
  rw [← hw]
  obtain ⟨h1, h2, f0, f1, f2, f3⟩ := Decode.shape28 0x38 0x1 w d x n sb (by decide) (by decide) hw
  rw [Decode.at38 h1]
  simp only [Decode.major38, h2, f0, f1, f2, f3]

theorem RoundTrip.flcfg (d : BitVec 6) (a : BitVec 6) (b : BitVec 6) : RoundTrip.Statement (.flcfg d a b) := by
  intro _ _
  obtain ⟨w, hw⟩ : ∃ w, w = encode (.flcfg d a b) := ⟨_, rfl⟩
  rw [← hw]
  obtain ⟨h1, h2, f0, f1, f2⟩ := Decode.shape0 0x39 0x0 w d a b (by decide) (by decide) hw
  rw [Decode.at39 h1]
  simp only [Decode.major39, h2, f0, f1, f2]

theorem RoundTrip.fllvl (d : BitVec 6) (a : BitVec 6) (b : BitVec 6) : RoundTrip.Statement (.fllvl d a b) := by
  intro _ _
  obtain ⟨w, hw⟩ : ∃ w, w = encode (.fllvl d a b) := ⟨_, rfl⟩
  rw [← hw]
  obtain ⟨h1, h2, f0, f1, f2⟩ := Decode.shape0 0x39 0x1 w d a b (by decide) (by decide) hw
  rw [Decode.at39 h1]
  simp only [Decode.major39, h2, f0, f1, f2]

theorem RoundTrip.flxf (a : BitVec 6) (b : BitVec 6) : RoundTrip.Statement (.flxf a b) := by
  intro _ _
  obtain ⟨w, hw⟩ : ∃ w, w = encode (.flxf a b) := ⟨_, rfl⟩
  rw [← hw]
  obtain ⟨h1, h2, f0, f1, z0⟩ := Decode.shape8 0x39 0x2 w a b (by decide) (by decide) hw
  rw [Decode.at39 h1]
  simp only [Decode.major39, h2, f0, f1, z0, Decode.clean, if_true]

theorem RoundTrip.flblk (a : BitVec 6) (b : BitVec 6) : RoundTrip.Statement (.flblk a b) := by
  intro _ _
  obtain ⟨w, hw⟩ : ∃ w, w = encode (.flblk a b) := ⟨_, rfl⟩
  rw [← hw]
  obtain ⟨h1, h2, f0, f1, z0⟩ := Decode.shape8 0x39 0x3 w a b (by decide) (by decide) hw
  rw [Decode.at39 h1]
  simp only [Decode.major39, h2, f0, f1, z0, Decode.clean, if_true]

theorem RoundTrip.flstart (d : BitVec 6) (a : BitVec 6) (b : BitVec 6) : RoundTrip.Statement (.flstart d a b) := by
  intro _ _
  obtain ⟨w, hw⟩ : ∃ w, w = encode (.flstart d a b) := ⟨_, rfl⟩
  rw [← hw]
  obtain ⟨h1, h2, f0, f1, f2⟩ := Decode.shape0 0x39 0x4 w d a b (by decide) (by decide) hw
  rw [Decode.at39 h1]
  simp only [Decode.major39, h2, f0, f1, f2]

theorem RoundTrip.bdef (d : BitVec 6) (a : BitVec 6) (b : BitVec 6) : RoundTrip.Statement (.bdef d a b) := by
  intro _ _
  obtain ⟨w, hw⟩ : ∃ w, w = encode (.bdef d a b) := ⟨_, rfl⟩
  rw [← hw]
  obtain ⟨h1, h2, f0, f1, f2⟩ := Decode.shape0 0x3a 0x0 w d a b (by decide) (by decide) hw
  rw [Decode.at3A h1]
  simp only [Decode.major3A, h2, f0, f1, f2]

theorem RoundTrip.bget (d : BitVec 6) (a : BitVec 6) (b : BitVec 6) : RoundTrip.Statement (.bget d a b) := by
  intro _ _
  obtain ⟨w, hw⟩ : ∃ w, w = encode (.bget d a b) := ⟨_, rfl⟩
  rw [← hw]
  obtain ⟨h1, h2, f0, f1, f2⟩ := Decode.shape0 0x3a 0x1 w d a b (by decide) (by decide) hw
  rw [Decode.at3A h1]
  simp only [Decode.major3A, h2, f0, f1, f2]

theorem RoundTrip.bput (a : BitVec 6) (b : BitVec 6) : RoundTrip.Statement (.bput a b) := by
  intro _ _
  obtain ⟨w, hw⟩ : ∃ w, w = encode (.bput a b) := ⟨_, rfl⟩
  rw [← hw]
  obtain ⟨h1, h2, f0, f1, z0⟩ := Decode.shape8 0x3a 0x2 w a b (by decide) (by decide) hw
  rw [Decode.at3A h1]
  simp only [Decode.major3A, h2, f0, f1, z0, Decode.clean, if_true]

theorem RoundTrip.cwait (d : BitVec 6) (a : BitVec 6) (b : BitVec 6) : RoundTrip.Statement (.cwait d a b) := by
  intro _ _
  obtain ⟨w, hw⟩ : ∃ w, w = encode (.cwait d a b) := ⟨_, rfl⟩
  rw [← hw]
  obtain ⟨h1, h2, f0, f1, f2⟩ := Decode.shape0 0x3a 0x8 w d a b (by decide) (by decide) hw
  rw [Decode.at3A h1]
  simp only [Decode.major3A, h2, f0, f1, f2]

theorem RoundTrip.cadd (d : BitVec 6) (a : BitVec 6) (b : BitVec 6) : RoundTrip.Statement (.cadd d a b) := by
  intro _ _
  obtain ⟨w, hw⟩ : ∃ w, w = encode (.cadd d a b) := ⟨_, rfl⟩
  rw [← hw]
  obtain ⟨h1, h2, f0, f1, f2⟩ := Decode.shape0 0x3a 0x9 w d a b (by decide) (by decide) hw
  rw [Decode.at3A h1]
  simp only [Decode.major3A, h2, f0, f1, f2]

theorem RoundTrip.topen (a : BitVec 6) (b : BitVec 6) : RoundTrip.Statement (.topen a b) := by
  intro _ _
  obtain ⟨w, hw⟩ : ∃ w, w = encode (.topen a b) := ⟨_, rfl⟩
  rw [← hw]
  obtain ⟨h1, h2, f0, f1, z0⟩ := Decode.shape8 0x3b 0x0 w a b (by decide) (by decide) hw
  rw [Decode.at3B h1]
  simp only [Decode.major3B, h2, f0, f1, z0, Decode.clean, if_true]

theorem RoundTrip.twalk (d : BitVec 6) (a : BitVec 6) (b : BitVec 6) : RoundTrip.Statement (.twalk d a b) := by
  intro _ _
  obtain ⟨w, hw⟩ : ∃ w, w = encode (.twalk d a b) := ⟨_, rfl⟩
  rw [← hw]
  obtain ⟨h1, h2, f0, f1, f2⟩ := Decode.shape0 0x3b 0x1 w d a b (by decide) (by decide) hw
  rw [Decode.at3B h1]
  simp only [Decode.major3B, h2, f0, f1, f2]

theorem RoundTrip.tappend (d : BitVec 6) (a : BitVec 6) (b : BitVec 6) : RoundTrip.Statement (.tappend d a b) := by
  intro _ _
  obtain ⟨w, hw⟩ : ∃ w, w = encode (.tappend d a b) := ⟨_, rfl⟩
  rw [← hw]
  obtain ⟨h1, h2, f0, f1, f2⟩ := Decode.shape0 0x3b 0x2 w d a b (by decide) (by decide) hw
  rw [Decode.at3B h1]
  simp only [Decode.major3B, h2, f0, f1, f2]

theorem RoundTrip.trefit (a : BitVec 6) (b : BitVec 6) : RoundTrip.Statement (.trefit a b) := by
  intro _ _
  obtain ⟨w, hw⟩ : ∃ w, w = encode (.trefit a b) := ⟨_, rfl⟩
  rw [← hw]
  obtain ⟨h1, h2, f0, f1, z0⟩ := Decode.shape8 0x3b 0x3 w a b (by decide) (by decide) hw
  rw [Decode.at3B h1]
  simp only [Decode.major3B, h2, f0, f1, z0, Decode.clean, if_true]

theorem RoundTrip.tsumr (d : BitVec 6) (a : BitVec 6) (b : BitVec 6) : RoundTrip.Statement (.tsumr d a b) := by
  intro _ _
  obtain ⟨w, hw⟩ : ∃ w, w = encode (.tsumr d a b) := ⟨_, rfl⟩
  rw [← hw]
  obtain ⟨h1, h2, f0, f1, f2⟩ := Decode.shape0 0x3b 0x4 w d a b (by decide) (by decide) hw
  rw [Decode.at3B h1]
  simp only [Decode.major3B, h2, f0, f1, f2]

theorem RoundTrip.clstart (a : BitVec 6) : RoundTrip.Statement (.clstart a) := by
  intro _ _
  obtain ⟨w, hw⟩ : ∃ w, w = encode (.clstart a) := ⟨_, rfl⟩
  rw [← hw]
  obtain ⟨h1, h2, f0, z0, z1⟩ := Decode.shape7 0x3c 0x0 w a (by decide) (by decide) hw
  rw [Decode.at3C h1]
  simp only [Decode.major3C, h2, f0, z0, z1, Decode.clean, if_true, Nat.add_zero]

theorem RoundTrip.rfence (a : BitVec 6) : RoundTrip.Statement (.rfence a) := by
  intro _ _
  obtain ⟨w, hw⟩ : ∃ w, w = encode (.rfence a) := ⟨_, rfl⟩
  rw [← hw]
  obtain ⟨h1, h2, f0, z0, z1⟩ := Decode.shape7 0x3c 0x8 w a (by decide) (by decide) hw
  rw [Decode.at3C h1]
  simp only [Decode.major3C, h2, f0, z0, z1, Decode.clean, if_true, Nat.add_zero]

theorem RoundTrip.grp (m : BitVec 4) (v : Bool) (t : BitVec 5) (r : BitVec 3) (p : Bool) (f : Bool) (g : BitVec 2) (l : BitVec 3) : RoundTrip.Statement (.grp m v t r p f g l) := by
  intro hwf _
  obtain ⟨w, hw⟩ : ∃ w, w = encode (.grp m v t r p f g l) := ⟨_, rfl⟩
  rw [← hw]
  obtain ⟨h1, f0, f1, f2, f3, f4, g0, g1, g2, z0⟩ := Decode.shape29 0x3e w m v t r p f g l (by decide) hw
  rw [Decode.at3E h1]
  simp only [Instr.wf] at hwf
  simp only [f0, f1, f2, f3, f4, g0, g1, g2, z0, Decode.clean, if_true, hwf, Decode.legal]

theorem RoundTrip.pfx (m : BitVec 4) (v : Bool) (r : BitVec 3) (w : Bool) (p : BitVec 2) (q : BitVec 5) (x : Bool) (t : BitVec 5) (y : Bool) : RoundTrip.Statement (.pfx m v r w p q x t y) := by
  intro hwf _
  obtain ⟨u, hw⟩ : ∃ u, u = encode (.pfx m v r w p q x t y) := ⟨_, rfl⟩
  rw [← hw]
  obtain ⟨h1, f0, f1, f2, f3, f4, g0, g1, g2, g3, z0⟩ := Decode.shape30 0x3f u m v r w p q x t y (by decide) hw
  rw [Decode.at3F h1]
  simp only [Instr.wf] at hwf
  rw [Bool.and_eq_true] at hwf
  simp only [f0, f1, f2, f3, f4, g0, g1, g2, g3, z0, hwf.1, hwf.2, Decode.legal, Decode.clean, if_true]

theorem RoundTrip.yield : RoundTrip.Statement .yield := by
  intro _ _
  obtain ⟨w, hw⟩ : ∃ w, w = encode .yield := ⟨_, rfl⟩
  rw [← hw]
  obtain ⟨h1, h2, z0⟩ := Decode.shape31 0x23 0x0 w (by decide) (by decide) hw
  rw [Decode.at23 h1]
  simp only [Decode.major23, h2, z0, Decode.clean, if_true]

theorem RoundTrip.halt : RoundTrip.Statement .halt := by
  intro _ _
  obtain ⟨w, hw⟩ : ∃ w, w = encode .halt := ⟨_, rfl⟩
  rw [← hw]
  obtain ⟨h1, h2, z0⟩ := Decode.shape31 0x23 0x2 w (by decide) (by decide) hw
  rw [Decode.at23 h1]
  simp only [Decode.major23, h2, z0, Decode.clean, if_true]

theorem RoundTrip.npbegin : RoundTrip.Statement .npbegin := by
  intro _ _
  obtain ⟨w, hw⟩ : ∃ w, w = encode .npbegin := ⟨_, rfl⟩
  rw [← hw]
  obtain ⟨h1, h2, z0⟩ := Decode.shape31 0x23 0x4 w (by decide) (by decide) hw
  rw [Decode.at23 h1]
  simp only [Decode.major23, h2, z0, Decode.clean, if_true]

theorem RoundTrip.npend : RoundTrip.Statement .npend := by
  intro _ _
  obtain ⟨w, hw⟩ : ∃ w, w = encode .npend := ⟨_, rfl⟩
  rw [← hw]
  obtain ⟨h1, h2, z0⟩ := Decode.shape31 0x23 0x5 w (by decide) (by decide) hw
  rw [Decode.at23 h1]
  simp only [Decode.major23, h2, z0, Decode.clean, if_true]

theorem RoundTrip.tret : RoundTrip.Statement .tret := by
  intro _ _
  obtain ⟨w, hw⟩ : ∃ w, w = encode .tret := ⟨_, rfl⟩
  rw [← hw]
  obtain ⟨h1, h2, z0⟩ := Decode.shape31 0x23 0x10 w (by decide) (by decide) hw
  rw [Decode.at23 h1]
  simp only [Decode.major23, h2, z0, Decode.clean, if_true]

theorem RoundTrip.tlbinvg : RoundTrip.Statement .tlbinvg := by
  intro _ _
  obtain ⟨w, hw⟩ : ∃ w, w = encode .tlbinvg := ⟨_, rfl⟩
  rw [← hw]
  obtain ⟨h1, h2, z0⟩ := Decode.shape31 0x23 0x15 w (by decide) (by decide) hw
  rw [Decode.at23 h1]
  simp only [Decode.major23, h2, z0, Decode.clean, if_true]

theorem RoundTrip.embage : RoundTrip.Statement .embage := by
  intro _ _
  obtain ⟨w, hw⟩ : ∃ w, w = encode .embage := ⟨_, rfl⟩
  rw [← hw]
  obtain ⟨h1, h2, z0⟩ := Decode.shape31 0x23 0x17 w (by decide) (by decide) hw
  rw [Decode.at23 h1]
  simp only [Decode.major23, h2, z0, Decode.clean, if_true]

theorem RoundTrip.vjoin : RoundTrip.Statement .vjoin := by
  intro _ _
  obtain ⟨w, hw⟩ : ∃ w, w = encode .vjoin := ⟨_, rfl⟩
  rw [← hw]
  obtain ⟨h1, h2, z0⟩ := Decode.shape32 0x2e 0x1 w (by decide) (by decide) hw
  rw [Decode.at2E h1]
  simp only [Decode.major2E, h2, z0, Decode.clean, if_true]

theorem RoundTrip.vpend : RoundTrip.Statement .vpend := by
  intro _ _
  obtain ⟨w, hw⟩ : ∃ w, w = encode .vpend := ⟨_, rfl⟩
  rw [← hw]
  obtain ⟨h1, h2, z0⟩ := Decode.shape32 0x2e 0x3 w (by decide) (by decide) hw
  rw [Decode.at2E h1]
  simp only [Decode.major2E, h2, z0, Decode.clean, if_true]

theorem RoundTrip.bar : RoundTrip.Statement .bar := by
  intro _ _
  obtain ⟨w, hw⟩ : ∃ w, w = encode .bar := ⟨_, rfl⟩
  rw [← hw]
  obtain ⟨h1, h2, z0, z1⟩ := Decode.shape33 0x35 0x8 w (by decide) (by decide) hw
  rw [Decode.at35 h1]
  simp only [Decode.major35, h2, z0, z1, Decode.clean, if_true, Nat.add_zero]

theorem RoundTrip.sknot : RoundTrip.Statement .sknot := by
  intro _ _
  obtain ⟨w, hw⟩ : ∃ w, w = encode .sknot := ⟨_, rfl⟩
  rw [← hw]
  obtain ⟨h1, h2, z0⟩ := Decode.shape32 0x37 0x0 w (by decide) (by decide) hw
  rw [Decode.at37 h1]
  simp only [Decode.major37, h2, z0, Decode.clean, if_true]

theorem RoundTrip.waitevReread : RoundTrip.Statement .waitevReread := fun _ h => Bool.noConfusion h

theorem RoundTrip.ownFlipComplete : RoundTrip.Statement .ownFlipComplete := fun _ h => Bool.noConfusion h

theorem RoundTrip.bgetServe : RoundTrip.Statement .bgetServe := fun _ h => Bool.noConfusion h

theorem RoundTrip.cwaitReread : RoundTrip.Statement .cwaitReread := fun _ h => Bool.noConfusion h

theorem RoundTrip.asyncEventEntry : RoundTrip.Statement .asyncEventEntry := fun _ h => Bool.noConfusion h

theorem RoundTrip.preemptionRequest : RoundTrip.Statement .preemptionRequest := fun _ h => Bool.noConfusion h

theorem RoundTrip.npRegionOverrun : RoundTrip.Statement .npRegionOverrun := fun _ h => Bool.noConfusion h

theorem RoundTrip.windowEntryStarvation : RoundTrip.Statement .windowEntryStarvation := fun _ h => Bool.noConfusion h

theorem RoundTrip.doorbell : RoundTrip.Statement .doorbell := fun _ h => Bool.noConfusion h

theorem RoundTrip.dependenceMet : RoundTrip.Statement .dependenceMet := fun _ h => Bool.noConfusion h

theorem RoundTrip.priorityAging : RoundTrip.Statement .priorityAging := fun _ h => Bool.noConfusion h

theorem RoundTrip.serveQueue : RoundTrip.Statement .serveQueue := fun _ h => Bool.noConfusion h

theorem RoundTrip.gangEnd : RoundTrip.Statement .gangEnd := fun _ h => Bool.noConfusion h

theorem RoundTrip.damperWindowEnd : RoundTrip.Statement .damperWindowEnd := fun _ h => Bool.noConfusion h

theorem RoundTrip.migrationLapse : RoundTrip.Statement .migrationLapse := fun _ h => Bool.noConfusion h

theorem RoundTrip.gangResume : RoundTrip.Statement .gangResume := fun _ h => Bool.noConfusion h

theorem RoundTrip.gangReadmission : RoundTrip.Statement .gangReadmission := fun _ h => Bool.noConfusion h

theorem RoundTrip.ptsTick : RoundTrip.Statement .ptsTick := fun _ h => Bool.noConfusion h

theorem RoundTrip.htsTick : RoundTrip.Statement .htsTick := fun _ h => Bool.noConfusion h

theorem RoundTrip.homeExpireSweep : RoundTrip.Statement .homeExpireSweep := fun _ h => Bool.noConfusion h

theorem RoundTrip.l1LeaseDrop : RoundTrip.Statement .l1LeaseDrop := fun _ h => Bool.noConfusion h

theorem RoundTrip.rangeRequestRetry : RoundTrip.Statement .rangeRequestRetry := fun _ h => Bool.noConfusion h

theorem RoundTrip.reservationServe : RoundTrip.Statement .reservationServe := fun _ h => Bool.noConfusion h

theorem RoundTrip.l1Eviction : RoundTrip.Statement .l1Eviction := fun _ h => Bool.noConfusion h

theorem RoundTrip.hostOwnershipTake : RoundTrip.Statement .hostOwnershipTake := fun _ h => Bool.noConfusion h

theorem RoundTrip.hostStore : RoundTrip.Statement .hostStore := fun _ h => Bool.noConfusion h

theorem RoundTrip.compressedBlockRetry : RoundTrip.Statement .compressedBlockRetry := fun _ h => Bool.noConfusion h

theorem RoundTrip.remoteRequest : RoundTrip.Statement .remoteRequest := fun _ h => Bool.noConfusion h

theorem RoundTrip.engineOpFire : RoundTrip.Statement .engineOpFire := fun _ h => Bool.noConfusion h

theorem RoundTrip.flueCopy : RoundTrip.Statement .flueCopy := fun _ h => Bool.noConfusion h

theorem RoundTrip.faultRecordWrite : RoundTrip.Statement .faultRecordWrite := fun _ h => Bool.noConfusion h

theorem RoundTrip.engineCompletionAdd : RoundTrip.Statement .engineCompletionAdd := fun _ h => Bool.noConfusion h

theorem RoundTrip.engineReplay : RoundTrip.Statement .engineReplay := fun _ h => Bool.noConfusion h

theorem RoundTrip.engineAbort : RoundTrip.Statement .engineAbort := fun _ h => Bool.noConfusion h

theorem RoundTrip.engineSuspend : RoundTrip.Statement .engineSuspend := fun _ h => Bool.noConfusion h

theorem RoundTrip.walk : RoundTrip.Statement .walk := fun _ h => Bool.noConfusion h

theorem RoundTrip.append : RoundTrip.Statement .append := fun _ h => Bool.noConfusion h

theorem RoundTrip.treeRefit : RoundTrip.Statement .treeRefit := fun _ h => Bool.noConfusion h

theorem RoundTrip.collectiveOperation : RoundTrip.Statement .collectiveOperation := fun _ h => Bool.noConfusion h

theorem RoundTrip.biasFlipToHost : RoundTrip.Statement .biasFlipToHost := fun _ h => Bool.noConfusion h

theorem RoundTrip.biasFlipToDevice : RoundTrip.Statement .biasFlipToDevice := fun _ h => Bool.noConfusion h

theorem RoundTrip.linkCrcFail : RoundTrip.Statement .linkCrcFail := fun _ h => Bool.noConfusion h

theorem RoundTrip.linkRetrain : RoundTrip.Statement .linkRetrain := fun _ h => Bool.noConfusion h

theorem RoundTrip.devstatWrite : RoundTrip.Statement .devstatWrite := fun _ h => Bool.noConfusion h

theorem RoundTrip.embctlWrite : RoundTrip.Statement .embctlWrite := fun _ h => Bool.noConfusion h

theorem RoundTrip.registerWrite : RoundTrip.Statement .registerWrite := fun _ h => Bool.noConfusion h

theorem RoundTrip.deviceReset : RoundTrip.Statement .deviceReset := fun _ h => Bool.noConfusion h

theorem RoundTrip.attestationRequest : RoundTrip.Statement .attestationRequest := fun _ h => Bool.noConfusion h

theorem RoundTrip.attestationReport : RoundTrip.Statement .attestationReport := fun _ h => Bool.noConfusion h

theorem RoundTrip.d3hotRequest : RoundTrip.Statement .d3hotRequest := fun _ h => Bool.noConfusion h

theorem RoundTrip.d3hotEntry : RoundTrip.Statement .d3hotEntry := fun _ h => Bool.noConfusion h

theorem RoundTrip.inletTemperatureChange : RoundTrip.Statement .inletTemperatureChange := fun _ h => Bool.noConfusion h

theorem RoundTrip.coolantFlowChange : RoundTrip.Statement .coolantFlowChange := fun _ h => Bool.noConfusion h

theorem RoundTrip.lowFlowTimeout : RoundTrip.Statement .lowFlowTimeout := fun _ h => Bool.noConfusion h

theorem RoundTrip.unassignedInstructionWord : RoundTrip.Statement .unassignedInstructionWord := fun _ h => Bool.noConfusion h

theorem RoundTrip.instructionFetchFault : RoundTrip.Statement .instructionFetchFault := fun _ h => Bool.noConfusion h

theorem RoundTrip.softError : RoundTrip.Statement .softError := fun _ h => Bool.noConfusion h

theorem RoundTrip.keySlotLoad : RoundTrip.Statement .keySlotLoad := fun _ h => Bool.noConfusion h

theorem RoundTrip.dynamicCapacityExtentChange : RoundTrip.Statement .dynamicCapacityExtentChange := fun _ h => Bool.noConfusion h

theorem RoundTrip.d3coldEntry : RoundTrip.Statement .d3coldEntry := fun _ h => Bool.noConfusion h

end Sys2Proof.Laws
end

