-- ==== Sys2Proof/Laws/Classes.lean ====
section
/-! SUPPORT. The class of every word (spec 03 R34, R41), from its encoding. -/

set_option Elab.async false

namespace Sys2Proof.Machine

open Sys2Proof

theorem WordClass.assigned_true (c : WordClass) {b : Bool} (h : b = true) : c.assigned b = c := if_pos h

/-! ## The arm of each major -/

theorem wordClass_at01 {w : Nat} (h : Decode.raw w 26 6 = 0x1) : wordClass w = .S := by
  unfold wordClass
  rw [show w / 2 ^ 26 % 64 = 0x1 from h]
  rfl

theorem wordClass_at02 {w : Nat} (h : Decode.raw w 26 6 = 0x2) : wordClass w = .S := by
  unfold wordClass
  rw [show w / 2 ^ 26 % 64 = 0x2 from h]
  rfl

theorem wordClass_at03 {w : Nat} (h : Decode.raw w 26 6 = 0x3) : wordClass w = .S := by
  unfold wordClass
  rw [show w / 2 ^ 26 % 64 = 0x3 from h]
  rfl

theorem wordClass_at04 {w : Nat} (h : Decode.raw w 26 6 = 0x4) : wordClass w = .S := by
  unfold wordClass
  rw [show w / 2 ^ 26 % 64 = 0x4 from h]
  rfl

theorem wordClass_at05 {w : Nat} (h : Decode.raw w 26 6 = 0x5) : wordClass w = .S := by
  unfold wordClass
  rw [show w / 2 ^ 26 % 64 = 0x5 from h]
  rfl

theorem wordClass_at06 {w : Nat} (h : Decode.raw w 26 6 = 0x6) : wordClass w = .S := by
  unfold wordClass
  rw [show w / 2 ^ 26 % 64 = 0x6 from h]
  rfl

theorem wordClass_at07 {w : Nat} (h : Decode.raw w 26 6 = 0x7) : wordClass w = .S := by
  unfold wordClass
  rw [show w / 2 ^ 26 % 64 = 0x7 from h]
  rfl

theorem wordClass_at08 {w : Nat} (h : Decode.raw w 26 6 = 0x8) : wordClass w = .S := by
  unfold wordClass
  rw [show w / 2 ^ 26 % 64 = 0x8 from h]
  rfl

theorem wordClass_at09 {w : Nat} (h : Decode.raw w 26 6 = 0x9) : wordClass w = .S := by
  unfold wordClass
  rw [show w / 2 ^ 26 % 64 = 0x9 from h]
  rfl

theorem wordClass_at0A {w : Nat} (h : Decode.raw w 26 6 = 0xa) : wordClass w = .S := by
  unfold wordClass
  rw [show w / 2 ^ 26 % 64 = 0xa from h]
  rfl

theorem wordClass_at0C {w : Nat} (h : Decode.raw w 26 6 = 0xc) : wordClass w = .X := by
  unfold wordClass
  rw [show w / 2 ^ 26 % 64 = 0xc from h]
  rfl

theorem wordClass_at0D {w : Nat} (h : Decode.raw w 26 6 = 0xd) : wordClass w = .X := by
  unfold wordClass
  rw [show w / 2 ^ 26 % 64 = 0xd from h]
  rfl

theorem wordClass_at0E {w : Nat} (h : Decode.raw w 26 6 = 0xe) : wordClass w = .X := by
  unfold wordClass
  rw [show w / 2 ^ 26 % 64 = 0xe from h]
  rfl

theorem wordClass_at0F {w : Nat} (h : Decode.raw w 26 6 = 0xf) : wordClass w = .X := by
  unfold wordClass
  rw [show w / 2 ^ 26 % 64 = 0xf from h]
  rfl

theorem wordClass_at10 {w : Nat} (h : Decode.raw w 26 6 = 0x10) : wordClass w = .X := by
  unfold wordClass
  rw [show w / 2 ^ 26 % 64 = 0x10 from h]
  rfl

theorem wordClass_at11 {w : Nat} (h : Decode.raw w 26 6 = 0x11) : wordClass w = .X := by
  unfold wordClass
  rw [show w / 2 ^ 26 % 64 = 0x11 from h]
  rfl

theorem wordClass_at12 {w : Nat} (h : Decode.raw w 26 6 = 0x12) : wordClass w = .X := by
  unfold wordClass
  rw [show w / 2 ^ 26 % 64 = 0x12 from h]
  rfl

theorem wordClass_at13 {w : Nat} (h : Decode.raw w 26 6 = 0x13) : wordClass w = .X := by
  unfold wordClass
  rw [show w / 2 ^ 26 % 64 = 0x13 from h]
  rfl

theorem wordClass_at14 {w : Nat} (h : Decode.raw w 26 6 = 0x14) : wordClass w = .S := by
  unfold wordClass
  rw [show w / 2 ^ 26 % 64 = 0x14 from h]
  rfl

theorem wordClass_at15 {w : Nat} (h : Decode.raw w 26 6 = 0x15) : wordClass w = .S := by
  unfold wordClass
  rw [show w / 2 ^ 26 % 64 = 0x15 from h]
  rfl

theorem wordClass_at16 {w : Nat} (h : Decode.raw w 26 6 = 0x16) : wordClass w = .S := by
  unfold wordClass
  rw [show w / 2 ^ 26 % 64 = 0x16 from h]
  rfl

theorem wordClass_at17 {w : Nat} (h : Decode.raw w 26 6 = 0x17) : wordClass w = .S := by
  unfold wordClass
  rw [show w / 2 ^ 26 % 64 = 0x17 from h]
  rfl

theorem wordClass_at18 {w : Nat} (h : Decode.raw w 26 6 = 0x18) : wordClass w = .S := by
  unfold wordClass
  rw [show w / 2 ^ 26 % 64 = 0x18 from h]
  rfl

theorem wordClass_at19 {w : Nat} (h : Decode.raw w 26 6 = 0x19) : wordClass w = .S := by
  unfold wordClass
  rw [show w / 2 ^ 26 % 64 = 0x19 from h]
  rfl

theorem wordClass_at1A {w : Nat} (h : Decode.raw w 26 6 = 0x1a) : wordClass w = .S := by
  unfold wordClass
  rw [show w / 2 ^ 26 % 64 = 0x1a from h]
  rfl

theorem wordClass_at1B {w : Nat} (h : Decode.raw w 26 6 = 0x1b) : wordClass w = .S := by
  unfold wordClass
  rw [show w / 2 ^ 26 % 64 = 0x1b from h]
  rfl

theorem wordClass_at1C {w : Nat} (h : Decode.raw w 26 6 = 0x1c) : wordClass w = .S := by
  unfold wordClass
  rw [show w / 2 ^ 26 % 64 = 0x1c from h]
  rfl

theorem wordClass_at1D {w : Nat} (h : Decode.raw w 26 6 = 0x1d) : wordClass w = .S := by
  unfold wordClass
  rw [show w / 2 ^ 26 % 64 = 0x1d from h]
  rfl

theorem wordClass_at1E {w : Nat} (h : Decode.raw w 26 6 = 0x1e) : wordClass w = .S := by
  unfold wordClass
  rw [show w / 2 ^ 26 % 64 = 0x1e from h]
  rfl

theorem wordClass_at1F {w : Nat} (h : Decode.raw w 26 6 = 0x1f) : wordClass w = .S := by
  unfold wordClass
  rw [show w / 2 ^ 26 % 64 = 0x1f from h]
  rfl

theorem wordClass_at20 {w : Nat} (h : Decode.raw w 26 6 = 0x20) : wordClass w = .S := by
  unfold wordClass
  rw [show w / 2 ^ 26 % 64 = 0x20 from h]
  rfl

theorem wordClass_at21 {w : Nat} (h : Decode.raw w 26 6 = 0x21) : wordClass w = .X := by
  unfold wordClass
  rw [show w / 2 ^ 26 % 64 = 0x21 from h]
  rfl

theorem wordClass_at22 {w : Nat} (h : Decode.raw w 26 6 = 0x22) : wordClass w = .X := by
  unfold wordClass
  rw [show w / 2 ^ 26 % 64 = 0x22 from h]
  rfl

theorem wordClass_at23 {w : Nat} (h : Decode.raw w 26 6 = 0x23) : wordClass w = WordClass.assigned .X (decide ((w % 256) ≤ 5 ∨ (0x10 ≤ (w % 256) ∧ (w % 256) ≤ 0x18))) := by
  unfold wordClass
  rw [show w / 2 ^ 26 % 64 = 0x23 from h]
  rfl

theorem wordClass_at24 {w : Nat} (h : Decode.raw w 26 6 = 0x24) : wordClass w = WordClass.assigned .X (decide ((w % 256) ≤ 2 ∨ (0x10 ≤ (w % 256) ∧ (w % 256) ≤ 0x14))) := by
  unfold wordClass
  rw [show w / 2 ^ 26 % 64 = 0x24 from h]
  rfl

theorem wordClass_at25 {w : Nat} (h : Decode.raw w 26 6 = 0x25) : wordClass w = WordClass.assigned .Ar (decide ((w % 2048) ≤ 0x13)) := by
  unfold wordClass
  rw [show w / 2 ^ 26 % 64 = 0x25 from h]
  rfl

theorem wordClass_at26 {w : Nat} (h : Decode.raw w 26 6 = 0x26) : wordClass w = WordClass.assigned .Ar (decide ((w % 2048) ≤ 0x0A)) := by
  unfold wordClass
  rw [show w / 2 ^ 26 % 64 = 0x26 from h]
  rfl

theorem wordClass_at27 {w : Nat} (h : Decode.raw w 26 6 = 0x27) : wordClass w = WordClass.assigned .Sp (decide ((w % 2048) ≤ 3)) := by
  unfold wordClass
  rw [show w / 2 ^ 26 % 64 = 0x27 from h]
  rfl

theorem wordClass_at28 {w : Nat} (h : Decode.raw w 26 6 = 0x28) : wordClass w = WordClass.assigned .Ar (decide ((w % 2048) ≤ 6)) := by
  unfold wordClass
  rw [show w / 2 ^ 26 % 64 = 0x28 from h]
  rfl

theorem wordClass_at29 {w : Nat} (h : Decode.raw w 26 6 = 0x29) : wordClass w = WordClass.assigned .Mk (decide ((w % 2048) ≤ 6)) := by
  unfold wordClass
  rw [show w / 2 ^ 26 % 64 = 0x29 from h]
  rfl

theorem wordClass_at2A {w : Nat} (h : Decode.raw w 26 6 = 0x2a) : wordClass w = .Ar := by
  unfold wordClass
  rw [show w / 2 ^ 26 % 64 = 0x2a from h]
  rfl

theorem wordClass_at2B {w : Nat} (h : Decode.raw w 26 6 = 0x2b) : wordClass w = WordClass.assigned .Sl (decide ((w % 2048) ≤ 5)) := by
  unfold wordClass
  rw [show w / 2 ^ 26 % 64 = 0x2b from h]
  rfl

theorem wordClass_at2C {w : Nat} (h : Decode.raw w 26 6 = 0x2c) : wordClass w = WordClass.assigned .Sl (decide ((w % 2048) ≤ 2)) := by
  unfold wordClass
  rw [show w / 2 ^ 26 % 64 = 0x2c from h]
  rfl

theorem wordClass_at2D {w : Nat} (h : Decode.raw w 26 6 = 0x2d) : wordClass w = if (w % 1024) ≤ 2 then .Sl else WordClass.assigned .Ar (decide (0x10 ≤ (w % 1024) ∧ (w % 1024) ≤ 0x12)) := by
  unfold wordClass
  rw [show w / 2 ^ 26 % 64 = 0x2d from h]
  rfl

theorem wordClass_at2E {w : Nat} (h : Decode.raw w 26 6 = 0x2e) : wordClass w = WordClass.assigned .X (decide ((w % 1024) ≤ 3)) := by
  unfold wordClass
  rw [show w / 2 ^ 26 % 64 = 0x2e from h]
  rfl

theorem wordClass_at2F {w : Nat} (h : Decode.raw w 26 6 = 0x2f) : wordClass w = if (w % 64) ≤ 1 then .Ld else WordClass.assigned .St (decide ((w % 64) ≤ 3)) := by
  unfold wordClass
  rw [show w / 2 ^ 26 % 64 = 0x2f from h]
  rfl

theorem wordClass_at30 {w : Nat} (h : Decode.raw w 26 6 = 0x30) : wordClass w = if (w % 64) = 0 then .Ld else WordClass.assigned .St (decide ((w % 64) = 1)) := by
  unfold wordClass
  rw [show w / 2 ^ 26 % 64 = 0x30 from h]
  rfl

theorem wordClass_at31 {w : Nat} (h : Decode.raw w 26 6 = 0x31) : wordClass w = if (w % 1024) = 0 then .Ld else WordClass.assigned .St (decide ((w % 1024) ≤ 2)) := by
  unfold wordClass
  rw [show w / 2 ^ 26 % 64 = 0x31 from h]
  rfl

theorem wordClass_at32 {w : Nat} (h : Decode.raw w 26 6 = 0x32) : wordClass w = if (w % 64) = 1 then .St else WordClass.assigned .Ld (decide ((w % 64) ≤ 2)) := by
  unfold wordClass
  rw [show w / 2 ^ 26 % 64 = 0x32 from h]
  rfl

theorem wordClass_at33 {w : Nat} (h : Decode.raw w 26 6 = 0x33) : wordClass w = .X := by
  unfold wordClass
  rw [show w / 2 ^ 26 % 64 = 0x33 from h]
  rfl

theorem wordClass_at34 {w : Nat} (h : Decode.raw w 26 6 = 0x34) : wordClass w = .X := by
  unfold wordClass
  rw [show w / 2 ^ 26 % 64 = 0x34 from h]
  rfl

theorem wordClass_at35 {w : Nat} (h : Decode.raw w 26 6 = 0x35) : wordClass w = WordClass.assigned .X (decide ((w % 256) / 8 ≤ 9)) := by
  unfold wordClass
  rw [show w / 2 ^ 26 % 64 = 0x35 from h]
  rfl

theorem wordClass_at36 {w : Nat} (h : Decode.raw w 26 6 = 0x36) : wordClass w = WordClass.assigned .Mx (decide ((w % 1024) ≤ 3)) := by
  unfold wordClass
  rw [show w / 2 ^ 26 % 64 = 0x36 from h]
  rfl

theorem wordClass_at37 {w : Nat} (h : Decode.raw w 26 6 = 0x37) : wordClass w = WordClass.assigned .Mx (decide ((w % 1024) ≤ 5)) := by
  unfold wordClass
  rw [show w / 2 ^ 26 % 64 = 0x37 from h]
  rfl

theorem wordClass_at38 {w : Nat} (h : Decode.raw w 26 6 = 0x38) : wordClass w = WordClass.assigned .Tf (decide ((w % 1024) ≤ 1)) := by
  unfold wordClass
  rw [show w / 2 ^ 26 % 64 = 0x38 from h]
  rfl

theorem wordClass_at39 {w : Nat} (h : Decode.raw w 26 6 = 0x39) : wordClass w = WordClass.assigned .X (decide ((w % 256) ≤ 4)) := by
  unfold wordClass
  rw [show w / 2 ^ 26 % 64 = 0x39 from h]
  rfl

theorem wordClass_at3A {w : Nat} (h : Decode.raw w 26 6 = 0x3a) : wordClass w = WordClass.assigned .X (decide ((w % 256) ≤ 2 ∨ (w % 256) = 8 ∨ (w % 256) = 9)) := by
  unfold wordClass
  rw [show w / 2 ^ 26 % 64 = 0x3a from h]
  rfl

theorem wordClass_at3B {w : Nat} (h : Decode.raw w 26 6 = 0x3b) : wordClass w = WordClass.assigned .X (decide ((w % 256) ≤ 4)) := by
  unfold wordClass
  rw [show w / 2 ^ 26 % 64 = 0x3b from h]
  rfl

theorem wordClass_at3C {w : Nat} (h : Decode.raw w 26 6 = 0x3c) : wordClass w = WordClass.assigned .X (decide ((w % 256) = 0 ∨ (w % 256) = 8)) := by
  unfold wordClass
  rw [show w / 2 ^ 26 % 64 = 0x3c from h]
  rfl

theorem wordClass_at3E {w : Nat} (h : Decode.raw w 26 6 = 0x3e) : wordClass w = .G := by
  unfold wordClass
  rw [show w / 2 ^ 26 % 64 = 0x3e from h]
  rfl

theorem wordClass_at3F {w : Nat} (h : Decode.raw w 26 6 = 0x3f) : wordClass w = .P := by
  unfold wordClass
  rw [show w / 2 ^ 26 % 64 = 0x3f from h]
  rfl

/-! ## The class of each constructor -/

theorem instrClass_add (d : BitVec 6) (a : BitVec 6) (b : BitVec 6) : instrClass (.add d a b) = .S := by
  obtain ⟨w, hw⟩ : ∃ w, w = encode (.add d a b) := ⟨_, rfl⟩
  rw [instrClass, ← hw, wordClass_at01 (Decode.shape0 0x1 0x0 w d a b (by decide) (by decide) hw).1]

theorem instrClass_sub (d : BitVec 6) (a : BitVec 6) (b : BitVec 6) : instrClass (.sub d a b) = .S := by
  obtain ⟨w, hw⟩ : ∃ w, w = encode (.sub d a b) := ⟨_, rfl⟩
  rw [instrClass, ← hw, wordClass_at01 (Decode.shape0 0x1 0x1 w d a b (by decide) (by decide) hw).1]

theorem instrClass_and (d : BitVec 6) (a : BitVec 6) (b : BitVec 6) : instrClass (.and d a b) = .S := by
  obtain ⟨w, hw⟩ : ∃ w, w = encode (.and d a b) := ⟨_, rfl⟩
  rw [instrClass, ← hw, wordClass_at01 (Decode.shape0 0x1 0x2 w d a b (by decide) (by decide) hw).1]

theorem instrClass_or (d : BitVec 6) (a : BitVec 6) (b : BitVec 6) : instrClass (.or d a b) = .S := by
  obtain ⟨w, hw⟩ : ∃ w, w = encode (.or d a b) := ⟨_, rfl⟩
  rw [instrClass, ← hw, wordClass_at01 (Decode.shape0 0x1 0x3 w d a b (by decide) (by decide) hw).1]

theorem instrClass_xor (d : BitVec 6) (a : BitVec 6) (b : BitVec 6) : instrClass (.xor d a b) = .S := by
  obtain ⟨w, hw⟩ : ∃ w, w = encode (.xor d a b) := ⟨_, rfl⟩
  rw [instrClass, ← hw, wordClass_at01 (Decode.shape0 0x1 0x4 w d a b (by decide) (by decide) hw).1]

theorem instrClass_andn (d : BitVec 6) (a : BitVec 6) (b : BitVec 6) : instrClass (.andn d a b) = .S := by
  obtain ⟨w, hw⟩ : ∃ w, w = encode (.andn d a b) := ⟨_, rfl⟩
  rw [instrClass, ← hw, wordClass_at01 (Decode.shape0 0x1 0x5 w d a b (by decide) (by decide) hw).1]

theorem instrClass_sll (d : BitVec 6) (a : BitVec 6) (b : BitVec 6) : instrClass (.sll d a b) = .S := by
  obtain ⟨w, hw⟩ : ∃ w, w = encode (.sll d a b) := ⟨_, rfl⟩
  rw [instrClass, ← hw, wordClass_at01 (Decode.shape0 0x1 0x6 w d a b (by decide) (by decide) hw).1]

theorem instrClass_srl (d : BitVec 6) (a : BitVec 6) (b : BitVec 6) : instrClass (.srl d a b) = .S := by
  obtain ⟨w, hw⟩ : ∃ w, w = encode (.srl d a b) := ⟨_, rfl⟩
  rw [instrClass, ← hw, wordClass_at01 (Decode.shape0 0x1 0x7 w d a b (by decide) (by decide) hw).1]

theorem instrClass_sra (d : BitVec 6) (a : BitVec 6) (b : BitVec 6) : instrClass (.sra d a b) = .S := by
  obtain ⟨w, hw⟩ : ∃ w, w = encode (.sra d a b) := ⟨_, rfl⟩
  rw [instrClass, ← hw, wordClass_at01 (Decode.shape0 0x1 0x8 w d a b (by decide) (by decide) hw).1]

theorem instrClass_mul (d : BitVec 6) (a : BitVec 6) (b : BitVec 6) : instrClass (.mul d a b) = .S := by
  obtain ⟨w, hw⟩ : ∃ w, w = encode (.mul d a b) := ⟨_, rfl⟩
  rw [instrClass, ← hw, wordClass_at01 (Decode.shape0 0x1 0x10 w d a b (by decide) (by decide) hw).1]

theorem instrClass_mulh (d : BitVec 6) (a : BitVec 6) (b : BitVec 6) : instrClass (.mulh d a b) = .S := by
  obtain ⟨w, hw⟩ : ∃ w, w = encode (.mulh d a b) := ⟨_, rfl⟩
  rw [instrClass, ← hw, wordClass_at01 (Decode.shape0 0x1 0x11 w d a b (by decide) (by decide) hw).1]

theorem instrClass_mulhu (d : BitVec 6) (a : BitVec 6) (b : BitVec 6) : instrClass (.mulhu d a b) = .S := by
  obtain ⟨w, hw⟩ : ∃ w, w = encode (.mulhu d a b) := ⟨_, rfl⟩
  rw [instrClass, ← hw, wordClass_at01 (Decode.shape0 0x1 0x12 w d a b (by decide) (by decide) hw).1]

theorem instrClass_div (d : BitVec 6) (a : BitVec 6) (b : BitVec 6) : instrClass (.div d a b) = .S := by
  obtain ⟨w, hw⟩ : ∃ w, w = encode (.div d a b) := ⟨_, rfl⟩
  rw [instrClass, ← hw, wordClass_at01 (Decode.shape0 0x1 0x13 w d a b (by decide) (by decide) hw).1]

theorem instrClass_divu (d : BitVec 6) (a : BitVec 6) (b : BitVec 6) : instrClass (.divu d a b) = .S := by
  obtain ⟨w, hw⟩ : ∃ w, w = encode (.divu d a b) := ⟨_, rfl⟩
  rw [instrClass, ← hw, wordClass_at01 (Decode.shape0 0x1 0x14 w d a b (by decide) (by decide) hw).1]

theorem instrClass_rem (d : BitVec 6) (a : BitVec 6) (b : BitVec 6) : instrClass (.rem d a b) = .S := by
  obtain ⟨w, hw⟩ : ∃ w, w = encode (.rem d a b) := ⟨_, rfl⟩
  rw [instrClass, ← hw, wordClass_at01 (Decode.shape0 0x1 0x15 w d a b (by decide) (by decide) hw).1]

theorem instrClass_remu (d : BitVec 6) (a : BitVec 6) (b : BitVec 6) : instrClass (.remu d a b) = .S := by
  obtain ⟨w, hw⟩ : ∃ w, w = encode (.remu d a b) := ⟨_, rfl⟩
  rw [instrClass, ← hw, wordClass_at01 (Decode.shape0 0x1 0x16 w d a b (by decide) (by decide) hw).1]

theorem instrClass_min (d : BitVec 6) (a : BitVec 6) (b : BitVec 6) : instrClass (.min d a b) = .S := by
  obtain ⟨w, hw⟩ : ∃ w, w = encode (.min d a b) := ⟨_, rfl⟩
  rw [instrClass, ← hw, wordClass_at01 (Decode.shape0 0x1 0x18 w d a b (by decide) (by decide) hw).1]

theorem instrClass_max (d : BitVec 6) (a : BitVec 6) (b : BitVec 6) : instrClass (.max d a b) = .S := by
  obtain ⟨w, hw⟩ : ∃ w, w = encode (.max d a b) := ⟨_, rfl⟩
  rw [instrClass, ← hw, wordClass_at01 (Decode.shape0 0x1 0x19 w d a b (by decide) (by decide) hw).1]

theorem instrClass_minu (d : BitVec 6) (a : BitVec 6) (b : BitVec 6) : instrClass (.minu d a b) = .S := by
  obtain ⟨w, hw⟩ : ∃ w, w = encode (.minu d a b) := ⟨_, rfl⟩
  rw [instrClass, ← hw, wordClass_at01 (Decode.shape0 0x1 0x1a w d a b (by decide) (by decide) hw).1]

theorem instrClass_maxu (d : BitVec 6) (a : BitVec 6) (b : BitVec 6) : instrClass (.maxu d a b) = .S := by
  obtain ⟨w, hw⟩ : ∃ w, w = encode (.maxu d a b) := ⟨_, rfl⟩
  rw [instrClass, ← hw, wordClass_at01 (Decode.shape0 0x1 0x1b w d a b (by decide) (by decide) hw).1]

theorem instrClass_clz (d : BitVec 6) (a : BitVec 6) : instrClass (.clz d a) = .S := by
  obtain ⟨w, hw⟩ : ∃ w, w = encode (.clz d a) := ⟨_, rfl⟩
  rw [instrClass, ← hw, wordClass_at01 (Decode.shape1 0x1 0x20 w d a (by decide) (by decide) hw).1]

theorem instrClass_ctz (d : BitVec 6) (a : BitVec 6) : instrClass (.ctz d a) = .S := by
  obtain ⟨w, hw⟩ : ∃ w, w = encode (.ctz d a) := ⟨_, rfl⟩
  rw [instrClass, ← hw, wordClass_at01 (Decode.shape1 0x1 0x21 w d a (by decide) (by decide) hw).1]

theorem instrClass_popc (d : BitVec 6) (a : BitVec 6) : instrClass (.popc d a) = .S := by
  obtain ⟨w, hw⟩ : ∃ w, w = encode (.popc d a) := ⟨_, rfl⟩
  rw [instrClass, ← hw, wordClass_at01 (Decode.shape1 0x1 0x22 w d a (by decide) (by decide) hw).1]

theorem instrClass_seq (d : BitVec 6) (a : BitVec 6) (b : BitVec 6) : instrClass (.seq d a b) = .S := by
  obtain ⟨w, hw⟩ : ∃ w, w = encode (.seq d a b) := ⟨_, rfl⟩
  rw [instrClass, ← hw, wordClass_at01 (Decode.shape0 0x1 0x28 w d a b (by decide) (by decide) hw).1]

theorem instrClass_slt (d : BitVec 6) (a : BitVec 6) (b : BitVec 6) : instrClass (.slt d a b) = .S := by
  obtain ⟨w, hw⟩ : ∃ w, w = encode (.slt d a b) := ⟨_, rfl⟩
  rw [instrClass, ← hw, wordClass_at01 (Decode.shape0 0x1 0x29 w d a b (by decide) (by decide) hw).1]

theorem instrClass_sltu (d : BitVec 6) (a : BitVec 6) (b : BitVec 6) : instrClass (.sltu d a b) = .S := by
  obtain ⟨w, hw⟩ : ∃ w, w = encode (.sltu d a b) := ⟨_, rfl⟩
  rw [instrClass, ← hw, wordClass_at01 (Decode.shape0 0x1 0x2a w d a b (by decide) (by decide) hw).1]

theorem instrClass_addi (d : BitVec 6) (a : BitVec 6) (i : BitVec 14) : instrClass (.addi d a i) = .S := by
  obtain ⟨w, hw⟩ : ∃ w, w = encode (.addi d a i) := ⟨_, rfl⟩
  rw [instrClass, ← hw, wordClass_at02 (Decode.shape2 0x2 w d a i (by decide) hw).1]

theorem instrClass_andi (d : BitVec 6) (a : BitVec 6) (i : BitVec 14) : instrClass (.andi d a i) = .S := by
  obtain ⟨w, hw⟩ : ∃ w, w = encode (.andi d a i) := ⟨_, rfl⟩
  rw [instrClass, ← hw, wordClass_at03 (Decode.shape2 0x3 w d a i (by decide) hw).1]

theorem instrClass_ori (d : BitVec 6) (a : BitVec 6) (i : BitVec 14) : instrClass (.ori d a i) = .S := by
  obtain ⟨w, hw⟩ : ∃ w, w = encode (.ori d a i) := ⟨_, rfl⟩
  rw [instrClass, ← hw, wordClass_at04 (Decode.shape2 0x4 w d a i (by decide) hw).1]

theorem instrClass_xori (d : BitVec 6) (a : BitVec 6) (i : BitVec 14) : instrClass (.xori d a i) = .S := by
  obtain ⟨w, hw⟩ : ∃ w, w = encode (.xori d a i) := ⟨_, rfl⟩
  rw [instrClass, ← hw, wordClass_at05 (Decode.shape2 0x5 w d a i (by decide) hw).1]

theorem instrClass_slti (d : BitVec 6) (a : BitVec 6) (i : BitVec 14) : instrClass (.slti d a i) = .S := by
  obtain ⟨w, hw⟩ : ∃ w, w = encode (.slti d a i) := ⟨_, rfl⟩
  rw [instrClass, ← hw, wordClass_at06 (Decode.shape2 0x6 w d a i (by decide) hw).1]

theorem instrClass_sltiu (d : BitVec 6) (a : BitVec 6) (i : BitVec 14) : instrClass (.sltiu d a i) = .S := by
  obtain ⟨w, hw⟩ : ∃ w, w = encode (.sltiu d a i) := ⟨_, rfl⟩
  rw [instrClass, ← hw, wordClass_at07 (Decode.shape2 0x7 w d a i (by decide) hw).1]

theorem instrClass_slli (d : BitVec 6) (a : BitVec 6) (n : BitVec 6) : instrClass (.slli d a n) = .S := by
  obtain ⟨w, hw⟩ : ∃ w, w = encode (.slli d a n) := ⟨_, rfl⟩
  rw [instrClass, ← hw, wordClass_at08 (Decode.shape0 0x8 0x0 w d a n (by decide) (by decide) hw).1]

theorem instrClass_srli (d : BitVec 6) (a : BitVec 6) (n : BitVec 6) : instrClass (.srli d a n) = .S := by
  obtain ⟨w, hw⟩ : ∃ w, w = encode (.srli d a n) := ⟨_, rfl⟩
  rw [instrClass, ← hw, wordClass_at08 (Decode.shape0 0x8 0x1 w d a n (by decide) (by decide) hw).1]

theorem instrClass_srai (d : BitVec 6) (a : BitVec 6) (n : BitVec 6) : instrClass (.srai d a n) = .S := by
  obtain ⟨w, hw⟩ : ∃ w, w = encode (.srai d a n) := ⟨_, rfl⟩
  rw [instrClass, ← hw, wordClass_at08 (Decode.shape0 0x8 0x2 w d a n (by decide) (by decide) hw).1]

theorem instrClass_immh (d : BitVec 6) (i : BitVec 20) : instrClass (.immh d i) = .S := by
  obtain ⟨w, hw⟩ : ∃ w, w = encode (.immh d i) := ⟨_, rfl⟩
  rw [instrClass, ← hw, wordClass_at09 (Decode.shape3 0x9 w d i (by decide) hw).1]

theorem instrClass_pcrel (d : BitVec 6) (i : BitVec 20) : instrClass (.pcrel d i) = .S := by
  obtain ⟨w, hw⟩ : ∃ w, w = encode (.pcrel d i) := ⟨_, rfl⟩
  rw [instrClass, ← hw, wordClass_at0A (Decode.shape3 0xa w d i (by decide) hw).1]

theorem instrClass_beq (a : BitVec 6) (b : BitVec 6) (o : BitVec 14) : instrClass (.beq a b o) = .X := by
  obtain ⟨w, hw⟩ : ∃ w, w = encode (.beq a b o) := ⟨_, rfl⟩
  rw [instrClass, ← hw, wordClass_at0C (Decode.shape2 0xc w a b o (by decide) hw).1]

theorem instrClass_bne (a : BitVec 6) (b : BitVec 6) (o : BitVec 14) : instrClass (.bne a b o) = .X := by
  obtain ⟨w, hw⟩ : ∃ w, w = encode (.bne a b o) := ⟨_, rfl⟩
  rw [instrClass, ← hw, wordClass_at0D (Decode.shape2 0xd w a b o (by decide) hw).1]

theorem instrClass_blt (a : BitVec 6) (b : BitVec 6) (o : BitVec 14) : instrClass (.blt a b o) = .X := by
  obtain ⟨w, hw⟩ : ∃ w, w = encode (.blt a b o) := ⟨_, rfl⟩
  rw [instrClass, ← hw, wordClass_at0E (Decode.shape2 0xe w a b o (by decide) hw).1]

theorem instrClass_bge (a : BitVec 6) (b : BitVec 6) (o : BitVec 14) : instrClass (.bge a b o) = .X := by
  obtain ⟨w, hw⟩ : ∃ w, w = encode (.bge a b o) := ⟨_, rfl⟩
  rw [instrClass, ← hw, wordClass_at0F (Decode.shape2 0xf w a b o (by decide) hw).1]

theorem instrClass_bltu (a : BitVec 6) (b : BitVec 6) (o : BitVec 14) : instrClass (.bltu a b o) = .X := by
  obtain ⟨w, hw⟩ : ∃ w, w = encode (.bltu a b o) := ⟨_, rfl⟩
  rw [instrClass, ← hw, wordClass_at10 (Decode.shape2 0x10 w a b o (by decide) hw).1]

theorem instrClass_bgeu (a : BitVec 6) (b : BitVec 6) (o : BitVec 14) : instrClass (.bgeu a b o) = .X := by
  obtain ⟨w, hw⟩ : ∃ w, w = encode (.bgeu a b o) := ⟨_, rfl⟩
  rw [instrClass, ← hw, wordClass_at11 (Decode.shape2 0x11 w a b o (by decide) hw).1]

theorem instrClass_jlk (d : BitVec 6) (o : BitVec 20) : instrClass (.jlk d o) = .X := by
  obtain ⟨w, hw⟩ : ∃ w, w = encode (.jlk d o) := ⟨_, rfl⟩
  rw [instrClass, ← hw, wordClass_at12 (Decode.shape3 0x12 w d o (by decide) hw).1]

theorem instrClass_jlkr (d : BitVec 6) (a : BitVec 6) (i : BitVec 14) : instrClass (.jlkr d a i) = .X := by
  obtain ⟨w, hw⟩ : ∃ w, w = encode (.jlkr d a i) := ⟨_, rfl⟩
  rw [instrClass, ← hw, wordClass_at13 (Decode.shape2 0x13 w d a i (by decide) hw).1]

theorem instrClass_lb (d : BitVec 6) (a : BitVec 6) (i : BitVec 14) : instrClass (.lb d a i) = .S := by
  obtain ⟨w, hw⟩ : ∃ w, w = encode (.lb d a i) := ⟨_, rfl⟩
  rw [instrClass, ← hw, wordClass_at14 (Decode.shape2 0x14 w d a i (by decide) hw).1]

theorem instrClass_lbu (d : BitVec 6) (a : BitVec 6) (i : BitVec 14) : instrClass (.lbu d a i) = .S := by
  obtain ⟨w, hw⟩ : ∃ w, w = encode (.lbu d a i) := ⟨_, rfl⟩
  rw [instrClass, ← hw, wordClass_at15 (Decode.shape2 0x15 w d a i (by decide) hw).1]

theorem instrClass_lh (d : BitVec 6) (a : BitVec 6) (i : BitVec 14) : instrClass (.lh d a i) = .S := by
  obtain ⟨w, hw⟩ : ∃ w, w = encode (.lh d a i) := ⟨_, rfl⟩
  rw [instrClass, ← hw, wordClass_at16 (Decode.shape2 0x16 w d a i (by decide) hw).1]

theorem instrClass_lhu (d : BitVec 6) (a : BitVec 6) (i : BitVec 14) : instrClass (.lhu d a i) = .S := by
  obtain ⟨w, hw⟩ : ∃ w, w = encode (.lhu d a i) := ⟨_, rfl⟩
  rw [instrClass, ← hw, wordClass_at17 (Decode.shape2 0x17 w d a i (by decide) hw).1]

theorem instrClass_lw (d : BitVec 6) (a : BitVec 6) (i : BitVec 14) : instrClass (.lw d a i) = .S := by
  obtain ⟨w, hw⟩ : ∃ w, w = encode (.lw d a i) := ⟨_, rfl⟩
  rw [instrClass, ← hw, wordClass_at18 (Decode.shape2 0x18 w d a i (by decide) hw).1]

theorem instrClass_lwu (d : BitVec 6) (a : BitVec 6) (i : BitVec 14) : instrClass (.lwu d a i) = .S := by
  obtain ⟨w, hw⟩ : ∃ w, w = encode (.lwu d a i) := ⟨_, rfl⟩
  rw [instrClass, ← hw, wordClass_at19 (Decode.shape2 0x19 w d a i (by decide) hw).1]

theorem instrClass_ld (d : BitVec 6) (a : BitVec 6) (i : BitVec 14) : instrClass (.ld d a i) = .S := by
  obtain ⟨w, hw⟩ : ∃ w, w = encode (.ld d a i) := ⟨_, rfl⟩
  rw [instrClass, ← hw, wordClass_at1A (Decode.shape2 0x1a w d a i (by decide) hw).1]

theorem instrClass_sb (d : BitVec 6) (a : BitVec 6) (i : BitVec 14) : instrClass (.sb d a i) = .S := by
  obtain ⟨w, hw⟩ : ∃ w, w = encode (.sb d a i) := ⟨_, rfl⟩
  rw [instrClass, ← hw, wordClass_at1B (Decode.shape2 0x1b w d a i (by decide) hw).1]

theorem instrClass_sh (d : BitVec 6) (a : BitVec 6) (i : BitVec 14) : instrClass (.sh d a i) = .S := by
  obtain ⟨w, hw⟩ : ∃ w, w = encode (.sh d a i) := ⟨_, rfl⟩
  rw [instrClass, ← hw, wordClass_at1C (Decode.shape2 0x1c w d a i (by decide) hw).1]

theorem instrClass_sw (d : BitVec 6) (a : BitVec 6) (i : BitVec 14) : instrClass (.sw d a i) = .S := by
  obtain ⟨w, hw⟩ : ∃ w, w = encode (.sw d a i) := ⟨_, rfl⟩
  rw [instrClass, ← hw, wordClass_at1D (Decode.shape2 0x1d w d a i (by decide) hw).1]

theorem instrClass_sd (d : BitVec 6) (a : BitVec 6) (i : BitVec 14) : instrClass (.sd d a i) = .S := by
  obtain ⟨w, hw⟩ : ∃ w, w = encode (.sd d a i) := ⟨_, rfl⟩
  rw [instrClass, ← hw, wordClass_at1E (Decode.shape2 0x1e w d a i (by decide) hw).1]

theorem instrClass_faddS (d : BitVec 6) (a : BitVec 6) (b : BitVec 6) : instrClass (.faddS d a b) = .S := by
  obtain ⟨w, hw⟩ : ∃ w, w = encode (.faddS d a b) := ⟨_, rfl⟩
  rw [instrClass, ← hw, wordClass_at1F (Decode.shape0 0x1f 0x0 w d a b (by decide) (by decide) hw).1]

theorem instrClass_fsubS (d : BitVec 6) (a : BitVec 6) (b : BitVec 6) : instrClass (.fsubS d a b) = .S := by
  obtain ⟨w, hw⟩ : ∃ w, w = encode (.fsubS d a b) := ⟨_, rfl⟩
  rw [instrClass, ← hw, wordClass_at1F (Decode.shape0 0x1f 0x1 w d a b (by decide) (by decide) hw).1]

theorem instrClass_fmulS (d : BitVec 6) (a : BitVec 6) (b : BitVec 6) : instrClass (.fmulS d a b) = .S := by
  obtain ⟨w, hw⟩ : ∃ w, w = encode (.fmulS d a b) := ⟨_, rfl⟩
  rw [instrClass, ← hw, wordClass_at1F (Decode.shape0 0x1f 0x2 w d a b (by decide) (by decide) hw).1]

theorem instrClass_fdivS (d : BitVec 6) (a : BitVec 6) (b : BitVec 6) : instrClass (.fdivS d a b) = .S := by
  obtain ⟨w, hw⟩ : ∃ w, w = encode (.fdivS d a b) := ⟨_, rfl⟩
  rw [instrClass, ← hw, wordClass_at1F (Decode.shape0 0x1f 0x3 w d a b (by decide) (by decide) hw).1]

theorem instrClass_fsqrtS (d : BitVec 6) (a : BitVec 6) : instrClass (.fsqrtS d a) = .S := by
  obtain ⟨w, hw⟩ : ∃ w, w = encode (.fsqrtS d a) := ⟨_, rfl⟩
  rw [instrClass, ← hw, wordClass_at1F (Decode.shape1 0x1f 0x4 w d a (by decide) (by decide) hw).1]

theorem instrClass_fminS (d : BitVec 6) (a : BitVec 6) (b : BitVec 6) : instrClass (.fminS d a b) = .S := by
  obtain ⟨w, hw⟩ : ∃ w, w = encode (.fminS d a b) := ⟨_, rfl⟩
  rw [instrClass, ← hw, wordClass_at1F (Decode.shape0 0x1f 0x5 w d a b (by decide) (by decide) hw).1]

theorem instrClass_fmaxS (d : BitVec 6) (a : BitVec 6) (b : BitVec 6) : instrClass (.fmaxS d a b) = .S := by
  obtain ⟨w, hw⟩ : ∃ w, w = encode (.fmaxS d a b) := ⟨_, rfl⟩
  rw [instrClass, ← hw, wordClass_at1F (Decode.shape0 0x1f 0x6 w d a b (by decide) (by decide) hw).1]

theorem instrClass_ffmaS (d : BitVec 6) (a : BitVec 6) (b : BitVec 6) : instrClass (.ffmaS d a b) = .S := by
  obtain ⟨w, hw⟩ : ∃ w, w = encode (.ffmaS d a b) := ⟨_, rfl⟩
  rw [instrClass, ← hw, wordClass_at1F (Decode.shape0 0x1f 0x7 w d a b (by decide) (by decide) hw).1]

theorem instrClass_fceqS (d : BitVec 6) (a : BitVec 6) (b : BitVec 6) : instrClass (.fceqS d a b) = .S := by
  obtain ⟨w, hw⟩ : ∃ w, w = encode (.fceqS d a b) := ⟨_, rfl⟩
  rw [instrClass, ← hw, wordClass_at1F (Decode.shape0 0x1f 0x8 w d a b (by decide) (by decide) hw).1]

theorem instrClass_fcltS (d : BitVec 6) (a : BitVec 6) (b : BitVec 6) : instrClass (.fcltS d a b) = .S := by
  obtain ⟨w, hw⟩ : ∃ w, w = encode (.fcltS d a b) := ⟨_, rfl⟩
  rw [instrClass, ← hw, wordClass_at1F (Decode.shape0 0x1f 0x9 w d a b (by decide) (by decide) hw).1]

theorem instrClass_fcleS (d : BitVec 6) (a : BitVec 6) (b : BitVec 6) : instrClass (.fcleS d a b) = .S := by
  obtain ⟨w, hw⟩ : ∃ w, w = encode (.fcleS d a b) := ⟨_, rfl⟩
  rw [instrClass, ← hw, wordClass_at1F (Decode.shape0 0x1f 0xa w d a b (by decide) (by decide) hw).1]

theorem instrClass_ftoiS (d : BitVec 6) (a : BitVec 6) : instrClass (.ftoiS d a) = .S := by
  obtain ⟨w, hw⟩ : ∃ w, w = encode (.ftoiS d a) := ⟨_, rfl⟩
  rw [instrClass, ← hw, wordClass_at1F (Decode.shape1 0x1f 0xc w d a (by decide) (by decide) hw).1]

theorem instrClass_itofS (d : BitVec 6) (a : BitVec 6) : instrClass (.itofS d a) = .S := by
  obtain ⟨w, hw⟩ : ∃ w, w = encode (.itofS d a) := ⟨_, rfl⟩
  rw [instrClass, ← hw, wordClass_at1F (Decode.shape1 0x1f 0xe w d a (by decide) (by decide) hw).1]

theorem instrClass_faddD (d : BitVec 6) (a : BitVec 6) (b : BitVec 6) : instrClass (.faddD d a b) = .S := by
  obtain ⟨w, hw⟩ : ∃ w, w = encode (.faddD d a b) := ⟨_, rfl⟩
  rw [instrClass, ← hw, wordClass_at1F (Decode.shape0 0x1f 0x10 w d a b (by decide) (by decide) hw).1]

theorem instrClass_fsubD (d : BitVec 6) (a : BitVec 6) (b : BitVec 6) : instrClass (.fsubD d a b) = .S := by
  obtain ⟨w, hw⟩ : ∃ w, w = encode (.fsubD d a b) := ⟨_, rfl⟩
  rw [instrClass, ← hw, wordClass_at1F (Decode.shape0 0x1f 0x11 w d a b (by decide) (by decide) hw).1]

theorem instrClass_fmulD (d : BitVec 6) (a : BitVec 6) (b : BitVec 6) : instrClass (.fmulD d a b) = .S := by
  obtain ⟨w, hw⟩ : ∃ w, w = encode (.fmulD d a b) := ⟨_, rfl⟩
  rw [instrClass, ← hw, wordClass_at1F (Decode.shape0 0x1f 0x12 w d a b (by decide) (by decide) hw).1]

theorem instrClass_fdivD (d : BitVec 6) (a : BitVec 6) (b : BitVec 6) : instrClass (.fdivD d a b) = .S := by
  obtain ⟨w, hw⟩ : ∃ w, w = encode (.fdivD d a b) := ⟨_, rfl⟩
  rw [instrClass, ← hw, wordClass_at1F (Decode.shape0 0x1f 0x13 w d a b (by decide) (by decide) hw).1]

theorem instrClass_fsqrtD (d : BitVec 6) (a : BitVec 6) : instrClass (.fsqrtD d a) = .S := by
  obtain ⟨w, hw⟩ : ∃ w, w = encode (.fsqrtD d a) := ⟨_, rfl⟩
  rw [instrClass, ← hw, wordClass_at1F (Decode.shape1 0x1f 0x14 w d a (by decide) (by decide) hw).1]

theorem instrClass_fminD (d : BitVec 6) (a : BitVec 6) (b : BitVec 6) : instrClass (.fminD d a b) = .S := by
  obtain ⟨w, hw⟩ : ∃ w, w = encode (.fminD d a b) := ⟨_, rfl⟩
  rw [instrClass, ← hw, wordClass_at1F (Decode.shape0 0x1f 0x15 w d a b (by decide) (by decide) hw).1]

theorem instrClass_fmaxD (d : BitVec 6) (a : BitVec 6) (b : BitVec 6) : instrClass (.fmaxD d a b) = .S := by
  obtain ⟨w, hw⟩ : ∃ w, w = encode (.fmaxD d a b) := ⟨_, rfl⟩
  rw [instrClass, ← hw, wordClass_at1F (Decode.shape0 0x1f 0x16 w d a b (by decide) (by decide) hw).1]

theorem instrClass_ffmaD (d : BitVec 6) (a : BitVec 6) (b : BitVec 6) : instrClass (.ffmaD d a b) = .S := by
  obtain ⟨w, hw⟩ : ∃ w, w = encode (.ffmaD d a b) := ⟨_, rfl⟩
  rw [instrClass, ← hw, wordClass_at1F (Decode.shape0 0x1f 0x17 w d a b (by decide) (by decide) hw).1]

theorem instrClass_fceqD (d : BitVec 6) (a : BitVec 6) (b : BitVec 6) : instrClass (.fceqD d a b) = .S := by
  obtain ⟨w, hw⟩ : ∃ w, w = encode (.fceqD d a b) := ⟨_, rfl⟩
  rw [instrClass, ← hw, wordClass_at1F (Decode.shape0 0x1f 0x18 w d a b (by decide) (by decide) hw).1]

theorem instrClass_fcltD (d : BitVec 6) (a : BitVec 6) (b : BitVec 6) : instrClass (.fcltD d a b) = .S := by
  obtain ⟨w, hw⟩ : ∃ w, w = encode (.fcltD d a b) := ⟨_, rfl⟩
  rw [instrClass, ← hw, wordClass_at1F (Decode.shape0 0x1f 0x19 w d a b (by decide) (by decide) hw).1]

theorem instrClass_fcleD (d : BitVec 6) (a : BitVec 6) (b : BitVec 6) : instrClass (.fcleD d a b) = .S := by
  obtain ⟨w, hw⟩ : ∃ w, w = encode (.fcleD d a b) := ⟨_, rfl⟩
  rw [instrClass, ← hw, wordClass_at1F (Decode.shape0 0x1f 0x1a w d a b (by decide) (by decide) hw).1]

theorem instrClass_ftoiD (d : BitVec 6) (a : BitVec 6) : instrClass (.ftoiD d a) = .S := by
  obtain ⟨w, hw⟩ : ∃ w, w = encode (.ftoiD d a) := ⟨_, rfl⟩
  rw [instrClass, ← hw, wordClass_at1F (Decode.shape1 0x1f 0x1c w d a (by decide) (by decide) hw).1]

theorem instrClass_itofD (d : BitVec 6) (a : BitVec 6) : instrClass (.itofD d a) = .S := by
  obtain ⟨w, hw⟩ : ∃ w, w = encode (.itofD d a) := ⟨_, rfl⟩
  rw [instrClass, ← hw, wordClass_at1F (Decode.shape1 0x1f 0x1e w d a (by decide) (by decide) hw).1]

theorem instrClass_fnrw (d : BitVec 6) (a : BitVec 6) : instrClass (.fnrw d a) = .S := by
  obtain ⟨w, hw⟩ : ∃ w, w = encode (.fnrw d a) := ⟨_, rfl⟩
  rw [instrClass, ← hw, wordClass_at1F (Decode.shape1 0x1f 0x20 w d a (by decide) (by decide) hw).1]

theorem instrClass_fwdn (d : BitVec 6) (a : BitVec 6) : instrClass (.fwdn d a) = .S := by
  obtain ⟨w, hw⟩ : ∃ w, w = encode (.fwdn d a) := ⟨_, rfl⟩
  rw [instrClass, ← hw, wordClass_at1F (Decode.shape1 0x1f 0x21 w d a (by decide) (by decide) hw).1]

theorem instrClass_rdc (d : BitVec 6) (c : BitVec 12) : instrClass (.rdc d c) = .S := by
  obtain ⟨w, hw⟩ : ∃ w, w = encode (.rdc d c) := ⟨_, rfl⟩
  rw [instrClass, ← hw, wordClass_at20 (Decode.shape4 0x20 w d c (by decide) hw).1]

theorem instrClass_wrc (a : BitVec 6) (c : BitVec 12) : instrClass (.wrc a c) = .X := by
  obtain ⟨w, hw⟩ : ∃ w, w = encode (.wrc a c) := ⟨_, rfl⟩
  rw [instrClass, ← hw, wordClass_at21 (Decode.shape5 0x21 w a c (by decide) hw).1]

theorem instrClass_trap (i : BitVec 14) : instrClass (.trap i) = .X := by
  obtain ⟨w, hw⟩ : ∃ w, w = encode (.trap i) := ⟨_, rfl⟩
  rw [instrClass, ← hw, wordClass_at22 (Decode.shape6 0x22 w i (by decide) hw).1]

theorem instrClass_waitev (d : BitVec 6) (a : BitVec 6) (b : BitVec 6) : instrClass (.waitev d a b) = .X := by
  obtain ⟨w, hw⟩ : ∃ w, w = encode (.waitev d a b) := ⟨_, rfl⟩
  rw [instrClass, ← hw, wordClass_at23 (Decode.shape0 0x23 0x1 w d a b (by decide) (by decide) hw).1]
  replace hw : w = 0x8C000001 + d.toNat * 0x100000 + a.toNat * 0x4000 + b.toNat * 0x100 := hw
  have hd := d.isLt
  have ha := a.isLt
  have hb := b.isLt
  rw [show w % 256 = 1 by omega]
  rfl

theorem instrClass_launch (a : BitVec 6) : instrClass (.launch a) = .X := by
  obtain ⟨w, hw⟩ : ∃ w, w = encode (.launch a) := ⟨_, rfl⟩
  rw [instrClass, ← hw, wordClass_at23 (Decode.shape7 0x23 0x3 w a (by decide) (by decide) hw).1]
  replace hw : w = 0x8C000003 + a.toNat * 0x4000 := hw
  have ha := a.isLt
  rw [show w % 256 = 3 by omega]
  rfl

theorem instrClass_csave (a : BitVec 6) (b : BitVec 6) : instrClass (.csave a b) = .X := by
  obtain ⟨w, hw⟩ : ∃ w, w = encode (.csave a b) := ⟨_, rfl⟩
  rw [instrClass, ← hw, wordClass_at23 (Decode.shape8 0x23 0x11 w a b (by decide) (by decide) hw).1]
  replace hw : w = 0x8C000011 + a.toNat * 0x4000 + b.toNat * 0x100 := hw
  have ha := a.isLt
  have hb := b.isLt
  rw [show w % 256 = 17 by omega]
  rfl

theorem instrClass_crestore (a : BitVec 6) (b : BitVec 6) : instrClass (.crestore a b) = .X := by
  obtain ⟨w, hw⟩ : ∃ w, w = encode (.crestore a b) := ⟨_, rfl⟩
  rw [instrClass, ← hw, wordClass_at23 (Decode.shape8 0x23 0x12 w a b (by decide) (by decide) hw).1]
  replace hw : w = 0x8C000012 + a.toNat * 0x4000 + b.toNat * 0x100 := hw
  have ha := a.isLt
  have hb := b.isLt
  rw [show w % 256 = 18 by omega]
  rfl

theorem instrClass_tlbinv (a : BitVec 6) (b : BitVec 6) : instrClass (.tlbinv a b) = .X := by
  obtain ⟨w, hw⟩ : ∃ w, w = encode (.tlbinv a b) := ⟨_, rfl⟩
  rw [instrClass, ← hw, wordClass_at23 (Decode.shape8 0x23 0x13 w a b (by decide) (by decide) hw).1]
  replace hw : w = 0x8C000013 + a.toNat * 0x4000 + b.toNat * 0x100 := hw
  have ha := a.isLt
  have hb := b.isLt
  rw [show w % 256 = 19 by omega]
  rfl

theorem instrClass_tlbinva (a : BitVec 6) : instrClass (.tlbinva a) = .X := by
  obtain ⟨w, hw⟩ : ∃ w, w = encode (.tlbinva a) := ⟨_, rfl⟩
  rw [instrClass, ← hw, wordClass_at23 (Decode.shape7 0x23 0x14 w a (by decide) (by decide) hw).1]
  replace hw : w = 0x8C000014 + a.toNat * 0x4000 := hw
  have ha := a.isLt
  rw [show w % 256 = 20 by omega]
  rfl

theorem instrClass_embrd (d : BitVec 6) (a : BitVec 6) (b : BitVec 6) : instrClass (.embrd d a b) = .X := by
  obtain ⟨w, hw⟩ : ∃ w, w = encode (.embrd d a b) := ⟨_, rfl⟩
  rw [instrClass, ← hw, wordClass_at23 (Decode.shape0 0x23 0x16 w d a b (by decide) (by decide) hw).1]
  replace hw : w = 0x8C000016 + d.toNat * 0x100000 + a.toNat * 0x4000 + b.toNat * 0x100 := hw
  have hd := d.isLt
  have ha := a.isLt
  have hb := b.isLt
  rw [show w % 256 = 22 by omega]
  rfl

theorem instrClass_rlogctl (a : BitVec 6) : instrClass (.rlogctl a) = .X := by
  obtain ⟨w, hw⟩ : ∃ w, w = encode (.rlogctl a) := ⟨_, rfl⟩
  rw [instrClass, ← hw, wordClass_at23 (Decode.shape7 0x23 0x18 w a (by decide) (by decide) hw).1]
  replace hw : w = 0x8C000018 + a.toNat * 0x4000 := hw
  have ha := a.isLt
  rw [show w % 256 = 24 by omega]
  rfl

theorem instrClass_claim (d : BitVec 6) (a : BitVec 6) : instrClass (.claim d a) = .X := by
  obtain ⟨w, hw⟩ : ∃ w, w = encode (.claim d a) := ⟨_, rfl⟩
  rw [instrClass, ← hw, wordClass_at24 (Decode.shape1 0x24 0x0 w d a (by decide) (by decide) hw).1]
  replace hw : w = 0x90000000 + d.toNat * 0x100000 + a.toNat * 0x4000 := hw
  have hd := d.isLt
  have ha := a.isLt
  rw [show w % 256 = 0 by omega]
  rfl

theorem instrClass_spclaim (d : BitVec 6) (a : BitVec 6) : instrClass (.spclaim d a) = .X := by
  obtain ⟨w, hw⟩ : ∃ w, w = encode (.spclaim d a) := ⟨_, rfl⟩
  rw [instrClass, ← hw, wordClass_at24 (Decode.shape1 0x24 0x1 w d a (by decide) (by decide) hw).1]
  replace hw : w = 0x90000001 + d.toNat * 0x100000 + a.toNat * 0x4000 := hw
  have hd := d.isLt
  have ha := a.isLt
  rw [show w % 256 = 1 by omega]
  rfl

theorem instrClass_spqry (d : BitVec 6) : instrClass (.spqry d) = .X := by
  obtain ⟨w, hw⟩ : ∃ w, w = encode (.spqry d) := ⟨_, rfl⟩
  rw [instrClass, ← hw, wordClass_at24 (Decode.shape9 0x24 0x2 w d (by decide) (by decide) hw).1]
  replace hw : w = 0x90000002 + d.toNat * 0x100000 := hw
  have hd := d.isLt
  rw [show w % 256 = 2 by omega]
  rfl

theorem instrClass_setl4 (d : BitVec 6) (a : BitVec 6) (b : BitVec 6) : instrClass (.setl4 d a b) = .X := by
  obtain ⟨w, hw⟩ : ∃ w, w = encode (.setl4 d a b) := ⟨_, rfl⟩
  rw [instrClass, ← hw, wordClass_at24 (Decode.shape0 0x24 0x10 w d a b (by decide) (by decide) hw).1]
  replace hw : w = 0x90000010 + d.toNat * 0x100000 + a.toNat * 0x4000 + b.toNat * 0x100 := hw
  have hd := d.isLt
  have ha := a.isLt
  have hb := b.isLt
  rw [show w % 256 = 16 by omega]
  rfl

theorem instrClass_setl8 (d : BitVec 6) (a : BitVec 6) (b : BitVec 6) : instrClass (.setl8 d a b) = .X := by
  obtain ⟨w, hw⟩ : ∃ w, w = encode (.setl8 d a b) := ⟨_, rfl⟩
  rw [instrClass, ← hw, wordClass_at24 (Decode.shape0 0x24 0x11 w d a b (by decide) (by decide) hw).1]
  replace hw : w = 0x90000011 + d.toNat * 0x100000 + a.toNat * 0x4000 + b.toNat * 0x100 := hw
  have hd := d.isLt
  have ha := a.isLt
  have hb := b.isLt
  rw [show w % 256 = 17 by omega]
  rfl

theorem instrClass_setl16 (d : BitVec 6) (a : BitVec 6) (b : BitVec 6) : instrClass (.setl16 d a b) = .X := by
  obtain ⟨w, hw⟩ : ∃ w, w = encode (.setl16 d a b) := ⟨_, rfl⟩
  rw [instrClass, ← hw, wordClass_at24 (Decode.shape0 0x24 0x12 w d a b (by decide) (by decide) hw).1]
  replace hw : w = 0x90000012 + d.toNat * 0x100000 + a.toNat * 0x4000 + b.toNat * 0x100 := hw
  have hd := d.isLt
  have ha := a.isLt
  have hb := b.isLt
  rw [show w % 256 = 18 by omega]
  rfl

theorem instrClass_setl32 (d : BitVec 6) (a : BitVec 6) (b : BitVec 6) : instrClass (.setl32 d a b) = .X := by
  obtain ⟨w, hw⟩ : ∃ w, w = encode (.setl32 d a b) := ⟨_, rfl⟩
  rw [instrClass, ← hw, wordClass_at24 (Decode.shape0 0x24 0x13 w d a b (by decide) (by decide) hw).1]
  replace hw : w = 0x90000013 + d.toNat * 0x100000 + a.toNat * 0x4000 + b.toNat * 0x100 := hw
  have hd := d.isLt
  have ha := a.isLt
  have hb := b.isLt
  rw [show w % 256 = 19 by omega]
  rfl

theorem instrClass_setl64 (d : BitVec 6) (a : BitVec 6) (b : BitVec 6) : instrClass (.setl64 d a b) = .X := by
  obtain ⟨w, hw⟩ : ∃ w, w = encode (.setl64 d a b) := ⟨_, rfl⟩
  rw [instrClass, ← hw, wordClass_at24 (Decode.shape0 0x24 0x14 w d a b (by decide) (by decide) hw).1]
  replace hw : w = 0x90000014 + d.toNat * 0x100000 + a.toNat * 0x4000 + b.toNat * 0x100 := hw
  have hd := d.isLt
  have ha := a.isLt
  have hb := b.isLt
  rw [show w % 256 = 20 by omega]
  rfl

theorem instrClass_vadd (d : BitVec 5) (a : BitVec 5) (b : BitVec 5) : instrClass (.vadd d a b) = .Ar := by
  obtain ⟨w, hw⟩ : ∃ w, w = encode (.vadd d a b) := ⟨_, rfl⟩
  rw [instrClass, ← hw, wordClass_at25 (Decode.shape10 0x25 0x0 w d a b (by decide) (by decide) hw).1]
  replace hw : w = 0x94000000 + d.toNat * 0x200000 + a.toNat * 0x10000 + b.toNat * 0x800 := hw
  have hd := d.isLt
  have ha := a.isLt
  have hb := b.isLt
  rw [show w % 2048 = 0 by omega]
  rfl

theorem instrClass_vsub (d : BitVec 5) (a : BitVec 5) (b : BitVec 5) : instrClass (.vsub d a b) = .Ar := by
  obtain ⟨w, hw⟩ : ∃ w, w = encode (.vsub d a b) := ⟨_, rfl⟩
  rw [instrClass, ← hw, wordClass_at25 (Decode.shape10 0x25 0x1 w d a b (by decide) (by decide) hw).1]
  replace hw : w = 0x94000001 + d.toNat * 0x200000 + a.toNat * 0x10000 + b.toNat * 0x800 := hw
  have hd := d.isLt
  have ha := a.isLt
  have hb := b.isLt
  rw [show w % 2048 = 1 by omega]
  rfl

theorem instrClass_vmul (d : BitVec 5) (a : BitVec 5) (b : BitVec 5) : instrClass (.vmul d a b) = .Ar := by
  obtain ⟨w, hw⟩ : ∃ w, w = encode (.vmul d a b) := ⟨_, rfl⟩
  rw [instrClass, ← hw, wordClass_at25 (Decode.shape10 0x25 0x2 w d a b (by decide) (by decide) hw).1]
  replace hw : w = 0x94000002 + d.toNat * 0x200000 + a.toNat * 0x10000 + b.toNat * 0x800 := hw
  have hd := d.isLt
  have ha := a.isLt
  have hb := b.isLt
  rw [show w % 2048 = 2 by omega]
  rfl

theorem instrClass_vmulh (d : BitVec 5) (a : BitVec 5) (b : BitVec 5) : instrClass (.vmulh d a b) = .Ar := by
  obtain ⟨w, hw⟩ : ∃ w, w = encode (.vmulh d a b) := ⟨_, rfl⟩
  rw [instrClass, ← hw, wordClass_at25 (Decode.shape10 0x25 0x3 w d a b (by decide) (by decide) hw).1]
  replace hw : w = 0x94000003 + d.toNat * 0x200000 + a.toNat * 0x10000 + b.toNat * 0x800 := hw
  have hd := d.isLt
  have ha := a.isLt
  have hb := b.isLt
  rw [show w % 2048 = 3 by omega]
  rfl

theorem instrClass_vmin (d : BitVec 5) (a : BitVec 5) (b : BitVec 5) : instrClass (.vmin d a b) = .Ar := by
  obtain ⟨w, hw⟩ : ∃ w, w = encode (.vmin d a b) := ⟨_, rfl⟩
  rw [instrClass, ← hw, wordClass_at25 (Decode.shape10 0x25 0x4 w d a b (by decide) (by decide) hw).1]
  replace hw : w = 0x94000004 + d.toNat * 0x200000 + a.toNat * 0x10000 + b.toNat * 0x800 := hw
  have hd := d.isLt
  have ha := a.isLt
  have hb := b.isLt
  rw [show w % 2048 = 4 by omega]
  rfl

theorem instrClass_vmax (d : BitVec 5) (a : BitVec 5) (b : BitVec 5) : instrClass (.vmax d a b) = .Ar := by
  obtain ⟨w, hw⟩ : ∃ w, w = encode (.vmax d a b) := ⟨_, rfl⟩
  rw [instrClass, ← hw, wordClass_at25 (Decode.shape10 0x25 0x5 w d a b (by decide) (by decide) hw).1]
  replace hw : w = 0x94000005 + d.toNat * 0x200000 + a.toNat * 0x10000 + b.toNat * 0x800 := hw
  have hd := d.isLt
  have ha := a.isLt
  have hb := b.isLt
  rw [show w % 2048 = 5 by omega]
  rfl

theorem instrClass_vminu (d : BitVec 5) (a : BitVec 5) (b : BitVec 5) : instrClass (.vminu d a b) = .Ar := by
  obtain ⟨w, hw⟩ : ∃ w, w = encode (.vminu d a b) := ⟨_, rfl⟩
  rw [instrClass, ← hw, wordClass_at25 (Decode.shape10 0x25 0x6 w d a b (by decide) (by decide) hw).1]
  replace hw : w = 0x94000006 + d.toNat * 0x200000 + a.toNat * 0x10000 + b.toNat * 0x800 := hw
  have hd := d.isLt
  have ha := a.isLt
  have hb := b.isLt
  rw [show w % 2048 = 6 by omega]
  rfl

theorem instrClass_vmaxu (d : BitVec 5) (a : BitVec 5) (b : BitVec 5) : instrClass (.vmaxu d a b) = .Ar := by
  obtain ⟨w, hw⟩ : ∃ w, w = encode (.vmaxu d a b) := ⟨_, rfl⟩
  rw [instrClass, ← hw, wordClass_at25 (Decode.shape10 0x25 0x7 w d a b (by decide) (by decide) hw).1]
  replace hw : w = 0x94000007 + d.toNat * 0x200000 + a.toNat * 0x10000 + b.toNat * 0x800 := hw
  have hd := d.isLt
  have ha := a.isLt
  have hb := b.isLt
  rw [show w % 2048 = 7 by omega]
  rfl

theorem instrClass_vand (d : BitVec 5) (a : BitVec 5) (b : BitVec 5) : instrClass (.vand d a b) = .Ar := by
  obtain ⟨w, hw⟩ : ∃ w, w = encode (.vand d a b) := ⟨_, rfl⟩
  rw [instrClass, ← hw, wordClass_at25 (Decode.shape10 0x25 0x8 w d a b (by decide) (by decide) hw).1]
  replace hw : w = 0x94000008 + d.toNat * 0x200000 + a.toNat * 0x10000 + b.toNat * 0x800 := hw
  have hd := d.isLt
  have ha := a.isLt
  have hb := b.isLt
  rw [show w % 2048 = 8 by omega]
  rfl

theorem instrClass_vor (d : BitVec 5) (a : BitVec 5) (b : BitVec 5) : instrClass (.vor d a b) = .Ar := by
  obtain ⟨w, hw⟩ : ∃ w, w = encode (.vor d a b) := ⟨_, rfl⟩
  rw [instrClass, ← hw, wordClass_at25 (Decode.shape10 0x25 0x9 w d a b (by decide) (by decide) hw).1]
  replace hw : w = 0x94000009 + d.toNat * 0x200000 + a.toNat * 0x10000 + b.toNat * 0x800 := hw
  have hd := d.isLt
  have ha := a.isLt
  have hb := b.isLt
  rw [show w % 2048 = 9 by omega]
  rfl

theorem instrClass_vxor (d : BitVec 5) (a : BitVec 5) (b : BitVec 5) : instrClass (.vxor d a b) = .Ar := by
  obtain ⟨w, hw⟩ : ∃ w, w = encode (.vxor d a b) := ⟨_, rfl⟩
  rw [instrClass, ← hw, wordClass_at25 (Decode.shape10 0x25 0xa w d a b (by decide) (by decide) hw).1]
  replace hw : w = 0x9400000A + d.toNat * 0x200000 + a.toNat * 0x10000 + b.toNat * 0x800 := hw
  have hd := d.isLt
  have ha := a.isLt
  have hb := b.isLt
  rw [show w % 2048 = 10 by omega]
  rfl

theorem instrClass_vsll (d : BitVec 5) (a : BitVec 5) (b : BitVec 5) : instrClass (.vsll d a b) = .Ar := by
  obtain ⟨w, hw⟩ : ∃ w, w = encode (.vsll d a b) := ⟨_, rfl⟩
  rw [instrClass, ← hw, wordClass_at25 (Decode.shape10 0x25 0xb w d a b (by decide) (by decide) hw).1]
  replace hw : w = 0x9400000B + d.toNat * 0x200000 + a.toNat * 0x10000 + b.toNat * 0x800 := hw
  have hd := d.isLt
  have ha := a.isLt
  have hb := b.isLt
  rw [show w % 2048 = 11 by omega]
  rfl

theorem instrClass_vsrl (d : BitVec 5) (a : BitVec 5) (b : BitVec 5) : instrClass (.vsrl d a b) = .Ar := by
  obtain ⟨w, hw⟩ : ∃ w, w = encode (.vsrl d a b) := ⟨_, rfl⟩
  rw [instrClass, ← hw, wordClass_at25 (Decode.shape10 0x25 0xc w d a b (by decide) (by decide) hw).1]
  replace hw : w = 0x9400000C + d.toNat * 0x200000 + a.toNat * 0x10000 + b.toNat * 0x800 := hw
  have hd := d.isLt
  have ha := a.isLt
  have hb := b.isLt
  rw [show w % 2048 = 12 by omega]
  rfl

theorem instrClass_vsra (d : BitVec 5) (a : BitVec 5) (b : BitVec 5) : instrClass (.vsra d a b) = .Ar := by
  obtain ⟨w, hw⟩ : ∃ w, w = encode (.vsra d a b) := ⟨_, rfl⟩
  rw [instrClass, ← hw, wordClass_at25 (Decode.shape10 0x25 0xd w d a b (by decide) (by decide) hw).1]
  replace hw : w = 0x9400000D + d.toNat * 0x200000 + a.toNat * 0x10000 + b.toNat * 0x800 := hw
  have hd := d.isLt
  have ha := a.isLt
  have hb := b.isLt
  rw [show w % 2048 = 13 by omega]
  rfl

theorem instrClass_vabs (d : BitVec 5) (a : BitVec 5) : instrClass (.vabs d a) = .Ar := by
  obtain ⟨w, hw⟩ : ∃ w, w = encode (.vabs d a) := ⟨_, rfl⟩
  rw [instrClass, ← hw, wordClass_at25 (Decode.shape11 0x25 0xe w d a (by decide) (by decide) hw).1]
  replace hw : w = 0x9400000E + d.toNat * 0x200000 + a.toNat * 0x10000 := hw
  have hd := d.isLt
  have ha := a.isLt
  rw [show w % 2048 = 14 by omega]
  rfl

theorem instrClass_vneg (d : BitVec 5) (a : BitVec 5) : instrClass (.vneg d a) = .Ar := by
  obtain ⟨w, hw⟩ : ∃ w, w = encode (.vneg d a) := ⟨_, rfl⟩
  rw [instrClass, ← hw, wordClass_at25 (Decode.shape11 0x25 0xf w d a (by decide) (by decide) hw).1]
  replace hw : w = 0x9400000F + d.toNat * 0x200000 + a.toNat * 0x10000 := hw
  have hd := d.isLt
  have ha := a.isLt
  rw [show w % 2048 = 15 by omega]
  rfl

theorem instrClass_vadds (d : BitVec 5) (a : BitVec 5) (b : BitVec 5) : instrClass (.vadds d a b) = .Ar := by
  obtain ⟨w, hw⟩ : ∃ w, w = encode (.vadds d a b) := ⟨_, rfl⟩
  rw [instrClass, ← hw, wordClass_at25 (Decode.shape10 0x25 0x10 w d a b (by decide) (by decide) hw).1]
  replace hw : w = 0x94000010 + d.toNat * 0x200000 + a.toNat * 0x10000 + b.toNat * 0x800 := hw
  have hd := d.isLt
  have ha := a.isLt
  have hb := b.isLt
  rw [show w % 2048 = 16 by omega]
  rfl

theorem instrClass_vsubs (d : BitVec 5) (a : BitVec 5) (b : BitVec 5) : instrClass (.vsubs d a b) = .Ar := by
  obtain ⟨w, hw⟩ : ∃ w, w = encode (.vsubs d a b) := ⟨_, rfl⟩
  rw [instrClass, ← hw, wordClass_at25 (Decode.shape10 0x25 0x11 w d a b (by decide) (by decide) hw).1]
  replace hw : w = 0x94000011 + d.toNat * 0x200000 + a.toNat * 0x10000 + b.toNat * 0x800 := hw
  have hd := d.isLt
  have ha := a.isLt
  have hb := b.isLt
  rw [show w % 2048 = 17 by omega]
  rfl

theorem instrClass_vsel (d : BitVec 5) (a : BitVec 5) (b : BitVec 5) : instrClass (.vsel d a b) = .Ar := by
  obtain ⟨w, hw⟩ : ∃ w, w = encode (.vsel d a b) := ⟨_, rfl⟩
  rw [instrClass, ← hw, wordClass_at25 (Decode.shape10 0x25 0x12 w d a b (by decide) (by decide) hw).1]
  replace hw : w = 0x94000012 + d.toNat * 0x200000 + a.toNat * 0x10000 + b.toNat * 0x800 := hw
  have hd := d.isLt
  have ha := a.isLt
  have hb := b.isLt
  rw [show w % 2048 = 18 by omega]
  rfl

theorem instrClass_vmov (d : BitVec 5) (a : BitVec 5) : instrClass (.vmov d a) = .Ar := by
  obtain ⟨w, hw⟩ : ∃ w, w = encode (.vmov d a) := ⟨_, rfl⟩
  rw [instrClass, ← hw, wordClass_at25 (Decode.shape11 0x25 0x13 w d a (by decide) (by decide) hw).1]
  replace hw : w = 0x94000013 + d.toNat * 0x200000 + a.toNat * 0x10000 := hw
  have hd := d.isLt
  have ha := a.isLt
  rw [show w % 2048 = 19 by omega]
  rfl

theorem instrClass_vfadd (d : BitVec 5) (a : BitVec 5) (b : BitVec 5) : instrClass (.vfadd d a b) = .Ar := by
  obtain ⟨w, hw⟩ : ∃ w, w = encode (.vfadd d a b) := ⟨_, rfl⟩
  rw [instrClass, ← hw, wordClass_at26 (Decode.shape10 0x26 0x0 w d a b (by decide) (by decide) hw).1]
  replace hw : w = 0x98000000 + d.toNat * 0x200000 + a.toNat * 0x10000 + b.toNat * 0x800 := hw
  have hd := d.isLt
  have ha := a.isLt
  have hb := b.isLt
  rw [show w % 2048 = 0 by omega]
  rfl

theorem instrClass_vfsub (d : BitVec 5) (a : BitVec 5) (b : BitVec 5) : instrClass (.vfsub d a b) = .Ar := by
  obtain ⟨w, hw⟩ : ∃ w, w = encode (.vfsub d a b) := ⟨_, rfl⟩
  rw [instrClass, ← hw, wordClass_at26 (Decode.shape10 0x26 0x1 w d a b (by decide) (by decide) hw).1]
  replace hw : w = 0x98000001 + d.toNat * 0x200000 + a.toNat * 0x10000 + b.toNat * 0x800 := hw
  have hd := d.isLt
  have ha := a.isLt
  have hb := b.isLt
  rw [show w % 2048 = 1 by omega]
  rfl

theorem instrClass_vfmul (d : BitVec 5) (a : BitVec 5) (b : BitVec 5) : instrClass (.vfmul d a b) = .Ar := by
  obtain ⟨w, hw⟩ : ∃ w, w = encode (.vfmul d a b) := ⟨_, rfl⟩
  rw [instrClass, ← hw, wordClass_at26 (Decode.shape10 0x26 0x2 w d a b (by decide) (by decide) hw).1]
  replace hw : w = 0x98000002 + d.toNat * 0x200000 + a.toNat * 0x10000 + b.toNat * 0x800 := hw
  have hd := d.isLt
  have ha := a.isLt
  have hb := b.isLt
  rw [show w % 2048 = 2 by omega]
  rfl

theorem instrClass_vfmin (d : BitVec 5) (a : BitVec 5) (b : BitVec 5) : instrClass (.vfmin d a b) = .Ar := by
  obtain ⟨w, hw⟩ : ∃ w, w = encode (.vfmin d a b) := ⟨_, rfl⟩
  rw [instrClass, ← hw, wordClass_at26 (Decode.shape10 0x26 0x3 w d a b (by decide) (by decide) hw).1]
  replace hw : w = 0x98000003 + d.toNat * 0x200000 + a.toNat * 0x10000 + b.toNat * 0x800 := hw
  have hd := d.isLt
  have ha := a.isLt
  have hb := b.isLt
  rw [show w % 2048 = 3 by omega]
  rfl

theorem instrClass_vfmax (d : BitVec 5) (a : BitVec 5) (b : BitVec 5) : instrClass (.vfmax d a b) = .Ar := by
  obtain ⟨w, hw⟩ : ∃ w, w = encode (.vfmax d a b) := ⟨_, rfl⟩
  rw [instrClass, ← hw, wordClass_at26 (Decode.shape10 0x26 0x4 w d a b (by decide) (by decide) hw).1]
  replace hw : w = 0x98000004 + d.toNat * 0x200000 + a.toNat * 0x10000 + b.toNat * 0x800 := hw
  have hd := d.isLt
  have ha := a.isLt
  have hb := b.isLt
  rw [show w % 2048 = 4 by omega]
  rfl

theorem instrClass_vfabs (d : BitVec 5) (a : BitVec 5) : instrClass (.vfabs d a) = .Ar := by
  obtain ⟨w, hw⟩ : ∃ w, w = encode (.vfabs d a) := ⟨_, rfl⟩
  rw [instrClass, ← hw, wordClass_at26 (Decode.shape11 0x26 0x5 w d a (by decide) (by decide) hw).1]
  replace hw : w = 0x98000005 + d.toNat * 0x200000 + a.toNat * 0x10000 := hw
  have hd := d.isLt
  have ha := a.isLt
  rw [show w % 2048 = 5 by omega]
  rfl

theorem instrClass_vfneg (d : BitVec 5) (a : BitVec 5) : instrClass (.vfneg d a) = .Ar := by
  obtain ⟨w, hw⟩ : ∃ w, w = encode (.vfneg d a) := ⟨_, rfl⟩
  rw [instrClass, ← hw, wordClass_at26 (Decode.shape11 0x26 0x6 w d a (by decide) (by decide) hw).1]
  replace hw : w = 0x98000006 + d.toNat * 0x200000 + a.toNat * 0x10000 := hw
  have hd := d.isLt
  have ha := a.isLt
  rw [show w % 2048 = 6 by omega]
  rfl

theorem instrClass_vfma (d : BitVec 5) (a : BitVec 5) (b : BitVec 5) : instrClass (.vfma d a b) = .Ar := by
  obtain ⟨w, hw⟩ : ∃ w, w = encode (.vfma d a b) := ⟨_, rfl⟩
  rw [instrClass, ← hw, wordClass_at26 (Decode.shape10 0x26 0x7 w d a b (by decide) (by decide) hw).1]
  replace hw : w = 0x98000007 + d.toNat * 0x200000 + a.toNat * 0x10000 + b.toNat * 0x800 := hw
  have hd := d.isLt
  have ha := a.isLt
  have hb := b.isLt
  rw [show w % 2048 = 7 by omega]
  rfl

theorem instrClass_vfms (d : BitVec 5) (a : BitVec 5) (b : BitVec 5) : instrClass (.vfms d a b) = .Ar := by
  obtain ⟨w, hw⟩ : ∃ w, w = encode (.vfms d a b) := ⟨_, rfl⟩
  rw [instrClass, ← hw, wordClass_at26 (Decode.shape10 0x26 0x8 w d a b (by decide) (by decide) hw).1]
  replace hw : w = 0x98000008 + d.toNat * 0x200000 + a.toNat * 0x10000 + b.toNat * 0x800 := hw
  have hd := d.isLt
  have ha := a.isLt
  have hb := b.isLt
  rw [show w % 2048 = 8 by omega]
  rfl

theorem instrClass_vfnma (d : BitVec 5) (a : BitVec 5) (b : BitVec 5) : instrClass (.vfnma d a b) = .Ar := by
  obtain ⟨w, hw⟩ : ∃ w, w = encode (.vfnma d a b) := ⟨_, rfl⟩
  rw [instrClass, ← hw, wordClass_at26 (Decode.shape10 0x26 0x9 w d a b (by decide) (by decide) hw).1]
  replace hw : w = 0x98000009 + d.toNat * 0x200000 + a.toNat * 0x10000 + b.toNat * 0x800 := hw
  have hd := d.isLt
  have ha := a.isLt
  have hb := b.isLt
  rw [show w % 2048 = 9 by omega]
  rfl

theorem instrClass_vfnms (d : BitVec 5) (a : BitVec 5) (b : BitVec 5) : instrClass (.vfnms d a b) = .Ar := by
  obtain ⟨w, hw⟩ : ∃ w, w = encode (.vfnms d a b) := ⟨_, rfl⟩
  rw [instrClass, ← hw, wordClass_at26 (Decode.shape10 0x26 0xa w d a b (by decide) (by decide) hw).1]
  replace hw : w = 0x9800000A + d.toNat * 0x200000 + a.toNat * 0x10000 + b.toNat * 0x800 := hw
  have hd := d.isLt
  have ha := a.isLt
  have hb := b.isLt
  rw [show w % 2048 = 10 by omega]
  rfl

theorem instrClass_vdiv (d : BitVec 5) (a : BitVec 5) (b : BitVec 5) : instrClass (.vdiv d a b) = .Sp := by
  obtain ⟨w, hw⟩ : ∃ w, w = encode (.vdiv d a b) := ⟨_, rfl⟩
  rw [instrClass, ← hw, wordClass_at27 (Decode.shape10 0x27 0x0 w d a b (by decide) (by decide) hw).1]
  replace hw : w = 0x9C000000 + d.toNat * 0x200000 + a.toNat * 0x10000 + b.toNat * 0x800 := hw
  have hd := d.isLt
  have ha := a.isLt
  have hb := b.isLt
  rw [show w % 2048 = 0 by omega]
  rfl

theorem instrClass_vsqrt (d : BitVec 5) (a : BitVec 5) : instrClass (.vsqrt d a) = .Sp := by
  obtain ⟨w, hw⟩ : ∃ w, w = encode (.vsqrt d a) := ⟨_, rfl⟩
  rw [instrClass, ← hw, wordClass_at27 (Decode.shape11 0x27 0x1 w d a (by decide) (by decide) hw).1]
  replace hw : w = 0x9C000001 + d.toNat * 0x200000 + a.toNat * 0x10000 := hw
  have hd := d.isLt
  have ha := a.isLt
  rw [show w % 2048 = 1 by omega]
  rfl

theorem instrClass_vrcps (d : BitVec 5) (a : BitVec 5) : instrClass (.vrcps d a) = .Sp := by
  obtain ⟨w, hw⟩ : ∃ w, w = encode (.vrcps d a) := ⟨_, rfl⟩
  rw [instrClass, ← hw, wordClass_at27 (Decode.shape11 0x27 0x2 w d a (by decide) (by decide) hw).1]
  replace hw : w = 0x9C000002 + d.toNat * 0x200000 + a.toNat * 0x10000 := hw
  have hd := d.isLt
  have ha := a.isLt
  rw [show w % 2048 = 2 by omega]
  rfl

theorem instrClass_vrsqs (d : BitVec 5) (a : BitVec 5) : instrClass (.vrsqs d a) = .Sp := by
  obtain ⟨w, hw⟩ : ∃ w, w = encode (.vrsqs d a) := ⟨_, rfl⟩
  rw [instrClass, ← hw, wordClass_at27 (Decode.shape11 0x27 0x3 w d a (by decide) (by decide) hw).1]
  replace hw : w = 0x9C000003 + d.toNat * 0x200000 + a.toNat * 0x10000 := hw
  have hd := d.isLt
  have ha := a.isLt
  rw [show w % 2048 = 3 by omega]
  rfl

theorem instrClass_vceq (m : BitVec 4) (a : BitVec 5) (b : BitVec 5) : instrClass (.vceq m a b) = .Ar := by
  obtain ⟨w, hw⟩ : ∃ w, w = encode (.vceq m a b) := ⟨_, rfl⟩
  rw [instrClass, ← hw, wordClass_at28 (Decode.shape12 0x28 0x0 w m a b (by decide) (by decide) hw).1]
  replace hw : w = 0xA0000000 + m.toNat * 0x200000 + a.toNat * 0x10000 + b.toNat * 0x800 := hw
  have hm := m.isLt
  have ha := a.isLt
  have hb := b.isLt
  rw [show w % 2048 = 0 by omega]
  rfl

theorem instrClass_vcne (m : BitVec 4) (a : BitVec 5) (b : BitVec 5) : instrClass (.vcne m a b) = .Ar := by
  obtain ⟨w, hw⟩ : ∃ w, w = encode (.vcne m a b) := ⟨_, rfl⟩
  rw [instrClass, ← hw, wordClass_at28 (Decode.shape12 0x28 0x1 w m a b (by decide) (by decide) hw).1]
  replace hw : w = 0xA0000001 + m.toNat * 0x200000 + a.toNat * 0x10000 + b.toNat * 0x800 := hw
  have hm := m.isLt
  have ha := a.isLt
  have hb := b.isLt
  rw [show w % 2048 = 1 by omega]
  rfl

theorem instrClass_vclt (m : BitVec 4) (a : BitVec 5) (b : BitVec 5) : instrClass (.vclt m a b) = .Ar := by
  obtain ⟨w, hw⟩ : ∃ w, w = encode (.vclt m a b) := ⟨_, rfl⟩
  rw [instrClass, ← hw, wordClass_at28 (Decode.shape12 0x28 0x2 w m a b (by decide) (by decide) hw).1]
  replace hw : w = 0xA0000002 + m.toNat * 0x200000 + a.toNat * 0x10000 + b.toNat * 0x800 := hw
  have hm := m.isLt
  have ha := a.isLt
  have hb := b.isLt
  rw [show w % 2048 = 2 by omega]
  rfl

theorem instrClass_vcle (m : BitVec 4) (a : BitVec 5) (b : BitVec 5) : instrClass (.vcle m a b) = .Ar := by
  obtain ⟨w, hw⟩ : ∃ w, w = encode (.vcle m a b) := ⟨_, rfl⟩
  rw [instrClass, ← hw, wordClass_at28 (Decode.shape12 0x28 0x3 w m a b (by decide) (by decide) hw).1]
  replace hw : w = 0xA0000003 + m.toNat * 0x200000 + a.toNat * 0x10000 + b.toNat * 0x800 := hw
  have hm := m.isLt
  have ha := a.isLt
  have hb := b.isLt
  rw [show w % 2048 = 3 by omega]
  rfl

theorem instrClass_vcltu (m : BitVec 4) (a : BitVec 5) (b : BitVec 5) : instrClass (.vcltu m a b) = .Ar := by
  obtain ⟨w, hw⟩ : ∃ w, w = encode (.vcltu m a b) := ⟨_, rfl⟩
  rw [instrClass, ← hw, wordClass_at28 (Decode.shape12 0x28 0x4 w m a b (by decide) (by decide) hw).1]
  replace hw : w = 0xA0000004 + m.toNat * 0x200000 + a.toNat * 0x10000 + b.toNat * 0x800 := hw
  have hm := m.isLt
  have ha := a.isLt
  have hb := b.isLt
  rw [show w % 2048 = 4 by omega]
  rfl

theorem instrClass_vcleu (m : BitVec 4) (a : BitVec 5) (b : BitVec 5) : instrClass (.vcleu m a b) = .Ar := by
  obtain ⟨w, hw⟩ : ∃ w, w = encode (.vcleu m a b) := ⟨_, rfl⟩
  rw [instrClass, ← hw, wordClass_at28 (Decode.shape12 0x28 0x5 w m a b (by decide) (by decide) hw).1]
  replace hw : w = 0xA0000005 + m.toNat * 0x200000 + a.toNat * 0x10000 + b.toNat * 0x800 := hw
  have hm := m.isLt
  have ha := a.isLt
  have hb := b.isLt
  rw [show w % 2048 = 5 by omega]
  rfl

theorem instrClass_vcun (m : BitVec 4) (a : BitVec 5) (b : BitVec 5) : instrClass (.vcun m a b) = .Ar := by
  obtain ⟨w, hw⟩ : ∃ w, w = encode (.vcun m a b) := ⟨_, rfl⟩
  rw [instrClass, ← hw, wordClass_at28 (Decode.shape12 0x28 0x6 w m a b (by decide) (by decide) hw).1]
  replace hw : w = 0xA0000006 + m.toNat * 0x200000 + a.toNat * 0x10000 + b.toNat * 0x800 := hw
  have hm := m.isLt
  have ha := a.isLt
  have hb := b.isLt
  rw [show w % 2048 = 6 by omega]
  rfl

theorem instrClass_mand (d : BitVec 4) (a : BitVec 4) (b : BitVec 4) : instrClass (.mand d a b) = .Mk := by
  obtain ⟨w, hw⟩ : ∃ w, w = encode (.mand d a b) := ⟨_, rfl⟩
  rw [instrClass, ← hw, wordClass_at29 (Decode.shape13 0x29 0x0 w d a b (by decide) (by decide) hw).1]
  replace hw : w = 0xA4000000 + d.toNat * 0x200000 + a.toNat * 0x10000 + b.toNat * 0x800 := hw
  have hd := d.isLt
  have ha := a.isLt
  have hb := b.isLt
  rw [show w % 2048 = 0 by omega]
  rfl

theorem instrClass_mor (d : BitVec 4) (a : BitVec 4) (b : BitVec 4) : instrClass (.mor d a b) = .Mk := by
  obtain ⟨w, hw⟩ : ∃ w, w = encode (.mor d a b) := ⟨_, rfl⟩
  rw [instrClass, ← hw, wordClass_at29 (Decode.shape13 0x29 0x1 w d a b (by decide) (by decide) hw).1]
  replace hw : w = 0xA4000001 + d.toNat * 0x200000 + a.toNat * 0x10000 + b.toNat * 0x800 := hw
  have hd := d.isLt
  have ha := a.isLt
  have hb := b.isLt
  rw [show w % 2048 = 1 by omega]
  rfl

theorem instrClass_mxor (d : BitVec 4) (a : BitVec 4) (b : BitVec 4) : instrClass (.mxor d a b) = .Mk := by
  obtain ⟨w, hw⟩ : ∃ w, w = encode (.mxor d a b) := ⟨_, rfl⟩
  rw [instrClass, ← hw, wordClass_at29 (Decode.shape13 0x29 0x2 w d a b (by decide) (by decide) hw).1]
  replace hw : w = 0xA4000002 + d.toNat * 0x200000 + a.toNat * 0x10000 + b.toNat * 0x800 := hw
  have hd := d.isLt
  have ha := a.isLt
  have hb := b.isLt
  rw [show w % 2048 = 2 by omega]
  rfl

theorem instrClass_mandn (d : BitVec 4) (a : BitVec 4) (b : BitVec 4) : instrClass (.mandn d a b) = .Mk := by
  obtain ⟨w, hw⟩ : ∃ w, w = encode (.mandn d a b) := ⟨_, rfl⟩
  rw [instrClass, ← hw, wordClass_at29 (Decode.shape13 0x29 0x3 w d a b (by decide) (by decide) hw).1]
  replace hw : w = 0xA4000003 + d.toNat * 0x200000 + a.toNat * 0x10000 + b.toNat * 0x800 := hw
  have hd := d.isLt
  have ha := a.isLt
  have hb := b.isLt
  rw [show w % 2048 = 3 by omega]
  rfl

theorem instrClass_mnot (d : BitVec 4) (a : BitVec 4) : instrClass (.mnot d a) = .Mk := by
  obtain ⟨w, hw⟩ : ∃ w, w = encode (.mnot d a) := ⟨_, rfl⟩
  rw [instrClass, ← hw, wordClass_at29 (Decode.shape14 0x29 0x4 w d a (by decide) (by decide) hw).1]
  replace hw : w = 0xA4000004 + d.toNat * 0x200000 + a.toNat * 0x10000 := hw
  have hd := d.isLt
  have ha := a.isLt
  rw [show w % 2048 = 4 by omega]
  rfl

theorem instrClass_mmov (d : BitVec 4) (a : BitVec 4) : instrClass (.mmov d a) = .Mk := by
  obtain ⟨w, hw⟩ : ∃ w, w = encode (.mmov d a) := ⟨_, rfl⟩
  rw [instrClass, ← hw, wordClass_at29 (Decode.shape14 0x29 0x5 w d a (by decide) (by decide) hw).1]
  replace hw : w = 0xA4000005 + d.toNat * 0x200000 + a.toNat * 0x10000 := hw
  have hd := d.isLt
  have ha := a.isLt
  rw [show w % 2048 = 5 by omega]
  rfl

theorem instrClass_mfirst (d : BitVec 4) (a : BitVec 4) : instrClass (.mfirst d a) = .Mk := by
  obtain ⟨w, hw⟩ : ∃ w, w = encode (.mfirst d a) := ⟨_, rfl⟩
  rw [instrClass, ← hw, wordClass_at29 (Decode.shape14 0x29 0x6 w d a (by decide) (by decide) hw).1]
  replace hw : w = 0xA4000006 + d.toNat * 0x200000 + a.toNat * 0x10000 := hw
  have hd := d.isLt
  have ha := a.isLt
  rw [show w % 2048 = 6 by omega]
  rfl

theorem instrClass_vcvt (d : BitVec 5) (a : BitVec 5) (t : BitVec 5) : instrClass (.vcvt d a t) = .Ar := by
  obtain ⟨w, hw⟩ : ∃ w, w = encode (.vcvt d a t) := ⟨_, rfl⟩
  rw [instrClass, ← hw, wordClass_at2A (Decode.shape15 0x2a 0x0 w d a t (by decide) (by decide) hw).1]

theorem instrClass_vcvts (d : BitVec 5) (a : BitVec 5) (t : BitVec 5) : instrClass (.vcvts d a t) = .Ar := by
  obtain ⟨w, hw⟩ : ∃ w, w = encode (.vcvts d a t) := ⟨_, rfl⟩
  rw [instrClass, ← hw, wordClass_at2A (Decode.shape15 0x2a 0x1 w d a t (by decide) (by decide) hw).1]

theorem instrClass_vredo (d : BitVec 5) (a : BitVec 5) (b : BitVec 5) : instrClass (.vredo d a b) = .Sl := by
  obtain ⟨w, hw⟩ : ∃ w, w = encode (.vredo d a b) := ⟨_, rfl⟩
  rw [instrClass, ← hw, wordClass_at2B (Decode.shape10 0x2b 0x0 w d a b (by decide) (by decide) hw).1]
  replace hw : w = 0xAC000000 + d.toNat * 0x200000 + a.toNat * 0x10000 + b.toNat * 0x800 := hw
  have hd := d.isLt
  have ha := a.isLt
  have hb := b.isLt
  rw [show w % 2048 = 0 by omega]
  rfl

theorem instrClass_vredt (d : BitVec 5) (a : BitVec 5) (b : BitVec 5) : instrClass (.vredt d a b) = .Sl := by
  obtain ⟨w, hw⟩ : ∃ w, w = encode (.vredt d a b) := ⟨_, rfl⟩
  rw [instrClass, ← hw, wordClass_at2B (Decode.shape10 0x2b 0x1 w d a b (by decide) (by decide) hw).1]
  replace hw : w = 0xAC000001 + d.toNat * 0x200000 + a.toNat * 0x10000 + b.toNat * 0x800 := hw
  have hd := d.isLt
  have ha := a.isLt
  have hb := b.isLt
  rw [show w % 2048 = 1 by omega]
  rfl

theorem instrClass_vredmin (d : BitVec 5) (a : BitVec 5) (b : BitVec 5) : instrClass (.vredmin d a b) = .Sl := by
  obtain ⟨w, hw⟩ : ∃ w, w = encode (.vredmin d a b) := ⟨_, rfl⟩
  rw [instrClass, ← hw, wordClass_at2B (Decode.shape10 0x2b 0x2 w d a b (by decide) (by decide) hw).1]
  replace hw : w = 0xAC000002 + d.toNat * 0x200000 + a.toNat * 0x10000 + b.toNat * 0x800 := hw
  have hd := d.isLt
  have ha := a.isLt
  have hb := b.isLt
  rw [show w % 2048 = 2 by omega]
  rfl

theorem instrClass_vredmax (d : BitVec 5) (a : BitVec 5) (b : BitVec 5) : instrClass (.vredmax d a b) = .Sl := by
  obtain ⟨w, hw⟩ : ∃ w, w = encode (.vredmax d a b) := ⟨_, rfl⟩
  rw [instrClass, ← hw, wordClass_at2B (Decode.shape10 0x2b 0x3 w d a b (by decide) (by decide) hw).1]
  replace hw : w = 0xAC000003 + d.toNat * 0x200000 + a.toNat * 0x10000 + b.toNat * 0x800 := hw
  have hd := d.isLt
  have ha := a.isLt
  have hb := b.isLt
  rw [show w % 2048 = 3 by omega]
  rfl

theorem instrClass_vscan (d : BitVec 5) (a : BitVec 5) (b : BitVec 5) : instrClass (.vscan d a b) = .Sl := by
  obtain ⟨w, hw⟩ : ∃ w, w = encode (.vscan d a b) := ⟨_, rfl⟩
  rw [instrClass, ← hw, wordClass_at2B (Decode.shape10 0x2b 0x4 w d a b (by decide) (by decide) hw).1]
  replace hw : w = 0xAC000004 + d.toNat * 0x200000 + a.toNat * 0x10000 + b.toNat * 0x800 := hw
  have hd := d.isLt
  have ha := a.isLt
  have hb := b.isLt
  rw [show w % 2048 = 4 by omega]
  rfl

theorem instrClass_vscanx (d : BitVec 5) (a : BitVec 5) (b : BitVec 5) : instrClass (.vscanx d a b) = .Sl := by
  obtain ⟨w, hw⟩ : ∃ w, w = encode (.vscanx d a b) := ⟨_, rfl⟩
  rw [instrClass, ← hw, wordClass_at2B (Decode.shape10 0x2b 0x5 w d a b (by decide) (by decide) hw).1]
  replace hw : w = 0xAC000005 + d.toNat * 0x200000 + a.toNat * 0x10000 + b.toNat * 0x800 := hw
  have hd := d.isLt
  have ha := a.isLt
  have hb := b.isLt
  rw [show w % 2048 = 5 by omega]
  rfl

theorem instrClass_vperm (d : BitVec 5) (a : BitVec 5) (b : BitVec 5) : instrClass (.vperm d a b) = .Sl := by
  obtain ⟨w, hw⟩ : ∃ w, w = encode (.vperm d a b) := ⟨_, rfl⟩
  rw [instrClass, ← hw, wordClass_at2C (Decode.shape10 0x2c 0x0 w d a b (by decide) (by decide) hw).1]
  replace hw : w = 0xB0000000 + d.toNat * 0x200000 + a.toNat * 0x10000 + b.toNat * 0x800 := hw
  have hd := d.isLt
  have ha := a.isLt
  have hb := b.isLt
  rw [show w % 2048 = 0 by omega]
  rfl

theorem instrClass_vcomp (d : BitVec 5) (a : BitVec 5) : instrClass (.vcomp d a) = .Sl := by
  obtain ⟨w, hw⟩ : ∃ w, w = encode (.vcomp d a) := ⟨_, rfl⟩
  rw [instrClass, ← hw, wordClass_at2C (Decode.shape11 0x2c 0x1 w d a (by decide) (by decide) hw).1]
  replace hw : w = 0xB0000001 + d.toNat * 0x200000 + a.toNat * 0x10000 := hw
  have hd := d.isLt
  have ha := a.isLt
  rw [show w % 2048 = 1 by omega]
  rfl

theorem instrClass_vexpd (d : BitVec 5) (a : BitVec 5) : instrClass (.vexpd d a) = .Sl := by
  obtain ⟨w, hw⟩ : ∃ w, w = encode (.vexpd d a) := ⟨_, rfl⟩
  rw [instrClass, ← hw, wordClass_at2C (Decode.shape11 0x2c 0x2 w d a (by decide) (by decide) hw).1]
  replace hw : w = 0xB0000002 + d.toNat * 0x200000 + a.toNat * 0x10000 := hw
  have hd := d.isLt
  have ha := a.isLt
  rw [show w % 2048 = 2 by omega]
  rfl

theorem instrClass_vslup (d : BitVec 5) (a : BitVec 5) (sb : BitVec 6) : instrClass (.vslup d a sb) = .Sl := by
  obtain ⟨w, hw⟩ : ∃ w, w = encode (.vslup d a sb) := ⟨_, rfl⟩
  rw [instrClass, ← hw, wordClass_at2D (Decode.shape16 0x2d 0x0 w d a sb (by decide) (by decide) hw).1]
  replace hw : w = 0xB4000000 + d.toNat * 0x200000 + a.toNat * 0x10000 + sb.toNat * 0x400 := hw
  have hd := d.isLt
  have ha := a.isLt
  have hsb := sb.isLt
  rw [show w % 1024 = 0 by omega]
  rfl

theorem instrClass_vsldn (d : BitVec 5) (a : BitVec 5) (sb : BitVec 6) : instrClass (.vsldn d a sb) = .Sl := by
  obtain ⟨w, hw⟩ : ∃ w, w = encode (.vsldn d a sb) := ⟨_, rfl⟩
  rw [instrClass, ← hw, wordClass_at2D (Decode.shape16 0x2d 0x1 w d a sb (by decide) (by decide) hw).1]
  replace hw : w = 0xB4000001 + d.toNat * 0x200000 + a.toNat * 0x10000 + sb.toNat * 0x400 := hw
  have hd := d.isLt
  have ha := a.isLt
  have hsb := sb.isLt
  rw [show w % 1024 = 1 by omega]
  rfl

theorem instrClass_vxchg (d : BitVec 5) (a : BitVec 5) (sb : BitVec 6) : instrClass (.vxchg d a sb) = .Sl := by
  obtain ⟨w, hw⟩ : ∃ w, w = encode (.vxchg d a sb) := ⟨_, rfl⟩
  rw [instrClass, ← hw, wordClass_at2D (Decode.shape16 0x2d 0x2 w d a sb (by decide) (by decide) hw).1]
  replace hw : w = 0xB4000002 + d.toNat * 0x200000 + a.toNat * 0x10000 + sb.toNat * 0x400 := hw
  have hd := d.isLt
  have ha := a.isLt
  have hsb := sb.isLt
  rw [show w % 1024 = 2 by omega]
  rfl

theorem instrClass_vbcast (d : BitVec 5) (sb : BitVec 6) : instrClass (.vbcast d sb) = .Ar := by
  obtain ⟨w, hw⟩ : ∃ w, w = encode (.vbcast d sb) := ⟨_, rfl⟩
  rw [instrClass, ← hw, wordClass_at2D (Decode.shape17 0x2d 0x10 w d sb (by decide) (by decide) hw).1]
  replace hw : w = 0xB4000010 + d.toNat * 0x200000 + sb.toNat * 0x400 := hw
  have hd := d.isLt
  have hsb := sb.isLt
  rw [show w % 1024 = 16 by omega]
  rfl

theorem instrClass_viota (d : BitVec 5) (sb : BitVec 6) : instrClass (.viota d sb) = .Ar := by
  obtain ⟨w, hw⟩ : ∃ w, w = encode (.viota d sb) := ⟨_, rfl⟩
  rw [instrClass, ← hw, wordClass_at2D (Decode.shape17 0x2d 0x11 w d sb (by decide) (by decide) hw).1]
  replace hw : w = 0xB4000011 + d.toNat * 0x200000 + sb.toNat * 0x400 := hw
  have hd := d.isLt
  have hsb := sb.isLt
  rw [show w % 1024 = 17 by omega]
  rfl

theorem instrClass_vrng (d : BitVec 5) (sb : BitVec 6) : instrClass (.vrng d sb) = .Ar := by
  obtain ⟨w, hw⟩ : ∃ w, w = encode (.vrng d sb) := ⟨_, rfl⟩
  rw [instrClass, ← hw, wordClass_at2D (Decode.shape17 0x2d 0x12 w d sb (by decide) (by decide) hw).1]
  replace hw : w = 0xB4000012 + d.toNat * 0x200000 + sb.toNat * 0x400 := hw
  have hd := d.isLt
  have hsb := sb.isLt
  rw [show w % 1024 = 18 by omega]
  rfl

theorem instrClass_vfetch (sb : BitVec 6) : instrClass (.vfetch sb) = .X := by
  obtain ⟨w, hw⟩ : ∃ w, w = encode (.vfetch sb) := ⟨_, rfl⟩
  rw [instrClass, ← hw, wordClass_at2E (Decode.shape18 0x2e 0x0 w sb (by decide) (by decide) hw).1]
  replace hw : w = 0xB8000000 + sb.toNat * 0x400 := hw
  have hsb := sb.isLt
  rw [show w % 1024 = 0 by omega]
  rfl

theorem instrClass_vnext (m : BitVec 4) (sb : BitVec 6) : instrClass (.vnext m sb) = .X := by
  obtain ⟨w, hw⟩ : ∃ w, w = encode (.vnext m sb) := ⟨_, rfl⟩
  rw [instrClass, ← hw, wordClass_at2E (Decode.shape19 0x2e 0x2 w m sb (by decide) (by decide) hw).1]
  replace hw : w = 0xB8000002 + m.toNat * 0x200000 + sb.toNat * 0x400 := hw
  have hm := m.isLt
  have hsb := sb.isLt
  rw [show w % 1024 = 2 by omega]
  rfl

theorem instrClass_vld (d : BitVec 5) (a : BitVec 6) (b : BitVec 6) (h : BitVec 3) : instrClass (.vld d a b h) = .Ld := by
  obtain ⟨w, hw⟩ : ∃ w, w = encode (.vld d a b h) := ⟨_, rfl⟩
  rw [instrClass, ← hw, wordClass_at2F (Decode.shape20 0x2f 0x0 w d a b h (by decide) (by decide) hw).1]
  replace hw : w = 0xBC000000 + d.toNat * 0x200000 + a.toNat * 0x8000 + b.toNat * 0x200 + h.toNat * 0x40 := hw
  have hd := d.isLt
  have ha := a.isLt
  have hb := b.isLt
  have hh := h.isLt
  rw [show w % 64 = 0 by omega]
  rfl

theorem instrClass_vlds (d : BitVec 5) (a : BitVec 6) (b : BitVec 6) (h : BitVec 3) : instrClass (.vlds d a b h) = .Ld := by
  obtain ⟨w, hw⟩ : ∃ w, w = encode (.vlds d a b h) := ⟨_, rfl⟩
  rw [instrClass, ← hw, wordClass_at2F (Decode.shape20 0x2f 0x1 w d a b h (by decide) (by decide) hw).1]
  replace hw : w = 0xBC000001 + d.toNat * 0x200000 + a.toNat * 0x8000 + b.toNat * 0x200 + h.toNat * 0x40 := hw
  have hd := d.isLt
  have ha := a.isLt
  have hb := b.isLt
  have hh := h.isLt
  rw [show w % 64 = 1 by omega]
  rfl

theorem instrClass_vst (d : BitVec 5) (a : BitVec 6) (b : BitVec 6) (h : BitVec 3) : instrClass (.vst d a b h) = .St := by
  obtain ⟨w, hw⟩ : ∃ w, w = encode (.vst d a b h) := ⟨_, rfl⟩
  rw [instrClass, ← hw, wordClass_at2F (Decode.shape20 0x2f 0x2 w d a b h (by decide) (by decide) hw).1]
  replace hw : w = 0xBC000002 + d.toNat * 0x200000 + a.toNat * 0x8000 + b.toNat * 0x200 + h.toNat * 0x40 := hw
  have hd := d.isLt
  have ha := a.isLt
  have hb := b.isLt
  have hh := h.isLt
  rw [show w % 64 = 2 by omega]
  rfl

theorem instrClass_vsts (d : BitVec 5) (a : BitVec 6) (b : BitVec 6) (h : BitVec 3) : instrClass (.vsts d a b h) = .St := by
  obtain ⟨w, hw⟩ : ∃ w, w = encode (.vsts d a b h) := ⟨_, rfl⟩
  rw [instrClass, ← hw, wordClass_at2F (Decode.shape20 0x2f 0x3 w d a b h (by decide) (by decide) hw).1]
  replace hw : w = 0xBC000003 + d.toNat * 0x200000 + a.toNat * 0x8000 + b.toNat * 0x200 + h.toNat * 0x40 := hw
  have hd := d.isLt
  have ha := a.isLt
  have hb := b.isLt
  have hh := h.isLt
  rw [show w % 64 = 3 by omega]
  rfl

theorem instrClass_vldc (d : BitVec 5) (a : BitVec 6) (b : BitVec 6) (h : BitVec 3) : instrClass (.vldc d a b h) = .Ld := by
  obtain ⟨w, hw⟩ : ∃ w, w = encode (.vldc d a b h) := ⟨_, rfl⟩
  rw [instrClass, ← hw, wordClass_at30 (Decode.shape20 0x30 0x0 w d a b h (by decide) (by decide) hw).1]
  replace hw : w = 0xC0000000 + d.toNat * 0x200000 + a.toNat * 0x8000 + b.toNat * 0x200 + h.toNat * 0x40 := hw
  have hd := d.isLt
  have ha := a.isLt
  have hb := b.isLt
  have hh := h.isLt
  rw [show w % 64 = 0 by omega]
  rfl

theorem instrClass_vstc (d : BitVec 5) (a : BitVec 6) (b : BitVec 6) (h : BitVec 3) : instrClass (.vstc d a b h) = .St := by
  obtain ⟨w, hw⟩ : ∃ w, w = encode (.vstc d a b h) := ⟨_, rfl⟩
  rw [instrClass, ← hw, wordClass_at30 (Decode.shape20 0x30 0x1 w d a b h (by decide) (by decide) hw).1]
  replace hw : w = 0xC0000001 + d.toNat * 0x200000 + a.toNat * 0x8000 + b.toNat * 0x200 + h.toNat * 0x40 := hw
  have hd := d.isLt
  have ha := a.isLt
  have hb := b.isLt
  have hh := h.isLt
  rw [show w % 64 = 1 by omega]
  rfl

theorem instrClass_vgath (d : BitVec 5) (a : BitVec 5) (sb : BitVec 6) : instrClass (.vgath d a sb) = .Ld := by
  obtain ⟨w, hw⟩ : ∃ w, w = encode (.vgath d a sb) := ⟨_, rfl⟩
  rw [instrClass, ← hw, wordClass_at31 (Decode.shape16 0x31 0x0 w d a sb (by decide) (by decide) hw).1]
  replace hw : w = 0xC4000000 + d.toNat * 0x200000 + a.toNat * 0x10000 + sb.toNat * 0x400 := hw
  have hd := d.isLt
  have ha := a.isLt
  have hsb := sb.isLt
  rw [show w % 1024 = 0 by omega]
  rfl

theorem instrClass_vscat (d : BitVec 5) (a : BitVec 5) (sb : BitVec 6) : instrClass (.vscat d a sb) = .St := by
  obtain ⟨w, hw⟩ : ∃ w, w = encode (.vscat d a sb) := ⟨_, rfl⟩
  rw [instrClass, ← hw, wordClass_at31 (Decode.shape16 0x31 0x1 w d a sb (by decide) (by decide) hw).1]
  replace hw : w = 0xC4000001 + d.toNat * 0x200000 + a.toNat * 0x10000 + sb.toNat * 0x400 := hw
  have hd := d.isLt
  have ha := a.isLt
  have hsb := sb.isLt
  rw [show w % 1024 = 1 by omega]
  rfl

theorem instrClass_vscadd (d : BitVec 5) (a : BitVec 5) (sb : BitVec 6) : instrClass (.vscadd d a sb) = .St := by
  obtain ⟨w, hw⟩ : ∃ w, w = encode (.vscadd d a sb) := ⟨_, rfl⟩
  rw [instrClass, ← hw, wordClass_at31 (Decode.shape16 0x31 0x2 w d a sb (by decide) (by decide) hw).1]
  replace hw : w = 0xC4000002 + d.toNat * 0x200000 + a.toNat * 0x10000 + sb.toNat * 0x400 := hw
  have hd := d.isLt
  have ha := a.isLt
  have hsb := sb.isLt
  rw [show w % 1024 = 2 by omega]
  rfl

theorem instrClass_vldb (d : BitVec 5) (a : BitVec 6) (b : BitVec 6) (h : BitVec 3) : instrClass (.vldb d a b h) = .Ld := by
  obtain ⟨w, hw⟩ : ∃ w, w = encode (.vldb d a b h) := ⟨_, rfl⟩
  rw [instrClass, ← hw, wordClass_at32 (Decode.shape20 0x32 0x0 w d a b h (by decide) (by decide) hw).1]
  replace hw : w = 0xC8000000 + d.toNat * 0x200000 + a.toNat * 0x8000 + b.toNat * 0x200 + h.toNat * 0x40 := hw
  have hd := d.isLt
  have ha := a.isLt
  have hb := b.isLt
  have hh := h.isLt
  rw [show w % 64 = 0 by omega]
  rfl

theorem instrClass_vstb (d : BitVec 5) (a : BitVec 6) (b : BitVec 6) (h : BitVec 3) : instrClass (.vstb d a b h) = .St := by
  obtain ⟨w, hw⟩ : ∃ w, w = encode (.vstb d a b h) := ⟨_, rfl⟩
  rw [instrClass, ← hw, wordClass_at32 (Decode.shape20 0x32 0x1 w d a b h (by decide) (by decide) hw).1]
  replace hw : w = 0xC8000001 + d.toNat * 0x200000 + a.toNat * 0x8000 + b.toNat * 0x200 + h.toNat * 0x40 := hw
  have hd := d.isLt
  have ha := a.isLt
  have hb := b.isLt
  have hh := h.isLt
  rw [show w % 64 = 1 by omega]
  rfl

theorem instrClass_vldz (d : BitVec 5) (a : BitVec 6) (b : BitVec 6) (h : BitVec 3) : instrClass (.vldz d a b h) = .Ld := by
  obtain ⟨w, hw⟩ : ∃ w, w = encode (.vldz d a b h) := ⟨_, rfl⟩
  rw [instrClass, ← hw, wordClass_at32 (Decode.shape20 0x32 0x2 w d a b h (by decide) (by decide) hw).1]
  replace hw : w = 0xC8000002 + d.toNat * 0x200000 + a.toNat * 0x8000 + b.toNat * 0x200 + h.toNat * 0x40 := hw
  have hd := d.isLt
  have ha := a.isLt
  have hb := b.isLt
  have hh := h.isLt
  rw [show w % 64 = 2 by omega]
  rfl

theorem instrClass_amoaddW (d : BitVec 6) (a : BitVec 6) (b : BitVec 6) (c : Bool) (r : Bool) (sc : BitVec 3) : instrClass (.amoaddW d a b c r sc) = .X := by
  obtain ⟨w, hw⟩ : ∃ w, w = encode (.amoaddW d a b c r sc) := ⟨_, rfl⟩
  rw [instrClass, ← hw, wordClass_at33 (Decode.shape21 0x33 0x0 w d a b c r sc (by decide) (by decide) hw).1]

theorem instrClass_amoswapW (d : BitVec 6) (a : BitVec 6) (b : BitVec 6) (c : Bool) (r : Bool) (sc : BitVec 3) : instrClass (.amoswapW d a b c r sc) = .X := by
  obtain ⟨w, hw⟩ : ∃ w, w = encode (.amoswapW d a b c r sc) := ⟨_, rfl⟩
  rw [instrClass, ← hw, wordClass_at33 (Decode.shape21 0x33 0x1 w d a b c r sc (by decide) (by decide) hw).1]

theorem instrClass_amoandW (d : BitVec 6) (a : BitVec 6) (b : BitVec 6) (c : Bool) (r : Bool) (sc : BitVec 3) : instrClass (.amoandW d a b c r sc) = .X := by
  obtain ⟨w, hw⟩ : ∃ w, w = encode (.amoandW d a b c r sc) := ⟨_, rfl⟩
  rw [instrClass, ← hw, wordClass_at33 (Decode.shape21 0x33 0x2 w d a b c r sc (by decide) (by decide) hw).1]

theorem instrClass_amoorW (d : BitVec 6) (a : BitVec 6) (b : BitVec 6) (c : Bool) (r : Bool) (sc : BitVec 3) : instrClass (.amoorW d a b c r sc) = .X := by
  obtain ⟨w, hw⟩ : ∃ w, w = encode (.amoorW d a b c r sc) := ⟨_, rfl⟩
  rw [instrClass, ← hw, wordClass_at33 (Decode.shape21 0x33 0x3 w d a b c r sc (by decide) (by decide) hw).1]

theorem instrClass_amoxorW (d : BitVec 6) (a : BitVec 6) (b : BitVec 6) (c : Bool) (r : Bool) (sc : BitVec 3) : instrClass (.amoxorW d a b c r sc) = .X := by
  obtain ⟨w, hw⟩ : ∃ w, w = encode (.amoxorW d a b c r sc) := ⟨_, rfl⟩
  rw [instrClass, ← hw, wordClass_at33 (Decode.shape21 0x33 0x4 w d a b c r sc (by decide) (by decide) hw).1]

theorem instrClass_amominW (d : BitVec 6) (a : BitVec 6) (b : BitVec 6) (c : Bool) (r : Bool) (sc : BitVec 3) : instrClass (.amominW d a b c r sc) = .X := by
  obtain ⟨w, hw⟩ : ∃ w, w = encode (.amominW d a b c r sc) := ⟨_, rfl⟩
  rw [instrClass, ← hw, wordClass_at33 (Decode.shape21 0x33 0x5 w d a b c r sc (by decide) (by decide) hw).1]

theorem instrClass_amomaxW (d : BitVec 6) (a : BitVec 6) (b : BitVec 6) (c : Bool) (r : Bool) (sc : BitVec 3) : instrClass (.amomaxW d a b c r sc) = .X := by
  obtain ⟨w, hw⟩ : ∃ w, w = encode (.amomaxW d a b c r sc) := ⟨_, rfl⟩
  rw [instrClass, ← hw, wordClass_at33 (Decode.shape21 0x33 0x6 w d a b c r sc (by decide) (by decide) hw).1]

theorem instrClass_amocasW (d : BitVec 6) (a : BitVec 6) (b : BitVec 6) (c : Bool) (r : Bool) (sc : BitVec 3) : instrClass (.amocasW d a b c r sc) = .X := by
  obtain ⟨w, hw⟩ : ∃ w, w = encode (.amocasW d a b c r sc) := ⟨_, rfl⟩
  rw [instrClass, ← hw, wordClass_at33 (Decode.shape21 0x33 0x7 w d a b c r sc (by decide) (by decide) hw).1]

theorem instrClass_amoaddD (d : BitVec 6) (a : BitVec 6) (b : BitVec 6) (c : Bool) (r : Bool) (sc : BitVec 3) : instrClass (.amoaddD d a b c r sc) = .X := by
  obtain ⟨w, hw⟩ : ∃ w, w = encode (.amoaddD d a b c r sc) := ⟨_, rfl⟩
  rw [instrClass, ← hw, wordClass_at34 (Decode.shape21 0x34 0x0 w d a b c r sc (by decide) (by decide) hw).1]

theorem instrClass_amoswapD (d : BitVec 6) (a : BitVec 6) (b : BitVec 6) (c : Bool) (r : Bool) (sc : BitVec 3) : instrClass (.amoswapD d a b c r sc) = .X := by
  obtain ⟨w, hw⟩ : ∃ w, w = encode (.amoswapD d a b c r sc) := ⟨_, rfl⟩
  rw [instrClass, ← hw, wordClass_at34 (Decode.shape21 0x34 0x1 w d a b c r sc (by decide) (by decide) hw).1]

theorem instrClass_amoandD (d : BitVec 6) (a : BitVec 6) (b : BitVec 6) (c : Bool) (r : Bool) (sc : BitVec 3) : instrClass (.amoandD d a b c r sc) = .X := by
  obtain ⟨w, hw⟩ : ∃ w, w = encode (.amoandD d a b c r sc) := ⟨_, rfl⟩
  rw [instrClass, ← hw, wordClass_at34 (Decode.shape21 0x34 0x2 w d a b c r sc (by decide) (by decide) hw).1]

theorem instrClass_amoorD (d : BitVec 6) (a : BitVec 6) (b : BitVec 6) (c : Bool) (r : Bool) (sc : BitVec 3) : instrClass (.amoorD d a b c r sc) = .X := by
  obtain ⟨w, hw⟩ : ∃ w, w = encode (.amoorD d a b c r sc) := ⟨_, rfl⟩
  rw [instrClass, ← hw, wordClass_at34 (Decode.shape21 0x34 0x3 w d a b c r sc (by decide) (by decide) hw).1]

theorem instrClass_amoxorD (d : BitVec 6) (a : BitVec 6) (b : BitVec 6) (c : Bool) (r : Bool) (sc : BitVec 3) : instrClass (.amoxorD d a b c r sc) = .X := by
  obtain ⟨w, hw⟩ : ∃ w, w = encode (.amoxorD d a b c r sc) := ⟨_, rfl⟩
  rw [instrClass, ← hw, wordClass_at34 (Decode.shape21 0x34 0x4 w d a b c r sc (by decide) (by decide) hw).1]

theorem instrClass_amominD (d : BitVec 6) (a : BitVec 6) (b : BitVec 6) (c : Bool) (r : Bool) (sc : BitVec 3) : instrClass (.amominD d a b c r sc) = .X := by
  obtain ⟨w, hw⟩ : ∃ w, w = encode (.amominD d a b c r sc) := ⟨_, rfl⟩
  rw [instrClass, ← hw, wordClass_at34 (Decode.shape21 0x34 0x5 w d a b c r sc (by decide) (by decide) hw).1]

theorem instrClass_amomaxD (d : BitVec 6) (a : BitVec 6) (b : BitVec 6) (c : Bool) (r : Bool) (sc : BitVec 3) : instrClass (.amomaxD d a b c r sc) = .X := by
  obtain ⟨w, hw⟩ : ∃ w, w = encode (.amomaxD d a b c r sc) := ⟨_, rfl⟩
  rw [instrClass, ← hw, wordClass_at34 (Decode.shape21 0x34 0x6 w d a b c r sc (by decide) (by decide) hw).1]

theorem instrClass_amocasD (d : BitVec 6) (a : BitVec 6) (b : BitVec 6) (c : Bool) (r : Bool) (sc : BitVec 3) : instrClass (.amocasD d a b c r sc) = .X := by
  obtain ⟨w, hw⟩ : ∃ w, w = encode (.amocasD d a b c r sc) := ⟨_, rfl⟩
  rw [instrClass, ← hw, wordClass_at34 (Decode.shape21 0x34 0x7 w d a b c r sc (by decide) (by decide) hw).1]

theorem instrClass_ldaW (d : BitVec 6) (a : BitVec 6) (sc : BitVec 3) : instrClass (.ldaW d a sc) = .X := by
  obtain ⟨w, hw⟩ : ∃ w, w = encode (.ldaW d a sc) := ⟨_, rfl⟩
  rw [instrClass, ← hw, wordClass_at35 (Decode.shape22 0x35 0x0 w d a sc (by decide) (by decide) hw).1]
  replace hw : w = 0xD4000000 + d.toNat * 0x100000 + a.toNat * 0x4000 + sc.toNat := hw
  have hd := d.isLt
  have ha := a.isLt
  have hsc := sc.isLt
  exact WordClass.assigned_true _ (decide_eq_true (by omega))

theorem instrClass_ldaD (d : BitVec 6) (a : BitVec 6) (sc : BitVec 3) : instrClass (.ldaD d a sc) = .X := by
  obtain ⟨w, hw⟩ : ∃ w, w = encode (.ldaD d a sc) := ⟨_, rfl⟩
  rw [instrClass, ← hw, wordClass_at35 (Decode.shape22 0x35 0x1 w d a sc (by decide) (by decide) hw).1]
  replace hw : w = 0xD4000008 + d.toNat * 0x100000 + a.toNat * 0x4000 + sc.toNat := hw
  have hd := d.isLt
  have ha := a.isLt
  have hsc := sc.isLt
  exact WordClass.assigned_true _ (decide_eq_true (by omega))

theorem instrClass_stlW (d : BitVec 6) (a : BitVec 6) (sc : BitVec 3) : instrClass (.stlW d a sc) = .X := by
  obtain ⟨w, hw⟩ : ∃ w, w = encode (.stlW d a sc) := ⟨_, rfl⟩
  rw [instrClass, ← hw, wordClass_at35 (Decode.shape22 0x35 0x2 w d a sc (by decide) (by decide) hw).1]
  replace hw : w = 0xD4000010 + d.toNat * 0x100000 + a.toNat * 0x4000 + sc.toNat := hw
  have hd := d.isLt
  have ha := a.isLt
  have hsc := sc.isLt
  exact WordClass.assigned_true _ (decide_eq_true (by omega))

theorem instrClass_stlD (d : BitVec 6) (a : BitVec 6) (sc : BitVec 3) : instrClass (.stlD d a sc) = .X := by
  obtain ⟨w, hw⟩ : ∃ w, w = encode (.stlD d a sc) := ⟨_, rfl⟩
  rw [instrClass, ← hw, wordClass_at35 (Decode.shape22 0x35 0x3 w d a sc (by decide) (by decide) hw).1]
  replace hw : w = 0xD4000018 + d.toNat * 0x100000 + a.toNat * 0x4000 + sc.toNat := hw
  have hd := d.isLt
  have ha := a.isLt
  have hsc := sc.isLt
  exact WordClass.assigned_true _ (decide_eq_true (by omega))

theorem instrClass_fence (sc : BitVec 3) : instrClass (.fence sc) = .X := by
  obtain ⟨w, hw⟩ : ∃ w, w = encode (.fence sc) := ⟨_, rfl⟩
  rw [instrClass, ← hw, wordClass_at35 (Decode.shape23 0x35 0x4 w sc (by decide) (by decide) hw).1]
  replace hw : w = 0xD4000020 + sc.toNat := hw
  have hsc := sc.isLt
  exact WordClass.assigned_true _ (decide_eq_true (by omega))

theorem instrClass_wbr (a : BitVec 6) (b : BitVec 6) (sc : BitVec 3) : instrClass (.wbr a b sc) = .X := by
  obtain ⟨w, hw⟩ : ∃ w, w = encode (.wbr a b sc) := ⟨_, rfl⟩
  rw [instrClass, ← hw, wordClass_at35 (Decode.shape24 0x35 0x5 w a b sc (by decide) (by decide) hw).1]
  replace hw : w = 0xD4000028 + a.toNat * 0x4000 + b.toNat * 0x100 + sc.toNat := hw
  have ha := a.isLt
  have hb := b.isLt
  have hsc := sc.isLt
  exact WordClass.assigned_true _ (decide_eq_true (by omega))

theorem instrClass_invr (a : BitVec 6) (b : BitVec 6) (sc : BitVec 3) : instrClass (.invr a b sc) = .X := by
  obtain ⟨w, hw⟩ : ∃ w, w = encode (.invr a b sc) := ⟨_, rfl⟩
  rw [instrClass, ← hw, wordClass_at35 (Decode.shape24 0x35 0x6 w a b sc (by decide) (by decide) hw).1]
  replace hw : w = 0xD4000030 + a.toNat * 0x4000 + b.toNat * 0x100 + sc.toNat := hw
  have ha := a.isLt
  have hb := b.isLt
  have hsc := sc.isLt
  exact WordClass.assigned_true _ (decide_eq_true (by omega))

theorem instrClass_lclk (d : BitVec 6) : instrClass (.lclk d) = .X := by
  obtain ⟨w, hw⟩ : ∃ w, w = encode (.lclk d) := ⟨_, rfl⟩
  rw [instrClass, ← hw, wordClass_at35 (Decode.shape25 0x35 0x7 w d (by decide) (by decide) hw).1]
  replace hw : w = 0xD4000038 + d.toNat * 0x100000 := hw
  have hd := d.isLt
  exact WordClass.assigned_true _ (decide_eq_true (by omega))

theorem instrClass_own (a : BitVec 6) (b : BitVec 6) : instrClass (.own a b) = .X := by
  obtain ⟨w, hw⟩ : ∃ w, w = encode (.own a b) := ⟨_, rfl⟩
  rw [instrClass, ← hw, wordClass_at35 (Decode.shape26 0x35 0x9 w a b (by decide) (by decide) hw).1]
  replace hw : w = 0xD4000048 + a.toNat * 0x4000 + b.toNat * 0x100 := hw
  have ha := a.isLt
  have hb := b.isLt
  exact WordClass.assigned_true _ (decide_eq_true (by omega))

theorem instrClass_mldb (sb : BitVec 6) : instrClass (.mldb sb) = .Mx := by
  obtain ⟨w, hw⟩ : ∃ w, w = encode (.mldb sb) := ⟨_, rfl⟩
  rw [instrClass, ← hw, wordClass_at36 (Decode.shape18 0x36 0x0 w sb (by decide) (by decide) hw).1]
  replace hw : w = 0xD8000000 + sb.toNat * 0x400 := hw
  have hsb := sb.isLt
  rw [show w % 1024 = 0 by omega]
  rfl

theorem instrClass_mmao (d : BitVec 5) (a : BitVec 5) (sb : BitVec 6) : instrClass (.mmao d a sb) = .Mx := by
  obtain ⟨w, hw⟩ : ∃ w, w = encode (.mmao d a sb) := ⟨_, rfl⟩
  rw [instrClass, ← hw, wordClass_at36 (Decode.shape16 0x36 0x1 w d a sb (by decide) (by decide) hw).1]
  replace hw : w = 0xD8000001 + d.toNat * 0x200000 + a.toNat * 0x10000 + sb.toNat * 0x400 := hw
  have hd := d.isLt
  have ha := a.isLt
  have hsb := sb.isLt
  rw [show w % 1024 = 1 by omega]
  rfl

theorem instrClass_mmaf (d : BitVec 5) (a : BitVec 5) (sb : BitVec 6) : instrClass (.mmaf d a sb) = .Mx := by
  obtain ⟨w, hw⟩ : ∃ w, w = encode (.mmaf d a sb) := ⟨_, rfl⟩
  rw [instrClass, ← hw, wordClass_at36 (Decode.shape16 0x36 0x2 w d a sb (by decide) (by decide) hw).1]
  replace hw : w = 0xD8000002 + d.toNat * 0x200000 + a.toNat * 0x10000 + sb.toNat * 0x400 := hw
  have hd := d.isLt
  have ha := a.isLt
  have hsb := sb.isLt
  rw [show w % 1024 = 2 by omega]
  rfl

theorem instrClass_mmas (d : BitVec 5) (a : BitVec 5) (sb : BitVec 6) : instrClass (.mmas d a sb) = .Mx := by
  obtain ⟨w, hw⟩ : ∃ w, w = encode (.mmas d a sb) := ⟨_, rfl⟩
  rw [instrClass, ← hw, wordClass_at36 (Decode.shape16 0x36 0x3 w d a sb (by decide) (by decide) hw).1]
  replace hw : w = 0xD8000003 + d.toNat * 0x200000 + a.toNat * 0x10000 + sb.toNat * 0x400 := hw
  have hd := d.isLt
  have ha := a.isLt
  have hsb := sb.isLt
  rw [show w % 1024 = 3 by omega]
  rfl

theorem instrClass_sldc (sb : BitVec 6) : instrClass (.sldc sb) = .Mx := by
  obtain ⟨w, hw⟩ : ∃ w, w = encode (.sldc sb) := ⟨_, rfl⟩
  rw [instrClass, ← hw, wordClass_at37 (Decode.shape18 0x37 0x1 w sb (by decide) (by decide) hw).1]
  replace hw : w = 0xDC000001 + sb.toNat * 0x400 := hw
  have hsb := sb.isLt
  rw [show w % 1024 = 1 by omega]
  rfl

theorem instrClass_seval (d : BitVec 5) (a : BitVec 5) : instrClass (.seval d a) = .Mx := by
  obtain ⟨w, hw⟩ : ∃ w, w = encode (.seval d a) := ⟨_, rfl⟩
  rw [instrClass, ← hw, wordClass_at37 (Decode.shape27 0x37 0x2 w d a (by decide) (by decide) hw).1]
  replace hw : w = 0xDC000002 + d.toNat * 0x200000 + a.toNat * 0x10000 := hw
  have hd := d.isLt
  have ha := a.isLt
  rw [show w % 1024 = 2 by omega]
  rfl

theorem instrClass_sevald (d : BitVec 5) (a : BitVec 5) : instrClass (.sevald d a) = .Mx := by
  obtain ⟨w, hw⟩ : ∃ w, w = encode (.sevald d a) := ⟨_, rfl⟩
  rw [instrClass, ← hw, wordClass_at37 (Decode.shape27 0x37 0x3 w d a (by decide) (by decide) hw).1]
  replace hw : w = 0xDC000003 + d.toNat * 0x200000 + a.toNat * 0x10000 := hw
  have hd := d.isLt
  have ha := a.isLt
  rw [show w % 1024 = 3 by omega]
  rfl

theorem instrClass_sgrad (d : BitVec 5) (a : BitVec 5) (sb : BitVec 6) : instrClass (.sgrad d a sb) = .Mx := by
  obtain ⟨w, hw⟩ : ∃ w, w = encode (.sgrad d a sb) := ⟨_, rfl⟩
  rw [instrClass, ← hw, wordClass_at37 (Decode.shape16 0x37 0x4 w d a sb (by decide) (by decide) hw).1]
  replace hw : w = 0xDC000004 + d.toNat * 0x200000 + a.toNat * 0x10000 + sb.toNat * 0x400 := hw
  have hd := d.isLt
  have ha := a.isLt
  have hsb := sb.isLt
  rw [show w % 1024 = 4 by omega]
  rfl

theorem instrClass_sref (sb : BitVec 6) : instrClass (.sref sb) = .Mx := by
  obtain ⟨w, hw⟩ : ∃ w, w = encode (.sref sb) := ⟨_, rfl⟩
  rw [instrClass, ← hw, wordClass_at37 (Decode.shape18 0x37 0x5 w sb (by decide) (by decide) hw).1]
  replace hw : w = 0xDC000005 + sb.toNat * 0x400 := hw
  have hsb := sb.isLt
  rw [show w % 1024 = 5 by omega]
  rfl

theorem instrClass_xdec (d : BitVec 5) (sb : BitVec 6) : instrClass (.xdec d sb) = .Tf := by
  obtain ⟨w, hw⟩ : ∃ w, w = encode (.xdec d sb) := ⟨_, rfl⟩
  rw [instrClass, ← hw, wordClass_at38 (Decode.shape17 0x38 0x0 w d sb (by decide) (by decide) hw).1]
  replace hw : w = 0xE0000000 + d.toNat * 0x200000 + sb.toNat * 0x400 := hw
  have hd := d.isLt
  have hsb := sb.isLt
  rw [show w % 1024 = 0 by omega]
  rfl

theorem instrClass_xenc (d : BitVec 5) (x : BitVec 2) (n : BitVec 3) (sb : BitVec 6) : instrClass (.xenc d x n sb) = .Tf := by
  obtain ⟨w, hw⟩ : ∃ w, w = encode (.xenc d x n sb) := ⟨_, rfl⟩
  rw [instrClass, ← hw, wordClass_at38 (Decode.shape28 0x38 0x1 w d x n sb (by decide) (by decide) hw).1]
  replace hw : w = 0xE0000001 + d.toNat * 0x200000 + x.toNat * 0x80000 + n.toNat * 0x10000 + sb.toNat * 0x400 := hw
  have hd := d.isLt
  have hx := x.isLt
  have hn := n.isLt
  have hsb := sb.isLt
  rw [show w % 1024 = 1 by omega]
  rfl

theorem instrClass_flcfg (d : BitVec 6) (a : BitVec 6) (b : BitVec 6) : instrClass (.flcfg d a b) = .X := by
  obtain ⟨w, hw⟩ : ∃ w, w = encode (.flcfg d a b) := ⟨_, rfl⟩
  rw [instrClass, ← hw, wordClass_at39 (Decode.shape0 0x39 0x0 w d a b (by decide) (by decide) hw).1]
  replace hw : w = 0xE4000000 + d.toNat * 0x100000 + a.toNat * 0x4000 + b.toNat * 0x100 := hw
  have hd := d.isLt
  have ha := a.isLt
  have hb := b.isLt
  rw [show w % 256 = 0 by omega]
  rfl

theorem instrClass_fllvl (d : BitVec 6) (a : BitVec 6) (b : BitVec 6) : instrClass (.fllvl d a b) = .X := by
  obtain ⟨w, hw⟩ : ∃ w, w = encode (.fllvl d a b) := ⟨_, rfl⟩
  rw [instrClass, ← hw, wordClass_at39 (Decode.shape0 0x39 0x1 w d a b (by decide) (by decide) hw).1]
  replace hw : w = 0xE4000001 + d.toNat * 0x100000 + a.toNat * 0x4000 + b.toNat * 0x100 := hw
  have hd := d.isLt
  have ha := a.isLt
  have hb := b.isLt
  rw [show w % 256 = 1 by omega]
  rfl

theorem instrClass_flxf (a : BitVec 6) (b : BitVec 6) : instrClass (.flxf a b) = .X := by
  obtain ⟨w, hw⟩ : ∃ w, w = encode (.flxf a b) := ⟨_, rfl⟩
  rw [instrClass, ← hw, wordClass_at39 (Decode.shape8 0x39 0x2 w a b (by decide) (by decide) hw).1]
  replace hw : w = 0xE4000002 + a.toNat * 0x4000 + b.toNat * 0x100 := hw
  have ha := a.isLt
  have hb := b.isLt
  rw [show w % 256 = 2 by omega]
  rfl

theorem instrClass_flblk (a : BitVec 6) (b : BitVec 6) : instrClass (.flblk a b) = .X := by
  obtain ⟨w, hw⟩ : ∃ w, w = encode (.flblk a b) := ⟨_, rfl⟩
  rw [instrClass, ← hw, wordClass_at39 (Decode.shape8 0x39 0x3 w a b (by decide) (by decide) hw).1]
  replace hw : w = 0xE4000003 + a.toNat * 0x4000 + b.toNat * 0x100 := hw
  have ha := a.isLt
  have hb := b.isLt
  rw [show w % 256 = 3 by omega]
  rfl

theorem instrClass_flstart (d : BitVec 6) (a : BitVec 6) (b : BitVec 6) : instrClass (.flstart d a b) = .X := by
  obtain ⟨w, hw⟩ : ∃ w, w = encode (.flstart d a b) := ⟨_, rfl⟩
  rw [instrClass, ← hw, wordClass_at39 (Decode.shape0 0x39 0x4 w d a b (by decide) (by decide) hw).1]
  replace hw : w = 0xE4000004 + d.toNat * 0x100000 + a.toNat * 0x4000 + b.toNat * 0x100 := hw
  have hd := d.isLt
  have ha := a.isLt
  have hb := b.isLt
  rw [show w % 256 = 4 by omega]
  rfl

theorem instrClass_bdef (d : BitVec 6) (a : BitVec 6) (b : BitVec 6) : instrClass (.bdef d a b) = .X := by
  obtain ⟨w, hw⟩ : ∃ w, w = encode (.bdef d a b) := ⟨_, rfl⟩
  rw [instrClass, ← hw, wordClass_at3A (Decode.shape0 0x3a 0x0 w d a b (by decide) (by decide) hw).1]
  replace hw : w = 0xE8000000 + d.toNat * 0x100000 + a.toNat * 0x4000 + b.toNat * 0x100 := hw
  have hd := d.isLt
  have ha := a.isLt
  have hb := b.isLt
  rw [show w % 256 = 0 by omega]
  rfl

theorem instrClass_bget (d : BitVec 6) (a : BitVec 6) (b : BitVec 6) : instrClass (.bget d a b) = .X := by
  obtain ⟨w, hw⟩ : ∃ w, w = encode (.bget d a b) := ⟨_, rfl⟩
  rw [instrClass, ← hw, wordClass_at3A (Decode.shape0 0x3a 0x1 w d a b (by decide) (by decide) hw).1]
  replace hw : w = 0xE8000001 + d.toNat * 0x100000 + a.toNat * 0x4000 + b.toNat * 0x100 := hw
  have hd := d.isLt
  have ha := a.isLt
  have hb := b.isLt
  rw [show w % 256 = 1 by omega]
  rfl

theorem instrClass_bput (a : BitVec 6) (b : BitVec 6) : instrClass (.bput a b) = .X := by
  obtain ⟨w, hw⟩ : ∃ w, w = encode (.bput a b) := ⟨_, rfl⟩
  rw [instrClass, ← hw, wordClass_at3A (Decode.shape8 0x3a 0x2 w a b (by decide) (by decide) hw).1]
  replace hw : w = 0xE8000002 + a.toNat * 0x4000 + b.toNat * 0x100 := hw
  have ha := a.isLt
  have hb := b.isLt
  rw [show w % 256 = 2 by omega]
  rfl

theorem instrClass_cwait (d : BitVec 6) (a : BitVec 6) (b : BitVec 6) : instrClass (.cwait d a b) = .X := by
  obtain ⟨w, hw⟩ : ∃ w, w = encode (.cwait d a b) := ⟨_, rfl⟩
  rw [instrClass, ← hw, wordClass_at3A (Decode.shape0 0x3a 0x8 w d a b (by decide) (by decide) hw).1]
  replace hw : w = 0xE8000008 + d.toNat * 0x100000 + a.toNat * 0x4000 + b.toNat * 0x100 := hw
  have hd := d.isLt
  have ha := a.isLt
  have hb := b.isLt
  rw [show w % 256 = 8 by omega]
  rfl

theorem instrClass_cadd (d : BitVec 6) (a : BitVec 6) (b : BitVec 6) : instrClass (.cadd d a b) = .X := by
  obtain ⟨w, hw⟩ : ∃ w, w = encode (.cadd d a b) := ⟨_, rfl⟩
  rw [instrClass, ← hw, wordClass_at3A (Decode.shape0 0x3a 0x9 w d a b (by decide) (by decide) hw).1]
  replace hw : w = 0xE8000009 + d.toNat * 0x100000 + a.toNat * 0x4000 + b.toNat * 0x100 := hw
  have hd := d.isLt
  have ha := a.isLt
  have hb := b.isLt
  rw [show w % 256 = 9 by omega]
  rfl

theorem instrClass_topen (a : BitVec 6) (b : BitVec 6) : instrClass (.topen a b) = .X := by
  obtain ⟨w, hw⟩ : ∃ w, w = encode (.topen a b) := ⟨_, rfl⟩
  rw [instrClass, ← hw, wordClass_at3B (Decode.shape8 0x3b 0x0 w a b (by decide) (by decide) hw).1]
  replace hw : w = 0xEC000000 + a.toNat * 0x4000 + b.toNat * 0x100 := hw
  have ha := a.isLt
  have hb := b.isLt
  rw [show w % 256 = 0 by omega]
  rfl

theorem instrClass_twalk (d : BitVec 6) (a : BitVec 6) (b : BitVec 6) : instrClass (.twalk d a b) = .X := by
  obtain ⟨w, hw⟩ : ∃ w, w = encode (.twalk d a b) := ⟨_, rfl⟩
  rw [instrClass, ← hw, wordClass_at3B (Decode.shape0 0x3b 0x1 w d a b (by decide) (by decide) hw).1]
  replace hw : w = 0xEC000001 + d.toNat * 0x100000 + a.toNat * 0x4000 + b.toNat * 0x100 := hw
  have hd := d.isLt
  have ha := a.isLt
  have hb := b.isLt
  rw [show w % 256 = 1 by omega]
  rfl

theorem instrClass_tappend (d : BitVec 6) (a : BitVec 6) (b : BitVec 6) : instrClass (.tappend d a b) = .X := by
  obtain ⟨w, hw⟩ : ∃ w, w = encode (.tappend d a b) := ⟨_, rfl⟩
  rw [instrClass, ← hw, wordClass_at3B (Decode.shape0 0x3b 0x2 w d a b (by decide) (by decide) hw).1]
  replace hw : w = 0xEC000002 + d.toNat * 0x100000 + a.toNat * 0x4000 + b.toNat * 0x100 := hw
  have hd := d.isLt
  have ha := a.isLt
  have hb := b.isLt
  rw [show w % 256 = 2 by omega]
  rfl

theorem instrClass_trefit (a : BitVec 6) (b : BitVec 6) : instrClass (.trefit a b) = .X := by
  obtain ⟨w, hw⟩ : ∃ w, w = encode (.trefit a b) := ⟨_, rfl⟩
  rw [instrClass, ← hw, wordClass_at3B (Decode.shape8 0x3b 0x3 w a b (by decide) (by decide) hw).1]
  replace hw : w = 0xEC000003 + a.toNat * 0x4000 + b.toNat * 0x100 := hw
  have ha := a.isLt
  have hb := b.isLt
  rw [show w % 256 = 3 by omega]
  rfl

theorem instrClass_tsumr (d : BitVec 6) (a : BitVec 6) (b : BitVec 6) : instrClass (.tsumr d a b) = .X := by
  obtain ⟨w, hw⟩ : ∃ w, w = encode (.tsumr d a b) := ⟨_, rfl⟩
  rw [instrClass, ← hw, wordClass_at3B (Decode.shape0 0x3b 0x4 w d a b (by decide) (by decide) hw).1]
  replace hw : w = 0xEC000004 + d.toNat * 0x100000 + a.toNat * 0x4000 + b.toNat * 0x100 := hw
  have hd := d.isLt
  have ha := a.isLt
  have hb := b.isLt
  rw [show w % 256 = 4 by omega]
  rfl

theorem instrClass_clstart (a : BitVec 6) : instrClass (.clstart a) = .X := by
  obtain ⟨w, hw⟩ : ∃ w, w = encode (.clstart a) := ⟨_, rfl⟩
  rw [instrClass, ← hw, wordClass_at3C (Decode.shape7 0x3c 0x0 w a (by decide) (by decide) hw).1]
  replace hw : w = 0xF0000000 + a.toNat * 0x4000 := hw
  have ha := a.isLt
  rw [show w % 256 = 0 by omega]
  rfl

theorem instrClass_rfence (a : BitVec 6) : instrClass (.rfence a) = .X := by
  obtain ⟨w, hw⟩ : ∃ w, w = encode (.rfence a) := ⟨_, rfl⟩
  rw [instrClass, ← hw, wordClass_at3C (Decode.shape7 0x3c 0x8 w a (by decide) (by decide) hw).1]
  replace hw : w = 0xF0000008 + a.toNat * 0x4000 := hw
  have ha := a.isLt
  rw [show w % 256 = 8 by omega]
  rfl

theorem instrClass_grp (m : BitVec 4) (v : Bool) (t : BitVec 5) (r : BitVec 3) (p : Bool) (f : Bool) (g : BitVec 2) (l : BitVec 3) : instrClass (.grp m v t r p f g l) = .G := by
  obtain ⟨w, hw⟩ : ∃ w, w = encode (.grp m v t r p f g l) := ⟨_, rfl⟩
  rw [instrClass, ← hw, wordClass_at3E (Decode.shape29 0x3e w m v t r p f g l (by decide) hw).1]

theorem instrClass_pfx (m : BitVec 4) (v : Bool) (r : BitVec 3) (w : Bool) (p : BitVec 2) (q : BitVec 5) (x : Bool) (t : BitVec 5) (y : Bool) : instrClass (.pfx m v r w p q x t y) = .P := by
  obtain ⟨u, hw⟩ : ∃ u, u = encode (.pfx m v r w p q x t y) := ⟨_, rfl⟩
  rw [instrClass, ← hw, wordClass_at3F (Decode.shape30 0x3f u m v r w p q x t y (by decide) hw).1]

theorem instrClass_yield : instrClass .yield = .X := by
  obtain ⟨w, hw⟩ : ∃ w, w = encode .yield := ⟨_, rfl⟩
  rw [instrClass, ← hw, wordClass_at23 (Decode.shape31 0x23 0x0 w (by decide) (by decide) hw).1]
  replace hw : w = 0x8C000000 := hw
  rw [show w % 256 = 0 by omega]
  rfl

theorem instrClass_halt : instrClass .halt = .X := by
  obtain ⟨w, hw⟩ : ∃ w, w = encode .halt := ⟨_, rfl⟩
  rw [instrClass, ← hw, wordClass_at23 (Decode.shape31 0x23 0x2 w (by decide) (by decide) hw).1]
  replace hw : w = 0x8C000002 := hw
  rw [show w % 256 = 2 by omega]
  rfl

theorem instrClass_npbegin : instrClass .npbegin = .X := by
  obtain ⟨w, hw⟩ : ∃ w, w = encode .npbegin := ⟨_, rfl⟩
  rw [instrClass, ← hw, wordClass_at23 (Decode.shape31 0x23 0x4 w (by decide) (by decide) hw).1]
  replace hw : w = 0x8C000004 := hw
  rw [show w % 256 = 4 by omega]
  rfl

theorem instrClass_npend : instrClass .npend = .X := by
  obtain ⟨w, hw⟩ : ∃ w, w = encode .npend := ⟨_, rfl⟩
  rw [instrClass, ← hw, wordClass_at23 (Decode.shape31 0x23 0x5 w (by decide) (by decide) hw).1]
  replace hw : w = 0x8C000005 := hw
  rw [show w % 256 = 5 by omega]
  rfl

theorem instrClass_tret : instrClass .tret = .X := by
  obtain ⟨w, hw⟩ : ∃ w, w = encode .tret := ⟨_, rfl⟩
  rw [instrClass, ← hw, wordClass_at23 (Decode.shape31 0x23 0x10 w (by decide) (by decide) hw).1]
  replace hw : w = 0x8C000010 := hw
  rw [show w % 256 = 16 by omega]
  rfl

theorem instrClass_tlbinvg : instrClass .tlbinvg = .X := by
  obtain ⟨w, hw⟩ : ∃ w, w = encode .tlbinvg := ⟨_, rfl⟩
  rw [instrClass, ← hw, wordClass_at23 (Decode.shape31 0x23 0x15 w (by decide) (by decide) hw).1]
  replace hw : w = 0x8C000015 := hw
  rw [show w % 256 = 21 by omega]
  rfl

theorem instrClass_embage : instrClass .embage = .X := by
  obtain ⟨w, hw⟩ : ∃ w, w = encode .embage := ⟨_, rfl⟩
  rw [instrClass, ← hw, wordClass_at23 (Decode.shape31 0x23 0x17 w (by decide) (by decide) hw).1]
  replace hw : w = 0x8C000017 := hw
  rw [show w % 256 = 23 by omega]
  rfl

theorem instrClass_vjoin : instrClass .vjoin = .X := by
  obtain ⟨w, hw⟩ : ∃ w, w = encode .vjoin := ⟨_, rfl⟩
  rw [instrClass, ← hw, wordClass_at2E (Decode.shape32 0x2e 0x1 w (by decide) (by decide) hw).1]
  replace hw : w = 0xB8000001 := hw
  rw [show w % 1024 = 1 by omega]
  rfl

theorem instrClass_vpend : instrClass .vpend = .X := by
  obtain ⟨w, hw⟩ : ∃ w, w = encode .vpend := ⟨_, rfl⟩
  rw [instrClass, ← hw, wordClass_at2E (Decode.shape32 0x2e 0x3 w (by decide) (by decide) hw).1]
  replace hw : w = 0xB8000003 := hw
  rw [show w % 1024 = 3 by omega]
  rfl

theorem instrClass_bar : instrClass .bar = .X := by
  obtain ⟨w, hw⟩ : ∃ w, w = encode .bar := ⟨_, rfl⟩
  rw [instrClass, ← hw, wordClass_at35 (Decode.shape33 0x35 0x8 w (by decide) (by decide) hw).1]
  replace hw : w = 0xD4000040 := hw
  exact WordClass.assigned_true _ (decide_eq_true (by omega))

theorem instrClass_sknot : instrClass .sknot = .Mx := by
  obtain ⟨w, hw⟩ : ∃ w, w = encode .sknot := ⟨_, rfl⟩
  rw [instrClass, ← hw, wordClass_at37 (Decode.shape32 0x37 0x0 w (by decide) (by decide) hw).1]
  replace hw : w = 0xDC000000 := hw
  rw [show w % 1024 = 0 by omega]
  rfl

end Sys2Proof.Machine
end

