-- ==== Sys2Proof/Laws/Exec.lean ====
section
/-! SUPPORT. One lemma per constructor: which meaning `exec` calls. -/

set_option Elab.async false

namespace Sys2Proof.Machine

open Sys2Proof

theorem exec_add (d : BitVec 6) (a : BitVec 6) (b : BitVec 6) (s : State) : exec (.add d a b) s = Sys2Proof.Machine.execAdd d a b s := rfl
theorem exec_sub (d : BitVec 6) (a : BitVec 6) (b : BitVec 6) (s : State) : exec (.sub d a b) s = Sys2Proof.Machine.execSub d a b s := rfl
theorem exec_and (d : BitVec 6) (a : BitVec 6) (b : BitVec 6) (s : State) : exec (.and d a b) s = Sys2Proof.Machine.execAnd d a b s := rfl
theorem exec_or (d : BitVec 6) (a : BitVec 6) (b : BitVec 6) (s : State) : exec (.or d a b) s = Sys2Proof.Machine.execOr d a b s := rfl
theorem exec_xor (d : BitVec 6) (a : BitVec 6) (b : BitVec 6) (s : State) : exec (.xor d a b) s = Sys2Proof.Machine.execXor d a b s := rfl
theorem exec_andn (d : BitVec 6) (a : BitVec 6) (b : BitVec 6) (s : State) : exec (.andn d a b) s = Sys2Proof.Machine.execAndn d a b s := rfl
theorem exec_sll (d : BitVec 6) (a : BitVec 6) (b : BitVec 6) (s : State) : exec (.sll d a b) s = Sys2Proof.Machine.execSll d a b s := rfl
theorem exec_srl (d : BitVec 6) (a : BitVec 6) (b : BitVec 6) (s : State) : exec (.srl d a b) s = Sys2Proof.Machine.execSrl d a b s := rfl
theorem exec_sra (d : BitVec 6) (a : BitVec 6) (b : BitVec 6) (s : State) : exec (.sra d a b) s = Sys2Proof.Machine.execSra d a b s := rfl
theorem exec_mul (d : BitVec 6) (a : BitVec 6) (b : BitVec 6) (s : State) : exec (.mul d a b) s = Sys2Proof.Machine.execMul d a b s := rfl
theorem exec_mulh (d : BitVec 6) (a : BitVec 6) (b : BitVec 6) (s : State) : exec (.mulh d a b) s = Sys2Proof.Machine.execMulh d a b s := rfl
theorem exec_mulhu (d : BitVec 6) (a : BitVec 6) (b : BitVec 6) (s : State) : exec (.mulhu d a b) s = Sys2Proof.Machine.execMulhu d a b s := rfl
theorem exec_div (d : BitVec 6) (a : BitVec 6) (b : BitVec 6) (s : State) : exec (.div d a b) s = Sys2Proof.Machine.execDiv d a b s := rfl
theorem exec_divu (d : BitVec 6) (a : BitVec 6) (b : BitVec 6) (s : State) : exec (.divu d a b) s = Sys2Proof.Machine.execDivu d a b s := rfl
theorem exec_rem (d : BitVec 6) (a : BitVec 6) (b : BitVec 6) (s : State) : exec (.rem d a b) s = Sys2Proof.Machine.execRem d a b s := rfl
theorem exec_remu (d : BitVec 6) (a : BitVec 6) (b : BitVec 6) (s : State) : exec (.remu d a b) s = Sys2Proof.Machine.execRemu d a b s := rfl
theorem exec_min (d : BitVec 6) (a : BitVec 6) (b : BitVec 6) (s : State) : exec (.min d a b) s = Sys2Proof.Machine.execMin d a b s := rfl
theorem exec_max (d : BitVec 6) (a : BitVec 6) (b : BitVec 6) (s : State) : exec (.max d a b) s = Sys2Proof.Machine.execMax d a b s := rfl
theorem exec_minu (d : BitVec 6) (a : BitVec 6) (b : BitVec 6) (s : State) : exec (.minu d a b) s = Sys2Proof.Machine.execMinu d a b s := rfl
theorem exec_maxu (d : BitVec 6) (a : BitVec 6) (b : BitVec 6) (s : State) : exec (.maxu d a b) s = Sys2Proof.Machine.execMaxu d a b s := rfl
theorem exec_clz (d : BitVec 6) (a : BitVec 6) (s : State) : exec (.clz d a) s = Sys2Proof.Machine.execClz d a s := rfl
theorem exec_ctz (d : BitVec 6) (a : BitVec 6) (s : State) : exec (.ctz d a) s = Sys2Proof.Machine.execCtz d a s := rfl
theorem exec_popc (d : BitVec 6) (a : BitVec 6) (s : State) : exec (.popc d a) s = Sys2Proof.Machine.execPopc d a s := rfl
theorem exec_seq (d : BitVec 6) (a : BitVec 6) (b : BitVec 6) (s : State) : exec (.seq d a b) s = Sys2Proof.Machine.execSeq d a b s := rfl
theorem exec_slt (d : BitVec 6) (a : BitVec 6) (b : BitVec 6) (s : State) : exec (.slt d a b) s = Sys2Proof.Machine.execSlt d a b s := rfl
theorem exec_sltu (d : BitVec 6) (a : BitVec 6) (b : BitVec 6) (s : State) : exec (.sltu d a b) s = Sys2Proof.Machine.execSltu d a b s := rfl
theorem exec_addi (d : BitVec 6) (a : BitVec 6) (im : BitVec 14) (s : State) : exec (.addi d a im) s = Sys2Proof.Machine.execAddi d a im s := rfl
theorem exec_andi (d : BitVec 6) (a : BitVec 6) (im : BitVec 14) (s : State) : exec (.andi d a im) s = Sys2Proof.Machine.execAndi d a im s := rfl
theorem exec_ori (d : BitVec 6) (a : BitVec 6) (im : BitVec 14) (s : State) : exec (.ori d a im) s = Sys2Proof.Machine.execOri d a im s := rfl
theorem exec_xori (d : BitVec 6) (a : BitVec 6) (im : BitVec 14) (s : State) : exec (.xori d a im) s = Sys2Proof.Machine.execXori d a im s := rfl
theorem exec_slti (d : BitVec 6) (a : BitVec 6) (im : BitVec 14) (s : State) : exec (.slti d a im) s = Sys2Proof.Machine.execSlti d a im s := rfl
theorem exec_sltiu (d : BitVec 6) (a : BitVec 6) (im : BitVec 14) (s : State) : exec (.sltiu d a im) s = Sys2Proof.Machine.execSltiu d a im s := rfl
theorem exec_slli (d : BitVec 6) (a : BitVec 6) (n : BitVec 6) (s : State) : exec (.slli d a n) s = Sys2Proof.Machine.execSlli d a n s := rfl
theorem exec_srli (d : BitVec 6) (a : BitVec 6) (n : BitVec 6) (s : State) : exec (.srli d a n) s = Sys2Proof.Machine.execSrli d a n s := rfl
theorem exec_srai (d : BitVec 6) (a : BitVec 6) (n : BitVec 6) (s : State) : exec (.srai d a n) s = Sys2Proof.Machine.execSrai d a n s := rfl
theorem exec_immh (d : BitVec 6) (im : BitVec 20) (s : State) : exec (.immh d im) s = Sys2Proof.Machine.execImmh d im s := rfl
theorem exec_pcrel (d : BitVec 6) (im : BitVec 20) (s : State) : exec (.pcrel d im) s = Sys2Proof.Machine.execPcrel d im s := rfl
theorem exec_beq (a : BitVec 6) (b : BitVec 6) (o : BitVec 14) (s : State) : exec (.beq a b o) s = Sys2Proof.Machine.execBeq a b o s := rfl
theorem exec_bne (a : BitVec 6) (b : BitVec 6) (o : BitVec 14) (s : State) : exec (.bne a b o) s = Sys2Proof.Machine.execBne a b o s := rfl
theorem exec_blt (a : BitVec 6) (b : BitVec 6) (o : BitVec 14) (s : State) : exec (.blt a b o) s = Sys2Proof.Machine.execBlt a b o s := rfl
theorem exec_bge (a : BitVec 6) (b : BitVec 6) (o : BitVec 14) (s : State) : exec (.bge a b o) s = Sys2Proof.Machine.execBge a b o s := rfl
theorem exec_bltu (a : BitVec 6) (b : BitVec 6) (o : BitVec 14) (s : State) : exec (.bltu a b o) s = Sys2Proof.Machine.execBltu a b o s := rfl
theorem exec_bgeu (a : BitVec 6) (b : BitVec 6) (o : BitVec 14) (s : State) : exec (.bgeu a b o) s = Sys2Proof.Machine.execBgeu a b o s := rfl
theorem exec_jlk (d : BitVec 6) (o : BitVec 20) (s : State) : exec (.jlk d o) s = Sys2Proof.Machine.execJlk d o s := rfl
theorem exec_jlkr (d : BitVec 6) (a : BitVec 6) (im : BitVec 14) (s : State) : exec (.jlkr d a im) s = Sys2Proof.Machine.execJlkr d a im s := rfl
theorem exec_lb (d : BitVec 6) (a : BitVec 6) (im : BitVec 14) (s : State) : exec (.lb d a im) s = Sys2Proof.Machine.execLb d a im s := rfl
theorem exec_lbu (d : BitVec 6) (a : BitVec 6) (im : BitVec 14) (s : State) : exec (.lbu d a im) s = Sys2Proof.Machine.execLbu d a im s := rfl
theorem exec_lh (d : BitVec 6) (a : BitVec 6) (im : BitVec 14) (s : State) : exec (.lh d a im) s = Sys2Proof.Machine.execLh d a im s := rfl
theorem exec_lhu (d : BitVec 6) (a : BitVec 6) (im : BitVec 14) (s : State) : exec (.lhu d a im) s = Sys2Proof.Machine.execLhu d a im s := rfl
theorem exec_lw (d : BitVec 6) (a : BitVec 6) (im : BitVec 14) (s : State) : exec (.lw d a im) s = Sys2Proof.Machine.execLw d a im s := rfl
theorem exec_lwu (d : BitVec 6) (a : BitVec 6) (im : BitVec 14) (s : State) : exec (.lwu d a im) s = Sys2Proof.Machine.execLwu d a im s := rfl
theorem exec_ld (d : BitVec 6) (a : BitVec 6) (im : BitVec 14) (s : State) : exec (.ld d a im) s = Sys2Proof.Machine.execLd d a im s := rfl
theorem exec_sb (d : BitVec 6) (a : BitVec 6) (im : BitVec 14) (s : State) : exec (.sb d a im) s = Sys2Proof.Machine.execSb d a im s := rfl
theorem exec_sh (d : BitVec 6) (a : BitVec 6) (im : BitVec 14) (s : State) : exec (.sh d a im) s = Sys2Proof.Machine.execSh d a im s := rfl
theorem exec_sw (d : BitVec 6) (a : BitVec 6) (im : BitVec 14) (s : State) : exec (.sw d a im) s = Sys2Proof.Machine.execSw d a im s := rfl
theorem exec_sd (d : BitVec 6) (a : BitVec 6) (im : BitVec 14) (s : State) : exec (.sd d a im) s = Sys2Proof.Machine.execSd d a im s := rfl
theorem exec_faddS (d : BitVec 6) (a : BitVec 6) (b : BitVec 6) (s : State) : exec (.faddS d a b) s = Sys2Proof.Machine.execFaddS d a b s := rfl
theorem exec_fsubS (d : BitVec 6) (a : BitVec 6) (b : BitVec 6) (s : State) : exec (.fsubS d a b) s = Sys2Proof.Machine.execFsubS d a b s := rfl
theorem exec_fmulS (d : BitVec 6) (a : BitVec 6) (b : BitVec 6) (s : State) : exec (.fmulS d a b) s = Sys2Proof.Machine.execFmulS d a b s := rfl
theorem exec_fdivS (d : BitVec 6) (a : BitVec 6) (b : BitVec 6) (s : State) : exec (.fdivS d a b) s = Sys2Proof.Machine.execFdivS d a b s := rfl
theorem exec_fsqrtS (d : BitVec 6) (a : BitVec 6) (s : State) : exec (.fsqrtS d a) s = Sys2Proof.Machine.execFsqrtS d a s := rfl
theorem exec_fminS (d : BitVec 6) (a : BitVec 6) (b : BitVec 6) (s : State) : exec (.fminS d a b) s = Sys2Proof.Machine.execFminS d a b s := rfl
theorem exec_fmaxS (d : BitVec 6) (a : BitVec 6) (b : BitVec 6) (s : State) : exec (.fmaxS d a b) s = Sys2Proof.Machine.execFmaxS d a b s := rfl
theorem exec_ffmaS (d : BitVec 6) (a : BitVec 6) (b : BitVec 6) (s : State) : exec (.ffmaS d a b) s = Sys2Proof.Machine.execFfmaS d a b s := rfl
theorem exec_fceqS (d : BitVec 6) (a : BitVec 6) (b : BitVec 6) (s : State) : exec (.fceqS d a b) s = Sys2Proof.Machine.execFceqS d a b s := rfl
theorem exec_fcltS (d : BitVec 6) (a : BitVec 6) (b : BitVec 6) (s : State) : exec (.fcltS d a b) s = Sys2Proof.Machine.execFcltS d a b s := rfl
theorem exec_fcleS (d : BitVec 6) (a : BitVec 6) (b : BitVec 6) (s : State) : exec (.fcleS d a b) s = Sys2Proof.Machine.execFcleS d a b s := rfl
theorem exec_ftoiS (d : BitVec 6) (a : BitVec 6) (s : State) : exec (.ftoiS d a) s = Sys2Proof.Machine.execFtoiS d a s := rfl
theorem exec_itofS (d : BitVec 6) (a : BitVec 6) (s : State) : exec (.itofS d a) s = Sys2Proof.Machine.execItofS d a s := rfl
theorem exec_faddD (d : BitVec 6) (a : BitVec 6) (b : BitVec 6) (s : State) : exec (.faddD d a b) s = Sys2Proof.Machine.execFaddD d a b s := rfl
theorem exec_fsubD (d : BitVec 6) (a : BitVec 6) (b : BitVec 6) (s : State) : exec (.fsubD d a b) s = Sys2Proof.Machine.execFsubD d a b s := rfl
theorem exec_fmulD (d : BitVec 6) (a : BitVec 6) (b : BitVec 6) (s : State) : exec (.fmulD d a b) s = Sys2Proof.Machine.execFmulD d a b s := rfl
theorem exec_fdivD (d : BitVec 6) (a : BitVec 6) (b : BitVec 6) (s : State) : exec (.fdivD d a b) s = Sys2Proof.Machine.execFdivD d a b s := rfl
theorem exec_fsqrtD (d : BitVec 6) (a : BitVec 6) (s : State) : exec (.fsqrtD d a) s = Sys2Proof.Machine.execFsqrtD d a s := rfl
theorem exec_fminD (d : BitVec 6) (a : BitVec 6) (b : BitVec 6) (s : State) : exec (.fminD d a b) s = Sys2Proof.Machine.execFminD d a b s := rfl
theorem exec_fmaxD (d : BitVec 6) (a : BitVec 6) (b : BitVec 6) (s : State) : exec (.fmaxD d a b) s = Sys2Proof.Machine.execFmaxD d a b s := rfl
theorem exec_ffmaD (d : BitVec 6) (a : BitVec 6) (b : BitVec 6) (s : State) : exec (.ffmaD d a b) s = Sys2Proof.Machine.execFfmaD d a b s := rfl
theorem exec_fceqD (d : BitVec 6) (a : BitVec 6) (b : BitVec 6) (s : State) : exec (.fceqD d a b) s = Sys2Proof.Machine.execFceqD d a b s := rfl
theorem exec_fcltD (d : BitVec 6) (a : BitVec 6) (b : BitVec 6) (s : State) : exec (.fcltD d a b) s = Sys2Proof.Machine.execFcltD d a b s := rfl
theorem exec_fcleD (d : BitVec 6) (a : BitVec 6) (b : BitVec 6) (s : State) : exec (.fcleD d a b) s = Sys2Proof.Machine.execFcleD d a b s := rfl
theorem exec_ftoiD (d : BitVec 6) (a : BitVec 6) (s : State) : exec (.ftoiD d a) s = Sys2Proof.Machine.execFtoiD d a s := rfl
theorem exec_itofD (d : BitVec 6) (a : BitVec 6) (s : State) : exec (.itofD d a) s = Sys2Proof.Machine.execItofD d a s := rfl
theorem exec_fnrw (d : BitVec 6) (a : BitVec 6) (s : State) : exec (.fnrw d a) s = Sys2Proof.Machine.execFnrw d a s := rfl
theorem exec_fwdn (d : BitVec 6) (a : BitVec 6) (s : State) : exec (.fwdn d a) s = Sys2Proof.Machine.execFwdn d a s := rfl
theorem exec_rdc (d : BitVec 6) (c : BitVec 12) (s : State) : exec (.rdc d c) s = Sys2Proof.Machine.execRdc d c s := rfl
theorem exec_wrc (a : BitVec 6) (c : BitVec 12) (s : State) : exec (.wrc a c) s = Sys2Proof.Machine.execWrc a c s := rfl
theorem exec_trap (im : BitVec 14) (s : State) : exec (.trap im) s = Sys2Proof.Machine.execTrap im s := rfl
theorem exec_waitev (d : BitVec 6) (a : BitVec 6) (b : BitVec 6) (s : State) : exec (.waitev d a b) s = Sys2Proof.Machine.execWaitev d a b s := rfl
theorem exec_launch (a : BitVec 6) (s : State) : exec (.launch a) s = Sys2Proof.Machine.execLaunch a s := rfl
theorem exec_csave (a : BitVec 6) (b : BitVec 6) (s : State) : exec (.csave a b) s = Sys2Proof.Machine.execCsave a b s := rfl
theorem exec_crestore (a : BitVec 6) (b : BitVec 6) (s : State) : exec (.crestore a b) s = Sys2Proof.Machine.execCrestore a b s := rfl
theorem exec_tlbinv (a : BitVec 6) (b : BitVec 6) (s : State) : exec (.tlbinv a b) s = Sys2Proof.Machine.execTlbinv a b s := rfl
theorem exec_tlbinva (a : BitVec 6) (s : State) : exec (.tlbinva a) s = Sys2Proof.Machine.execTlbinva a s := rfl
theorem exec_embrd (d : BitVec 6) (a : BitVec 6) (b : BitVec 6) (s : State) : exec (.embrd d a b) s = Sys2Proof.Machine.execEmbrd d a b s := rfl
theorem exec_rlogctl (a : BitVec 6) (s : State) : exec (.rlogctl a) s = Sys2Proof.Machine.execRlogctl a s := rfl
theorem exec_claim (d : BitVec 6) (a : BitVec 6) (s : State) : exec (.claim d a) s = Sys2Proof.Machine.execClaim d a s := rfl
theorem exec_spclaim (d : BitVec 6) (a : BitVec 6) (s : State) : exec (.spclaim d a) s = Sys2Proof.Machine.execSpclaim d a s := rfl
theorem exec_spqry (d : BitVec 6) (s : State) : exec (.spqry d) s = Sys2Proof.Machine.execSpqry d s := rfl
theorem exec_setl4 (d : BitVec 6) (a : BitVec 6) (b : BitVec 6) (s : State) : exec (.setl4 d a b) s = Sys2Proof.Machine.execSetl4 d a b s := rfl
theorem exec_setl8 (d : BitVec 6) (a : BitVec 6) (b : BitVec 6) (s : State) : exec (.setl8 d a b) s = Sys2Proof.Machine.execSetl8 d a b s := rfl
theorem exec_setl16 (d : BitVec 6) (a : BitVec 6) (b : BitVec 6) (s : State) : exec (.setl16 d a b) s = Sys2Proof.Machine.execSetl16 d a b s := rfl
theorem exec_setl32 (d : BitVec 6) (a : BitVec 6) (b : BitVec 6) (s : State) : exec (.setl32 d a b) s = Sys2Proof.Machine.execSetl32 d a b s := rfl
theorem exec_setl64 (d : BitVec 6) (a : BitVec 6) (b : BitVec 6) (s : State) : exec (.setl64 d a b) s = Sys2Proof.Machine.execSetl64 d a b s := rfl
theorem exec_vadd (d : BitVec 5) (a : BitVec 5) (b : BitVec 5) (s : State) : exec (.vadd d a b) s = Sys2Proof.Machine.execVadd d a b s := rfl
theorem exec_vsub (d : BitVec 5) (a : BitVec 5) (b : BitVec 5) (s : State) : exec (.vsub d a b) s = Sys2Proof.Machine.execVsub d a b s := rfl
theorem exec_vmul (d : BitVec 5) (a : BitVec 5) (b : BitVec 5) (s : State) : exec (.vmul d a b) s = Sys2Proof.Machine.execVmul d a b s := rfl
theorem exec_vmulh (d : BitVec 5) (a : BitVec 5) (b : BitVec 5) (s : State) : exec (.vmulh d a b) s = Sys2Proof.Machine.execVmulh d a b s := rfl
theorem exec_vmin (d : BitVec 5) (a : BitVec 5) (b : BitVec 5) (s : State) : exec (.vmin d a b) s = Sys2Proof.Machine.execVmin d a b s := rfl
theorem exec_vmax (d : BitVec 5) (a : BitVec 5) (b : BitVec 5) (s : State) : exec (.vmax d a b) s = Sys2Proof.Machine.execVmax d a b s := rfl
theorem exec_vminu (d : BitVec 5) (a : BitVec 5) (b : BitVec 5) (s : State) : exec (.vminu d a b) s = Sys2Proof.Machine.execVminu d a b s := rfl
theorem exec_vmaxu (d : BitVec 5) (a : BitVec 5) (b : BitVec 5) (s : State) : exec (.vmaxu d a b) s = Sys2Proof.Machine.execVmaxu d a b s := rfl
theorem exec_vand (d : BitVec 5) (a : BitVec 5) (b : BitVec 5) (s : State) : exec (.vand d a b) s = Sys2Proof.Machine.execVand d a b s := rfl
theorem exec_vor (d : BitVec 5) (a : BitVec 5) (b : BitVec 5) (s : State) : exec (.vor d a b) s = Sys2Proof.Machine.execVor d a b s := rfl
theorem exec_vxor (d : BitVec 5) (a : BitVec 5) (b : BitVec 5) (s : State) : exec (.vxor d a b) s = Sys2Proof.Machine.execVxor d a b s := rfl
theorem exec_vsll (d : BitVec 5) (a : BitVec 5) (b : BitVec 5) (s : State) : exec (.vsll d a b) s = Sys2Proof.Machine.execVsll d a b s := rfl
theorem exec_vsrl (d : BitVec 5) (a : BitVec 5) (b : BitVec 5) (s : State) : exec (.vsrl d a b) s = Sys2Proof.Machine.execVsrl d a b s := rfl
theorem exec_vsra (d : BitVec 5) (a : BitVec 5) (b : BitVec 5) (s : State) : exec (.vsra d a b) s = Sys2Proof.Machine.execVsra d a b s := rfl
theorem exec_vabs (d : BitVec 5) (a : BitVec 5) (s : State) : exec (.vabs d a) s = Sys2Proof.Machine.execVabs d a s := rfl
theorem exec_vneg (d : BitVec 5) (a : BitVec 5) (s : State) : exec (.vneg d a) s = Sys2Proof.Machine.execVneg d a s := rfl
theorem exec_vadds (d : BitVec 5) (a : BitVec 5) (b : BitVec 5) (s : State) : exec (.vadds d a b) s = Sys2Proof.Machine.execVadds d a b s := rfl
theorem exec_vsubs (d : BitVec 5) (a : BitVec 5) (b : BitVec 5) (s : State) : exec (.vsubs d a b) s = Sys2Proof.Machine.execVsubs d a b s := rfl
theorem exec_vsel (d : BitVec 5) (a : BitVec 5) (b : BitVec 5) (s : State) : exec (.vsel d a b) s = Sys2Proof.Machine.execVsel d a b s := rfl
theorem exec_vmov (d : BitVec 5) (a : BitVec 5) (s : State) : exec (.vmov d a) s = Sys2Proof.Machine.execVmov d a s := rfl
theorem exec_vfadd (d : BitVec 5) (a : BitVec 5) (b : BitVec 5) (s : State) : exec (.vfadd d a b) s = Sys2Proof.Machine.execVfadd d a b s := rfl
theorem exec_vfsub (d : BitVec 5) (a : BitVec 5) (b : BitVec 5) (s : State) : exec (.vfsub d a b) s = Sys2Proof.Machine.execVfsub d a b s := rfl
theorem exec_vfmul (d : BitVec 5) (a : BitVec 5) (b : BitVec 5) (s : State) : exec (.vfmul d a b) s = Sys2Proof.Machine.execVfmul d a b s := rfl
theorem exec_vfmin (d : BitVec 5) (a : BitVec 5) (b : BitVec 5) (s : State) : exec (.vfmin d a b) s = Sys2Proof.Machine.execVfmin d a b s := rfl
theorem exec_vfmax (d : BitVec 5) (a : BitVec 5) (b : BitVec 5) (s : State) : exec (.vfmax d a b) s = Sys2Proof.Machine.execVfmax d a b s := rfl
theorem exec_vfabs (d : BitVec 5) (a : BitVec 5) (s : State) : exec (.vfabs d a) s = Sys2Proof.Machine.execVfabs d a s := rfl
theorem exec_vfneg (d : BitVec 5) (a : BitVec 5) (s : State) : exec (.vfneg d a) s = Sys2Proof.Machine.execVfneg d a s := rfl
theorem exec_vfma (d : BitVec 5) (a : BitVec 5) (b : BitVec 5) (s : State) : exec (.vfma d a b) s = Sys2Proof.Machine.execVfma d a b s := rfl
theorem exec_vfms (d : BitVec 5) (a : BitVec 5) (b : BitVec 5) (s : State) : exec (.vfms d a b) s = Sys2Proof.Machine.execVfms d a b s := rfl
theorem exec_vfnma (d : BitVec 5) (a : BitVec 5) (b : BitVec 5) (s : State) : exec (.vfnma d a b) s = Sys2Proof.Machine.execVfnma d a b s := rfl
theorem exec_vfnms (d : BitVec 5) (a : BitVec 5) (b : BitVec 5) (s : State) : exec (.vfnms d a b) s = Sys2Proof.Machine.execVfnms d a b s := rfl
theorem exec_vdiv (d : BitVec 5) (a : BitVec 5) (b : BitVec 5) (s : State) : exec (.vdiv d a b) s = Sys2Proof.Machine.execVdiv d a b s := rfl
theorem exec_vsqrt (d : BitVec 5) (a : BitVec 5) (s : State) : exec (.vsqrt d a) s = Sys2Proof.Machine.execVsqrt d a s := rfl
theorem exec_vrcps (d : BitVec 5) (a : BitVec 5) (s : State) : exec (.vrcps d a) s = Sys2Proof.Machine.execVrcps d a s := rfl
theorem exec_vrsqs (d : BitVec 5) (a : BitVec 5) (s : State) : exec (.vrsqs d a) s = Sys2Proof.Machine.execVrsqs d a s := rfl
theorem exec_vceq (m : BitVec 4) (a : BitVec 5) (b : BitVec 5) (s : State) : exec (.vceq m a b) s = Sys2Proof.Machine.execVceq m a b s := rfl
theorem exec_vcne (m : BitVec 4) (a : BitVec 5) (b : BitVec 5) (s : State) : exec (.vcne m a b) s = Sys2Proof.Machine.execVcne m a b s := rfl
theorem exec_vclt (m : BitVec 4) (a : BitVec 5) (b : BitVec 5) (s : State) : exec (.vclt m a b) s = Sys2Proof.Machine.execVclt m a b s := rfl
theorem exec_vcle (m : BitVec 4) (a : BitVec 5) (b : BitVec 5) (s : State) : exec (.vcle m a b) s = Sys2Proof.Machine.execVcle m a b s := rfl
theorem exec_vcltu (m : BitVec 4) (a : BitVec 5) (b : BitVec 5) (s : State) : exec (.vcltu m a b) s = Sys2Proof.Machine.execVcltu m a b s := rfl
theorem exec_vcleu (m : BitVec 4) (a : BitVec 5) (b : BitVec 5) (s : State) : exec (.vcleu m a b) s = Sys2Proof.Machine.execVcleu m a b s := rfl
theorem exec_vcun (m : BitVec 4) (a : BitVec 5) (b : BitVec 5) (s : State) : exec (.vcun m a b) s = Sys2Proof.Machine.execVcun m a b s := rfl
theorem exec_mand (d : BitVec 4) (a : BitVec 4) (b : BitVec 4) (s : State) : exec (.mand d a b) s = Sys2Proof.Machine.execMand d a b s := rfl
theorem exec_mor (d : BitVec 4) (a : BitVec 4) (b : BitVec 4) (s : State) : exec (.mor d a b) s = Sys2Proof.Machine.execMor d a b s := rfl
theorem exec_mxor (d : BitVec 4) (a : BitVec 4) (b : BitVec 4) (s : State) : exec (.mxor d a b) s = Sys2Proof.Machine.execMxor d a b s := rfl
theorem exec_mandn (d : BitVec 4) (a : BitVec 4) (b : BitVec 4) (s : State) : exec (.mandn d a b) s = Sys2Proof.Machine.execMandn d a b s := rfl
theorem exec_mnot (d : BitVec 4) (a : BitVec 4) (s : State) : exec (.mnot d a) s = Sys2Proof.Machine.execMnot d a s := rfl
theorem exec_mmov (d : BitVec 4) (a : BitVec 4) (s : State) : exec (.mmov d a) s = Sys2Proof.Machine.execMmov d a s := rfl
theorem exec_mfirst (d : BitVec 4) (a : BitVec 4) (s : State) : exec (.mfirst d a) s = Sys2Proof.Machine.execMfirst d a s := rfl
theorem exec_vcvt (d : BitVec 5) (a : BitVec 5) (t : BitVec 5) (s : State) : exec (.vcvt d a t) s = Sys2Proof.Machine.execVcvt d a t s := rfl
theorem exec_vcvts (d : BitVec 5) (a : BitVec 5) (t : BitVec 5) (s : State) : exec (.vcvts d a t) s = Sys2Proof.Machine.execVcvts d a t s := rfl
theorem exec_vredo (d : BitVec 5) (a : BitVec 5) (b : BitVec 5) (s : State) : exec (.vredo d a b) s = Sys2Proof.Machine.execVredo d a b s := rfl
theorem exec_vredt (d : BitVec 5) (a : BitVec 5) (b : BitVec 5) (s : State) : exec (.vredt d a b) s = Sys2Proof.Machine.execVredt d a b s := rfl
theorem exec_vredmin (d : BitVec 5) (a : BitVec 5) (b : BitVec 5) (s : State) : exec (.vredmin d a b) s = Sys2Proof.Machine.execVredmin d a b s := rfl
theorem exec_vredmax (d : BitVec 5) (a : BitVec 5) (b : BitVec 5) (s : State) : exec (.vredmax d a b) s = Sys2Proof.Machine.execVredmax d a b s := rfl
theorem exec_vscan (d : BitVec 5) (a : BitVec 5) (b : BitVec 5) (s : State) : exec (.vscan d a b) s = Sys2Proof.Machine.execVscan d a b s := rfl
theorem exec_vscanx (d : BitVec 5) (a : BitVec 5) (b : BitVec 5) (s : State) : exec (.vscanx d a b) s = Sys2Proof.Machine.execVscanx d a b s := rfl
theorem exec_vperm (d : BitVec 5) (a : BitVec 5) (b : BitVec 5) (s : State) : exec (.vperm d a b) s = Sys2Proof.Machine.execVperm d a b s := rfl
theorem exec_vcomp (d : BitVec 5) (a : BitVec 5) (s : State) : exec (.vcomp d a) s = Sys2Proof.Machine.execVcomp d a s := rfl
theorem exec_vexpd (d : BitVec 5) (a : BitVec 5) (s : State) : exec (.vexpd d a) s = Sys2Proof.Machine.execVexpd d a s := rfl
theorem exec_vslup (d : BitVec 5) (a : BitVec 5) (sb : BitVec 6) (s : State) : exec (.vslup d a sb) s = Sys2Proof.Machine.execVslup d a sb s := rfl
theorem exec_vsldn (d : BitVec 5) (a : BitVec 5) (sb : BitVec 6) (s : State) : exec (.vsldn d a sb) s = Sys2Proof.Machine.execVsldn d a sb s := rfl
theorem exec_vxchg (d : BitVec 5) (a : BitVec 5) (sb : BitVec 6) (s : State) : exec (.vxchg d a sb) s = Sys2Proof.Machine.execVxchg d a sb s := rfl
theorem exec_vbcast (d : BitVec 5) (sb : BitVec 6) (s : State) : exec (.vbcast d sb) s = Sys2Proof.Machine.execVbcast d sb s := rfl
theorem exec_viota (d : BitVec 5) (sb : BitVec 6) (s : State) : exec (.viota d sb) s = Sys2Proof.Machine.execViota d sb s := rfl
theorem exec_vrng (d : BitVec 5) (sb : BitVec 6) (s : State) : exec (.vrng d sb) s = Sys2Proof.Machine.execVrng d sb s := rfl
theorem exec_vfetch (sb : BitVec 6) (s : State) : exec (.vfetch sb) s = Sys2Proof.Machine.execVfetch sb s := rfl
theorem exec_vnext (m : BitVec 4) (sb : BitVec 6) (s : State) : exec (.vnext m sb) s = Sys2Proof.Machine.execVnext m sb s := rfl
theorem exec_vld (d : BitVec 5) (a : BitVec 6) (b : BitVec 6) (h : BitVec 3) (s : State) : exec (.vld d a b h) s = Sys2Proof.Machine.execVld d a b h s := rfl
theorem exec_vlds (d : BitVec 5) (a : BitVec 6) (b : BitVec 6) (h : BitVec 3) (s : State) : exec (.vlds d a b h) s = Sys2Proof.Machine.execVlds d a b h s := rfl
theorem exec_vst (d : BitVec 5) (a : BitVec 6) (b : BitVec 6) (h : BitVec 3) (s : State) : exec (.vst d a b h) s = Sys2Proof.Machine.execVst d a b h s := rfl
theorem exec_vsts (d : BitVec 5) (a : BitVec 6) (b : BitVec 6) (h : BitVec 3) (s : State) : exec (.vsts d a b h) s = Sys2Proof.Machine.execVsts d a b h s := rfl
theorem exec_vldc (d : BitVec 5) (a : BitVec 6) (b : BitVec 6) (h : BitVec 3) (s : State) : exec (.vldc d a b h) s = Sys2Proof.Machine.execVldc d a b h s := rfl
theorem exec_vstc (d : BitVec 5) (a : BitVec 6) (b : BitVec 6) (h : BitVec 3) (s : State) : exec (.vstc d a b h) s = Sys2Proof.Machine.execVstc d a b h s := rfl
theorem exec_vgath (d : BitVec 5) (a : BitVec 5) (sb : BitVec 6) (s : State) : exec (.vgath d a sb) s = Sys2Proof.Machine.execVgath d a sb s := rfl
theorem exec_vscat (d : BitVec 5) (a : BitVec 5) (sb : BitVec 6) (s : State) : exec (.vscat d a sb) s = Sys2Proof.Machine.execVscat d a sb s := rfl
theorem exec_vscadd (d : BitVec 5) (a : BitVec 5) (sb : BitVec 6) (s : State) : exec (.vscadd d a sb) s = Sys2Proof.Machine.execVscadd d a sb s := rfl
theorem exec_vldb (d : BitVec 5) (a : BitVec 6) (b : BitVec 6) (h : BitVec 3) (s : State) : exec (.vldb d a b h) s = Sys2Proof.Machine.execVldb d a b h s := rfl
theorem exec_vstb (d : BitVec 5) (a : BitVec 6) (b : BitVec 6) (h : BitVec 3) (s : State) : exec (.vstb d a b h) s = Sys2Proof.Machine.execVstb d a b h s := rfl
theorem exec_vldz (d : BitVec 5) (a : BitVec 6) (b : BitVec 6) (h : BitVec 3) (s : State) : exec (.vldz d a b h) s = Sys2Proof.Machine.execVldz d a b h s := rfl
theorem exec_amoaddW (d : BitVec 6) (a : BitVec 6) (b : BitVec 6) (c : Bool) (r : Bool) (sc : BitVec 3) (s : State) : exec (.amoaddW d a b c r sc) s = Sys2Proof.Machine.execAmoaddW d a b c r sc s := rfl
theorem exec_amoswapW (d : BitVec 6) (a : BitVec 6) (b : BitVec 6) (c : Bool) (r : Bool) (sc : BitVec 3) (s : State) : exec (.amoswapW d a b c r sc) s = Sys2Proof.Machine.execAmoswapW d a b c r sc s := rfl
theorem exec_amoandW (d : BitVec 6) (a : BitVec 6) (b : BitVec 6) (c : Bool) (r : Bool) (sc : BitVec 3) (s : State) : exec (.amoandW d a b c r sc) s = Sys2Proof.Machine.execAmoandW d a b c r sc s := rfl
theorem exec_amoorW (d : BitVec 6) (a : BitVec 6) (b : BitVec 6) (c : Bool) (r : Bool) (sc : BitVec 3) (s : State) : exec (.amoorW d a b c r sc) s = Sys2Proof.Machine.execAmoorW d a b c r sc s := rfl
theorem exec_amoxorW (d : BitVec 6) (a : BitVec 6) (b : BitVec 6) (c : Bool) (r : Bool) (sc : BitVec 3) (s : State) : exec (.amoxorW d a b c r sc) s = Sys2Proof.Machine.execAmoxorW d a b c r sc s := rfl
theorem exec_amominW (d : BitVec 6) (a : BitVec 6) (b : BitVec 6) (c : Bool) (r : Bool) (sc : BitVec 3) (s : State) : exec (.amominW d a b c r sc) s = Sys2Proof.Machine.execAmominW d a b c r sc s := rfl
theorem exec_amomaxW (d : BitVec 6) (a : BitVec 6) (b : BitVec 6) (c : Bool) (r : Bool) (sc : BitVec 3) (s : State) : exec (.amomaxW d a b c r sc) s = Sys2Proof.Machine.execAmomaxW d a b c r sc s := rfl
theorem exec_amocasW (d : BitVec 6) (a : BitVec 6) (b : BitVec 6) (c : Bool) (r : Bool) (sc : BitVec 3) (s : State) : exec (.amocasW d a b c r sc) s = Sys2Proof.Machine.execAmocasW d a b c r sc s := rfl
theorem exec_amoaddD (d : BitVec 6) (a : BitVec 6) (b : BitVec 6) (c : Bool) (r : Bool) (sc : BitVec 3) (s : State) : exec (.amoaddD d a b c r sc) s = Sys2Proof.Machine.execAmoaddD d a b c r sc s := rfl
theorem exec_amoswapD (d : BitVec 6) (a : BitVec 6) (b : BitVec 6) (c : Bool) (r : Bool) (sc : BitVec 3) (s : State) : exec (.amoswapD d a b c r sc) s = Sys2Proof.Machine.execAmoswapD d a b c r sc s := rfl
theorem exec_amoandD (d : BitVec 6) (a : BitVec 6) (b : BitVec 6) (c : Bool) (r : Bool) (sc : BitVec 3) (s : State) : exec (.amoandD d a b c r sc) s = Sys2Proof.Machine.execAmoandD d a b c r sc s := rfl
theorem exec_amoorD (d : BitVec 6) (a : BitVec 6) (b : BitVec 6) (c : Bool) (r : Bool) (sc : BitVec 3) (s : State) : exec (.amoorD d a b c r sc) s = Sys2Proof.Machine.execAmoorD d a b c r sc s := rfl
theorem exec_amoxorD (d : BitVec 6) (a : BitVec 6) (b : BitVec 6) (c : Bool) (r : Bool) (sc : BitVec 3) (s : State) : exec (.amoxorD d a b c r sc) s = Sys2Proof.Machine.execAmoxorD d a b c r sc s := rfl
theorem exec_amominD (d : BitVec 6) (a : BitVec 6) (b : BitVec 6) (c : Bool) (r : Bool) (sc : BitVec 3) (s : State) : exec (.amominD d a b c r sc) s = Sys2Proof.Machine.execAmominD d a b c r sc s := rfl
theorem exec_amomaxD (d : BitVec 6) (a : BitVec 6) (b : BitVec 6) (c : Bool) (r : Bool) (sc : BitVec 3) (s : State) : exec (.amomaxD d a b c r sc) s = Sys2Proof.Machine.execAmomaxD d a b c r sc s := rfl
theorem exec_amocasD (d : BitVec 6) (a : BitVec 6) (b : BitVec 6) (c : Bool) (r : Bool) (sc : BitVec 3) (s : State) : exec (.amocasD d a b c r sc) s = Sys2Proof.Machine.execAmocasD d a b c r sc s := rfl
theorem exec_ldaW (d : BitVec 6) (a : BitVec 6) (sc : BitVec 3) (s : State) : exec (.ldaW d a sc) s = Sys2Proof.Machine.execLdaW d a sc s := rfl
theorem exec_ldaD (d : BitVec 6) (a : BitVec 6) (sc : BitVec 3) (s : State) : exec (.ldaD d a sc) s = Sys2Proof.Machine.execLdaD d a sc s := rfl
theorem exec_stlW (d : BitVec 6) (a : BitVec 6) (sc : BitVec 3) (s : State) : exec (.stlW d a sc) s = Sys2Proof.Machine.execStlW d a sc s := rfl
theorem exec_stlD (d : BitVec 6) (a : BitVec 6) (sc : BitVec 3) (s : State) : exec (.stlD d a sc) s = Sys2Proof.Machine.execStlD d a sc s := rfl
theorem exec_fence (sc : BitVec 3) (s : State) : exec (.fence sc) s = Sys2Proof.Machine.execFence sc s := rfl
theorem exec_wbr (a : BitVec 6) (b : BitVec 6) (sc : BitVec 3) (s : State) : exec (.wbr a b sc) s = Sys2Proof.Machine.execWbr a b sc s := rfl
theorem exec_invr (a : BitVec 6) (b : BitVec 6) (sc : BitVec 3) (s : State) : exec (.invr a b sc) s = Sys2Proof.Machine.execInvr a b sc s := rfl
theorem exec_lclk (d : BitVec 6) (s : State) : exec (.lclk d) s = Sys2Proof.Machine.execLclk d s := rfl
theorem exec_own (a : BitVec 6) (b : BitVec 6) (s : State) : exec (.own a b) s = Sys2Proof.Machine.execOwn a b s := rfl
theorem exec_mldb (sb : BitVec 6) (s : State) : exec (.mldb sb) s = Sys2Proof.Machine.execMldb sb s := rfl
theorem exec_mmao (d : BitVec 5) (a : BitVec 5) (sb : BitVec 6) (s : State) : exec (.mmao d a sb) s = Sys2Proof.Machine.execMmao d a sb s := rfl
theorem exec_mmaf (d : BitVec 5) (a : BitVec 5) (sb : BitVec 6) (s : State) : exec (.mmaf d a sb) s = Sys2Proof.Machine.execMmaf d a sb s := rfl
theorem exec_mmas (d : BitVec 5) (a : BitVec 5) (sb : BitVec 6) (s : State) : exec (.mmas d a sb) s = Sys2Proof.Machine.execMmas d a sb s := rfl
theorem exec_sldc (sb : BitVec 6) (s : State) : exec (.sldc sb) s = Sys2Proof.Machine.execSldc sb s := rfl
theorem exec_seval (d : BitVec 5) (a : BitVec 5) (s : State) : exec (.seval d a) s = Sys2Proof.Machine.execSeval d a s := rfl
theorem exec_sevald (d : BitVec 5) (a : BitVec 5) (s : State) : exec (.sevald d a) s = Sys2Proof.Machine.execSevald d a s := rfl
theorem exec_sgrad (d : BitVec 5) (a : BitVec 5) (sb : BitVec 6) (s : State) : exec (.sgrad d a sb) s = Sys2Proof.Machine.execSgrad d a sb s := rfl
theorem exec_sref (sb : BitVec 6) (s : State) : exec (.sref sb) s = Sys2Proof.Machine.execSref sb s := rfl
theorem exec_xdec (d : BitVec 5) (sb : BitVec 6) (s : State) : exec (.xdec d sb) s = Sys2Proof.Machine.execXdec d sb s := rfl
theorem exec_xenc (d : BitVec 5) (x : BitVec 2) (n : BitVec 3) (sb : BitVec 6) (s : State) : exec (.xenc d x n sb) s = Sys2Proof.Machine.execXenc d x n sb s := rfl
theorem exec_flcfg (d : BitVec 6) (a : BitVec 6) (b : BitVec 6) (s : State) : exec (.flcfg d a b) s = Sys2Proof.Machine.execFlcfg d a b s := rfl
theorem exec_fllvl (d : BitVec 6) (a : BitVec 6) (b : BitVec 6) (s : State) : exec (.fllvl d a b) s = Sys2Proof.Machine.execFllvl d a b s := rfl
theorem exec_flxf (a : BitVec 6) (b : BitVec 6) (s : State) : exec (.flxf a b) s = Sys2Proof.Machine.execFlxf a b s := rfl
theorem exec_flblk (a : BitVec 6) (b : BitVec 6) (s : State) : exec (.flblk a b) s = Sys2Proof.Machine.execFlblk a b s := rfl
theorem exec_flstart (d : BitVec 6) (a : BitVec 6) (b : BitVec 6) (s : State) : exec (.flstart d a b) s = Sys2Proof.Machine.execFlstart d a b s := rfl
theorem exec_bdef (d : BitVec 6) (a : BitVec 6) (b : BitVec 6) (s : State) : exec (.bdef d a b) s = Sys2Proof.Machine.execBdef d a b s := rfl
theorem exec_bget (d : BitVec 6) (a : BitVec 6) (b : BitVec 6) (s : State) : exec (.bget d a b) s = Sys2Proof.Machine.execBget d a b s := rfl
theorem exec_bput (a : BitVec 6) (b : BitVec 6) (s : State) : exec (.bput a b) s = Sys2Proof.Machine.execBput a b s := rfl
theorem exec_cwait (d : BitVec 6) (a : BitVec 6) (b : BitVec 6) (s : State) : exec (.cwait d a b) s = Sys2Proof.Machine.execCwait d a b s := rfl
theorem exec_cadd (d : BitVec 6) (a : BitVec 6) (b : BitVec 6) (s : State) : exec (.cadd d a b) s = Sys2Proof.Machine.execCadd d a b s := rfl
theorem exec_topen (a : BitVec 6) (b : BitVec 6) (s : State) : exec (.topen a b) s = Sys2Proof.Machine.execTopen a b s := rfl
theorem exec_twalk (d : BitVec 6) (a : BitVec 6) (b : BitVec 6) (s : State) : exec (.twalk d a b) s = Sys2Proof.Machine.execTwalk d a b s := rfl
theorem exec_tappend (d : BitVec 6) (a : BitVec 6) (b : BitVec 6) (s : State) : exec (.tappend d a b) s = Sys2Proof.Machine.execTappend d a b s := rfl
theorem exec_trefit (a : BitVec 6) (b : BitVec 6) (s : State) : exec (.trefit a b) s = Sys2Proof.Machine.execTrefit a b s := rfl
theorem exec_tsumr (d : BitVec 6) (a : BitVec 6) (b : BitVec 6) (s : State) : exec (.tsumr d a b) s = Sys2Proof.Machine.execTsumr d a b s := rfl
theorem exec_clstart (a : BitVec 6) (s : State) : exec (.clstart a) s = Sys2Proof.Machine.execClstart a s := rfl
theorem exec_rfence (a : BitVec 6) (s : State) : exec (.rfence a) s = Sys2Proof.Machine.execRfence a s := rfl
theorem exec_grp (m : BitVec 4) (v : Bool) (t : BitVec 5) (r : BitVec 3) (p : Bool) (f : Bool) (g : BitVec 2) (l : BitVec 3) (s : State) : exec (.grp m v t r p f g l) s = Sys2Proof.Machine.execGrp m v t r p f g l s := rfl
theorem exec_pfx (m : BitVec 4) (v : Bool) (r : BitVec 3) (w : Bool) (p : BitVec 2) (q : BitVec 5) (x : Bool) (t : BitVec 5) (y : Bool) (s : State) : exec (.pfx m v r w p q x t y) s = Sys2Proof.Machine.execPfx m v r w p q x t y s := rfl
theorem exec_yield (s : State) : exec .yield s = Sys2Proof.Machine.execYield s := rfl
theorem exec_halt (s : State) : exec .halt s = Sys2Proof.Machine.execHalt s := rfl
theorem exec_npbegin (s : State) : exec .npbegin s = Sys2Proof.Machine.execNpbegin s := rfl
theorem exec_npend (s : State) : exec .npend s = Sys2Proof.Machine.execNpend s := rfl
theorem exec_tret (s : State) : exec .tret s = Sys2Proof.Machine.execTret s := rfl
theorem exec_tlbinvg (s : State) : exec .tlbinvg s = Sys2Proof.Machine.execTlbinvg s := rfl
theorem exec_embage (s : State) : exec .embage s = Sys2Proof.Machine.execEmbage s := rfl
theorem exec_vjoin (s : State) : exec .vjoin s = Sys2Proof.Machine.execVjoin s := rfl
theorem exec_vpend (s : State) : exec .vpend s = Sys2Proof.Machine.execVpend s := rfl
theorem exec_bar (s : State) : exec .bar s = Sys2Proof.Machine.execBar s := rfl
theorem exec_sknot (s : State) : exec .sknot s = Sys2Proof.Machine.execSknot s := rfl
theorem exec_waitevReread (s : State) : exec .waitevReread s = Sys2Proof.Machine.execWaitevReread s := rfl
theorem exec_ownFlipComplete (s : State) : exec .ownFlipComplete s = Sys2Proof.Machine.execOwnFlipComplete s := rfl
theorem exec_bgetServe (s : State) : exec .bgetServe s = Sys2Proof.Machine.execBgetServe s := rfl
theorem exec_cwaitReread (s : State) : exec .cwaitReread s = Sys2Proof.Machine.execCwaitReread s := rfl
theorem exec_asyncEventEntry (s : State) : exec .asyncEventEntry s = Sys2Proof.Machine.execAsyncEventEntry s := rfl
theorem exec_preemptionRequest (s : State) : exec .preemptionRequest s = Sys2Proof.Machine.execPreemptionRequest s := rfl
theorem exec_npRegionOverrun (s : State) : exec .npRegionOverrun s = Sys2Proof.Machine.execNpRegionOverrun s := rfl
theorem exec_windowEntryStarvation (s : State) : exec .windowEntryStarvation s = Sys2Proof.Machine.execWindowEntryStarvation s := rfl
theorem exec_doorbell (s : State) : exec .doorbell s = Sys2Proof.Machine.execDoorbell s := rfl
theorem exec_dependenceMet (s : State) : exec .dependenceMet s = Sys2Proof.Machine.execDependenceMet s := rfl
theorem exec_priorityAging (s : State) : exec .priorityAging s = Sys2Proof.Machine.execPriorityAging s := rfl
theorem exec_serveQueue (s : State) : exec .serveQueue s = Sys2Proof.Machine.execServeQueue s := rfl
theorem exec_gangEnd (s : State) : exec .gangEnd s = Sys2Proof.Machine.execGangEnd s := rfl
theorem exec_damperWindowEnd (s : State) : exec .damperWindowEnd s = Sys2Proof.Machine.execDamperWindowEnd s := rfl
theorem exec_migrationLapse (s : State) : exec .migrationLapse s = Sys2Proof.Machine.execMigrationLapse s := rfl
theorem exec_gangResume (s : State) : exec .gangResume s = Sys2Proof.Machine.execGangResume s := rfl
theorem exec_gangReadmission (s : State) : exec .gangReadmission s = Sys2Proof.Machine.execGangReadmission s := rfl
theorem exec_ptsTick (s : State) : exec .ptsTick s = Sys2Proof.Machine.execPtsTick s := rfl
theorem exec_htsTick (s : State) : exec .htsTick s = Sys2Proof.Machine.execHtsTick s := rfl
theorem exec_homeExpireSweep (s : State) : exec .homeExpireSweep s = Sys2Proof.Machine.execHomeExpireSweep s := rfl
theorem exec_l1LeaseDrop (s : State) : exec .l1LeaseDrop s = Sys2Proof.Machine.execL1LeaseDrop s := rfl
theorem exec_rangeRequestRetry (s : State) : exec .rangeRequestRetry s = Sys2Proof.Machine.execRangeRequestRetry s := rfl
theorem exec_reservationServe (s : State) : exec .reservationServe s = Sys2Proof.Machine.execReservationServe s := rfl
theorem exec_l1Eviction (s : State) : exec .l1Eviction s = Sys2Proof.Machine.execL1Eviction s := rfl
theorem exec_hostOwnershipTake (s : State) : exec .hostOwnershipTake s = Sys2Proof.Machine.execHostOwnershipTake s := rfl
theorem exec_hostStore (s : State) : exec .hostStore s = Sys2Proof.Machine.execHostStore s := rfl
theorem exec_compressedBlockRetry (s : State) : exec .compressedBlockRetry s = Sys2Proof.Machine.execCompressedBlockRetry s := rfl
theorem exec_remoteRequest (s : State) : exec .remoteRequest s = Sys2Proof.Machine.execRemoteRequest s := rfl
theorem exec_engineOpFire (s : State) : exec .engineOpFire s = Sys2Proof.Machine.execEngineOpFire s := rfl
theorem exec_flueCopy (s : State) : exec .flueCopy s = Sys2Proof.Machine.execFlueCopy s := rfl
theorem exec_faultRecordWrite (s : State) : exec .faultRecordWrite s = Sys2Proof.Machine.execFaultRecordWrite s := rfl
theorem exec_engineCompletionAdd (s : State) : exec .engineCompletionAdd s = Sys2Proof.Machine.execEngineCompletionAdd s := rfl
theorem exec_engineReplay (s : State) : exec .engineReplay s = Sys2Proof.Machine.execEngineReplay s := rfl
theorem exec_engineAbort (s : State) : exec .engineAbort s = Sys2Proof.Machine.execEngineAbort s := rfl
theorem exec_engineSuspend (s : State) : exec .engineSuspend s = Sys2Proof.Machine.execEngineSuspend s := rfl
theorem exec_walk (s : State) : exec .walk s = Sys2Proof.Machine.execWalk s := rfl
theorem exec_append (s : State) : exec .append s = Sys2Proof.Machine.execAppend s := rfl
theorem exec_treeRefit (s : State) : exec .treeRefit s = Sys2Proof.Machine.execTreeRefit s := rfl
theorem exec_collectiveOperation (s : State) : exec .collectiveOperation s = Sys2Proof.Machine.execCollectiveOperation s := rfl
theorem exec_biasFlipToHost (s : State) : exec .biasFlipToHost s = Sys2Proof.Machine.execBiasFlipToHost s := rfl
theorem exec_biasFlipToDevice (s : State) : exec .biasFlipToDevice s = Sys2Proof.Machine.execBiasFlipToDevice s := rfl
theorem exec_linkCrcFail (s : State) : exec .linkCrcFail s = Sys2Proof.Machine.execLinkCrcFail s := rfl
theorem exec_linkRetrain (s : State) : exec .linkRetrain s = Sys2Proof.Machine.execLinkRetrain s := rfl
theorem exec_devstatWrite (s : State) : exec .devstatWrite s = Sys2Proof.Machine.execDevstatWrite s := rfl
theorem exec_embctlWrite (s : State) : exec .embctlWrite s = Sys2Proof.Machine.execEmbctlWrite s := rfl
theorem exec_registerWrite (s : State) : exec .registerWrite s = Sys2Proof.Machine.execRegisterWrite s := rfl
theorem exec_deviceReset (s : State) : exec .deviceReset s = Sys2Proof.Machine.execDeviceReset s := rfl
theorem exec_attestationRequest (s : State) : exec .attestationRequest s = Sys2Proof.Machine.execAttestationRequest s := rfl
theorem exec_attestationReport (s : State) : exec .attestationReport s = Sys2Proof.Machine.execAttestationReport s := rfl
theorem exec_d3hotRequest (s : State) : exec .d3hotRequest s = Sys2Proof.Machine.execD3hotRequest s := rfl
theorem exec_d3hotEntry (s : State) : exec .d3hotEntry s = Sys2Proof.Machine.execD3hotEntry s := rfl
theorem exec_inletTemperatureChange (s : State) : exec .inletTemperatureChange s = Sys2Proof.Machine.execInletTemperatureChange s := rfl
theorem exec_coolantFlowChange (s : State) : exec .coolantFlowChange s = Sys2Proof.Machine.execCoolantFlowChange s := rfl
theorem exec_lowFlowTimeout (s : State) : exec .lowFlowTimeout s = Sys2Proof.Machine.execLowFlowTimeout s := rfl
theorem exec_unassignedInstructionWord (s : State) : exec .unassignedInstructionWord s = Sys2Proof.Machine.execUnassignedInstructionWord s := rfl
theorem exec_instructionFetchFault (s : State) : exec .instructionFetchFault s = Sys2Proof.Machine.execInstructionFetchFault s := rfl
theorem exec_softError (s : State) : exec .softError s = Sys2Proof.Machine.execSoftError s := rfl
theorem exec_keySlotLoad (s : State) : exec .keySlotLoad s = Sys2Proof.Machine.execKeySlotLoad s := rfl
theorem exec_dynamicCapacityExtentChange (s : State) : exec .dynamicCapacityExtentChange s = Sys2Proof.Machine.execDynamicCapacityExtentChange s := rfl
theorem exec_d3coldEntry (s : State) : exec .d3coldEntry s = Sys2Proof.Machine.execD3coldEntry s := rfl

end Sys2Proof.Machine
end

