-- ==== Sys2Proof/Laws/Memory.lean ====
section
/-! SUPPORT. The cells of memory: every write keeps the canonical form, a read after a write to the same address gives the byte
written, a write leaves every other address alone, and equal readings are equal lists. -/

namespace Sys2Proof.Machine

open Sys2Proof

/-- Weakening the lower bound. -/
theorem Memory.wfFrom_none {lo : Option Nat} {m : List Host.Cell} (h : Memory.wfFrom lo m = true) : Memory.wfFrom none m = true := by
  cases m with
  | nil => rfl
  | cons p r =>
    obtain ⟨k, v⟩ := p
    simp only [Memory.wfFrom, Bool.and_eq_true] at h ⊢
    exact ⟨⟨trivial, h.1.2⟩, h.2⟩

/-- A list bounded below reads 0 at and below its bound. -/
theorem Memory.read_below {m : List Host.Cell} {l a : Nat} (h : Memory.wfFrom (some l) m = true) (ha : a ≤ l) : Memory.read m a = 0 := by
  cases m with
  | nil => rfl
  | cons p r =>
    obtain ⟨k, v⟩ := p
    simp only [Memory.wfFrom, Bool.and_eq_true, decide_eq_true_eq] at h
    have h1 : ¬ k < a := by omega
    have h2 : ¬ k = a := by omega
    simp only [Memory.read, h1, h2, if_false]

/-- A raised or lowered bound below the first address keeps the form. -/
theorem Memory.wfFrom_mono {m : List Host.Cell} {l k : Nat} (h : Memory.wfFrom (some k) m = true) (hl : l ≤ k) :
    Memory.wfFrom (some l) m = true := by
  cases m with
  | nil => rfl
  | cons p r =>
    obtain ⟨j, v⟩ := p
    simp only [Memory.wfFrom, Bool.and_eq_true, decide_eq_true_eq] at h ⊢
    exact ⟨⟨by omega, h.1.2⟩, h.2⟩

/-- A write keeps the form above any bound below the address written. -/
theorem Memory.write_wfFrom {m : List Host.Cell} {lo : Option Nat} (h : Memory.wfFrom lo m = true) (a : Nat) (b : Byte)
    (ha : ∀ l, lo = some l → l < a) : Memory.wfFrom lo (Memory.write m a b) = true := by
  induction m generalizing lo with
  | nil =>
    by_cases hb : b = 0
    · simp [Memory.write, hb, Memory.wfFrom]
    · cases lo with
      | none => simp only [Memory.write, if_neg hb, Memory.wfFrom]; simp_all
      | some l => simp only [Memory.write, if_neg hb, Memory.wfFrom, ha l rfl]; simp_all
  | cons p r ih =>
    obtain ⟨k, v⟩ := p
    have h0 := h
    simp only [Memory.wfFrom, Bool.and_eq_true, decide_eq_true_eq] at h
    obtain ⟨⟨h1, h2⟩, h3⟩ := h
    by_cases hk : k < a
    · simp only [Memory.write, hk, if_true, Memory.wfFrom, Bool.and_eq_true, decide_eq_true_eq]
      exact ⟨⟨h1, h2⟩, ih h3 (fun l hl => by cases hl; exact hk)⟩
    · by_cases he : k = a
      · subst he
        by_cases hb : b = 0
        · simp only [Memory.write, lt_irrefl, if_false, if_true, hb]
          cases lo with
          | none => exact Memory.wfFrom_none h3
          | some l => exact Memory.wfFrom_mono h3 (Nat.le_of_lt (ha l rfl))
        · simp only [Memory.write, lt_irrefl, if_false, if_true, hb, Memory.wfFrom, Bool.and_eq_true, decide_eq_true_eq]
          exact ⟨⟨h1, hb⟩, h3⟩
      · by_cases hb : b = 0
        · simpa only [Memory.write, hk, he, hb, if_false, if_true] using h0
        · simp only [Memory.write, hk, he, hb, if_false, Memory.wfFrom, Bool.and_eq_true, decide_eq_true_eq]
          refine ⟨⟨?_, hb⟩, ⟨by omega, h2⟩, h3⟩
          cases lo with
          | none => rfl
          | some l => simp [ha l rfl]

/-- A write keeps the canonical form. -/
theorem Memory.write_wf {m : List Host.Cell} (h : Memory.wf m = true) (a : Nat) (b : Byte) : Memory.wf (Memory.write m a b) = true :=
  Memory.write_wfFrom h a b (fun _ hl => by cases hl)

/-- A run of writes keeps the canonical form. -/
theorem Memory.writeN_wf {m : List Host.Cell} (h : Memory.wf m = true) (a : Nat) (bs : List Byte) :
    Memory.wf (Memory.writeN m a bs) = true := by
  induction bs generalizing m a with
  | nil => exact h
  | cons b bs ih => exact ih (Memory.write_wf h a b) (a + 1)

/-- Reading after a write, above any bound below the address. -/
theorem Memory.read_write {m : List Host.Cell} {lo : Option Nat} (h : Memory.wfFrom lo m = true) (a : Nat) (b : Byte) (x : Nat) :
    Memory.read (Memory.write m a b) x = if x = a then b else Memory.read m x := by
  induction m generalizing lo with
  | nil =>
    by_cases hb : b = 0
    · simp [Memory.write, hb, Memory.read]
    · simp only [Memory.write, hb, if_false, Memory.read]
      split_ifs <;> first | rfl | omega
  | cons p r ih =>
    obtain ⟨k, v⟩ := p
    simp only [Memory.wfFrom, Bool.and_eq_true, decide_eq_true_eq] at h
    by_cases hk : k < a
    · simp only [Memory.write, hk, if_true, Memory.read, ih h.2]
      split_ifs <;> first | rfl | omega
    · by_cases he : k = a
      · subst he
        by_cases hb : b = 0
        · simp only [Memory.write, lt_irrefl, if_false, if_true, hb, Memory.read]
          by_cases hx : x = k
          · subst hx; simp [Memory.read_below h.2 (Nat.le_refl _)]
          · have hx' : ¬ k = x := fun e => hx e.symm
            by_cases hl : k < x
            · simp [hx, hl]
            · simp only [hx, hl, hx', if_false]
              exact Memory.read_below h.2 (by omega)
        · simp only [Memory.write, lt_irrefl, if_false, if_true, hb, Memory.read]
          split_ifs <;> first | rfl | omega
      · by_cases hb : b = 0
        · simp only [Memory.write, hk, he, hb, if_false, if_true]
          by_cases hx : x = a
          · subst hx; simp [Memory.read, hk, he]
          · simp [hx]
        · simp only [Memory.write, hk, he, hb, if_false, Memory.read]
          split_ifs <;> first | rfl | omega

/-- Reading after a write to a memory in canonical form. -/
theorem Memory.read_write_wf {m : List Host.Cell} (h : Memory.wf m = true) (a : Nat) (b : Byte) (x : Nat) :
    Memory.read (Memory.write m a b) x = if x = a then b else Memory.read m x := Memory.read_write h a b x

/-- A run of writes leaves the addresses outside it alone. -/
theorem Memory.read_writeN_outside {m : List Host.Cell} (h : Memory.wf m = true) (a : Nat) (bs : List Byte) (x : Nat)
    (hx : x < a ∨ a + bs.length ≤ x) : Memory.read (Memory.writeN m a bs) x = Memory.read m x := by
  induction bs generalizing m a with
  | nil => rfl
  | cons b bs ih =>
    simp only [List.length_cons] at hx
    rw [Memory.writeN, ih (Memory.write_wf h a b) (a + 1) (by omega), Memory.read_write_wf h]
    rw [if_neg (by omega)]

/-- A run of writes reads back as its bytes. -/
theorem Memory.read_writeN_inside {m : List Host.Cell} (h : Memory.wf m = true) (a : Nat) (bs : List Byte) (k : Nat)
    (hk : k < bs.length) : Memory.read (Memory.writeN m a bs) (a + k) = bs[k] := by
  induction bs generalizing m a k with
  | nil => exact absurd hk (Nat.not_lt_zero _)
  | cons b bs ih =>
    cases k with
    | zero =>
      rw [Memory.writeN, Memory.read_writeN_outside (Memory.write_wf h a b) _ _ _ (by omega), Memory.read_write_wf h]
      simp
    | succ k =>
      have := ih (Memory.write_wf h a b) (a + 1) k (by simpa using hk)
      rw [Memory.writeN, show a + (k + 1) = a + 1 + k by omega, this]
      simp

/-- `readN` reads byte by byte. -/
theorem Memory.readN_length (m : List Host.Cell) (a n : Nat) : (Memory.readN m a n).length = n := by
  induction n generalizing a with
  | zero => rfl
  | succ n ih => simp [Memory.readN, ih]

theorem Memory.readN_getElem (m : List Host.Cell) (a n k : Nat) (hk : k < (Memory.readN m a n).length) :
    (Memory.readN m a n)[k] = Memory.read m (a + k) := by
  induction n generalizing a k with
  | zero => simp [Memory.readN] at hk
  | succ n ih =>
    cases k with
    | zero => simp [Memory.readN]
    | succ k =>
      simp only [Memory.readN, List.getElem_cons_succ]
      rw [ih]
      congr 1
      omega

/-- What was written is read. -/
theorem Memory.readN_writeN {m : List Host.Cell} (h : Memory.wf m = true) (a : Nat) (bs : List Byte) :
    Memory.readN (Memory.writeN m a bs) a bs.length = bs := by
  apply List.ext_getElem
  · simp [Memory.readN_length]
  · intro k h1 h2
    rw [Memory.readN_getElem, Memory.read_writeN_inside h a bs k h2]

/-- Two canonical memories that read alike are equal. -/
theorem Memory.ext_from {l : Option Nat} {m n : List Host.Cell} (hm : Memory.wfFrom l m = true) (hn : Memory.wfFrom l n = true)
    (h : ∀ a, Memory.read m a = Memory.read n a) : m = n := by
  induction m generalizing l n with
  | nil =>
    cases n with
    | nil => rfl
    | cons q t =>
      obtain ⟨k, v⟩ := q
      simp only [Memory.wfFrom, Bool.and_eq_true, decide_eq_true_eq] at hn
      have := h k
      simp only [Memory.read, lt_irrefl, if_false, if_true] at this
      exact absurd this.symm hn.1.2
  | cons p r ih =>
    obtain ⟨j, u⟩ := p
    have hm' := hm
    simp only [Memory.wfFrom, Bool.and_eq_true, decide_eq_true_eq] at hm
    cases n with
    | nil =>
      have := h j
      simp only [Memory.read, lt_irrefl, if_false, if_true] at this
      exact absurd this hm.1.2
    | cons q t =>
      obtain ⟨k, v⟩ := q
      simp only [Memory.wfFrom, Bool.and_eq_true, decide_eq_true_eq] at hn
      have hj := h j
      have hk := h k
      simp only [Memory.read, lt_irrefl, if_false, if_true] at hj hk
      have hjk : j = k := by
        rcases Nat.lt_trichotomy j k with hl | he | hg
        · exact absurd (by rw [hj, if_neg (by omega), if_neg (by omega)]) hm.1.2
        · exact he
        · exact absurd (by rw [← hk, if_neg (by omega), if_neg (by omega)]) hn.1.2
      subst hjk
      simp only [lt_irrefl, if_false, if_true] at hj
      subst hj
      congr 1
      refine ih hm.2 hn.2 (fun a => ?_)
      by_cases ha : j < a
      · have := h a
        simpa only [Memory.read, ha, if_true] using this
      · rw [Memory.read_below hm.2 (by omega), Memory.read_below hn.2 (by omega)]

end Sys2Proof.Machine
end

