-- ==== Sys2Proof/Laws/State.lean ====
section
/-! SUPPORT. One lemma per field per update: what the plain updates of a state and of a thread leave alone, and what they set. -/

namespace Sys2Proof.Machine

open Sys2Proof

/-! ## Writing a scalar register -/

@[simp] theorem State.ws_others (s : State) (r : BitVec 6) (v : Word) : (s.ws r v).others = s.others := rfl
@[simp] theorem State.ws_gangs (s : State) (r : BitVec 6) (v : Word) : (s.ws r v).gangs = s.gangs := rfl
@[simp] theorem State.ws_ops (s : State) (r : BitVec 6) (v : Word) : (s.ws r v).ops = s.ops := rfl
@[simp] theorem State.ws_mem (s : State) (r : BitVec 6) (v : Word) : (s.ws r v).mem = s.mem := rfl
@[simp] theorem State.ws_poison (s : State) (r : BitVec 6) (v : Word) : (s.ws r v).poison = s.poison := rfl
@[simp] theorem State.ws_sectorKeys (s : State) (r : BitVec 6) (v : Word) : (s.ws r v).sectorKeys = s.sectorKeys := rfl
@[simp] theorem State.ws_keySlots (s : State) (r : BitVec 6) (v : Word) : (s.ws r v).keySlots = s.keySlots := rfl
@[simp] theorem State.ws_tlb (s : State) (r : BitVec 6) (v : Word) : (s.ws r v).tlb = s.tlb := rfl
@[simp] theorem State.ws_tables (s : State) (r : BitVec 6) (v : Word) : (s.ws r v).tables = s.tables := rfl
@[simp] theorem State.ws_l1 (s : State) (r : BitVec 6) (v : Word) : (s.ws r v).l1 = s.l1 := rfl
@[simp] theorem State.ws_l1bad (s : State) (r : BitVec 6) (v : Word) : (s.ws r v).l1bad = s.l1bad := rfl
@[simp] theorem State.ws_l2 (s : State) (r : BitVec 6) (v : Word) : (s.ws r v).l2 = s.l2 := rfl
@[simp] theorem State.ws_stamps (s : State) (r : BitVec 6) (v : Word) : (s.ws r v).stamps = s.stamps := rfl
@[simp] theorem State.ws_releases (s : State) (r : BitVec 6) (v : Word) : (s.ws r v).releases = s.releases := rfl
@[simp] theorem State.ws_writes (s : State) (r : BitVec 6) (v : Word) : (s.ws r v).writes = s.writes := rfl
@[simp] theorem State.ws_watches (s : State) (r : BitVec 6) (v : Word) : (s.ws r v).watches = s.watches := rfl
@[simp] theorem State.ws_hts (s : State) (r : BitVec 6) (v : Word) : (s.ws r v).hts = s.hts := rfl
@[simp] theorem State.ws_remoteHts (s : State) (r : BitVec 6) (v : Word) : (s.ws r v).remoteHts = s.remoteHts := rfl
@[simp] theorem State.ws_dir (s : State) (r : BitVec 6) (v : Word) : (s.ws r v).dir = s.dir := rfl
@[simp] theorem State.ws_moving (s : State) (r : BitVec 6) (v : Word) : (s.ws r v).moving = s.moving := rfl
@[simp] theorem State.ws_requests (s : State) (r : BitVec 6) (v : Word) : (s.ws r v).requests = s.requests := rfl
@[simp] theorem State.ws_heat (s : State) (r : BitVec 6) (v : Word) : (s.ws r v).heat = s.heat := rfl
@[simp] theorem State.ws_samples (s : State) (r : BitVec 6) (v : Word) : (s.ws r v).samples = s.samples := rfl
@[simp] theorem State.ws_embctl (s : State) (r : BitVec 6) (v : Word) : (s.ws r v).embctl = s.embctl := rfl
@[simp] theorem State.ws_czraw (s : State) (r : BitVec 6) (v : Word) : (s.ws r v).czraw = s.czraw := rfl
@[simp] theorem State.ws_czretry (s : State) (r : BitVec 6) (v : Word) : (s.ws r v).czretry = s.czretry := rfl
@[simp] theorem State.ws_czovf (s : State) (r : BitVec 6) (v : Word) : (s.ws r v).czovf = s.czovf := rfl
@[simp] theorem State.ws_czPending (s : State) (r : BitVec 6) (v : Word) : (s.ws r v).czPending = s.czPending := rfl
@[simp] theorem State.ws_raceLogs (s : State) (r : BitVec 6) (v : Word) : (s.ws r v).raceLogs = s.raceLogs := rfl
@[simp] theorem State.ws_bar0 (s : State) (r : BitVec 6) (v : Word) : (s.ws r v).bar0 = s.bar0 := rfl
@[simp] theorem State.ws_budget (s : State) (r : BitVec 6) (v : Word) : (s.ws r v).budget = s.budget := rfl
@[simp] theorem State.ws_devnum (s : State) (r : BitVec 6) (v : Word) : (s.ws r v).devnum = s.devnum := rfl
@[simp] theorem State.ws_queues (s : State) (r : BitVec 6) (v : Word) : (s.ws r v).queues = s.queues := rfl
@[simp] theorem State.ws_launches (s : State) (r : BitVec 6) (v : Word) : (s.ws r v).launches = s.launches := rfl
@[simp] theorem State.ws_served (s : State) (r : BitVec 6) (v : Word) : (s.ws r v).served = s.served := rfl
@[simp] theorem State.ws_emeter (s : State) (r : BitVec 6) (v : Word) : (s.ws r v).emeter = s.emeter := rfl
@[simp] theorem State.ws_clkstep (s : State) (r : BitVec 6) (v : Word) : (s.ws r v).clkstep = s.clkstep := rfl
@[simp] theorem State.ws_ewin (s : State) (r : BitVec 6) (v : Word) : (s.ws r v).ewin = s.ewin := rfl
@[simp] theorem State.ws_lastMeters (s : State) (r : BitVec 6) (v : Word) : (s.ws r v).lastMeters = s.lastMeters := rfl
@[simp] theorem State.ws_hotWindows (s : State) (r : BitVec 6) (v : Word) : (s.ws r v).hotWindows = s.hotWindows := rfl
@[simp] theorem State.ws_window (s : State) (r : BitVec 6) (v : Word) : (s.ws r v).window = s.window := rfl
@[simp] theorem State.ws_groups (s : State) (r : BitVec 6) (v : Word) : (s.ws r v).groups = s.groups := rfl
@[simp] theorem State.ws_linkFails (s : State) (r : BitVec 6) (v : Word) : (s.ws r v).linkFails = s.linkFails := rfl
@[simp] theorem State.ws_linksDown (s : State) (r : BitVec 6) (v : Word) : (s.ws r v).linksDown = s.linksDown := rfl
@[simp] theorem State.ws_lost (s : State) (r : BitVec 6) (v : Word) : (s.ws r v).lost = s.lost := rfl
@[simp] theorem State.ws_extents (s : State) (r : BitVec 6) (v : Word) : (s.ws r v).extents = s.extents := rfl
@[simp] theorem State.ws_attests (s : State) (r : BitVec 6) (v : Word) : (s.ws r v).attests = s.attests := rfl
@[simp] theorem State.ws_reports (s : State) (r : BitVec 6) (v : Word) : (s.ws r v).reports = s.reports := rfl
@[simp] theorem State.ws_image (s : State) (r : BitVec 6) (v : Word) : (s.ws r v).image = s.image := rfl
@[simp] theorem State.ws_rollback (s : State) (r : BitVec 6) (v : Word) : (s.ws r v).rollback = s.rollback := rfl
@[simp] theorem State.ws_dstate (s : State) (r : BitVec 6) (v : Word) : (s.ws r v).dstate = s.dstate := rfl
@[simp] theorem State.ws_d3req (s : State) (r : BitVec 6) (v : Word) : (s.ws r v).d3req = s.d3req := rfl
@[simp] theorem State.ws_inlet (s : State) (r : BitVec 6) (v : Word) : (s.ws r v).inlet = s.inlet := rfl
@[simp] theorem State.ws_flow (s : State) (r : BitVec 6) (v : Word) : (s.ws r v).flow = s.flow := rfl
@[simp] theorem State.ws_fused (s : State) (r : BitVec 6) (v : Word) : (s.ws r v).fused = s.fused := rfl
@[simp] theorem State.ws_images (s : State) (r : BitVec 6) (v : Word) : (s.ws r v).images = s.images := rfl
@[simp] theorem State.ws_gangImages (s : State) (r : BitVec 6) (v : Word) : (s.ws r v).gangImages = s.gangImages := rfl
@[simp] theorem State.ws_agenda (s : State) (r : BitVec 6) (v : Word) : (s.ws r v).agenda = s.agenda := rfl
@[simp] theorem State.ws_arg (s : State) (r : BitVec 6) (v : Word) : (s.ws r v).arg = s.arg := rfl
@[simp] theorem State.ws_turns (s : State) (r : BitVec 6) (v : Word) : (s.ws r v).turns = s.turns := rfl
@[simp] theorem State.ws_free (s : State) (r : BitVec 6) (v : Word) : (s.ws r v).free = s.free := rfl
@[simp] theorem State.ws_nextId (s : State) (r : BitVec 6) (v : Word) : (s.ws r v).nextId = s.nextId := rfl
@[simp] theorem State.ws_thr (s : State) (r : BitVec 6) (v : Word) : (s.ws r v).thr = s.thr.ws r v := rfl

@[simp] theorem Thread.ws_tid (t : Thread) (r : BitVec 6) (v : Word) : (t.ws r v).tid = t.tid := by unfold Thread.ws; split <;> rfl
@[simp] theorem Thread.ws_gang (t : Thread) (r : BitVec 6) (v : Word) : (t.ws r v).gang = t.gang := by unfold Thread.ws; split <;> rfl
@[simp] theorem Thread.ws_core (t : Thread) (r : BitVec 6) (v : Word) : (t.ws r v).core = t.core := by unfold Thread.ws; split <;> rfl
@[simp] theorem Thread.ws_hearth (t : Thread) (r : BitVec 6) (v : Word) : (t.ws r v).hearth = t.hearth := by unfold Thread.ws; split <;> rfl
@[simp] theorem Thread.ws_asid (t : Thread) (r : BitVec 6) (v : Word) : (t.ws r v).asid = t.asid := by unfold Thread.ws; split <;> rfl
@[simp] theorem Thread.ws_index (t : Thread) (r : BitVec 6) (v : Word) : (t.ws r v).index = t.index := by unfold Thread.ws; split <;> rfl
@[simp] theorem Thread.ws_stage (t : Thread) (r : BitVec 6) (v : Word) : (t.ws r v).stage = t.stage := by unfold Thread.ws; split <;> rfl
@[simp] theorem Thread.ws_coord (t : Thread) (r : BitVec 6) (v : Word) : (t.ws r v).coord = t.coord := by unfold Thread.ws; split <;> rfl
@[simp] theorem Thread.ws_phase (t : Thread) (r : BitVec 6) (v : Word) : (t.ws r v).phase = t.phase := by unfold Thread.ws; split <;> rfl
@[simp] theorem Thread.ws_halted (t : Thread) (r : BitVec 6) (v : Word) : (t.ws r v).halted = t.halted := by unfold Thread.ws; split <;> rfl
@[simp] theorem Thread.ws_pc (t : Thread) (r : BitVec 6) (v : Word) : (t.ws r v).pc = t.pc := by unfold Thread.ws; split <;> rfl
@[simp] theorem Thread.ws_cycle (t : Thread) (r : BitVec 6) (v : Word) : (t.ws r v).cycle = t.cycle := by unfold Thread.ws; split <;> rfl
@[simp] theorem Thread.ws_retired (t : Thread) (r : BitVec 6) (v : Word) : (t.ws r v).retired = t.retired := by unfold Thread.ws; split <;> rfl
@[simp] theorem Thread.ws_status (t : Thread) (r : BitVec 6) (v : Word) : (t.ws r v).status = t.status := by unfold Thread.ws; split <;> rfl
@[simp] theorem Thread.ws_fflags (t : Thread) (r : BitVec 6) (v : Word) : (t.ws r v).fflags = t.fflags := by unfold Thread.ws; split <;> rfl
@[simp] theorem Thread.ws_frm (t : Thread) (r : BitVec 6) (v : Word) : (t.ws r v).frm = t.frm := by unfold Thread.ws; split <;> rfl
@[simp] theorem Thread.ws_mode (t : Thread) (r : BitVec 6) (v : Word) : (t.ws r v).mode = t.mode := by unfold Thread.ws; split <;> rfl
@[simp] theorem Thread.ws_convoy (t : Thread) (r : BitVec 6) (v : Word) : (t.ws r v).convoy = t.convoy := by unfold Thread.ws; split <;> rfl
@[simp] theorem Thread.ws_len (t : Thread) (r : BitVec 6) (v : Word) : (t.ws r v).len = t.len := by unfold Thread.ws; split <;> rfl
@[simp] theorem Thread.ws_vcap (t : Thread) (r : BitVec 6) (v : Word) : (t.ws r v).vcap = t.vcap := by unfold Thread.ws; split <;> rfl
@[simp] theorem Thread.ws_density (t : Thread) (r : BitVec 6) (v : Word) : (t.ws r v).density = t.density := by unfold Thread.ws; split <;> rfl
@[simp] theorem Thread.ws_xresume (t : Thread) (r : BitVec 6) (v : Word) : (t.ws r v).xresume = t.xresume := by unfold Thread.ws; split <;> rfl
@[simp] theorem Thread.ws_rngkey (t : Thread) (r : BitVec 6) (v : Word) : (t.ws r v).rngkey = t.rngkey := by unfold Thread.ws; split <;> rfl
@[simp] theorem Thread.ws_srctr (t : Thread) (r : BitVec 6) (v : Word) : (t.ws r v).srctr = t.srctr := by unfold Thread.ws; split <;> rfl
@[simp] theorem Thread.ws_cbsel (t : Thread) (r : BitVec 6) (v : Word) : (t.ws r v).cbsel = t.cbsel := by unfold Thread.ws; split <;> rfl
@[simp] theorem Thread.ws_twin (t : Thread) (r : BitVec 6) (v : Word) : (t.ws r v).twin = t.twin := by unfold Thread.ws; split <;> rfl
@[simp] theorem Thread.ws_lease (t : Thread) (r : BitVec 6) (v : Word) : (t.ws r v).lease = t.lease := by unfold Thread.ws; split <;> rfl
@[simp] theorem Thread.ws_racectl (t : Thread) (r : BitVec 6) (v : Word) : (t.ws r v).racectl = t.racectl := by unfold Thread.ws; split <;> rfl
@[simp] theorem Thread.ws_siv (t : Thread) (r : BitVec 6) (v : Word) : (t.ws r v).siv = t.siv := by unfold Thread.ws; split <;> rfl
@[simp] theorem Thread.ws_strm (t : Thread) (r : BitVec 6) (v : Word) : (t.ws r v).strm = t.strm := by unfold Thread.ws; split <;> rfl
@[simp] theorem Thread.ws_strmk (t : Thread) (r : BitVec 6) (v : Word) : (t.ws r v).strmk = t.strmk := by unfold Thread.ws; split <;> rfl
@[simp] theorem Thread.ws_knotbase (t : Thread) (r : BitVec 6) (v : Word) : (t.ws r v).knotbase = t.knotbase := by unfold Thread.ws; split <;> rfl
@[simp] theorem Thread.ws_knotstep (t : Thread) (r : BitVec 6) (v : Word) : (t.ws r v).knotstep = t.knotstep := by unfold Thread.ws; split <;> rfl
@[simp] theorem Thread.ws_knotcount (t : Thread) (r : BitVec 6) (v : Word) : (t.ws r v).knotcount = t.knotcount := by unfold Thread.ws; split <;> rfl
@[simp] theorem Thread.ws_knotclamp (t : Thread) (r : BitVec 6) (v : Word) : (t.ws r v).knotclamp = t.knotclamp := by unfold Thread.ws; split <;> rfl
@[simp] theorem Thread.ws_mxscale (t : Thread) (r : BitVec 6) (v : Word) : (t.ws r v).mxscale = t.mxscale := by unfold Thread.ws; split <;> rfl
@[simp] theorem Thread.ws_wtheta (t : Thread) (r : BitVec 6) (v : Word) : (t.ws r v).wtheta = t.wtheta := by unfold Thread.ws; split <;> rfl
@[simp] theorem Thread.ws_wkern (t : Thread) (r : BitVec 6) (v : Word) : (t.ws r v).wkern = t.wkern := by unfold Thread.ws; split <;> rfl
@[simp] theorem Thread.ws_npOpen (t : Thread) (r : BitVec 6) (v : Word) : (t.ws r v).npOpen = t.npOpen := by unfold Thread.ws; split <;> rfl
@[simp] theorem Thread.ws_npOvr (t : Thread) (r : BitVec 6) (v : Word) : (t.ws r v).npOvr = t.npOvr := by unfold Thread.ws; split <;> rfl
@[simp] theorem Thread.ws_fstat (t : Thread) (r : BitVec 6) (v : Word) : (t.ws r v).fstat = t.fstat := by unfold Thread.ws; split <;> rfl
@[simp] theorem Thread.ws_tvec (t : Thread) (r : BitVec 6) (v : Word) : (t.ws r v).tvec = t.tvec := by unfold Thread.ws; split <;> rfl
@[simp] theorem Thread.ws_epc (t : Thread) (r : BitVec 6) (v : Word) : (t.ws r v).epc = t.epc := by unfold Thread.ws; split <;> rfl
@[simp] theorem Thread.ws_cause (t : Thread) (r : BitVec 6) (v : Word) : (t.ws r v).cause = t.cause := by unfold Thread.ws; split <;> rfl
@[simp] theorem Thread.ws_tval (t : Thread) (r : BitVec 6) (v : Word) : (t.ws r v).tval = t.tval := by unfold Thread.ws; split <;> rfl
@[simp] theorem Thread.ws_sscratch (t : Thread) (r : BitVec 6) (v : Word) : (t.ws r v).sscratch = t.sscratch := by unfold Thread.ws; split <;> rfl
@[simp] theorem Thread.ws_grant (t : Thread) (r : BitVec 6) (v : Word) : (t.ws r v).grant = t.grant := by unfold Thread.ws; split <;> rfl
@[simp] theorem Thread.ws_demand (t : Thread) (r : BitVec 6) (v : Word) : (t.ws r v).demand = t.demand := by unfold Thread.ws; split <;> rfl
@[simp] theorem Thread.ws_width (t : Thread) (r : BitVec 6) (v : Word) : (t.ws r v).width = t.width := by unfold Thread.ws; split <;> rfl
@[simp] theorem Thread.ws_attached (t : Thread) (r : BitVec 6) (v : Word) : (t.ws r v).attached = t.attached := by unfold Thread.ws; split <;> rfl
@[simp] theorem Thread.ws_vrows (t : Thread) (r : BitVec 6) (v : Word) : (t.ws r v).vrows = t.vrows := by unfold Thread.ws; split <;> rfl
@[simp] theorem Thread.ws_mrows (t : Thread) (r : BitVec 6) (v : Word) : (t.ws r v).mrows = t.mrows := by unfold Thread.ws; split <;> rfl
@[simp] theorem Thread.ws_cbs (t : Thread) (r : BitVec 6) (v : Word) : (t.ws r v).cbs = t.cbs := by unfold Thread.ws; split <;> rfl
@[simp] theorem Thread.ws_array (t : Thread) (r : BitVec 6) (v : Word) : (t.ws r v).array = t.array := by unfold Thread.ws; split <;> rfl
@[simp] theorem Thread.ws_staging (t : Thread) (r : BitVec 6) (v : Word) : (t.ws r v).staging = t.staging := by unfold Thread.ws; split <;> rfl
@[simp] theorem Thread.ws_vrun (t : Thread) (r : BitVec 6) (v : Word) : (t.ws r v).vrun = t.vrun := by unfold Thread.ws; split <;> rfl
@[simp] theorem Thread.ws_pts (t : Thread) (r : BitVec 6) (v : Word) : (t.ws r v).pts = t.pts := by unfold Thread.ws; split <;> rfl
@[simp] theorem Thread.ws_acqGang (t : Thread) (r : BitVec 6) (v : Word) : (t.ws r v).acqGang = t.acqGang := by unfold Thread.ws; split <;> rfl
@[simp] theorem Thread.ws_acqOther (t : Thread) (r : BitVec 6) (v : Word) : (t.ws r v).acqOther = t.acqOther := by unfold Thread.ws; split <;> rfl
@[simp] theorem Thread.ws_barGen (t : Thread) (r : BitVec 6) (v : Word) : (t.ws r v).barGen = t.barGen := by unfold Thread.ws; split <;> rfl
@[simp] theorem Thread.ws_pend17 (t : Thread) (r : BitVec 6) (v : Word) : (t.ws r v).pend17 = t.pend17 := by unfold Thread.ws; split <;> rfl
@[simp] theorem Thread.ws_pend18 (t : Thread) (r : BitVec 6) (v : Word) : (t.ws r v).pend18 = t.pend18 := by unfold Thread.ws; split <;> rfl
@[simp] theorem Thread.ws_stopAt (t : Thread) (r : BitVec 6) (v : Word) : (t.ws r v).stopAt = t.stopAt := by unfold Thread.ws; split <;> rfl
@[simp] theorem Thread.ws_pfx (t : Thread) (r : BitVec 6) (v : Word) : (t.ws r v).pfx = t.pfx := by unfold Thread.ws; split <;> rfl
@[simp] theorem Thread.ws_inSpan (t : Thread) (r : BitVec 6) (v : Word) : (t.ws r v).inSpan = t.inSpan := by unfold Thread.ws; split <;> rfl
@[simp] theorem Thread.ws_stale (t : Thread) (r : BitVec 6) (v : Word) : (t.ws r v).stale = t.stale := by unfold Thread.ws; split <;> rfl
@[simp] theorem Thread.ws_poisonV (t : Thread) (r : BitVec 6) (v : Word) : (t.ws r v).poisonV = t.poisonV := by unfold Thread.ws; split <;> rfl
@[simp] theorem Thread.ws_known (t : Thread) (r : BitVec 6) (v : Word) : (t.ws r v).known = t.known := by unfold Thread.ws; split <;> rfl
@[simp] theorem Thread.ws_seen (t : Thread) (r : BitVec 6) (v : Word) : (t.ws r v).seen = t.seen := by unfold Thread.ws; split <;> rfl
@[simp] theorem Thread.ws_fenced (t : Thread) (r : BitVec 6) (v : Word) : (t.ws r v).fenced = t.fenced := by unfold Thread.ws; split <;> rfl

/-! ## PC to the next word, PC to a target, waiting, retiring -/

@[simp] theorem State.pcNext_others (s : State) : (s.pcNext).others = s.others := rfl
@[simp] theorem State.pcNext_gangs (s : State) : (s.pcNext).gangs = s.gangs := rfl
@[simp] theorem State.pcNext_ops (s : State) : (s.pcNext).ops = s.ops := rfl
@[simp] theorem State.pcNext_mem (s : State) : (s.pcNext).mem = s.mem := rfl
@[simp] theorem State.pcNext_poison (s : State) : (s.pcNext).poison = s.poison := rfl
@[simp] theorem State.pcNext_sectorKeys (s : State) : (s.pcNext).sectorKeys = s.sectorKeys := rfl
@[simp] theorem State.pcNext_keySlots (s : State) : (s.pcNext).keySlots = s.keySlots := rfl
@[simp] theorem State.pcNext_tlb (s : State) : (s.pcNext).tlb = s.tlb := rfl
@[simp] theorem State.pcNext_tables (s : State) : (s.pcNext).tables = s.tables := rfl
@[simp] theorem State.pcNext_l1 (s : State) : (s.pcNext).l1 = s.l1 := rfl
@[simp] theorem State.pcNext_l1bad (s : State) : (s.pcNext).l1bad = s.l1bad := rfl
@[simp] theorem State.pcNext_l2 (s : State) : (s.pcNext).l2 = s.l2 := rfl
@[simp] theorem State.pcNext_stamps (s : State) : (s.pcNext).stamps = s.stamps := rfl
@[simp] theorem State.pcNext_releases (s : State) : (s.pcNext).releases = s.releases := rfl
@[simp] theorem State.pcNext_writes (s : State) : (s.pcNext).writes = s.writes := rfl
@[simp] theorem State.pcNext_watches (s : State) : (s.pcNext).watches = s.watches := rfl
@[simp] theorem State.pcNext_hts (s : State) : (s.pcNext).hts = s.hts := rfl
@[simp] theorem State.pcNext_remoteHts (s : State) : (s.pcNext).remoteHts = s.remoteHts := rfl
@[simp] theorem State.pcNext_dir (s : State) : (s.pcNext).dir = s.dir := rfl
@[simp] theorem State.pcNext_moving (s : State) : (s.pcNext).moving = s.moving := rfl
@[simp] theorem State.pcNext_requests (s : State) : (s.pcNext).requests = s.requests := rfl
@[simp] theorem State.pcNext_heat (s : State) : (s.pcNext).heat = s.heat := rfl
@[simp] theorem State.pcNext_samples (s : State) : (s.pcNext).samples = s.samples := rfl
@[simp] theorem State.pcNext_embctl (s : State) : (s.pcNext).embctl = s.embctl := rfl
@[simp] theorem State.pcNext_czraw (s : State) : (s.pcNext).czraw = s.czraw := rfl
@[simp] theorem State.pcNext_czretry (s : State) : (s.pcNext).czretry = s.czretry := rfl
@[simp] theorem State.pcNext_czovf (s : State) : (s.pcNext).czovf = s.czovf := rfl
@[simp] theorem State.pcNext_czPending (s : State) : (s.pcNext).czPending = s.czPending := rfl
@[simp] theorem State.pcNext_raceLogs (s : State) : (s.pcNext).raceLogs = s.raceLogs := rfl
@[simp] theorem State.pcNext_bar0 (s : State) : (s.pcNext).bar0 = s.bar0 := rfl
@[simp] theorem State.pcNext_budget (s : State) : (s.pcNext).budget = s.budget := rfl
@[simp] theorem State.pcNext_devnum (s : State) : (s.pcNext).devnum = s.devnum := rfl
@[simp] theorem State.pcNext_queues (s : State) : (s.pcNext).queues = s.queues := rfl
@[simp] theorem State.pcNext_launches (s : State) : (s.pcNext).launches = s.launches := rfl
@[simp] theorem State.pcNext_served (s : State) : (s.pcNext).served = s.served := rfl
@[simp] theorem State.pcNext_emeter (s : State) : (s.pcNext).emeter = s.emeter := rfl
@[simp] theorem State.pcNext_clkstep (s : State) : (s.pcNext).clkstep = s.clkstep := rfl
@[simp] theorem State.pcNext_ewin (s : State) : (s.pcNext).ewin = s.ewin := rfl
@[simp] theorem State.pcNext_lastMeters (s : State) : (s.pcNext).lastMeters = s.lastMeters := rfl
@[simp] theorem State.pcNext_hotWindows (s : State) : (s.pcNext).hotWindows = s.hotWindows := rfl
@[simp] theorem State.pcNext_window (s : State) : (s.pcNext).window = s.window := rfl
@[simp] theorem State.pcNext_groups (s : State) : (s.pcNext).groups = s.groups := rfl
@[simp] theorem State.pcNext_linkFails (s : State) : (s.pcNext).linkFails = s.linkFails := rfl
@[simp] theorem State.pcNext_linksDown (s : State) : (s.pcNext).linksDown = s.linksDown := rfl
@[simp] theorem State.pcNext_lost (s : State) : (s.pcNext).lost = s.lost := rfl
@[simp] theorem State.pcNext_extents (s : State) : (s.pcNext).extents = s.extents := rfl
@[simp] theorem State.pcNext_attests (s : State) : (s.pcNext).attests = s.attests := rfl
@[simp] theorem State.pcNext_reports (s : State) : (s.pcNext).reports = s.reports := rfl
@[simp] theorem State.pcNext_image (s : State) : (s.pcNext).image = s.image := rfl
@[simp] theorem State.pcNext_rollback (s : State) : (s.pcNext).rollback = s.rollback := rfl
@[simp] theorem State.pcNext_dstate (s : State) : (s.pcNext).dstate = s.dstate := rfl
@[simp] theorem State.pcNext_d3req (s : State) : (s.pcNext).d3req = s.d3req := rfl
@[simp] theorem State.pcNext_inlet (s : State) : (s.pcNext).inlet = s.inlet := rfl
@[simp] theorem State.pcNext_flow (s : State) : (s.pcNext).flow = s.flow := rfl
@[simp] theorem State.pcNext_fused (s : State) : (s.pcNext).fused = s.fused := rfl
@[simp] theorem State.pcNext_images (s : State) : (s.pcNext).images = s.images := rfl
@[simp] theorem State.pcNext_gangImages (s : State) : (s.pcNext).gangImages = s.gangImages := rfl
@[simp] theorem State.pcNext_agenda (s : State) : (s.pcNext).agenda = s.agenda := rfl
@[simp] theorem State.pcNext_arg (s : State) : (s.pcNext).arg = s.arg := rfl
@[simp] theorem State.pcNext_turns (s : State) : (s.pcNext).turns = s.turns := rfl
@[simp] theorem State.pcNext_free (s : State) : (s.pcNext).free = s.free := rfl
@[simp] theorem State.pcNext_nextId (s : State) : (s.pcNext).nextId = s.nextId := rfl
@[simp] theorem State.pcNext_thr_tid (s : State) : (s.pcNext).thr.tid = s.thr.tid := rfl
@[simp] theorem State.pcNext_thr_gang (s : State) : (s.pcNext).thr.gang = s.thr.gang := rfl
@[simp] theorem State.pcNext_thr_core (s : State) : (s.pcNext).thr.core = s.thr.core := rfl
@[simp] theorem State.pcNext_thr_hearth (s : State) : (s.pcNext).thr.hearth = s.thr.hearth := rfl
@[simp] theorem State.pcNext_thr_asid (s : State) : (s.pcNext).thr.asid = s.thr.asid := rfl
@[simp] theorem State.pcNext_thr_index (s : State) : (s.pcNext).thr.index = s.thr.index := rfl
@[simp] theorem State.pcNext_thr_stage (s : State) : (s.pcNext).thr.stage = s.thr.stage := rfl
@[simp] theorem State.pcNext_thr_coord (s : State) : (s.pcNext).thr.coord = s.thr.coord := rfl
@[simp] theorem State.pcNext_thr_phase (s : State) : (s.pcNext).thr.phase = s.thr.phase := rfl
@[simp] theorem State.pcNext_thr_halted (s : State) : (s.pcNext).thr.halted = s.thr.halted := rfl
@[simp] theorem State.pcNext_thr_pc (s : State) : (s.pcNext).thr.pc = s.thr.pc + 4 := rfl
@[simp] theorem State.pcNext_thr_sregs (s : State) : (s.pcNext).thr.sregs = s.thr.sregs := rfl
@[simp] theorem State.pcNext_thr_cycle (s : State) : (s.pcNext).thr.cycle = s.thr.cycle := rfl
@[simp] theorem State.pcNext_thr_retired (s : State) : (s.pcNext).thr.retired = s.thr.retired := rfl
@[simp] theorem State.pcNext_thr_status (s : State) : (s.pcNext).thr.status = s.thr.status := rfl
@[simp] theorem State.pcNext_thr_fflags (s : State) : (s.pcNext).thr.fflags = s.thr.fflags := rfl
@[simp] theorem State.pcNext_thr_frm (s : State) : (s.pcNext).thr.frm = s.thr.frm := rfl
@[simp] theorem State.pcNext_thr_mode (s : State) : (s.pcNext).thr.mode = s.thr.mode := rfl
@[simp] theorem State.pcNext_thr_convoy (s : State) : (s.pcNext).thr.convoy = s.thr.convoy := rfl
@[simp] theorem State.pcNext_thr_len (s : State) : (s.pcNext).thr.len = s.thr.len := rfl
@[simp] theorem State.pcNext_thr_vcap (s : State) : (s.pcNext).thr.vcap = s.thr.vcap := rfl
@[simp] theorem State.pcNext_thr_density (s : State) : (s.pcNext).thr.density = s.thr.density := rfl
@[simp] theorem State.pcNext_thr_xresume (s : State) : (s.pcNext).thr.xresume = s.thr.xresume := rfl
@[simp] theorem State.pcNext_thr_rngkey (s : State) : (s.pcNext).thr.rngkey = s.thr.rngkey := rfl
@[simp] theorem State.pcNext_thr_srctr (s : State) : (s.pcNext).thr.srctr = s.thr.srctr := rfl
@[simp] theorem State.pcNext_thr_cbsel (s : State) : (s.pcNext).thr.cbsel = s.thr.cbsel := rfl
@[simp] theorem State.pcNext_thr_twin (s : State) : (s.pcNext).thr.twin = s.thr.twin := rfl
@[simp] theorem State.pcNext_thr_lease (s : State) : (s.pcNext).thr.lease = s.thr.lease := rfl
@[simp] theorem State.pcNext_thr_racectl (s : State) : (s.pcNext).thr.racectl = s.thr.racectl := rfl
@[simp] theorem State.pcNext_thr_siv (s : State) : (s.pcNext).thr.siv = s.thr.siv := rfl
@[simp] theorem State.pcNext_thr_strm (s : State) : (s.pcNext).thr.strm = s.thr.strm := rfl
@[simp] theorem State.pcNext_thr_strmk (s : State) : (s.pcNext).thr.strmk = s.thr.strmk := rfl
@[simp] theorem State.pcNext_thr_knotbase (s : State) : (s.pcNext).thr.knotbase = s.thr.knotbase := rfl
@[simp] theorem State.pcNext_thr_knotstep (s : State) : (s.pcNext).thr.knotstep = s.thr.knotstep := rfl
@[simp] theorem State.pcNext_thr_knotcount (s : State) : (s.pcNext).thr.knotcount = s.thr.knotcount := rfl
@[simp] theorem State.pcNext_thr_knotclamp (s : State) : (s.pcNext).thr.knotclamp = s.thr.knotclamp := rfl
@[simp] theorem State.pcNext_thr_mxscale (s : State) : (s.pcNext).thr.mxscale = s.thr.mxscale := rfl
@[simp] theorem State.pcNext_thr_wtheta (s : State) : (s.pcNext).thr.wtheta = s.thr.wtheta := rfl
@[simp] theorem State.pcNext_thr_wkern (s : State) : (s.pcNext).thr.wkern = s.thr.wkern := rfl
@[simp] theorem State.pcNext_thr_npOpen (s : State) : (s.pcNext).thr.npOpen = s.thr.npOpen := rfl
@[simp] theorem State.pcNext_thr_npOvr (s : State) : (s.pcNext).thr.npOvr = s.thr.npOvr := rfl
@[simp] theorem State.pcNext_thr_fstat (s : State) : (s.pcNext).thr.fstat = s.thr.fstat := rfl
@[simp] theorem State.pcNext_thr_tvec (s : State) : (s.pcNext).thr.tvec = s.thr.tvec := rfl
@[simp] theorem State.pcNext_thr_epc (s : State) : (s.pcNext).thr.epc = s.thr.epc := rfl
@[simp] theorem State.pcNext_thr_cause (s : State) : (s.pcNext).thr.cause = s.thr.cause := rfl
@[simp] theorem State.pcNext_thr_tval (s : State) : (s.pcNext).thr.tval = s.thr.tval := rfl
@[simp] theorem State.pcNext_thr_sscratch (s : State) : (s.pcNext).thr.sscratch = s.thr.sscratch := rfl
@[simp] theorem State.pcNext_thr_grant (s : State) : (s.pcNext).thr.grant = s.thr.grant := rfl
@[simp] theorem State.pcNext_thr_demand (s : State) : (s.pcNext).thr.demand = s.thr.demand := rfl
@[simp] theorem State.pcNext_thr_width (s : State) : (s.pcNext).thr.width = s.thr.width := rfl
@[simp] theorem State.pcNext_thr_attached (s : State) : (s.pcNext).thr.attached = s.thr.attached := rfl
@[simp] theorem State.pcNext_thr_vrows (s : State) : (s.pcNext).thr.vrows = s.thr.vrows := rfl
@[simp] theorem State.pcNext_thr_mrows (s : State) : (s.pcNext).thr.mrows = s.thr.mrows := rfl
@[simp] theorem State.pcNext_thr_cbs (s : State) : (s.pcNext).thr.cbs = s.thr.cbs := rfl
@[simp] theorem State.pcNext_thr_array (s : State) : (s.pcNext).thr.array = s.thr.array := rfl
@[simp] theorem State.pcNext_thr_staging (s : State) : (s.pcNext).thr.staging = s.thr.staging := rfl
@[simp] theorem State.pcNext_thr_vrun (s : State) : (s.pcNext).thr.vrun = s.thr.vrun := rfl
@[simp] theorem State.pcNext_thr_pts (s : State) : (s.pcNext).thr.pts = s.thr.pts := rfl
@[simp] theorem State.pcNext_thr_acqGang (s : State) : (s.pcNext).thr.acqGang = s.thr.acqGang := rfl
@[simp] theorem State.pcNext_thr_acqOther (s : State) : (s.pcNext).thr.acqOther = s.thr.acqOther := rfl
@[simp] theorem State.pcNext_thr_barGen (s : State) : (s.pcNext).thr.barGen = s.thr.barGen := rfl
@[simp] theorem State.pcNext_thr_pend17 (s : State) : (s.pcNext).thr.pend17 = s.thr.pend17 := rfl
@[simp] theorem State.pcNext_thr_pend18 (s : State) : (s.pcNext).thr.pend18 = s.thr.pend18 := rfl
@[simp] theorem State.pcNext_thr_stopAt (s : State) : (s.pcNext).thr.stopAt = s.thr.stopAt := rfl
@[simp] theorem State.pcNext_thr_pfx (s : State) : (s.pcNext).thr.pfx = s.thr.pfx := rfl
@[simp] theorem State.pcNext_thr_inSpan (s : State) : (s.pcNext).thr.inSpan = s.thr.inSpan := rfl
@[simp] theorem State.pcNext_thr_stale (s : State) : (s.pcNext).thr.stale = s.thr.stale := rfl
@[simp] theorem State.pcNext_thr_poisonS (s : State) : (s.pcNext).thr.poisonS = s.thr.poisonS := rfl
@[simp] theorem State.pcNext_thr_poisonV (s : State) : (s.pcNext).thr.poisonV = s.thr.poisonV := rfl
@[simp] theorem State.pcNext_thr_known (s : State) : (s.pcNext).thr.known = s.thr.known := rfl
@[simp] theorem State.pcNext_thr_seen (s : State) : (s.pcNext).thr.seen = s.thr.seen := rfl
@[simp] theorem State.pcNext_thr_fenced (s : State) : (s.pcNext).thr.fenced = s.thr.fenced := rfl

@[simp] theorem State.pcTo_others (s : State) (a : Word) : (s.pcTo a).others = s.others := rfl
@[simp] theorem State.pcTo_gangs (s : State) (a : Word) : (s.pcTo a).gangs = s.gangs := rfl
@[simp] theorem State.pcTo_ops (s : State) (a : Word) : (s.pcTo a).ops = s.ops := rfl
@[simp] theorem State.pcTo_mem (s : State) (a : Word) : (s.pcTo a).mem = s.mem := rfl
@[simp] theorem State.pcTo_poison (s : State) (a : Word) : (s.pcTo a).poison = s.poison := rfl
@[simp] theorem State.pcTo_sectorKeys (s : State) (a : Word) : (s.pcTo a).sectorKeys = s.sectorKeys := rfl
@[simp] theorem State.pcTo_keySlots (s : State) (a : Word) : (s.pcTo a).keySlots = s.keySlots := rfl
@[simp] theorem State.pcTo_tlb (s : State) (a : Word) : (s.pcTo a).tlb = s.tlb := rfl
@[simp] theorem State.pcTo_tables (s : State) (a : Word) : (s.pcTo a).tables = s.tables := rfl
@[simp] theorem State.pcTo_l1 (s : State) (a : Word) : (s.pcTo a).l1 = s.l1 := rfl
@[simp] theorem State.pcTo_l1bad (s : State) (a : Word) : (s.pcTo a).l1bad = s.l1bad := rfl
@[simp] theorem State.pcTo_l2 (s : State) (a : Word) : (s.pcTo a).l2 = s.l2 := rfl
@[simp] theorem State.pcTo_stamps (s : State) (a : Word) : (s.pcTo a).stamps = s.stamps := rfl
@[simp] theorem State.pcTo_releases (s : State) (a : Word) : (s.pcTo a).releases = s.releases := rfl
@[simp] theorem State.pcTo_writes (s : State) (a : Word) : (s.pcTo a).writes = s.writes := rfl
@[simp] theorem State.pcTo_watches (s : State) (a : Word) : (s.pcTo a).watches = s.watches := rfl
@[simp] theorem State.pcTo_hts (s : State) (a : Word) : (s.pcTo a).hts = s.hts := rfl
@[simp] theorem State.pcTo_remoteHts (s : State) (a : Word) : (s.pcTo a).remoteHts = s.remoteHts := rfl
@[simp] theorem State.pcTo_dir (s : State) (a : Word) : (s.pcTo a).dir = s.dir := rfl
@[simp] theorem State.pcTo_moving (s : State) (a : Word) : (s.pcTo a).moving = s.moving := rfl
@[simp] theorem State.pcTo_requests (s : State) (a : Word) : (s.pcTo a).requests = s.requests := rfl
@[simp] theorem State.pcTo_heat (s : State) (a : Word) : (s.pcTo a).heat = s.heat := rfl
@[simp] theorem State.pcTo_samples (s : State) (a : Word) : (s.pcTo a).samples = s.samples := rfl
@[simp] theorem State.pcTo_embctl (s : State) (a : Word) : (s.pcTo a).embctl = s.embctl := rfl
@[simp] theorem State.pcTo_czraw (s : State) (a : Word) : (s.pcTo a).czraw = s.czraw := rfl
@[simp] theorem State.pcTo_czretry (s : State) (a : Word) : (s.pcTo a).czretry = s.czretry := rfl
@[simp] theorem State.pcTo_czovf (s : State) (a : Word) : (s.pcTo a).czovf = s.czovf := rfl
@[simp] theorem State.pcTo_czPending (s : State) (a : Word) : (s.pcTo a).czPending = s.czPending := rfl
@[simp] theorem State.pcTo_raceLogs (s : State) (a : Word) : (s.pcTo a).raceLogs = s.raceLogs := rfl
@[simp] theorem State.pcTo_bar0 (s : State) (a : Word) : (s.pcTo a).bar0 = s.bar0 := rfl
@[simp] theorem State.pcTo_budget (s : State) (a : Word) : (s.pcTo a).budget = s.budget := rfl
@[simp] theorem State.pcTo_devnum (s : State) (a : Word) : (s.pcTo a).devnum = s.devnum := rfl
@[simp] theorem State.pcTo_queues (s : State) (a : Word) : (s.pcTo a).queues = s.queues := rfl
@[simp] theorem State.pcTo_launches (s : State) (a : Word) : (s.pcTo a).launches = s.launches := rfl
@[simp] theorem State.pcTo_served (s : State) (a : Word) : (s.pcTo a).served = s.served := rfl
@[simp] theorem State.pcTo_emeter (s : State) (a : Word) : (s.pcTo a).emeter = s.emeter := rfl
@[simp] theorem State.pcTo_clkstep (s : State) (a : Word) : (s.pcTo a).clkstep = s.clkstep := rfl
@[simp] theorem State.pcTo_ewin (s : State) (a : Word) : (s.pcTo a).ewin = s.ewin := rfl
@[simp] theorem State.pcTo_lastMeters (s : State) (a : Word) : (s.pcTo a).lastMeters = s.lastMeters := rfl
@[simp] theorem State.pcTo_hotWindows (s : State) (a : Word) : (s.pcTo a).hotWindows = s.hotWindows := rfl
@[simp] theorem State.pcTo_window (s : State) (a : Word) : (s.pcTo a).window = s.window := rfl
@[simp] theorem State.pcTo_groups (s : State) (a : Word) : (s.pcTo a).groups = s.groups := rfl
@[simp] theorem State.pcTo_linkFails (s : State) (a : Word) : (s.pcTo a).linkFails = s.linkFails := rfl
@[simp] theorem State.pcTo_linksDown (s : State) (a : Word) : (s.pcTo a).linksDown = s.linksDown := rfl
@[simp] theorem State.pcTo_lost (s : State) (a : Word) : (s.pcTo a).lost = s.lost := rfl
@[simp] theorem State.pcTo_extents (s : State) (a : Word) : (s.pcTo a).extents = s.extents := rfl
@[simp] theorem State.pcTo_attests (s : State) (a : Word) : (s.pcTo a).attests = s.attests := rfl
@[simp] theorem State.pcTo_reports (s : State) (a : Word) : (s.pcTo a).reports = s.reports := rfl
@[simp] theorem State.pcTo_image (s : State) (a : Word) : (s.pcTo a).image = s.image := rfl
@[simp] theorem State.pcTo_rollback (s : State) (a : Word) : (s.pcTo a).rollback = s.rollback := rfl
@[simp] theorem State.pcTo_dstate (s : State) (a : Word) : (s.pcTo a).dstate = s.dstate := rfl
@[simp] theorem State.pcTo_d3req (s : State) (a : Word) : (s.pcTo a).d3req = s.d3req := rfl
@[simp] theorem State.pcTo_inlet (s : State) (a : Word) : (s.pcTo a).inlet = s.inlet := rfl
@[simp] theorem State.pcTo_flow (s : State) (a : Word) : (s.pcTo a).flow = s.flow := rfl
@[simp] theorem State.pcTo_fused (s : State) (a : Word) : (s.pcTo a).fused = s.fused := rfl
@[simp] theorem State.pcTo_images (s : State) (a : Word) : (s.pcTo a).images = s.images := rfl
@[simp] theorem State.pcTo_gangImages (s : State) (a : Word) : (s.pcTo a).gangImages = s.gangImages := rfl
@[simp] theorem State.pcTo_agenda (s : State) (a : Word) : (s.pcTo a).agenda = s.agenda := rfl
@[simp] theorem State.pcTo_arg (s : State) (a : Word) : (s.pcTo a).arg = s.arg := rfl
@[simp] theorem State.pcTo_turns (s : State) (a : Word) : (s.pcTo a).turns = s.turns := rfl
@[simp] theorem State.pcTo_free (s : State) (a : Word) : (s.pcTo a).free = s.free := rfl
@[simp] theorem State.pcTo_nextId (s : State) (a : Word) : (s.pcTo a).nextId = s.nextId := rfl
@[simp] theorem State.pcTo_thr_tid (s : State) (a : Word) : (s.pcTo a).thr.tid = s.thr.tid := rfl
@[simp] theorem State.pcTo_thr_gang (s : State) (a : Word) : (s.pcTo a).thr.gang = s.thr.gang := rfl
@[simp] theorem State.pcTo_thr_core (s : State) (a : Word) : (s.pcTo a).thr.core = s.thr.core := rfl
@[simp] theorem State.pcTo_thr_hearth (s : State) (a : Word) : (s.pcTo a).thr.hearth = s.thr.hearth := rfl
@[simp] theorem State.pcTo_thr_asid (s : State) (a : Word) : (s.pcTo a).thr.asid = s.thr.asid := rfl
@[simp] theorem State.pcTo_thr_index (s : State) (a : Word) : (s.pcTo a).thr.index = s.thr.index := rfl
@[simp] theorem State.pcTo_thr_stage (s : State) (a : Word) : (s.pcTo a).thr.stage = s.thr.stage := rfl
@[simp] theorem State.pcTo_thr_coord (s : State) (a : Word) : (s.pcTo a).thr.coord = s.thr.coord := rfl
@[simp] theorem State.pcTo_thr_phase (s : State) (a : Word) : (s.pcTo a).thr.phase = s.thr.phase := rfl
@[simp] theorem State.pcTo_thr_halted (s : State) (a : Word) : (s.pcTo a).thr.halted = s.thr.halted := rfl
@[simp] theorem State.pcTo_thr_pc (s : State) (a : Word) : (s.pcTo a).thr.pc = a := rfl
@[simp] theorem State.pcTo_thr_sregs (s : State) (a : Word) : (s.pcTo a).thr.sregs = s.thr.sregs := rfl
@[simp] theorem State.pcTo_thr_cycle (s : State) (a : Word) : (s.pcTo a).thr.cycle = s.thr.cycle := rfl
@[simp] theorem State.pcTo_thr_retired (s : State) (a : Word) : (s.pcTo a).thr.retired = s.thr.retired := rfl
@[simp] theorem State.pcTo_thr_status (s : State) (a : Word) : (s.pcTo a).thr.status = s.thr.status := rfl
@[simp] theorem State.pcTo_thr_fflags (s : State) (a : Word) : (s.pcTo a).thr.fflags = s.thr.fflags := rfl
@[simp] theorem State.pcTo_thr_frm (s : State) (a : Word) : (s.pcTo a).thr.frm = s.thr.frm := rfl
@[simp] theorem State.pcTo_thr_mode (s : State) (a : Word) : (s.pcTo a).thr.mode = s.thr.mode := rfl
@[simp] theorem State.pcTo_thr_convoy (s : State) (a : Word) : (s.pcTo a).thr.convoy = s.thr.convoy := rfl
@[simp] theorem State.pcTo_thr_len (s : State) (a : Word) : (s.pcTo a).thr.len = s.thr.len := rfl
@[simp] theorem State.pcTo_thr_vcap (s : State) (a : Word) : (s.pcTo a).thr.vcap = s.thr.vcap := rfl
@[simp] theorem State.pcTo_thr_density (s : State) (a : Word) : (s.pcTo a).thr.density = s.thr.density := rfl
@[simp] theorem State.pcTo_thr_xresume (s : State) (a : Word) : (s.pcTo a).thr.xresume = s.thr.xresume := rfl
@[simp] theorem State.pcTo_thr_rngkey (s : State) (a : Word) : (s.pcTo a).thr.rngkey = s.thr.rngkey := rfl
@[simp] theorem State.pcTo_thr_srctr (s : State) (a : Word) : (s.pcTo a).thr.srctr = s.thr.srctr := rfl
@[simp] theorem State.pcTo_thr_cbsel (s : State) (a : Word) : (s.pcTo a).thr.cbsel = s.thr.cbsel := rfl
@[simp] theorem State.pcTo_thr_twin (s : State) (a : Word) : (s.pcTo a).thr.twin = s.thr.twin := rfl
@[simp] theorem State.pcTo_thr_lease (s : State) (a : Word) : (s.pcTo a).thr.lease = s.thr.lease := rfl
@[simp] theorem State.pcTo_thr_racectl (s : State) (a : Word) : (s.pcTo a).thr.racectl = s.thr.racectl := rfl
@[simp] theorem State.pcTo_thr_siv (s : State) (a : Word) : (s.pcTo a).thr.siv = s.thr.siv := rfl
@[simp] theorem State.pcTo_thr_strm (s : State) (a : Word) : (s.pcTo a).thr.strm = s.thr.strm := rfl
@[simp] theorem State.pcTo_thr_strmk (s : State) (a : Word) : (s.pcTo a).thr.strmk = s.thr.strmk := rfl
@[simp] theorem State.pcTo_thr_knotbase (s : State) (a : Word) : (s.pcTo a).thr.knotbase = s.thr.knotbase := rfl
@[simp] theorem State.pcTo_thr_knotstep (s : State) (a : Word) : (s.pcTo a).thr.knotstep = s.thr.knotstep := rfl
@[simp] theorem State.pcTo_thr_knotcount (s : State) (a : Word) : (s.pcTo a).thr.knotcount = s.thr.knotcount := rfl
@[simp] theorem State.pcTo_thr_knotclamp (s : State) (a : Word) : (s.pcTo a).thr.knotclamp = s.thr.knotclamp := rfl
@[simp] theorem State.pcTo_thr_mxscale (s : State) (a : Word) : (s.pcTo a).thr.mxscale = s.thr.mxscale := rfl
@[simp] theorem State.pcTo_thr_wtheta (s : State) (a : Word) : (s.pcTo a).thr.wtheta = s.thr.wtheta := rfl
@[simp] theorem State.pcTo_thr_wkern (s : State) (a : Word) : (s.pcTo a).thr.wkern = s.thr.wkern := rfl
@[simp] theorem State.pcTo_thr_npOpen (s : State) (a : Word) : (s.pcTo a).thr.npOpen = s.thr.npOpen := rfl
@[simp] theorem State.pcTo_thr_npOvr (s : State) (a : Word) : (s.pcTo a).thr.npOvr = s.thr.npOvr := rfl
@[simp] theorem State.pcTo_thr_fstat (s : State) (a : Word) : (s.pcTo a).thr.fstat = s.thr.fstat := rfl
@[simp] theorem State.pcTo_thr_tvec (s : State) (a : Word) : (s.pcTo a).thr.tvec = s.thr.tvec := rfl
@[simp] theorem State.pcTo_thr_epc (s : State) (a : Word) : (s.pcTo a).thr.epc = s.thr.epc := rfl
@[simp] theorem State.pcTo_thr_cause (s : State) (a : Word) : (s.pcTo a).thr.cause = s.thr.cause := rfl
@[simp] theorem State.pcTo_thr_tval (s : State) (a : Word) : (s.pcTo a).thr.tval = s.thr.tval := rfl
@[simp] theorem State.pcTo_thr_sscratch (s : State) (a : Word) : (s.pcTo a).thr.sscratch = s.thr.sscratch := rfl
@[simp] theorem State.pcTo_thr_grant (s : State) (a : Word) : (s.pcTo a).thr.grant = s.thr.grant := rfl
@[simp] theorem State.pcTo_thr_demand (s : State) (a : Word) : (s.pcTo a).thr.demand = s.thr.demand := rfl
@[simp] theorem State.pcTo_thr_width (s : State) (a : Word) : (s.pcTo a).thr.width = s.thr.width := rfl
@[simp] theorem State.pcTo_thr_attached (s : State) (a : Word) : (s.pcTo a).thr.attached = s.thr.attached := rfl
@[simp] theorem State.pcTo_thr_vrows (s : State) (a : Word) : (s.pcTo a).thr.vrows = s.thr.vrows := rfl
@[simp] theorem State.pcTo_thr_mrows (s : State) (a : Word) : (s.pcTo a).thr.mrows = s.thr.mrows := rfl
@[simp] theorem State.pcTo_thr_cbs (s : State) (a : Word) : (s.pcTo a).thr.cbs = s.thr.cbs := rfl
@[simp] theorem State.pcTo_thr_array (s : State) (a : Word) : (s.pcTo a).thr.array = s.thr.array := rfl
@[simp] theorem State.pcTo_thr_staging (s : State) (a : Word) : (s.pcTo a).thr.staging = s.thr.staging := rfl
@[simp] theorem State.pcTo_thr_vrun (s : State) (a : Word) : (s.pcTo a).thr.vrun = s.thr.vrun := rfl
@[simp] theorem State.pcTo_thr_pts (s : State) (a : Word) : (s.pcTo a).thr.pts = s.thr.pts := rfl
@[simp] theorem State.pcTo_thr_acqGang (s : State) (a : Word) : (s.pcTo a).thr.acqGang = s.thr.acqGang := rfl
@[simp] theorem State.pcTo_thr_acqOther (s : State) (a : Word) : (s.pcTo a).thr.acqOther = s.thr.acqOther := rfl
@[simp] theorem State.pcTo_thr_barGen (s : State) (a : Word) : (s.pcTo a).thr.barGen = s.thr.barGen := rfl
@[simp] theorem State.pcTo_thr_pend17 (s : State) (a : Word) : (s.pcTo a).thr.pend17 = s.thr.pend17 := rfl
@[simp] theorem State.pcTo_thr_pend18 (s : State) (a : Word) : (s.pcTo a).thr.pend18 = s.thr.pend18 := rfl
@[simp] theorem State.pcTo_thr_stopAt (s : State) (a : Word) : (s.pcTo a).thr.stopAt = s.thr.stopAt := rfl
@[simp] theorem State.pcTo_thr_pfx (s : State) (a : Word) : (s.pcTo a).thr.pfx = s.thr.pfx := rfl
@[simp] theorem State.pcTo_thr_inSpan (s : State) (a : Word) : (s.pcTo a).thr.inSpan = s.thr.inSpan := rfl
@[simp] theorem State.pcTo_thr_stale (s : State) (a : Word) : (s.pcTo a).thr.stale = [] := rfl
@[simp] theorem State.pcTo_thr_poisonS (s : State) (a : Word) : (s.pcTo a).thr.poisonS = s.thr.poisonS := rfl
@[simp] theorem State.pcTo_thr_poisonV (s : State) (a : Word) : (s.pcTo a).thr.poisonV = s.thr.poisonV := rfl
@[simp] theorem State.pcTo_thr_known (s : State) (a : Word) : (s.pcTo a).thr.known = s.thr.known := rfl
@[simp] theorem State.pcTo_thr_seen (s : State) (a : Word) : (s.pcTo a).thr.seen = s.thr.seen := rfl
@[simp] theorem State.pcTo_thr_fenced (s : State) (a : Word) : (s.pcTo a).thr.fenced = s.thr.fenced := rfl

@[simp] theorem State.waitAt_others (s : State) (i : Instr) : (s.waitAt i).others = s.others := rfl
@[simp] theorem State.waitAt_gangs (s : State) (i : Instr) : (s.waitAt i).gangs = s.gangs := rfl
@[simp] theorem State.waitAt_ops (s : State) (i : Instr) : (s.waitAt i).ops = s.ops := rfl
@[simp] theorem State.waitAt_mem (s : State) (i : Instr) : (s.waitAt i).mem = s.mem := rfl
@[simp] theorem State.waitAt_poison (s : State) (i : Instr) : (s.waitAt i).poison = s.poison := rfl
@[simp] theorem State.waitAt_sectorKeys (s : State) (i : Instr) : (s.waitAt i).sectorKeys = s.sectorKeys := rfl
@[simp] theorem State.waitAt_keySlots (s : State) (i : Instr) : (s.waitAt i).keySlots = s.keySlots := rfl
@[simp] theorem State.waitAt_tlb (s : State) (i : Instr) : (s.waitAt i).tlb = s.tlb := rfl
@[simp] theorem State.waitAt_tables (s : State) (i : Instr) : (s.waitAt i).tables = s.tables := rfl
@[simp] theorem State.waitAt_l1 (s : State) (i : Instr) : (s.waitAt i).l1 = s.l1 := rfl
@[simp] theorem State.waitAt_l1bad (s : State) (i : Instr) : (s.waitAt i).l1bad = s.l1bad := rfl
@[simp] theorem State.waitAt_l2 (s : State) (i : Instr) : (s.waitAt i).l2 = s.l2 := rfl
@[simp] theorem State.waitAt_stamps (s : State) (i : Instr) : (s.waitAt i).stamps = s.stamps := rfl
@[simp] theorem State.waitAt_releases (s : State) (i : Instr) : (s.waitAt i).releases = s.releases := rfl
@[simp] theorem State.waitAt_writes (s : State) (i : Instr) : (s.waitAt i).writes = s.writes := rfl
@[simp] theorem State.waitAt_watches (s : State) (i : Instr) : (s.waitAt i).watches = s.watches := rfl
@[simp] theorem State.waitAt_hts (s : State) (i : Instr) : (s.waitAt i).hts = s.hts := rfl
@[simp] theorem State.waitAt_remoteHts (s : State) (i : Instr) : (s.waitAt i).remoteHts = s.remoteHts := rfl
@[simp] theorem State.waitAt_dir (s : State) (i : Instr) : (s.waitAt i).dir = s.dir := rfl
@[simp] theorem State.waitAt_moving (s : State) (i : Instr) : (s.waitAt i).moving = s.moving := rfl
@[simp] theorem State.waitAt_requests (s : State) (i : Instr) : (s.waitAt i).requests = s.requests := rfl
@[simp] theorem State.waitAt_heat (s : State) (i : Instr) : (s.waitAt i).heat = s.heat := rfl
@[simp] theorem State.waitAt_samples (s : State) (i : Instr) : (s.waitAt i).samples = s.samples := rfl
@[simp] theorem State.waitAt_embctl (s : State) (i : Instr) : (s.waitAt i).embctl = s.embctl := rfl
@[simp] theorem State.waitAt_czraw (s : State) (i : Instr) : (s.waitAt i).czraw = s.czraw := rfl
@[simp] theorem State.waitAt_czretry (s : State) (i : Instr) : (s.waitAt i).czretry = s.czretry := rfl
@[simp] theorem State.waitAt_czovf (s : State) (i : Instr) : (s.waitAt i).czovf = s.czovf := rfl
@[simp] theorem State.waitAt_czPending (s : State) (i : Instr) : (s.waitAt i).czPending = s.czPending := rfl
@[simp] theorem State.waitAt_raceLogs (s : State) (i : Instr) : (s.waitAt i).raceLogs = s.raceLogs := rfl
@[simp] theorem State.waitAt_bar0 (s : State) (i : Instr) : (s.waitAt i).bar0 = s.bar0 := rfl
@[simp] theorem State.waitAt_budget (s : State) (i : Instr) : (s.waitAt i).budget = s.budget := rfl
@[simp] theorem State.waitAt_devnum (s : State) (i : Instr) : (s.waitAt i).devnum = s.devnum := rfl
@[simp] theorem State.waitAt_queues (s : State) (i : Instr) : (s.waitAt i).queues = s.queues := rfl
@[simp] theorem State.waitAt_launches (s : State) (i : Instr) : (s.waitAt i).launches = s.launches := rfl
@[simp] theorem State.waitAt_served (s : State) (i : Instr) : (s.waitAt i).served = s.served := rfl
@[simp] theorem State.waitAt_emeter (s : State) (i : Instr) : (s.waitAt i).emeter = s.emeter := rfl
@[simp] theorem State.waitAt_clkstep (s : State) (i : Instr) : (s.waitAt i).clkstep = s.clkstep := rfl
@[simp] theorem State.waitAt_ewin (s : State) (i : Instr) : (s.waitAt i).ewin = s.ewin := rfl
@[simp] theorem State.waitAt_lastMeters (s : State) (i : Instr) : (s.waitAt i).lastMeters = s.lastMeters := rfl
@[simp] theorem State.waitAt_hotWindows (s : State) (i : Instr) : (s.waitAt i).hotWindows = s.hotWindows := rfl
@[simp] theorem State.waitAt_window (s : State) (i : Instr) : (s.waitAt i).window = s.window := rfl
@[simp] theorem State.waitAt_groups (s : State) (i : Instr) : (s.waitAt i).groups = s.groups := rfl
@[simp] theorem State.waitAt_linkFails (s : State) (i : Instr) : (s.waitAt i).linkFails = s.linkFails := rfl
@[simp] theorem State.waitAt_linksDown (s : State) (i : Instr) : (s.waitAt i).linksDown = s.linksDown := rfl
@[simp] theorem State.waitAt_lost (s : State) (i : Instr) : (s.waitAt i).lost = s.lost := rfl
@[simp] theorem State.waitAt_extents (s : State) (i : Instr) : (s.waitAt i).extents = s.extents := rfl
@[simp] theorem State.waitAt_attests (s : State) (i : Instr) : (s.waitAt i).attests = s.attests := rfl
@[simp] theorem State.waitAt_reports (s : State) (i : Instr) : (s.waitAt i).reports = s.reports := rfl
@[simp] theorem State.waitAt_image (s : State) (i : Instr) : (s.waitAt i).image = s.image := rfl
@[simp] theorem State.waitAt_rollback (s : State) (i : Instr) : (s.waitAt i).rollback = s.rollback := rfl
@[simp] theorem State.waitAt_dstate (s : State) (i : Instr) : (s.waitAt i).dstate = s.dstate := rfl
@[simp] theorem State.waitAt_d3req (s : State) (i : Instr) : (s.waitAt i).d3req = s.d3req := rfl
@[simp] theorem State.waitAt_inlet (s : State) (i : Instr) : (s.waitAt i).inlet = s.inlet := rfl
@[simp] theorem State.waitAt_flow (s : State) (i : Instr) : (s.waitAt i).flow = s.flow := rfl
@[simp] theorem State.waitAt_fused (s : State) (i : Instr) : (s.waitAt i).fused = s.fused := rfl
@[simp] theorem State.waitAt_images (s : State) (i : Instr) : (s.waitAt i).images = s.images := rfl
@[simp] theorem State.waitAt_gangImages (s : State) (i : Instr) : (s.waitAt i).gangImages = s.gangImages := rfl
@[simp] theorem State.waitAt_agenda (s : State) (i : Instr) : (s.waitAt i).agenda = s.agenda := rfl
@[simp] theorem State.waitAt_arg (s : State) (i : Instr) : (s.waitAt i).arg = s.arg := rfl
@[simp] theorem State.waitAt_turns (s : State) (i : Instr) : (s.waitAt i).turns = s.turns := rfl
@[simp] theorem State.waitAt_free (s : State) (i : Instr) : (s.waitAt i).free = s.free := rfl
@[simp] theorem State.waitAt_nextId (s : State) (i : Instr) : (s.waitAt i).nextId = s.nextId := rfl
@[simp] theorem State.waitAt_thr_tid (s : State) (i : Instr) : (s.waitAt i).thr.tid = s.thr.tid := rfl
@[simp] theorem State.waitAt_thr_gang (s : State) (i : Instr) : (s.waitAt i).thr.gang = s.thr.gang := rfl
@[simp] theorem State.waitAt_thr_core (s : State) (i : Instr) : (s.waitAt i).thr.core = s.thr.core := rfl
@[simp] theorem State.waitAt_thr_hearth (s : State) (i : Instr) : (s.waitAt i).thr.hearth = s.thr.hearth := rfl
@[simp] theorem State.waitAt_thr_asid (s : State) (i : Instr) : (s.waitAt i).thr.asid = s.thr.asid := rfl
@[simp] theorem State.waitAt_thr_index (s : State) (i : Instr) : (s.waitAt i).thr.index = s.thr.index := rfl
@[simp] theorem State.waitAt_thr_stage (s : State) (i : Instr) : (s.waitAt i).thr.stage = s.thr.stage := rfl
@[simp] theorem State.waitAt_thr_coord (s : State) (i : Instr) : (s.waitAt i).thr.coord = s.thr.coord := rfl
@[simp] theorem State.waitAt_thr_phase (s : State) (i : Instr) : (s.waitAt i).thr.phase = .waiting i := rfl
@[simp] theorem State.waitAt_thr_halted (s : State) (i : Instr) : (s.waitAt i).thr.halted = s.thr.halted := rfl
@[simp] theorem State.waitAt_thr_pc (s : State) (i : Instr) : (s.waitAt i).thr.pc = s.thr.pc := rfl
@[simp] theorem State.waitAt_thr_sregs (s : State) (i : Instr) : (s.waitAt i).thr.sregs = s.thr.sregs := rfl
@[simp] theorem State.waitAt_thr_cycle (s : State) (i : Instr) : (s.waitAt i).thr.cycle = s.thr.cycle := rfl
@[simp] theorem State.waitAt_thr_retired (s : State) (i : Instr) : (s.waitAt i).thr.retired = s.thr.retired := rfl
@[simp] theorem State.waitAt_thr_status (s : State) (i : Instr) : (s.waitAt i).thr.status = s.thr.status := rfl
@[simp] theorem State.waitAt_thr_fflags (s : State) (i : Instr) : (s.waitAt i).thr.fflags = s.thr.fflags := rfl
@[simp] theorem State.waitAt_thr_frm (s : State) (i : Instr) : (s.waitAt i).thr.frm = s.thr.frm := rfl
@[simp] theorem State.waitAt_thr_mode (s : State) (i : Instr) : (s.waitAt i).thr.mode = s.thr.mode := rfl
@[simp] theorem State.waitAt_thr_convoy (s : State) (i : Instr) : (s.waitAt i).thr.convoy = s.thr.convoy := rfl
@[simp] theorem State.waitAt_thr_len (s : State) (i : Instr) : (s.waitAt i).thr.len = s.thr.len := rfl
@[simp] theorem State.waitAt_thr_vcap (s : State) (i : Instr) : (s.waitAt i).thr.vcap = s.thr.vcap := rfl
@[simp] theorem State.waitAt_thr_density (s : State) (i : Instr) : (s.waitAt i).thr.density = s.thr.density := rfl
@[simp] theorem State.waitAt_thr_xresume (s : State) (i : Instr) : (s.waitAt i).thr.xresume = s.thr.xresume := rfl
@[simp] theorem State.waitAt_thr_rngkey (s : State) (i : Instr) : (s.waitAt i).thr.rngkey = s.thr.rngkey := rfl
@[simp] theorem State.waitAt_thr_srctr (s : State) (i : Instr) : (s.waitAt i).thr.srctr = s.thr.srctr := rfl
@[simp] theorem State.waitAt_thr_cbsel (s : State) (i : Instr) : (s.waitAt i).thr.cbsel = s.thr.cbsel := rfl
@[simp] theorem State.waitAt_thr_twin (s : State) (i : Instr) : (s.waitAt i).thr.twin = s.thr.twin := rfl
@[simp] theorem State.waitAt_thr_lease (s : State) (i : Instr) : (s.waitAt i).thr.lease = s.thr.lease := rfl
@[simp] theorem State.waitAt_thr_racectl (s : State) (i : Instr) : (s.waitAt i).thr.racectl = s.thr.racectl := rfl
@[simp] theorem State.waitAt_thr_siv (s : State) (i : Instr) : (s.waitAt i).thr.siv = s.thr.siv := rfl
@[simp] theorem State.waitAt_thr_strm (s : State) (i : Instr) : (s.waitAt i).thr.strm = s.thr.strm := rfl
@[simp] theorem State.waitAt_thr_strmk (s : State) (i : Instr) : (s.waitAt i).thr.strmk = s.thr.strmk := rfl
@[simp] theorem State.waitAt_thr_knotbase (s : State) (i : Instr) : (s.waitAt i).thr.knotbase = s.thr.knotbase := rfl
@[simp] theorem State.waitAt_thr_knotstep (s : State) (i : Instr) : (s.waitAt i).thr.knotstep = s.thr.knotstep := rfl
@[simp] theorem State.waitAt_thr_knotcount (s : State) (i : Instr) : (s.waitAt i).thr.knotcount = s.thr.knotcount := rfl
@[simp] theorem State.waitAt_thr_knotclamp (s : State) (i : Instr) : (s.waitAt i).thr.knotclamp = s.thr.knotclamp := rfl
@[simp] theorem State.waitAt_thr_mxscale (s : State) (i : Instr) : (s.waitAt i).thr.mxscale = s.thr.mxscale := rfl
@[simp] theorem State.waitAt_thr_wtheta (s : State) (i : Instr) : (s.waitAt i).thr.wtheta = s.thr.wtheta := rfl
@[simp] theorem State.waitAt_thr_wkern (s : State) (i : Instr) : (s.waitAt i).thr.wkern = s.thr.wkern := rfl
@[simp] theorem State.waitAt_thr_npOpen (s : State) (i : Instr) : (s.waitAt i).thr.npOpen = s.thr.npOpen := rfl
@[simp] theorem State.waitAt_thr_npOvr (s : State) (i : Instr) : (s.waitAt i).thr.npOvr = s.thr.npOvr := rfl
@[simp] theorem State.waitAt_thr_fstat (s : State) (i : Instr) : (s.waitAt i).thr.fstat = s.thr.fstat := rfl
@[simp] theorem State.waitAt_thr_tvec (s : State) (i : Instr) : (s.waitAt i).thr.tvec = s.thr.tvec := rfl
@[simp] theorem State.waitAt_thr_epc (s : State) (i : Instr) : (s.waitAt i).thr.epc = s.thr.epc := rfl
@[simp] theorem State.waitAt_thr_cause (s : State) (i : Instr) : (s.waitAt i).thr.cause = s.thr.cause := rfl
@[simp] theorem State.waitAt_thr_tval (s : State) (i : Instr) : (s.waitAt i).thr.tval = s.thr.tval := rfl
@[simp] theorem State.waitAt_thr_sscratch (s : State) (i : Instr) : (s.waitAt i).thr.sscratch = s.thr.sscratch := rfl
@[simp] theorem State.waitAt_thr_grant (s : State) (i : Instr) : (s.waitAt i).thr.grant = s.thr.grant := rfl
@[simp] theorem State.waitAt_thr_demand (s : State) (i : Instr) : (s.waitAt i).thr.demand = s.thr.demand := rfl
@[simp] theorem State.waitAt_thr_width (s : State) (i : Instr) : (s.waitAt i).thr.width = s.thr.width := rfl
@[simp] theorem State.waitAt_thr_attached (s : State) (i : Instr) : (s.waitAt i).thr.attached = s.thr.attached := rfl
@[simp] theorem State.waitAt_thr_vrows (s : State) (i : Instr) : (s.waitAt i).thr.vrows = s.thr.vrows := rfl
@[simp] theorem State.waitAt_thr_mrows (s : State) (i : Instr) : (s.waitAt i).thr.mrows = s.thr.mrows := rfl
@[simp] theorem State.waitAt_thr_cbs (s : State) (i : Instr) : (s.waitAt i).thr.cbs = s.thr.cbs := rfl
@[simp] theorem State.waitAt_thr_array (s : State) (i : Instr) : (s.waitAt i).thr.array = s.thr.array := rfl
@[simp] theorem State.waitAt_thr_staging (s : State) (i : Instr) : (s.waitAt i).thr.staging = s.thr.staging := rfl
@[simp] theorem State.waitAt_thr_vrun (s : State) (i : Instr) : (s.waitAt i).thr.vrun = s.thr.vrun := rfl
@[simp] theorem State.waitAt_thr_pts (s : State) (i : Instr) : (s.waitAt i).thr.pts = s.thr.pts := rfl
@[simp] theorem State.waitAt_thr_acqGang (s : State) (i : Instr) : (s.waitAt i).thr.acqGang = s.thr.acqGang := rfl
@[simp] theorem State.waitAt_thr_acqOther (s : State) (i : Instr) : (s.waitAt i).thr.acqOther = s.thr.acqOther := rfl
@[simp] theorem State.waitAt_thr_barGen (s : State) (i : Instr) : (s.waitAt i).thr.barGen = s.thr.barGen := rfl
@[simp] theorem State.waitAt_thr_pend17 (s : State) (i : Instr) : (s.waitAt i).thr.pend17 = s.thr.pend17 := rfl
@[simp] theorem State.waitAt_thr_pend18 (s : State) (i : Instr) : (s.waitAt i).thr.pend18 = s.thr.pend18 := rfl
@[simp] theorem State.waitAt_thr_stopAt (s : State) (i : Instr) : (s.waitAt i).thr.stopAt = none := rfl
@[simp] theorem State.waitAt_thr_pfx (s : State) (i : Instr) : (s.waitAt i).thr.pfx = s.thr.pfx := rfl
@[simp] theorem State.waitAt_thr_inSpan (s : State) (i : Instr) : (s.waitAt i).thr.inSpan = s.thr.inSpan := rfl
@[simp] theorem State.waitAt_thr_stale (s : State) (i : Instr) : (s.waitAt i).thr.stale = s.thr.stale := rfl
@[simp] theorem State.waitAt_thr_poisonS (s : State) (i : Instr) : (s.waitAt i).thr.poisonS = s.thr.poisonS := rfl
@[simp] theorem State.waitAt_thr_poisonV (s : State) (i : Instr) : (s.waitAt i).thr.poisonV = s.thr.poisonV := rfl
@[simp] theorem State.waitAt_thr_known (s : State) (i : Instr) : (s.waitAt i).thr.known = s.thr.known := rfl
@[simp] theorem State.waitAt_thr_seen (s : State) (i : Instr) : (s.waitAt i).thr.seen = s.thr.seen := rfl
@[simp] theorem State.waitAt_thr_fenced (s : State) (i : Instr) : (s.waitAt i).thr.fenced = s.thr.fenced := rfl

@[simp] theorem State.retire_others (s : State) : (s.retire).others = s.others := rfl
@[simp] theorem State.retire_gangs (s : State) : (s.retire).gangs = s.gangs := rfl
@[simp] theorem State.retire_ops (s : State) : (s.retire).ops = s.ops := rfl
@[simp] theorem State.retire_mem (s : State) : (s.retire).mem = s.mem := rfl
@[simp] theorem State.retire_poison (s : State) : (s.retire).poison = s.poison := rfl
@[simp] theorem State.retire_sectorKeys (s : State) : (s.retire).sectorKeys = s.sectorKeys := rfl
@[simp] theorem State.retire_keySlots (s : State) : (s.retire).keySlots = s.keySlots := rfl
@[simp] theorem State.retire_tlb (s : State) : (s.retire).tlb = s.tlb := rfl
@[simp] theorem State.retire_tables (s : State) : (s.retire).tables = s.tables := rfl
@[simp] theorem State.retire_l1 (s : State) : (s.retire).l1 = s.l1 := rfl
@[simp] theorem State.retire_l1bad (s : State) : (s.retire).l1bad = s.l1bad := rfl
@[simp] theorem State.retire_l2 (s : State) : (s.retire).l2 = s.l2 := rfl
@[simp] theorem State.retire_stamps (s : State) : (s.retire).stamps = s.stamps := rfl
@[simp] theorem State.retire_releases (s : State) : (s.retire).releases = s.releases := rfl
@[simp] theorem State.retire_writes (s : State) : (s.retire).writes = s.writes := rfl
@[simp] theorem State.retire_watches (s : State) : (s.retire).watches = s.watches := rfl
@[simp] theorem State.retire_hts (s : State) : (s.retire).hts = s.hts := rfl
@[simp] theorem State.retire_remoteHts (s : State) : (s.retire).remoteHts = s.remoteHts := rfl
@[simp] theorem State.retire_dir (s : State) : (s.retire).dir = s.dir := rfl
@[simp] theorem State.retire_moving (s : State) : (s.retire).moving = s.moving := rfl
@[simp] theorem State.retire_requests (s : State) : (s.retire).requests = s.requests := rfl
@[simp] theorem State.retire_heat (s : State) : (s.retire).heat = s.heat := rfl
@[simp] theorem State.retire_samples (s : State) : (s.retire).samples = s.samples := rfl
@[simp] theorem State.retire_embctl (s : State) : (s.retire).embctl = s.embctl := rfl
@[simp] theorem State.retire_czraw (s : State) : (s.retire).czraw = s.czraw := rfl
@[simp] theorem State.retire_czretry (s : State) : (s.retire).czretry = s.czretry := rfl
@[simp] theorem State.retire_czovf (s : State) : (s.retire).czovf = s.czovf := rfl
@[simp] theorem State.retire_czPending (s : State) : (s.retire).czPending = s.czPending := rfl
@[simp] theorem State.retire_raceLogs (s : State) : (s.retire).raceLogs = s.raceLogs := rfl
@[simp] theorem State.retire_bar0 (s : State) : (s.retire).bar0 = s.bar0 := rfl
@[simp] theorem State.retire_budget (s : State) : (s.retire).budget = s.budget := rfl
@[simp] theorem State.retire_devnum (s : State) : (s.retire).devnum = s.devnum := rfl
@[simp] theorem State.retire_queues (s : State) : (s.retire).queues = s.queues := rfl
@[simp] theorem State.retire_launches (s : State) : (s.retire).launches = s.launches := rfl
@[simp] theorem State.retire_served (s : State) : (s.retire).served = s.served := rfl
@[simp] theorem State.retire_emeter (s : State) : (s.retire).emeter = s.emeter := rfl
@[simp] theorem State.retire_clkstep (s : State) : (s.retire).clkstep = s.clkstep := rfl
@[simp] theorem State.retire_ewin (s : State) : (s.retire).ewin = s.ewin := rfl
@[simp] theorem State.retire_lastMeters (s : State) : (s.retire).lastMeters = s.lastMeters := rfl
@[simp] theorem State.retire_hotWindows (s : State) : (s.retire).hotWindows = s.hotWindows := rfl
@[simp] theorem State.retire_window (s : State) : (s.retire).window = s.window := rfl
@[simp] theorem State.retire_groups (s : State) : (s.retire).groups = s.groups := rfl
@[simp] theorem State.retire_linkFails (s : State) : (s.retire).linkFails = s.linkFails := rfl
@[simp] theorem State.retire_linksDown (s : State) : (s.retire).linksDown = s.linksDown := rfl
@[simp] theorem State.retire_lost (s : State) : (s.retire).lost = s.lost := rfl
@[simp] theorem State.retire_extents (s : State) : (s.retire).extents = s.extents := rfl
@[simp] theorem State.retire_attests (s : State) : (s.retire).attests = s.attests := rfl
@[simp] theorem State.retire_reports (s : State) : (s.retire).reports = s.reports := rfl
@[simp] theorem State.retire_image (s : State) : (s.retire).image = s.image := rfl
@[simp] theorem State.retire_rollback (s : State) : (s.retire).rollback = s.rollback := rfl
@[simp] theorem State.retire_dstate (s : State) : (s.retire).dstate = s.dstate := rfl
@[simp] theorem State.retire_d3req (s : State) : (s.retire).d3req = s.d3req := rfl
@[simp] theorem State.retire_inlet (s : State) : (s.retire).inlet = s.inlet := rfl
@[simp] theorem State.retire_flow (s : State) : (s.retire).flow = s.flow := rfl
@[simp] theorem State.retire_fused (s : State) : (s.retire).fused = s.fused := rfl
@[simp] theorem State.retire_images (s : State) : (s.retire).images = s.images := rfl
@[simp] theorem State.retire_gangImages (s : State) : (s.retire).gangImages = s.gangImages := rfl
@[simp] theorem State.retire_agenda (s : State) : (s.retire).agenda = s.agenda := rfl
@[simp] theorem State.retire_arg (s : State) : (s.retire).arg = s.arg := rfl
@[simp] theorem State.retire_turns (s : State) : (s.retire).turns = s.turns := rfl
@[simp] theorem State.retire_nextId (s : State) : (s.retire).nextId = s.nextId := rfl
@[simp] theorem State.retire_free (s : State) : s.retire.free = s.free + 1 := rfl
@[simp] theorem State.retire_thr_tid (s : State) : (s.retire).thr.tid = s.thr.tid := rfl
@[simp] theorem State.retire_thr_gang (s : State) : (s.retire).thr.gang = s.thr.gang := rfl
@[simp] theorem State.retire_thr_core (s : State) : (s.retire).thr.core = s.thr.core := rfl
@[simp] theorem State.retire_thr_hearth (s : State) : (s.retire).thr.hearth = s.thr.hearth := rfl
@[simp] theorem State.retire_thr_asid (s : State) : (s.retire).thr.asid = s.thr.asid := rfl
@[simp] theorem State.retire_thr_index (s : State) : (s.retire).thr.index = s.thr.index := rfl
@[simp] theorem State.retire_thr_stage (s : State) : (s.retire).thr.stage = s.thr.stage := rfl
@[simp] theorem State.retire_thr_coord (s : State) : (s.retire).thr.coord = s.thr.coord := rfl
@[simp] theorem State.retire_thr_phase (s : State) : (s.retire).thr.phase = .running := rfl
@[simp] theorem State.retire_thr_halted (s : State) : (s.retire).thr.halted = s.thr.halted := rfl
@[simp] theorem State.retire_thr_pc (s : State) : (s.retire).thr.pc = s.thr.pc := rfl
@[simp] theorem State.retire_thr_sregs (s : State) : (s.retire).thr.sregs = s.thr.sregs := rfl
@[simp] theorem State.retire_thr_cycle (s : State) : (s.retire).thr.cycle = s.thr.cycle + BitVec.ofNat 64 (Config.cyclesOf s.free) := rfl
@[simp] theorem State.retire_thr_retired (s : State) : (s.retire).thr.retired = s.thr.retired + (if s.thr.pfx.isSome then 2 else 1) := rfl
@[simp] theorem State.retire_thr_status (s : State) : (s.retire).thr.status = s.thr.status := rfl
@[simp] theorem State.retire_thr_fflags (s : State) : (s.retire).thr.fflags = s.thr.fflags := rfl
@[simp] theorem State.retire_thr_frm (s : State) : (s.retire).thr.frm = s.thr.frm := rfl
@[simp] theorem State.retire_thr_mode (s : State) : (s.retire).thr.mode = s.thr.mode := rfl
@[simp] theorem State.retire_thr_convoy (s : State) : (s.retire).thr.convoy = s.thr.convoy := rfl
@[simp] theorem State.retire_thr_len (s : State) : (s.retire).thr.len = s.thr.len := rfl
@[simp] theorem State.retire_thr_vcap (s : State) : (s.retire).thr.vcap = s.thr.vcap := rfl
@[simp] theorem State.retire_thr_density (s : State) : (s.retire).thr.density = s.thr.density := rfl
@[simp] theorem State.retire_thr_xresume (s : State) : (s.retire).thr.xresume = s.thr.xresume := rfl
@[simp] theorem State.retire_thr_rngkey (s : State) : (s.retire).thr.rngkey = s.thr.rngkey := rfl
@[simp] theorem State.retire_thr_srctr (s : State) : (s.retire).thr.srctr = s.thr.srctr := rfl
@[simp] theorem State.retire_thr_cbsel (s : State) : (s.retire).thr.cbsel = s.thr.cbsel := rfl
@[simp] theorem State.retire_thr_twin (s : State) : (s.retire).thr.twin = s.thr.twin := rfl
@[simp] theorem State.retire_thr_lease (s : State) : (s.retire).thr.lease = s.thr.lease := rfl
@[simp] theorem State.retire_thr_racectl (s : State) : (s.retire).thr.racectl = s.thr.racectl := rfl
@[simp] theorem State.retire_thr_siv (s : State) : (s.retire).thr.siv = s.thr.siv := rfl
@[simp] theorem State.retire_thr_strm (s : State) : (s.retire).thr.strm = s.thr.strm := rfl
@[simp] theorem State.retire_thr_strmk (s : State) : (s.retire).thr.strmk = s.thr.strmk := rfl
@[simp] theorem State.retire_thr_knotbase (s : State) : (s.retire).thr.knotbase = s.thr.knotbase := rfl
@[simp] theorem State.retire_thr_knotstep (s : State) : (s.retire).thr.knotstep = s.thr.knotstep := rfl
@[simp] theorem State.retire_thr_knotcount (s : State) : (s.retire).thr.knotcount = s.thr.knotcount := rfl
@[simp] theorem State.retire_thr_knotclamp (s : State) : (s.retire).thr.knotclamp = s.thr.knotclamp := rfl
@[simp] theorem State.retire_thr_mxscale (s : State) : (s.retire).thr.mxscale = s.thr.mxscale := rfl
@[simp] theorem State.retire_thr_wtheta (s : State) : (s.retire).thr.wtheta = s.thr.wtheta := rfl
@[simp] theorem State.retire_thr_wkern (s : State) : (s.retire).thr.wkern = s.thr.wkern := rfl
@[simp] theorem State.retire_thr_npOpen (s : State) : (s.retire).thr.npOpen = s.thr.npOpen := rfl
@[simp] theorem State.retire_thr_npOvr (s : State) : (s.retire).thr.npOvr = s.thr.npOvr := rfl
@[simp] theorem State.retire_thr_fstat (s : State) : (s.retire).thr.fstat = s.thr.fstat := rfl
@[simp] theorem State.retire_thr_tvec (s : State) : (s.retire).thr.tvec = s.thr.tvec := rfl
@[simp] theorem State.retire_thr_epc (s : State) : (s.retire).thr.epc = s.thr.epc := rfl
@[simp] theorem State.retire_thr_cause (s : State) : (s.retire).thr.cause = s.thr.cause := rfl
@[simp] theorem State.retire_thr_tval (s : State) : (s.retire).thr.tval = s.thr.tval := rfl
@[simp] theorem State.retire_thr_sscratch (s : State) : (s.retire).thr.sscratch = s.thr.sscratch := rfl
@[simp] theorem State.retire_thr_grant (s : State) : (s.retire).thr.grant = s.thr.grant := rfl
@[simp] theorem State.retire_thr_demand (s : State) : (s.retire).thr.demand = s.thr.demand := rfl
@[simp] theorem State.retire_thr_width (s : State) : (s.retire).thr.width = s.thr.width := rfl
@[simp] theorem State.retire_thr_attached (s : State) : (s.retire).thr.attached = s.thr.attached := rfl
@[simp] theorem State.retire_thr_vrows (s : State) : (s.retire).thr.vrows = s.thr.vrows := rfl
@[simp] theorem State.retire_thr_mrows (s : State) : (s.retire).thr.mrows = s.thr.mrows := rfl
@[simp] theorem State.retire_thr_cbs (s : State) : (s.retire).thr.cbs = s.thr.cbs := rfl
@[simp] theorem State.retire_thr_array (s : State) : (s.retire).thr.array = s.thr.array := rfl
@[simp] theorem State.retire_thr_staging (s : State) : (s.retire).thr.staging = s.thr.staging := rfl
@[simp] theorem State.retire_thr_vrun (s : State) : (s.retire).thr.vrun = s.thr.vrun := rfl
@[simp] theorem State.retire_thr_pts (s : State) : (s.retire).thr.pts = s.thr.pts := rfl
@[simp] theorem State.retire_thr_acqGang (s : State) : (s.retire).thr.acqGang = s.thr.acqGang := rfl
@[simp] theorem State.retire_thr_acqOther (s : State) : (s.retire).thr.acqOther = s.thr.acqOther := rfl
@[simp] theorem State.retire_thr_barGen (s : State) : (s.retire).thr.barGen = s.thr.barGen := rfl
@[simp] theorem State.retire_thr_pend17 (s : State) : (s.retire).thr.pend17 = s.thr.pend17 := rfl
@[simp] theorem State.retire_thr_pend18 (s : State) : (s.retire).thr.pend18 = s.thr.pend18 := rfl
@[simp] theorem State.retire_thr_stopAt (s : State) : (s.retire).thr.stopAt = none := rfl
@[simp] theorem State.retire_thr_pfx (s : State) : (s.retire).thr.pfx = none := rfl
@[simp] theorem State.retire_thr_inSpan (s : State) : (s.retire).thr.inSpan = s.thr.inSpan := rfl
@[simp] theorem State.retire_thr_stale (s : State) : (s.retire).thr.stale = s.thr.stale := rfl
@[simp] theorem State.retire_thr_poisonS (s : State) : (s.retire).thr.poisonS = s.thr.poisonS := rfl
@[simp] theorem State.retire_thr_poisonV (s : State) : (s.retire).thr.poisonV = s.thr.poisonV := rfl
@[simp] theorem State.retire_thr_known (s : State) : (s.retire).thr.known = s.thr.known := rfl
@[simp] theorem State.retire_thr_seen (s : State) : (s.retire).thr.seen = s.thr.seen := rfl
@[simp] theorem State.retire_thr_fenced (s : State) : (s.retire).thr.fenced = s.thr.fenced := rfl

/-! ## Flags, lengths, and a gang -/

@[simp] theorem State.addFlags_others (s : State) (x : Flags) : (s.addFlags x).others = s.others := rfl
@[simp] theorem State.addFlags_gangs (s : State) (x : Flags) : (s.addFlags x).gangs = s.gangs := rfl
@[simp] theorem State.addFlags_ops (s : State) (x : Flags) : (s.addFlags x).ops = s.ops := rfl
@[simp] theorem State.addFlags_mem (s : State) (x : Flags) : (s.addFlags x).mem = s.mem := rfl
@[simp] theorem State.addFlags_poison (s : State) (x : Flags) : (s.addFlags x).poison = s.poison := rfl
@[simp] theorem State.addFlags_sectorKeys (s : State) (x : Flags) : (s.addFlags x).sectorKeys = s.sectorKeys := rfl
@[simp] theorem State.addFlags_keySlots (s : State) (x : Flags) : (s.addFlags x).keySlots = s.keySlots := rfl
@[simp] theorem State.addFlags_tlb (s : State) (x : Flags) : (s.addFlags x).tlb = s.tlb := rfl
@[simp] theorem State.addFlags_tables (s : State) (x : Flags) : (s.addFlags x).tables = s.tables := rfl
@[simp] theorem State.addFlags_l1 (s : State) (x : Flags) : (s.addFlags x).l1 = s.l1 := rfl
@[simp] theorem State.addFlags_l1bad (s : State) (x : Flags) : (s.addFlags x).l1bad = s.l1bad := rfl
@[simp] theorem State.addFlags_l2 (s : State) (x : Flags) : (s.addFlags x).l2 = s.l2 := rfl
@[simp] theorem State.addFlags_stamps (s : State) (x : Flags) : (s.addFlags x).stamps = s.stamps := rfl
@[simp] theorem State.addFlags_releases (s : State) (x : Flags) : (s.addFlags x).releases = s.releases := rfl
@[simp] theorem State.addFlags_writes (s : State) (x : Flags) : (s.addFlags x).writes = s.writes := rfl
@[simp] theorem State.addFlags_watches (s : State) (x : Flags) : (s.addFlags x).watches = s.watches := rfl
@[simp] theorem State.addFlags_hts (s : State) (x : Flags) : (s.addFlags x).hts = s.hts := rfl
@[simp] theorem State.addFlags_remoteHts (s : State) (x : Flags) : (s.addFlags x).remoteHts = s.remoteHts := rfl
@[simp] theorem State.addFlags_dir (s : State) (x : Flags) : (s.addFlags x).dir = s.dir := rfl
@[simp] theorem State.addFlags_moving (s : State) (x : Flags) : (s.addFlags x).moving = s.moving := rfl
@[simp] theorem State.addFlags_requests (s : State) (x : Flags) : (s.addFlags x).requests = s.requests := rfl
@[simp] theorem State.addFlags_heat (s : State) (x : Flags) : (s.addFlags x).heat = s.heat := rfl
@[simp] theorem State.addFlags_samples (s : State) (x : Flags) : (s.addFlags x).samples = s.samples := rfl
@[simp] theorem State.addFlags_embctl (s : State) (x : Flags) : (s.addFlags x).embctl = s.embctl := rfl
@[simp] theorem State.addFlags_czraw (s : State) (x : Flags) : (s.addFlags x).czraw = s.czraw := rfl
@[simp] theorem State.addFlags_czretry (s : State) (x : Flags) : (s.addFlags x).czretry = s.czretry := rfl
@[simp] theorem State.addFlags_czovf (s : State) (x : Flags) : (s.addFlags x).czovf = s.czovf := rfl
@[simp] theorem State.addFlags_czPending (s : State) (x : Flags) : (s.addFlags x).czPending = s.czPending := rfl
@[simp] theorem State.addFlags_raceLogs (s : State) (x : Flags) : (s.addFlags x).raceLogs = s.raceLogs := rfl
@[simp] theorem State.addFlags_bar0 (s : State) (x : Flags) : (s.addFlags x).bar0 = s.bar0 := rfl
@[simp] theorem State.addFlags_budget (s : State) (x : Flags) : (s.addFlags x).budget = s.budget := rfl
@[simp] theorem State.addFlags_devnum (s : State) (x : Flags) : (s.addFlags x).devnum = s.devnum := rfl
@[simp] theorem State.addFlags_queues (s : State) (x : Flags) : (s.addFlags x).queues = s.queues := rfl
@[simp] theorem State.addFlags_launches (s : State) (x : Flags) : (s.addFlags x).launches = s.launches := rfl
@[simp] theorem State.addFlags_served (s : State) (x : Flags) : (s.addFlags x).served = s.served := rfl
@[simp] theorem State.addFlags_emeter (s : State) (x : Flags) : (s.addFlags x).emeter = s.emeter := rfl
@[simp] theorem State.addFlags_clkstep (s : State) (x : Flags) : (s.addFlags x).clkstep = s.clkstep := rfl
@[simp] theorem State.addFlags_ewin (s : State) (x : Flags) : (s.addFlags x).ewin = s.ewin := rfl
@[simp] theorem State.addFlags_lastMeters (s : State) (x : Flags) : (s.addFlags x).lastMeters = s.lastMeters := rfl
@[simp] theorem State.addFlags_hotWindows (s : State) (x : Flags) : (s.addFlags x).hotWindows = s.hotWindows := rfl
@[simp] theorem State.addFlags_window (s : State) (x : Flags) : (s.addFlags x).window = s.window := rfl
@[simp] theorem State.addFlags_groups (s : State) (x : Flags) : (s.addFlags x).groups = s.groups := rfl
@[simp] theorem State.addFlags_linkFails (s : State) (x : Flags) : (s.addFlags x).linkFails = s.linkFails := rfl
@[simp] theorem State.addFlags_linksDown (s : State) (x : Flags) : (s.addFlags x).linksDown = s.linksDown := rfl
@[simp] theorem State.addFlags_lost (s : State) (x : Flags) : (s.addFlags x).lost = s.lost := rfl
@[simp] theorem State.addFlags_extents (s : State) (x : Flags) : (s.addFlags x).extents = s.extents := rfl
@[simp] theorem State.addFlags_attests (s : State) (x : Flags) : (s.addFlags x).attests = s.attests := rfl
@[simp] theorem State.addFlags_reports (s : State) (x : Flags) : (s.addFlags x).reports = s.reports := rfl
@[simp] theorem State.addFlags_image (s : State) (x : Flags) : (s.addFlags x).image = s.image := rfl
@[simp] theorem State.addFlags_rollback (s : State) (x : Flags) : (s.addFlags x).rollback = s.rollback := rfl
@[simp] theorem State.addFlags_dstate (s : State) (x : Flags) : (s.addFlags x).dstate = s.dstate := rfl
@[simp] theorem State.addFlags_d3req (s : State) (x : Flags) : (s.addFlags x).d3req = s.d3req := rfl
@[simp] theorem State.addFlags_inlet (s : State) (x : Flags) : (s.addFlags x).inlet = s.inlet := rfl
@[simp] theorem State.addFlags_flow (s : State) (x : Flags) : (s.addFlags x).flow = s.flow := rfl
@[simp] theorem State.addFlags_fused (s : State) (x : Flags) : (s.addFlags x).fused = s.fused := rfl
@[simp] theorem State.addFlags_images (s : State) (x : Flags) : (s.addFlags x).images = s.images := rfl
@[simp] theorem State.addFlags_gangImages (s : State) (x : Flags) : (s.addFlags x).gangImages = s.gangImages := rfl
@[simp] theorem State.addFlags_agenda (s : State) (x : Flags) : (s.addFlags x).agenda = s.agenda := rfl
@[simp] theorem State.addFlags_arg (s : State) (x : Flags) : (s.addFlags x).arg = s.arg := rfl
@[simp] theorem State.addFlags_turns (s : State) (x : Flags) : (s.addFlags x).turns = s.turns := rfl
@[simp] theorem State.addFlags_free (s : State) (x : Flags) : (s.addFlags x).free = s.free := rfl
@[simp] theorem State.addFlags_nextId (s : State) (x : Flags) : (s.addFlags x).nextId = s.nextId := rfl
@[simp] theorem State.addFlags_thr_tid (s : State) (x : Flags) : (s.addFlags x).thr.tid = s.thr.tid := rfl
@[simp] theorem State.addFlags_thr_gang (s : State) (x : Flags) : (s.addFlags x).thr.gang = s.thr.gang := rfl
@[simp] theorem State.addFlags_thr_core (s : State) (x : Flags) : (s.addFlags x).thr.core = s.thr.core := rfl
@[simp] theorem State.addFlags_thr_hearth (s : State) (x : Flags) : (s.addFlags x).thr.hearth = s.thr.hearth := rfl
@[simp] theorem State.addFlags_thr_asid (s : State) (x : Flags) : (s.addFlags x).thr.asid = s.thr.asid := rfl
@[simp] theorem State.addFlags_thr_index (s : State) (x : Flags) : (s.addFlags x).thr.index = s.thr.index := rfl
@[simp] theorem State.addFlags_thr_stage (s : State) (x : Flags) : (s.addFlags x).thr.stage = s.thr.stage := rfl
@[simp] theorem State.addFlags_thr_coord (s : State) (x : Flags) : (s.addFlags x).thr.coord = s.thr.coord := rfl
@[simp] theorem State.addFlags_thr_phase (s : State) (x : Flags) : (s.addFlags x).thr.phase = s.thr.phase := rfl
@[simp] theorem State.addFlags_thr_halted (s : State) (x : Flags) : (s.addFlags x).thr.halted = s.thr.halted := rfl
@[simp] theorem State.addFlags_thr_pc (s : State) (x : Flags) : (s.addFlags x).thr.pc = s.thr.pc := rfl
@[simp] theorem State.addFlags_thr_sregs (s : State) (x : Flags) : (s.addFlags x).thr.sregs = s.thr.sregs := rfl
@[simp] theorem State.addFlags_thr_cycle (s : State) (x : Flags) : (s.addFlags x).thr.cycle = s.thr.cycle := rfl
@[simp] theorem State.addFlags_thr_retired (s : State) (x : Flags) : (s.addFlags x).thr.retired = s.thr.retired := rfl
@[simp] theorem State.addFlags_thr_status (s : State) (x : Flags) : (s.addFlags x).thr.status = s.thr.status := rfl
@[simp] theorem State.addFlags_thr_fflags (s : State) (x : Flags) : (s.addFlags x).thr.fflags = s.thr.fflags ||| BitVec.ofNat 5 x := rfl
@[simp] theorem State.addFlags_thr_frm (s : State) (x : Flags) : (s.addFlags x).thr.frm = s.thr.frm := rfl
@[simp] theorem State.addFlags_thr_mode (s : State) (x : Flags) : (s.addFlags x).thr.mode = s.thr.mode := rfl
@[simp] theorem State.addFlags_thr_convoy (s : State) (x : Flags) : (s.addFlags x).thr.convoy = s.thr.convoy := rfl
@[simp] theorem State.addFlags_thr_len (s : State) (x : Flags) : (s.addFlags x).thr.len = s.thr.len := rfl
@[simp] theorem State.addFlags_thr_vcap (s : State) (x : Flags) : (s.addFlags x).thr.vcap = s.thr.vcap := rfl
@[simp] theorem State.addFlags_thr_density (s : State) (x : Flags) : (s.addFlags x).thr.density = s.thr.density := rfl
@[simp] theorem State.addFlags_thr_xresume (s : State) (x : Flags) : (s.addFlags x).thr.xresume = s.thr.xresume := rfl
@[simp] theorem State.addFlags_thr_rngkey (s : State) (x : Flags) : (s.addFlags x).thr.rngkey = s.thr.rngkey := rfl
@[simp] theorem State.addFlags_thr_srctr (s : State) (x : Flags) : (s.addFlags x).thr.srctr = s.thr.srctr := rfl
@[simp] theorem State.addFlags_thr_cbsel (s : State) (x : Flags) : (s.addFlags x).thr.cbsel = s.thr.cbsel := rfl
@[simp] theorem State.addFlags_thr_twin (s : State) (x : Flags) : (s.addFlags x).thr.twin = s.thr.twin := rfl
@[simp] theorem State.addFlags_thr_lease (s : State) (x : Flags) : (s.addFlags x).thr.lease = s.thr.lease := rfl
@[simp] theorem State.addFlags_thr_racectl (s : State) (x : Flags) : (s.addFlags x).thr.racectl = s.thr.racectl := rfl
@[simp] theorem State.addFlags_thr_siv (s : State) (x : Flags) : (s.addFlags x).thr.siv = s.thr.siv := rfl
@[simp] theorem State.addFlags_thr_strm (s : State) (x : Flags) : (s.addFlags x).thr.strm = s.thr.strm := rfl
@[simp] theorem State.addFlags_thr_strmk (s : State) (x : Flags) : (s.addFlags x).thr.strmk = s.thr.strmk := rfl
@[simp] theorem State.addFlags_thr_knotbase (s : State) (x : Flags) : (s.addFlags x).thr.knotbase = s.thr.knotbase := rfl
@[simp] theorem State.addFlags_thr_knotstep (s : State) (x : Flags) : (s.addFlags x).thr.knotstep = s.thr.knotstep := rfl
@[simp] theorem State.addFlags_thr_knotcount (s : State) (x : Flags) : (s.addFlags x).thr.knotcount = s.thr.knotcount := rfl
@[simp] theorem State.addFlags_thr_knotclamp (s : State) (x : Flags) : (s.addFlags x).thr.knotclamp = s.thr.knotclamp := rfl
@[simp] theorem State.addFlags_thr_mxscale (s : State) (x : Flags) : (s.addFlags x).thr.mxscale = s.thr.mxscale := rfl
@[simp] theorem State.addFlags_thr_wtheta (s : State) (x : Flags) : (s.addFlags x).thr.wtheta = s.thr.wtheta := rfl
@[simp] theorem State.addFlags_thr_wkern (s : State) (x : Flags) : (s.addFlags x).thr.wkern = s.thr.wkern := rfl
@[simp] theorem State.addFlags_thr_npOpen (s : State) (x : Flags) : (s.addFlags x).thr.npOpen = s.thr.npOpen := rfl
@[simp] theorem State.addFlags_thr_npOvr (s : State) (x : Flags) : (s.addFlags x).thr.npOvr = s.thr.npOvr := rfl
@[simp] theorem State.addFlags_thr_fstat (s : State) (x : Flags) : (s.addFlags x).thr.fstat = s.thr.fstat := rfl
@[simp] theorem State.addFlags_thr_tvec (s : State) (x : Flags) : (s.addFlags x).thr.tvec = s.thr.tvec := rfl
@[simp] theorem State.addFlags_thr_epc (s : State) (x : Flags) : (s.addFlags x).thr.epc = s.thr.epc := rfl
@[simp] theorem State.addFlags_thr_cause (s : State) (x : Flags) : (s.addFlags x).thr.cause = s.thr.cause := rfl
@[simp] theorem State.addFlags_thr_tval (s : State) (x : Flags) : (s.addFlags x).thr.tval = s.thr.tval := rfl
@[simp] theorem State.addFlags_thr_sscratch (s : State) (x : Flags) : (s.addFlags x).thr.sscratch = s.thr.sscratch := rfl
@[simp] theorem State.addFlags_thr_grant (s : State) (x : Flags) : (s.addFlags x).thr.grant = s.thr.grant := rfl
@[simp] theorem State.addFlags_thr_demand (s : State) (x : Flags) : (s.addFlags x).thr.demand = s.thr.demand := rfl
@[simp] theorem State.addFlags_thr_width (s : State) (x : Flags) : (s.addFlags x).thr.width = s.thr.width := rfl
@[simp] theorem State.addFlags_thr_attached (s : State) (x : Flags) : (s.addFlags x).thr.attached = s.thr.attached := rfl
@[simp] theorem State.addFlags_thr_vrows (s : State) (x : Flags) : (s.addFlags x).thr.vrows = s.thr.vrows := rfl
@[simp] theorem State.addFlags_thr_mrows (s : State) (x : Flags) : (s.addFlags x).thr.mrows = s.thr.mrows := rfl
@[simp] theorem State.addFlags_thr_cbs (s : State) (x : Flags) : (s.addFlags x).thr.cbs = s.thr.cbs := rfl
@[simp] theorem State.addFlags_thr_array (s : State) (x : Flags) : (s.addFlags x).thr.array = s.thr.array := rfl
@[simp] theorem State.addFlags_thr_staging (s : State) (x : Flags) : (s.addFlags x).thr.staging = s.thr.staging := rfl
@[simp] theorem State.addFlags_thr_vrun (s : State) (x : Flags) : (s.addFlags x).thr.vrun = s.thr.vrun := rfl
@[simp] theorem State.addFlags_thr_pts (s : State) (x : Flags) : (s.addFlags x).thr.pts = s.thr.pts := rfl
@[simp] theorem State.addFlags_thr_acqGang (s : State) (x : Flags) : (s.addFlags x).thr.acqGang = s.thr.acqGang := rfl
@[simp] theorem State.addFlags_thr_acqOther (s : State) (x : Flags) : (s.addFlags x).thr.acqOther = s.thr.acqOther := rfl
@[simp] theorem State.addFlags_thr_barGen (s : State) (x : Flags) : (s.addFlags x).thr.barGen = s.thr.barGen := rfl
@[simp] theorem State.addFlags_thr_pend17 (s : State) (x : Flags) : (s.addFlags x).thr.pend17 = s.thr.pend17 := rfl
@[simp] theorem State.addFlags_thr_pend18 (s : State) (x : Flags) : (s.addFlags x).thr.pend18 = s.thr.pend18 := rfl
@[simp] theorem State.addFlags_thr_stopAt (s : State) (x : Flags) : (s.addFlags x).thr.stopAt = s.thr.stopAt := rfl
@[simp] theorem State.addFlags_thr_pfx (s : State) (x : Flags) : (s.addFlags x).thr.pfx = s.thr.pfx := rfl
@[simp] theorem State.addFlags_thr_inSpan (s : State) (x : Flags) : (s.addFlags x).thr.inSpan = s.thr.inSpan := rfl
@[simp] theorem State.addFlags_thr_stale (s : State) (x : Flags) : (s.addFlags x).thr.stale = s.thr.stale := rfl
@[simp] theorem State.addFlags_thr_poisonS (s : State) (x : Flags) : (s.addFlags x).thr.poisonS = s.thr.poisonS := rfl
@[simp] theorem State.addFlags_thr_poisonV (s : State) (x : Flags) : (s.addFlags x).thr.poisonV = s.thr.poisonV := rfl
@[simp] theorem State.addFlags_thr_known (s : State) (x : Flags) : (s.addFlags x).thr.known = s.thr.known := rfl
@[simp] theorem State.addFlags_thr_seen (s : State) (x : Flags) : (s.addFlags x).thr.seen = s.thr.seen := rfl
@[simp] theorem State.addFlags_thr_fenced (s : State) (x : Flags) : (s.addFlags x).thr.fenced = s.thr.fenced := rfl
@[simp] theorem Thread.setLen_tid (t : Thread) (c r : Nat) : (t.setLen c r).tid = t.tid := rfl
@[simp] theorem Thread.setLen_gang (t : Thread) (c r : Nat) : (t.setLen c r).gang = t.gang := rfl
@[simp] theorem Thread.setLen_core (t : Thread) (c r : Nat) : (t.setLen c r).core = t.core := rfl
@[simp] theorem Thread.setLen_hearth (t : Thread) (c r : Nat) : (t.setLen c r).hearth = t.hearth := rfl
@[simp] theorem Thread.setLen_asid (t : Thread) (c r : Nat) : (t.setLen c r).asid = t.asid := rfl
@[simp] theorem Thread.setLen_index (t : Thread) (c r : Nat) : (t.setLen c r).index = t.index := rfl
@[simp] theorem Thread.setLen_stage (t : Thread) (c r : Nat) : (t.setLen c r).stage = t.stage := rfl
@[simp] theorem Thread.setLen_coord (t : Thread) (c r : Nat) : (t.setLen c r).coord = t.coord := rfl
@[simp] theorem Thread.setLen_phase (t : Thread) (c r : Nat) : (t.setLen c r).phase = t.phase := rfl
@[simp] theorem Thread.setLen_halted (t : Thread) (c r : Nat) : (t.setLen c r).halted = t.halted := rfl
@[simp] theorem Thread.setLen_pc (t : Thread) (c r : Nat) : (t.setLen c r).pc = t.pc := rfl
@[simp] theorem Thread.setLen_sregs (t : Thread) (c r : Nat) : (t.setLen c r).sregs = t.sregs := rfl
@[simp] theorem Thread.setLen_cycle (t : Thread) (c r : Nat) : (t.setLen c r).cycle = t.cycle := rfl
@[simp] theorem Thread.setLen_retired (t : Thread) (c r : Nat) : (t.setLen c r).retired = t.retired := rfl
@[simp] theorem Thread.setLen_status (t : Thread) (c r : Nat) : (t.setLen c r).status = t.status := rfl
@[simp] theorem Thread.setLen_fflags (t : Thread) (c r : Nat) : (t.setLen c r).fflags = t.fflags := rfl
@[simp] theorem Thread.setLen_frm (t : Thread) (c r : Nat) : (t.setLen c r).frm = t.frm := rfl
@[simp] theorem Thread.setLen_mode (t : Thread) (c r : Nat) : (t.setLen c r).mode = t.mode := rfl
@[simp] theorem Thread.setLen_convoy (t : Thread) (c r : Nat) : (t.setLen c r).convoy = t.convoy := rfl
@[simp] theorem Thread.setLen_vcap (t : Thread) (c r : Nat) : (t.setLen c r).vcap = t.vcap := rfl
@[simp] theorem Thread.setLen_density (t : Thread) (c r : Nat) : (t.setLen c r).density = t.density := rfl
@[simp] theorem Thread.setLen_xresume (t : Thread) (c r : Nat) : (t.setLen c r).xresume = t.xresume := rfl
@[simp] theorem Thread.setLen_rngkey (t : Thread) (c r : Nat) : (t.setLen c r).rngkey = t.rngkey := rfl
@[simp] theorem Thread.setLen_srctr (t : Thread) (c r : Nat) : (t.setLen c r).srctr = t.srctr := rfl
@[simp] theorem Thread.setLen_cbsel (t : Thread) (c r : Nat) : (t.setLen c r).cbsel = t.cbsel := rfl
@[simp] theorem Thread.setLen_twin (t : Thread) (c r : Nat) : (t.setLen c r).twin = t.twin := rfl
@[simp] theorem Thread.setLen_lease (t : Thread) (c r : Nat) : (t.setLen c r).lease = t.lease := rfl
@[simp] theorem Thread.setLen_racectl (t : Thread) (c r : Nat) : (t.setLen c r).racectl = t.racectl := rfl
@[simp] theorem Thread.setLen_siv (t : Thread) (c r : Nat) : (t.setLen c r).siv = t.siv := rfl
@[simp] theorem Thread.setLen_strm (t : Thread) (c r : Nat) : (t.setLen c r).strm = t.strm := rfl
@[simp] theorem Thread.setLen_strmk (t : Thread) (c r : Nat) : (t.setLen c r).strmk = t.strmk := rfl
@[simp] theorem Thread.setLen_knotbase (t : Thread) (c r : Nat) : (t.setLen c r).knotbase = t.knotbase := rfl
@[simp] theorem Thread.setLen_knotstep (t : Thread) (c r : Nat) : (t.setLen c r).knotstep = t.knotstep := rfl
@[simp] theorem Thread.setLen_knotcount (t : Thread) (c r : Nat) : (t.setLen c r).knotcount = t.knotcount := rfl
@[simp] theorem Thread.setLen_knotclamp (t : Thread) (c r : Nat) : (t.setLen c r).knotclamp = t.knotclamp := rfl
@[simp] theorem Thread.setLen_mxscale (t : Thread) (c r : Nat) : (t.setLen c r).mxscale = t.mxscale := rfl
@[simp] theorem Thread.setLen_wtheta (t : Thread) (c r : Nat) : (t.setLen c r).wtheta = t.wtheta := rfl
@[simp] theorem Thread.setLen_wkern (t : Thread) (c r : Nat) : (t.setLen c r).wkern = t.wkern := rfl
@[simp] theorem Thread.setLen_npOpen (t : Thread) (c r : Nat) : (t.setLen c r).npOpen = t.npOpen := rfl
@[simp] theorem Thread.setLen_npOvr (t : Thread) (c r : Nat) : (t.setLen c r).npOvr = t.npOvr := rfl
@[simp] theorem Thread.setLen_fstat (t : Thread) (c r : Nat) : (t.setLen c r).fstat = t.fstat := rfl
@[simp] theorem Thread.setLen_tvec (t : Thread) (c r : Nat) : (t.setLen c r).tvec = t.tvec := rfl
@[simp] theorem Thread.setLen_epc (t : Thread) (c r : Nat) : (t.setLen c r).epc = t.epc := rfl
@[simp] theorem Thread.setLen_cause (t : Thread) (c r : Nat) : (t.setLen c r).cause = t.cause := rfl
@[simp] theorem Thread.setLen_tval (t : Thread) (c r : Nat) : (t.setLen c r).tval = t.tval := rfl
@[simp] theorem Thread.setLen_sscratch (t : Thread) (c r : Nat) : (t.setLen c r).sscratch = t.sscratch := rfl
@[simp] theorem Thread.setLen_grant (t : Thread) (c r : Nat) : (t.setLen c r).grant = t.grant := rfl
@[simp] theorem Thread.setLen_demand (t : Thread) (c r : Nat) : (t.setLen c r).demand = t.demand := rfl
@[simp] theorem Thread.setLen_width (t : Thread) (c r : Nat) : (t.setLen c r).width = t.width := rfl
@[simp] theorem Thread.setLen_attached (t : Thread) (c r : Nat) : (t.setLen c r).attached = t.attached := rfl
@[simp] theorem Thread.setLen_vrows (t : Thread) (c r : Nat) : (t.setLen c r).vrows = t.vrows := rfl
@[simp] theorem Thread.setLen_mrows (t : Thread) (c r : Nat) : (t.setLen c r).mrows = t.mrows := rfl
@[simp] theorem Thread.setLen_cbs (t : Thread) (c r : Nat) : (t.setLen c r).cbs = t.cbs := rfl
@[simp] theorem Thread.setLen_array (t : Thread) (c r : Nat) : (t.setLen c r).array = t.array := rfl
@[simp] theorem Thread.setLen_staging (t : Thread) (c r : Nat) : (t.setLen c r).staging = t.staging := rfl
@[simp] theorem Thread.setLen_vrun (t : Thread) (c r : Nat) : (t.setLen c r).vrun = t.vrun := rfl
@[simp] theorem Thread.setLen_pts (t : Thread) (c r : Nat) : (t.setLen c r).pts = t.pts := rfl
@[simp] theorem Thread.setLen_acqGang (t : Thread) (c r : Nat) : (t.setLen c r).acqGang = t.acqGang := rfl
@[simp] theorem Thread.setLen_acqOther (t : Thread) (c r : Nat) : (t.setLen c r).acqOther = t.acqOther := rfl
@[simp] theorem Thread.setLen_barGen (t : Thread) (c r : Nat) : (t.setLen c r).barGen = t.barGen := rfl
@[simp] theorem Thread.setLen_pend17 (t : Thread) (c r : Nat) : (t.setLen c r).pend17 = t.pend17 := rfl
@[simp] theorem Thread.setLen_pend18 (t : Thread) (c r : Nat) : (t.setLen c r).pend18 = t.pend18 := rfl
@[simp] theorem Thread.setLen_stopAt (t : Thread) (c r : Nat) : (t.setLen c r).stopAt = t.stopAt := rfl
@[simp] theorem Thread.setLen_pfx (t : Thread) (c r : Nat) : (t.setLen c r).pfx = t.pfx := rfl
@[simp] theorem Thread.setLen_inSpan (t : Thread) (c r : Nat) : (t.setLen c r).inSpan = t.inSpan := rfl
@[simp] theorem Thread.setLen_stale (t : Thread) (c r : Nat) : (t.setLen c r).stale = t.stale := rfl
@[simp] theorem Thread.setLen_poisonS (t : Thread) (c r : Nat) : (t.setLen c r).poisonS = t.poisonS := rfl
@[simp] theorem Thread.setLen_poisonV (t : Thread) (c r : Nat) : (t.setLen c r).poisonV = t.poisonV := rfl
@[simp] theorem Thread.setLen_known (t : Thread) (c r : Nat) : (t.setLen c r).known = t.known := rfl
@[simp] theorem Thread.setLen_seen (t : Thread) (c r : Nat) : (t.setLen c r).seen = t.seen := rfl
@[simp] theorem Thread.setLen_fenced (t : Thread) (c r : Nat) : (t.setLen c r).fenced = t.fenced := rfl
@[simp] theorem State.modGang_thr (s : State) (g : Nat) (h : Gang → Gang) : (s.modGang g h).thr = s.thr := rfl
@[simp] theorem State.modGang_others (s : State) (g : Nat) (h : Gang → Gang) : (s.modGang g h).others = s.others := rfl
@[simp] theorem State.modGang_ops (s : State) (g : Nat) (h : Gang → Gang) : (s.modGang g h).ops = s.ops := rfl
@[simp] theorem State.modGang_mem (s : State) (g : Nat) (h : Gang → Gang) : (s.modGang g h).mem = s.mem := rfl
@[simp] theorem State.modGang_poison (s : State) (g : Nat) (h : Gang → Gang) : (s.modGang g h).poison = s.poison := rfl
@[simp] theorem State.modGang_sectorKeys (s : State) (g : Nat) (h : Gang → Gang) : (s.modGang g h).sectorKeys = s.sectorKeys := rfl
@[simp] theorem State.modGang_keySlots (s : State) (g : Nat) (h : Gang → Gang) : (s.modGang g h).keySlots = s.keySlots := rfl
@[simp] theorem State.modGang_tlb (s : State) (g : Nat) (h : Gang → Gang) : (s.modGang g h).tlb = s.tlb := rfl
@[simp] theorem State.modGang_tables (s : State) (g : Nat) (h : Gang → Gang) : (s.modGang g h).tables = s.tables := rfl
@[simp] theorem State.modGang_l1 (s : State) (g : Nat) (h : Gang → Gang) : (s.modGang g h).l1 = s.l1 := rfl
@[simp] theorem State.modGang_l1bad (s : State) (g : Nat) (h : Gang → Gang) : (s.modGang g h).l1bad = s.l1bad := rfl
@[simp] theorem State.modGang_l2 (s : State) (g : Nat) (h : Gang → Gang) : (s.modGang g h).l2 = s.l2 := rfl
@[simp] theorem State.modGang_stamps (s : State) (g : Nat) (h : Gang → Gang) : (s.modGang g h).stamps = s.stamps := rfl
@[simp] theorem State.modGang_releases (s : State) (g : Nat) (h : Gang → Gang) : (s.modGang g h).releases = s.releases := rfl
@[simp] theorem State.modGang_writes (s : State) (g : Nat) (h : Gang → Gang) : (s.modGang g h).writes = s.writes := rfl
@[simp] theorem State.modGang_watches (s : State) (g : Nat) (h : Gang → Gang) : (s.modGang g h).watches = s.watches := rfl
@[simp] theorem State.modGang_hts (s : State) (g : Nat) (h : Gang → Gang) : (s.modGang g h).hts = s.hts := rfl
@[simp] theorem State.modGang_remoteHts (s : State) (g : Nat) (h : Gang → Gang) : (s.modGang g h).remoteHts = s.remoteHts := rfl
@[simp] theorem State.modGang_dir (s : State) (g : Nat) (h : Gang → Gang) : (s.modGang g h).dir = s.dir := rfl
@[simp] theorem State.modGang_moving (s : State) (g : Nat) (h : Gang → Gang) : (s.modGang g h).moving = s.moving := rfl
@[simp] theorem State.modGang_requests (s : State) (g : Nat) (h : Gang → Gang) : (s.modGang g h).requests = s.requests := rfl
@[simp] theorem State.modGang_heat (s : State) (g : Nat) (h : Gang → Gang) : (s.modGang g h).heat = s.heat := rfl
@[simp] theorem State.modGang_samples (s : State) (g : Nat) (h : Gang → Gang) : (s.modGang g h).samples = s.samples := rfl
@[simp] theorem State.modGang_embctl (s : State) (g : Nat) (h : Gang → Gang) : (s.modGang g h).embctl = s.embctl := rfl
@[simp] theorem State.modGang_czraw (s : State) (g : Nat) (h : Gang → Gang) : (s.modGang g h).czraw = s.czraw := rfl
@[simp] theorem State.modGang_czretry (s : State) (g : Nat) (h : Gang → Gang) : (s.modGang g h).czretry = s.czretry := rfl
@[simp] theorem State.modGang_czovf (s : State) (g : Nat) (h : Gang → Gang) : (s.modGang g h).czovf = s.czovf := rfl
@[simp] theorem State.modGang_czPending (s : State) (g : Nat) (h : Gang → Gang) : (s.modGang g h).czPending = s.czPending := rfl
@[simp] theorem State.modGang_raceLogs (s : State) (g : Nat) (h : Gang → Gang) : (s.modGang g h).raceLogs = s.raceLogs := rfl
@[simp] theorem State.modGang_bar0 (s : State) (g : Nat) (h : Gang → Gang) : (s.modGang g h).bar0 = s.bar0 := rfl
@[simp] theorem State.modGang_budget (s : State) (g : Nat) (h : Gang → Gang) : (s.modGang g h).budget = s.budget := rfl
@[simp] theorem State.modGang_devnum (s : State) (g : Nat) (h : Gang → Gang) : (s.modGang g h).devnum = s.devnum := rfl
@[simp] theorem State.modGang_queues (s : State) (g : Nat) (h : Gang → Gang) : (s.modGang g h).queues = s.queues := rfl
@[simp] theorem State.modGang_launches (s : State) (g : Nat) (h : Gang → Gang) : (s.modGang g h).launches = s.launches := rfl
@[simp] theorem State.modGang_served (s : State) (g : Nat) (h : Gang → Gang) : (s.modGang g h).served = s.served := rfl
@[simp] theorem State.modGang_emeter (s : State) (g : Nat) (h : Gang → Gang) : (s.modGang g h).emeter = s.emeter := rfl
@[simp] theorem State.modGang_clkstep (s : State) (g : Nat) (h : Gang → Gang) : (s.modGang g h).clkstep = s.clkstep := rfl
@[simp] theorem State.modGang_ewin (s : State) (g : Nat) (h : Gang → Gang) : (s.modGang g h).ewin = s.ewin := rfl
@[simp] theorem State.modGang_lastMeters (s : State) (g : Nat) (h : Gang → Gang) : (s.modGang g h).lastMeters = s.lastMeters := rfl
@[simp] theorem State.modGang_hotWindows (s : State) (g : Nat) (h : Gang → Gang) : (s.modGang g h).hotWindows = s.hotWindows := rfl
@[simp] theorem State.modGang_window (s : State) (g : Nat) (h : Gang → Gang) : (s.modGang g h).window = s.window := rfl
@[simp] theorem State.modGang_groups (s : State) (g : Nat) (h : Gang → Gang) : (s.modGang g h).groups = s.groups := rfl
@[simp] theorem State.modGang_linkFails (s : State) (g : Nat) (h : Gang → Gang) : (s.modGang g h).linkFails = s.linkFails := rfl
@[simp] theorem State.modGang_linksDown (s : State) (g : Nat) (h : Gang → Gang) : (s.modGang g h).linksDown = s.linksDown := rfl
@[simp] theorem State.modGang_lost (s : State) (g : Nat) (h : Gang → Gang) : (s.modGang g h).lost = s.lost := rfl
@[simp] theorem State.modGang_extents (s : State) (g : Nat) (h : Gang → Gang) : (s.modGang g h).extents = s.extents := rfl
@[simp] theorem State.modGang_attests (s : State) (g : Nat) (h : Gang → Gang) : (s.modGang g h).attests = s.attests := rfl
@[simp] theorem State.modGang_reports (s : State) (g : Nat) (h : Gang → Gang) : (s.modGang g h).reports = s.reports := rfl
@[simp] theorem State.modGang_image (s : State) (g : Nat) (h : Gang → Gang) : (s.modGang g h).image = s.image := rfl
@[simp] theorem State.modGang_rollback (s : State) (g : Nat) (h : Gang → Gang) : (s.modGang g h).rollback = s.rollback := rfl
@[simp] theorem State.modGang_dstate (s : State) (g : Nat) (h : Gang → Gang) : (s.modGang g h).dstate = s.dstate := rfl
@[simp] theorem State.modGang_d3req (s : State) (g : Nat) (h : Gang → Gang) : (s.modGang g h).d3req = s.d3req := rfl
@[simp] theorem State.modGang_inlet (s : State) (g : Nat) (h : Gang → Gang) : (s.modGang g h).inlet = s.inlet := rfl
@[simp] theorem State.modGang_flow (s : State) (g : Nat) (h : Gang → Gang) : (s.modGang g h).flow = s.flow := rfl
@[simp] theorem State.modGang_fused (s : State) (g : Nat) (h : Gang → Gang) : (s.modGang g h).fused = s.fused := rfl
@[simp] theorem State.modGang_images (s : State) (g : Nat) (h : Gang → Gang) : (s.modGang g h).images = s.images := rfl
@[simp] theorem State.modGang_gangImages (s : State) (g : Nat) (h : Gang → Gang) : (s.modGang g h).gangImages = s.gangImages := rfl
@[simp] theorem State.modGang_agenda (s : State) (g : Nat) (h : Gang → Gang) : (s.modGang g h).agenda = s.agenda := rfl
@[simp] theorem State.modGang_arg (s : State) (g : Nat) (h : Gang → Gang) : (s.modGang g h).arg = s.arg := rfl
@[simp] theorem State.modGang_turns (s : State) (g : Nat) (h : Gang → Gang) : (s.modGang g h).turns = s.turns := rfl
@[simp] theorem State.modGang_free (s : State) (g : Nat) (h : Gang → Gang) : (s.modGang g h).free = s.free := rfl
@[simp] theorem State.modGang_nextId (s : State) (g : Nat) (h : Gang → Gang) : (s.modGang g h).nextId = s.nextId := rfl

/-! ## The trap return -/

@[simp] theorem State.trapReturn_others (s : State) : (s.trapReturn).others = s.others := rfl
@[simp] theorem State.trapReturn_gangs (s : State) : (s.trapReturn).gangs = s.gangs := rfl
@[simp] theorem State.trapReturn_ops (s : State) : (s.trapReturn).ops = s.ops := rfl
@[simp] theorem State.trapReturn_mem (s : State) : (s.trapReturn).mem = s.mem := rfl
@[simp] theorem State.trapReturn_poison (s : State) : (s.trapReturn).poison = s.poison := rfl
@[simp] theorem State.trapReturn_sectorKeys (s : State) : (s.trapReturn).sectorKeys = s.sectorKeys := rfl
@[simp] theorem State.trapReturn_keySlots (s : State) : (s.trapReturn).keySlots = s.keySlots := rfl
@[simp] theorem State.trapReturn_tlb (s : State) : (s.trapReturn).tlb = s.tlb := rfl
@[simp] theorem State.trapReturn_tables (s : State) : (s.trapReturn).tables = s.tables := rfl
@[simp] theorem State.trapReturn_l1 (s : State) : (s.trapReturn).l1 = s.l1 := rfl
@[simp] theorem State.trapReturn_l1bad (s : State) : (s.trapReturn).l1bad = s.l1bad := rfl
@[simp] theorem State.trapReturn_l2 (s : State) : (s.trapReturn).l2 = s.l2 := rfl
@[simp] theorem State.trapReturn_stamps (s : State) : (s.trapReturn).stamps = s.stamps := rfl
@[simp] theorem State.trapReturn_releases (s : State) : (s.trapReturn).releases = s.releases := rfl
@[simp] theorem State.trapReturn_writes (s : State) : (s.trapReturn).writes = s.writes := rfl
@[simp] theorem State.trapReturn_watches (s : State) : (s.trapReturn).watches = s.watches := rfl
@[simp] theorem State.trapReturn_hts (s : State) : (s.trapReturn).hts = s.hts := rfl
@[simp] theorem State.trapReturn_remoteHts (s : State) : (s.trapReturn).remoteHts = s.remoteHts := rfl
@[simp] theorem State.trapReturn_dir (s : State) : (s.trapReturn).dir = s.dir := rfl
@[simp] theorem State.trapReturn_moving (s : State) : (s.trapReturn).moving = s.moving := rfl
@[simp] theorem State.trapReturn_requests (s : State) : (s.trapReturn).requests = s.requests := rfl
@[simp] theorem State.trapReturn_heat (s : State) : (s.trapReturn).heat = s.heat := rfl
@[simp] theorem State.trapReturn_samples (s : State) : (s.trapReturn).samples = s.samples := rfl
@[simp] theorem State.trapReturn_embctl (s : State) : (s.trapReturn).embctl = s.embctl := rfl
@[simp] theorem State.trapReturn_czraw (s : State) : (s.trapReturn).czraw = s.czraw := rfl
@[simp] theorem State.trapReturn_czretry (s : State) : (s.trapReturn).czretry = s.czretry := rfl
@[simp] theorem State.trapReturn_czovf (s : State) : (s.trapReturn).czovf = s.czovf := rfl
@[simp] theorem State.trapReturn_czPending (s : State) : (s.trapReturn).czPending = s.czPending := rfl
@[simp] theorem State.trapReturn_raceLogs (s : State) : (s.trapReturn).raceLogs = s.raceLogs := rfl
@[simp] theorem State.trapReturn_bar0 (s : State) : (s.trapReturn).bar0 = s.bar0 := rfl
@[simp] theorem State.trapReturn_budget (s : State) : (s.trapReturn).budget = s.budget := rfl
@[simp] theorem State.trapReturn_devnum (s : State) : (s.trapReturn).devnum = s.devnum := rfl
@[simp] theorem State.trapReturn_queues (s : State) : (s.trapReturn).queues = s.queues := rfl
@[simp] theorem State.trapReturn_launches (s : State) : (s.trapReturn).launches = s.launches := rfl
@[simp] theorem State.trapReturn_served (s : State) : (s.trapReturn).served = s.served := rfl
@[simp] theorem State.trapReturn_emeter (s : State) : (s.trapReturn).emeter = s.emeter := rfl
@[simp] theorem State.trapReturn_clkstep (s : State) : (s.trapReturn).clkstep = s.clkstep := rfl
@[simp] theorem State.trapReturn_ewin (s : State) : (s.trapReturn).ewin = s.ewin := rfl
@[simp] theorem State.trapReturn_lastMeters (s : State) : (s.trapReturn).lastMeters = s.lastMeters := rfl
@[simp] theorem State.trapReturn_hotWindows (s : State) : (s.trapReturn).hotWindows = s.hotWindows := rfl
@[simp] theorem State.trapReturn_window (s : State) : (s.trapReturn).window = s.window := rfl
@[simp] theorem State.trapReturn_groups (s : State) : (s.trapReturn).groups = s.groups := rfl
@[simp] theorem State.trapReturn_linkFails (s : State) : (s.trapReturn).linkFails = s.linkFails := rfl
@[simp] theorem State.trapReturn_linksDown (s : State) : (s.trapReturn).linksDown = s.linksDown := rfl
@[simp] theorem State.trapReturn_lost (s : State) : (s.trapReturn).lost = s.lost := rfl
@[simp] theorem State.trapReturn_extents (s : State) : (s.trapReturn).extents = s.extents := rfl
@[simp] theorem State.trapReturn_attests (s : State) : (s.trapReturn).attests = s.attests := rfl
@[simp] theorem State.trapReturn_reports (s : State) : (s.trapReturn).reports = s.reports := rfl
@[simp] theorem State.trapReturn_image (s : State) : (s.trapReturn).image = s.image := rfl
@[simp] theorem State.trapReturn_rollback (s : State) : (s.trapReturn).rollback = s.rollback := rfl
@[simp] theorem State.trapReturn_dstate (s : State) : (s.trapReturn).dstate = s.dstate := rfl
@[simp] theorem State.trapReturn_d3req (s : State) : (s.trapReturn).d3req = s.d3req := rfl
@[simp] theorem State.trapReturn_inlet (s : State) : (s.trapReturn).inlet = s.inlet := rfl
@[simp] theorem State.trapReturn_flow (s : State) : (s.trapReturn).flow = s.flow := rfl
@[simp] theorem State.trapReturn_fused (s : State) : (s.trapReturn).fused = s.fused := rfl
@[simp] theorem State.trapReturn_images (s : State) : (s.trapReturn).images = s.images := rfl
@[simp] theorem State.trapReturn_gangImages (s : State) : (s.trapReturn).gangImages = s.gangImages := rfl
@[simp] theorem State.trapReturn_agenda (s : State) : (s.trapReturn).agenda = s.agenda := rfl
@[simp] theorem State.trapReturn_arg (s : State) : (s.trapReturn).arg = s.arg := rfl
@[simp] theorem State.trapReturn_turns (s : State) : (s.trapReturn).turns = s.turns := rfl
@[simp] theorem State.trapReturn_free (s : State) : (s.trapReturn).free = s.free := rfl
@[simp] theorem State.trapReturn_nextId (s : State) : (s.trapReturn).nextId = s.nextId := rfl
@[simp] theorem State.trapReturn_thr_tid (s : State) : (s.trapReturn).thr.tid = s.thr.tid := rfl
@[simp] theorem State.trapReturn_thr_gang (s : State) : (s.trapReturn).thr.gang = s.thr.gang := rfl
@[simp] theorem State.trapReturn_thr_core (s : State) : (s.trapReturn).thr.core = s.thr.core := rfl
@[simp] theorem State.trapReturn_thr_hearth (s : State) : (s.trapReturn).thr.hearth = s.thr.hearth := rfl
@[simp] theorem State.trapReturn_thr_asid (s : State) : (s.trapReturn).thr.asid = s.thr.asid := rfl
@[simp] theorem State.trapReturn_thr_index (s : State) : (s.trapReturn).thr.index = s.thr.index := rfl
@[simp] theorem State.trapReturn_thr_stage (s : State) : (s.trapReturn).thr.stage = s.thr.stage := rfl
@[simp] theorem State.trapReturn_thr_coord (s : State) : (s.trapReturn).thr.coord = s.thr.coord := rfl
@[simp] theorem State.trapReturn_thr_phase (s : State) : (s.trapReturn).thr.phase = s.thr.phase := rfl
@[simp] theorem State.trapReturn_thr_halted (s : State) : (s.trapReturn).thr.halted = s.thr.halted := rfl
@[simp] theorem State.trapReturn_thr_pc (s : State) : (s.trapReturn).thr.pc = s.thr.epc := rfl
@[simp] theorem State.trapReturn_thr_sregs (s : State) : (s.trapReturn).thr.sregs = s.thr.sregs := rfl
@[simp] theorem State.trapReturn_thr_cycle (s : State) : (s.trapReturn).thr.cycle = s.thr.cycle := rfl
@[simp] theorem State.trapReturn_thr_retired (s : State) : (s.trapReturn).thr.retired = s.thr.retired := rfl
@[simp] theorem State.trapReturn_thr_fflags (s : State) : (s.trapReturn).thr.fflags = s.thr.fflags := rfl
@[simp] theorem State.trapReturn_thr_frm (s : State) : (s.trapReturn).thr.frm = s.thr.frm := rfl
@[simp] theorem State.trapReturn_thr_mode (s : State) : (s.trapReturn).thr.mode = s.thr.mode := rfl
@[simp] theorem State.trapReturn_thr_convoy (s : State) : (s.trapReturn).thr.convoy = s.thr.convoy := rfl
@[simp] theorem State.trapReturn_thr_len (s : State) : (s.trapReturn).thr.len = s.thr.len := rfl
@[simp] theorem State.trapReturn_thr_vcap (s : State) : (s.trapReturn).thr.vcap = s.thr.vcap := rfl
@[simp] theorem State.trapReturn_thr_density (s : State) : (s.trapReturn).thr.density = s.thr.density := rfl
@[simp] theorem State.trapReturn_thr_xresume (s : State) : (s.trapReturn).thr.xresume = s.thr.xresume := rfl
@[simp] theorem State.trapReturn_thr_rngkey (s : State) : (s.trapReturn).thr.rngkey = s.thr.rngkey := rfl
@[simp] theorem State.trapReturn_thr_srctr (s : State) : (s.trapReturn).thr.srctr = s.thr.srctr := rfl
@[simp] theorem State.trapReturn_thr_cbsel (s : State) : (s.trapReturn).thr.cbsel = s.thr.cbsel := rfl
@[simp] theorem State.trapReturn_thr_twin (s : State) : (s.trapReturn).thr.twin = s.thr.twin := rfl
@[simp] theorem State.trapReturn_thr_lease (s : State) : (s.trapReturn).thr.lease = s.thr.lease := rfl
@[simp] theorem State.trapReturn_thr_racectl (s : State) : (s.trapReturn).thr.racectl = s.thr.racectl := rfl
@[simp] theorem State.trapReturn_thr_siv (s : State) : (s.trapReturn).thr.siv = s.thr.siv := rfl
@[simp] theorem State.trapReturn_thr_strm (s : State) : (s.trapReturn).thr.strm = s.thr.strm := rfl
@[simp] theorem State.trapReturn_thr_strmk (s : State) : (s.trapReturn).thr.strmk = s.thr.strmk := rfl
@[simp] theorem State.trapReturn_thr_knotbase (s : State) : (s.trapReturn).thr.knotbase = s.thr.knotbase := rfl
@[simp] theorem State.trapReturn_thr_knotstep (s : State) : (s.trapReturn).thr.knotstep = s.thr.knotstep := rfl
@[simp] theorem State.trapReturn_thr_knotcount (s : State) : (s.trapReturn).thr.knotcount = s.thr.knotcount := rfl
@[simp] theorem State.trapReturn_thr_knotclamp (s : State) : (s.trapReturn).thr.knotclamp = s.thr.knotclamp := rfl
@[simp] theorem State.trapReturn_thr_mxscale (s : State) : (s.trapReturn).thr.mxscale = s.thr.mxscale := rfl
@[simp] theorem State.trapReturn_thr_wtheta (s : State) : (s.trapReturn).thr.wtheta = s.thr.wtheta := rfl
@[simp] theorem State.trapReturn_thr_wkern (s : State) : (s.trapReturn).thr.wkern = s.thr.wkern := rfl
@[simp] theorem State.trapReturn_thr_npOpen (s : State) : (s.trapReturn).thr.npOpen = s.thr.npOpen := rfl
@[simp] theorem State.trapReturn_thr_npOvr (s : State) : (s.trapReturn).thr.npOvr = s.thr.npOvr := rfl
@[simp] theorem State.trapReturn_thr_fstat (s : State) : (s.trapReturn).thr.fstat = s.thr.fstat := rfl
@[simp] theorem State.trapReturn_thr_tvec (s : State) : (s.trapReturn).thr.tvec = s.thr.tvec := rfl
@[simp] theorem State.trapReturn_thr_epc (s : State) : (s.trapReturn).thr.epc = s.thr.epc := rfl
@[simp] theorem State.trapReturn_thr_cause (s : State) : (s.trapReturn).thr.cause = s.thr.cause := rfl
@[simp] theorem State.trapReturn_thr_tval (s : State) : (s.trapReturn).thr.tval = s.thr.tval := rfl
@[simp] theorem State.trapReturn_thr_sscratch (s : State) : (s.trapReturn).thr.sscratch = s.thr.sscratch := rfl
@[simp] theorem State.trapReturn_thr_grant (s : State) : (s.trapReturn).thr.grant = s.thr.grant := rfl
@[simp] theorem State.trapReturn_thr_demand (s : State) : (s.trapReturn).thr.demand = s.thr.demand := rfl
@[simp] theorem State.trapReturn_thr_width (s : State) : (s.trapReturn).thr.width = s.thr.width := rfl
@[simp] theorem State.trapReturn_thr_attached (s : State) : (s.trapReturn).thr.attached = s.thr.attached := rfl
@[simp] theorem State.trapReturn_thr_vrows (s : State) : (s.trapReturn).thr.vrows = s.thr.vrows := rfl
@[simp] theorem State.trapReturn_thr_mrows (s : State) : (s.trapReturn).thr.mrows = s.thr.mrows := rfl
@[simp] theorem State.trapReturn_thr_cbs (s : State) : (s.trapReturn).thr.cbs = s.thr.cbs := rfl
@[simp] theorem State.trapReturn_thr_array (s : State) : (s.trapReturn).thr.array = s.thr.array := rfl
@[simp] theorem State.trapReturn_thr_staging (s : State) : (s.trapReturn).thr.staging = s.thr.staging := rfl
@[simp] theorem State.trapReturn_thr_vrun (s : State) : (s.trapReturn).thr.vrun = s.thr.vrun.resume := rfl
@[simp] theorem State.trapReturn_thr_pts (s : State) : (s.trapReturn).thr.pts = s.thr.pts := rfl
@[simp] theorem State.trapReturn_thr_acqGang (s : State) : (s.trapReturn).thr.acqGang = s.thr.acqGang := rfl
@[simp] theorem State.trapReturn_thr_acqOther (s : State) : (s.trapReturn).thr.acqOther = s.thr.acqOther := rfl
@[simp] theorem State.trapReturn_thr_barGen (s : State) : (s.trapReturn).thr.barGen = resumeBar s.thr.epc s.thr.barGen := rfl
@[simp] theorem State.trapReturn_thr_pend17 (s : State) : (s.trapReturn).thr.pend17 = s.thr.pend17 := rfl
@[simp] theorem State.trapReturn_thr_pend18 (s : State) : (s.trapReturn).thr.pend18 = s.thr.pend18 := rfl
@[simp] theorem State.trapReturn_thr_stopAt (s : State) : (s.trapReturn).thr.stopAt = s.thr.stopAt := rfl
@[simp] theorem State.trapReturn_thr_pfx (s : State) : (s.trapReturn).thr.pfx = s.thr.pfx := rfl
@[simp] theorem State.trapReturn_thr_inSpan (s : State) : (s.trapReturn).thr.inSpan = s.thr.convoy.getLsbD 0 := rfl
@[simp] theorem State.trapReturn_thr_stale (s : State) : (s.trapReturn).thr.stale = [] := rfl
@[simp] theorem State.trapReturn_thr_poisonS (s : State) : (s.trapReturn).thr.poisonS = s.thr.poisonS := rfl
@[simp] theorem State.trapReturn_thr_poisonV (s : State) : (s.trapReturn).thr.poisonV = s.thr.poisonV := rfl
@[simp] theorem State.trapReturn_thr_known (s : State) : (s.trapReturn).thr.known = s.thr.known := rfl
@[simp] theorem State.trapReturn_thr_seen (s : State) : (s.trapReturn).thr.seen = s.thr.seen := rfl
@[simp] theorem State.trapReturn_thr_fenced (s : State) : (s.trapReturn).thr.fenced = s.thr.fenced := rfl

end Sys2Proof.Machine
end

