-- ==== Sys2Proof/Laws/Scalar.lean ====
section
/-! SUPPORT. What the shared operations of the scalar words do, said once. -/

namespace Sys2Proof.Machine

open Sys2Proof

/-- Reading after a register write. -/
theorem Thread.rs_ws (t : Thread) (d : BitVec 6) (v : Word) (r : BitVec 6) :
    (t.ws d v).rs r = if r = d ∧ r ≠ 0 then v else t.rs r := by
  unfold Thread.rs Thread.ws
  by_cases hr : r = 0
  · rw [if_pos hr, if_pos hr, if_neg (fun h => h.2 hr)]
  · rw [if_neg hr, if_neg hr]
    by_cases hd : d = 0
    · rw [if_pos hd, if_neg (fun h => hr (h.1.trans hd))]
    · rw [if_neg hd]
      by_cases h : r = d
      · subst h
        rw [if_pos ⟨rfl, hr⟩]
        exact Vector.getElem_set_self _
      · rw [if_neg (fun e => h e.1)]
        exact Vector.getElem_set_ne d.isLt r.isLt (fun e => h (BitVec.eq_of_toNat_eq e.symm))

/-- Poison after a register write. -/
theorem Thread.poisonS_ws (t : Thread) (d : BitVec 6) (v : Word) (r : BitVec 6) :
    r.toNat ∈ (t.ws d v).poisonS ↔ r.toNat ∈ t.poisonS ∧ (r ≠ d ∨ d = 0) := by
  unfold Thread.ws
  by_cases hd : d = 0
  · simp [hd]
  · simp only [hd, if_false, List.mem_filter, decide_eq_true_eq, or_false]
    exact and_congr_right fun _ => not_congr ⟨fun e => BitVec.eq_of_toNat_eq e, fun e => e ▸ rfl⟩

/-- A register write is `Wrote`. -/
theorem wrote_of_thread {s t : State} {u : Thread} {d : BitVec 6} {v : Word} (hu : u.sregs = s.thr.sregs)
    (hp : u.poisonS = s.thr.poisonS) (h1 : t.thr.sregs = (u.ws d v).sregs) (h2 : t.thr.poisonS = (u.ws d v).poisonS) :
    Wrote s t d v := by
  constructor
  · intro r
    have := Thread.rs_ws u d v r
    simp only [State.rs, Thread.rs, h1, hu] at this ⊢
    exact this
  · intro r
    rw [h2, Thread.poisonS_ws, hp]

/-- A clean operand list is consumed. -/
theorem State.consume_ok {s : State} {rs : List (BitVec 6)} (h : s.Clean rs) : s.consume rs = .ok () := by
  have : (rs.any fun r => s.thr.poisonS.contains r.toNat) = false := by
    simp only [List.any_eq_false, List.contains_iff_mem]
    exact fun r hr => by simpa using h r hr
  rw [State.consume, this]
  rfl

/-- A poisoned one is not. -/
theorem State.consume_error {s : State} {rs : List (BitVec 6)} (h : ¬ s.Clean rs) : s.consume rs = .error (.data 0 5 7 false) := by
  have : (rs.any fun r => s.thr.poisonS.contains r.toNat) = true := by
    simp only [State.Clean, not_forall, not_not] at h
    obtain ⟨r, hr, hp⟩ := h
    simp only [List.any_eq_true, List.contains_iff_mem]
    exact ⟨r, hr, by simpa using hp⟩
  rw [State.consume, this]
  rfl

/-- Where a class X word may run, its guard passes. -/
theorem State.serial_ok {s : State} (i : Instr) (h : s.Serial) : s.serial i = .ok () := by
  obtain ⟨h1, h2⟩ := h
  simp only [not_and, Bool.not_eq_true] at h2
  by_cases hi : s.thr.inSpan = true
  · simp only [State.serial, State.inBlock, h1, hi, h2 hi, Bool.and_false, if_false, Bool.false_eq_true]
  · simp only [State.serial, State.inBlock, h1, Bool.eq_false_iff.mpr hi, Bool.false_and, if_false, Bool.false_eq_true]

/-- Inside a pass the guard makes the word illegal. -/
theorem State.serial_block {s : State} (i : Instr) (h : s.thr.vrun.pass = true) : s.serial i = .error (.illegal i) := by
  simp only [State.serial, State.inBlock, h, if_true]

/-- In an open convoy that the thread stands in the guard raises the illegal-convoy trap. -/
theorem State.serial_convoy {s : State} (i : Instr) (h1 : s.thr.vrun.pass = false) (h2 : s.thr.inSpan = true)
    (h3 : s.thr.convoy.getLsbD 0 = true) : s.serial i = .error (.of 4 (s.thr.convoy >>> 32)) := by
  simp only [State.serial, State.inBlock, h1, h2, h3, Bool.and_self, if_true, if_false, Bool.false_eq_true]

/-- A word that has its effect completes, PC at the next word. -/
@[simp] theorem finish_ok (i : Instr) (s t : State) : finish i s (.ok t) = .next t.pcNext.retire := rfl
@[simp] theorem finishWith_ok (i : Instr) (s t : State) : finishWith i s (.ok t) = .next t.retire := rfl

/-- A trap is taken from the state before the word. -/
@[simp] theorem finish_trap (i : Instr) (s : State) (c : Nat) (v : Word) (f : Option Word) (p : State → State) :
    finish i s (.error (.trap c v f p)) = .next ((p s).takeTrap c v f) := rfl
@[simp] theorem finishWith_trap (i : Instr) (s : State) (c : Nat) (v : Word) (f : Option Word) (p : State → State) :
    finishWith i s (.error (.trap c v f p)) = .next ((p s).takeTrap c v f) := rfl

/-- A wait leaves the word pending. -/
@[simp] theorem finish_hold (i : Instr) (s : State) (p : State → State) :
    finish i s (.error (.hold p)) = .next ((p s).waitAt i) := rfl

/-- Everything a scalar word that computes can do: it completes, writes its destination and nothing else. -/
theorem scalarOp_next {i : Instr} {s : State} {rs : List (BitVec 6)} {d : BitVec 6} {v : Word} (h : s.Clean rs) :
    ∃ t, scalarOp i s rs d v = .next t ∧ Completed s t (s.thr.pc + 4) ∧ Wrote s t d v ∧ ScalarFrame s t := by
  refine ⟨(s.ws d v).pcNext.retire, ?_, ?_, ?_, ?_⟩
  · simp [scalarOp, State.consume_ok h]
    rfl
  · exact ⟨by simp, by simp, by simp, by simp⟩
  · exact wrote_of_thread (u := s.thr) rfl rfl (by simp) (by simp)
  · unfold ScalarFrame Thread.bookOf State.retire State.pcNext State.ws Thread.ws
    split <;> rfl

/-- A scalar word with a poisoned operand faults. -/
theorem scalarOp_poisoned {i : Instr} {s : State} {rs : List (BitVec 6)} {d : BitVec 6} {v : Word} (h : ¬ s.Clean rs) :
    scalarOp i s rs d v = .next (s.takeTrap 8 0 (some 0x75)) := by
  simp [scalarOp, State.consume_error h]
  rfl

end Sys2Proof.Machine
end

