-- ==== Sys2Proof/Laws/Translate.lean ====
section
/-! SUPPORT. Translation with cached table entries: where what the walkers keep is as the tables are, a walk finds what the tables say,
and what the walk leaves in the walker is as the tables are too. -/

namespace Sys2Proof.Machine

open Sys2Proof

/-- Below an entry of its path that is no leaf a walk goes on as from the root. -/
theorem walkTables_of_mem {m : List Host.Cell} {dev va : Nat} {e : Nat × Nat × Word × Word} :
    ∀ {fuel level table : Nat}, e ∈ (walkPath m dev va fuel level table).dropLast →
      level ≤ e.1 ∧ e.1 < level + fuel ∧
      walkTables m dev va fuel level table =
        walkTables m dev va (level + fuel - (e.1 + 1)) (e.1 + 1) (e.2.2.1.toNat / 2 ^ 12 % 2 ^ 40 * 4096)
  | 0, _, _, h => by simp [walkPath] at h
  | fuel + 1, level, table, h => by
    simp only [walkPath] at h
    split at h
    · simp at h
    · rename_i hn
      simp only [not_or] at hn
      obtain ⟨h0, h1, h2⟩ := hn
      have hs : walkTables m dev va (fuel + 1) level table =
          walkTables m dev va fuel (level + 1)
            ((BitVec.ofNat 64 (Memory.num m (table + 16 * levelIndex level va) 8) : Word).toNat / 2 ^ 12 % 2 ^ 40 * 4096) := by
        rw [walkTables, if_neg h0, if_neg h1, if_neg h2]
      cases hp : walkPath m dev va fuel (level + 1)
          ((BitVec.ofNat 64 (Memory.num m (table + 16 * levelIndex level va) 8) : Word).toNat / 2 ^ 12 % 2 ^ 40 * 4096) with
      | nil => rw [hp] at h; simp at h
      | cons p r =>
        rw [hp, List.dropLast_cons_cons, List.mem_cons] at h
        rcases h with rfl | h
        · refine ⟨Nat.le_refl _, by simp, ?_⟩
          rw [hs]; simp only; congr 1; omega
        · obtain ⟨a, b, c⟩ := walkTables_of_mem (hp ▸ h)
          refine ⟨by omega, by omega, ?_⟩
          rw [hs, c]; congr 1; omega

/-- Two addresses of one entry of a level share the index of that level and of each above. -/
theorem levelIndex_congr {k e va va' : Nat} (hk : k ≤ e) (h : va / levelSpan e = va' / levelSpan e) :
    levelIndex k va = levelIndex k va' := by
  rcases e with _ | _ | _ | _ | e <;> rcases k with _ | _ | _ | _ | k <;>
    first | omega | (simp only [levelSpan, levelIndex, Nat.reducePow] at *; omega)

/-- Their walks share the entries down to that level. -/
theorem walkPath_congr {m : List Host.Cell} {dev va va' : Nat} {e : Nat × Nat × Word × Word} :
    ∀ {fuel level table : Nat}, e ∈ (walkPath m dev va fuel level table).dropLast → va / levelSpan e.1 = va' / levelSpan e.1 →
      e ∈ (walkPath m dev va' fuel level table).dropLast
  | 0, _, _, h, _ => by simp [walkPath] at h
  | fuel + 1, level, table, h, hv => by
    have hi := levelIndex_congr (walkTables_of_mem h).1 hv
    simp only [walkPath] at h ⊢
    rw [← hi]
    split at h
    · simp at h
    · rename_i hn
      rw [if_neg hn]
      cases hp : walkPath m dev va fuel (level + 1)
          ((BitVec.ofNat 64 (Memory.num m (table + 16 * levelIndex level va) 8) : Word).toNat / 2 ^ 12 % 2 ^ 40 * 4096) with
      | nil => rw [hp] at h; simp at h
      | cons p r =>
        have hne : walkPath m dev va' fuel (level + 1)
            ((BitVec.ofNat 64 (Memory.num m (table + 16 * levelIndex level va) 8) : Word).toNat / 2 ^ 12 % 2 ^ 40 * 4096) ≠ [] := by
          cases fuel with
          | zero => simp [walkPath] at hp
          | succ f => simp only [walkPath]; split <;> simp
        obtain ⟨p', r', hp'⟩ := List.exists_cons_of_ne_nil hne
        rw [hp, List.dropLast_cons_cons, List.mem_cons] at h
        rw [hp', List.dropLast_cons_cons, List.mem_cons]
        rcases h with rfl | h
        · exact .inl rfl
        · exact .inr (hp' ▸ walkPath_congr (hp ▸ h) hv)

/-- A walk that starts at an entry of the path reads a rest of the path. -/
theorem walkPath_suffix {m : List Host.Cell} {dev va : Nat} {e f : Nat × Nat × Word × Word} :
    ∀ {fuel level table : Nat}, e ∈ (walkPath m dev va fuel level table).dropLast →
      f ∈ (walkPath m dev va (level + fuel - (e.1 + 1)) (e.1 + 1) (e.2.2.1.toNat / 2 ^ 12 % 2 ^ 40 * 4096)).dropLast →
      f ∈ (walkPath m dev va fuel level table).dropLast
  | 0, _, _, h, _ => by simp [walkPath] at h
  | fuel + 1, level, table, h, hf => by
    simp only [walkPath] at h ⊢
    split at h
    · simp at h
    · rename_i hn
      rw [if_neg hn]
      cases hp : walkPath m dev va fuel (level + 1)
          ((BitVec.ofNat 64 (Memory.num m (table + 16 * levelIndex level va) 8) : Word).toNat / 2 ^ 12 % 2 ^ 40 * 4096) with
      | nil => rw [hp] at h; simp at h
      | cons p r =>
        rw [hp, List.dropLast_cons_cons, List.mem_cons] at h
        rw [List.dropLast_cons_cons, List.mem_cons]
        rcases h with rfl | h
        · simp only [show level + (fuel + 1) - (level + 1) = fuel from by omega] at hf
          exact .inr (hp ▸ hf)
        · refine .inr (hp ▸ walkPath_suffix (hp ▸ h) ?_)
          rwa [show level + 1 + fuel = level + (fuel + 1) from by omega]

/-- Where the walkers' entries are as the tables are, a walk finds the tables' own translation, wherever it starts (R377, R378). -/
theorem State.walkNow_of_current {s : State} {asid va : Nat} (h : s.TablesCurrent asid va) (m : List Nat) :
    s.walkNow asid va m = s.walk asid va := by
  unfold State.walkNow State.walkStart State.walk
  cases he : s.startEntry asid va m with
  | none => cases s.asidEntry asid <;> rfl
  | some e =>
    have hm := List.mem_of_find?_eq_some he
    simp only [List.mem_flatMap, List.mem_filter, Bool.and_eq_true, decide_eq_true_eq] at hm
    obtain ⟨k, -, hin, -, hc⟩ := hm
    obtain ⟨a, ha⟩ := h e hin hc
    unfold State.tablePath at ha
    cases hr : s.asidEntry asid with
    | none => rw [hr] at ha; simp at ha
    | some p =>
      rw [hr] at ha
      obtain ⟨-, -, hw⟩ := walkTables_of_mem ha
      simp only [Nat.zero_add] at hw ⊢
      exact hw.symm

/-- Then a use finds the leaf that `State.Finds` names. -/
theorem State.translate_of_finds {s : State} {asid va : Nat} {l : Leaf} (h : s.Finds asid va l) (m : List Nat) :
    (s.translate asid va m).1 = .ok l := by
  obtain ⟨hw, hc, ht⟩ := h
  unfold State.translate
  rw [State.walkNow_of_current ht, hw]
  rcases hc with hc | hc <;> simp [hc]

/-! ## What a walk leaves -/

/-- A touch leaves everything but the counts of requests. -/
theorem State.touch_frame (s : State) (a : Nat) : s.touch a = (s.touch a).countAs s := by
  unfold State.touch State.request State.countAs
  split
  · rfl
  · split <;> rfl

/-- So do several. -/
theorem State.touches_frame {α : Type} (f : α → Nat) (ps : List α) (s : State) :
    ps.foldl (fun u p => u.touch (f p)) s = (ps.foldl (fun u p => u.touch (f p)) s).countAs s := by
  induction ps generalizing s with
  | nil => rfl
  | cons p r ih =>
    have h1 := ih (s.touch (f p))
    have h2 := State.touch_frame s (f p)
    rw [List.foldl_cons]
    generalize s.touch (f p) = u at h1 h2 ⊢
    generalize r.foldl (fun u p => u.touch (f p)) u = v at h1 ⊢
    rw [h1, h2]; rfl

/-- Keeping table entries leaves everything else. -/
theorem State.keeps_frame (asid va : Nat) (ps : List (Nat × Nat × Word × Word)) (s : State) :
    ps.foldl (fun u p => u.keepTable asid va p.1 p.2.2.1 p.2.2.2) s =
      { s with tables := (ps.foldl (fun u p => u.keepTable asid va p.1 p.2.2.1 p.2.2.2) s).tables } := by
  induction ps generalizing s with
  | nil => rfl
  | cons p r ih => rw [List.foldl_cons, ih]; rfl

/-- A walk leaves everything but the counts of its requests and the walkers' entries (R377, R381). -/
theorem State.walked_frame (s : State) (asid va : Nat) (m : List Nat) :
    s.walked asid va m =
      { s with heat := (s.walked asid va m).heat, samples := (s.walked asid va m).samples, tables := (s.walked asid va m).tables } := by
  have h := State.keeps_frame asid va (s.walkReads asid va m).dropLast ((s.walkReads asid va m).foldl (fun u p => u.touch p.2.1) s)
  rw [State.touches_frame (fun p : Nat × Nat × Word × Word => p.2.1)] at h
  unfold State.walked
  simp only
  conv_lhs => rw [State.touches_frame (fun p : Nat × Nat × Word × Word => p.2.1), h]
  conv_rhs => rw [State.touches_frame (fun p : Nat × Nat × Word × Word => p.2.1), h]
  rfl

/-- The entries that a walk leaves in the walkers: those there before, and those above the leaf that it read. -/
theorem State.walked_tables {s : State} {asid va : Nat} {m : List Nat} {e : TableEntry} (h : e ∈ (s.walked asid va m).tables) :
    e ∈ s.tables ∨ ∃ p ∈ (s.walkReads asid va m).dropLast,
      e = ⟨BitVec.ofNat 10 asid, p.1, va / levelSpan p.1 * levelSpan p.1, p.2.2.1, p.2.2.2⟩ := by
  have key : ∀ (ps : List (Nat × Nat × Word × Word)) (u : State),
      e ∈ (ps.foldl (fun u p => u.keepTable asid va p.1 p.2.2.1 p.2.2.2) u).tables →
      e ∈ u.tables ∨ ∃ p ∈ ps, e = ⟨BitVec.ofNat 10 asid, p.1, va / levelSpan p.1 * levelSpan p.1, p.2.2.1, p.2.2.2⟩ := by
    intro ps
    induction ps with
    | nil => intro u hu; exact .inl hu
    | cons p r ih =>
      intro u hu
      rcases ih _ hu with hu | ⟨q, hq, he⟩
      · simp only [State.keepTable, List.mem_cons, List.mem_filter] at hu
        rcases hu with rfl | ⟨hu, -⟩
        · exact .inr ⟨p, by simp, rfl⟩
        · exact .inl hu
      · exact .inr ⟨q, by simp [hq], he⟩
  unfold State.walked at h
  rcases key _ _ h with h | h
  · rw [State.touches_frame (fun p : Nat × Nat × Word × Word => p.2.1)] at h
    exact .inl h
  · exact .inr h

/-- The plaintext that walkers see reads no count and no walker's entry. -/
theorem State.view_counts (s : State) (h : List (Nat × BitVec 8 × Bool)) (n : List (Nat × Nat)) (ts : List TableEntry) :
    ({ s with heat := h, samples := n, tables := ts } : State).view = s.view := by
  have put : ∀ (u : State) (k : Option (BitVec 512)) (a : Nat) (b : Byte),
      ({ u with heat := h, samples := n, tables := ts } : State).keyedPut k a b =
        { u.keyedPut k a b with heat := h, samples := n, tables := ts } := by
    intro u k a b
    unfold State.keyedPut State.rekey
    simp only
    split <;> rfl
  have puts : ∀ (ps : List (Nat × Nat × Byte)) (u : State),
      ps.foldl (fun (u : State) p => u.keyedPut (u.keyOf p.1) p.2.1 p.2.2) ({ u with heat := h, samples := n, tables := ts } : State) =
        { ps.foldl (fun (u : State) p => u.keyedPut (u.keyOf p.1) p.2.1 p.2.2) u with heat := h, samples := n, tables := ts } := by
    intro ps
    induction ps with
    | nil => intro u; rfl
    | cons p r ih =>
      intro u
      rw [List.foldl_cons, List.foldl_cons, ← ih]
      congr 1
      exact put u _ _ _
  unfold State.view
  rw [show ({ s with heat := h, samples := n, tables := ts } : State).dirtyD = s.dirtyD from rfl, puts]

/-- After a walk to `va` the walkers' entries for any `va'` whose entries were current are current still. -/
theorem State.walked_current {s : State} {asid va va' : Nat} {m : List Nat} (h : s.TablesCurrent asid va)
    (h' : s.TablesCurrent asid va') : (s.walked asid va m).TablesCurrent asid va' := by
  have path : (s.walked asid va m).tablePath asid va' = s.tablePath asid va' := by
    rw [State.walked_frame]
    unfold State.tablePath State.asidEntry
    simp only [State.view_counts]
  intro e he hc
  rw [path]
  rcases State.walked_tables he with he | ⟨p, hp, rfl⟩
  · exact h' e he hc
  · refine ⟨p.2.1, ?_⟩
    have hin : p ∈ (s.tablePath asid va).dropLast := by
      unfold State.walkReads State.walkStart at hp
      unfold State.tablePath
      cases hs : s.startEntry asid va m with
      | none =>
        rw [hs] at hp
        cases hr : s.asidEntry asid with
        | none => rw [hr] at hp; simp at hp
        | some r => rw [hr] at hp; exact hp
      | some k =>
        rw [hs] at hp
        have hm := List.mem_of_find?_eq_some hs
        simp only [List.mem_flatMap, List.mem_filter, Bool.and_eq_true, decide_eq_true_eq] at hm
        obtain ⟨_, -, hin, -, hk⟩ := hm
        obtain ⟨a, ha⟩ := h k hin hk
        unfold State.tablePath at ha
        cases hr : s.asidEntry asid with
        | none => rw [hr] at ha; simp at ha
        | some r => rw [hr] at ha; exact walkPath_suffix ha (by simpa using hp)
    have hv : va / levelSpan p.1 = va' / levelSpan p.1 := by
      simp only [TableEntry.covers, Bool.and_eq_true, decide_eq_true_eq] at hc
      obtain ⟨⟨-, h1⟩, h2⟩ := hc
      have h0 : 0 < levelSpan p.1 := by unfold levelSpan; split <;> simp
      exact (Nat.div_eq_of_lt_le h1 (by rw [Nat.succ_mul]; exact h2)).symm
    unfold State.tablePath at hin ⊢
    cases hr : s.asidEntry asid with
    | none => rw [hr] at hin; simp at hin
    | some r => rw [hr] at hin; exact walkPath_congr hin hv

end Sys2Proof.Machine
end

