-- ==== Sys2Proof/Laws/Vector.lean ====
section
/-! SUPPORT. What the shared operations of the vector words do to register rows and masks, said once. -/

set_option Elab.async false

namespace Sys2Proof.Machine

open Sys2Proof

/-! ## Rows built of elements -/

/-- The elements of a row added up from column 0. -/
def packed (w : Nat) (f : Nat → Nat) (n : Nat) : Nat :=
  (List.range n).foldl (fun acc j => acc + f j % 2 ^ w * 2 ^ (j * w)) 0

theorem packed_succ (w : Nat) (f : Nat → Nat) (n : Nat) : packed w f (n + 1) = packed w f n + f n % 2 ^ w * 2 ^ (n * w) := by
  simp [packed, List.range_succ, List.foldl_append]

theorem packed_lt (w : Nat) (f : Nat → Nat) (n : Nat) : packed w f n < 2 ^ (n * w) := by
  induction n with
  | zero => simp [packed]
  | succ n ih =>
    rw [packed_succ, Nat.succ_mul, Nat.pow_add]
    have h : f n % 2 ^ w < 2 ^ w := Nat.mod_lt _ (Nat.two_pow_pos w)
    have : f n % 2 ^ w + 1 ≤ 2 ^ w := h
    calc packed w f n + f n % 2 ^ w * 2 ^ (n * w) < 2 ^ (n * w) + f n % 2 ^ w * 2 ^ (n * w) := by omega
      _ = (f n % 2 ^ w + 1) * 2 ^ (n * w) := by ring
      _ ≤ 2 ^ w * 2 ^ (n * w) := Nat.mul_le_mul_right _ this
      _ = 2 ^ (n * w) * 2 ^ w := by ring

theorem buildRow_eq (w cl old : Nat) (f : Nat → Nat) :
    buildRow w cl old f = packed w f cl + old / 2 ^ (cl * w) * 2 ^ (cl * w) := rfl

/-- Beyond its columns a built row is the old one. -/
theorem buildRow_tail (w cl old : Nat) (f : Nat → Nat) : buildRow w cl old f / 2 ^ (cl * w) = old / 2 ^ (cl * w) := by
  rw [buildRow_eq, Nat.add_mul_div_right _ _ (Nat.two_pow_pos _), Nat.div_eq_of_lt (packed_lt w f cl), Nat.zero_add]

/-- Below its columns a built row is what was packed. -/
theorem buildRow_mod (w cl old : Nat) (f : Nat → Nat) : buildRow w cl old f % 2 ^ (cl * w) = packed w f cl := by
  rw [buildRow_eq, Nat.add_mul_mod_self_right, Nat.mod_eq_of_lt (packed_lt w f cl)]

theorem packed_elem (w : Nat) (f : Nat → Nat) (n j : Nat) (h : j < n) : elemAt (packed w f n) w j = f j % 2 ^ w := by
  unfold elemAt
  induction n with
  | zero => omega
  | succ n ih =>
    rw [packed_succ]
    by_cases hj : j = n
    · subst hj
      rw [Nat.add_mul_div_right _ _ (Nat.two_pow_pos _), Nat.div_eq_of_lt (packed_lt w f j), Nat.zero_add, Nat.mod_mod]
    · have hlt : j < n := by omega
      have e : n * w = j * w + ((n - j - 1) * w + w) := by
        obtain ⟨k, rfl⟩ : ∃ k, n = j + 1 + k := ⟨n - j - 1, by omega⟩
        rw [show j + 1 + k - j - 1 = k from by omega]; ring
      rw [e, show f n % 2 ^ w * 2 ^ (j * w + ((n - j - 1) * w + w)) = (f n % 2 ^ w * 2 ^ ((n - j - 1) * w) * 2 ^ w) * 2 ^ (j * w) by
        rw [Nat.pow_add, Nat.pow_add]; ring, Nat.add_mul_div_right _ _ (Nat.two_pow_pos _), Nat.add_mul_mod_self_right, ih hlt]

/-- Column `j` of a built row. -/
theorem buildRow_elem (w cl old : Nat) (f : Nat → Nat) (j : Nat) (h : j < cl) : elemAt (buildRow w cl old f) w j = f j % 2 ^ w := by
  rw [← packed_elem w f cl j h]
  unfold elemAt
  rw [← buildRow_mod w cl old f]
  have e : cl * w = j * w + w + (cl - j - 1) * w := by
    obtain ⟨k, rfl⟩ : ∃ k, cl = j + 1 + k := ⟨cl - j - 1, by omega⟩
    rw [show j + 1 + k - j - 1 = k from by omega]; ring
  rw [e, Nat.pow_add, Nat.pow_add, Nat.mul_assoc, Nat.mod_mul_right_div_self, Nat.mod_mod_of_dvd _ (Dvd.intro _ rfl)]

theorem buildRow_lt (w cl old n : Nat) (f : Nat → Nat) (hc : cl * w ≤ n) (ho : old < 2 ^ n) : buildRow w cl old f < 2 ^ n := by
  have h1 : buildRow w cl old f / 2 ^ (cl * w) < 2 ^ (n - cl * w) := by
    rw [buildRow_tail]
    apply Nat.div_lt_of_lt_mul
    rwa [← Nat.pow_add, Nat.add_sub_cancel' hc]
  have h2 := Nat.lt_mul_of_div_lt h1 (Nat.two_pow_pos _)
  rwa [← Nat.pow_add, Nat.sub_add_cancel hc] at h2

/-! ## The register file -/

theorem Thread.row_lt (t : Thread) (k : Nat) : t.row k < 2 ^ 65536 := by
  unfold Thread.row
  split
  · exact (t.vrows[k]).isLt
  · exact Nat.two_pow_pos _

/-- Reading a row after a row write. -/
theorem Thread.row_setRow (t : Thread) (k v k' : Nat) (hv : v < 2 ^ 65536) (hk : k < 256) :
    (t.setRow k v).row k' = if k' = k then v else t.row k' := by
  unfold Thread.setRow
  rw [dif_pos hk]
  unfold Thread.row
  by_cases h : k' = k
  · subst h
    rw [dif_pos hk, if_pos rfl]
    simp only [Vector.getElem_set_self, BitVec.toNat_ofNat]
    exact Nat.mod_eq_of_lt hv
  · rw [if_neg h]
    by_cases h' : k' < 256
    · rw [dif_pos h', dif_pos h']
      simp only [Vector.getElem_set_ne hk h' (Ne.symm h)]
    · rw [dif_neg h', dif_neg h']

/-- The shape of a context a thread can have. -/
structure VCtx.Fits (c : VCtx) (r : BitVec 5) : Prop where
  align : r.toNat % c.f = 0
  factor : c.f ∣ 32
  rows8 : c.rl ≤ 8

theorem rowIndex_lt {c : VCtx} {r : BitVec 5} (h : c.Fits r) {i : Nat} (hi : i < c.rows) : rowIndex c r i < 256 := by
  unfold rowIndex VCtx.rows at *
  obtain ⟨ha, ⟨q, hq⟩, h8⟩ := h
  have hrl : 0 < c.rl := by
    rcases Nat.eq_zero_or_pos c.rl with h | h
    · rw [h] at hi; simp at hi
    · exact h
  have h1 : i / c.rl < c.f := Nat.div_lt_of_lt_mul (by rwa [Nat.mul_comm])
  have h2 : i % c.rl < c.rl := Nat.mod_lt _ hrl
  obtain ⟨m, hm⟩ := Nat.dvd_of_mod_eq_zero ha
  have h3 := r.isLt
  have h4 : m < q := by
    by_contra h
    have : c.f * q ≤ c.f * m := Nat.mul_le_mul_left _ (by omega)
    omega
  have h5 : c.f * m + c.f ≤ c.f * q := by
    have : c.f * (m + 1) ≤ c.f * q := Nat.mul_le_mul_left _ h4
    rwa [Nat.mul_succ] at this
  omega

theorem rowIndex_inj {c : VCtx} {r : BitVec 5} (h : c.rl ≤ 8) {i k : Nat} (hi : i < c.rows) (he : rowIndex c r i = rowIndex c r k)
    (_hk : k < c.rows) : i = k := by
  unfold rowIndex VCtx.rows at *
  have hrl : 0 < c.rl := by
    rcases Nat.eq_zero_or_pos c.rl with h | h
    · rw [h] at hi; simp at hi
    · exact h
  have h2 : i % c.rl < c.rl := Nat.mod_lt _ hrl
  have h3 : k % c.rl < c.rl := Nat.mod_lt _ hrl
  have h4 : i / c.rl = k / c.rl := by omega
  have h5 : i % c.rl = k % c.rl := by omega
  have h6 := Nat.div_add_mod i c.rl
  have h7 := Nat.div_add_mod k c.rl
  rw [h4, h5] at h6
  omega

/-- Writing the first `n` grouped rows. -/
def Thread.writeFirst (t : Thread) (c : VCtx) (r : BitVec 5) (w : Nat) (f : Nat → Nat → Nat → Nat) (n : Nat) : Thread :=
  (List.range n).foldl (fun u i =>
    u.setRow (rowIndex c r i) (buildRow w c.cl (t.row (rowIndex c r i)) (fun j => f i j (elemAt (t.row (rowIndex c r i)) w j)))) t

theorem Thread.writeRows_eq (t : Thread) (c : VCtx) (r : BitVec 5) (w : Nat) (f : Nat → Nat → Nat → Nat) :
    t.writeRows c r w f = t.writeFirst c r w f c.rows := rfl

theorem Thread.writeFirst_succ (t : Thread) (c : VCtx) (r : BitVec 5) (w : Nat) (f : Nat → Nat → Nat → Nat) (n : Nat) :
    t.writeFirst c r w f (n + 1) = (t.writeFirst c r w f n).setRow (rowIndex c r n)
      (buildRow w c.cl (t.row (rowIndex c r n)) (fun j => f n j (elemAt (t.row (rowIndex c r n)) w j))) := by
  simp [Thread.writeFirst, List.range_succ, List.foldl_append]

theorem Thread.writeFirst_frame (t : Thread) (c : VCtx) (r : BitVec 5) (w : Nat) (f : Nat → Nat → Nat → Nat) (n : Nat) :
    ∃ v, t.writeFirst c r w f n = { t with vrows := v } := by
  induction n with
  | zero => exact ⟨t.vrows, rfl⟩
  | succ n ih =>
    obtain ⟨v, hv⟩ := ih
    rw [Thread.writeFirst_succ, hv]
    unfold Thread.setRow
    split
    · exact ⟨_, rfl⟩
    · exact ⟨v, rfl⟩

/-- A row write of register elements changes only the register file. -/
theorem Thread.writeRows_frame (t : Thread) (c : VCtx) (r : BitVec 5) (w : Nat) (f : Nat → Nat → Nat → Nat) :
    ∃ v, t.writeRows c r w f = { t with vrows := v } := t.writeFirst_frame c r w f c.rows

theorem Thread.writeFirst_row (t : Thread) (c : VCtx) (r : BitVec 5) (w : Nat) (f : Nat → Nat → Nat → Nat) (h : c.Fits r)
    (hc : c.cl * w ≤ 65536) (n : Nat) (hn : n ≤ c.rows) :
    (∀ i < n, (t.writeFirst c r w f n).row (rowIndex c r i) =
      buildRow w c.cl (t.row (rowIndex c r i)) (fun j => f i j (elemAt (t.row (rowIndex c r i)) w j))) ∧
    ∀ k, (∀ i < n, k ≠ rowIndex c r i) → (t.writeFirst c r w f n).row k = t.row k := by
  induction n with
  | zero => exact ⟨fun i hi => absurd hi (by omega), fun k _ => rfl⟩
  | succ n ih =>
    obtain ⟨ih1, ih2⟩ := ih (by omega)
    have hlt := buildRow_lt w c.cl _ 65536 (fun j => f n j (elemAt (t.row (rowIndex c r n)) w j)) hc (t.row_lt (rowIndex c r n))
    have hk := rowIndex_lt h (show n < c.rows by omega)
    rw [Thread.writeFirst_succ]
    refine ⟨fun i hi => ?_, fun k hne => ?_⟩
    · rw [Thread.row_setRow _ _ _ _ hlt hk]
      by_cases he : rowIndex c r i = rowIndex c r n
      · have : i = n := rowIndex_inj h.rows8 (by omega) he (by omega)
        subst this
        rw [if_pos rfl]
      · rw [if_neg he]
        exact ih1 i (by
          rcases Nat.lt_succ_iff_lt_or_eq.mp hi with h | h
          · exact h
          · exact absurd (by rw [h]) he)
    · rw [Thread.row_setRow _ _ _ _ hlt hk, if_neg (hne n (by omega))]
      exact ih2 k (fun i hi => hne i (by omega))

/-- Everything a row write does: elements within the lengths, tails, other rows. -/
theorem Thread.writeRows_spec (t : Thread) (c : VCtx) (r : BitVec 5) (w : Nat) (f : Nat → Nat → Nat → Nat) (h : c.Fits r)
    (hc : c.cl * w ≤ 65536) :
    (∀ i < c.rows, ∀ j < c.cl, (t.writeRows c r w f).elem c r w i j = f i j (t.elem c r w i j) % 2 ^ w) ∧
    (∀ i < c.rows, (t.writeRows c r w f).row (rowIndex c r i) / 2 ^ (c.cl * w) = t.row (rowIndex c r i) / 2 ^ (c.cl * w)) ∧
    ∀ k, (∀ i < c.rows, k ≠ rowIndex c r i) → (t.writeRows c r w f).row k = t.row k := by
  obtain ⟨h1, h2⟩ := t.writeFirst_row c r w f h hc c.rows le_rfl
  refine ⟨fun i hi j hj => ?_, fun i hi => ?_, h2⟩
  · unfold Thread.elem
    rw [Thread.writeRows_eq, h1 i hi, buildRow_elem _ _ _ _ _ hj]
  · rw [Thread.writeRows_eq, h1 i hi, buildRow_tail]

/-! ## A counted word's checks -/

/-- The group factor divides 32. -/
theorem Thread.vctx_factor (t : Thread) : t.vctx.f ∣ 32 := by
  have h : bits t.mode.toNat 10 9 < 4 := by
    unfold bits
    exact Nat.mod_lt _ (by decide)
  show 2 ^ bits t.mode.toNat 10 9 ∣ 32
  exact (Nat.pow_dvd_pow 2 (by omega : bits t.mode.toNat 10 9 ≤ 5))

theorem State.inConvoy_ok {s : State} {k : WordClass} (h1 : s.thr.convoy.getLsbD 0 = true)
    (h2 : s.thr.inSpan = true → convoyCount s.thr.convoy k < k.quota) : s.inConvoy k = .ok () := by
  unfold State.inConvoy
  simp only [convoyOpen, h1, not_true, if_false]
  rw [if_neg]
  intro h
  have := h2 h.1
  omega

/-- A clean mask is sound. -/
theorem State.CleanMask.sound {s : State} {m rows cols : Nat} (h : s.CleanMask m rows cols) : s.thr.maskSound m rows cols = true := by
  simp only [Thread.maskSound, maskMark, Bool.or_eq_true, decide_eq_true_eq, List.all_eq_true, Bool.not_eq_true', Bool.and_eq_false_imp,
    Bool.and_eq_true, decide_eq_false_iff_not, not_lt, and_imp]
  exact h.imp id (fun h p hp h1 => h p hp (of_decide_eq_true h1))

/-- A counted word passes the checks before its operands where it is ready. -/
theorem State.vready_ok {s : State} {i : Instr} {k : WordClass} {regs : List (BitVec 5)} {ts ws : List Nat} {types : Nat → Bool}
    {widths : VCtx → List Nat} (h : s.Ready k regs ts ws) (hk : instrClass i = k) (ht : ∀ e ∈ ts, types e = true)
    (h1f : 0x1F ∉ ts) (hw : ∀ w ∈ widths s.thr.vctx, w ∈ ws) : s.vready i regs types widths = .ok s.thr.vctx := by
  obtain ⟨h1, h2, h3, h4, h5, h6, h7, -, -⟩ := h
  unfold State.vready
  have e1 : ¬ (s.thr.vctx.et ≠ 0x1F ∧ ¬ types s.thr.vctx.et = true) := fun h => h.2 (ht _ h5)
  have e2 : ¬ (regs.any (fun r => decide (r.toNat % s.thr.vctx.f ≠ 0)) = true) := by
    simp only [List.any_eq_true, decide_eq_true_eq, not_exists, not_and, not_not]
    exact h6
  have e3 : ¬ (s.inBlock = true ∧ (k = .Sl ∨ k = .Mx ∨ k = .Tf)) := by
    rintro ⟨ha, hb⟩
    obtain ⟨n1, n2, n3⟩ := h3 ha
    tauto
  have e4 : ¬ (¬ s.thr.status.vlive = true ∨ s.thr.vctx.et = 0x1F) := by
    rw [h4]
    rintro (ha | ha)
    · exact ha rfl
    · exact h1f (ha ▸ h5)
  have e5 : ¬ ((widths s.thr.vctx).any (fun w => decide (s.thr.cap w < s.thr.vctx.cl)) = true) := by
    simp only [List.any_eq_true, decide_eq_true_eq, not_exists, not_and, not_lt]
    exact fun w hw' => h7 w (hw w hw')
  simp only [hk, if_neg e1, if_neg e2, if_neg e3, State.inConvoy_ok h1 h2]
  simp only [bind, Except.bind, if_neg e4, if_neg e5]

/-- The same with the check of its mask. -/
theorem State.vcheck_ok {s : State} {i : Instr} {k : WordClass} {regs : List (BitVec 5)} {ts ws : List Nat} {types : Nat → Bool}
    {widths : VCtx → List Nat} (h : s.Ready k regs ts ws) (hk : instrClass i = k) (ht : ∀ e ∈ ts, types e = true)
    (h1f : 0x1F ∉ ts) (hw : ∀ w ∈ widths s.thr.vctx, w ∈ ws) : s.vcheck i regs types widths = .ok s.thr.vctx := by
  have hm := h.2.2.2.2.2.2.2.2.sound
  simp only [State.vcheck, State.vready_ok h hk ht h1f hw, State.maskCheck, bind, Except.bind, hm, if_true]

/-- Clean rows are sound. -/
theorem State.sound_of_clean {s : State} {rs : List (BitVec 5)} {w : Nat} (h : s.CleanRows rs w) :
    s.thr.sound s.thr.vctx (rs.map (fun r => (r, w))) = true := by
  simp only [Thread.sound, Thread.soundAt, List.all_eq_true, List.mem_map, forall_exists_index, and_imp, forall_apply_eq_imp_iff₂,
    List.mem_range, Bool.not_eq_true', Bool.and_eq_false_iff, decide_eq_false_iff_not, List.any_eq_false, Bool.and_eq_true,
    decide_eq_true_eq, not_and, Bool.not_eq_true]
  intro r hr p hp i hi
  by_cases he : rowIndex s.thr.vctx r i = p.1 * 8 + p.2.1
  · exact .inr fun j hj hjw => h p hp r hr i hi he j hj hjw
  · exact .inl he

/-- With no poisoned element every read is sound. -/
theorem Thread.soundAt_clean {t : Thread} (h : t.poisonV = []) (c : VCtx) (r : BitVec 5) (w : Nat) (f : Nat → Nat → Bool) :
    t.soundAt c r w f = true := by
  simp [Thread.soundAt, h]

/-- The class of an instruction does not change what a completed word leaves: everything a counted register word can do. -/
theorem vword_next {i : Instr} {s : State} {k : WordClass} {regs srcs : List (BitVec 5)} {ts ws : List Nat} {types : Nat → Bool}
    {widths : VCtx → List Nat} {body : VCtx → Thread → Thread} (h : s.Ready k regs ts ws) (hk : instrClass i = k)
    (ht : ∀ e ∈ ts, types e = true) (h1f : 0x1F ∉ ts) (hw : ∀ w ∈ widths s.thr.vctx, w ∈ ws)
    (hs : s.CleanRows srcs (typeWidth s.thr.vctx.et)) :
    vword i s regs srcs types widths body = finishCounted i s (.ok (if s.thr.vctx.cl = 0 ∨ s.thr.vctx.rl = 0 then s
      else { s with thr := body s.thr.vctx s.thr })) := by
  unfold vword
  rw [State.vcheck_ok h hk ht h1f hw]
  simp only [bind, Except.bind]
  split
  · rfl
  · rw [State.sound_of_clean hs]
    rfl

/-- Everything a counted word with its own reads can do where nothing is poisoned. -/
theorem vwordAt_next {i : Instr} {s : State} {k : WordClass} {rs : List (BitVec 6)} {regs : List (BitVec 5)} {ts : List Nat}
    {types : Nat → Bool} {reads : VCtx → Thread → List (BitVec 5 × (Nat → Nat → Bool))} {body : VCtx → Thread → Thread}
    (h : s.Ready k regs ts [typeWidth s.thr.vctx.et]) (hk : instrClass i = k) (ht : ∀ e ∈ ts, types e = true) (h1f : 0x1F ∉ ts)
    (hc : s.Clean rs) (hp : s.thr.poisonV = []) :
    vwordAt i s rs regs types reads body = finishCounted i s (.ok (if s.thr.vctx.cl = 0 ∨ s.thr.vctx.rl = 0 then s
      else { s with thr := body s.thr.vctx s.thr })) := by
  unfold vwordAt
  rw [State.vcheck_ok h hk ht h1f (by simp [oneWidth])]
  simp only [bind, Except.bind]
  split
  · rfl
  · rw [State.consume_ok hc]
    have : ((reads s.thr.vctx s.thr).all (fun r => s.thr.soundAt s.thr.vctx r.1 (typeWidth s.thr.vctx.et) r.2)) = true := by
      simp [Thread.soundAt_clean hp]
    simp only [this, not_true, if_false]

/-- A counted word that has its effect completes. -/
theorem finishCounted_ok (i : Instr) (s t : State) : finishCounted i s (.ok t) =
    .next ({ t with thr := { t.thr with convoy := convoyStep t.thr.convoy (instrClass i) } }).pcNext.retire := by
  simp only [finishCounted, finish, finishWith, Except.map]

/-- What a completed word with a new CONVOY leaves. -/
theorem completed_convoy {s : State} {u : Thread} {v : Word} (hu : u.pc = s.thr.pc) (hr : u.retired = s.thr.retired)
    (hp : u.pfx = s.thr.pfx) : Completed s ({ s with thr := { u with convoy := v } } : State).pcNext.retire (s.thr.pc + 4) := by
  refine ⟨?_, ?_, ?_, ?_⟩
  · simp only [State.pcNext, State.retire, hu]
  · simp only [State.pcNext, State.retire, hr, hp]
  · simp only [State.pcNext, State.retire]
  · simp only [State.pcNext, State.retire]

theorem frame_convoy (s : State) (u : Thread) (v : Word) : ({ s with thr := { u with convoy := v } } : State).pcNext.retire =
    { s with
      thr := ({ u with convoy := v }).bookOf ({ s with thr := { u with convoy := v } } : State).pcNext.retire.thr
      free := ({ s with thr := { u with convoy := v } } : State).pcNext.retire.free } := by
  simp only [State.pcNext, State.retire, Thread.bookOf]

/-- What a counted word leaves of the device. -/
theorem vectorDone_of {s : State} {k : WordClass} {u : Thread} (hu : u.pc = s.thr.pc) (hr : u.retired = s.thr.retired)
    (hp : u.pfx = s.thr.pfx) (hc : u.convoy = s.thr.convoy) :
    VectorDone s ({ s with thr := { u with convoy := convoyStep u.convoy k } } : State).pcNext.retire k u := by
  rw [hc]
  exact ⟨completed_convoy hu hr hp, frame_convoy s u _⟩

/-! ## The element-wise rule -/

/-- Healing touches only the note of poisoned groups. -/
theorem Thread.healed_frame (t : Thread) (c : VCtx) (r : BitVec 5) (w : Nat) (f : Nat → Nat → Bool) :
    ∃ p, t.healed c r w f = { t with poisonV := p } := by
  unfold Thread.healed
  split
  · exact ⟨t.poisonV, rfl⟩
  · exact ⟨_, rfl⟩

theorem testBit_joinFlags (a b n : Nat) : (joinFlags a b).testBit n = (a.testBit n || b.testBit n) := Nat.testBit_or a b n

/-- A bit of flags joined along a list. -/
theorem testBit_foldFlags {α : Type} (l : List α) (p : α → Bool) (g : α → Nat) (n a : Nat) :
    (l.foldl (fun a x => if p x = true then joinFlags a (g x) else a) a).testBit n = true ↔
      a.testBit n = true ∨ ∃ x ∈ l, p x = true ∧ (g x).testBit n = true := by
  induction l generalizing a with
  | nil => simp
  | cons x l ih =>
    rw [List.foldl_cons, ih]
    by_cases h : p x = true
    · simp only [h, if_true, testBit_joinFlags, Bool.or_eq_true, List.mem_cons, exists_eq_or_imp, true_and, or_assoc]
    · simp [h]

/-- The flags of a word's active elements (R98). -/
def Thread.activeFlags (t : Thread) (c : VCtx) (n : Nat) (op : Nat → Nat → Flags) : Flags :=
  (List.range n).foldl (fun a i => (List.range c.cl).foldl (fun a j =>
    if t.guard c i j = true then joinFlags a (op i j) else a) a) 0

theorem Thread.testBit_activeFlags (t : Thread) (c : VCtx) (n : Nat) (op : Nat → Nat → Flags) (b : Nat) :
    (t.activeFlags c n op).testBit b = true ↔
      ∃ i < n, ∃ j < c.cl, t.guard c i j = true ∧ (op i j).testBit b = true := by
  have h : ∀ (l : List Nat) (a : Nat), (l.foldl (fun a i => (List.range c.cl).foldl (fun a j =>
      if t.guard c i j = true then joinFlags a (op i j) else a) a) a).testBit b = true ↔
      a.testBit b = true ∨ ∃ i ∈ l, ∃ j < c.cl, t.guard c i j = true ∧ (op i j).testBit b = true := by
    intro l
    induction l with
    | nil => simp
    | cons i l ih =>
      intro a
      rw [List.foldl_cons, ih, testBit_foldFlags]
      simp only [List.mem_range, List.mem_cons, exists_eq_or_imp, or_assoc]
  simpa [Thread.activeFlags] using h (List.range n) 0

/-- A word that writes register elements and gains flags: what the element-wise rule does to a thread. -/
theorem Thread.elementwise_eq (t : Thread) (c : VCtx) (d : BitVec 5) (w : Nat) (op : Nat → Nat → Nat × Flags) :
    ∃ p, t.elementwise c d w op =
      { t.writeRows c d w (fun i j old => if t.guard c i j = true then (op i j).1 else if (c.zero && t.inPass j) = true then 0 else old) with
        poisonV := p, fflags := t.fflags ||| BitVec.ofNat 5 (t.activeFlags c c.rows (fun i j => (op i j).2)) } := by
  unfold Thread.elementwise
  simp only
  obtain ⟨p, hp⟩ := Thread.healed_frame (t.writeRows c d w (fun i j old => if t.guard c i j = true then (op i j).1 else
    if (c.zero && t.inPass j) = true then 0 else old)) c d w (fun i j => t.guard c i j || (c.zero && t.inPass j))
  obtain ⟨v, hv⟩ := t.writeRows_frame c d w (fun i j old => if t.guard c i j = true then (op i j).1 else
    if (c.zero && t.inPass j) = true then 0 else old)
  refine ⟨p, ?_⟩
  rw [hp, hv]
  rfl

/-- The registers a ready word names fit its context. -/
theorem State.Ready.fits {s : State} {k : WordClass} {regs : List (BitVec 5)} {ts ws : List Nat} (h : s.Ready k regs ts ws)
    {r : BitVec 5} (hr : r ∈ regs) : s.thr.vctx.Fits r :=
  ⟨h.2.2.2.2.2.1 r hr, s.thr.vctx_factor, h.2.2.2.2.2.2.2.1.1⟩

/-- A ready word's columns fit a row at every width it uses. -/
theorem State.Ready.columns {s : State} {k : WordClass} {regs : List (BitVec 5)} {ts ws : List Nat} (h : s.Ready k regs ts ws)
    {w : Nat} (hw : w ∈ ws) : s.thr.vctx.cl * w ≤ 65536 := by
  have h1 := h.2.2.2.2.2.2.1 w hw
  have h2 := h.2.2.2.2.2.2.2.1.2.2
  calc s.thr.vctx.cl * w ≤ s.thr.cap w * w := Nat.mul_le_mul_right w h1
    _ ≤ s.thr.rowBits := Nat.div_mul_le_self _ _
    _ ≤ 65536 := h2

/-- Rows written, read from what a state's thread became. -/
theorem rowsWritten_of {s t : State} {c : VCtx} {d : BitVec 5} {w : Nat} {f : Nat → Nat → Nat → Nat} {g : Nat → Nat → Nat}
    (hv : t.thr.vrows = (s.thr.writeRows c d w f).vrows) (h : c.Fits d) (hc : c.cl * w ≤ 65536)
    (hg : ∀ i < c.rows, ∀ j < c.cl, f i j (s.thr.elem c d w i j) % 2 ^ w = g i j) : RowsWritten s t c d w g := by
  have hr : ∀ k, t.thr.row k = (s.thr.writeRows c d w f).row k := by
    intro k
    unfold Thread.row
    rw [hv]
  obtain ⟨h1, h2, h3⟩ := s.thr.writeRows_spec c d w f h hc
  refine ⟨fun i hi j hj => ?_, fun i hi => ?_, fun k hk => ?_⟩
  · rw [← hg i hi j hj, ← h1 i hi j hj]
    unfold Thread.elem
    rw [hr]
  · rw [hr, h2 i hi]
  · rw [hr, h3 k hk]

/-- Nothing to do at CL = 0 or RL = 0 is also what the rules say there. -/
theorem rowsWritten_none {s t : State} {c : VCtx} {d : BitVec 5} {w : Nat} {g : Nat → Nat → Nat} (hv : t.thr.vrows = s.thr.vrows)
    (h : c.cl = 0 ∨ c.rl = 0) : RowsWritten s t c d w g := by
  have hr : ∀ k, t.thr.row k = s.thr.row k := by
    intro k
    unfold Thread.row
    rw [hv]
  refine ⟨fun i hi j hj => ?_, fun i _ => by rw [hr], fun k _ => hr k⟩
  rcases h with h | h
  · omega
  · simp [VCtx.rows, h] at hi

/-- An element is below 2^w. -/
theorem Thread.elem_lt (t : Thread) (c : VCtx) (r : BitVec 5) (w i j : Nat) : t.elem c r w i j < 2 ^ w :=
  Nat.mod_lt _ (Nat.two_pow_pos w)

theorem finishCounted_thread {i : Instr} {s : State} {k : WordClass} {u : Thread} (hk : instrClass i = k) :
    finishCounted i s (.ok { s with thr := u }) =
      .next (({ s with thr := { u with convoy := convoyStep u.convoy k } } : State).pcNext.retire) := by
  rw [finishCounted_ok, hk]

theorem retired_fields {s t : State} {u : Thread} {v : Word}
    (ht : t = (({ s with thr := { u with convoy := v } } : State).pcNext.retire)) :
    t.thr.vrows = u.vrows ∧ t.thr.mrows = u.mrows ∧ t.thr.poisonV = u.poisonV ∧ t.thr.fflags = u.fflags ∧ t.thr.srctr = u.srctr ∧
      t.thr.len = u.len := by
  subst ht
  simp only [State.pcNext, State.retire, and_self]

/-- A counted word that turns the thread into `u` completes. -/
theorem counted_next {i : Instr} {s : State} {k : WordClass} {u : Thread} (hk : instrClass i = k) (hpc : u.pc = s.thr.pc)
    (hr : u.retired = s.thr.retired) (hp : u.pfx = s.thr.pfx) (hc : u.convoy = s.thr.convoy) :
    ∃ t, finishCounted i s (.ok { s with thr := u }) = .next t ∧ VectorDone s t k u ∧ t.thr.vrows = u.vrows ∧ t.thr.mrows = u.mrows ∧
      t.thr.poisonV = u.poisonV ∧ t.thr.fflags = u.fflags ∧ t.thr.srctr = u.srctr ∧ t.thr.len = u.len :=
  ⟨_, finishCounted_thread hk, vectorDone_of hpc hr hp hc, retired_fields rfl⟩

/-- The register word that does nothing at zero lengths, or turns the thread into `body`. -/
theorem Thread.elementwise_moves (t : Thread) (c : VCtx) (d : BitVec 5) (w : Nat) (op : Nat → Nat → Nat × Flags) (moves : Bool) (n : Nat) :
    ∃ v p r, ((t.elementwise c d w op).advance (if moves then c.rnd else 6) n) =
        { t with
          vrows := v, poisonV := p, srctr := r
          fflags := t.fflags ||| BitVec.ofNat 5 (t.activeFlags c c.rows (fun i j => (op i j).2)) } ∧
      r = t.srctr + (if moves = true ∧ c.rnd = 5 then BitVec.ofNat 64 n else 0) ∧
      v = (t.writeRows c d w (fun i j old => if t.guard c i j = true then (op i j).1 else
        if (c.zero && t.inPass j) = true then 0 else old)).vrows := by
  obtain ⟨p, hp⟩ := t.elementwise_eq c d w op
  obtain ⟨v, hv⟩ := t.writeRows_frame c d w (fun i j old => if t.guard c i j = true then (op i j).1 else
      if (c.zero && t.inPass j) = true then 0 else old)
  rw [hp, hv]
  unfold Thread.advance
  cases moves with
  | false => exact ⟨v, p, t.srctr, by simp, by simp, rfl⟩
  | true =>
    by_cases h5 : c.rnd = 5
    · exact ⟨v, p, t.srctr + BitVec.ofNat 64 n, by simp [h5], by simp [h5], rfl⟩
    · exact ⟨v, p, t.srctr, by simp [h5], by simp [h5], rfl⟩

/-- Everything a counted word that follows the element-wise rule can do: it completes, writes its results under the guard, and its
flags are those of active elements; it may then move SRCTR. -/
theorem elementwise_next {i : Instr} {s : State} {k : WordClass} {regs srcs : List (BitVec 5)} {ts ws : List Nat} {types : Nat → Bool}
    {widths : VCtx → List Nat} {d : BitVec 5} {w : Nat} {op : Nat → Nat → Nat × Flags} {moves : Bool} {body : VCtx → Thread → Thread}
    (hk : instrClass i = k)
    (ht : ∀ e ∈ ts, types e = true) (h1f : 0x1F ∉ ts) (hw : ∀ w ∈ widths s.thr.vctx, w ∈ ws) (hww : w ∈ ws) (hd : d ∈ regs)
    (he : exec i s = vword i s regs srcs types widths body)
    (hb : body s.thr.vctx s.thr = (s.thr.elementwise s.thr.vctx d w op).advance (if moves then s.thr.vctx.rnd else 6)
      (s.thr.vctx.rows * s.thr.vctx.cl)) :
    FloatElementwise i s k regs srcs ts ws d w moves op := by
  intro h hs
  rw [he, vword_next h hk ht h1f hw hs]
  by_cases hz : s.thr.vctx.cl = 0 ∨ s.thr.vctx.rl = 0
  · rw [if_pos hz]
    obtain ⟨t, h1, h2, h3, -, h5, h6, h7, -⟩ := counted_next (s := s) (u := s.thr) hk rfl rfl rfl rfl
    refine ⟨t, h1, ?_, rowsWritten_none h3 hz, ?_, ?_⟩
    · rw [h3, h5, h6, h7]
      exact h2
    · intro b _
      have : ¬ ∃ i < s.thr.vctx.rows, ∃ j < s.thr.vctx.cl, s.thr.guard s.thr.vctx i j = true ∧ ((op i j).2).testBit b = true := by
        rintro ⟨i, hi, j, hj, _⟩
        rcases hz with hz | hz
        · omega
        · simp [VCtx.rows, hz] at hi
      simp only [this, or_false, h6]
    · have : s.thr.vctx.rows * s.thr.vctx.cl = 0 := by
        rcases hz with hz | hz <;> simp [VCtx.rows, hz]
      rw [this, h7]
      split <;> simp
  · rw [if_neg hz, hb]
    obtain ⟨v, p, r, hA, hr, hv⟩ := s.thr.elementwise_moves s.thr.vctx d w op moves (s.thr.vctx.rows * s.thr.vctx.cl)
    obtain ⟨t, h1, h2, h3, -, h5, h6, h7, -⟩ := counted_next (s := s)
      (u := (s.thr.elementwise s.thr.vctx d w op).advance (if moves then s.thr.vctx.rnd else 6) (s.thr.vctx.rows * s.thr.vctx.cl)) hk
      (by rw [hA]) (by rw [hA]) (by rw [hA]) (by rw [hA])
    rw [hA] at h2 h3 h5 h6 h7
    refine ⟨t, h1, ?_, ?_, ?_, ?_⟩
    · rw [h3, h5, h6, h7]
      exact h2
    · refine rowsWritten_of (f := fun i j old => if s.thr.guard s.thr.vctx i j = true then (op i j).1 else
        if (s.thr.vctx.zero && s.thr.inPass j) = true then 0 else old) (by rw [h3, hv]) (h.fits hd) (h.columns hww) ?_
      intro i _ j _
      unfold State.underGuard
      split
      · rfl
      · simp only [Bool.and_eq_true]
        split
        · simp
        · exact Nat.mod_eq_of_lt (s.thr.elem_lt _ _ _ _ _)
    · intro b hb
      have : ((s.thr.fflags ||| BitVec.ofNat 5 (s.thr.activeFlags s.thr.vctx s.thr.vctx.rows (fun i j => (op i j).2))).getLsbD b = true)
          ↔ s.thr.fflags.getLsbD b = true ∨ (s.thr.activeFlags s.thr.vctx s.thr.vctx.rows (fun i j => (op i j).2)).testBit b = true := by
        rw [BitVec.getLsbD_or, Bool.or_eq_true, BitVec.getLsbD_ofNat]
        simp [hb]
      rw [Thread.testBit_activeFlags] at this
      rw [h6]
      exact this
    · rw [h7]
      exact hr

/-- The same for a word that raises no flag and does not round. -/
theorem elementwise_plain {i : Instr} {s : State} {k : WordClass} {regs srcs : List (BitVec 5)} {ts : List Nat} {types : Nat → Bool}
    {d : BitVec 5} {f g : Nat → Nat → Nat} {body : VCtx → Thread → Thread} (hk : instrClass i = k) (ht : ∀ e ∈ ts, types e = true)
    (h1f : 0x1F ∉ ts) (hd : d ∈ regs) (he : exec i s = vword i s regs srcs types oneWidth body)
    (hb : body s.thr.vctx s.thr = s.thr.elementwise s.thr.vctx d (typeWidth s.thr.vctx.et) (fun i j => (g i j, 0)))
    (hg : ∀ i j, g i j % 2 ^ typeWidth s.thr.vctx.et = f i j) : Elementwise i s k regs srcs ts d f := by
  intro h hs
  have := elementwise_next (moves := false) (w := typeWidth s.thr.vctx.et) (op := fun i j => (g i j, 0)) hk ht h1f
    (ws := [typeWidth s.thr.vctx.et]) (by simp [oneWidth]) (by simp) hd he
    (by rw [hb]; simp [Thread.advance]) h hs
  obtain ⟨t, h1, h2, h3, h4, h5⟩ := this
  refine ⟨t, h1, ?_, ?_⟩
  · have e1 : t.thr.fflags = s.thr.fflags := by
      apply BitVec.eq_of_getLsbD_eq
      intro b hb
      have := h4 b hb
      simp only [Nat.zero_testBit, Bool.false_eq_true, and_false, exists_false, or_false] at this
      exact Bool.eq_iff_iff.mpr this
    have e2 : t.thr.srctr = s.thr.srctr := by simpa using h5
    rw [e1, e2] at h2
    exact h2
  · have : (fun i j => (g i j, (0 : Flags)).1 % 2 ^ typeWidth s.thr.vctx.et) = f := by
      funext i j
      exact hg i j
    rw [this] at h3
    exact h3

/-! ## Masks -/

theorem Thread.maskRow_lt (t : Thread) (m i : Nat) : t.maskRow m i < 2 ^ 16384 := by
  unfold Thread.maskRow
  split
  · exact (t.mrows[m * 8 + i]).isLt
  · exact Nat.two_pow_pos _

/-- A bit of a mask other than m0, read from its row. -/
theorem Thread.maskBit_eq (t : Thread) {m : Nat} (hm : m ≠ 0) (i j : Nat) : t.maskBit m i j = (t.maskRow m i).testBit j := by
  unfold Thread.maskBit Thread.maskRow
  rw [if_neg hm]
  split
  · exact BitVec.testBit_toNat _
  · simp

/-- A mask row after a row of another index, or of this one, is set. -/
theorem maskRow_set (t : Thread) (k v m i : Nat) (hk : k < 128) (hv : v < 2 ^ 16384) (hi : m * 8 + i < 128) :
    ({ t with mrows := t.mrows.set k (BitVec.ofNat 16384 v) } : Thread).maskRow m i = if m * 8 + i = k then v else t.maskRow m i := by
  unfold Thread.maskRow
  rw [dif_pos hi, dif_pos hi]
  by_cases h : m * 8 + i = k
  · subst h
    rw [if_pos rfl]
    simp only [Vector.getElem_set_self, BitVec.toNat_ofNat]
    exact Nat.mod_eq_of_lt hv
  · rw [if_neg h]
    simp only [Vector.getElem_set_ne hk hi (Ne.symm h)]

/-- The row a mask write builds. -/
def Thread.maskBuilt (t : Thread) (c : VCtx) (m : BitVec 4) (f : Nat → Nat → Bool → Bool) (i : Nat) : Nat :=
  buildRow 1 c.cl (t.maskRow m.toNat i) (fun j => if f i j (decide (t.maskRow m.toNat i / 2 ^ j % 2 = 1)) = true then 1 else 0)

theorem Thread.maskBuilt_lt (t : Thread) (c : VCtx) (m : BitVec 4) (f : Nat → Nat → Bool → Bool) (i : Nat) (hc : c.cl ≤ 16384) :
    t.maskBuilt c m f i < 2 ^ 16384 :=
  buildRow_lt 1 c.cl _ 16384 _ (by simpa using hc) (t.maskRow_lt m.toNat i)

theorem Thread.maskBuilt_bit (t : Thread) (c : VCtx) (m : BitVec 4) (f : Nat → Nat → Bool → Bool) (i j : Nat) :
    (t.maskBuilt c m f i).testBit j =
      if j < c.cl then f i j ((t.maskRow m.toNat i).testBit j) else (t.maskRow m.toNat i).testBit j := by
  have ho : decide (t.maskRow m.toNat i / 2 ^ j % 2 = 1) = (t.maskRow m.toNat i).testBit j := by
    rw [Nat.testBit_eq_decide_div_mod_eq]
  by_cases hj : j < c.cl
  · rw [if_pos hj, Nat.testBit_eq_decide_div_mod_eq]
    have := buildRow_elem 1 c.cl (t.maskRow m.toNat i)
      (fun j => if f i j (decide (t.maskRow m.toNat i / 2 ^ j % 2 = 1)) = true then 1 else 0) j hj
    simp only [elemAt, Nat.mul_one, Nat.pow_one] at this
    unfold Thread.maskBuilt
    rw [this, ho]
    split <;> simp_all
  · rw [if_neg hj]
    have := buildRow_tail 1 c.cl (t.maskRow m.toNat i)
      (fun j => if f i j (decide (t.maskRow m.toNat i / 2 ^ j % 2 = 1)) = true then 1 else 0)
    simp only [Nat.mul_one] at this
    obtain ⟨q, rfl⟩ : ∃ q, j = q + c.cl := ⟨j - c.cl, by omega⟩
    rw [← Nat.testBit_div_two_pow, ← Nat.testBit_div_two_pow]
    unfold Thread.maskBuilt
    rw [this]

/-- Writing the first `n` rows of a mask. -/
def Thread.maskFirst (t : Thread) (c : VCtx) (m : BitVec 4) (f : Nat → Nat → Bool → Bool) (n : Nat) : Thread :=
  (List.range n).foldl (fun u i =>
    if _h : m.toNat * 8 + i < 128 then
      { u with mrows := u.mrows.set (m.toNat * 8 + i) (BitVec.ofNat 16384 (t.maskBuilt c m f i)) }
    else u) t

theorem Thread.writeMask_eq (t : Thread) (c : VCtx) (m : BitVec 4) (f : Nat → Nat → Bool → Bool) :
    t.writeMask c m f = t.maskFirst c m f c.rl := rfl

theorem Thread.maskFirst_spec (t : Thread) (c : VCtx) (m : BitVec 4) (f : Nat → Nat → Bool → Bool) (hc : c.cl ≤ 16384) (n : Nat)
    (hn : n ≤ 8) :
    (∃ v, t.maskFirst c m f n = { t with mrows := v }) ∧
    ∀ k < 16, ∀ i < 8, (t.maskFirst c m f n).maskRow k i = if k = m.toNat ∧ i < n then t.maskBuilt c m f i else t.maskRow k i := by
  induction n with
  | zero => exact ⟨⟨t.mrows, rfl⟩, fun k _ i _ => by simp [Thread.maskFirst]⟩
  | succ n ih =>
    obtain ⟨⟨v, hv⟩, ih⟩ := ih (by omega)
    have hm := m.isLt
    have hk : m.toNat * 8 + n < 128 := by omega
    have e : t.maskFirst c m f (n + 1) =
        { t.maskFirst c m f n with
          mrows := Vector.set (t.maskFirst c m f n).mrows (m.toNat * 8 + n) (BitVec.ofNat 16384 (t.maskBuilt c m f n)) } := by
      conv_lhs => unfold Thread.maskFirst
      rw [List.range_succ, List.foldl_append]
      simp only [List.foldl_cons, List.foldl_nil, hk, dif_pos]
      rfl
    refine ⟨⟨_, by rw [e, hv]⟩, fun k hk16 i hi => ?_⟩
    rw [e, maskRow_set _ _ _ _ _ hk (t.maskBuilt_lt c m f n hc) (by omega), ih k hk16 i hi]
    by_cases h1 : k * 8 + i = m.toNat * 8 + n
    · have : k = m.toNat ∧ i = n := by omega
      obtain ⟨rfl, rfl⟩ := this
      simp
    · rw [if_neg h1]
      by_cases h2 : k = m.toNat ∧ i < n
      · rw [if_pos h2, if_pos ⟨h2.1, by omega⟩]
      · rw [if_neg h2, if_neg]
        rintro ⟨rfl, h3⟩
        apply h2
        refine ⟨rfl, ?_⟩
        omega

/-- Everything a mask write does: the bits of `m` within the lengths, no other bit, and nothing else of the thread. -/
theorem Thread.writeMask_spec (t : Thread) (c : VCtx) (m : BitVec 4) (f : Nat → Nat → Bool → Bool) (hc : c.cl ≤ 16384)
    (hr : c.rl ≤ 8) :
    (∃ v, t.writeMask c m f = { t with mrows := v }) ∧
    ∀ k < 16, ∀ i < 8, ∀ j, (t.writeMask c m f).maskBit k i j =
      if k = m.toNat ∧ m ≠ 0 ∧ i < c.rl ∧ j < c.cl then f i j (t.maskBit m.toNat i j) else t.maskBit k i j := by
  rw [Thread.writeMask_eq]
  obtain ⟨h1, h2⟩ := t.maskFirst_spec c m f hc c.rl hr
  refine ⟨h1, fun k hk i hi j => ?_⟩
  by_cases hk0 : k = 0
  · subst hk0
    rw [if_neg]
    · simp [Thread.maskBit]
    · rintro ⟨h, h', -⟩
      exact h' (BitVec.eq_of_toNat_eq h.symm)
  · rw [Thread.maskBit_eq _ hk0, h2 k hk i hi]
    by_cases hm : k = m.toNat ∧ i < c.rl
    · rw [if_pos hm, Thread.maskBuilt_bit]
      obtain ⟨rfl, hi'⟩ := hm
      have hm0 : m ≠ 0 := fun h => hk0 (by rw [h]; rfl)
      by_cases hj : j < c.cl
      · rw [if_pos hj, if_pos ⟨rfl, hm0, hi', hj⟩, Thread.maskBit_eq _ hk0]
      · rw [if_neg hj, if_neg (fun h => hj h.2.2.2), Thread.maskBit_eq _ hk0]
    · rw [if_neg hm, if_neg (fun h => hm ⟨h.1, h.2.2.1⟩), Thread.maskBit_eq _ hk0]

end Sys2Proof.Machine
end

