-- ==== Sys2Proof/Tests/Slice0.lean ====
section
/-! SUPPORT. Tests: decoding word by word, ill-formed terms, witnesses for the hypotheses of the statements, single steps against the
spec's own examples. -/

set_option Elab.async false
set_option maxRecDepth 4000

namespace Sys2Proof.Tests

open Sys2Proof Sys2Proof.Machine

/-! ## Witnesses: the hypotheses of each statement are met together -/

/-- A gang of one thread and 16 tiles, the bytes 1 to 8 at their start. -/
def demoGang : Gang :=
  { gid := 1, launch := 1, gindex := 0, coord := (0, 0, 0), stage := 0, asid := 0, hearth := 0, threads := 1, lanes := 32, tiles := 16
    reserve := 0, phase := .resident, since := 0, tileMem := [(0, 1), (1, 2), (2, 3), (3, 4), (4, 5), (5, 6), (6, 7), (7, 8)]
    tilePoison := [], owners := [], buffers := [], barGen := 0, arrived := [], barSivs := [], barKnown := [], treeSlots := [], area := none, tareas := [], restored := true
    saving := false, migrate := none, fault := none }

/-- Its thread: supervisor, the scratchpad window open at 0x40000000, of type `et`, CL 2 and RL 1, s1 the window's base, s2 4, s3 8. -/
def demoThread (et : Nat) : Thread :=
  { Thread.blank with
    tid := 1, gang := 1, phase := .running, pc := 0x1000, twin := 0x40000001, grant := 32, tvec := 0x4000
    sregs := ((Thread.blank.sregs.set 1 0x40000000).set 2 4).set 3 8
    status := { vlive := true, inh := false, pae := false, ae := true, ppriv := false, priv := true }
    mode := BitVec.ofNat 64 (et * 65536), len := BitVec.ofNat 64 (2 + 2 ^ 32) }

/-- The device with them, no convoy open. -/
def demo (et : Nat) : State := { State.reset with thr := demoThread et, gangs := [demoGang], nextId := 5 }

/-- In an open convoy of eight words. -/
def inConvoy (et : Nat) : State :=
  { demo et with thr := { demoThread et with convoy := BitVec.ofNat 64 ((0xF8000000 + 7 * 64) * 2 ^ 32 + 1), inSpan := true } }

/-- With register `r` holding `v`. -/
def holding (s : State) (r : BitVec 6) (v : Word) : State := { s with thr := { s.thr with sregs := s.thr.sregs.set r.toFin v } }

/-- With event argument `a`. -/
def arrived (s : State) (a : EventArg) : State := { s with arg := a }

/-- With ASID 0 mapping 1 GiB from address 0 to frame 0xC0000000, uncached, and the words `ws` at PC. -/
def placed (s : State) (ws : List Nat) : State :=
  let u := s.withFetchWord 32 0
  let m := Memory.writeN u.mem 0x80004000 (leBytes 8 (0xC0000000 + 0x1FB))
  { s with mem := Memory.writeN m 0xC0001000 ((ws.map (leBytes 4)).flatten) }

/-- The leaf of that mapping. -/
def demoLeaf : Leaf := ⟨0, 0x40000000, 2, 0xC00001FB, 0⟩

theorem witness_ScalarRegisterResults : (demo 1).Clean [1, 2] := by decide
theorem witness_ScalarImmediateResults : (demo 1).Clean [1] := by decide
theorem witness_PoisonedScalarOperandFaults :
    (∀ p ∈ scalarReaders 3 1 2 5 7, ¬ ({ demo 1 with thr := { demoThread 1 with poisonS := [1] } } : State).Clean p.2) := by decide
theorem witness_BranchesAndJumps : (demo 1).Serial ∧ (demo 1).Clean [1, 2] := by decide
theorem witness_NoSerialWordInsideAConvoyOrBlock :
    (Instr.beq 1 2 3).isEvent = false ∧ instrClass (.beq 1 2 3) = .X ∧ (inConvoy 1).thr.vrun.pass = false ∧ (inConvoy 1).thr.inSpan = true ∧
    (inConvoy 1).thr.convoy.getLsbD 0 = true ∧ (inConvoy 1).thr.status.priv = true ∧
    ({ VRun.idle with pass := true } : VRun).pass = true ∧ NoEarlierTrap (.wrc 2 0x00A) (inConvoy 1) ∧
    NoEarlierTrap .vjoin { inConvoy 1 with thr := { (inConvoy 1).thr with vrun := { VRun.idle with run := true, vps := [(0, 0)] } } } := by
  refine ⟨by decide, by decide, by decide, by decide, by decide, by decide, by decide, ⟨by decide, by decide⟩, rfl, rfl, rfl, by decide⟩
theorem witness_ScalarFloatRounding : (demo 1).Clean [1, 2, 3] := by decide
theorem witness_ScalarFloatMinMaxCompare :
    (demo 1).Clean [1, 2] ∧ (fp32.val 0x7FC00000).isNan = true ∧ (fp32.val 0x3F800000).isNan = false ∧ (fp64.val 0).isNan = false ∧
    (fp64.val 0x7FF8000000000000).isNan = true := by decide
theorem witness_RoundingPicksTheNeighbour :
    fp16 ∈ [fp64, fp32, fp16, bf16, f8e4, f8e5, f4] ∧ FinitePat fp16 0x3C01 ∧
    ∀ mode ≤ 4, Nat.land (fp16.round ⟨mode, 0, false⟩ true 4099 (-12) false).2 flagOF = 0 := by
  refine ⟨by decide, ⟨by decide, by decide⟩, by decide⟩

/-- The window's first bytes, for a use of `n` bytes through s1. -/
theorem demo_window (et n : Nat) (h : n ∈ [1, 2, 4, 8, 64]) : WindowAt (demo et) 0x40000000 n demoGang 0 := by
  refine ⟨rfl, ?_, ?_, ?_, ?_, by simp [demoGang]⟩
  · show (0x40000001 : Word).getLsbD 0 = true; decide
  · show (0x40000000 : Word).toNat = (0x40000001 : Word).toNat / 2 ^ 21 * 2 ^ 21 + 0; decide
  · simp only [List.mem_cons, List.not_mem_nil, or_false] at h; rcases h with rfl | rfl | rfl | rfl | rfl <;> decide
  · simp only [List.mem_cons, List.not_mem_nil, or_false] at h; rcases h with rfl | rfl | rfl | rfl | rfl <;> decide

theorem demo_s1 (et : Nat) : (demo et).rs 1 = 0x40000000 := rfl

/-- Walkers that keep nothing have nothing that the tables do not say. -/
theorem no_tables {s : State} (h : s.tables = []) (asid va : Nat) : s.TablesCurrent asid va := fun e he => by rw [h] at he; cases he

/-- Four bytes of the uncached page at 0x1000, for a use `u` of load, store or fetch. -/
theorem placed_uncached (u : Use) (h : u = .load ∨ u = .store ∨ u = .fetch) :
    UncachedAt (placed (demo 1) [0x04304200]) u 0x1000 4 demoLeaf 0xC0001000 := by
  rcases h with rfl | rfl | rfl <;>
    exact ⟨by decide, by decide, by decide, ⟨by decide, by decide, no_tables rfl _ _⟩, by decide, by decide, by decide, by decide, by decide,
      by decide, by decide, by decide, by decide, by decide, by decide⟩

theorem witness_ScalarLoadsReadTheirBytes :
    (demo 1).Clean [1] ∧ (demo 1).rs 1 + (0#14).signExtend 64 = 0x40000000 ∧
    (∀ w ∈ scalarLoads 5 1 0, WindowAt (demo 1) 0x40000000 w.2 demoGang 0 ∧ ∀ k < w.2, 0 + k ∉ demoGang.tilePoison) ∧
    UncachedAt (placed (demo 1) [0x04304200]) .load 0x1000 4 demoLeaf 0xC0001000 := by
  refine ⟨by decide, by decide, ?_, placed_uncached .load (.inl rfl)⟩
  intro w h
  refine ⟨demo_window 1 w.2 ?_, by simp [demoGang]⟩
  simp only [scalarLoads, List.mem_cons, List.not_mem_nil, or_false] at h
  rcases h with rfl | rfl | rfl | rfl | rfl | rfl | rfl <;> decide
theorem witness_ScalarStoresWriteTheirBytes :
    (demo 1).MemoryForm ∧ (demo 1).Clean [1, 5] ∧ (∀ w ∈ scalarStores 5 1 0, WindowAt (demo 1) 0x40000000 w.2 demoGang 0) ∧
    (placed (demo 1) [0x04304200]).MemoryForm ∧ UncachedAt (placed (demo 1) [0x04304200]) .store 0x1000 4 demoLeaf 0xC0001000 := by
  refine ⟨⟨by decide, by decide, by decide⟩, by decide, ?_, ⟨by decide, by decide, by decide⟩, placed_uncached .store (.inr (.inl rfl))⟩
  intro w h
  refine demo_window 1 w.2 ?_
  simp only [scalarStores, List.mem_cons, List.not_mem_nil, or_false] at h
  rcases h with rfl | rfl | rfl | rfl <;> decide
theorem witness_ScalarAccessesCompleteOrTrap :
    (demo 1).Clean [1, 5] ∧ (∃ bs u, (demo 1).load [1] (Acc.row .load 4) ((demo 1).rs 1) = .ok (bs, u)) ∧
    (∃ u, (demo 1).store [1, 5] (Acc.row .store 4) ((demo 1).rs 1) [1, 2, 3, 4] = .ok u) ∧
    ((demo 1).rs 1 + 1).toNat % 2 ≠ 0 ∧ (holding (demo 1) 1 (2 ^ 60)).windowOff (2 ^ 60) = none := by
  refine ⟨by decide, ⟨_, _, rfl⟩, ⟨_, rfl⟩, by decide, by decide⟩
theorem witness_RdcReadsWhatTheLevelMayRead :
    (0x051#12).toNat ∈ [0x051, 0x100] ∧ (demo 1).thr.status.priv = true ∧ (0xFFF#12).toNat ∉ [0x000, 0x001] := by decide
theorem witness_WrcWritesOneRegister :
    (demo 1).Serial ∧ (demo 1).Clean [2] ∧ cregLegal 0x00A 4 = true ∧ cregLegal 0x00A 6 = false ∧ (demo 1).thr.status.priv = true ∧
    ¬ ((0x00A : BitVec 12).toNat = 0x012 ∧ 1 < (demo 1).thr.nseg ∧ (demo 1).ready17 = true) ∧ (0x00A#12).toNat ∈ userRegs ∧
    (0x012#12).toNat ∈ superRegs ∧ (0x051#12).toNat ∈ secretRegs ∧ State.reset.thr.status.priv = false ∧ State.reset.Serial ∧
    (0xFFF#12).toNat ∉ userRegs ++ secretRegs ++ superRegs := by decide
theorem witness_TrapsAreTaken :
    (demo 1).thr.status.inh = false ∧ (demo 1).thr.tvec ≠ 0 ∧ State.reset.thr.status.inh = false ∧ State.reset.thr.tvec = 0 := by decide
theorem witness_PrivilegedWords :
    (demo 1).Serial ∧ (demo 1).thr.status.priv = true ∧ State.reset.thr.status.priv = false ∧ State.reset.thr.vrun.pass = false := by decide
theorem witness_HaltEndsTheThread :
    (demo 1).Serial ∧ (demo 1).lastLive = true ∧ (demo 1).gangOps 1 = [] ∧
    ({ demo 1 with ops := [(demo 1).newOp (.refit 0 0 0)] } : State).gangOps 1 ≠ [] := by
  exact ⟨by decide, by decide, by decide, by decide⟩
theorem witness_ThreadControlWords :
    (demo 1).Serial ∧ (demo 1).Clean [1, 2] ∧ ¬ (1 < (demo 1).thr.nseg ∧ (demo 1).ready17 = true) ∧ (demo 1).thr.pfx = none ∧
    WindowAt (demo 1) ((demo 1).rs 1) 8 demoGang 0 ∧ (∀ k < 8, 0 + k ∉ demoGang.tilePoison) :=
  ⟨by decide, by decide, by decide, rfl, demo_window 1 8 (by decide), by simp [demoGang]⟩
theorem witness_LaneClaims :
    (demo 1).Serial ∧ (demo 1).Clean [2] ∧ ((demo 1).rs 2).toNat < 2 ^ 12 ∧ 2 ^ 12 ≤ ((demo 1).rs 1).toNat := by decide
theorem witness_SetlSetsTheLengths :
    (demo 1).Serial ∧ (demo 1).Clean [2, 3] ∧ ¬ (1 < (demo 1).thr.nseg ∧ (demo 1).ready17 = true) ∧
    (let s : State := { demo 1 with thr := { demoThread 1 with attached := 3, pend17 := some 1 } }
     1 < s.thr.nseg ∧ s.ready17 = true) ∧
    (let s : State := { demo 1 with
       thr := { demoThread 1 with grant := 128, attached := 3 }
       others := [{ demoThread 1 with tid := 2, hearth := 32, attached := 2, grant := 16, demand := 64 }, { demoThread 1 with tid := 3, hearth := 32, attached := 2 }] }
     lanePower (128 / max 1 (s.threads.filter (fun t => s.liveOn t 32)).length) = 32 ∧ s.thr.attached.getLsbD 1 = true ∧ s.partner 1 = 32 ∧
       32 < s.thr.grant ∧ s.others.any (fun t => s.unended t && decide (t.hearth = 32) && decide (t.grant < t.demand)) = true ∧
       s.renegotiate.thr.attached = 1 ∧ s.renegotiate.thr.grant = 128) := by decide
theorem witness_PfxChangesOneWord :
    (placed (inConvoy 1) [0, 0x9C410002]).fetchPeek ((placed (inConvoy 1) [0, 0x9C410002]).thr.pc + 4) = .ok 0x9C410002 ∧
    (wordClass 0x9C410002).counted = true ∧ (inConvoy 1).thr.convoy.getLsbD 0 = true ∧ (accepts 0x9C410002).t = true ∧
    (inConvoy 1).thr.pfx = none := by
  refine ⟨by rfl, by decide, by decide, by decide, rfl⟩
/-- The words after GRP at 0x1004: a counted word, a class S word, an X word. -/
def grpAt : State := placed (demo 1) [0xF8C10000, 0x9C410002, 0x04304200, 0x9020C001]

theorem grpAt_peek :
    grpAt.fetchPeek 0x1004 = .ok 0x9C410002 ∧ grpAt.fetchPeek 0x1008 = .ok 0x04304200 ∧ grpAt.fetchPeek 0x100C = .ok 0x9020C001 :=
  ⟨rfl, rfl, rfl⟩

theorem grpAt_words :
    ∀ k, ∀ h : k < ([0x9C410002] ++ [0x04304200] ++ [0x9020C001] : List (BitVec 32)).length,
      grpAt.fetchPeek (grpAt.thr.pc + 4 + BitVec.ofNat 64 (4 * k)) =
      .ok ([0x9C410002] ++ [0x04304200] ++ [0x9020C001] : List (BitVec 32))[k] := by
  intro k h
  have hk : k < 3 := h
  have e : grpAt.thr.pc = 0x1000 := rfl
  rw [e]
  have : k = 0 ∨ k = 1 ∨ k = 2 := by omega
  rcases this with rfl | rfl | rfl
  · exact grpAt_peek.1
  · exact grpAt_peek.2.1
  · exact grpAt_peek.2.2
theorem class_1 : wordClass 0x9C410002 = .Sp := by decide +kernel
theorem class_2 : wordClass 0x04304200 = .S := by decide +kernel
theorem class_3 : wordClass 0x9020C001 = .X := by decide +kernel
theorem grpAt_good : GoodSpan grpAt 1 [0x9C410002] [0x04304200] 0x9020C001 := by
  refine ⟨by decide, grpAt_words, ?_, ⟨0x9C410002, rfl, ?_⟩, ?_, ?_, ?_, ?_, ?_, ?_, ?_⟩
  · simp [class_1, WordClass.counted]
  · simp [class_1, WordClass.counted]
  · simp [class_1]
  · intro k h; simp at h
  · intro k; cases k <;> simp [class_1, WordClass.counted, WordClass.quota]
  · simp [class_2]
  · simp [class_3]
  · simp [class_3, WordClass.counted]
  · simp [class_3]

theorem witness_GrpOpensTheConvoy :
    ¬ ((demo 1).thr.inSpan = true ∧ (demo 1).thr.convoy.getLsbD 0 = true) ∧ GoodSpan grpAt 1 [0x9C410002] [0x04304200] 0x9020C001 ∧
    WordClass.Ar.counted = true ∧ (1#64).extractLsb' 20 4 ≠ 15 ∧ convoyCount 1 .Ar < WordClass.Ar.quota ∧
    ((inConvoy 1).thr.inSpan = true ∧ (inConvoy 1).thr.convoy.getLsbD 0 = true) :=
  ⟨by decide, grpAt_good, rfl, by decide, by decide, by decide⟩
/-! ## Vector words -/

/-- `State.Ready`, evaluated. -/
def readyB (s : State) (k : WordClass) (regs : List (BitVec 5)) (types widths : List Nat) : Bool :=
  decide (s.thr.convoy.getLsbD 0 = true ∧ (s.thr.inSpan = true → convoyCount s.thr.convoy k < k.quota) ∧
    (s.thr.vrun.pass = true → k ≠ .Sl ∧ k ≠ .Mx ∧ k ≠ .Tf) ∧ s.thr.status.vlive = true ∧ s.thr.vctx.et ∈ types ∧
    (∀ r ∈ regs, r.toNat % s.thr.vctx.f = 0) ∧ (∀ w ∈ widths, s.thr.vctx.cl ≤ s.thr.cap w) ∧
    s.thr.rl ≤ 8 ∧ s.thr.cl ≤ 16384 ∧ s.thr.rowBits ≤ 65536 ∧ s.thr.poisonV = [])

theorem ready {s : State} {k : WordClass} {regs : List (BitVec 5)} {types widths : List Nat}
    (h : readyB s k regs types widths = true) : s.Ready k regs types widths := by
  obtain ⟨a1, a2, a3, a4, a5, a6, a7, b1, b2, b3, c⟩ := of_decide_eq_true h
  exact ⟨a1, a2, a3, a4, a5, a6, a7, ⟨b1, b2, b3⟩, .inr (fun p hp => absurd (c ▸ hp) List.not_mem_nil)⟩

theorem cleanRows (et : Nat) (rs : List (BitVec 5)) (w : Nat) : (inConvoy et).CleanRows rs w := by
  intro p h; exact absurd h List.not_mem_nil

/-- In a convoy under type `et`, CL 2, RL 1: the elements (0, 0) and (0, 1) are active. -/
theorem active_iff (i j : Nat) (h : Active (inConvoy 1) i j) : i = 0 ∧ (j = 0 ∨ j = 1) := by
  obtain ⟨h1, h2, -⟩ := h
  have h1 : i < 1 := h1
  have h2 : j < 2 := h2
  omega

theorem witness_VectorIntegerResults :
    (inConvoy 9).Ready .Ar [2, 3, 5] intTypes [32] ∧ (inConvoy 6).Ready .Ar [2, 3] anyTypes [4] ∧ (inConvoy 9).CleanRows [3, 5] 32 ∧
    typeWidth (inConvoy 9).thr.vctx.et = 32 ∧ typeWidth (inConvoy 6).thr.vctx.et = 4 :=
  ⟨ready (by decide), ready (by decide), cleanRows _ _ _, by decide, by decide⟩
theorem witness_VectorFloatRounding :
    (inConvoy 1).Ready .Ar [2, 3, 5, 7] fp6Types [32] ∧ (inConvoy 0).Ready .Sp [2, 3, 5] fp4Types [64] ∧ (inConvoy 1).CleanRows [3, 5, 7] 32 :=
  ⟨ready (by decide), ready (by decide), cleanRows _ _ _⟩
theorem witness_VectorFloatExact :
    (inConvoy 5).Ready .Ar [2, 3, 5] fp6Types [8] ∧ (inConvoy 3).Ready .Sp [2, 3] fp4Types [16] ∧ (inConvoy 5).CleanRows [3, 5] 8 :=
  ⟨ready (by decide), ready (by decide), cleanRows _ _ _⟩
theorem witness_VectorConversions :
    (4#5).toNat ∈ anyTypes ∧ (4#5) ≠ 7 ∧ (inConvoy 1).Ready .Ar [2, 3] anyTypes [32, 8] ∧ (inConvoy 7).Ready .Ar [2, 3] anyTypes [4, 8] ∧
    (inConvoy 1).CleanRows [3] 32 :=
  ⟨by decide, by decide, ready (by decide), ready (by decide), cleanRows _ _ _⟩
theorem witness_ComparesAndMaskWords :
    (inConvoy 9).thr.vctx.f = 1 ∧ (inConvoy 9).Ready .Ar [3, 5] intTypes [32] ∧ (inConvoy 1).Ready .Ar [3, 5] fp6Types [32] ∧
    (inConvoy 1).CleanRows [3, 5] 32 ∧ (inConvoy 1).Ready .Mk [] anyTypes [] :=
  ⟨by decide, ready (by decide), ready (by decide), cleanRows _ _ _, ready (by decide)⟩
theorem witness_ReductionsAndScans :
    (inConvoy 9).thr.poisonV = [] ∧ (inConvoy 9).Ready .Sl [2, 3, 5] (intTypes ++ fp6Types) [32] ∧
    (inConvoy 9).Ready .Sl [2, 3, 5] intTypes [32] ∧ (inConvoy 1).Ready .Sl [2, 3, 5] fp6Types [32] :=
  ⟨rfl, ready (by decide), ready (by decide), ready (by decide)⟩
theorem witness_DataMovement :
    (inConvoy 9).thr.poisonV = [] ∧ (inConvoy 9).Clean [2] ∧ (inConvoy 9).Ready .Sl [2, 3, 5] anyTypes [32] ∧
    (inConvoy 9).Ready .Ar [2] intTypes [32] ∧ (inConvoy 1).Ready .Ar [2] fp6Types [32] ∧ (inConvoy 6).Ready .Ar [2, 3, 5] anyTypes [4] :=
  ⟨rfl, by decide, ready (by decide), ready (by decide), ready (by decide), ready (by decide)⟩

/-- Elements of four bytes each, one after the other from the window's start. -/
theorem demo_elems (ea : Nat → Nat → Word) (off : Nat → Nat → Nat) (n : Nat)
    (h0 : WindowAt (inConvoy 1) (ea 0 0) n demoGang (off 0 0)) (h1 : WindowAt (inConvoy 1) (ea 0 1) n demoGang (off 0 1)) :
    WindowElems (inConvoy 1) demoGang ea n off := by
  refine ⟨h0.1, fun i j h => ?_⟩
  obtain ⟨rfl, rfl | rfl⟩ := active_iff i j h
  · exact ⟨h0, by simp [demoGang]⟩
  · exact ⟨h1, by simp [demoGang]⟩

theorem demo_words (k : Nat) (h : k ∈ [0, 4, 8]) : WindowAt (inConvoy 1) (BitVec.ofNat 64 (0x40000000 + k)) 4 demoGang k := by
  refine ⟨rfl, rfl, ?_, ?_, ?_, by simp [demoGang]⟩ <;>
    (simp only [List.mem_cons, List.not_mem_nil, or_false] at h; rcases h with rfl | rfl | rfl <;> decide)

theorem demo_rows : WindowElems (inConvoy 1) demoGang (rowAddress (inConvoy 1) 1 2) 4 (fun _ j => 4 * j) :=
  demo_elems _ _ 4 (demo_words 0 (by decide)) (demo_words 4 (by decide))
theorem demo_strides : WindowElems (inConvoy 1) demoGang (strideAddress (inConvoy 1) 1 3) 4 (fun _ j => 8 * j) :=
  demo_elems _ _ 4 (demo_words 0 (by decide)) (demo_words 8 (by decide))

theorem witness_VectorLoadsInTheWindow :
    Whole (inConvoy 1) ∧ (inConvoy 1).Clean [1, 2] ∧ (inConvoy 1).Ready .Ld [2] anyTypes [32] ∧
    (inConvoy 1).Ready .Ld [2] (anyTypes.filter (fun t => decide (typeWidth t ≠ 4))) [32] ∧
    WindowElems (inConvoy 1) demoGang (rowAddress (inConvoy 1) 1 2) 4 (fun _ j => 4 * j) ∧
    WindowElems (inConvoy 1) demoGang (strideAddress (inConvoy 1) 1 3) 4 (fun _ j => 8 * j) :=
  ⟨⟨by decide, rfl⟩, by decide, ready (by decide), ready (by decide), demo_rows, demo_strides⟩

theorem demo_nibbles : WindowElems (inConvoy 6) demoGang (rowAddress (inConvoy 6) 1 2) 1 (fun _ _ => 0) := by
  refine ⟨rfl, fun i j h => ?_⟩
  obtain ⟨h1, h2, -⟩ := h
  have h1 : i < 1 := h1
  have h2 : j < 2 := h2
  have hj : j = 0 ∨ j = 1 := by omega
  obtain rfl : i = 0 := by omega
  refine ⟨⟨rfl, rfl, ?_, show 0 + 1 ≤ 65536 by decide, Nat.mod_one _, by simp [demoGang]⟩, by simp [demoGang]⟩
  rcases hj with rfl | rfl <;> decide

theorem witness_VectorStoresInTheWindow :
    (inConvoy 1).MemoryForm ∧ Whole (inConvoy 1) ∧ (inConvoy 1).Clean [1, 2] ∧ (inConvoy 1).CleanRows [2] 32 ∧
    (inConvoy 1).Ready .St [2] (anyTypes.filter (fun t => decide (typeWidth t ≠ 4))) [32] ∧
    WindowElems (inConvoy 1) demoGang (rowAddress (inConvoy 1) 1 2) 4 (fun _ j => 4 * j) ∧
    WindowElems (inConvoy 1) demoGang (strideAddress (inConvoy 1) 1 3) 4 (fun _ j => 8 * j) ∧
    (inConvoy 6).Ready .St [2] [6, 7, 12, 20] [4] ∧ (inConvoy 6).CleanRows [2] 4 ∧
    WindowElems (inConvoy 6) demoGang (rowAddress (inConvoy 6) 1 2) 1 (fun _ _ => 0) :=
  ⟨⟨by decide, by decide, by decide⟩, ⟨by decide, rfl⟩, by decide, cleanRows _ _ _, ready (by decide), demo_rows, demo_strides, ready (by decide),
    cleanRows _ _ _, demo_nibbles⟩

theorem witness_VectorAccessesCompleteWhereAnswered :
    Whole (inConvoy 1) ∧ (inConvoy 1).Clean [1, 2] ∧ 0 < (inConvoy 1).thr.vctx.cl ∧ 0 < (inConvoy 1).thr.vctx.rl ∧
    (∃ vs u, loadElems (inConvoy 1).thr.vctx [1, 2] ⟨.load, 4, false, 0, 0, 0, false⟩ 32 (rowAddress (inConvoy 1) 1 2) (inConvoy 1).thr (List.range 2)
      (inConvoy 1) = .ok (vs, u)) ∧
    (∃ u, State.storeElems [1, 2] ⟨.store, 4, false, 0, 0, 0, false⟩ (storeList (inConvoy 1).thr.vctx 2 32 (rowAddress (inConvoy 1) 1 2) (inConvoy 1).thr 0 2)
      (inConvoy 1) [] = .ok u) :=
  ⟨⟨by decide, rfl⟩, by decide, by decide, by decide, ⟨_, _, rfl⟩, ⟨_, rfl⟩⟩

/-- The vector registers of the demo states are zero. -/
theorem demo_elem (et : Nat) (c : VCtx) (r : BitVec 5) (w i j : Nat) : (inConvoy et).thr.elem c r w i j = 0 := by
  have h : ∀ k, (inConvoy et).thr.row k = 0 := by
    intro k
    unfold Thread.row
    split
    · show ((Vector.replicate 256 (0 : BitVec 65536))[k]).toNat = 0
      rw [Vector.getElem_replicate]; exact BitVec.toNat_zero
    · rfl
  simp [Thread.elem, h, elemAt]

theorem demo_indexed : WindowElems (inConvoy 1) demoGang
    (fun i j => (inConvoy 1).rs 1 + BitVec.ofNat 64 ((inConvoy 1).thr.elem (inConvoy 1).thr.vctx 3 32 i j * 4)) 4 (fun _ _ => 0) := by
  simp only [demo_elem]
  exact demo_elems _ _ 4 (demo_words 0 (by decide)) (demo_words 0 (by decide))

theorem witness_GatherAndScatterInTheWindow :
    (inConvoy 1).MemoryForm ∧ (inConvoy 1).Clean [1] ∧ (inConvoy 1).CleanRows [3] 32 ∧ (inConvoy 1).CleanRows [2] 32 ∧
    (∀ o ∈ (inConvoy 1).ops, o.kind = .indexed (inConvoy 1).thr.tid → o.pc ≠ (inConvoy 1).thr.pc) ∧
    WindowElems (inConvoy 1) demoGang
      (fun i j => (inConvoy 1).rs 1 + BitVec.ofNat 64 ((inConvoy 1).thr.elem (inConvoy 1).thr.vctx 3 32 i j * 4)) 4 (fun _ _ => 0) ∧
    (inConvoy 1).Ready .Ld [2, 3] (anyTypes.filter (fun t => decide (typeWidth t ≠ 4))) [32, 32] ∧
    (inConvoy 1).Ready .St [2, 3] (anyTypes.filter (fun t => decide (typeWidth t ≠ 4))) [32, 32] ∧
    (inConvoy 9).Ready .St [2, 3] [8, 9, 10, 11, 16, 17, 18, 19] [32, 32] ∧ (inConvoy 1).Ready .St [2, 3] fp4Types [32, 32] :=
  ⟨⟨by decide, by decide, by decide⟩, by decide, cleanRows _ _ _, cleanRows _ _ _, by decide, demo_indexed, ready (by decide), ready (by decide),
    ready (by decide), ready (by decide)⟩

/-- s4 at a block of zeros in the window, s1 at one whose format byte is 1, s2 a span of one block. -/
def streaming : State := holding (holding (inConvoy 1) 4 0x40000040) 2 64

theorem witness_StreamWords :
    Whole streaming ∧ streaming.Clean [4, 2] ∧ streaming.Clean [1, 2] ∧ streaming.thr.poisonV = [] ∧
    streaming.Ready .Ld [2] ([0, 1, 2, 3, 4, 5, 6] ++ [8, 9, 10, 11]) [] ∧ (streaming.rs 4).toNat % 64 = 0 ∧
    (∃ xs p k last u, vldbLoop streaming.thr.vctx 0 128 (0x40000040 + 64) 130 0x40000040 0 0 streaming = .ok (xs, (p, k, last), u)) ∧
    WindowAt streaming 0x40000040 64 demoGang 64 ∧ Memory.read demoGang.tileMem 64 = 0 ∧ WindowAt streaming (streaming.rs 1) 64 demoGang 0 ∧
    (Memory.read demoGang.tileMem 0).toNat = 1 ∧ (1, 124, 6) ∈ blockFormats ∧
    (let sa := (streaming.rs 1).toNat
     let limit := sa + (streaming.rs 2).toNat % 2 ^ 40
     sa % 64 = 0 ∧ sa + 64 ≤ limit ∧ limit < sa + 128 ∧ (streaming.rs 2).toNat / 2 ^ 40 < 124) ∧
    streaming.Ready .St [2] ([0, 1, 2, 3, 4, 5] ++ [8, 9, 10, 11]) [32] ∧ packOk 0x01 = true ∧ (blkFmt (0x01 % 256) 1).isSome = true ∧
    (∃ u, State.storeElems [] (Acc.row .store 32) [⟨0x40000040, List.replicate 32 0, none, false⟩] streaming [] = .ok u) ∧
    streaming.Ready .Ld [2] (anyTypes.filter (fun t => decide (typeWidth t ≠ 4))) [] ∧
    (vldzLoop 32 0 128 (0x40000040 + 64) 0 streaming.thr.vctx.mask 130 0x40000040 0 0 streaming).stop.isNone = true :=
  ⟨⟨by decide, rfl⟩, by decide, by decide, rfl, ready (by decide), by decide, ⟨_, _, _, _, _, rfl⟩,
    ⟨rfl, rfl, by decide, by decide, by decide, by simp [demoGang]⟩, by decide, ⟨rfl, rfl, by decide, by decide, by decide, by simp [demoGang]⟩,
    by decide, by decide, by decide, ready (by decide), by decide, by decide, ⟨_, rfl⟩, ready (by decide), by decide⟩
/-! ## Blocks, atomics, gang words, arrays -/

/-- Before a VFETCH whose VJOIN follows it. -/
def fetching : State := placed (demo 1) [0, 0xB8000001]

/-- In a pass of a block: VP 0 runs, given 0x2000, VP 1 is stopped; `rest`: the passes still to run. -/
def inBlock (rest : List (Word × List Nat)) : State :=
  { demo 1 with thr := { demoThread 1 with vrun := { VRun.idle with
      run := true, pass := true, vps := [(0x3000, 0), (0, 0)], sets := rest, cur := (0x3000, [0]), joinPc := 0x1004, supplied := [(0, 0x2000)] } } }

/-- The same with nothing given to VP 0. -/
def blockEnd : State :=
  { demo 1 with thr := { demoThread 1 with vrun := { VRun.idle with
      run := true, pass := true, vps := [(0x3000, 0), (0, 0)], cur := (0x3000, [0]), joinPc := 0x1004 } } }

/-- At the VJOIN of a run that is over. -/
def joined : State := { demo 1 with thr := { demoThread 1 with vrun := { VRun.idle with run := true, vps := [(0, 0), (0, 0)] } } }

theorem fetching_peek : fetching.fetchPeek (fetching.thr.pc + 4) = .ok 0xB8000001 := rfl

theorem inBlock_going (a : Word) :
    (let r := (inBlock []).thr.vrun
     let moved := fun (j : Nat) (v : Word × Nat) => if j ∈ r.cur.2 then (assoc r.supplied j).getD 0 else v.1
     a ≠ 0 ∧ ∃ j, (r.vps[j]?).map (moved j) = some a) ↔ a ∈ [(0x2000 : Word)] := by
  constructor
  · rintro ⟨ha, j, h⟩
    match j with
    | 0 => simp [inBlock, VRun.idle, assoc] at h; simp [← h]
    | 1 => simp [inBlock, VRun.idle] at h; exact absurd h.symm ha
    | k + 2 => simp [inBlock, VRun.idle] at h
  · intro h
    obtain rfl := List.mem_singleton.mp h
    exact ⟨by decide, 0, by decide⟩

theorem blockEnd_stops :
    (let r := blockEnd.thr.vrun
     let moved := fun (j : Nat) (v : Word × Nat) => if j ∈ r.cur.2 then (assoc r.supplied j).getD 0 else v.1
     ¬ ∃ a : Word, a ≠ 0 ∧ ∃ j, (r.vps[j]?).map (moved j) = some a) := by
  show ¬ ∃ a : Word, a ≠ 0 ∧ ∃ j, (blockEnd.thr.vrun.vps[j]?).map
    (fun v => if j ∈ blockEnd.thr.vrun.cur.2 then (assoc blockEnd.thr.vrun.supplied j).getD 0 else v.1) = some a
  rintro ⟨a, ha, j, h⟩
  match j with
  | 0 => simp [blockEnd, VRun.idle, assoc] at h; exact absurd h.symm ha
  | 1 => simp [blockEnd, VRun.idle] at h; exact absurd h.symm ha
  | k + 2 => simp [blockEnd, VRun.idle] at h

theorem witness_BlockWordsMoveTheVps :
    fetching.Serial ∧ fetching.Clean [2] ∧ fetching.thr.status.vlive = true ∧ fetching.fetchPeek (fetching.thr.pc + 4) = .ok 0xB8000001 ∧
    (fetching.rs 2).toNat % 4 = 0 ∧ (holding fetching 2 5).Serial ∧ ((holding fetching 2 5).rs 2).toNat % 4 ≠ 0 ∧
    (inBlock []).thr.vrun.pass = true ∧ ¬ ((inBlock []).thr.inSpan = true ∧ (inBlock []).thr.convoy.getLsbD 0 = true) ∧
    (inBlock []).Clean [2] ∧ (inBlock [(0x3000, [1])]).thr.vrun.sets = (0x3000, [1]) :: [] ∧ (inBlock []).thr.vrun.sets = [] ∧
    blockEnd.thr.vrun.pass = true ∧ blockEnd.thr.vrun.sets = [] ∧
    joined.Serial ∧ joined.thr.vrun.run = true ∧ joined.thr.vrun.depth = 0 ∧ (∀ v ∈ joined.thr.vrun.vps, v.1 = 0) :=
  ⟨by decide, by decide, by decide, fetching_peek, by decide, by decide, by decide, by decide, by decide, by decide, rfl, rfl, rfl, rfl, by decide,
    rfl, rfl, by decide⟩

theorem demo_serial : (demo 1).Serial := by decide
theorem demo_form (et : Nat) : (demo et).MemoryForm :=
  ⟨rfl, by intro g h; obtain rfl := List.mem_singleton.mp h; decide, by intro p h; exact absurd h List.not_mem_nil⟩

theorem witness_AtomicsInTheWindow :
    (demo 1).MemoryForm ∧ (demo 1).Serial ∧ (∀ p ∈ (demo 1).lost, p.1 ≠ (demo 1).thr.tid) ∧ (demo 1).Clean [1, 2, 3] ∧
    (demo 1).rs 1 = 0x40000000 ∧ WindowAt (demo 1) 0x40000000 4 demoGang 0 ∧ WindowAt (demo 1) 0x40000000 8 demoGang 0 ∧
    ∀ k < 8, 0 + k ∉ demoGang.tilePoison :=
  ⟨demo_form 1, by decide, by decide, by decide, rfl, demo_window 1 4 (by decide), demo_window 1 8 (by decide), by simp [demoGang]⟩
/-- A copy of the 128 bytes at `pa` in the L1 of hearth 0, its first eight bytes dirty. -/
def demoLine (treat pa : Nat) : L1Line :=
  { hearth := 0, pa := pa, col := false, width := 0, slot := 0, alloc := 0, treat := treat, retain := false, data := 0x0807060504030201
    dirty := 0xFF, gone := 0, rts := 0, asid := 0, va := 0, born := [], rels := [], missed := [], owners := [] }

/-- s1 and s2 give the bytes 0x2000 to 0x2003 of a page of treatment S, of which the L1 holds a line. -/
def softPage : State :=
  { holding (placed (demo 1) []) 1 0x2000 with
    mem := Memory.writeN (placed (demo 1) []).mem 0x80004000 (leBytes 8 (0xC0000000 + 0x17B)), l1 := [demoLine 2 0xC0002000] }
def softLeaf : Leaf := ⟨0, 0x40000000, 2, 0xC000017B, 0⟩

theorem softPage_walk (v : Nat) (h : 0x2000 ≤ v ∧ v < 0x2004) : softPage.walk softPage.thr.asid.toNat v = .ok softLeaf := by
  have : v = 0x2000 ∨ v = 0x2001 ∨ v = 0x2002 ∨ v = 0x2003 := by omega
  rcases this with rfl | rfl | rfl | rfl <;> decide +kernel

theorem softPage_range :
    RangeMay softPage .store 0x2000 4 ∧ RangeMay softPage .load 0x2000 4 ∧ SoftRange softPage 0x2000 4 0xC0002000 := by
  have may : ∀ u, softLeaf.permits u (!softPage.thr.status.priv) = true → RangeMay softPage u 0x2000 4 := by
    intro u hu v h1 h2
    rw [softPage_walk v ⟨h1, h2⟩]
    exact fun _ => ⟨no_tables rfl _ _, fun _ => ⟨hu, fun h => absurd rfl h⟩, fun e h => absurd h List.not_mem_nil⟩
  refine ⟨may .store (by decide), may .load (by decide), by decide, by decide, by decide, rfl, rfl, ⟨softLeaf, ?_, by decide, by decide, by decide, by decide⟩, ?_, by decide, ?_, ?_, ?_⟩
  · refine fun v h1 h2 => ⟨?_, softPage_walk v ⟨h1, h2⟩⟩
    have : v = 0x2000 ∨ v = 0x2001 ∨ v = 0x2002 ∨ v = 0x2003 := by omega
    rcases this with rfl | rfl | rfl | rfl <;> decide
  · intro m h _ _ _; obtain rfl := List.mem_singleton.mp h; rfl
  · intro m h; obtain rfl := List.mem_singleton.mp h; decide +kernel
  · intro m h _ _; obtain rfl := List.mem_singleton.mp h; decide +kernel
  · intro m h m' h' _ _ k hk k' hk' _ _ e
    obtain rfl := List.mem_singleton.mp h
    obtain rfl := List.mem_singleton.mp h'
    have e : 0xC0002000 + k = 0xC0002000 + k' := e
    obtain rfl : k = k' := by omega
    rfl

theorem witness_OrderedAccesses_ranges :
    softPage.MemoryForm ∧ softPage.Serial ∧ softPage.Clean [1, 2] ∧ (softPage.rs 1).toNat = 0x2000 ∧ (softPage.rs 2).toNat = 4 ∧
    2 ≤ (2#3).toNat ∧ SoftCopy softPage (demoLine 2 0xC0002000) ∧ (demoLine 2 0xC0002000).dirty.getLsbD 0 = true :=
  ⟨⟨by decide, by decide, by decide⟩, by decide, by decide, by decide, by decide, by decide, ⟨rfl, rfl, rfl⟩, by decide⟩
theorem witness_OrderedAccesses :
    (demo 1).MemoryForm ∧ (demo 1).Serial ∧ (∀ p ∈ (demo 1).lost, p.1 ≠ (demo 1).thr.tid) ∧ (demo 1).Clean [1, 2, 5] ∧
    WindowAt (demo 1) 0x40000000 4 demoGang 0 ∧ WindowAt (demo 1) 0x40000000 8 demoGang 0 ∧
    ((demo 1).rs 1).toNat + ((demo 1).rs 2).toNat ≤ 2 ^ 56 ∧
    2 ^ 56 < ((holding (demo 1) 1 (2 ^ 56)).rs 1).toNat + ((holding (demo 1) 1 (2 ^ 56)).rs 2).toNat ∧
    ((demo 1).rs 2).extractLsb' 10 53 = 0 ∧ ((demo 1).rs 1).extractLsb' 10 53 ≠ 0 :=
  ⟨demo_form 1, by decide, by decide, by decide, demo_window 1 4 (by decide), demo_window 1 8 (by decide), by decide, by decide, by decide, by decide⟩

theorem witness_OrderedAccesses_window :
    (demo 1).Serial ∧ (demo 1).Clean [1, 2] ∧ ((demo 1).rs 1).toNat = 0x40000000 ∧ ((demo 1).rs 2).toNat = 4 ∧
    RangeMay (demo 1) .store 0x40000000 4 ∧ ∀ v, 0x40000000 ≤ v → v < 0x40000000 + 4 → (demo 1).windowOff (BitVec.ofNat 64 v) ≠ none := by
  have inside : ∀ v, 0x40000000 ≤ v → v < 0x40000000 + 4 → (demo 1).windowOff (BitVec.ofNat 64 v) ≠ none := by
    intro v h1 h2
    have : v = 0x40000000 ∨ v = 0x40000001 ∨ v = 0x40000002 ∨ v = 0x40000003 := by omega
    rcases this with rfl | rfl | rfl | rfl <;> decide
  exact ⟨by decide, by decide, by decide, by decide, fun v h1 h2 h => absurd h (inside v h1 h2), inside⟩

/-- A second live thread of the gang, not at the barrier. -/
def twoThreads : State := { demo 1 with others := [{ demoThread 1 with tid := 2, index := 1 }] }

theorem witness_BarrierOpensForTheLast :
    (demo 1).Serial ∧ (demo 1).myGang = some demoGang ∧ (demo 1).thr.barAt = none ∧ (demo 1).thr.gang = demoGang.gid ∧ (demo 1).thr.live = true ∧
    (demo 1).others = [] ∧ twoThreads.Serial ∧ twoThreads.myGang = some demoGang ∧ twoThreads.thr.barAt = none ∧
    (∃ u ∈ twoThreads.others, twoThreads.unended u = true ∧ u.gang = demoGang.gid ∧ (∀ e ∈ u.barGen, e.2.1 ≠ demoGang.barGen) ∧ u.index ∉ [0]) :=
  ⟨by decide, rfl, rfl, rfl, rfl, rfl, by decide, rfl, rfl, _, List.mem_singleton.mpr rfl, by decide, by decide, by decide, by decide⟩

theorem demo_tiles (et off n : Nat) (h : off + n ≤ 65536) : TilesAt (inConvoy et) demoGang off n :=
  ⟨rfl, h, by simp [demoGang]⟩

theorem witness_MldbCapturesTheBlock :
    (inConvoy 12).Clean [0] ∧ (inConvoy 12).Ready .Mx [] operandTypes [] ∧ (inConvoy 2).Ready .Mx [] operandTypes [] ∧
    ((inConvoy 12).rs 0).toNat % 4096 = 0 ∧ TilesAt (inConvoy 12) demoGang 0 32768 :=
  ⟨by decide, ready (by decide), ready (by decide), by decide, demo_tiles 12 0 32768 (by decide)⟩

/-- The convoy with array state `a`. -/
def withArray (et : Nat) (a : ArrayState) : State := { inConvoy et with thr := { (inConvoy et).thr with array := a } }

/-- A captured 4-bit integer block of ones. -/
def onesBlock : BBlock := ⟨12, 127, List.replicate 65536 1, List.replicate 64 false⟩

theorem withArray_elem (et : Nat) (a : ArrayState) (c : VCtx) (r : BitVec 5) (w i j : Nat) : (withArray et a).thr.elem c r w i j = 0 :=
  demo_elem et c r w i j

theorem witness_MatrixWords :
    let s := withArray 12 (.block onesBlock)
    Whole s ∧ s.Clean [0] ∧ s.thr.poisonV = [] ∧ s.thr.array = .block onesBlock ∧ onesBlock.etype.toNat = s.thr.vctx.et ∧
    s.Ready .Mx [2, 3] operandTypes [32] ∧ s.thr.vctx.cl ≤ 64 ∧ 0 < s.thr.vctx.cl ∧ 0 < s.thr.vctx.rl ∧
    s.rs 0 = 0 ∧ s.myGang = some demoGang ∧ (∀ m, TilesAt s demoGang (0 + 512 * s.thr.elem { s.thr.vctx with rl := 1 } 3 32 0 m) 512) ∧
    TilesAt s demoGang 0 (((s.thr.vctx.rows + 16 - 1) / 16 * (4096 / 4 / 16) + 7) / 8) ∧ 0 < s.thr.vctx.rows :=
  ⟨⟨by decide, rfl⟩, by decide, rfl, rfl, by decide, ready (by decide), by decide, by decide, by decide, rfl, rfl,
    fun m => by rw [withArray_elem]; exact demo_tiles 12 0 512 (by decide), demo_tiles 12 0 _ (by decide), by decide⟩

/-- The grid of the reset values of its registers, from 0. -/
def demoGrid : Grid := ⟨0, 0x3F800000, 1, 0⟩

theorem witness_SplineWords_edges :
    demoGrid.locate false 0x3F000000 = .at 0 0x3F000000 ∧ ({ demoGrid with clamp := 1 } : Grid).locate false 0x40000000 = .zero ∧
    demoGrid.locate false 0x7FC00000 = .nan 1 false := by decide +kernel
theorem witness_SplineWords :
    let s := withArray 1 (.coeffs demoGrid 1 1 (List.replicate 16 0))
    s.MemoryForm ∧ s.Clean [0] ∧ s.thr.poisonV = [] ∧ s.Ready .Mx [] anyTypes [] ∧ (withArray 1 (.grid demoGrid)).thr.array = .grid demoGrid ∧
    TilesAt s demoGang 0 (1 * 1 * 32) ∧ s.thr.array = .coeffs demoGrid 1 1 (List.replicate 16 0) ∧ s.Ready .Mx [2, 3] [1] [32] ∧
    1 ≤ s.thr.vctx.cl ∧ 0 < s.thr.vctx.rl ∧ TilesAt s demoGang 0 (1 * 1 * 64) ∧ demoGrid.count ≤ 6 ∧ 2 * 2 ^ 23 ≤ demoGrid.step.toNat ∧
    (s.rs 0).toNat = 0 :=
  ⟨demo_form 1, by decide, rfl, ready (by decide), rfl, demo_tiles 1 0 _ (by decide), rfl, ready (by decide), by decide, by decide,
    demo_tiles 1 0 _ (by decide), by decide, by decide, rfl⟩

theorem witness_TransformWords :
    let s := inConvoy 9
    s.Clean [0] ∧ s.thr.poisonV = [] ∧ s.MemoryForm ∧ s.Ready .Tf [2] (anyTypes.filter (fun t => decide (typeWidth t ≠ 4))) [32] ∧
    (s.rs 0).toNat % 4 = 0 ∧
    TilesAt s demoGang 0 (chunkBest 32 1 0 ((List.range s.thr.vctx.cl).map (fun j =>
      if s.thr.guard (s.thr.vctx.row0 s.thr.vctx.cl) 0 j = true then s.thr.elem (s.thr.vctx.row0 s.thr.vctx.cl) 2 32 0 j else 0))).length ∧
    s.Ready .Tf [2] (anyTypes.filter (fun t => decide (typeWidth t ≠ 4))) [] ∧
    (let t := holding s 4 64
     let h := chunkHead (Memory.readN demoGang.tileMem 64 20)
     (t.rs 4).toNat = 64 ∧ t.Clean [4] ∧ h.ok = true ∧ h.count ≤ t.thr.cap 32 ∧ 64 + h.bytes ≤ 65536 ∧
     (chunkDecode 32 (Memory.readN demoGang.tileMem 64 h.bytes)).2 = true) := by
  refine ⟨by decide, rfl, demo_form 9, ready (by decide), by decide, ?_, ready (by decide), by decide⟩
  simp only [demo_elem, ite_self]
  exact demo_tiles 9 0 _ (by decide)
/-! ## Engine, system and context words -/

/-- A tree descriptor in the words of R309: pool, nodes, root, envelopes, keys, values, dimensions, limits, free and retired heads, flags. -/
def treeBytes : List Byte :=
  leBytes 8 0x10000 ++ leBytes 4 16 ++ leBytes 4 0 ++ leBytes 8 0x40001000 ++ leBytes 8 0x30000 ++ leBytes 8 0x50000 ++ leBytes 2 2 ++ leBytes 2 1 ++
    leBytes 2 4 ++ leBytes 2 4 ++ leBytes 4 1

/-- A collective descriptor (R352): an all-gather of 64 bytes over group 0. -/
def collBytes : List Byte :=
  leBytes 8 0x40000000 ++ leBytes 8 0x40002000 ++ leBytes 4 64 ++ leBytes 1 3 ++ leBytes 1 0 ++ leBytes 2 0 ++ leBytes 8 8

/-- The gang with a tree descriptor at offset 64 open in slot 4, a collective one at 128, a race log at 256 and engine-side buffer 8. -/
def toolGang : Gang :=
  { demoGang with
    tileMem := Memory.writeN (Memory.writeN (Memory.writeN [] 64 treeBytes) 128 collBytes) 264 (leBytes 4 1)
    treeSlots := [(4, 0x40000040)], buffers := [(8, ringOf 8 3)] }

/-- The device with it, s5, s6 and s7 at those descriptors, group 0 of two stacks. -/
def tooled : State :=
  { holding (holding (holding (demo 1) 5 0x40000040) 6 0x40000080) 7 0x40000100 with
    gangs := [toolGang]
    bar0 := { State.reset.bar0 with cgbase := 0x40000 }
    mem := Memory.writeN (Memory.writeN (Memory.writeN [] 0x40000 (leBytes 8 0x40100)) 0x40008 (leBytes 2 2)) 0x40100 (leBytes 2 0 ++ leBytes 2 4) }

/-- The gang with the formats and the handle of a saved thread, an image of which stands under handle 9. -/
def savedState : State :=
  { demo 1 with
    gangs := [{ demoGang with tileMem := Memory.writeN (Memory.writeN [] 0 (leBytes 8 0x09500001)) threadHandleAt (leBytes 8 9) }]
    images := [(9, demoThread 1)] }

/-- Whether a computation of the model is answered. -/
def okB {ε α : Type} (x : Except ε α) : Bool := match x with | .ok _ => true | .error _ => false

theorem answered {ε α : Type} {x : Except ε α} (h : okB x = true) : ∃ u, x = .ok u := by
  cases x with
  | ok u => exact ⟨u, rfl⟩
  | error e => exact absurd h (by simp [okB])

/-- The answer of a computation that is answered. -/
def okD {ε α : Type} (x : Except ε α) (d : α) : α := match x with | .ok u => u | .error _ => d

theorem okD_eq {ε α : Type} {x : Except ε α} (d : α) (h : okB x = true) : x = .ok (okD x d) := by
  cases x with
  | ok u => rfl
  | error e => exact absurd h (by simp [okB])

/-- The 64 bytes at an offset of a gang's tiles. -/
def tileBytes (g : Gang) (off : Nat) : List Byte := (List.range 64).map (fun k => Memory.read g.tileMem (off + k))

/-- Whether the window of `tooled` holds 64 bytes at offset `off`, evaluated. -/
theorem tooled_record (off : Nat) (h : off % 64 = 0) (h' : off + 64 ≤ 65536) :
    RecordAt tooled (BitVec.ofNat 64 (0x40000000 + off)) (tileBytes toolGang off) := by
  refine .inl ⟨toolGang, off, ⟨rfl, rfl, ?_, h', ?_, by simp [toolGang, demoGang]⟩, by simp [toolGang, demoGang], rfl⟩
  · show (0x40000000 + off) % 2 ^ 64 = 0x40000000 + off; omega
  · show (0x40000000 + off) % 2 ^ 64 % 64 = 0; omega

/-- Four operations on sequencer 0. -/
def fullQueue : State := { demo 1 with ops := List.replicate 4 ((demo 1).newOp (.flue 0 FlueDesc.reset 0 0)) }

theorem reset_rows : ∀ r ∈ FlueDesc.reset.rows demoGang, r.1 = true := by
  have h1 : FlueDesc.reset.ssp = 0 := by decide
  have h2 : FlueDesc.reset.dsp = 0 := by decide
  have h3 : FlueDesc.reset.xf = 0 := by decide
  have h4 : FlueDesc.reset.blk = none := rfl
  have h5 : FlueDesc.reset.cfg = false := rfl
  simp [FlueDesc.rows, h1, h2, h3, h4, h5]

theorem witness_FlueWords :
    (demo 1).Serial ∧ (demo 1).Clean [2, 3, 0, 1] ∧ (demo 1).rs 0 = 0 ∧ (demo 1).rs 1 = 0x40000000 ∧ (demo 1).rs 2 = 4 ∧ (demo 1).rs 3 = 8 ∧
    (let x : Word := 4
     let y : Word := 8
     let z : Word := 0
     z.toNat < 2 ^ 16 ∧ z.extractLsb' 14 2 ≠ 3 ∧ z.extractLsb' 12 2 = 0 ∧ x.toNat < 2 ^ 56 ∧ y.toNat < 2 ^ 56 ∧
       x.toNat < 2 ^ 35 ∧ x.extractLsb' 25 7 = 0 ∧ (x.extractLsb' 32 3).toNat ≤ 5 ∧ 1 ≤ (x.extractLsb' 0 25).toNat ∧
       (x.extractLsb' 0 25).toNat ≤ 2 ^ 24 ∧ y.toInt = 8 ∧ transformOk 0 = true ∧ y.toNat ≤ 511 ∧ z.toNat ≤ 1) ∧
    511 < (0x40000000 : Word).toNat ∧ 1 < (4 : Word).toNat ∧ ¬ (0x40000000 : Word).toNat < 2 ^ 16 ∧ (demo 1).myGang = some demoGang ∧
    (8 : Word).toNat % 8 = 0 ∧ (8 : Word).toNat < 2 ^ 59 ∧ ((8 : Word).extractLsb' 56 3).toNat ≤ 5 ∧
    (∀ r ∈ (demo 1).thr.staging.rows demoGang, r.1 = true) ∧
    ((demo 1).ops.filter (fun o => o.onSeq (demo 1).thr.hearth 0)).length < 4 ∧
    4 ≤ (fullQueue.ops.filter (fun o => o.onSeq fullQueue.thr.hearth 0)).length ∧ (4 : Word).toNat % 8 ≠ 0 :=
  ⟨by decide, by decide, rfl, rfl, rfl, rfl, by decide, by decide, by decide, by decide, rfl, by decide, by decide, by decide, reset_rows,
    by decide, by decide, by decide⟩

/-- A thread-side ring of two slots, one filled and held for its consumer. -/
def heldRing : Buffer := { ringOf (0x10000 + 4) 0 with filled := 1, free := 0, held := [⟨0, false, none, false⟩] }

/-- The gang with that ring as buffer 4. -/
def ringGang : Gang := { demoGang with buffers := [(4, heldRing)] }
def ringed : State := { holding (holding (demo 1) 5 0x101) 6 1 with gangs := [ringGang] }

/-- The gang with an engine operation that names tile 4. -/
def namedTile : State :=
  { demo 1 with ops := [(demo 1).newOp (.flue 0 { FlueDesc.reset with cfg := true, xfA := 1 + 4 * 2 ^ 32, blk := some (4, 0) } 0 0)] }

/-- A BDEF of buffer 4 with a ring of one slot of tile 8, and one while a slot of the buffer is held. -/
theorem witness_BufferAndTileWords_define :
    (demo 1).Serial ∧ (demo 1).Clean [2, 3, 0] ∧ (demo 1).myGang = some demoGang ∧
    ((demo 1).rs 2).toNat ≤ 31 ∧ ((demo 1).rs 0).toNat < 2 ^ 9 ∧ ((demo 1).rs 0).extractLsb' 2 6 = 0 ∧ ((demo 1).rs 0).getLsbD 8 = false ∧
    (let sh := (demo 1).rs 3
     sh.toNat < 2 ^ 27 ∧ sh.extractLsb' 22 2 = 0 ∧ sh.extractLsb' 9 7 = 0 ∧ 8 + 1 * 1 ≤ demoGang.tiles) ∧ demoGang.buffers = [] ∧ (demo 1).ops = [] ∧
    demoGang.owners = [] ∧ ringGang.buf (ringed.rs 2).toNat = some heldRing ∧ heldRing.held ≠ [] :=
  ⟨by decide, by decide, rfl, by decide, by decide, by decide, by decide, by decide, rfl, rfl, rfl, rfl, by decide⟩

theorem witness_BufferAndTileWords :
    ringed.Serial ∧ ringed.Clean [2, 5, 6] ∧ ringed.myGang = some ringGang ∧ ringGang.buf (ringed.rs 2).toNat = some heldRing ∧
    (ringed.rs 6).toNat < 2 ^ 9 ∧ (ringed.rs 6).getLsbD 7 = false ∧ 1 ≤ ((ringed.rs 6).extractLsb' 0 7).toNat ∧ (ringed.rs 6).getLsbD 8 = false ∧
    ((ringed.rs 6).extractLsb' 0 7).toNat ≤ heldRing.slots ∧ heldRing.cside = false ∧ ((ringed.rs 6).extractLsb' 0 7).toNat ≤ heldRing.filled ∧
    (∀ w, heldRing.waiters.find? (fun w => w.produce == false) = some w → w.tid = ringed.thr.tid) ∧
    (ringed.rs 5).getLsbD 8 = true ∧ heldRing.pside = false ∧ heldRing.free < ((ringed.rs 5).extractLsb' 0 7).toNat ∧
    (∀ h ∈ heldRing.held.filter (fun h => h.produce == false), h.engine = none ∧ h.fin = false) ∧
    ((heldRing.held.filter (fun h => h.produce == false)).map (·.slot)).Nodup ∧
    1 ≤ (heldRing.held.filter (fun h => h.produce == false)).length ∧ demoGang.buf ((demo 1).rs 3).toNat = none ∧
    ((demo 1).rs 2).toNat < demoGang.tiles ∧ (∀ p ∈ demoGang.buffers, ¬ (p.2.tile0 ≤ 4 ∧ 4 < p.2.tile0 + p.2.slots * p.2.tps)) ∧
    (demo 1).ops = [] ∧ (∃ o ∈ namedTile.ops, o.gang = namedTile.thr.gang ∧ o.names 4 = true) ∧ ¬ ((demo 1).rs 1).toNat < demoGang.tiles :=
  ⟨by decide, by decide, rfl, rfl, by decide, by decide, by decide, by decide, by decide, rfl, by decide, by simp [heldRing, ringOf], by decide, by decide,
    by decide, by decide, by decide, by decide, rfl, by decide, by decide, rfl, ⟨_, List.mem_singleton.mpr rfl, by decide, by decide⟩, by decide⟩

theorem witness_CounterWords :
    (demo 1).MemoryForm ∧ (demo 1).Serial ∧ (demo 1).Clean [1, 2] ∧ (∀ p ∈ (demo 1).lost, p.1 ≠ (demo 1).thr.tid) ∧
    ((demo 1).rs 1).toNat < 2 ^ 59 ∧ (((demo 1).rs 1).extractLsb' 56 3).toNat ≤ 5 ∧
    (((demo 1).rs 1).setWidth 56 |>.setWidth 64) = (0x40000000 : Word) ∧ WindowAt (demo 1) 0x40000000 8 demoGang 0 ∧
    ((demo 1).rs 2).toNat ≤ Memory.num demoGang.tileMem 0 8 ∧
    Memory.num demoGang.tileMem 0 8 < ((holding (demo 1) 2 (2 ^ 63)).rs 2).toNat :=
  ⟨demo_form 1, by decide, by decide, by decide, by decide, by decide, by decide, demo_window 1 8 (by decide), by decide, by decide⟩

/-- The walker with 16 operations, the collective engine with 16. -/
def fullWalker : State := { tooled with ops := List.replicate 16 (tooled.newOp (.refit 4 0x40000040 8)) }
def fullStack : State := { tooled with ops := List.replicate 16 (tooled.newOp (.collective 0 [] 0)) }

/-- Another gang of the ASID with the descriptor open; an append that is about to write node 4. -/
def openElsewhere : State := { tooled with gangs := [toolGang, { toolGang with gid := 2, treeSlots := [(0, 0x40000040)] }] }
def lockedNode : State := { tooled with ops := [{ tooled.newOp (.append 4 0x40000040 0 8) with stack := [(4, 64)] }] }

theorem tooled_tree : (treeOf (tileBytes toolGang 64)).ok = true ∧ (treeOf (tileBytes toolGang 64)).d = 2 ∧ (treeOf (tileBytes toolGang 64)).dv = 1 ∧
    (treeOf (tileBytes toolGang 64)).nodes = 16 ∧ (treeOf (tileBytes toolGang 64)).envBase = 0x40001000 ∧
    (treeOf (tileBytes toolGang 0)).ok = false := by decide +kernel

theorem witness_TreeAndCollectiveWords :
    tooled.Serial ∧ tooled.Clean [2, 3, 5, 6, 0] ∧ tooled.myGang = some toolGang ∧ tooled.rs 0 = 0 ∧
    (tooled.rs 2).toNat = 4 ∧ ¬ (∃ o ∈ tooled.ops, o.gang = tooled.thr.gang ∧ o.kind.tree.map (·.1) = some 4) ∧
    (∃ o ∈ fullWalker.ops, o.gang = fullWalker.thr.gang ∧ o.kind.tree.map (·.1) = some 4) ∧
    (tooled.rs 5).toNat % 64 = 0 ∧ tooled.rs 5 ≠ 0 ∧
    ¬ (∃ h ∈ tooled.gangs, h.asid = tooled.thr.asid ∧ ∃ p ∈ h.treeSlots, p.2 = (tooled.rs 5).toNat ∧ ¬ (h.gid = tooled.thr.gang ∧ p.1 = 4)) ∧
    (∃ h ∈ openElsewhere.gangs, h.asid = tooled.thr.asid ∧ ∃ p ∈ h.treeSlots, p.2 = (tooled.rs 5).toNat ∧ ¬ (h.gid = tooled.thr.gang ∧ p.1 = 4)) ∧
    RecordAt tooled (tooled.rs 5) (tileBytes toolGang 64) ∧ RecordAt tooled (tooled.rs 1) (tileBytes toolGang 0) ∧ tooled.rs 1 ≠ 0 ∧
    assoc toolGang.treeSlots 4 = some 0x40000040 ∧ toolGang.buf (tooled.rs 3).toNat = some (ringOf 8 3) ∧ (ringOf 8 3).pside = true ∧
    (tooled.ops.filter (fun o => decide (o.hearth = tooled.thr.hearth) && o.kind.tree.isSome)).length < 16 ∧ TilesAt tooled toolGang 4 (4 * 2) ∧
    16 ≤ (fullWalker.ops.filter (fun o => decide (o.hearth = tooled.thr.hearth) && o.kind.tree.isSome)).length ∧
    (tooled.rs 3).toNat % 8 = 0 ∧ (tooled.rs 3).setWidth 56 ≠ 0#56 ∧ ((tooled.rs 3).extractLsb' 56 3).toNat ≤ 5 :=
  ⟨by decide, by decide, rfl, rfl, rfl, by decide, by decide, by decide, by decide, by decide, by decide, tooled_record 64 (by decide) (by decide),
    tooled_record 0 (by decide) (by decide), by decide, rfl, rfl, rfl, by decide, ⟨rfl, by decide, by simp [toolGang, demoGang]⟩, by decide, by decide,
    by decide, by decide⟩

theorem witness_TreeAndCollectiveWords_records :
    64 * ((16 + 4 * 2 + 4 * 1 + 63) / 64) = 64 ∧ TilesAt tooled toolGang 0 64 ∧
    ¬ (∃ o ∈ tooled.ops, o.kind.isAppend = true ∧ o.asid = tooled.thr.asid ∧ o.kind.tree.map (·.2) = some 0x40000040 ∧ o.stack.head?.map (·.1) = some 4) ∧
    (∃ o ∈ lockedNode.ops, o.kind.isAppend = true ∧ o.asid = tooled.thr.asid ∧ o.kind.tree.map (·.2) = some 0x40000040 ∧ o.stack.head?.map (·.1) = some 4) ∧
    (∀ k < 64 / 64, RecordAt tooled (BitVec.ofNat 64 (0x40001000 + 4 * 64 + 64 * k)) (tileBytes toolGang (0x1100 + 64 * k))) ∧
    RecordAt tooled (tooled.rs 6) (tileBytes toolGang 128) ∧
    (let bs := tileBytes toolGang 128
     let entry := tooled.bar0.cgbase.toNat + 16 * (collOf bs).group
     let list := Memory.num tooled.view entry 8
     let member := fun k => Memory.num tooled.view (list + 2 * k) 2
     (collOf bs).ok (bs.drop 0x20) = true ∧ list % 8 = 0 ∧ Memory.num tooled.view (entry + 8) 2 = 2 ∧ Memory.num tooled.view (entry + 10) 6 = 0 ∧
       (∀ k < 2, member k < 4096) ∧ ∃ k < 2, member k = 4 * tooled.devnum.toNat + tooled.thr.hearth / 32 ∧ ∀ j < 2, member j = member k → j = k) ∧
    16 ≤ (fullStack.ops.filter (fun o => match o.kind with | .collective k _ _ => decide (k = 0) | _ => false)).length ∧
    (collOf (tileBytes toolGang 0)).ok ((tileBytes toolGang 0).drop 0x20) = false := by
  refine ⟨by decide, ⟨rfl, by decide, by simp [toolGang, demoGang]⟩, by decide, by decide, ?_, tooled_record 128 (by decide) (by decide), by decide +kernel,
    by decide, by decide +kernel⟩
  intro k h
  obtain rfl : k = 0 := by omega
  exact tooled_record 0x1100 (by decide) (by decide)

/-- The child queue of ASID 0, empty and with 256 records. -/
def childless : QueueState :=
  { q := childBase, head := 0, tail := 0, primed := true, launch := none, eligible := false, age := 0, children := [], known := [] }
def fullChildren : State :=
  { tooled with queues := [{ childless with children := List.replicate 256 ([], []) }] }

theorem witness_SystemWords :
    tooled.Serial ∧ tooled.Clean [7, 5, 0] ∧
    RecordAt { tooled with thr := { tooled.thr with status := { tooled.thr.status with priv := true } } } (tooled.rs 7) (tileBytes toolGang 256) ∧
    (tooled.queueOf (childBase + tooled.thr.asid.toNat)).children.length < 256 ∧ (∀ p ∈ tooled.lost, p.1 ≠ tooled.thr.tid) ∧
    ((({ tooled with queues := [{ childless with launch := some 1 }] } : State).queueOf (childBase + 0)).launch.isSome = true) ∧
    256 ≤ (fullChildren.queueOf (childBase + fullChildren.thr.asid.toNat)).children.length ∧ tooled.thr.status.priv = true ∧
    (tooled.rs 7).toNat < 2 ^ 56 ∧ (tooled.rs 0).toNat < 1024 ∧ (tooled.rs 0).toNat % 65536 = 0 ∧ backed (tooled.rs 0).toNat 65536 = true ∧
    (tooled.rs 0).toNat < 2 ∧ RecordAt tooled (tooled.rs 7) (tileBytes toolGang 256) ∧ tooled.rs 7 ≠ 0 ∧
    (let bs := tileBytes toolGang 256
     fieldAt bs 0 8 % 4096 = 0 ∧ 1 ≤ fieldAt bs 8 4 ∧ fieldAt bs 8 4 ≤ 2 ^ 20 ∧ fieldAt bs 0xC 4 = 0 ∧ ∀ c ∈ bs.drop 0x28, c = 0) ∧
    RecordAt tooled (tooled.rs 5) (tileBytes toolGang 64) ∧ ¬ (∀ c ∈ (tileBytes toolGang 64).drop 0x28, c = 0) :=
  ⟨by decide, by decide, tooled_record 256 (by decide) (by decide), by decide, by decide, by decide, by decide, by decide, by decide, by decide, by decide,
    by decide, by decide, tooled_record 256 (by decide) (by decide), by decide, by decide +kernel, tooled_record 64 (by decide) (by decide),
    by decide +kernel⟩

theorem readN_congr {m m' : List Host.Cell} (a n : Nat) (h : ∀ k < n, Memory.read m (a + k) = Memory.read m' (a + k)) :
    Memory.readN m a n = Memory.readN m' a n := by
  apply List.ext_getElem (by simp [Memory.readN_length])
  intro k h1 h2
  rw [Memory.readN_getElem, Memory.readN_getElem]
  exact h k (by simpa [Memory.readN_length] using h1)

/-- A launch record (R124): entry 0x1000, argument 0x5555, two gangs of one thread, 16 lanes and one tile, a dependence on the counter at
0x2000 with target 0. -/
def demoLaunch : Launch :=
  { id := 1, asid := 0, admitted := 0, ended := 0, halted := 0, fault := 0, malformed := false, dep := none, known := [], done := []
    record := leBytes 8 0x1000 ++ leBytes 8 0x5555 ++ leBytes 8 1 ++ leBytes 8 0x100 ++ leBytes 8 0x2000 ++ leBytes 8 0 ++ leBytes 8 0 ++ leBytes 8 0 }

/-- Another thread of the gang. -/
def sibling (alive : Bool) : Thread := { demoThread 1 with tid := 2, index := 1, phase := if alive then .running else .ended }

/-- At a CSAVE to s1, s2, two areas of the uncached page, with another thread of the gang. -/
def areas (alive : Bool) : State :=
  { holding (holding (placed (demo 1) []) 1 0x10000) 2 0x200000 with others := [sibling alive], launches := [demoLaunch] }

/-- The bytes of the tables of that page. -/
def tables : List Nat :=
  List.range 32 ++ (List.range 16).map (0x80000000 + ·) ++ (List.range 16).map (0x80002000 + ·) ++ (List.range 16).map (0x80004000 + ·)

theorem mem_tables {x : Nat} (h : x < 32 ∨ ∃ j < 3, 0x80000000 + 0x2000 * j ≤ x ∧ x < 0x80000000 + 0x2000 * j + 16) : x ∈ tables := by
  simp only [tables, List.mem_append, List.mem_map, List.mem_range]
  rcases h with h | ⟨j, hj, h1, h2⟩
  · exact .inl (.inl (.inl h))
  · have : j = 0 ∨ j = 1 ∨ j = 2 := by omega
    rcases this with rfl | rfl | rfl
    · exact .inl (.inl (.inr ⟨x - 0x80000000, by omega, by omega⟩))
    · exact .inl (.inr ⟨x - 0x80002000, by omega, by omega⟩)
    · exact .inr ⟨x - 0x80004000, by omega, by omega⟩

theorem tables_low {x : Nat} (h : x ∈ tables) : x < 0xC0000000 := by
  simp only [tables, List.mem_append, List.mem_map, List.mem_range] at h
  rcases h with ((h | ⟨k, h, rfl⟩) | ⟨k, h, rfl⟩) | ⟨k, h, rfl⟩ <;> omega

/-- A state whose memory holds those tables has that page's ASID entry, and its path to an address of the page. -/
theorem page_entries (s : State) (ha : s.bar0.asidbase = 0) (hd : s.devnum = 0) (hl : s.l1 = []) (hk : s.sectorKeys = [])
    (h : ∀ x ∈ tables, Memory.read s.mem x = Memory.read (placed (demo 1) []).mem x) (va : Nat) (hv : va < 2 ^ 30) :
    s.walk 0 va = .ok demoLeaf ∧ (∀ e ∈ s.tablePath 0 va, ∃ j < 3, e.2.1 = 0x80000000 + 0x2000 * j) := by
  generalize hm : s.mem = m at h
  have num : ∀ a n, (∀ k < n, a + k ∈ tables) → Memory.num m a n = Memory.num (placed (demo 1) []).mem a n := fun a n hk => by
    unfold Memory.num; rw [readN_congr a n (fun k hk' => h _ (hk k hk'))]
  have low : ∀ a n, a + n ≤ 32 → Memory.num m a n = Memory.num (placed (demo 1) []).mem a n := fun a n ha => num a n (fun k hk => mem_tables (.inl (by omega)))
  have table : ∀ j < 3, ∀ o n, o + n ≤ 16 → Memory.num m (0x80000000 + 0x2000 * j + o) n =
      Memory.num (placed (demo 1) []).mem (0x80000000 + 0x2000 * j + o) n :=
    fun j hj o n ho => num _ n (fun k hk => mem_tables (.inr ⟨j, hj, by omega, by omega⟩))
  have view : s.view = m := by rw [← hm]; simp [State.view, State.dirtyD, hl, hk]
  have e : s.asidEntry 0 = some (0x80000000, 0) := by
    have ha : s.bar0.asidbase.toNat + 32 * 0 = 0 := by rw [ha]; rfl
    simp only [State.asidEntry, view, ha, low 0 8 (by decide), low (0 + 8) 8 (by decide), low (0 + 16) 16 (by decide)]
    decide
  have i0 : levelIndex 0 va = 0 := by simp only [levelIndex]; omega
  have i1 : levelIndex 1 va = 0 := by simp only [levelIndex]; omega
  have i2 : levelIndex 2 va = 0 := by simp only [levelIndex]; omega
  have i3 : va / levelSpan 2 = 0 := by simp only [levelSpan]; omega
  have t0 := table 0 (by decide) 0 8 (by decide); have t0' := table 0 (by decide) 8 8 (by decide)
  have t1 := table 1 (by decide) 0 8 (by decide); have t1' := table 1 (by decide) 8 8 (by decide)
  have t2 := table 2 (by decide) 0 8 (by decide); have t2' := table 2 (by decide) 8 8 (by decide)
  have n0 : Memory.num (placed (demo 1) []).mem 0x80000000 8 = 0x80002001 := by decide
  have n0' : Memory.num (placed (demo 1) []).mem 0x80000008 8 = 0 := by decide
  have n1 : Memory.num (placed (demo 1) []).mem 0x80002000 8 = 0x80004001 := by decide
  have n1' : Memory.num (placed (demo 1) []).mem 0x80002008 8 = 0 := by decide
  have n2 : Memory.num (placed (demo 1) []).mem 0x80004000 8 = 0xC00001FB := by decide
  have n2' : Memory.num (placed (demo 1) []).mem 0x80004008 8 = 0 := by decide
  norm_num at t0 t0' t1 t1' t2 t2'
  have m0 : malformedEntry 0 0 (BitVec.ofNat 64 0x80002001) (BitVec.ofNat 64 0) = false := by decide
  have m1 : malformedEntry 0 1 (BitVec.ofNat 64 0x80004001) (BitVec.ofNat 64 0) = false := by decide
  have m2 : malformedEntry 0 2 (BitVec.ofNat 64 0xC00001FB) (BitVec.ofNat 64 0) = false := by decide
  have v0 : (BitVec.ofNat 64 0x80002001).getLsbD 0 ≠ false := by decide
  have v1 : (BitVec.ofNat 64 0x80004001).getLsbD 0 ≠ false := by decide
  have v2 : (BitVec.ofNat 64 0xC00001FB).getLsbD 0 ≠ false := by decide
  have k0 : bits (BitVec.ofNat 64 0x80002001).toNat 2 1 ≠ 1 := by decide
  have k1 : bits (BitVec.ofNat 64 0x80004001).toNat 2 1 ≠ 1 := by decide
  have k2 : bits (BitVec.ofNat 64 0xC00001FB).toNat 2 1 = 1 := by decide
  have f0 : (BitVec.ofNat 64 0x80002001).toNat / 2 ^ 12 % 2 ^ 40 * 4096 = 0x80002000 := by decide
  have f1 : (BitVec.ofNat 64 0x80004001).toNat / 2 ^ 12 % 2 ^ 40 * 4096 = 0x80004000 := by decide
  have dev : s.devnum.toNat = 0 := by rw [hd]; rfl
  have walk0 : walkTables m 0 va 5 0 0x80000000 = .ok demoLeaf := by
    rw [walkTables]
    rw [i0, show 0x80000000 + 16 * 0 = 0x80000000 from rfl, show 0x80000000 + 8 = 0x80000008 from rfl, t0, t0', n0, n0', if_neg v0, m0,
      if_neg Bool.false_ne_true, if_neg k0, f0]
    rw [walkTables]
    rw [i1, show 0x80002000 + 16 * 0 = 0x80002000 from rfl, show 0x80002000 + 8 = 0x80002008 from rfl, t1, t1', n1, n1', if_neg v1, m1,
      if_neg Bool.false_ne_true, if_neg k1, f1]
    rw [walkTables]
    rw [i2, show 0x80004000 + 16 * 0 = 0x80004000 from rfl, show 0x80004000 + 8 = 0x80004008 from rfl, t2, t2', n2, n2', if_neg v2, m2,
      if_neg Bool.false_ne_true, if_pos k2, i3]
    rfl
  have p2 : ∀ fuel, walkPath m 0 va (fuel + 1) 2 0x80004000 = [(2, 0x80004000, 0xC00001FB, 0)] := fun fuel => by
    rw [walkPath]
    rw [i2, show 0x80004000 + 16 * 0 = 0x80004000 from rfl, show 0x80004000 + 8 = 0x80004008 from rfl, t2, t2', n2, n2',
      if_pos (.inr (.inr k2))]
    rfl
  have p1 : ∀ fuel, walkPath m 0 va (fuel + 2) 1 0x80002000 = [(1, 0x80002000, 0x80004001, 0), (2, 0x80004000, 0xC00001FB, 0)] := fun fuel => by
    rw [walkPath]
    rw [i1, show 0x80002000 + 16 * 0 = 0x80002000 from rfl, show 0x80002000 + 8 = 0x80002008 from rfl, t1, t1', n1, n1', m1,
      if_neg (by rintro (h | h | h); exacts [v1 h, Bool.false_ne_true h, k1 h]), f1, p2]
    rfl
  have p0 : walkPath m 0 va 5 0 0x80000000 =
      [(0, 0x80000000, 0x80002001, 0), (1, 0x80002000, 0x80004001, 0), (2, 0x80004000, 0xC00001FB, 0)] := by
    rw [walkPath]
    rw [i0, show 0x80000000 + 16 * 0 = 0x80000000 from rfl, show 0x80000000 + 8 = 0x80000008 from rfl, t0, t0', n0, n0', m0,
      if_neg (by rintro (h | h | h); exacts [v0 h, Bool.false_ne_true h, k0 h]), f0, p1 2]
    rfl
  refine ⟨?_, fun x hx => ?_⟩
  · rw [State.walk, e]
    simpa only [view, dev] using walk0
  · rw [State.tablePath, e] at hx
    simp only [view, dev, p0, List.mem_cons, List.not_mem_nil, or_false] at hx
    rcases hx with rfl | rfl | rfl
    exacts [⟨0, by decide, rfl⟩, ⟨1, by decide, rfl⟩, ⟨2, by decide, rfl⟩]

/-- Bytes above the tables are apart from them. -/
theorem page_apart (s : State) (ha : s.bar0.asidbase = 0) (hd : s.devnum = 0) (hl : s.l1 = []) (hk : s.sectorKeys = [])
    (h : ∀ x ∈ tables, Memory.read s.mem x = Memory.read (placed (demo 1) []).mem x) (va : Nat) (hv : va < 2 ^ 30) (P : Nat → Prop)
    (hP : ∀ x, P x → 0xC0000000 ≤ x) : s.TablesApart 0 va P := by
  refine ⟨fun k hk h => ?_, fun e he k hk' h => ?_⟩
  · have := hP _ h; rw [ha] at this; simp at this; omega
  · obtain ⟨j, hj, e'⟩ := (page_entries s ha hd hl hk (by assumption) va hv).2 e he
    have := hP _ h; omega

/-- The 64 bytes at `va` of that page. -/
theorem areas_piece (alive : Bool) (va : Word) (h : va.toNat % 64 = 0) (hv : va.toNat + 64 ≤ 2 ^ 30) (pa : Nat) (hp : pa = 0xC0000000 + va.toNat) :
    UncachedAt (areas alive) .store va 64 demoLeaf pa := by
  subst hp
  have frame : demoLeaf.frame = 0xC0000000 := by decide
  refine ⟨?_, h, by omega, ⟨?_, .inl rfl, no_tables rfl _ _⟩, rfl, by cases alive <;> decide, by decide, by decide, by decide, by decide, ?_,
    by omega, rfl, ?_, fun e => absurd e (by decide)⟩
  · have b : (areas alive).thr.twin.toNat / 2 ^ 21 * 2 ^ 21 = 0x40000000 := by cases alive <;> decide
    rw [State.windowOff, if_neg]
    rintro ⟨-, low, -⟩
    rw [b] at low
    omega
  · exact (page_entries (areas alive) rfl rfl rfl rfl (fun _ _ => rfl) _ (by omega)).1
  · rw [frame]; show _ = 0xC0000000 + (va.toNat - 0); omega
  · unfold State.linkLost; split <;> rfl

theorem areas_area (alive : Bool) (n : Nat) (hn : n ≤ 14336) :
    AreaAt (areas alive) n (fun k => if k < 12288 then (areas alive).rs 1 + BitVec.ofNat 64 (64 * k) else (areas alive).rs 2 + BitVec.ofNat 64 (64 * (k - 12288)))
      (fun k => if k < 12288 then 0xC0010000 + 64 * k else 0xC0200000 + 64 * (k - 12288)) := by
  have r1 : ((areas alive).rs 1).toNat = 0x10000 := by cases alive <;> decide
  have r2 : ((areas alive).rs 2).toNat = 0x200000 := by cases alive <;> decide
  have at' : ∀ k < n, (if k < 12288 then (areas alive).rs 1 + BitVec.ofNat 64 (64 * k) else (areas alive).rs 2 + BitVec.ofNat 64 (64 * (k - 12288))).toNat =
      if k < 12288 then 0x10000 + 64 * k else 0x200000 + 64 * (k - 12288) := by
    intro k hk
    split
    · rw [BitVec.toNat_add, BitVec.toNat_ofNat, r1]; omega
    · rw [BitVec.toNat_add, BitVec.toNat_ofNat, r2]; omega
  refine ⟨fun j hj k hk e => by dsimp only; split <;> split <;> omega, fun k hk => ⟨⟨demoLeaf, ?_⟩, ?_⟩⟩
  · refine areas_piece alive _ ?_ ?_ _ ?_ <;> rw [at' k hk] <;> (try dsimp only) <;> split <;> omega
  · refine page_apart (areas alive) rfl rfl rfl rfl (fun _ _ => rfl) _ ?_ _ ?_
    · rw [at' k hk]; split <;> omega
    · rintro x ⟨j, hj, h, -⟩; dsimp only at h; split at h <;> omega

theorem witness_ContextWords_save :
    (∀ v, (areas v).Serial ∧ (areas v).Clean [1, 2] ∧ (areas v).thr.status.priv = true ∧ ((areas v).rs 1).toNat % 65536 = 0 ∧
      ((areas v).rs 2).toNat % 65536 = 0 ∧ (areas v).thr.pfx = none ∧ (areas v).thr.nseg ≤ 1) ∧
    (areas false).myGang = some demoGang ∧ (areas false).launchOf demoGang.launch = some demoLaunch ∧ (areas false).ops = [] ∧
    (areas true).MemoryForm ∧ (areas false).MemoryForm ∧ ¬ (∀ u ∈ (areas true).others, u.gang = (areas true).thr.gang → u.live = false) ∧
    (∀ u ∈ (areas false).others, u.gang = (areas false).thr.gang → u.live = false) ∧
    (∀ v, ∀ n ≤ 14336, AreaAt (areas v) n
      (fun k => if k < 12288 then (areas v).rs 1 + BitVec.ofNat 64 (64 * k) else (areas v).rs 2 + BitVec.ofNat 64 (64 * (k - 12288)))
      (fun k => if k < 12288 then 0xC0010000 + 64 * k else 0xC0200000 + 64 * (k - 12288))) ∧ 12288 + 1024 + demoGang.tiles * 64 = 14336 ∧
    (let s : State := { areas false with ops := [{ (demo 1).newOp (.refit 0 0 0) with status := .running }] }
     ∃ o ∈ s.ops, o.gang = s.thr.gang ∧ o.status = .running) ∧
    1 < ({ demoThread 1 with attached := 3 } : Thread).nseg :=
  ⟨by decide, rfl, rfl, rfl, ⟨by decide, by decide, by decide⟩, ⟨by decide, by decide, by decide⟩, by decide, by decide, areas_area, by decide,
    ⟨_, List.mem_singleton.mpr rfl, rfl, rfl⟩, by decide⟩

/-- The gang of `savedState`. -/
def savedTiles : Gang := { demoGang with tileMem := Memory.writeN (Memory.writeN [] 0 (leBytes 8 0x09500001)) threadHandleAt (leBytes 8 9) }

theorem saved_record (off : Nat) (h : off % 64 = 0) (h' : off + 64 ≤ 65536) :
    RecordAt savedState (savedState.rs 1 + BitVec.ofNat 64 off) (tileBytes savedTiles off) := by
  have e : (savedState.rs 1 + BitVec.ofNat 64 off).toNat = 0x40000000 + off := by
    rw [BitVec.toNat_add, BitVec.toNat_ofNat, show (savedState.rs 1).toNat = 0x40000000 by decide]; omega
  exact .inl ⟨savedTiles, off, ⟨rfl, rfl, e, h', by rw [e]; omega, by simp [savedTiles, demoGang]⟩, by simp [savedTiles, demoGang], rfl⟩

theorem witness_ContextWords_restore :
    savedState.Serial ∧ savedState.Clean [1] ∧ savedState.thr.status.priv = true ∧ (savedState.rs 1).toNat % 65536 = 0 ∧
    (∀ k < 80, RecordAt savedState (savedState.rs 1 + BitVec.ofNat 64 (64 * k)) (tileBytes savedTiles (64 * k))) ∧
    RecordAt savedState (savedState.rs 1 + BitVec.ofNat 64 threadHandleAt) (tileBytes savedTiles threadHandleAt) ∧
    fieldAt (tileBytes savedTiles 0) 0 8 = 0x09500001 ∧ fieldAt (tileBytes savedTiles 64) 0 8 ≠ 0x09500001 ∧
    assoc savedState.images (fieldAt (tileBytes savedTiles threadHandleAt) 0 8) = some (demoThread 1) ∧ savedState.myGang = some savedTiles ∧
    savedTiles.restored = true ∧ savedState.ops = [] ∧ ({ demoThread 1 with vcap := 32 } : Thread).vcap.toNat ≤ savedState.thr.grant ∧
    savedState.thr.grant < savedState.thr.vcap.toNat := by
  refine ⟨by decide, by decide, by decide, by decide, fun k h => saved_record _ (by omega) (by omega), saved_record _ (by decide) (by decide),
    by decide +kernel, by decide +kernel, ?_, rfl, rfl, rfl, by decide, by decide⟩
  rw [show fieldAt (tileBytes savedTiles threadHandleAt) 0 8 = 9 by decide +kernel]
  rfl
/-! ## Events -/

theorem someD_eq {α : Type} {x : Option α} (d : α) (h : x.isSome = true) : x = some (x.getD d) := by
  cases x with
  | some u => rfl
  | none => exact absurd h (by simp)

/-- A state whose memory holds those tables and which is otherwise empty, for a unit that passes the L1s by. -/
def OnPage (s : State) : Prop :=
  s.bar0.asidbase = 0 ∧ s.devnum = 0 ∧ s.tlb = [] ∧ s.l1 = [] ∧ s.linksDown = [] ∧ s.poison = [] ∧ s.sectorKeys = [] ∧ s.tables = [] ∧
    ∀ x ∈ tables, Memory.read s.mem x = Memory.read (placed (demo 1) []).mem x

theorem page_unit {s : State} (h : OnPage s) {user : Bool} (u : Use) (hu : demoLeaf.permits u user = true) (va n : Nat) (h0 : 0 < n)
    (h1 : va % 64 + n ≤ 64) (h2 : va + n ≤ 2 ^ 30) : UncachedUnit s 0 user u va n demoLeaf (0xC0000000 + va) := by
  obtain ⟨ha, hd, ht, hl, hk, hp, hs, hn, hm⟩ := h
  have dev : s.devnum.toNat = 0 := by rw [hd]; rfl
  have frame : demoLeaf.frame = 0xC0000000 := by decide
  have home : demoLeaf.home = 0 := by decide
  have plain : ¬ cmpBase ≤ 0xC0000000 + va := by unfold cmpBase; omega
  have lost : s.linkLost (0xC0000000 + va) = false := by
    unfold State.linkLost; split
    · rw [hk]; rfl
    · rfl
  refine ⟨h0, h1, by omega, ht, hl, no_tables hn _ _, (page_entries s ha hd hl hs hm va (by omega)).1, hu, by decide, by decide, by decide, by decide, ?_, by omega, lost, fun _ => ?_⟩
  · rw [State.physKey, home, dev, if_pos rfl, frame]; show 0xC0000000 + va = 0xC0000000 + (va - 0); omega
  · unfold State.poisoned
    rw [lost, Bool.or_false, List.any_eq_false]
    intro x hx
    rw [State.units, if_neg plain] at hx
    obtain ⟨k, hk, rfl⟩ := List.mem_map.mp hx
    have hk := List.mem_range.mp hk
    have low : ¬ poolBase ≤ ((0xC0000000 + va) / 64 + k) * 64 := by unfold poolBase; omega
    simp [hp, State.uncovered, low]

theorem page_bytes {s : State} (h : OnPage s) (o : EngineOp) (u : Use) (va n pa : Nat) (ha : o.asid = 0) (hu : demoLeaf.permits u o.user = true)
    (hv : va + n ≤ 2 ^ 30) (hp : pa = 0xC0000000 + va) : UnitBytes s o u va n pa := by
  intro k hk
  refine ⟨demoLeaf, ?_⟩
  rw [ha, hp, Nat.add_assoc]
  exact page_unit h u hu (va + k) 1 (by decide) (by omega) (by omega)

theorem page_node {s : State} (h : OnPage s) (o : EngineOp) (t : Tree) (n np ep : Nat) (ha : o.asid = 0) (hu : demoLeaf.permits .load o.user = true)
    (e : np = 0xC0000000 + t.nodeAt n ∧ ep = 0xC0000000 + t.envAt n ∧ t.nodeAt n + 1024 ≤ 2 ^ 30 ∧ t.envAt n + (16 + 4 * t.d + 4 * t.dv) ≤ 2 ^ 30) :
    NodeBytes s o t n np ep :=
  ⟨page_bytes h o .load _ _ _ ha hu (by omega) e.1, page_bytes h o .load _ _ _ ha hu (by omega) (by omega), page_bytes h o .load _ _ _ ha hu e.2.2.2 e.2.1⟩

/-- The thread waiting at word `i`, its watch of the window's first block prompted or not. -/
def atWait (s : State) (i : Instr) (prompted : Bool) : State :=
  { s with thr := { s.thr with phase := .waiting i }, watches := [⟨s.thr.tid, some 1, 0, prompted⟩] }

/-- Code 18 and code 17 pending. -/
def pending : State := { demo 1 with thr := { demoThread 1 with pend18 := some 3, pend17 := some 1 } }

theorem witness_ThreadEvents :
    (demo 1).arg.who < 4 ∧ pending.thr.pfx = none ∧ pending.thr.status.ae = true ∧ pending.thr.phase = .running ∧
    pending.thr.pend18 = some 3 ∧ ({ pending.thr with pend18 := none } : Thread).pend17 = some 1 ∧ pending.thr.nseg ≤ 1 ∧
    (∀ u ∈ pending.gangThreads pending.thr.gang, u.npOpen = false) ∧ isBlockedWait (.bget 2 3 4) = true ∧
    (arrived (demo 1) { nums := [1] }).arg.nums = [1] ∧ (demo 1).gangOf 1 = some demoGang ∧ (demo 1).launchOf demoGang.launch = none ∧
    demoGang.phase = .resident ∧ (∃ u ∈ (demo 1).gangThreads 1, u.preemptible = true) ∧
    (∀ u ∈ (demo 1).gangThreads 1, u.preemptible = true → u.tvec ≠ 0) ∧
    (let s : State := { demo 1 with thr := { demoThread 1 with tvec := 0 } }
     ∃ u ∈ s.gangThreads 1, u.preemptible = true ∧ u.tvec = 0) ∧
    (let s : State := { demo 1 with thr := { demoThread 1 with npOpen := true }, arg := { who := 1 } }
     ∃ u ∈ s.threads, u.tid = s.arg.who ∧ s.unended u = true ∧ u.npOpen = true) ∧
    (let s := arrived (demo 1) { who := 1, num := 256, nums := [1, 1, 1, 1] }
     s.threads.find? (fun t => decide (t.tid = s.arg.who) && t.live) = some s.thr ∧ 256 ≤ s.arg.num ∧ 4 ≤ s.arg.nums.count s.thr.tid ∧
       s.arg.nums.length < 96) ∧
    decode 0x04304120 = .error (.reserved (.clz 3 1)) ∧ (∀ i, decode 0 ≠ .error (.reserved i)) ∧
    (0x1002 : Word).toNat % 4 ≠ 0 ∧ 2 ^ 56 ≤ (0x100000000000000 : Word).toNat :=
  ⟨by decide, rfl, rfl, rfl, rfl, rfl, by decide, by decide, rfl, rfl, rfl, rfl, rfl, ⟨_, List.mem_singleton.mpr rfl, by decide⟩, by decide,
    ⟨_, List.mem_singleton.mpr rfl, by decide, rfl⟩, ⟨_, List.mem_singleton.mpr rfl, rfl, by decide, rfl⟩, ⟨rfl, by decide, by decide, by decide⟩,
    rfl, fun i h => by rw [show decode 0 = .error .illegal from rfl] at h; exact absurd (Except.error.inj h) (by simp), by decide, by decide⟩

theorem witness_ThreadEvents_waits :
    (demo 1).MemoryForm ∧
    (∀ b, (atWait (demo 1) (.waitev 3 1 2) b).Serial ∧ (atWait (demo 1) (.waitev 3 1 2) b).Clean [3, 1, 2] ∧
      (atWait (demo 1) (.waitev 3 1 2) b).myGang = some demoGang) ∧
    (∀ w ∈ (atWait (demo 1) (.waitev 3 1 2) true).watches, w.tid = (demo 1).thr.tid → w.prompted = true) ∧
    (∃ w, (atWait (demo 1) (.waitev 3 1 2) false).watches.find? (fun w => decide (w.tid = (demo 1).thr.tid)) = some w ∧ w.prompted = false) ∧
    WindowAt (demo 1) 0x40000000 8 demoGang 0 ∧
    BitVec.ofNat 64 (Memory.num demoGang.tileMem 0 8) ≠ (demo 1).rs 2 ∧ ((demo 1).rs 2).toNat ≤ (BitVec.ofNat 64 (Memory.num demoGang.tileMem 0 8)).toNat ∧
    ((demo 1).rs 1).toNat < 2 ^ 59 ∧ ((demo 1).rs 1).setWidth 56 ≠ 0#56 ∧
    ((demo 1).rs 2).toNat < demoGang.tiles ∧ (demo 1).rs 0 = 0 ∧ demoGang.inBuffer 4 = false ∧ (demo 1).tileNamed demoGang.gid 4 = false ∧
    ringGang.buf (ringed.rs 2).toNat = some heldRing ∧ (ringed.rs 6).toNat < 2 ^ 7 ∧ 1 ≤ (ringed.rs 6).toNat ∧ (ringed.rs 6).toNat ≤ heldRing.filled ∧
    (ringed.rs 6).toNat ≤ heldRing.slots ∧ heldRing.cside = false ∧ (∀ w ∈ heldRing.waiters, w.produce = false → w.tid = ringed.thr.tid) :=
  ⟨demo_form 1, fun b => by cases b <;> exact ⟨by decide, by decide, rfl⟩, by decide, ⟨_, rfl, rfl⟩, demo_window 1 8 (by decide), by decide, by decide,
    by decide, by decide, by decide, rfl, by decide, by decide, rfl, by decide, by decide, by decide, by decide, rfl, by decide⟩

/-- Queue 0 with that launch at its head. -/
def demoQueue (eligible : Bool) : QueueState :=
  { q := 0, head := 0, tail := 1, primed := true, launch := some 1, eligible := eligible, age := 0, children := [], known := [] }

/-- The device with the queue table at 0x40000: queue 0 of 64 records at 0x41000, enabled. -/
def serving (x : QueueState) : State :=
  { State.reset with
    queues := [x], launches := [demoLaunch], bar0 := { State.reset.bar0 with qtbase := 0x40000 }
    mem := Memory.writeN (placed (demo 1) []).mem 0x40000 (leBytes 8 0x41000 ++ [6, 1]), nextId := 9 }

theorem serving_page : OnPage (serving (demoQueue false)) := ⟨rfl, rfl, rfl, rfl, rfl, rfl, rfl, rfl, by decide +kernel⟩
theorem serving_chooses : (serving (demoQueue true)).choose.isSome = true := by decide +kernel

theorem witness_FrontEndEvents_doorbell :
    (let s := arrived (serving (demoQueue false)) { who := 0, bytes := leBytes 4 1 ++ List.replicate 60 0 }
     let e := s.bar0.qtbase.toNat
     s.Plain ∧ s.arg.who < 16384 ∧ s.bar0.ready = true ∧ backed e 32 = true ∧ s.arg.bytes.length = 64 ∧ s.physNum (e + 9) 1 % 2 = 1 ∧
       s.physNum (e + 10) 1 = 0 ∧ s.queueOf 0 = demoQueue false ∧ (∀ c ∈ s.arg.bytes.drop 4, c = 0) ∧ fieldAt s.arg.bytes 0 4 < 2 ^ s.physNum (e + 8) 1 ∧
       s.entryOk 0 = true ∧ (demoQueue false).head < 2 ^ s.physNum (e + 8) 1 ∧ backed (s.physNum e 8) (64 * 2 ^ s.physNum (e + 8) 1) = true ∧
       e + 32 ≤ bondedEnd ∧ s.l1 = []) ∧
    (let s := arrived (serving { demoQueue false with primed := false, launch := none }) { who := 0, bytes := List.replicate 64 0 }
     (s.queueOf 0).primed = false ∧ (s.queueOf 0).launch = none ∧ s.entryOk 0 = true ∧
       s.physNum (s.bar0.qtbase.toNat + 12) 4 = fieldAt s.arg.bytes 0 4) ∧
    ¬ (∀ c ∈ (List.replicate 64 (1 : Byte)).drop 4, c = 0) := by
  refine ⟨⟨rfl, ?_⟩, ?_, by decide⟩ <;> decide +kernel

theorem witness_FrontEndEvents :
    (demoQueue false).launch = some 1 ∧ (serving (demoQueue false)).launchOf 1 = some demoLaunch ∧
    (demoQueue false).eligible = false ∧ (serving (demoQueue false)).depParked 0 = false ∧
    UncachedUnit (serving (demoQueue false)) 0 false .load demoLaunch.depAddr 8 demoLeaf 0xC0002000 ∧
    (let n := Memory.num (serving (demoQueue false)).mem 0xC0002000 8
     demoLaunch.depTgt ≤ n ∧ n < ({ demoLaunch with record := demoLaunch.record.take 40 ++ leBytes 8 5 } : Launch).depTgt) ∧
    (∃ h ∈ (serving (demoQueue true)).heads, h.q = 0) ∧
    (∃ p : Head × List Nat, (serving (demoQueue true)).choose = some p ∧ ((serving (demoQueue true)).queueOf p.1.q).launch = some 1 ∧
      demoLaunch.admitted + p.2.length < demoLaunch.total) ∧
    (let s : State := { demo 1 with thr := { demoThread 1 with phase := .ended }, arg := { who := 1 }, launches := [demoLaunch] }
     s.gangOf s.arg.who = some demoGang ∧ demoGang.phase = .resident ∧ (∀ u ∈ s.gangThreads demoGang.gid, u.phase = .ended) ∧
       s.gangOps demoGang.gid = [] ∧ s.launchOf demoGang.launch = some demoLaunch ∧ demoLaunch.ended + 1 < demoLaunch.total ∧ demoGang.fault = none) := by
  refine ⟨rfl, rfl, rfl, rfl, page_unit serving_page .load (by decide) 0x2000 8 (by decide) (by decide) (by decide), by decide +kernel, by decide +kernel,
    ⟨_, someD_eq (⟨0, 0, false, false, [], 0, []⟩, []) serving_chooses, by decide +kernel, by decide +kernel⟩,
    ⟨rfl, rfl, by decide, rfl, rfl, by decide, rfl⟩⟩

/-- A saved gang of that launch, and its header (of format `f`) and its thread's area in memory at 0x10000 and 0x20000. -/
def savedGang : Gang := { demoGang with phase := .saved, tareas := [(0, 0x20000)] }
def resuming (f : Nat) : State :=
  { State.reset with
    gangs := [savedGang], launches := [demoLaunch], thr := { demoThread 1 with phase := .saved }, arg := { value := 0x10000 }
    mem := Memory.writeN (Memory.writeN (placed (demo 1) []).mem 0xC0010000 (leBytes 8 f ++ leBytes 8 (1 + 16 * 2 ^ 32) ++ leBytes 8 1))
      0xC0020010 (leBytes 8 0x1004) }

/-- The gang waiting to be readmitted. -/
def waitingGang : Gang := { savedGang with phase := .readmit, lanes := 16 }
def readmitting : State := { resuming 0x09500001 with gangs := [waitingGang] }

theorem resuming_page (f : Nat) (h : f ∈ [0x09500001, 0]) : OnPage (resuming f) := by
  have : f = 0x09500001 ∨ f = 0 := by simpa using h
  rcases this with rfl | rfl <;> exact ⟨rfl, rfl, rfl, rfl, rfl, rfl, rfl, rfl, by decide +kernel⟩
theorem readmitting_chooses : readmitting.choose.isSome = true := by decide +kernel

theorem witness_DamperAndReadmission :
    (demo 1).arg.flags = [] ∧
    (let s : State := { demo 1 with gangs := [{ demoGang with migrate := some 0 }], ewin := 8, arg := { who := 1 } }
     s.gangOf s.arg.who = some { demoGang with migrate := some 0 } ∧ 0 + 8 ≤ s.ewin.toNat) ∧
    (∀ f, (resuming f).Plain ∧ (resuming f).bar0.ready = true ∧ (resuming f).arg.value.toNat < 2 ^ 56 ∧ (resuming f).arg.value.toNat / 1024 % 64 = 0 ∧
      (resuming f).launchOf savedGang.launch = some demoLaunch ∧ (resuming f).gangOf savedGang.gid = some savedGang) ∧
    (State.reset.tlb = [] ∧ State.reset.TablesCurrent 0 0x10000 ∧ ∃ e, State.reset.walk 0 0x10000 = .error e) ∧
    (∀ f ∈ [0x09500001, 0], UncachedUnit (resuming f) 0 false .load 0x10000 64 demoLeaf 0xC0010000 ∧
      UncachedUnit (resuming f) 0 false .load 0x10040 64 demoLeaf 0xC0010040 ∧
      (let field := fun o n => Memory.num (resuming f).mem (0xC0010000 + o) n
       (resuming f).gangs.find? (fun g =>
          decide (g.phase = .saved) && decide (g.launch = field 0x10 8) && decide (g.gindex = field 0x20 8)) = some savedGang ∧
        field 0 8 = f ∧ field 0x18 8 = demoLaunch.linfo ∧ field 0xC 1 = 16)) ∧
    (∃ p : Head × List Nat, readmitting.choose = some p ∧ p.2.length = 1 ∧ p.1.q = resumeBase + 1) ∧
    readmitting.gangOf 1 = some waitingGang ∧ demoLaunch.cohort = false ∧
    (∀ u ∈ readmitting.gangThreads 1, u.phase = .saved →
      UncachedUnit readmitting 0 false .load (((assoc waitingGang.tareas u.index).getD 0).toNat + 0x10) 8 demoLeaf 0xC0020010) := by
  refine ⟨rfl, ⟨rfl, by decide⟩, fun f => ⟨rfl, rfl, (by decide : (0x10000 : Word).toNat < 2 ^ 56), (by decide : (0x10000 : Word).toNat / 1024 % 64 = 0), rfl, rfl⟩,
    ⟨rfl, no_tables rfl _ _, (1, 0), by decide⟩, ?_, ⟨_, someD_eq (⟨0, 0, false, false, [], 0, []⟩, []) readmitting_chooses, by decide +kernel, by decide +kernel⟩, rfl, by decide, ?_⟩
  · intro f h
    have : f = 0x09500001 ∨ f = 0 := by simpa using h
    rcases this with rfl | rfl <;> exact
      ⟨page_unit (resuming_page _ (by decide)) .load (by decide) 0x10000 64 (by decide) (by decide) (by decide),
        page_unit (resuming_page _ (by decide)) .load (by decide) 0x10040 64 (by decide) (by decide) (by decide), by decide +kernel⟩
  · intro u h _
    obtain rfl := List.mem_singleton.mp h
    exact page_unit (s := readmitting) (resuming_page 0x09500001 (by decide)) .load (by decide) 0x20010 8 (by decide) (by decide) (by decide)

/-- The device whose L1 holds that line. -/
def cachedState (treat : Nat) (a : EventArg) : State := { demo 1 with l1 := [demoLine treat 0x8000], arg := a }

/-- A reservation of the thread for the range of that line. -/
def demoRequest : RangeReq :=
  { home := 0, range := ⟨0x8000, 128, 1, 128⟩, hearth := 0, excl := true, thread := 1, value := 0, first := 0, refusals := 4, starving := true
    reserved := true }
def reserving : State := { demo 1 with requests := [demoRequest], arg := { who := 1 } }

/-- The page of `demoLeaf`, at 0x1000 for the event, under the host's bias or the device's. -/
def biased (host : Bool) : State :=
  { arrived (placed (demo 1) []) { addr := 0x1000 } with
    mem := Memory.writeN (placed (demo 1) []).mem 0x80004008 (leBytes 8 (if host then 4 else 0)) }

theorem witness_CopiesAndTheHost :
    (demo 1).MemoryForm ∧ (demo 1).Plain ∧
    reserving.requests.find? (fun q => decide (q.thread = reserving.arg.who) && q.reserved) = some demoRequest ∧
    (∀ m ∈ reserving.moving, m.1 = demoRequest.home → m.2.overlaps demoRequest.range = false) ∧
    (∀ l ∈ (cachedState 0 { who := 1 }).l1, l.hearth = 1 → l.dirty = 0) ∧
    (let l := demoLine 2 0x8000
     let s := cachedState 2 { who := 0, addr := 0x8045 }
     s.l1 = [l] ∧ l.slot = 0 ∧ l.col = false ∧ l.gone = 0 ∧ l.pa + 128 ≤ bondedEnd ∧ l.hearth = s.arg.who ∧ l.treat ≠ 1 ∧ l.pa % 128 = 0 ∧
       s.arg.addr / 64 * 64 = l.pa + 64 * 1) ∧
    (let s := cachedState 0 { who := 0, addr := 0x8000 }
     (demoLine 0 0x8000).id = s.arg.line ∧ s.MemoryForm ∧ s.Plain) ∧
    (∀ l ∈ (cachedState 1 {}).l1, l.treat = 1) ∧ (0x8010 + [(1 : Byte), 2].length ≤ bondedEnd) ∧ (leBytes 8 9).length = 8 ∧
    (∀ h, (biased h).Plain ∧ (biased h).MemoryForm ∧ (biased h).asidEntry 0 = some (0x80000000, 0) ∧
      leafAddr (biased h).view 0x1000 5 0 0x80000000 = some 0x80004000 ∧
      (biased h).walk 0 0x1000 = .ok { demoLeaf with w1 := if h then 4 else 0 } ∧ (biased h).l1 = []) ∧
    (∀ h, ({ demoLeaf with w1 := if h = true then 4 else 0 } : Leaf).bias = h) ∧ demoLeaf.frame < bondedEnd ∧ 0x80004000 + 16 ≤ bondedEnd := by
  refine ⟨demo_form 1, rfl, rfl, by decide, by decide, ⟨rfl, rfl, rfl, rfl, by decide, rfl, by decide, by decide, by decide⟩,
    ⟨by decide, ⟨by decide, by decide, by decide⟩, rfl⟩, by decide, by decide, by decide, ?_, by decide, by decide, by decide⟩
  intro h
  cases h <;> exact ⟨rfl, ⟨by decide, by decide, by decide⟩, by decide, by decide, by decide, rfl⟩

/-- One flue operation of 48 bytes from 0x2000 to 0x3000, its counter at 0x4000, on uncached pages. -/
def demoDesc : FlueDesc := { FlueDesc.reset with cfg := true, cfgD := 0x2000, cfgA := 0x3000, cfgB := 47 }
def demoOp (st : OpStatus) : EngineOp :=
  { (demo 1).newOp (.flue 2 demoDesc 0x4000 77) with id := 7, status := st }
def engaged (st : OpStatus) : State := { placed (demo 1) [] with ops := [demoOp st], arg := { who := 7 } }
def finished : State := { placed (demo 1) [] with ops := [{ demoOp .running with copy := 1 }], arg := { who := 7 } }
def parkedHere : OpStatus := .parked 8 0x1234 true false false

/-- One that draws from buffer 4, an engine-side ring with a full slot. -/
def drawDesc : FlueDesc := { demoDesc with cfgD := 4 * 2 ^ 56, cfgB := 47 + 2 * 4096 }
def drawOp : EngineOp := { (demo 1).newOp (.flue 2 drawDesc 0x4000 77) with id := 7, status := .queued }
def drawing (filled : Nat) : State :=
  { placed (demo 1) [] with
    gangs := [{ demoGang with buffers := [(4, { ringOf (0x10000 + 4) 2 with filled := filled })] }], ops := [drawOp], arg := { who := 7 } }

theorem engaged_page (st : OpStatus) : OnPage (engaged st) := ⟨rfl, rfl, rfl, rfl, rfl, rfl, rfl, rfl, fun _ _ => rfl⟩
theorem witness_EngineEvents_fire :
    (engaged .queued).MemoryForm ∧ (engaged .queued).Plain ∧ (engaged .queued).opOf 7 = some (demoOp .queued) ∧ (demoOp .queued).id = 7 ∧
    (engaged .queued).mayAct (demoOp .queued) ((engaged .queued).oldestFlue (demoOp .queued) 2) = true ∧
    demoDesc.ssp = 0 ∧ demoDesc.dsp = 0 ∧ demoDesc.xf = 0 ∧ demoDesc.blk = none ∧ demoDesc.copies = 1 ∧ (demoOp .queued).copy = 0 ∧
    (demoOp .queued).piece = 0 ∧ (demoOp .queued).ahead = [] ∧ (demoOp .queued).olds = [] ∧ (demoOp .queued).passes = [] ∧
    demoDesc.base false = 0x2000 ∧ demoDesc.base true = 0x3000 ∧ demoDesc.size = 48 ∧
    UncachedUnit (engaged .queued) 0 false .load 0x2000 48 demoLeaf 0xC0002000 ∧
    UncachedUnit (engaged .queued) 0 false .store 0x3000 48 demoLeaf 0xC0003000 ∧ (demoOp .queued).asid = 0 ∧ (demoOp .queued).user = false ∧
    (∀ n ∈ [0, 1], (drawing n).opOf 7 = some drawOp ∧ (drawing n).mayAct drawOp ((drawing n).oldestFlue drawOp 2) = true ∧
      (∀ p ∈ (drawing n).ops, p.gang = drawOp.gang → drawOp.id ≤ p.id) ∧
      (((drawing n).gangOf drawOp.gang).bind (fun g => g.buf (drawDesc.bufNo false))).map (·.filled) = some n) ∧
    drawDesc.ssp = 2 ∧ drawDesc.dsp ≠ 2 ∧ drawOp.passes = [] ∧ drawOp.copy < drawDesc.copies := by
  refine ⟨⟨by decide, by decide, by decide⟩, rfl, rfl, rfl, by decide, by decide, by decide, by decide, rfl, by decide, rfl, rfl, rfl, rfl, rfl, by decide,
    by decide, by decide, page_unit (engaged_page _) .load (by decide) 0x2000 48 (by decide) (by decide) (by decide),
    page_unit (engaged_page _) .store (by decide) 0x3000 48 (by decide) (by decide) (by decide), rfl, rfl, by decide, by decide, by decide, rfl, by decide⟩

theorem witness_EngineEvents :
    (let s : State := { engaged parkedHere with bar0 := { State.reset.bar0 with frbase := 0x200000, frsize := 64, frtail := 65, frhead := 5 } }
     (∀ p ∈ s.ops, p.source = (demoOp parkedHere).source → (demoOp parkedHere).parkSeq ≤ p.parkSeq) ∧ 64 ≤ s.bar0.frsize.toNat ∧
       s.bar0.frsize.toNat ≤ 2 ^ 20 ∧ (s.bar0.frtail - s.bar0.frhead).toNat ≠ s.bar0.frsize.toNat ∧
       s.bar0.frbase.toNat + 32 * (s.bar0.frtail.toNat % s.bar0.frsize.toNat) + 32 ≤ bondedEnd) ∧
    (let o : EngineOp := { demoOp .running with copy := 1 }
     finished.opOf 7 = some o ∧ o.workDone = true ∧ o.passes = [] ∧ counterAddr o.kind.completion.1 = 0x4000 ∧
       UncachedUnit finished 0 false .atomic 0x4000 8 demoLeaf 0xC0004000) ∧
    counterAddr (({ (demo 1).newOp (.flue 2 demoDesc 0 0) with copy := 1 } : EngineOp).kind.completion.1) = 0 ∧
    (let s : State := { engaged .running with gangs := [{ demoGang with saving := true }] }
     s.gangOf (demoOp .running).gang = some { demoGang with saving := true }) ∧
    (engaged parkedHere).bar0.ready = true ∧ (engaged parkedHere).opOf 7 = some (demoOp parkedHere) ∧
    (∃ k, ({ demoOp parkedHere with kind := .indexed 1 } : EngineOp).kind = .indexed k) ∧
    (∃ v : Word, 2 ^ 63 ≤ v.toNat ∧ v.toNat - 2 ^ 63 = 7) := by
  refine ⟨⟨?_, by decide, by decide, by decide, by decide⟩, ⟨rfl, by decide, rfl, by decide,
    page_unit (s := finished) ⟨rfl, rfl, rfl, rfl, rfl, rfl, rfl, rfl, fun _ _ => rfl⟩ .atomic (by decide) 0x4000 8 (by decide) (by decide) (by decide)⟩, by decide, rfl,
    rfl, rfl, ⟨1, rfl⟩, ⟨0x8000000000000007, by decide, by decide⟩⟩
  intro p h _; obtain rfl := List.mem_singleton.mp h; exact Nat.le_refl _

/-- A tree of one dimension at 0x2000: an interior node 0 over the leaf 1, both wide, a small leaf 2, an empty node 3; and the same from
node 1 on at 0x2040, and so but FULL at 0x2080. -/
def treeMem : List Host.Cell :=
  let desc := fun (root flags : Nat) => leBytes 8 0x10000 ++ leBytes 4 4 ++ leBytes 4 root ++ leBytes 8 0x3000 ++ leBytes 8 0x30000 ++ leBytes 8 0 ++
    leBytes 2 1 ++ leBytes 2 0 ++ leBytes 2 4 ++ leBytes 2 4 ++ leBytes 4 4 ++ leBytes 4 0 ++ leBytes 8 flags
  let put := fun (m : List Host.Cell) (p : Nat × List Byte) => Memory.writeN m (0xC0000000 + p.1) p.2
  let wide := leBytes 8 1 ++ leBytes 4 0x3F800000
  [(0x2000, desc 0 0), (0x2040, desc 1 0), (0x2080, desc 1 1), (0x3000, wide), (0x3040, wide), (0x3080, leBytes 8 1),
    (0x10000, leBytes 4 1 ++ leBytes 4 1), (0x10040, leBytes 4 1), (0x10400, leBytes 4 2 ++ leBytes 4 1),
    (0x10800, leBytes 4 2 ++ leBytes 4 1)].foldl put (placed (demo 1) []).mem

/-- A gang with engine-side buffer 8 in tile 8. -/
def walkGang : Gang := { demoGang with buffers := [(8, ringOf 8 3)], owners := [8] }

/-- An operation of that gang, alone. -/
def alone (k : OpKind) : State :=
  { demo 1 with gangs := [walkGang], mem := treeMem, arg := { who := 7 }, ops := [{ (demo 1).newOp k with id := 7 }] }
def theOp (s : State) : EngineOp := s.ops.headD (s.newOp (.refit 0 0 0))

/-- A walk that stands before the nodes `st`. -/
def walking (st : List (Nat × Nat)) : State :=
  let s := alone (.walk 4 8 0x2000 [0] 0x3F000000 false)
  { s with ops := [{ theOp s with passes := [(0, none, some 0)], piece := 1, stack := st }] }

theorem tree_page (s : State) (hm : s.mem = treeMem) (ha : s.bar0.asidbase = 0) (hd : s.devnum = 0) (ht : s.tlb = []) (hl : s.l1 = [])
    (hk : s.linksDown = []) (hp : s.poison = []) (hs : s.sectorKeys = []) (hn : s.tables = []) : OnPage s :=
  ⟨ha, hd, ht, hl, hk, hp, hs, hn, by rw [hm]; decide +kernel⟩

/-- What the walk finds at node `n` of the tree at 0x2000: its envelope's count, whether it opens to it, and its kind. -/
def found (n : Nat) : Nat × Bool × Nat :=
  let s := walking []
  let t := treeOf (Memory.readN s.mem 0xC0002000 64)
  let e := envAt s t (0xC0003000 + 64 * n)
  (e.cnt, opens false 0x3F000000 [0] e, Memory.num s.mem (0xC0010000 + 1024 * n) 4)

theorem walk_nodes : ∀ n < 4, NodeBytes (walking []) (theOp (walking [])) (treeOf (Memory.readN (walking []).mem 0xC0002000 64)) n
    (0xC0010000 + 1024 * n) (0xC0003000 + 64 * n) := by
  intro n h
  have : n = 0 ∨ n = 1 ∨ n = 2 ∨ n = 3 := by omega
  rcases this with rfl | rfl | rfl | rfl <;>
    exact page_node (tree_page _ rfl rfl rfl rfl rfl rfl rfl rfl rfl) _ _ _ _ _ rfl (by decide) (by decide +kernel)

theorem witness_TreeAndCollectiveEvents_walk :
    (walking []).MemoryForm ∧ (walking []).Plain ∧
    (walking []).opOf 7 = some (theOp (walking [])) ∧ (walking []).walkerTurn (theOp (walking [])) = true ∧
    (walking []).gangOf 1 = some walkGang ∧ walkGang.buf 8 = some (ringOf 8 3) ∧ (theOp (walking [])).passes = [(0, none, some 0)] ∧
    UnitBytes (walking []) (theOp (walking [])) .load 0x2000 64 0xC0002000 ∧
    (8 + 0 * 1) * 4096 + 16 * 0 + 16 ≤ walkGang.tiles * 4096 ∧ ((8 + 0 * 1) * 4096 + 16 * 0) / 4096 ∈ walkGang.owners ∧
    (∀ n < 4, (walking [(n, 0)]).nodeLocked 0 0x2000 n = false) ∧
    (∀ n < 4, NodeBytes (walking []) (theOp (walking [])) (treeOf (Memory.readN (walking []).mem 0xC0002000 64)) n
      (0xC0010000 + 1024 * n) (0xC0003000 + 64 * n)) ∧
    found 0 = (1, false, 1) ∧ found 1 = (1, false, 2) ∧ (found 2).1 = 1 ∧ (found 2).2.1 = true ∧ (found 3).1 = 0 ∧
    (let o := { theOp (walking []) with kind := .append 4 0x2000 5 0, id := 6, stack := [(0, 4)] }
     ({ walking [(0, 0)] with ops := o :: (walking [(0, 0)]).ops } : State).nodeLocked 0 0x2000 0 = true) :=
  ⟨⟨by decide +kernel, by decide, by decide⟩, rfl, rfl, by decide, rfl, rfl, rfl, page_bytes (tree_page _ rfl rfl rfl rfl rfl rfl rfl rfl rfl) _ _ 0x2000 _ _ rfl (by decide) (by decide) (by decide), by decide, by decide, by decide,
    walk_nodes, by decide +kernel, by decide +kernel, by decide +kernel, by decide +kernel, by decide +kernel, by decide⟩

/-- An append, one to a FULL tree, and one that has an update of leaf 1 to make. -/
def appending (desc : Nat) : State := alone (.append 4 desc 5 0)
def updating : State := { appending 0x2040 with ops := [{ theOp (appending 0x2040) with piece := 1, stack := [(1, 4)], olds := names 0x3040 (leBytes 4 2) }] }
def refitting : State := alone (.refit 4 0x2040 8)

/-- Bytes of the page at the addresses `xs`, for an operation of ASID 0. -/
theorem page_area {s : State} (h : OnPage s) (o : EngineOp) (ha : o.asid = 0) (hu : demoLeaf.permits .store o.user = true) (xs : List Nat)
    (hx : ∀ x ∈ xs, x < 2 ^ 30) (hn : xs.Nodup) : UnitArea s o xs (fun x => 0xC0000000 + x) := by
  refine ⟨hn.map (fun a b h => by simpa using h), fun x hxs => ⟨⟨demoLeaf, ?_⟩, ?_⟩⟩
  · rw [ha]
    exact page_unit h .store hu x 1 (by decide) (by omega) (hx x hxs)
  · rw [ha]
    obtain ⟨ha, hd, -, hl, -, -, hs, -, hm⟩ := h
    refine page_apart s ha hd hl hs hm x (hx x hxs) _ fun z hz => ?_
    obtain ⟨y, -, rfl⟩ := List.mem_map.mp hz
    exact Nat.le_add_right _ _

/-- The cells that a refit of the leaf 1, of key 0, writes. -/
def refitCells : List Nat :=
  (List.range 1024).map (0x10000 + ·) ++ (List.range 64).map (0x3000 + ·) ++ (List.range 4).map (0x204C + ·) ++ (List.range 16).map (0x2070 + ·)

theorem refitCells_apart : refitCells.Nodup ∧ ∀ x ∈ refitCells, x < 2 ^ 30 := by
  have run : ∀ a n, ((List.range n).map (a + ·)).Nodup := fun a n => List.nodup_range.map (fun x y h => by simpa using h)
  constructor
  · refine List.nodup_append.mpr ⟨List.nodup_append.mpr ⟨List.nodup_append.mpr ⟨run _ _, run _ _, ?_⟩, run _ _, ?_⟩, run _ _, ?_⟩ <;>
      (intro x hx y hy; simp only [List.mem_append, List.mem_map, List.mem_range] at hx hy; omega)
  · intro x hx
    simp only [refitCells, List.mem_append, List.mem_map, List.mem_range] at hx
    omega

theorem witness_TreeAndCollectiveEvents_append :
    (∀ d ∈ [0x2040, 0x2080], (appending d).opOf 7 = some (theOp (appending d)) ∧ (appending d).walkerTurn (theOp (appending d)) = true ∧
      (theOp (appending d)).piece = 0 ∧ UnitBytes (appending d) (theOp (appending d)) .load d 64 (0xC0000000 + d)) ∧
    (treeOf (Memory.readN treeMem 0xC0002080 64)).flags % 2 = 1 ∧
    (let t := treeOf (Memory.readN treeMem 0xC0002040 64)
     t.flags % 2 = 0 ∧ 0 < t.nodes ∧ t.root = 1 ∧ t.d = 1 ∧ t.dv = 0 ∧ t.keyBase + 4 * 5 = 0x30014 ∧ Memory.num treeMem 0xC0010400 4 ≠ 1 ∧
       Memory.num treeMem 0xC0010404 4 < t.leafCap ∧ NodeBytes (appending 0x2040) (theOp (appending 0x2040)) t 1 0xC0010400 0xC0003040 ∧
       NodeBytes refitting (theOp refitting) t 1 0xC0010400 0xC0003040 ∧ slotsAt refitting 0xC0010400 = [0]) ∧
    UnitBytes (appending 0x2040) (theOp (appending 0x2040)) .load 0x30014 4 0xC0030014 ∧
    (theOp updating).piece ≠ 0 ∧ (theOp updating).stack = (1, 4) :: [] ∧ (theOp updating).ahead = [] ∧
    UnitArea updating (theOp updating) (((theOp updating).olds.take 4).map (·.1)) (fun x => 0xC0000000 + x) ∧
    refitting.walkerTurn (theOp refitting) = true ∧ (theOp refitting).piece ≠ 1 ∧
    UnitBytes refitting (theOp refitting) .load 0x2040 64 0xC0002040 ∧ UnitBytes refitting (theOp refitting) .load 0x30000 4 0xC0030000 ∧
    UnitArea refitting (theOp refitting) refitCells (fun x => 0xC0000000 + x) := by
  refine ⟨?_, by decide +kernel, ⟨by decide +kernel, by decide +kernel, by decide +kernel, by decide +kernel, by decide +kernel, by decide +kernel,
      by decide +kernel, by decide +kernel, page_node (tree_page _ rfl rfl rfl rfl rfl rfl rfl rfl rfl) _ _ _ _ _ rfl (by decide) (by decide +kernel),
      page_node (tree_page _ rfl rfl rfl rfl rfl rfl rfl rfl rfl) _ _ _ _ _ rfl (by decide) (by decide +kernel), by decide +kernel⟩,
    page_bytes (tree_page _ rfl rfl rfl rfl rfl rfl rfl rfl rfl) _ _ 0x30014 _ _ rfl (by decide) (by decide) (by decide), by decide, rfl, rfl,
    page_area (tree_page _ rfl rfl rfl rfl rfl rfl rfl rfl rfl) _ rfl (by decide) _ (by decide) (by decide), by decide, by decide,
    page_bytes (tree_page _ rfl rfl rfl rfl rfl rfl rfl rfl rfl) _ _ 0x2040 _ _ rfl (by decide) (by decide) (by decide), page_bytes (tree_page _ rfl rfl rfl rfl rfl rfl rfl rfl rfl) _ _ 0x30000 _ _ rfl (by decide) (by decide) (by decide),
    page_area (tree_page _ rfl rfl rfl rfl rfl rfl rfl rfl rfl) _ rfl (by decide) _ refitCells_apart.2 refitCells_apart.1⟩
  intro d h
  have : d = 0x2040 ∨ d = 0x2080 := by simpa using h
  rcases this with rfl | rfl <;> exact ⟨rfl, by decide, rfl, page_bytes (tree_page _ rfl rfl rfl rfl rfl rfl rfl rfl rfl) _ _ _ _ _ rfl (by decide) (by decide) (by decide)⟩

/-- An operation (number `op`) of stacks 0 and 1 of this device on group 0, over 8 bytes of N32 from 0x2000 to 0x5000. -/
def pairBytes (op : Nat) : List Byte :=
  leBytes 8 0x2000 ++ leBytes 8 0x5000 ++ leBytes 4 8 ++ leBytes 1 op ++ leBytes 1 17 ++ leBytes 2 0 ++ leBytes 8 8 ++ List.replicate 32 0 ++
    leBytes 2 0 ++ leBytes 2 1
def paired (op : Nat) : State :=
  let s := alone (.collective 0 (pairBytes op) 0)
  { s with ops := s.ops ++ [{ theOp s with id := 8, kind := .collective 1 (pairBytes op) 0 }] }
def second (op : Nat) : EngineOp := { theOp (paired op) with id := 8, kind := .collective 1 (pairBytes op) 0 }

theorem witness_TreeAndCollectiveEvents_collective : ∀ op < 4,
    (paired op).opOf 7 = some (theOp (paired op)) ∧ (paired op).collTurn (theOp (paired op)) = true ∧ (theOp (paired op)).piece = 0 ∧
    (paired op).arg.flags = [] ∧ (collOf (pairBytes op)).members = [4 * (paired op).devnum.toNat + 0, 4 * (paired op).devnum.toNat + 1] ∧
    (paired op).matched 0 0 0 = some (theOp (paired op)) ∧ (paired op).matched 1 0 0 = some (second op) ∧ (collOf (pairBytes op)).group = 0 ∧
    (collOf (pairBytes op)).agrees (collOf (pairBytes op)) = true ∧ (paired op).collTurn (second op) = true ∧ (collOf (pairBytes op)).op = op ∧
    (paired op).opOf 8 = some (second op) ∧ UnitBytes (paired op) (theOp (paired op)) .load 0x2000 8 0xC0002000 ∧
    UnitBytes (paired op) (second op) .load 0x2000 8 0xC0002000 ∧ isFp (collOf (pairBytes op)).ty = false ∧
    0 < typeWidth (collOf (pairBytes op)).ty / 8 ∧ (collOf (pairBytes op)).bytes % (typeWidth (collOf (pairBytes op)).ty / 8) = 0 := by
  intro op h
  have : op = 0 ∨ op = 1 ∨ op = 2 ∨ op = 3 := by omega
  rcases this with rfl | rfl | rfl | rfl <;>
    exact ⟨rfl, by decide, rfl, rfl, by decide +kernel, by decide +kernel, by decide +kernel, by decide +kernel, by decide +kernel, by decide,
      by decide +kernel, rfl, page_bytes (tree_page _ rfl rfl rfl rfl rfl rfl rfl rfl rfl) _ _ 0x2000 _ _ rfl (by decide) (by decide) (by decide),
      page_bytes (tree_page _ rfl rfl rfl rfl rfl rfl rfl rfl rfl) _ _ 0x2000 _ _ rfl (by decide) (by decide) (by decide), by decide +kernel, by decide +kernel, by decide +kernel⟩

theorem witness_TreeAndCollectiveEvents_write :
    (let s : State := { paired 0 with ops := [{ theOp (paired 0) with piece := 1 }] }
     s.collTurn (theOp s) = true ∧ (theOp s).piece = 1 ∧ (theOp s).olds = []) ∧
    (collOf (pairBytes 0)).dst = 0x5000 ∧ UncachedUnit (paired 0) 0 false .store 0x5000 8 demoLeaf 0xC0005000 :=
  ⟨⟨by decide, rfl, rfl⟩, by decide +kernel, page_unit (tree_page _ rfl rfl rfl rfl rfl rfl rfl rfl rfl) .store (by decide) 0x5000 8 (by decide) (by decide) (by decide)⟩

theorem witness_DeviceEvents :
    State.reset.bar0.ready = true ∧ State.reset.bar0.ersize = 0 ∧ State.reset.MemoryForm ∧ State.reset.Plain ∧
    (let s := { arrived State.reset { who := 3, flags := [true] } with linkFails := [(3, 8)] }
     8 ≤ (assoc s.linkFails s.arg.who).getD 0) ∧
    (arrived State.reset { who := 71, value := 20 }).arg.value.toNat % 32 ≤ 20 ∧ ¬ (64 : Word).toNat < 64 ∧
    (0x100000 : Word).toNat % 4096 = 0 ∧ ¬ (0x100001 : Word).toNat % 16 = 0 ∧ (1000 : Word).toNat ≤ 240000 ∧ State.reset.fused ≤ 0 ∧
    ({ State.reset with fused := 1, arg := { num := 0 } } : State).arg.num < 1 ∧
    (arrived State.reset { flags := [false, true] }).arg.flags = List.replicate 1 false ++ [true] ∧
    (let s : State := { State.reset with attests := [0x9000] }
     s.attests = 0x9000 :: [] ∧ (∀ l ∈ s.l1, l.treat = 1) ∧ (0x9000 : Word).toNat + 40 ≤ bondedEnd ∧
       Memory.num s.mem ((0x9000 : Word).toNat + 32) 8 + 3493 ≤ bondedEnd) ∧ State.reset.dstate = 0 ∧
    ({ State.reset with d3req := true } : State).d3req = true ∧ (∀ g ∈ State.reset.gangs, g.phase ≠ .resident) ∧
    (450 : Int) ≤ 450 ∧ (450 : Int) < 451 ∧ ({ State.reset with flow := 99 } : State).flow < 100 ∧ (0x1000 : Nat) < bondedEnd ∧
    ({ State.reset.bar0 with ready := false } : Bar0).ready = false :=
  ⟨rfl, rfl, ⟨by decide, by decide, by decide⟩, rfl, by decide, by decide, by decide, by decide, by decide, by decide, by decide, by decide, rfl,
    by decide, rfl, rfl, by decide, by decide, by decide, by decide, by decide, rfl⟩

theorem witness_DeviceEvents_errors :
    (let s := arrived (demo 1) { who := 1, num := 4, flags := [true], addr := 5 }
     s.threads.find? (fun t => decide (t.tid = s.arg.who) && decide (t.phase ≠ .absent)) = some s.thr ∧ 0 < s.arg.addr ∧ s.arg.addr < 64) ∧
    (let s := cachedState 0 { who := 0, num := 2, flags := [true], addr := 0x8001 }
     s.l1 = [demoLine 0 0x8000] ∧ (demoLine 0 0x8000).at? s.arg.addr = some 1 ∧ (demoLine 0 0x8000).dirty.getLsbD 1 = true) ∧
    (demo 1).gangOf 1 = some demoGang ∧
    (let s := arrived State.reset { who := 7, flags := [true], num := 1, addr := 2 ^ 48 - 1 }
     s.arg.who < 8 ∧ 0 < s.arg.num ∧ s.arg.addr + s.arg.num ≤ 2 ^ 48 ∧ (s.extents.filter (fun x => decide (x.1 = s.arg.who))).length < 256) :=
  ⟨⟨rfl, by decide, by decide⟩, ⟨rfl, by decide, by decide⟩, rfl, by decide⟩

/-! ## Witnesses of the single clauses: poison, traps of counted words, window faults, held copies, chunks, descriptors -/

/-- s1 poisoned, in no convoy. -/
def poisoned : State := { demo 1 with thr := { demoThread 1 with poisonS := [1] } }

theorem witness_Poisoned_serial :
    poisoned.Serial ∧ (∀ p ∈ serialReaders poisoned 1 1 1 0 0 true false 2, p.2.2 ∧ ¬ poisoned.Clean p.2.1) := by
  have e : (poisoned.rs 1#6).toNat = 0x40000000 := by decide
  have p : poisoned.thr.status.priv = true := rfl
  have q : poisoned.thr.nseg ≤ 1 := by decide
  have c : poisoned.thr.poisonS = [1] := rfl
  refine ⟨by decide, ?_⟩
  simp [serialReaders, State.Clean, e, p, q, c]

theorem witness_Poisoned_others :
    (0x00A#12).toNat ∈ userRegs ∧ cregLegal 0x00A 4 = true ∧ (poisoned.rs 1).toNat % 8 = 0 ∧ ¬ poisoned.Clean [1, 2] ∧
    (let s := { holding fetching 1 0x2000 with thr := { (holding fetching 1 0x2000).thr with poisonS := [1] } }
     s.Serial ∧ s.thr.status.vlive = true ∧ s.fetchPeek (s.thr.pc + 4) = .ok 0xB8000001 ∧ (s.rs 1).toNat % 4 = 0 ∧ (s.rs 1).toNat < 2 ^ 56 ∧
       ¬ s.Clean [1]) :=
  ⟨by decide, by decide, by decide, by decide, by decide, by decide, rfl, by decide, by decide, by decide⟩

/-- In a convoy, the first group of row 0 of v3 poisoned. -/
def poisonedRow : State := { inConvoy 9 with thr := { (inConvoy 9).thr with poisonV := [(3, 0, 0)], poisonS := [1] } }

theorem witness_Poisoned_vector :
    (.vadd 2 3 5, .Ar, [2, 3, 5], [3, 5], intTypes, [32]) ∈ vectorTable 32 none 2 3 5 9 1 2 3 1 2 0 ∧
    ({ poisonedRow with thr := { poisonedRow.thr with poisonV := [] } } : State).Ready .Ar [2, 3, 5] intTypes [32] ∧
    ¬ poisonedRow.CleanRows [3, 5] 32 ∧ FirstActive poisonedRow 0 0 ∧ ¬ poisonedRow.Clean [1] ∧ 0 < poisonedRow.thr.vctx.cl ∧
    poisonedRow.thr.xresume.getLsbD 63 = false ∧ poisonedRow.thr.stopAt = none := by
  refine ⟨by decide, ready (by decide), ?_, ⟨⟨by decide, by decide, by decide⟩, ?_⟩, by decide, by decide, by decide, rfl⟩
  · intro h
    exact absurd (h (3, 0, 0) (by decide) 3 (by decide) 0 (by decide) (by decide) 0 (by decide) (by decide)) (by decide)
  · intro i j _; omega

theorem witness_Counted_traps :
    (.vadd 2 3 5, .Ar, [2, 3, 5], [3, 5], intTypes, [32]) ∈ vectorTable 32 none 2 3 5 9 1 2 3 1 2 0 ∧
    (1 : Nat) ∉ intTypes ∧ (inConvoy 1).thr.vctx.et = 1 ∧ (demo 9).thr.convoy.getLsbD 0 = false ∧ (inConvoy 9).thr.vctx.et ∈ intTypes ∧
    (let s : State := { inConvoy 9 with thr := { (inConvoy 9).thr with convoy := 0xF80001C000280001 } }
     s.thr.convoy.getLsbD 0 = true ∧ s.thr.inSpan = true ∧ WordClass.Ar.quota ≤ convoyCount s.thr.convoy .Ar) ∧
    (let s : State := { inConvoy 9 with thr := { (inConvoy 9).thr with len := 0x100000400 } }
     s.thr.cap 32 < s.thr.vctx.cl) ∧
    ({ inConvoy 9 with thr := { (inConvoy 9).thr with status := { (inConvoy 9).thr.status with vlive := false } } } : State).thr.status.vlive = false ∧
    (.seval 2 3, .Mx, [2, 3], [1]) ∈ arrayTable 2 3 1 0 0 ∧ (inConvoy 9).thr.vctx.et ∉ [1] := by decide +kernel

/-- The window with a poisoned byte at offset 1, and with its first tile on the engine side. -/
def badTiles (poison owners : List Nat) : State := { demo 1 with gangs := [{ demoGang with tilePoison := poison, owners := owners }] }

theorem witness_Window_faults :
    (badTiles [1] []).myGang = some { demoGang with tilePoison := [1] } ∧ ((badTiles [1] []).rs 1).toNat = 0x40000001 / 2 ^ 21 * 2 ^ 21 + 0 ∧
    (∃ p ∈ [1], 0 ≤ p ∧ p < 0 + 2) ∧ (badTiles [] [0]).myGang = some { demoGang with owners := [0] } ∧ 0 / 4096 ∈ [0] ∧
    (badTiles [] [0]).thr.twin.getLsbD 0 = true ∧ (badTiles [1] []).Clean [1, 5] := by
  exact ⟨rfl, by decide, by decide, rfl, by decide, by decide, by decide⟩

/-- The page of `placed` under treatment `treat`, s1 at 0x2000 of it, copies `ls` and grants `ds`. -/
def pageOf (treat : Nat) (ls : List L1Line) (ds : List DirEntry) : State :=
  { holding (placed (demo 1) []) 1 0x2000 with
    mem := Memory.writeN (placed (demo 1) []).mem 0x80004000 (leBytes 8 (0xC000007B + 128 * treat)), l1 := ls, dir := ds }
def leafOf (treat : Nat) : Leaf := ⟨0, 0x40000000, 2, BitVec.ofNat 64 (0xC000007B + 128 * treat), 0⟩
def rowGrant : DirEntry := ⟨homeId 0xC0002000, (rangeOf ⟨0xC0002000, false, 0⟩ (leafOf 0).ori (leafOf 0).oriWidth).norm, 0, true⟩

theorem witness_Cached :
    (∀ t < 3, ∀ u ∈ [Use.load, .store], CachedAt (pageOf t [] []) u 0x2000 4 (leafOf t) 0xC0002000 ∧
      CachedAt (pageOf t [demoLine t 0xC0002000] [rowGrant]) u 0x2000 4 (leafOf t) 0xC0002000) ∧
    (∀ t < 3, (leafOf t).treat = t ∧ HeldRow (pageOf t [demoLine t 0xC0002000] [rowGrant]) (demoLine t 0xC0002000) t 0xC0002000) ∧
    (pageOf 0 [demoLine 0 0xC0002000] [rowGrant]).holdsRange (rangeOf ⟨0xC0002000, false, 0⟩ (leafOf 0).ori (leafOf 0).oriWidth) 0 = true ∧
    (pageOf 0 [] []).Clean [1, 5] := by
  refine ⟨?_, ?_, by decide +kernel, by decide⟩
  · intro t ht u hu
    have : t = 0 ∨ t = 1 ∨ t = 2 := by omega
    have h : u = .load ∨ u = .store := by simpa using hu
    rcases this with rfl | rfl | rfl <;> rcases h with rfl | rfl <;>
      exact ⟨⟨by decide, by decide, by decide, ⟨by decide +kernel, by decide, no_tables rfl _ _⟩, by decide, by decide, by decide, by decide, by decide,
        by decide, by decide, by decide, by decide, by decide, by decide +kernel, rfl, rfl, rfl⟩,
        ⟨by decide, by decide, by decide, ⟨by decide +kernel, by decide, no_tables rfl _ _⟩, by decide, by decide, by decide, by decide, by decide,
        by decide, by decide, by decide, by decide, by decide, by decide +kernel, rfl, rfl, rfl⟩⟩
  · intro t ht
    have : t = 0 ∨ t = 1 ∨ t = 2 := by omega
    rcases this with rfl | rfl | rfl <;>
      exact ⟨by decide, List.mem_singleton.mpr rfl, rfl, rfl, rfl, by decide, by decide, by decide, fun k hk _ _ _ => List.mem_singleton.mp hk⟩

theorem witness_Registers :
    InFields (demo 1).thr ∧ (0x012, (32 : Word) ∈ [16, 32, 64, 128]) ∈ mayHold 32 ∧ cregLegal 0x012 32 = true ∧
    (let s : State := { demo 1 with thr := { demoThread 1 with attached := 3, pend17 := some 1 } }
     s.Serial ∧ 1 < s.thr.nseg ∧ s.ready17 = true) :=
  ⟨⟨by decide, by decide, by decide, by decide, by decide, by decide, by decide, by decide, by decide, by decide⟩, by simp [mayHold], by decide, by decide, by decide, by decide⟩

/-- A chunk of one element, 1, of 32 bits, in one sub-stream without a transform. -/
def demoChunk : List Byte := leBytes 4 1 ++ leBytes 2 1 ++ [0x21]
theorem demoChunk_layout : ChunkLayout false 32 1 0 [1] demoChunk := by
  refine ⟨by decide, by decide, by decide, by decide, [[0x21]], rfl, by decide, by decide, ?_⟩
  intro j hj
  obtain rfl : j = 0 := by omega
  refine ⟨[1], [1], by decide, rfl, by decide, by decide, ?_, ?_⟩
  · intro g hg
    obtain rfl : g = 0 := by simpa using hg
    refine ⟨by decide, by decide, by decide, fun h => absurd h (by decide)⟩
  · intro k hk
    obtain rfl : k = 0 := by simpa using hk
    refine ⟨by decide, fun _ => rfl, fun h => absurd h (by decide), fun h => absurd h (by decide)⟩

/-- s4 at that chunk in the window, s5 its length. -/
def chunked : State :=
  { holding (holding (inConvoy 9) 4 0x40000080) 5 8 with gangs := [{ demoGang with tileMem := Memory.writeN [] 128 demoChunk }] }

theorem witness_Chunks :
    chunked.Ready .Ld [2] (anyTypes.filter (fun t => decide (typeWidth t ≠ 4))) [] ∧ ChunkLayout false 32 1 0 [1] demoChunk ∧
    chunked.myGang = some { demoGang with tileMem := Memory.writeN [] 128 demoChunk } ∧
    (chunked.rs 4).toNat = chunked.thr.twin.toNat / 2 ^ 21 * 2 ^ 21 + 128 ∧
    (∀ k < demoChunk.length, Memory.read (Memory.writeN [] 128 demoChunk) (128 + k) = demoChunk.getD k 0) ∧ 0 < chunked.thr.cap 32 ∧
    (chunked.rs 4).toNat + demoChunk.length ≤ (chunked.rs 4).toNat + (chunked.rs 5).toNat % 2 ^ 40 ∧
    (chunked.rs 4).toNat + (chunked.rs 5).toNat % 2 ^ 40 < (chunked.rs 4).toNat + demoChunk.length + 4 ∧
    (chunked.rs 5).toNat / 2 ^ 40 < [1].length ∧ (∀ e ∈ [1], e < 2 ^ 32) ∧
    (let h := chunkHead (Memory.readN demoGang.tileMem 4 20)
     TilesAt (inConvoy 9) demoGang 4 h.bytes ∧ (inConvoy 9).thr.cap 32 < h.count ∧ (inConvoy 9).rs 2 = 4) :=
  ⟨ready (by decide), demoChunk_layout, rfl, by decide, by decide, by decide, by decide, by decide, by decide, by decide,
    demo_tiles 9 4 _ (by decide), by decide, rfl⟩

/-- The reset descriptor but for a source buffer that the gang does not have. -/
def badStaging : FlueDesc := { FlueDesc.reset with cfg := true, cfgB := 0x2000 }

theorem witness_Flue_checks :
    (∀ r ∈ flueChecks (demo 1).thr.staging demoGang, r.1) ∧ (∃ r, (flueChecks badStaging demoGang)[0]? = some r ∧ ¬ r.1) ∧
    transformOk 6 = false ∧ transformOk 0 = true ∧ (8 : Word) ≠ 0 ∧ ¬ ((2 ^ 59 : Word).toNat < 2 ^ 59) ∧ (2 ^ 59 : Word).toNat % 8 = 0 := by
  refine ⟨?_, ⟨_, rfl, ?_⟩, by decide⟩
  · have e : (demo 1).thr.staging = FlueDesc.reset := rfl
    rw [e]
    have v : ∀ n, (BitVec.extractLsb' n 1 (0 : Word)).toNat = 0 := by simp
    simp [flueChecks, FlueDesc.reset]
  · simp [badStaging, FlueDesc.reset, demoGang, assoc]

theorem witness_Barrier_left :
    (let s : State := { demo 1 with thr := { demoThread 1 with barGen := [(0x1000, 4, false)] } }
     s.Serial ∧ s.myGang = some demoGang ∧ s.thr.gang = demoGang.gid ∧ ¬ (s.thr.barAt = none ∨ s.thr.barAt = some demoGang.barGen)) ∧
    (let s : State := { twoThreads with thr := { demoThread 1 with barGen := [(0x1000, 0, false), (0x2000, 0, true)] } }
     s.Serial ∧ s.myGang = some demoGang ∧ s.thr.barAt = some demoGang.barGen ∧
       ∃ u ∈ s.others, s.unended u = true ∧ u.gang = demoGang.gid ∧ (∀ e ∈ u.barGen, e.2.1 ≠ demoGang.barGen) ∧ u.index ∉ demoGang.arrived) := by
  decide

theorem witness_Grp_traps :
    (∀ k < 31, okB ((placed (inConvoy 1) (List.replicate 32 0)).fetchPeek (0x1004 + BitVec.ofNat 64 (4 * k))) = true) ∧
    (placed (inConvoy 1) (List.replicate 32 0)).thr.inSpan = true ∧
    (∃ c va x post, c ≠ 4 ∧ (demo 1).fetchPeek ((demo 1).thr.pc + 4) = .error (.trap c va x post)) :=
  ⟨by decide +kernel, rfl, ⟨_, _, _, _, by decide, rfl⟩⟩

theorem witness_Blocks_clean : fetching.CleanMask fetching.thr.vctx.mask 1 fetching.thr.cl ∧ (inBlock []).CleanMask 3 1 (inBlock []).thr.cl :=
  ⟨.inl (by decide), .inr (fun _ h => absurd h List.not_mem_nil)⟩

theorem witness_Evictions :
    (let l := { demoLine 2 0xC0002000 with retain := true, dirty := 0 }
     let s : State := { demo 1 with l1 := [l], arg := { who := 0, addr := 0xC0002000 } }
     l.id = s.arg.line ∧ l.hearth = s.arg.who ∧ (∀ m ∈ s.l1, m.hearth = s.arg.who → m.retain = true) ∧
       (let t : State := { s with l1 := [l, { demoLine 2 0xC0004000 with dirty := 0 }] }
        ¬ (∀ m ∈ t.l1, m.hearth = t.arg.who → m.retain = true) ∧ ∀ m ∈ t.l1, m.hearth = t.arg.who → m.id = t.arg.line → m.retain = true)) := by
  decide

theorem witness_Stamps :
    (let s : State := { serving (demoQueue false) with releases := [⟨0xC0002000, 8, some 5, [], []⟩] }
     s.releases = [⟨0xC0002000, 8, some 5, [], []⟩] ∧ OnPage s ∧ s.depParked 0 = false) :=
  ⟨rfl, ⟨rfl, rfl, rfl, rfl, rfl, rfl, rfl, rfl, by decide +kernel⟩, rfl⟩

theorem witness_DeviceEvents_poison :
    (let s := arrived (demo 1) { who := 1, num := 4, flags := [true, false, true], addr := 3, nums := [0, 0] }
     s.arg.nums = [0, 0] ∧ 0 < s.arg.addr ∧ s.arg.addr < 16) ∧
    (let s : State := { arrived State.reset { num := 1, addr := 0x2000 } with l2 := [⟨0, 0x2000, false, 0, true⟩] }
     ∃ l ∈ s.l2, l.stack = s.arg.who ∧ (l.id.index s.arg.addr).isSome = true ∧ l.dirty = true) := by decide

theorem witness_Fetch_faults :
    (∃ e, (demo 1).fetch (demo 1).thr.pc = .error e ∧ ∀ post, e ≠ .hold post) := by
  refine ⟨_, rfl, ?_⟩
  intro post h; cases h

/-- PC in a compressed 64 KiB page of which the block of PC is locked. -/
def locked : State :=
  { placed (demo 1) [] with
    czPending := [(0, 0x6000008)]
    mem := Memory.writeN (Memory.writeN (Memory.writeN (placed (demo 1) []).mem 0x80004000 (leBytes 8 0x80006001))
      0x80006000 (leBytes 8 0x80008001)) 0x80008000 (leBytes 8 0xC000017B ++ leBytes 8 1) }
/-- Whether a fetch waits. -/
def isHold (x : Except Stop (BitVec 32 × State)) : Bool := match x with | .error (.hold _) => true | _ => false
theorem isHold_post {x : Except Stop (BitVec 32 × State)} (h : isHold x = true) : ∃ post, x = .error (.hold post) := by
  unfold isHold at h; split at h
  · exact ⟨_, rfl⟩
  · exact absurd h (by decide)
theorem witness_Fetch_waits : locked.thr.phase = .running ∧ locked.thr.pfx = none ∧ ∃ post, locked.fetch locked.thr.pc = .error (.hold post) :=
  ⟨rfl, rfl, isHold_post (by decide +kernel)⟩

/-- A dirty line of that block, and a flip of its page: the flip waits for the block. -/
def flipWaits : State := { locked with l1 := [demoLine 2 (cmpBase + 0xC00001000)], arg := { addr := 0x1000 } }
def lockedLeaf : Leaf := ⟨0, 0x10000, 4, 0xC000017B, 1⟩
theorem witness_CopiesAndTheHost_flip :
    (flipWaits.asidEntry 0).isSome = true ∧ flipWaits.walk 0 0x1000 = .ok lockedLeaf ∧
    (leafAddr flipWaits.view 0x1000 5 0 0x80000000).isSome = true ∧ lockedLeaf.bias = false ∧ lockedLeaf.frame < bondedEnd ∧
    ∃ k ∈ (flipWaits.cleanPage lockedLeaf).l1, k.dirtyNames ((flipWaits.cleanPage lockedLeaf).inPage lockedLeaf) ≠ [] :=
  ⟨by decide +kernel, by decide +kernel, by decide +kernel, by decide, by decide, by decide +kernel⟩
theorem test_flip_waits_for_the_block :
    (match exec .biasFlipToHost flipWaits with
     | .next t => decide (t.agenda = [(.biasFlipToHost, { addr := 0x1000 })] ∧ t.mem = flipWaits.mem)
     | _ => false) = true := by decide +kernel

/-! ## Steps and invariants -/

/-- ADD s8, s1, s2 at PC. -/
def ready1 : State := placed (demo 1) [0x04804200]

theorem witness_StepRunsDecodedWord :
    ready1.thr.phase = .running ∧ ready1.takesEvent = false ∧ ready1.agenda = [] ∧ ready1.turns = [] ∧ ready1.thr.pfx = none ∧
    (∃ p : BitVec 32 × State, ready1.fetch ready1.thr.pc = .ok p ∧ p.1 = 0x04804200 ∧ p.2.blockOverrun p.1 = false) ∧
    (∃ e, (demo 1).fetch (demo 1).thr.pc = .error e) ∧ ready1.thr.stale = [] ∧ ready1.l1 = [] ∧ ready1.thr.vrun = VRun.idle ∧
    UncachedAt (placed (demo 1) [0x04304200]) .fetch 0x1000 4 demoLeaf 0xC0001000 ∧ ready1.homeBad 0 ⟨0xC0001000, 0, demoLeaf.alloc⟩ 4 = false ∧ decode 0x04804200 = .ok (.add 8 1 2) ∧
    decode (Memory.num (placed (demo 1) [0x04304200]).mem 0xC0001000 4) = .ok (.add 3 1 2) ∧
    ready1.midWord = false ∧ Instr.isEvent .ptsTick = true ∧ Instr.isEvent .halt = false := by
  refine ⟨rfl, by decide, rfl, rfl, rfl, ?_, ?_, rfl, rfl, rfl, placed_uncached .fetch (.inr (.inr rfl)), by decide, rfl, rfl, by decide, rfl, rfl⟩
  · have h : okB (ready1.fetch ready1.thr.pc) = true := by decide +kernel
    exact ⟨_, okD_eq (0, demo 1) h, by decide +kernel, by decide +kernel⟩
  · have h : okB ((demo 1).fetch (demo 1).thr.pc) = false := by decide +kernel
    cases e : (demo 1).fetch (demo 1).thr.pc with
    | ok u => rw [e] at h; exact absurd h (by simp [okB])
    | error x => exact ⟨x, rfl⟩

theorem witness_DecodeOfEncode : (Instr.add 3 1 2).wf = true ∧ (Instr.add 3 1 2).isEvent = false ∧ encode (.add 3 1 2) = 0x04304200 := by decide

theorem reset_form : State.reset.MemoryForm := ⟨by decide, by decide, by decide⟩
theorem reset_lanes : State.reset.LegalLanes := ⟨by decide, by decide⟩

/-- Whether a step goes on. -/
def nextB (o : Host.Outcome State Fault Refusal) : Bool := match o with | .next _ => true | _ => false

theorem witness_StepKeepsTheMemoryForm : ready1.MemoryForm ∧ nextB (step ready1) = true :=
  ⟨⟨by decide, by decide, by decide⟩, by decide +kernel⟩
theorem witness_StepKeepsTheLengths : (demo 1).LegalLanes ∧ ready1.LegalLanes ∧ (∃ u ∈ (demo 1).threads, u.rl = 1 ∧ u.cl = 2) :=
  ⟨⟨by decide, by decide⟩, ⟨by decide, by decide⟩, ⟨_, List.mem_cons_self, by decide, by decide⟩⟩
/-! ## Decoding: one word of each instruction, put together from the fields of the encoding tables of the spec -/

theorem test_decode_scalar_register_1 : ∀ p ∈ ([
    (0x0654AB00, .add 37 18 43), (0x0654AB01, .sub 37 18 43), (0x0654AB02, .and 37 18 43), (0x0654AB03, .or 37 18 43),
    (0x0654AB04, .xor 37 18 43), (0x0654AB05, .andn 37 18 43), (0x0654AB06, .sll 37 18 43), (0x0654AB07, .srl 37 18 43),
    (0x0654AB08, .sra 37 18 43), (0x0654AB10, .mul 37 18 43), (0x0654AB11, .mulh 37 18 43), (0x0654AB12, .mulhu 37 18 43),
    (0x0654AB13, .div 37 18 43), (0x0654AB14, .divu 37 18 43), (0x0654AB15, .rem 37 18 43)] : List (Nat × Instr)), decode p.1 = .ok p.2 := by decide
theorem test_decode_scalar_register_2 : ∀ p ∈ ([
    (0x0654AB16, .remu 37 18 43), (0x0654AB18, .min 37 18 43), (0x0654AB19, .max 37 18 43), (0x0654AB1A, .minu 37 18 43),
    (0x0654AB1B, .maxu 37 18 43), (0x06548020, .clz 37 18), (0x06548021, .ctz 37 18), (0x06548022, .popc 37 18),
    (0x0654AB28, .seq 37 18 43), (0x0654AB29, .slt 37 18 43), (0x0654AB2A, .sltu 37 18 43)] : List (Nat × Instr)), decode p.1 = .ok p.2 := by decide
theorem test_decode_scalar_immediate : ∀ p ∈ ([
    (0x0A54AA5D, .addi 37 18 10845), (0x0E54AA5D, .andi 37 18 10845), (0x1254AA5D, .ori 37 18 10845), (0x1654AA5D, .xori 37 18 10845),
    (0x1A54AA5D, .slti 37 18 10845), (0x1E54AA5D, .sltiu 37 18 10845), (0x2254AB00, .slli 37 18 43), (0x2254AB01, .srli 37 18 43),
    (0x2254AB02, .srai 37 18 43), (0x2659C3A5, .immh 37 639909), (0x2A59C3A5, .pcrel 37 639909)] : List (Nat × Instr)), decode p.1 = .ok p.2 := by decide
theorem test_decode_branches : ∀ p ∈ ([
    (0x3254AA5D, .beq 37 18 10845), (0x3654AA5D, .bne 37 18 10845), (0x3A54AA5D, .blt 37 18 10845), (0x3E54AA5D, .bge 37 18 10845),
    (0x4254AA5D, .bltu 37 18 10845), (0x4654AA5D, .bgeu 37 18 10845), (0x4A59C3A5, .jlk 37 639909), (0x4E54AA5D, .jlkr 37 18 10845)] : List (Nat × Instr)), decode p.1 = .ok p.2 := by decide
theorem test_decode_scalar_memory : ∀ p ∈ ([
    (0x5254AA5D, .lb 37 18 10845), (0x5654AA5D, .lbu 37 18 10845), (0x5A54AA5D, .lh 37 18 10845), (0x5E54AA5D, .lhu 37 18 10845),
    (0x6254AA5D, .lw 37 18 10845), (0x6654AA5D, .lwu 37 18 10845), (0x6A54AA5D, .ld 37 18 10845), (0x6E54AA5D, .sb 37 18 10845),
    (0x7254AA5D, .sh 37 18 10845), (0x7654AA5D, .sw 37 18 10845), (0x7A54AA5D, .sd 37 18 10845)] : List (Nat × Instr)), decode p.1 = .ok p.2 := by decide
theorem test_decode_scalar_fp_1 : ∀ p ∈ ([
    (0x7E54AB00, .faddS 37 18 43), (0x7E54AB01, .fsubS 37 18 43), (0x7E54AB02, .fmulS 37 18 43), (0x7E54AB03, .fdivS 37 18 43),
    (0x7E548004, .fsqrtS 37 18), (0x7E54AB05, .fminS 37 18 43), (0x7E54AB06, .fmaxS 37 18 43), (0x7E54AB07, .ffmaS 37 18 43),
    (0x7E54AB08, .fceqS 37 18 43), (0x7E54AB09, .fcltS 37 18 43), (0x7E54AB0A, .fcleS 37 18 43), (0x7E54800C, .ftoiS 37 18),
    (0x7E54800E, .itofS 37 18), (0x7E54AB10, .faddD 37 18 43), (0x7E54AB11, .fsubD 37 18 43)] : List (Nat × Instr)), decode p.1 = .ok p.2 := by decide
theorem test_decode_scalar_fp_2 : ∀ p ∈ ([
    (0x7E54AB12, .fmulD 37 18 43), (0x7E54AB13, .fdivD 37 18 43), (0x7E548014, .fsqrtD 37 18), (0x7E54AB15, .fminD 37 18 43),
    (0x7E54AB16, .fmaxD 37 18 43), (0x7E54AB17, .ffmaD 37 18 43), (0x7E54AB18, .fceqD 37 18 43), (0x7E54AB19, .fcltD 37 18 43),
    (0x7E54AB1A, .fcleD 37 18 43), (0x7E54801C, .ftoiD 37 18), (0x7E54801E, .itofD 37 18), (0x7E548020, .fnrw 37 18),
    (0x7E548021, .fwdn 37 18)] : List (Nat × Instr)), decode p.1 = .ok p.2 := by decide
theorem test_decode_control : ∀ p ∈ ([
    (0x825009A5, .rdc 37 2469), (0x840949A5, .wrc 37 2469), (0x88002A5D, .trap 10845)] : List (Nat × Instr)), decode p.1 = .ok p.2 := by decide
theorem test_decode_system : ∀ p ∈ ([
    (0x8C000000, .yield), (0x8E54AB01, .waitev 37 18 43), (0x8C000002, .halt), (0x8C094003, .launch 37), (0x8C000004, .npbegin),
    (0x8C000005, .npend), (0x8C000010, .tret), (0x8C095211, .csave 37 18), (0x8C095212, .crestore 37 18), (0x8C095213, .tlbinv 37 18),
    (0x8C094014, .tlbinva 37), (0x8C000015, .tlbinvg), (0x8E54AB16, .embrd 37 18 43), (0x8C000017, .embage), (0x8C094018, .rlogctl 37)] : List (Nat × Instr)), decode p.1 = .ok p.2 := by decide
theorem test_decode_lanes : ∀ p ∈ ([
    (0x92548000, .claim 37 18), (0x92548001, .spclaim 37 18), (0x92500002, .spqry 37), (0x9254AB10, .setl4 37 18 43),
    (0x9254AB11, .setl8 37 18 43), (0x9254AB12, .setl16 37 18 43), (0x9254AB13, .setl32 37 18 43), (0x9254AB14, .setl64 37 18 43)] : List (Nat × Instr)), decode p.1 = .ok p.2 := by decide
theorem test_decode_vector_integer_1 : ∀ p ∈ ([
    (0x96666000, .vadd 19 6 12), (0x96666001, .vsub 19 6 12), (0x96666002, .vmul 19 6 12), (0x96666003, .vmulh 19 6 12),
    (0x96666004, .vmin 19 6 12), (0x96666005, .vmax 19 6 12), (0x96666006, .vminu 19 6 12), (0x96666007, .vmaxu 19 6 12),
    (0x96666008, .vand 19 6 12), (0x96666009, .vor 19 6 12), (0x9666600A, .vxor 19 6 12), (0x9666600B, .vsll 19 6 12),
    (0x9666600C, .vsrl 19 6 12), (0x9666600D, .vsra 19 6 12), (0x9666000E, .vabs 19 6)] : List (Nat × Instr)), decode p.1 = .ok p.2 := by decide
theorem test_decode_vector_integer_2 : ∀ p ∈ ([
    (0x9666000F, .vneg 19 6), (0x96666010, .vadds 19 6 12), (0x96666011, .vsubs 19 6 12), (0x96666012, .vsel 19 6 12),
    (0x96660013, .vmov 19 6)] : List (Nat × Instr)), decode p.1 = .ok p.2 := by decide
theorem test_decode_vector_fp : ∀ p ∈ ([
    (0x9A666000, .vfadd 19 6 12), (0x9A666001, .vfsub 19 6 12), (0x9A666002, .vfmul 19 6 12), (0x9A666003, .vfmin 19 6 12),
    (0x9A666004, .vfmax 19 6 12), (0x9A660005, .vfabs 19 6), (0x9A660006, .vfneg 19 6), (0x9A666007, .vfma 19 6 12),
    (0x9A666008, .vfms 19 6 12), (0x9A666009, .vfnma 19 6 12), (0x9A66600A, .vfnms 19 6 12), (0x9E666000, .vdiv 19 6 12),
    (0x9E660001, .vsqrt 19 6), (0x9E660002, .vrcps 19 6), (0x9E660003, .vrsqs 19 6)] : List (Nat × Instr)), decode p.1 = .ok p.2 := by decide
theorem test_decode_masks : ∀ p ∈ ([
    (0xA0B33000, .vceq 5 19 6), (0xA0B33001, .vcne 5 19 6), (0xA0B33002, .vclt 5 19 6), (0xA0B33003, .vcle 5 19 6),
    (0xA0B33004, .vcltu 5 19 6), (0xA0B33005, .vcleu 5 19 6), (0xA0B33006, .vcun 5 19 6), (0xA4AA6000, .mand 5 10 12),
    (0xA4AA6001, .mor 5 10 12), (0xA4AA6002, .mxor 5 10 12), (0xA4AA6003, .mandn 5 10 12), (0xA4AA0004, .mnot 5 10),
    (0xA4AA0005, .mmov 5 10), (0xA4AA0006, .mfirst 5 10)] : List (Nat × Instr)), decode p.1 = .ok p.2 := by decide
theorem test_decode_convert_reduce : ∀ p ∈ ([
    (0xAA660009, .vcvt 19 6 9), (0xAA660029, .vcvts 19 6 9), (0xAE666000, .vredo 19 6 12), (0xAE666001, .vredt 19 6 12),
    (0xAE666002, .vredmin 19 6 12), (0xAE666003, .vredmax 19 6 12), (0xAE666004, .vscan 19 6 12), (0xAE666005, .vscanx 19 6 12)] : List (Nat × Instr)), decode p.1 = .ok p.2 := by decide
theorem test_decode_move : ∀ p ∈ ([
    (0xB2666000, .vperm 19 6 12), (0xB2660001, .vcomp 19 6), (0xB2660002, .vexpd 19 6), (0xB6669400, .vslup 19 6 37),
    (0xB6669401, .vsldn 19 6 37), (0xB6669402, .vxchg 19 6 37), (0xB6609410, .vbcast 19 37), (0xB6609411, .viota 19 37),
    (0xB6609412, .vrng 19 37), (0xB8009400, .vfetch 37), (0xB8000001, .vjoin), (0xB8A09402, .vnext 5 37), (0xB8000003, .vpend)] : List (Nat × Instr)), decode p.1 = .ok p.2 := by decide
theorem test_decode_vector_memory : ∀ p ∈ ([
    (0xBE72A480, .vld 19 37 18 2), (0xBE72A481, .vlds 19 37 18 2), (0xBE72A482, .vst 19 37 18 2), (0xBE72A483, .vsts 19 37 18 2),
    (0xC272A480, .vldc 19 37 18 2), (0xC272A481, .vstc 19 37 18 2), (0xC6669400, .vgath 19 6 37), (0xC6669401, .vscat 19 6 37),
    (0xC6669402, .vscadd 19 6 37), (0xCA72A480, .vldb 19 37 18 2), (0xCA72A481, .vstb 19 37 18 2), (0xCA72A482, .vldz 19 37 18 2)] : List (Nat × Instr)), decode p.1 = .ok p.2 := by decide
theorem test_decode_atomics_word : ∀ p ∈ ([
    (0xCE54AB13, .amoaddW 37 18 43 true false 3), (0xCE54AB33, .amoswapW 37 18 43 true false 3),
    (0xCE54AB53, .amoandW 37 18 43 true false 3), (0xCE54AB73, .amoorW 37 18 43 true false 3),
    (0xCE54AB93, .amoxorW 37 18 43 true false 3), (0xCE54ABB3, .amominW 37 18 43 true false 3),
    (0xCE54ABD3, .amomaxW 37 18 43 true false 3), (0xCE54ABF3, .amocasW 37 18 43 true false 3)] : List (Nat × Instr)), decode p.1 = .ok p.2 := by decide
theorem test_decode_atomics_double : ∀ p ∈ ([
    (0xD254AB13, .amoaddD 37 18 43 true false 3), (0xD254AB33, .amoswapD 37 18 43 true false 3),
    (0xD254AB53, .amoandD 37 18 43 true false 3), (0xD254AB73, .amoorD 37 18 43 true false 3),
    (0xD254AB93, .amoxorD 37 18 43 true false 3), (0xD254ABB3, .amominD 37 18 43 true false 3),
    (0xD254ABD3, .amomaxD 37 18 43 true false 3), (0xD254ABF3, .amocasD 37 18 43 true false 3)] : List (Nat × Instr)), decode p.1 = .ok p.2 := by decide
theorem test_decode_order : ∀ p ∈ ([
    (0xD6548003, .ldaW 37 18 3), (0xD654800B, .ldaD 37 18 3), (0xD6548013, .stlW 37 18 3), (0xD654801B, .stlD 37 18 3),
    (0xD4000023, .fence 3), (0xD409522B, .wbr 37 18 3), (0xD4095233, .invr 37 18 3), (0xD6500038, .lclk 37), (0xD4000040, .bar),
    (0xD4095248, .own 37 18)] : List (Nat × Instr)), decode p.1 = .ok p.2 := by decide
theorem test_decode_arrays : ∀ p ∈ ([
    (0xD8009400, .mldb 37), (0xDA669401, .mmao 19 6 37), (0xDA669402, .mmaf 19 6 37), (0xDA669403, .mmas 19 6 37),
    (0xDC000000, .sknot), (0xDC009401, .sldc 37), (0xDE660002, .seval 19 6), (0xDE660003, .sevald 19 6), (0xDE669404, .sgrad 19 6 37),
    (0xDC009405, .sref 37), (0xE2609400, .xdec 19 37), (0xE2759401, .xenc 19 2 5 37)] : List (Nat × Instr)), decode p.1 = .ok p.2 := by decide
theorem test_decode_engines_1 : ∀ p ∈ ([
    (0xE654AB00, .flcfg 37 18 43), (0xE654AB01, .fllvl 37 18 43), (0xE4095202, .flxf 37 18), (0xE4095203, .flblk 37 18),
    (0xE654AB04, .flstart 37 18 43), (0xEA54AB00, .bdef 37 18 43), (0xEA54AB01, .bget 37 18 43), (0xE8095202, .bput 37 18),
    (0xEA54AB08, .cwait 37 18 43), (0xEA54AB09, .cadd 37 18 43), (0xEC095200, .topen 37 18), (0xEE54AB01, .twalk 37 18 43),
    (0xEE54AB02, .tappend 37 18 43), (0xEC095203, .trefit 37 18), (0xEE54AB04, .tsumr 37 18 43)] : List (Nat × Instr)), decode p.1 = .ok p.2 := by decide
theorem test_decode_engines_2 : ∀ p ∈ ([
    (0xF0094000, .clstart 37), (0xF0094008, .rfence 37)] : List (Nat × Instr)), decode p.1 = .ok p.2 := by decide
theorem test_decode_prefixes : ∀ p ∈ ([
    (0xF9697340, .grp 5 true 9 3 true false 1 5), (0xFD6F3698, .pfx 5 true 3 true 2 13 true 9 true)] : List (Nat × Instr)), decode p.1 = .ok p.2 := by decide
/-! ## Words printed in the spec -/

/-- Chapters 05, 10, 11 and 12. -/
theorem test_printed_words_1 : ∀ p ∈ ([
    (0x24210080, .immh 2 0x10080), (0x08208000, .addi 2 2 0), (0x7C30800C, .ftoiS 3 2), (0x10400004, .ori 4 0 4), (0x8401000A, .wrc 4 0x00A),
    (0x0481C013, .div 8 7 0), (0x0491C015, .rem 9 7 0), (0x80600009, .rdc 6 0x009), (0xBC221040, .vld 1 4 8 1), (0xF80100C0, .grp 0 false 1 0 false false 0 3),
    (0x90208000, .claim 2 2), (0x94811010, .vadds 4 1 2), (0xA0453002, .vclt 2 5 6), (0x9C410002, .vrcps 2 1), (0xA8E10024, .vcvts 7 1 4),
    (0x98411807, .vfma 2 1 3), (0x90918713, .setl32 9 6 7), (0xACE13800, .vredo 7 1 7), (0xAC623805, .vscanx 3 2 7), (0xB0611000, .vperm 3 1 2),
    (0xB0410001, .vcomp 2 1), (0xB4813800, .vslup 4 1 14), (0xB4A00011, .viota 5 0), (0xB4C03C12, .vrng 6 15), (0xB8005000, .vfetch 20),
    (0xB8000001, .vjoin), (0xB8605402, .vnext 3 21), (0xB8000003, .vpend), (0xBC220C01, .vlds 1 4 6 0), (0xBC429002, .vst 2 5 8 0)] : List (Nat × Instr)),
    decode p.1 = .ok p.2 := by decide
/-- Chapters 17 and 27. -/
theorem test_printed_words_2 : ∀ p ∈ ([
    (0xC0421000, .vldc 2 4 8 0), (0xC0429001, .vstc 2 5 8 0), (0xC4691000, .vgath 3 9 4), (0xC4691002, .vscadd 3 9 4), (0xC8220C00, .vldb 1 4 6 0),
    (0xC8220C01, .vstb 1 4 6 0), (0xC8220C02, .vldz 1 4 6 0), (0xCC510601, .amoaddW 5 4 6 false false 1), (0xCC510619, .amoaddW 5 4 6 true true 1),
    (0xD05106E3, .amocasD 5 4 6 false false 3), (0xD4710003, .ldaW 7 4 3), (0xD4710013, .stlW 7 4 3), (0xD4000023, .fence 3), (0xD401062A, .wbr 4 6 2),
    (0xD4010632, .invr 4 6 2), (0xD4900038, .lclk 9), (0xD4000040, .bar), (0xD4028B48, .own 10 11), (0x8C000002, .halt), (0x8C010003, .launch 4),
    (0x8C000004, .npbegin), (0x8C000005, .npend), (0x8C000010, .tret), (0x8C010511, .csave 4 5), (0x8C010512, .crestore 4 5), (0x8C010513, .tlbinv 4 5),
    (0x8C010014, .tlbinva 4), (0x8C000015, .tlbinvg), (0x8C610516, .embrd 6 4 5), (0x8C000017, .embage), (0x8C010018, .rlogctl 4)] : List (Nat × Instr)),
    decode p.1 = .ok p.2 := by decide
/-- Chapter 23. -/
theorem test_printed_words_3 : ∀ p ∈ ([
    (0xD8001000, .mldb 4), (0xD9021401, .mmao 8 2 5), (0xD9021402, .mmaf 8 2 5), (0xD9021403, .mmas 8 2 5), (0xDC000000, .sknot), (0xDC001001, .sldc 4),
    (0xDCC10002, .seval 6 1), (0xDCC10003, .sevald 6 1), (0xDCC11404, .sgrad 6 1 5), (0xDC001005, .sref 4), (0xE0601000, .xdec 3 4),
    (0xE0691001, .xenc 3 1 1 4), (0xE4414600, .flcfg 4 5 6), (0xE4720901, .fllvl 7 8 9), (0xE4028B02, .flxf 10 11), (0xE4030D03, .flblk 12 13),
    (0xE4E3D004, .flstart 14 15 16), (0xE8414600, .bdef 4 5 6), (0xE8720901, .bget 7 8 9), (0xE8020902, .bput 8 9), (0xE8A2CC08, .cwait 10 11 12),
    (0xE8D2CE09, .cadd 13 11 14), (0xEC010500, .topen 4 5), (0xEC418701, .twalk 4 6 7), (0xEC420902, .tappend 4 8 9), (0xEC010903, .trefit 4 9),
    (0xEC428B04, .tsumr 4 10 11), (0xF0010000, .clstart 4)] : List (Nat × Instr)), decode p.1 = .ok p.2 := by decide
/-- Whether a word decodes to an instruction with a reserved bit set. -/
def isReserved (r : Except DecodeErr Instr) : Bool := match r with | .error (.reserved _) => true | _ => false

/-- The words that chapters 11, 17 and 23 call reserved-bits traps: BAR with a scope, MLDB and VRCPS with an unused register, VCLT with a fifth mask
bit; and illegal instructions: FENCE of scope 6, VCVT to CB4, the all-zero word. -/
theorem test_printed_words_refused :
    ([0xD4000041, 0xD8201000, 0x9C410802, 0xA2453002].map decode).map isReserved = [true, true, true, true] ∧
    ∀ w ∈ [0xD4000026, 0xA8E10007, 0], decode w = .error .illegal := by decide

/-! ## Ill-formed terms: each check of `Instr.wf` refuses one -/

theorem test_wf_refuses_unassigned_type : (Instr.grp 0 false 0x0D 0 false false 0 0).wf = false := by decide
theorem test_wf_refuses_rounding_7 : (Instr.grp 0 false 1 7 false false 0 0).wf = false := by decide
theorem test_wf_refuses_hint_3 : (Instr.vld 1 2 3 3).wf = false := by decide
theorem test_wf_refuses_scope_6 : (Instr.fence 6).wf = false := by decide
theorem test_wf_refuses_mask_0 : (Instr.mnot 0 1).wf = false := by decide
theorem test_wf_refuses_cb4_destination : (Instr.vcvt 1 2 7).wf = false := by decide
theorem test_wf_refuses_illegal_pfx : (Instr.pfx 0 false 0 false 3 0 false 0 false).wf = false := by decide
theorem test_wf_refuses_unclean_pfx : (Instr.pfx 1 false 0 false 2 0 false 0 false).wf = false := by decide

/-! ## Single steps against values that the spec states -/

/-- What `f` reads of the next state. -/
def after {α : Type} (f : State → α) (i : Instr) (s : State) : Option α := match exec i s with | .next t => some (f t) | _ => none

/-- Chapter 05, the conversion program: s2 holds the FP32 number 2.5, then 2^63; its flags and its division by zero. -/
def cvt (frm : Nat) (v : Word) : State := { holding (demo 1) 2 v with thr := { (holding (demo 1) 2 v).thr with frm := BitVec.ofNat 3 frm } }
theorem test_immh : after (fun t => t.rs 2) (.immh 2 0x10080) (demo 1) = some 0x40200000 := by decide +kernel
theorem test_ftoi_rne : after (fun t => (t.rs 3, t.thr.fflags)) (.ftoiS 3 2) (cvt 0 0x40200000) = some (2, 0x10) := by decide +kernel
theorem test_ftoi_rna : after (fun t => (t.rs 5, t.thr.fflags)) (.ftoiS 5 2) (cvt 4 0x40200000) = some (3, 0x10) := by decide +kernel
theorem test_ftoi_saturates : after (fun t => (t.rs 11, t.thr.fflags)) (.ftoiS 11 2) (cvt 0 0x5F000000) = some (0x7FFFFFFFFFFFFFFF, 1) := by
  decide +kernel
theorem test_div_by_zero : after (fun t => t.rs 8) (.div 8 2 0) (cvt 0 0xFFFFFFFFFFFFFFF9) = some 0x8000000000000000 := by decide +kernel
theorem test_rem_by_zero : after (fun t => t.rs 9) (.rem 9 2 0) (cvt 0 0xFFFFFFFFFFFFFFF9) = some 0xFFFFFFFFFFFFFFF9 := by decide +kernel
/-- Chapter 06: 2.5 + 2^-22 goes to F4 as 3 at once, through BF16 as 2. -/
theorem test_one_rounding :
    (f4.deliver ⟨0, 0, false⟩ (fp32.val 0x40200001)).1 = 5 ∧ (bf16.deliver ⟨0, 0, false⟩ (fp32.val 0x40200001)).1 = 0x4020 ∧
    (f4.deliver ⟨0, 0, false⟩ (bf16.val 0x4020)).1 = 4 := by decide +kernel
/-- Chapter 11: seeds and conversions. -/
theorem test_rcp_seeds :
    rcpSeed fp32 false (fp32.val 0x40400000) = (0x3EAAA800, 0) ∧ rcpSeed fp32 false (fp32.val 0x40800000) = (0x3E800000, 0) ∧
    rcpSeed fp32 false (fp32.val 0x80000000) = (0xFF800000, 2) ∧ rcpSeed fp32 false (fp32.val 1) = (0x7F800000, 4) := by decide +kernel
theorem test_conversions :
    convert false ⟨0, 0, false⟩ 11 (fp32.val 0x40200000) = (2, 16) ∧ convert false ⟨0, 0, false⟩ 11 (fp32.val 0xC0600000) = (252, 16) ∧
    convert false ⟨0, 0, false⟩ 19 (fp32.val 0xC0600000) = (0, 1) ∧ convert false ⟨0, 0, false⟩ 11 (fp32.val 0x43480000) = (127, 1) ∧
    convert true ⟨0, 0, false⟩ 11 (fp32.val 0x7FC00001) = (0, 1) := by decide +kernel
/-- Chapter 26: the entries of the walk of 0x12_3456_789A_BCDE. -/
theorem test_walk_indexes : (List.range 5).map (fun k => 16 * levelIndex k 0x123456789ABCDE) = [0x120, 0x680, 0x1590, 0x1C40, 0x1A0] := by decide

end Sys2Proof.Tests
end

section
/-! PROOFS. The scalar integer words (spec 05 R59 to R63): values, encodings and completion. -/

namespace Sys2Proof.Machine

open Sys2Proof

/-! ## The model's values as operations of the library -/

theorem boolWord_decide (p : Prop) [Decidable p] : boolWord (decide p) = if p then 1 else 0 := by
  simp [boolWord]

theorem shamt_eq_setWidth (y : Word) : shamt y = (y.setWidth 6).toNat := by
  simp [shamt]

theorem sltWord_eq (x y : Word) : sltWord x y = if x.slt y then 1 else 0 := by
  simp [sltWord, boolWord_decide, BitVec.slt_eq_decide]

theorem sltuWord_eq (x y : Word) : sltuWord x y = if x < y then 1 else 0 := by
  simp [sltuWord, boolWord_decide, BitVec.lt_def]

theorem minS_eq (x y : Word) : minS x y = if x.slt y then x else y := by
  simp [minS, BitVec.slt_eq_decide]

theorem maxS_eq (x y : Word) : maxS x y = if x.slt y then y else x := by
  simp [maxS, BitVec.slt_eq_decide]

theorem divS_eq (x y : Word) :
    divS x y = if y = 0 then (if x.slt 0 then 0x8000000000000000 else 0x7FFFFFFFFFFFFFFF) else x.sdiv y := by
  have quotient : BitVec.ofInt 64 (x.toInt.tdiv y.toInt) = x.sdiv y :=
    BitVec.eq_of_toInt_eq (by rw [BitVec.toInt_ofInt, BitVec.toInt_sdiv])
  simp [divS, quotient, BitVec.slt_eq_decide]

theorem divU_eq (x y : Word) : divU x y = if y = 0 then 0xFFFFFFFFFFFFFFFF else x / y := by
  have quotient : BitVec.ofNat 64 (x.toNat / y.toNat) = x / y := BitVec.udiv_def.symm
  rw [divU, quotient]

/-- The remainder belongs to the quotient of R60, by zero and at the overflow too. -/
theorem remS_eq_sub_mul_divS (x y : Word) : remS x y = x - y * divS x y := by
  by_cases hy : y = 0
  · simp [remS, hy]
  · rw [remS, divS, if_neg hy, if_neg hy, Int.tmod_def, Int.sub_eq_add_neg, BitVec.ofInt_add, BitVec.ofInt_neg,
      BitVec.ofInt_mul, BitVec.ofInt_toInt, BitVec.ofInt_toInt, BitVec.sub_eq_add_neg]

theorem remU_eq_sub_mul_divU (x y : Word) : remU x y = x - y * divU x y := by
  by_cases hy : y = 0
  · simp [remU, hy]
  · have split : x = y * divU x y + remU x y := by
      rw [remU, divU, if_neg hy, if_neg hy]
      apply BitVec.eq_of_toNat_eq
      simp only [BitVec.toNat_add, BitVec.toNat_mul, BitVec.toNat_ofNat, Nat.mul_mod_mod, Nat.add_mod_mod, Nat.mod_add_mod,
        Nat.div_add_mod, Nat.mod_eq_of_lt x.isLt]
    rw [eq_comm, BitVec.sub_eq_iff_eq_add, BitVec.add_comm]
    exact split

theorem mulhS_eq (x y : Word) : mulhS x y = ((x.signExtend 128 * y.signExtend 128) >>> 64).setWidth 64 := by
  have product : x.signExtend 128 * y.signExtend 128 = BitVec.ofInt 128 (x.toInt * y.toInt) := (BitVec.ofInt_mul _ _).symm
  apply BitVec.eq_of_toNat_eq
  rw [product, mulhS]
  generalize x.toInt * y.toInt = z
  simp only [BitVec.toNat_ofInt, BitVec.toNat_setWidth, BitVec.toNat_ushiftRight, Nat.shiftRight_eq_div_pow]
  omega

theorem mulhU_eq (x y : Word) : mulhU x y = ((x.setWidth 128 * y.setWidth 128) >>> 64).setWidth 64 := by
  have bound : x.toNat * y.toNat < 2 ^ 128 := by
    calc x.toNat * y.toNat < 2 ^ 64 * 2 ^ 64 := Nat.mul_lt_mul'' x.isLt y.isLt
      _ = 2 ^ 128 := by norm_num
  apply BitVec.eq_of_toNat_eq
  simp only [mulhU, BitVec.toNat_ofNat, BitVec.toNat_setWidth, BitVec.toNat_ushiftRight, BitVec.toNat_mul,
    Nat.shiftRight_eq_div_pow, Nat.mod_mul_mod, Nat.mul_mod_mod, Nat.mod_eq_of_lt bound]

/-- SignExtend(imm << 14, 34) is SignExtend(imm, 20) << 14 (R63). -/
theorem imm34_eq (u : BitVec 20) : imm34 u = ((u.setWidth 34) <<< 14).signExtend 64 := by
  apply BitVec.eq_of_getLsbD_eq
  intro k hk
  simp only [imm34, BitVec.getLsbD_shiftLeft, BitVec.getLsbD_signExtend, BitVec.msb_eq_getLsbD_last, BitVec.getLsbD_setWidth]
  by_cases low : k < 34
  · simp [hk, low, show k - 14 < 64 by omega, show k - 14 < 20 by omega, show k - 14 < 34 by omega]
  · simp [hk, low, show k - 14 < 64 by omega, show ¬ k - 14 < 20 by omega, show ¬ k < 14 by omega]

/-! ## Counts of bits -/

theorem clzWord_eq_clz (x : Word) : clzWord x = x.clz := by
  apply BitVec.eq_of_toNat_eq
  by_cases hx : x = 0
  · subst hx; decide
  · have pos : x.toNat ≠ 0 := fun h => hx (BitVec.eq_of_toNat_eq h)
    have below : x.clz.toNat < 64 := by simpa [BitVec.lt_def] using BitVec.clz_lt_iff_ne_zero.2 hx
    have top : Nat.log2 x.toNat = 63 - x.clz.toNat := by
      refine (Nat.log2_eq_iff pos).2 ⟨BitVec.two_pow_sub_clz_le_toNat_of_ne_zero (by decide) hx, ?_⟩
      rw [show 63 - x.clz.toNat + 1 = 64 - x.clz.toNat by omega]
      exact BitVec.toNat_lt_two_pow_sub_clz
    have len : bitLen x.toNat = 64 - x.clz.toNat := by
      rw [bitLen, if_neg pos, top]
      omega
    rw [clzWord, len, BitVec.toNat_ofNat]
    omega

/-- The model counts from bit 0 up until it meets the lowest one bit, or its bound. -/
theorem ctzNat_eq {n v c : Nat} (zeros : ∀ i < c, v.testBit i = false) (one : c = n ∨ c < n ∧ v.testBit c = true) :
    ctzNat n v = c := by
  induction n generalizing v c with
  | zero => rw [ctzNat]; omega
  | succ n ih =>
    cases c with
    | zero =>
      obtain h | ⟨-, h⟩ := one
      · cases h
      · rw [ctzNat, if_pos (by simpa using h)]
    | succ c =>
      have even : ¬ v % 2 = 1 := by simpa using zeros 0 (by omega)
      have rest : ctzNat n (v / 2) = c := by
        refine ih (fun i hi => ?_) (by simpa [Nat.testBit_succ] using one)
        simpa [Nat.testBit_succ] using zeros (i + 1) (by omega)
      rw [ctzNat, if_neg even, rest, Nat.add_comm]

theorem ctzNat_eq_ctz (x : Word) : BitVec.ofNat 64 (ctzNat 64 x.toNat) = x.ctz := by
  have count : ctzNat 64 x.toNat = x.ctz.toNat := by
    by_cases hx : x = 0
    · have full : x.ctz = 64 := by
        rw [BitVec.ctz_eq_reverse_clz]
        exact BitVec.clz_eq_iff_eq_zero.2 (BitVec.reverse_eq_zero_iff.2 hx)
      rw [full, hx]
      exact ctzNat_eq (fun i _ => Nat.zero_testBit i) (.inl rfl)
    · refine ctzNat_eq (fun i hi => BitVec.getLsbD_false_of_lt_ctz hi) (.inr ⟨?_, BitVec.getLsbD_true_ctz_of_ne_zero hx⟩)
      simpa [BitVec.lt_def] using BitVec.ctz_lt_iff_ne_zero.2 hx
  rw [count, BitVec.ofNat_toNat, BitVec.setWidth_eq]

/-- The count can take its last bit apart as well as its first. -/
theorem popCount_succ_last (v n : Nat) : popCount v (n + 1) = popCount v n + v / 2 ^ n % 2 := by
  induction n generalizing v with
  | zero => simp [popCount]
  | succ n ih => rw [popCount, ih, popCount, Nat.div_div_eq_div_mul, ← Nat.pow_succ', Nat.add_assoc]

theorem popCount_eq_cpopNatRec {w : Nat} (x : BitVec w) (n : Nat) : popCount x.toNat n = x.cpopNatRec n 0 := by
  induction n with
  | zero => rfl
  | succ n ih => rw [popCount_succ_last, ih, BitVec.cpopNatRec_succ, BitVec.cpopNatRec_add, BitVec.getLsbD, Nat.toNat_testBit]

/-! ## Completion -/

/-- A word whose meaning is `scalarOp` computes its value. -/
theorem computes_of_scalarOp {i : Instr} {s : State} {rs : List (BitVec 6)} {d : BitVec 6} {v w : Word}
    (meaning : exec i s = scalarOp i s rs d v) (value : v = w) : Computes i s rs d w := by
  subst value
  intro clean
  rw [meaning]
  exact scalarOp_next clean

/-! ## Encodings -/

theorem toNat_append_eq_add {m n : Nat} (x : BitVec m) (y : BitVec n) : (x ++ y).toNat = x.toNat * 2 ^ n + y.toNat := by
  rw [BitVec.toNat_append, ← Nat.shiftLeft_add_eq_or_of_lt y.isLt, Nat.shiftLeft_eq]

/-- A word is decoded as the instruction whose encoding it is. -/
theorem decode_of_eq_encode {i : Instr} {w : Nat} (trip : Laws.RoundTrip.Statement i) (wf : i.wf = true)
    (word : i.isEvent = false) (code : w = encode i) : decode w = .ok i :=
  code ▸ trip wf word

/-- Format A: major, d, a, b and an eight-bit function (R28). -/
theorem decode_formatA {i : Instr} {M d a b : BitVec 6} {F : BitVec 8} (trip : Laws.RoundTrip.Statement i)
    (code : encode i = M.toNat * 0x4000000 + F.toNat + d.toNat * 0x100000 + a.toNat * 0x4000 + b.toNat * 0x100)
    (wf : i.wf = true := by rfl) (word : i.isEvent = false := by rfl) : decode (M ++ d ++ a ++ b ++ F).toNat = .ok i := by
  refine decode_of_eq_encode trip wf word ?_
  simp only [toNat_append_eq_add]
  omega

/-- Format I: major, d, a and a 14-bit immediate. -/
theorem decode_formatI {i : Instr} {M d a : BitVec 6} {im : BitVec 14} (trip : Laws.RoundTrip.Statement i)
    (code : encode i = M.toNat * 0x4000000 + d.toNat * 0x100000 + a.toNat * 0x4000 + im.toNat)
    (wf : i.wf = true := by rfl) (word : i.isEvent = false := by rfl) : decode (M ++ d ++ a ++ im).toNat = .ok i := by
  refine decode_of_eq_encode trip wf word ?_
  simp only [toNat_append_eq_add]
  omega

/-- Format U: major, d and a 20-bit immediate. -/
theorem decode_formatU {i : Instr} {M d : BitVec 6} {im : BitVec 20} (trip : Laws.RoundTrip.Statement i)
    (code : encode i = M.toNat * 0x4000000 + d.toNat * 0x100000 + im.toNat)
    (wf : i.wf = true := by rfl) (word : i.isEvent = false := by rfl) : decode (M ++ d ++ im).toNat = .ok i := by
  refine decode_of_eq_encode trip wf word ?_
  simp only [toNat_append_eq_add]
  omega

/-! ## The obligations -/

/-- Settles O1: each register word is `scalarOp` of a value that the library's operation names, and its word is the encoder's. -/
theorem scalarRegisterResults : Obligations.ScalarRegisterResults := by
  unfold Obligations.ScalarRegisterResults
  refine ⟨fun s d a b => ?_, fun s d a => ?_, fun d a b => ?_⟩
  · dsimp only
    rw [← shamt_eq_setWidth, ← divS_eq, ← divU_eq]
    exact ⟨computes_of_scalarOp (exec_add d a b s) rfl, computes_of_scalarOp (exec_sub d a b s) rfl,
      computes_of_scalarOp (exec_and d a b s) rfl, computes_of_scalarOp (exec_or d a b s) rfl,
      computes_of_scalarOp (exec_xor d a b s) rfl, computes_of_scalarOp (exec_andn d a b s) rfl,
      computes_of_scalarOp (exec_sll d a b s) rfl, computes_of_scalarOp (exec_srl d a b s) rfl,
      computes_of_scalarOp (exec_sra d a b s) rfl, computes_of_scalarOp (exec_mul d a b s) rfl,
      computes_of_scalarOp (exec_mulh d a b s) (mulhS_eq _ _), computes_of_scalarOp (exec_mulhu d a b s) (mulhU_eq _ _),
      computes_of_scalarOp (exec_div d a b s) rfl, computes_of_scalarOp (exec_divu d a b s) rfl,
      computes_of_scalarOp (exec_rem d a b s) (remS_eq_sub_mul_divS _ _),
      computes_of_scalarOp (exec_remu d a b s) (remU_eq_sub_mul_divU _ _),
      computes_of_scalarOp (exec_min d a b s) (minS_eq _ _), computes_of_scalarOp (exec_max d a b s) (maxS_eq _ _),
      computes_of_scalarOp (exec_minu d a b s) rfl, computes_of_scalarOp (exec_maxu d a b s) rfl,
      computes_of_scalarOp (exec_seq d a b s) (boolWord_decide _), computes_of_scalarOp (exec_slt d a b s) (sltWord_eq _ _),
      computes_of_scalarOp (exec_sltu d a b s) (sltuWord_eq _ _)⟩
  · exact ⟨computes_of_scalarOp (exec_clz d a s) (clzWord_eq_clz _), computes_of_scalarOp (exec_ctz d a s) (ctzNat_eq_ctz _),
      computes_of_scalarOp (exec_popc d a s) (congrArg (BitVec.ofNat 64) (popCount_eq_cpopNatRec _ 64))⟩
  · simp only [List.forall_mem_cons, List.not_mem_nil, IsEmpty.forall_iff, implies_true, and_true]
    open Laws.RoundTrip in
    exact ⟨decode_formatA (add d a b) rfl, decode_formatA (sub d a b) rfl, decode_formatA (and d a b) rfl,
      decode_formatA (or d a b) rfl, decode_formatA (xor d a b) rfl, decode_formatA (andn d a b) rfl,
      decode_formatA (sll d a b) rfl, decode_formatA (srl d a b) rfl, decode_formatA (sra d a b) rfl,
      decode_formatA (mul d a b) rfl, decode_formatA (mulh d a b) rfl, decode_formatA (mulhu d a b) rfl,
      decode_formatA (div d a b) rfl, decode_formatA (divu d a b) rfl, decode_formatA (rem d a b) rfl,
      decode_formatA (remu d a b) rfl, decode_formatA (min d a b) rfl, decode_formatA (max d a b) rfl,
      decode_formatA (minu d a b) rfl, decode_formatA (maxu d a b) rfl, decode_formatA (clz d a) rfl,
      decode_formatA (ctz d a) rfl, decode_formatA (popc d a) rfl, decode_formatA (seq d a b) rfl,
      decode_formatA (slt d a b) rfl, decode_formatA (sltu d a b) rfl⟩

/-- Settles O2: as O1, with the extended immediate for b; an immediate shifted left by 14 is extended the same before and after. -/
theorem scalarImmediateResults : Obligations.ScalarImmediateResults := by
  unfold Obligations.ScalarImmediateResults
  intro s d a n i u
  simp only [List.forall_mem_cons, List.not_mem_nil, IsEmpty.forall_iff, implies_true, and_true]
  rw [← imm34_eq]
  refine ⟨computes_of_scalarOp (exec_addi d a i s) rfl, computes_of_scalarOp (exec_andi d a i s) rfl,
    computes_of_scalarOp (exec_ori d a i s) rfl, computes_of_scalarOp (exec_xori d a i s) rfl,
    computes_of_scalarOp (exec_slti d a i s) (sltWord_eq _ _), computes_of_scalarOp (exec_sltiu d a i s) (sltuWord_eq _ _),
    computes_of_scalarOp (exec_slli d a n s) rfl, computes_of_scalarOp (exec_srli d a n s) rfl,
    computes_of_scalarOp (exec_srai d a n s) rfl, computes_of_scalarOp (exec_immh d u s) rfl,
    computes_of_scalarOp (exec_pcrel d u s) rfl, ?_⟩
  open Laws.RoundTrip in
  exact ⟨⟨decode_formatI (addi d a i) rfl, decode_formatI (andi d a i) rfl, decode_formatI (ori d a i) rfl,
      decode_formatI (xori d a i) rfl, decode_formatI (slti d a i) rfl, decode_formatI (sltiu d a i) rfl⟩,
    ⟨decode_formatA (slli d a n) rfl, decode_formatA (srli d a n) rfl, decode_formatA (srai d a n) rfl⟩,
    decode_formatU (immh d u) rfl, decode_formatU (pcrel d u) rfl⟩

end Sys2Proof.Machine
end

section
/-! PROOFS. The scalar floating-point words that round nothing (spec 05 R73, R75, R76): completion, readings of patterns and their order. -/

namespace Sys2Proof.Machine

open Sys2Proof

/-! ## Completion -/

/-- Word `i` completes, writes the pattern `r` to `d`, leaves SRCTR and raises the invalid flag exactly where `nv`. -/
def GivesExactly (i : Instr) (s : State) (d : BitVec 6) (r : Nat) (nv : Bool) : Prop :=
  ∃ t, exec i s = .next t ∧ Completed s t (s.thr.pc + 4) ∧ Wrote s t d (BitVec.ofNat 64 r) ∧ FloatFrame s t ∧
    t.thr.srctr = s.thr.srctr ∧ t.thr.fflags = s.thr.fflags ||| (if nv then 1 else 0)

/-- A word whose meaning is `exactOp` of a pattern and at most the invalid flag gives that pattern. -/
theorem givesExactly_of_exactOp {i : Instr} {s : State} {rs : List (BitVec 6)} {d : BitVec 6} {x : Nat × Flags} {r : Nat} {nv : Bool}
    (clean : s.Clean rs) (meaning : exec i s = exactOp i s rs d x) (value : x = (r, if nv then flagNV else 0)) :
    GivesExactly i s d r nv := by
  subst value
  refine ⟨((s.ws d (BitVec.ofNat 64 r)).addFlags (if nv then flagNV else 0)).pcNext.retire, ?_, ?_, ?_, ?_, ?_, ?_⟩
  · rw [meaning, exactOp, State.consume_ok clean]
    rfl
  · exact ⟨by simp, by simp, by simp, by simp⟩
  · exact wrote_of_thread (u := s.thr) rfl rfl (by simp) (by simp)
  · unfold FloatFrame Thread.bookOf State.retire State.pcNext State.addFlags Thread.addFlags State.ws Thread.ws
    split <;> rfl
  · simp
  · cases nv <;> simp [flagNV]

/-! ## The fields of a pattern -/

/-- A number of `x` above `n` low bits `y`: both can be read back. -/
theorem mul_two_pow_add_div {x y n : Nat} (hy : y < 2 ^ n) : (x * 2 ^ n + y) / 2 ^ n = x := by
  rw [Nat.mul_comm, Nat.mul_add_div (Nat.two_pow_pos n), Nat.div_eq_of_lt hy, Nat.add_zero]

/-- A pattern put together from its sign, exponent and fraction. -/
def Fmt.pattern (f : Fmt) (neg : Bool) (expo frac : Nat) : Nat := f.signed neg (expo * 2 ^ f.mb + frac)

theorem Fmt.pattern_eq (f : Fmt) (neg : Bool) (e m : Nat) :
    f.pattern neg e m = (neg.toNat * 2 ^ f.eb + e) * 2 ^ f.mb + m := by
  cases neg with
  | false => simp [pattern, signed]
  | true => simp [pattern, signed, pow_add]; ring

theorem Fmt.fields_pattern (f : Fmt) (neg : Bool) {e m : Nat} (he : e < 2 ^ f.eb) (hm : m < 2 ^ f.mb) :
    f.sign (f.pattern neg e m) = neg ∧ f.expo (f.pattern neg e m) = e ∧ f.frac (f.pattern neg e m) = m := by
  have upper : f.pattern neg e m / 2 ^ f.mb = neg.toNat * 2 ^ f.eb + e := by
    rw [pattern_eq, mul_two_pow_add_div hm]
  refine ⟨?_, ?_, ?_⟩
  · rw [sign, Nat.add_comm f.eb, pow_add, ← Nat.div_div_eq_div_mul, upper, mul_two_pow_add_div he]
    cases neg <;> rfl
  · rw [expo, upper, Nat.mul_add_mod_of_lt he]
  · rw [frac, pattern_eq, Nat.mul_add_mod_of_lt hm]

theorem Fmt.pattern_fields (f : Fmt) {p : Nat} (hp : p < 2 ^ f.width) : f.pattern (f.sign p) (f.expo p) (f.frac p) = p := by
  have top : p / 2 ^ f.mb / 2 ^ f.eb < 2 := by
    rw [Nat.div_div_eq_div_mul, ← pow_add, Nat.div_lt_iff_lt_mul (Nat.two_pow_pos _), ← Nat.pow_succ']
    rwa [width, show 1 + f.eb + f.mb = f.mb + f.eb + 1 by omega] at hp
  have sgn : (f.sign p).toNat = p / 2 ^ f.mb / 2 ^ f.eb := by
    rw [sign, Nat.add_comm f.eb, pow_add, ← Nat.div_div_eq_div_mul]
    generalize p / 2 ^ f.mb / 2 ^ f.eb = k at top ⊢
    interval_cases k <;> rfl
  rw [pattern_eq, sgn, expo, frac, Nat.div_add_mod', Nat.div_add_mod']

/-! ## Readings as rationals -/

/-- A number lies between the infinities of `ratOf`. -/
def FVal.Bounded (v : FVal) : Prop := v.special = false → |ratOf v| < 2 ^ 2000

@[simp] theorem ratOf_inf (neg : Bool) : ratOf (.inf neg) = if neg then -2 ^ 2000 else 2 ^ 2000 := by
  cases neg <;> simp [ratOf]

theorem abs_ratOf_num (neg : Bool) (m : Nat) (e : Int) : |ratOf (.num neg m e)| = m * (2 : ℚ) ^ e := by
  have nonneg : (0 : ℚ) ≤ m * (2 : ℚ) ^ e := by positivity
  cases neg <;> simp [ratOf, abs_of_nonneg nonneg]

/-- A number counted in units of 2^q, for any q at most its exponent. -/
theorem ratOf_num_eq_scaled (neg : Bool) (m : Nat) {e q : Int} (hq : q ≤ e) :
    ratOf (.num neg m e) = scaled neg m e q * (2 : ℚ) ^ q := by
  have power : (2 : ℚ) ^ e = 2 ^ (e - q).toNat * 2 ^ q := by
    rw [← zpow_natCast, Int.toNat_of_nonneg (by omega), ← zpow_add₀ two_ne_zero, sub_add_cancel]
  cases neg <;> simp [ratOf, scaled, power, mul_assoc]

/-- The model's order of readings is that of the rationals, in all four cases of number and infinity. -/
theorem FVal.order_iff {x y : FVal} (hx : x.isNan = false) (hy : y.isNan = false) (bounded_x : x.Bounded) (bounded_y : y.Bounded) :
    (x.lt y = true ↔ ratOf x < ratOf y) ∧ (x.eq y = true ↔ ratOf x = ratOf y) := by
  match x, y with
  | .nan _, _ => cases hx
  | .inf _, .nan _ => cases hy
  | .num .., .nan _ => cases hy
  | .inf s, .inf t =>
    have apart : (-2 ^ 2000 : ℚ) < 2 ^ 2000 := neg_lt_self (by positivity)
    rw [ratOf_inf, ratOf_inf]
    generalize (2 : ℚ) ^ 2000 = B at apart
    cases s <;> cases t <;> simp [FVal.lt, FVal.eq, apart, apart.not_gt, apart.ne, apart.ne']
  | .inf s, .num t m e =>
    obtain ⟨low, high⟩ := abs_lt.1 (bounded_y rfl)
    rw [ratOf_inf, show FVal.lt (.inf s) (.num t m e) = s from rfl, show FVal.eq (.inf s) (.num t m e) = false from rfl]
    cases s
    · exact ⟨by simpa using high.le, by simpa using high.ne'⟩
    · exact ⟨by simpa using low, by simpa using low.ne⟩
  | .num t m e, .inf s =>
    obtain ⟨low, high⟩ := abs_lt.1 (bounded_x rfl)
    rw [ratOf_inf, show FVal.lt (.num t m e) (.inf s) = !s from rfl, show FVal.eq (.num t m e) (.inf s) = false from rfl]
    cases s
    · exact ⟨by simpa using high, by simpa using high.ne⟩
    · exact ⟨by simpa using low.le, by simpa using low.ne'⟩
  | .num s m e, .num t n k =>
    have positive : (0 : ℚ) < 2 ^ min e k := by positivity
    rw [ratOf_num_eq_scaled s m (min_le_left e k), ratOf_num_eq_scaled t n (min_le_right e k),
      mul_lt_mul_iff_left₀ positive, mul_left_inj' positive.ne', Int.cast_lt, Int.cast_inj]
    exact ⟨decide_eq_true_iff, decide_eq_true_iff⟩

/-! ## Readings of patterns -/

/-- A format with infinities, whose numbers lie between those of `ratOf`. -/
def Fmt.Wide (f : Fmt) : Prop := f.ieee = true ∧ 2 ^ f.eb ≤ f.bias + 2001

theorem fp32_wide : fp32.Wide := ⟨by decide, by decide⟩
theorem fp64_wide : fp64.Wide := ⟨by decide, by decide⟩

/-- The significand and the exponent of a pattern that reads as a number. -/
def Fmt.significand (f : Fmt) (p : Nat) : Nat := if f.expo p = 0 then f.frac p else f.frac p + 2 ^ f.mb
def Fmt.exponent (f : Fmt) (p : Nat) : Int := (max (f.expo p) 1 : Nat) - (f.bias : Int) - f.mb

theorem Fmt.val_special {f : Fmt} (hf : f.ieee = true) {p : Nat} (he : f.expo p = 2 ^ f.eb - 1) :
    f.val p = if f.frac p = 0 then .inf (f.sign p) else .nan (decide (f.frac p / 2 ^ (f.mb - 1) = 0)) := by
  have other : f ≠ f8e4 := by rintro rfl; cases hf
  simp [val, hf, he, other]

theorem Fmt.val_finite {f : Fmt} (hf : f.ieee = true) {p : Nat} (he : f.expo p ≠ 2 ^ f.eb - 1) :
    f.val p = .num (f.sign p) (f.significand p) (f.exponent p) := by
  have other : f ≠ f8e4 := by rintro rfl; cases hf
  have body : f.val p = if f.expo p = 0 then .num (f.sign p) (f.frac p) (1 - (f.bias : Int) - f.mb)
      else .num (f.sign p) (f.frac p + 2 ^ f.mb) ((f.expo p : Int) - f.bias - f.mb) := by
    simp [val, he, other]
  rw [body, significand, exponent]
  split_ifs with h
  · rw [h]; rfl
  · rw [max_eq_left (by omega)]

theorem Fmt.neg_val {f : Fmt} (hf : f.ieee = true) {p : Nat} (number : (f.val p).isNan = false) : (f.val p).neg = f.sign p := by
  by_cases he : f.expo p = 2 ^ f.eb - 1
  · rw [val_special hf he] at number ⊢
    split_ifs at number ⊢
    · rfl
    · cases number
  · rw [val_finite hf he, FVal.neg]

theorem Fmt.frac_lt (f : Fmt) (p : Nat) : f.frac p < 2 ^ f.mb := Nat.mod_lt _ (Nat.two_pow_pos _)
theorem Fmt.expo_lt (f : Fmt) (p : Nat) : f.expo p < 2 ^ f.eb := Nat.mod_lt _ (Nat.two_pow_pos _)

theorem Fmt.significand_lt (f : Fmt) (p : Nat) : f.significand p < 2 ^ (f.mb + 1) := by
  have := f.frac_lt p
  rw [significand, pow_succ]
  split_ifs <;> omega

theorem Fmt.val_bounded {f : Fmt} (hf : f.Wide) (p : Nat) : (f.val p).Bounded := by
  obtain ⟨ieee, narrow⟩ := hf
  intro finite
  have he : f.expo p ≠ 2 ^ f.eb - 1 := by
    intro he
    rw [val_special ieee he] at finite
    split_ifs at finite <;> cases finite
  rw [val_finite ieee he, abs_ratOf_num]
  have room : f.exponent p ≤ 2000 - (f.mb + 1 : Nat) := by
    have := f.expo_lt p
    unfold exponent
    omega
  calc (f.significand p : ℚ) * 2 ^ f.exponent p < (2 ^ (f.mb + 1) : Nat) * 2 ^ f.exponent p := by
        gcongr
        exact f.significand_lt p
    _ ≤ (2 : ℚ) ^ (f.mb + 1) * 2 ^ ((2000 : Int) - (f.mb + 1 : Nat)) := by
        push_cast
        gcongr
        · norm_num
        · exact_mod_cast room
    _ = 2 ^ 2000 := by
        rw [← zpow_natCast, ← zpow_add₀ two_ne_zero, add_sub_cancel]
        exact zpow_natCast 2 2000

/-! ## A reading and its sign give the pattern back -/

/-- A finite pattern's magnitude in units of the smallest subnormal number. -/
def Fmt.quanta (f : Fmt) (p : Nat) : Nat := f.significand p * 2 ^ (max (f.expo p) 1 - 1)

theorem Fmt.abs_ratOf_val {f : Fmt} (hf : f.ieee = true) {p : Nat} (he : f.expo p ≠ 2 ^ f.eb - 1) :
    |ratOf (f.val p)| = f.quanta p * (2 : ℚ) ^ (1 - (f.bias : Int) - f.mb) := by
  have power : f.exponent p = (max (f.expo p) 1 - 1 : Nat) + (1 - (f.bias : Int) - f.mb) := by
    unfold exponent
    omega
  rw [val_finite hf he, abs_ratOf_num, power, zpow_add₀ two_ne_zero, zpow_natCast, quanta]
  push_cast
  ring

/-- A greater exponent is a greater magnitude. -/
theorem Fmt.quanta_lt_of_expo_lt {f : Fmt} {p q : Nat} (h : f.expo p < f.expo q) : f.quanta p < f.quanta q := by
  calc f.quanta p < 2 ^ f.mb * 2 ^ f.expo p := by
        unfold quanta significand
        split_ifs with zero
        · simpa [zero] using f.frac_lt p
        · rw [max_eq_left (by omega)]
          have half : 2 ^ f.expo p = 2 * 2 ^ (f.expo p - 1) := by rw [← Nat.pow_succ']; congr 1; omega
          rw [half, ← Nat.mul_assoc]
          have := f.frac_lt p
          gcongr
          omega
    _ ≤ 2 ^ f.mb * 2 ^ (f.expo q - 1) := by
        gcongr
        · norm_num
        · omega
    _ ≤ f.quanta q := by
        rw [quanta, significand, if_neg (by omega), max_eq_left (by omega)]
        gcongr
        omega

theorem Fmt.fields_eq_of_quanta_eq {f : Fmt} {p q : Nat} (h : f.quanta p = f.quanta q) :
    f.expo p = f.expo q ∧ f.frac p = f.frac q := by
  have expo_eq : f.expo p = f.expo q := by
    obtain lt | eq | gt := Nat.lt_trichotomy (f.expo p) (f.expo q)
    · exact absurd h (quanta_lt_of_expo_lt lt).ne
    · exact eq
    · exact absurd h (quanta_lt_of_expo_lt gt).ne'
  refine ⟨expo_eq, ?_⟩
  unfold quanta at h
  rw [expo_eq] at h
  have significand_eq := Nat.eq_of_mul_eq_mul_right (Nat.two_pow_pos _) h
  unfold significand at significand_eq
  rw [expo_eq] at significand_eq
  split_ifs at significand_eq <;> omega

theorem Fmt.infinity_of_expo {f : Fmt} (hf : f.ieee = true) {p : Nat} (he : f.expo p = 2 ^ f.eb - 1)
    (number : (f.val p).isNan = false) : f.frac p = 0 ∧ |ratOf (f.val p)| = 2 ^ 2000 := by
  rw [val_special hf he] at number ⊢
  split_ifs at number ⊢ with zero
  · refine ⟨zero, ?_⟩
    rw [ratOf_inf]
    split_ifs <;> simp
  · cases number

theorem Fmt.abs_ratOf_val_lt {f : Fmt} (hf : f.Wide) {p : Nat} (he : f.expo p ≠ 2 ^ f.eb - 1) :
    |ratOf (f.val p)| < 2 ^ 2000 :=
  val_bounded hf p (by rw [val_finite hf.1 he]; rfl)

theorem Fmt.eq_of_ratOf_val_eq {f : Fmt} (hf : f.Wide) {p q : Nat} (hp : p < 2 ^ f.width) (hq : q < 2 ^ f.width)
    (nx : (f.val p).isNan = false) (ny : (f.val q).isNan = false) (value : ratOf (f.val p) = ratOf (f.val q))
    (sgn : (f.val p).neg = (f.val q).neg) : p = q := by
  have ieee := hf.1
  rw [neg_val ieee nx, neg_val ieee ny] at sgn
  have fields : f.expo p = f.expo q ∧ f.frac p = f.frac q := by
    by_cases ep : f.expo p = 2 ^ f.eb - 1 <;> by_cases eq : f.expo q = 2 ^ f.eb - 1
    · exact ⟨ep.trans eq.symm, (infinity_of_expo ieee ep nx).1.trans (infinity_of_expo ieee eq ny).1.symm⟩
    · exact absurd (infinity_of_expo ieee ep nx).2 (value ▸ abs_ratOf_val_lt hf eq).ne
    · exact absurd (infinity_of_expo ieee eq ny).2 (value ▸ abs_ratOf_val_lt hf ep).ne
    · have magnitude := congrArg abs value
      rw [abs_ratOf_val ieee ep, abs_ratOf_val ieee eq] at magnitude
      exact fields_eq_of_quanta_eq (by exact_mod_cast mul_right_cancel₀ (by positivity) magnitude)
  obtain ⟨expo_eq, frac_eq⟩ := fields
  rw [← f.pattern_fields hp, ← f.pattern_fields hq, sgn, expo_eq, frac_eq]

/-! ## Minimum, maximum and compares -/

/-- The NaN of cause 1 is delivered into the wide formats with no flag of its own. -/
theorem Fmt.nanOf_flags {f : Fmt} (hf : f.Wide) (c : Nat) : (f.nanOf c).2 = 0 := by
  have other : f ≠ f4 := by rintro rfl; exact absurd hf.1 (by decide)
  rw [nanOf, if_neg other]
  split_ifs <;> rfl

/-- Whether an operand is signalling. -/
def FVal.signals (x y : FVal) : Bool := decide (x = .nan true) || decide (y = .nan true)

theorem sigFlag_pair (x y : FVal) : sigFlag [x, y] = if x.signals y then flagNV else 0 := by
  simp [sigFlag, FVal.signals]

theorem FVal.signals_numbers {x y : FVal} (nx : x.isNan = false) (ny : y.isNan = false) : x.signals y = false := by
  have quiet : ∀ {v : FVal}, v.isNan = false → v ≠ .nan true := by rintro v h rfl; cases h
  simp [signals, quiet nx, quiet ny]

/-- FMIN and FMAX of two NaNs, of one, and of none (R75). -/
theorem Fmt.pick_nans {f : Fmt} (hf : f.Wide) {p q : Nat} (nx : (f.val p).isNan = true) (ny : (f.val q).isNan = true) (wantMax : Bool) :
    f.pick wantMax p q = ((f.nanOf 1).1, if (f.val p).signals (f.val q) then flagNV else 0) := by
  simp only [pick, nx, ny, sigFlag_pair, nanOf_flags hf, joinFlags]
  exact congrArg (Prod.mk _) (Nat.zero_or _)

theorem Fmt.pick_nan_left {f : Fmt} {p q : Nat} (nx : (f.val p).isNan = true) (ny : (f.val q).isNan = false) (wantMax : Bool) :
    f.pick wantMax p q = (q, if (f.val p).signals (f.val q) then flagNV else 0) := by
  simp only [pick, nx, ny, sigFlag_pair]

theorem Fmt.pick_nan_right {f : Fmt} {p q : Nat} (nx : (f.val p).isNan = false) (ny : (f.val q).isNan = true) (wantMax : Bool) :
    f.pick wantMax p q = (p, if (f.val p).signals (f.val q) then flagNV else 0) := by
  simp only [pick, nx, ny, sigFlag_pair]

/-- Whether FMIN takes the first of two numbers: the lesser, or of two equal ones a negative one. -/
def FVal.first (x y : FVal) : Bool := decide (ratOf x < ratOf y) || (decide (ratOf x = ratOf y) && x.neg)

/-- Where both operands are equal and negative they are one pattern, so it does not matter which the model takes. -/
theorem Fmt.pick_numbers {f : Fmt} (hf : f.Wide) {p q : Nat} (hp : p < 2 ^ f.width) (hq : q < 2 ^ f.width)
    (nx : (f.val p).isNan = false) (ny : (f.val q).isNan = false) (wantMax : Bool) :
    f.pick wantMax p q = (if (f.val p).first (f.val q) != wantMax then p else q, 0) := by
  obtain ⟨lt_iff, eq_iff⟩ := FVal.order_iff nx ny (val_bounded hf p) (val_bounded hf q)
  have lt_eq : (f.val p).lt (f.val q) = decide (ratOf (f.val p) < ratOf (f.val q)) := by simp [← lt_iff]
  have eq_eq : (f.val p).eq (f.val q) = decide (ratOf (f.val p) = ratOf (f.val q)) := by simp [← eq_iff]
  simp only [pick, nx, ny, sigFlag_pair, FVal.signals_numbers nx ny, lt_eq, eq_eq, FVal.first]
  by_cases tie : ratOf (f.val p) = ratOf (f.val q) ∧ (f.val p).neg = true ∧ (f.val q).neg = true
  · obtain ⟨value, negp, negq⟩ := tie
    have same : p = q := eq_of_ratOf_val_eq hf hp hq nx ny value (negp.trans negq.symm)
    subst same
    simp
  · have condition : (decide (ratOf (f.val p) = ratOf (f.val q)) && (f.val p).neg && !(f.val q).neg) =
        (decide (ratOf (f.val p) = ratOf (f.val q)) && (f.val p).neg) := by
      cases np : (f.val p).neg with
      | false => simp
      | true => simpa [np, and_comm, imp_not_comm] using tie
    rw [condition]
    simp

/-- The compares of R76 where an operand is a NaN, and of two numbers. -/
theorem fcmp_nan {x y : FVal} (nan : (x.isNan || y.isNan) = true) (quietInvalid : Bool) (r : FVal → FVal → Bool) :
    fcmp quietInvalid r x y = (0, if quietInvalid || x.signals y then flagNV else 0) := by
  rw [fcmp, if_pos nan, sigFlag_pair]
  cases quietInvalid <;> rfl

theorem fcmp_numbers {x y : FVal} (nx : x.isNan = false) (ny : y.isNan = false) (quietInvalid : Bool) {r : FVal → FVal → Bool}
    {P : Prop} [Decidable P] (order : r x y = true ↔ P) : fcmp quietInvalid r x y = (if P then 1 else 0, 0) := by
  simp [fcmp, nx, ny, order]

/-! ## Widening FP32 to FP64 -/

theorem bitLen_bounds {m : Nat} (hm : m ≠ 0) : 0 < bitLen m ∧ 2 ^ (bitLen m - 1) ≤ m ∧ m < 2 ^ bitLen m := by
  rw [bitLen, if_neg hm]
  obtain ⟨low, high⟩ := (Nat.log2_eq_iff hm).1 rfl
  exact ⟨Nat.succ_pos _, low, high⟩

theorem bitLen_le {m n : Nat} (hm : m < 2 ^ n) : bitLen m ≤ n := by
  by_cases h : m = 0
  · simp [bitLen, h]
  · obtain ⟨pos, low, -⟩ := bitLen_bounds h
    have := (Nat.pow_lt_pow_iff_right (by decide : 1 < 2)).1 (low.trans_lt hm)
    omega

theorem fp64_above_eq_false {k : Nat} {q : Int} (hk : k < 2 ^ 53) (hq : q ≤ 971) : fp64.above k q false = false := by
  have greatest : fp64.val fp64.maxPat = .num false (2 ^ 53 - 1) 971 := by decide
  have room : 2 ^ 53 - 1 ≤ (2 ^ 53 - 1) * 2 ^ (971 - q).toNat := Nat.le_mul_of_pos_right _ (Nat.two_pow_pos _)
  simp only [Fmt.above, greatest, if_pos hq, Bool.and_false, Bool.or_false, decide_eq_false_iff_not]
  omega

/-- Nothing left below the quantum and nothing above the format: the number itself is delivered, with no flag. -/
theorem Fmt.round_exact (f : Fmt) (rn : Rnd) (neg : Bool) {m k : Nat} {e q : Int}
    (quantum : max (e + bitLen m - 1 - f.mb) (1 - (f.bias : Int) - f.mb) = q) (cut : cutAt m e q = (k, 0, 0))
    (fits : f.above m e false = false) (fits' : f.above k q false = false) (low : 2 ^ f.mb ≤ k) (high : k < 2 ^ (f.mb + 1)) :
    f.round rn neg m e false = (f.pattern neg (q + f.mb + f.bias).toNat (k - 2 ^ f.mb), 0) := by
  simp [Fmt.round, quantum, cut, fits, fits', roundsUp, low.not_gt, high.ne, pattern]

/-- FP64 holds such a number as a normal one. -/
theorem fp64_round_exact (rn : Rnd) (neg : Bool) {m : Nat} {e : Int} (hm : m ≠ 0) (fits : m < 2 ^ 53) (low : -1022 ≤ e) (high : e ≤ 971) :
    ∃ k, k = m * 2 ^ (53 - bitLen m) ∧ 2 ^ 52 ≤ k ∧ k < 2 ^ 53 ∧
      fp64.round rn neg m e false = (fp64.pattern neg (e + bitLen m + 1022).toNat (k - 2 ^ 52), 0) := by
  obtain ⟨pos, least, most⟩ := bitLen_bounds hm
  have len := bitLen_le fits
  have atLeast : 2 ^ 52 ≤ m * 2 ^ (53 - bitLen m) := by
    calc 2 ^ 52 = 2 ^ (bitLen m - 1) * 2 ^ (53 - bitLen m) := by rw [← pow_add]; congr 1; omega
      _ ≤ m * 2 ^ (53 - bitLen m) := Nat.mul_le_mul_right _ least
  have below : m * 2 ^ (53 - bitLen m) < 2 ^ 53 := by
    calc m * 2 ^ (53 - bitLen m) < 2 ^ bitLen m * 2 ^ (53 - bitLen m) := Nat.mul_lt_mul_of_pos_right most (Nat.two_pow_pos _)
      _ = 2 ^ 53 := by rw [← pow_add]; congr 1; omega
  have quantum : max (e + bitLen m - 1 - (52 : Nat)) (1 - ((1023 : Nat) : Int) - (52 : Nat)) = e + bitLen m - 53 := by omega
  have cut : cutAt m e (e + bitLen m - 53) = (m * 2 ^ (53 - bitLen m), 0, 0) := by
    rw [cutAt, if_pos (by omega), show (e - (e + bitLen m - 53)).toNat = 53 - bitLen m by omega]
  refine ⟨_, rfl, atLeast, below, ?_⟩
  rw [fp64.round_exact rn neg quantum cut (fp64_above_eq_false fits high) (fp64_above_eq_false below (by omega)) atLeast below]
  rw [show e + bitLen m - 53 + (fp64.mb : Int) + fp64.bias = e + bitLen m + 1022 by simp only [fp64]; omega]
  rfl

theorem Fmt.val_pattern {f : Fmt} (hf : f.ieee = true) (neg : Bool) {e m : Nat} (he : e < 2 ^ f.eb - 1) (hm : m < 2 ^ f.mb) :
    f.val (f.pattern neg e m) =
      .num neg (if e = 0 then m else m + 2 ^ f.mb) ((max e 1 : Nat) - (f.bias : Int) - f.mb) := by
  obtain ⟨sgn, expo, frac⟩ := f.fields_pattern neg (by omega : e < 2 ^ f.eb) hm
  rw [val_finite hf (by omega), significand, exponent, sgn, expo, frac]

theorem Fmt.val_pattern_inf {f : Fmt} (hf : f.ieee = true) (neg : Bool) : f.val (f.pattern neg (2 ^ f.eb - 1) 0) = .inf neg := by
  have room := Nat.two_pow_pos f.eb
  obtain ⟨sgn, expo, frac⟩ := f.fields_pattern neg (by omega : 2 ^ f.eb - 1 < 2 ^ f.eb) (Nat.two_pow_pos f.mb)
  rw [val_special hf expo, if_pos frac, sgn]

/-- What FP64 delivers for an infinity, a zero or a number that it holds as a normal one reads as that value. -/
theorem fp64_deliver_exact (rn : Rnd) {v : FVal} (number : v.isNan = false)
    (range : ∀ neg m e, v = .num neg m e → m < 2 ^ 53 ∧ -1022 ≤ e ∧ e ≤ 971) :
    ∃ r, fp64.deliver rn v = (r, 0) ∧ ratOf (fp64.val r) = ratOf v ∧ (fp64.val r).neg = v.neg := by
  match v with
  | .nan _ => cases number
  | .inf neg =>
    refine ⟨fp64.pattern neg (2 ^ fp64.eb - 1) 0, ?_, ?_⟩
    · rw [Fmt.deliver, Fmt.infOf, if_neg (by decide), if_neg (by decide), Fmt.pattern, Nat.add_zero]
    · rw [Fmt.val_pattern_inf fp64_wide.1]
      exact ⟨rfl, rfl⟩
  | .num neg m e =>
    obtain ⟨fits, low, high⟩ := range neg m e rfl
    by_cases zero : m = 0
    · refine ⟨fp64.pattern neg 0 0, by rw [Fmt.deliver, if_pos zero, Fmt.pattern, Nat.zero_mul], ?_⟩
      rw [Fmt.val_pattern fp64_wide.1 neg (by decide) (Nat.two_pow_pos _), if_pos rfl, zero]
      exact ⟨by simp [ratOf], rfl⟩
    · obtain ⟨k, shifted, atLeast, below, rounded⟩ := fp64_round_exact rn neg zero fits low high
      have len := bitLen_le fits
      have pos := (bitLen_bounds zero).1
      refine ⟨_, by rw [Fmt.deliver, if_neg zero, rounded], ?_⟩
      have expo : (e + bitLen m + 1022).toNat < 2 ^ fp64.eb - 1 := by simp only [fp64]; omega
      have frac : k - 2 ^ 52 < 2 ^ fp64.mb := by simp only [fp64]; omega
      rw [Fmt.val_pattern fp64_wide.1 neg expo frac, if_neg (by omega)]
      refine ⟨?_, rfl⟩
      have significand : k - 2 ^ 52 + 2 ^ fp64.mb = k := by simp only [fp64]; omega
      have exponent : ((max (e + bitLen m + 1022).toNat 1 : Nat) : Int) - (fp64.bias : Int) - fp64.mb = e - (53 - bitLen m : Nat) := by
        simp only [fp64]; omega
      have value : (k : ℚ) * 2 ^ (e - (53 - bitLen m : Nat)) = m * 2 ^ e := by
        rw [shifted, zpow_sub₀ two_ne_zero, zpow_natCast]
        push_cast
        field_simp
      rw [significand, exponent, ratOf, ratOf, mul_assoc, mul_assoc, value]

/-- A NaN is delivered as the NaN of cause 1, invalid where it signals (R73, R74). -/
theorem fp64_deliver_nan (rn : Rnd) {v : FVal} (nan : v.isNan = true) :
    fp64.deliver rn v = (0x7FF8000000000001, if decide (v = .nan true) then flagNV else 0) := by
  match v with
  | .nan true => rfl
  | .nan false => rfl

theorem fp32_val_range (p : Nat) (neg : Bool) (m : Nat) (e : Int) (h : fp32.val p = .num neg m e) :
    m < 2 ^ 53 ∧ -1022 ≤ e ∧ e ≤ 971 := by
  have he : fp32.expo p ≠ 2 ^ fp32.eb - 1 := by
    intro he
    rw [Fmt.val_special fp32_wide.1 he] at h
    split_ifs at h
  rw [Fmt.val_finite fp32_wide.1 he] at h
  cases h
  have small := fp32.significand_lt p
  have top := fp32.expo_lt p
  simp only [fp32, Fmt.exponent] at small top ⊢
  omega

/-! ## The obligation -/

/-- The clauses of R75 and R76 for one format: what the five words give of the patterns `p` and `q`. -/
def OrdersAt (f : Fmt) (p q : Nat) (gives : Instr → Nat → Bool → Prop) (mn mx eq lt le : Instr) : Prop :=
  let x := f.val p
  let y := f.val q
  let sig := x.signals y
  (x.isNan = true → y.isNan = true → gives mn (f.nanOf 1).1 sig ∧ gives mx (f.nanOf 1).1 sig) ∧
  (x.isNan = true → y.isNan = false → gives mn q sig ∧ gives mx q sig) ∧
  (x.isNan = false → y.isNan = true → gives mn p sig ∧ gives mx p sig) ∧
  (x.isNan = false → y.isNan = false → gives mn (if x.first y then p else q) false ∧ gives mx (if x.first y then q else p) false ∧
    gives eq (if ratOf x = ratOf y then 1 else 0) false ∧ gives lt (if ratOf x < ratOf y then 1 else 0) false ∧
    gives le (if ratOf x ≤ ratOf y then 1 else 0) false) ∧
  ((x.isNan || y.isNan) = true → gives eq 0 sig ∧ gives lt 0 true ∧ gives le 0 true)

/-- Five words whose meanings are the model's minimum, maximum and compares are ordered as R75 and R76 say. -/
theorem ordersAt_of_exactOp {f : Fmt} (hf : f.Wide) {s : State} {d a b : BitVec 6} (clean : s.Clean [a, b]) {p q : Nat}
    (hp : p < 2 ^ f.width) (hq : q < 2 ^ f.width) {mn mx eq lt le : Instr}
    (min : exec mn s = exactOp mn s [a, b] d (f.pick false p q)) (max : exec mx s = exactOp mx s [a, b] d (f.pick true p q))
    (equal : exec eq s = exactOp eq s [a, b] d (fcmp false FVal.eq (f.val p) (f.val q)))
    (less : exec lt s = exactOp lt s [a, b] d (fcmp true FVal.lt (f.val p) (f.val q)))
    (atMost : exec le s = exactOp le s [a, b] d (fcmp true (fun x y => x.lt y || x.eq y) (f.val p) (f.val q))) :
    OrdersAt f p q (fun i r nv => GivesExactly i s d r nv) mn mx eq lt le := by
  refine ⟨fun nx ny => ⟨?_, ?_⟩, fun nx ny => ⟨?_, ?_⟩, fun nx ny => ⟨?_, ?_⟩, fun nx ny => ?_, fun nan => ⟨?_, ?_, ?_⟩⟩
  · exact givesExactly_of_exactOp clean min (Fmt.pick_nans hf nx ny false)
  · exact givesExactly_of_exactOp clean max (Fmt.pick_nans hf nx ny true)
  · exact givesExactly_of_exactOp clean min (Fmt.pick_nan_left nx ny false)
  · exact givesExactly_of_exactOp clean max (Fmt.pick_nan_left nx ny true)
  · exact givesExactly_of_exactOp clean min (Fmt.pick_nan_right nx ny false)
  · exact givesExactly_of_exactOp clean max (Fmt.pick_nan_right nx ny true)
  · obtain ⟨lt_iff, eq_iff⟩ := FVal.order_iff nx ny (Fmt.val_bounded hf p) (Fmt.val_bounded hf q)
    have le_iff : ((f.val p).lt (f.val q) || (f.val p).eq (f.val q)) = true ↔ ratOf (f.val p) ≤ ratOf (f.val q) := by
      rw [Bool.or_eq_true, lt_iff, eq_iff, le_iff_lt_or_eq]
    refine ⟨givesExactly_of_exactOp clean min ?_, givesExactly_of_exactOp clean max ?_,
      givesExactly_of_exactOp clean equal (fcmp_numbers nx ny _ eq_iff),
      givesExactly_of_exactOp clean less (fcmp_numbers nx ny _ lt_iff),
      givesExactly_of_exactOp clean atMost (fcmp_numbers nx ny _ le_iff)⟩
    · rw [Fmt.pick_numbers hf hp hq nx ny, Bool.bne_false]
      rfl
    · rw [Fmt.pick_numbers hf hp hq nx ny]
      cases (f.val p).first (f.val q) <;> rfl
  · exact givesExactly_of_exactOp clean equal (fcmp_nan nan _ _)
  · exact givesExactly_of_exactOp clean less (fcmp_nan nan _ _)
  · exact givesExactly_of_exactOp clean atMost (fcmp_nan nan _ _)

theorem operandOf_lt (f : Fmt) (v : Word) : operandOf f v < 2 ^ f.width := Nat.mod_lt _ (Nat.two_pow_pos _)

/-- Settles O7: the model's order of readings is that of the rationals, and FP64 holds every FP32 value. -/
theorem scalarFloatMinMaxCompare : Obligations.ScalarFloatMinMaxCompare := by
  unfold Obligations.ScalarFloatMinMaxCompare
  intro s d a b clean
  have cleanA : s.Clean [a] := fun r hr => clean r (List.mem_cons.2 (.inl (List.mem_singleton.1 hr)))
  have widen := exec_fwdn d a s
  refine ⟨?_, ?_, fun nan => ?_, fun number => ?_⟩
  · exact ordersAt_of_exactOp fp32_wide clean (operandOf_lt fp32 _) (operandOf_lt fp32 _) (exec_fminS d a b s) (exec_fmaxS d a b s)
      (exec_fceqS d a b s) (exec_fcltS d a b s) (exec_fcleS d a b s)
  · exact ordersAt_of_exactOp fp64_wide clean (operandOf_lt fp64 _) (operandOf_lt fp64 _) (exec_fminD d a b s) (exec_fmaxD d a b s)
      (exec_fceqD d a b s) (exec_fcltD d a b s) (exec_fcleD d a b s)
  · exact givesExactly_of_exactOp cleanA widen (fp64_deliver_nan _ nan)
  · obtain ⟨r, delivered, value, sgn⟩ := fp64_deliver_exact s.thr.scalarRnd number (fp32_val_range _)
    exact ⟨r, value, sgn, givesExactly_of_exactOp cleanA widen delivered⟩

end Sys2Proof.Machine
end
